-- ==== Sys2Proof/Word.lean ====
section
/-! DEFINITION. The word types of the machine: 64-bit registers, 1,024-bit vectors, 128-bit masks and lines. -/

namespace Sys2Proof

/-- A 64-bit register value (R161). -/
abbrev Word := BitVec 64
/-- A byte of memory (R6). -/
abbrev Byte := BitVec 8
/-- A vector register (R161). -/
abbrev VWord := BitVec 1024
/-- A mask register (R161): bit b governs byte b of a vector (R163). -/
abbrev QWord := BitVec 128
/-- The 64 bytes of a line, byte 0 in bits [7:0] (R6). -/
abbrev LineData := BitVec 512
/-- A 96-bit instruction, bit 0 the least significant bit of the first word (R167). -/
abbrev InstrWord := BitVec 96

end Sys2Proof
end

