-- ==== Sys2Proof/Syntax.lean ====
section
/-! DEFINITION. The instruction set and the steps of the other agents: one constructor for each row of
spec/opcode_table.json. The 203 instruction rows carry the fields of their encodings (chapters 08 to 18); the other
rows are the steps of chapter 95, whose arguments name the unit that steps and the data that reaches it from outside. -/

namespace Sys2Proof

/-- Numbers of g, v, q, p and a registers (Table 08-6). -/
abbrev GReg := BitVec 6
abbrev VReg := BitVec 5
abbrev QReg := BitVec 3
abbrev PReg := BitVec 3
abbrev AReg := BitVec 2

/-- The fields every instruction has beside its operands: guard, lookahead and hints (R167, R170, R171, R174). -/
structure Hdr where
  neg : Bool
  p : PReg
  la : BitVec 4
  yld : Bool
  reu : Bool
  str : Bool
  deriving DecidableEq, Repr

/-- Operand B as a g register or IMM (R188). -/
inductive GI where
  | reg (r : GReg)
  | imm (v : BitVec 32)
  deriving DecidableEq, Repr

/-- A predicate source with its NEG bit (R200). -/
structure PSrc where
  p : PReg
  neg : Bool
  deriving DecidableEq, Repr

/-- Operand B of PAND, POR and PXOR: a predicate, or the bit IMM[0] (Table 09-3). -/
inductive PB where
  | pred (x : PSrc)
  | imm (c : Bool)
  deriving DecidableEq, Repr

/-- The source of PMOV: a predicate or a g register, either inverted (Table 09-3). -/
inductive PMovSrc where
  | pred (x : PSrc)
  | g (r : GReg) (neg : Bool)
  deriving DecidableEq, Repr

/-- A vector source with NEG and BC (Table 10-1). -/
structure VSrc where
  v : VReg
  neg : Bool
  bc : Bool
  deriving DecidableEq, Repr

/-- Operand B of an integer vector form: vector, scalar in every lane, or IMMB (R211). -/
inductive VB where
  | v (x : VSrc)
  | g (r : GReg)
  | imm (i : BitVec 16)
  deriving DecidableEq, Repr

/-- Operand B of a floating-point vector form: no IMM select (R218). -/
inductive VG where
  | v (x : VSrc)
  | g (r : GReg)
  deriving DecidableEq, Repr

/-- A g register or IMMB, for slide amounts and element indices (R226). -/
inductive GI16 where
  | reg (r : GReg)
  | imm (i : BitVec 16)
  deriving DecidableEq, Repr

/-- Mask register and the Z bit of a vector form (Table 10-2). -/
structure VMask where
  msk : QReg
  z : Bool
  deriving DecidableEq, Repr

/-- Order scopes (Table 12-1). -/
inductive Scope where
  | core | clu | fld | prt | sys
  deriving DecidableEq, Repr

/-- Order annotations in the code order of FN[3:2] of OPC 0x05 (Table 08-9). -/
inductive Order where
  | rlx | acq | rel | ar
  deriving DecidableEq, Repr

/-- Placement of an atomic (Table 08-9). -/
inductive Place where
  | adaptive | home | near
  deriving DecidableEq, Repr

/-- Element type codes 0x0 to 0xE (Table 08-8). -/
inductive ETy where
  | b | h | w | d | f64 | f32 | f16 | bf16 | f8e4 | f8e5 | f4 | l4 | i8 | i4 | ui8
  deriving DecidableEq, Repr

/-- Rounding modes (Table 03-4). -/
inductive RMode where
  | rne | rtz | rup | rdn | rna
  deriving DecidableEq, Repr

/-- Conditions in the code order of CMP (R200). -/
inductive Cond where
  | eq | ne | lt | ge | ltu | geu | bits | nbits
  deriving DecidableEq, Repr

/-- Access sizes of LD and ST (Table 08-10). -/
inductive Sz where
  | b | h | w | d
  deriving DecidableEq, Repr

/-- Atomic operations in the code order of Table 13-4. -/
inductive AtOp where
  | add | min | max | minu | maxu | and | or | xor | swp | cas | cas2 | fadd | inc
  deriving DecidableEq, Repr

/-- Size, order, placement and scope of an atomic (R274). -/
structure AtMode where
  dw : Bool
  ord : Order
  pl : Place
  sc : Scope
  deriving DecidableEq, Repr

/-- The IMM fields of SEND and SENDV (Table 17-1). -/
structure MsgImm where
  dport : BitVec 5
  rport : BitVec 5
  rpy : Bool
  len8 : BitVec 5
  tag : BitVec 16
  deriving DecidableEq, Repr

/-- What the channel half finds in a line it reads (R28): no error, a single-bit error, an uncorrectable one. -/
inductive LineErr where
  | none | single | double
  deriving DecidableEq, Repr

/-- MetaValue of a host MemRd; No-Op counts as A (R312). -/
inductive Meta where
  | i | s | a | noop
  deriving DecidableEq, Repr

/-- Answers to a back-invalidation snoop (R312). -/
inductive BiRsp where
  | i | s | e
  deriving DecidableEq, Repr

/-- The path a Slagan command arrives on: Ethernet, or the mailbox of a field's function (R394). -/
inductive Via where
  | ethernet
  | mailbox (field : Nat)
  deriving DecidableEq, Repr

/-- A flit as it arrives on the optical port group (R318, R321): the payload words are those of one put, record or
RAMO, or a reply-class item. edge: of four-bit elements, the low nibble of the first byte (bit 0) and the high nibble of the
last (bit 1) stay as they are. put: of a put that counts, the handle and offset of its counter, and whether the flit is its
last (R300). id: the request that an import request or reply is (R316). -/
inductive FlitBody where
  | data (f : Nat) (handle : Nat) (off : Nat) (len : Nat) (bytes : BitVec 2048) (edge : BitVec 2 := 0)
      (put : Option (Nat × Nat × Bool) := none)
  | inc (f : Nat) (handle : Nat) (off : Nat)
  | ramo (f : Nat) (handle : Nat) (off : Nat) (op : AtOp) (dw : Bool) (b c : BitVec 128) (item : Nat)
  | ack (f : Nat) (vc : Nat) (seq : Nat) (code : Nat)
  | ramoReply (item : Nat) (code : Nat) (old : BitVec 128) (flags : BitVec 5)
  | importReq (f : Nat) (handle : Nat) (srcField : Nat) (slot : Nat) (id : Nat := 0)
  | importReply (f : Nat) (slot : Nat) (ecode : Nat) (rd wr : Bool) (size : Nat) (id : Nat := 0)
  deriving DecidableEq, Repr

/-- One flit: source and destination module, source field, virtual channel (4 = reply class), sequence number. -/
structure Flit where
  src : Nat
  dest : Nat
  srcField : Nat
  vc : Nat
  seq : Nat
  item : Nat
  body : FlitBody
  deriving DecidableEq, Repr

/-- One constructor per row of spec/opcode_table.json. -/
inductive Instr where
  -- OPC 0x01 (Table 09-1)
  | add (h : Hdr) (w32 : Bool) (d a : GReg) (b : GI)
  | sub (h : Hdr) (w32 : Bool) (d a : GReg) (b : GI)
  | mul (h : Hdr) (w32 : Bool) (d a : GReg) (b : GI)
  | mulh (h : Hdr) (w32 : Bool) (d a : GReg) (b : GI)
  | mulhu (h : Hdr) (w32 : Bool) (d a : GReg) (b : GI)
  | div (h : Hdr) (w32 : Bool) (d a : GReg) (b : GI)
  | divu (h : Hdr) (w32 : Bool) (d a : GReg) (b : GI)
  | rem (h : Hdr) (w32 : Bool) (d a : GReg) (b : GI)
  | remu (h : Hdr) (w32 : Bool) (d a : GReg) (b : GI)
  | and (h : Hdr) (w32 : Bool) (d a : GReg) (b : GI)
  | or (h : Hdr) (w32 : Bool) (d a : GReg) (b : GI)
  | xor (h : Hdr) (w32 : Bool) (d a : GReg) (b : GI)
  | andn (h : Hdr) (w32 : Bool) (d a : GReg) (b : GI)
  | orn (h : Hdr) (w32 : Bool) (d a : GReg) (b : GI)
  | shl (h : Hdr) (w32 : Bool) (d a : GReg) (b : GI)
  | shr (h : Hdr) (w32 : Bool) (d a : GReg) (b : GI)
  | sar (h : Hdr) (w32 : Bool) (d a : GReg) (b : GI)
  | rol (h : Hdr) (w32 : Bool) (d a : GReg) (b : GI)
  | ror (h : Hdr) (w32 : Bool) (d a : GReg) (b : GI)
  | min (h : Hdr) (w32 : Bool) (d a : GReg) (b : GI)
  | max (h : Hdr) (w32 : Bool) (d a : GReg) (b : GI)
  | minu (h : Hdr) (w32 : Bool) (d a : GReg) (b : GI)
  | maxu (h : Hdr) (w32 : Bool) (d a : GReg) (b : GI)
  | clz (h : Hdr) (w32 : Bool) (d a : GReg)
  | ctz (h : Hdr) (w32 : Bool) (d a : GReg)
  | popc (h : Hdr) (w32 : Bool) (d a : GReg)
  | brev (h : Hdr) (w32 : Bool) (d a : GReg)
  | bswap (h : Hdr) (w32 : Bool) (d a : GReg)
  | sext (h : Hdr) (d a : GReg) (b : GI)
  | zext (h : Hdr) (d a : GReg) (b : GI)
  | bfx (h : Hdr) (d a : GReg) (b : GI)
  | bfi (h : Hdr) (d a : GReg) (b : GI)
  | lea (h : Hdr) (d a : GReg) (b : GI) (k : BitVec 2)
  | sel (h : Hdr) (d a b : GReg) (c : PSrc)
  | mov (h : Hdr) (d a : GReg)
  | movi (h : Hdr) (d : GReg) (imm : BitVec 32)
  | movhi (h : Hdr) (d : GReg) (imm : BitVec 32)
  -- OPC 0x02 (Table 09-3)
  | cmp (h : Hdr) (c : Cond) (w32 : Bool) (d : PReg) (a : GReg) (b : GI)
  | pand (h : Hdr) (d : PReg) (a : PSrc) (b : PB)
  | por (h : Hdr) (d : PReg) (a : PSrc) (b : PB)
  | pxor (h : Hdr) (d : PReg) (a : PSrc) (b : PB)
  | pnot (h : Hdr) (d : PReg) (a : PSrc)
  | pmov (h : Hdr) (d : PReg) (a : PMovSrc)
  | pget (h : Hdr) (d : GReg)
  -- OPC 0x03 (Table 09-4)
  | br (h : Hdr) (off : BitVec 32)
  | brl (h : Hdr) (d : GReg) (off : BitVec 32)
  | jmp (h : Hdr) (a : GReg) (e : BitVec 32)
  | jmpl (h : Hdr) (d a : GReg) (e : BitVec 32)
  | ret (h : Hdr) (a : GReg)
  | loop (h : Hdr) (d : GReg) (off : BitVec 32)
  | brt (h : Hdr) (a b : GReg) (off : BitVec 32)
  | nop (h : Hdr)
  -- OPC 0x04 (Table 13-3)
  | ld (h : Hdr) (sz : Sz) (sx : Bool) (acq : Option Scope) (d a : GReg) (e : BitVec 32)
  | st (h : Hdr) (sz : Sz) (rel : Option Scope) (src a : GReg) (e : BitVec 32)
  | ldp (h : Hdr) (acq : Option Scope) (d a : GReg) (e : BitVec 32)
  | stp (h : Hdr) (rel : Option Scope) (src a : GReg) (e : BitVec 32)
  | ldf (h : Hdr) (dw : Bool) (d a : GReg) (e : BitVec 32)
  | lde (h : Hdr) (dw : Bool) (d a : GReg) (e : BitVec 32)
  | stf (h : Hdr) (dw : Bool) (src a : GReg) (e : BitVec 32)
  | sete (h : Hdr) (dw : Bool) (a : GReg) (e : BitVec 32)
  | pref (h : Hdr) (a : GReg) (e : BitVec 32)
  | cflush (h : Hdr) (a : GReg) (e : BitVec 32)
  | cinv (h : Hdr) (icache : Bool) (a : GReg) (e : BitVec 32)
  | czero (h : Hdr) (a : GReg) (e : BitVec 32)
  -- OPC 0x05 (R274)
  | aadd (h : Hdr) (m : AtMode) (d a b : GReg) (e : BitVec 32)
  | amin (h : Hdr) (m : AtMode) (d a b : GReg) (e : BitVec 32)
  | amax (h : Hdr) (m : AtMode) (d a b : GReg) (e : BitVec 32)
  | aminu (h : Hdr) (m : AtMode) (d a b : GReg) (e : BitVec 32)
  | amaxu (h : Hdr) (m : AtMode) (d a b : GReg) (e : BitVec 32)
  | aand (h : Hdr) (m : AtMode) (d a b : GReg) (e : BitVec 32)
  | aor (h : Hdr) (m : AtMode) (d a b : GReg) (e : BitVec 32)
  | axor (h : Hdr) (m : AtMode) (d a b : GReg) (e : BitVec 32)
  | aswp (h : Hdr) (m : AtMode) (d a b : GReg) (e : BitVec 32)
  | acas (h : Hdr) (m : AtMode) (d a b : GReg) (e : BitVec 32)
  | acas2 (h : Hdr) (m : AtMode) (d a b : GReg) (e : BitVec 32)
  | afadd (h : Hdr) (m : AtMode) (d a b : GReg) (e : BitVec 32)
  | ainc (h : Hdr) (m : AtMode) (d a b : GReg) (e : BitVec 32)
  -- OPC 0x06 (Table 13-6)
  | fence (h : Hdr) (sc : Scope) (kld kst keng klnk : Bool)
  | waita (h : Hdr) (c : Cond) (dw acq : Bool) (sc : Scope) (d a b : GReg) (e : BitVec 32)
  | waitn (h : Hdr) (b : GI)
  | barset (h : Hdr) (d a : GReg) (slot : BitVec 2)
  | bararr (h : Hdr) (d : GReg) (slot : BitVec 2)
  | barwait (h : Hdr) (d a : GReg) (slot : BitVec 2)
  | chk (h : Hdr) (d : GReg)
  | yield (h : Hdr)
  -- OPC 0x10 (Table 10-3)
  | vadd (h : Hdr) (t : ETy) (m : VMask) (sat : Bool) (d : VReg) (x : VSrc) (y : VB)
  | vsub (h : Hdr) (t : ETy) (m : VMask) (sat : Bool) (d : VReg) (x : VSrc) (y : VB)
  | vmul (h : Hdr) (t : ETy) (m : VMask) (d : VReg) (x : VSrc) (y : VB)
  | vmulh (h : Hdr) (t : ETy) (m : VMask) (d : VReg) (x : VSrc) (y : VB)
  | vmin (h : Hdr) (t : ETy) (m : VMask) (d : VReg) (x : VSrc) (y : VB)
  | vmax (h : Hdr) (t : ETy) (m : VMask) (d : VReg) (x : VSrc) (y : VB)
  | vminu (h : Hdr) (t : ETy) (m : VMask) (d : VReg) (x : VSrc) (y : VB)
  | vmaxu (h : Hdr) (t : ETy) (m : VMask) (d : VReg) (x : VSrc) (y : VB)
  | vand (h : Hdr) (t : ETy) (m : VMask) (d : VReg) (x : VSrc) (y : VB)
  | vor (h : Hdr) (t : ETy) (m : VMask) (d : VReg) (x : VSrc) (y : VB)
  | vxor (h : Hdr) (t : ETy) (m : VMask) (d : VReg) (x : VSrc) (y : VB)
  | vshl (h : Hdr) (t : ETy) (m : VMask) (d : VReg) (x : VSrc) (y : VB)
  | vshr (h : Hdr) (t : ETy) (m : VMask) (d : VReg) (x : VSrc) (y : VB)
  | vsar (h : Hdr) (t : ETy) (m : VMask) (d : VReg) (x : VSrc) (y : VB)
  | vabs (h : Hdr) (t : ETy) (m : VMask) (sat : Bool) (d : VReg) (x : VSrc)
  | vneg (h : Hdr) (t : ETy) (m : VMask) (sat : Bool) (d : VReg) (x : VSrc)
  | vcmp (h : Hdr) (c : Cond) (t : ETy) (m : VMask) (d : QReg) (x : VSrc) (y : VB)
  | vsel (h : Hdr) (t : ETy) (m : VMask) (d : VReg) (x : VSrc) (y : VB)
  | vpopc (h : Hdr) (t : ETy) (m : VMask) (d : VReg) (x : VSrc)
  -- OPC 0x11 (Table 10-4)
  | vfadd (h : Hdr) (t : ETy) (r : RMode) (m : VMask) (d : VReg) (x : VSrc) (y : VG)
  | vfsub (h : Hdr) (t : ETy) (r : RMode) (m : VMask) (d : VReg) (x : VSrc) (y : VG)
  | vfmul (h : Hdr) (t : ETy) (r : RMode) (m : VMask) (d : VReg) (x : VSrc) (y : VG)
  | vfma (h : Hdr) (t : ETy) (r : RMode) (m : VMask) (d : VReg) (x : VSrc) (y : VG)
  | vfms (h : Hdr) (t : ETy) (r : RMode) (m : VMask) (d : VReg) (x : VSrc) (y : VG)
  | vfnma (h : Hdr) (t : ETy) (r : RMode) (m : VMask) (d : VReg) (x : VSrc) (y : VG)
  | vfdiv (h : Hdr) (t : ETy) (r : RMode) (m : VMask) (d : VReg) (x : VSrc) (y : VG)
  | vfsqrt (h : Hdr) (t : ETy) (r : RMode) (m : VMask) (d : VReg) (x : VSrc)
  | vfrcp (h : Hdr) (t : ETy) (r : RMode) (m : VMask) (d : VReg) (x : VSrc)
  | vfrsq (h : Hdr) (t : ETy) (r : RMode) (m : VMask) (d : VReg) (x : VSrc)
  | vfexp2 (h : Hdr) (t : ETy) (r : RMode) (m : VMask) (d : VReg) (x : VSrc)
  | vflog2 (h : Hdr) (t : ETy) (r : RMode) (m : VMask) (d : VReg) (x : VSrc)
  | vfmin (h : Hdr) (t : ETy) (m : VMask) (d : VReg) (x : VSrc) (y : VG)
  | vfmax (h : Hdr) (t : ETy) (m : VMask) (d : VReg) (x : VSrc) (y : VG)
  | vfcmp (h : Hdr) (c : Cond) (t : ETy) (m : VMask) (d : QReg) (x : VSrc) (y : VG)
  | vfclass (h : Hdr) (t : ETy) (m : VMask) (d : VReg) (x : VSrc)
  | vfcvt (h : Hdr) (t : ETy) (r : RMode) (m : VMask) (sat : Bool) (st : ETy) (part : BitVec 4) (d : VReg) (x : VSrc)
  | vfscl (h : Hdr) (t : ETy) (r : RMode) (m : VMask) (blk : BitVec 2) (inv : Bool) (d : VReg) (x : VSrc) (y : VReg)
  -- OPC 0x12 (Table 10-8)
  | vradd (h : Hdr) (t : ETy) (msk : QReg) (d : GReg) (x : VSrc)
  | vrmin (h : Hdr) (t : ETy) (msk : QReg) (uns : Bool) (d : GReg) (x : VSrc)
  | vrmax (h : Hdr) (t : ETy) (msk : QReg) (uns : Bool) (d : GReg) (x : VSrc)
  | vfradd (h : Hdr) (t : ETy) (r : RMode) (msk : QReg) (d : GReg) (x : VSrc)
  | vfrmax (h : Hdr) (t : ETy) (msk : QReg) (d : GReg) (x : VSrc)
  | vperm (h : Hdr) (t : ETy) (m : VMask) (d : VReg) (x y : VSrc)
  | vslide (h : Hdr) (t : ETy) (m : VMask) (d : VReg) (x : VSrc) (k : GI16)
  | vbcast (h : Hdr) (t : ETy) (m : VMask) (d : VReg) (a : GReg)
  | vext (h : Hdr) (t : ETy) (d : GReg) (x : VSrc) (k : GI16)
  | vins (h : Hdr) (t : ETy) (d : VReg) (a : GReg) (k : GI16)
  | vcmpr (h : Hdr) (t : ETy) (m : VMask) (d : VReg) (x : VSrc)
  | vexpd (h : Hdr) (t : ETy) (m : VMask) (d : VReg) (x : VSrc)
  | vzip (h : Hdr) (t : ETy) (m : VMask) (hi : Bool) (d : VReg) (x y : VSrc)
  | vunzip (h : Hdr) (t : ETy) (m : VMask) (odd : Bool) (d : VReg) (x y : VSrc)
  | viota (h : Hdr) (t : ETy) (m : VMask) (d : VReg)
  | qand (h : Hdr) (d a b : QReg)
  | qor (h : Hdr) (d a b : QReg)
  | qxor (h : Hdr) (d a b : QReg)
  | qnot (h : Hdr) (d a : QReg)
  | qcnt (h : Hdr) (t : ETy) (d : GReg) (a : QReg)
  -- OPC 0x13 (Table 13-9)
  | vld (h : Hdr) (t : ETy) (m : VMask) (d : VReg) (a : GReg) (e : BitVec 16)
  | vst (h : Hdr) (t : ETy) (msk : QReg) (s : VReg) (a : GReg) (e : BitVec 16)
  | vlds (h : Hdr) (t : ETy) (m : VMask) (d : VReg) (a b : GReg) (e : BitVec 16)
  | vsts (h : Hdr) (t : ETy) (msk : QReg) (s : VReg) (a b : GReg) (e : BitVec 16)
  | vgath (h : Hdr) (t : ETy) (m : VMask) (k : BitVec 2) (d : VReg) (a : GReg) (x : VReg) (e : BitVec 16)
  | vscat (h : Hdr) (t : ETy) (msk : QReg) (k : BitVec 2) (s : VReg) (a : GReg) (x : VReg) (e : BitVec 16)
  | vldf (h : Hdr) (t : ETy) (m : VMask) (d : VReg) (a : GReg) (e : BitVec 16)
  | vamo (h : Hdr) (t : ETy) (m : VMask) (op : AtOp) (ord : Order) (pl : Place) (sc : Scope) (k : BitVec 2)
      (d : VReg) (a : GReg) (x : VReg) (e : BitVec 16)
  -- OPC 0x20 (Table 11-2)
  | mma (h : Hdr) (ta tb : ETy) (d : AReg) (a b : GReg) (k : BitVec 16)
  | mcnt (h : Hdr) (ta tb : ETy) (a b : GReg) (k : BitVec 7) (bank : Bool)
  | mdrain (h : Hdr) (d : AReg) (bank : Bool)
  | mmerge (h : Hdr)
  | mzero (h : Hdr) (d : AReg)
  | mld (h : Hdr) (t : ETy) (d : AReg) (a b : GReg) (rows cols : BitVec 7)
  | mst (h : Hdr) (t : ETy) (r : RMode) (sat : Bool) (d : AReg) (a b : GReg) (rows cols : BitVec 7)
  | mscl (h : Hdr) (a b : GReg) (aen ben ablk bblk : Bool)
  | mwait (h : Hdr)
  | mcfg (h : Hdr) (d : GReg) (claim release : BitVec 5)
  | mbcast (h : Hdr) (d a b : GReg) (bus : Bool) (mask : BitVec 8) (len : BitVec 16)
  | mqw (h : Hdr) (b : GI)
  -- OPC 0x21 (Table 11-5)
  | tdecl (h : Hdr) (d a b : GReg) (lgs : BitVec 2)
  | trel (h : Hdr) (d a : GReg)
  | tfwd (h : Hdr) (d a b : GReg) (give : Bool)
  | town (h : Hdr) (d a : GReg)
  | tqry (h : Hdr) (d a : GReg)
  -- OPC 0x30 (Table 14-1)
  | cpy (h : Hdr) (d a : GReg) (ch : BitVec 2)
  | cchain (h : Hdr) (a : GReg) (ch : BitVec 2)
  | ccancel (h : Hdr) (d : GReg) (ch : BitVec 2) (all : Bool)
  | cqry (h : Hdr) (d : GReg) (ch : BitVec 2)
  | put (h : Hdr) (sc : Scope) (dk : Bool) (d a b : GReg) (len : BitVec 16) (vc : BitVec 2) (cen : Bool)
  | putv (h : Hdr) (sc : Scope) (dk : Bool) (d a : GReg) (b : VReg) (len : BitVec 4) (vc : BitVec 2) (cen : Bool)
  | ramo (h : Hdr) (op : AtOp) (dw : Bool) (ord : Order) (sc : Scope) (d a b : GReg) (vc : BitVec 2)
  -- OPC 0x31 and 0x32 (Table 17-1)
  | send (h : Hdr) (a b : GReg) (m : MsgImm)
  | sendv (h : Hdr) (a : GReg) (b : VReg) (m : MsgImm)
  | pcfg (h : Hdr) (d a : GReg) (port : BitVec 5)
  | jcfg (h : Hdr) (d a : GReg) (pat : BitVec 4)
  | jena (h : Hdr) (d : GReg) (b : GI)
  | jdis (h : Hdr) (d : GReg) (b : GI)
  | mtake (h : Hdr) (d a : GReg) (port : BitVec 5) (spl : Bool)
  | mreplay (h : Hdr) (d a : GReg)
  | spawn (h : Hdr) (d a b : GReg) (cls : BitVec 2)
  | joinw (h : Hdr) (d : GReg) (pat : BitVec 4) (free : Bool)
  | carm (h : Hdr) (d a b : GReg) (cls : BitVec 2)
  | cdec (h : Hdr) (d a : GReg) (b : GI)
  | texit (h : Hdr)
  | sqcfg (h : Hdr) (b : GI)
  | stlcfg (h : Hdr) (b : GI)
  -- OPC 0x3F (Table 18-7)
  | trap (h : Hdr) (n : BitVec 32)
  | rett (h : Hdr) (u : Bool)
  | srd (h : Hdr) (d : GReg) (num : BitVec 12)
  | swr (h : Hdr) (num : BitVec 12) (b : GReg)
  | rdtime (h : Hdr) (d : GReg) (pts : Bool)
  | brk (h : Hdr) (n : BitVec 16)
  | cxsave (h : Hdr) (d a : GReg) (ctx : BitVec 4)
  | cxload (h : Hdr) (d a : GReg) (ctx : BitVec 4)
  | kill (h : Hdr) (d a b : GReg)
  | krevoke (h : Hdr) (d a b : GReg)
  | enrg (h : Hdr) (d : GReg)
  | halt (h : Hdr)
  | seqrd (h : Hdr) (d a : GReg) (part : BitVec 2)
  | ill (h : Hdr)
  -- Steps of the other agents (spec/95). f: field; cl: cluster key; k: core key; c: context key; id: request number;
  -- fn: host function, 16 × host port + function number (R310).
  | registerWrite (c : Nat) (num : Nat) (v : Word)
  | hostBarWrite (fn : Nat) (num : Nat) (v : Word)
  | windowEnable (f w : Nat) (v : Word)
  | windowDisable (f w : Nat) (v : Word)
  | cbdataWrite (f : Nat) (v : Word)
  | cbdataRead (f : Nat)
  | scrubcfWrite (f : Nat) (v : Word)
  | scrubLine (f ctl : Nat) (e : LineErr)
  | ucieFlitReplay (f ctl : Nat)
  | ucieLinkDegrade (f ctl : Nat) (failed : Bool)
  | rimRequest (f id : Nat)
  | pageWalkDone (f id : Nat)
  | faultMessageDeliver (f : Nat)
  | hbmReadComplete (f id : Nat) (e : LineErr)
  | xinvPage (f : Nat) (v : Word)
  | xinvAsid (f : Nat) (v : Word)
  | xinvAll (f : Nat) (v : Word)
  | xinvReserved (f : Nat) (v : Word)
  | xinvComplete (f : Nat)
  | parkRetry (f : Nat) (v : Word)
  | parkFail (f : Nat) (v : Word)
  | parkTimeoutSave (c : Nat)
  | migrationStart (f : Nat) (v : Word)
  | migrationRoundEnd (f slot : Nat)
  | migrationComplete (f slot : Nat)
  | homeRds (f id : Nat)
  | homeOwn (f id : Nat)
  | homeMergeFill (f id : Nat)
  | homeEviction (f id : Nat)
  | homeAtomic (f id : Nat)
  | tilePushInstall (cl id : Nat)
  | hostMemrd (fn tag : Nat) (off : Nat) (mv : Meta)
  | hostMemrddata (fn tag : Nat) (off : Nat)
  | hostMeminv (fn tag : Nat) (off : Nat) (mv : Meta)
  | hostMemwr (fn tag : Nat) (off : Nat) (data : LineData)
  | hostMemwrptl (fn tag : Nat) (off : Nat) (data : LineData) (be : BitVec 64)
  | birsp (f : Nat) (line : Nat) (r : BiRsp)
  | biTimeout (f : Nat) (line : Nat)
  | h2dSnoop (f : Nat) (addr : Nat)
  | gatewayLoad (f id : Nat)
  | gatewayStore (f id : Nat)
  | gatewayAtomic (f id : Nat)
  | shmcfWrite (f : Nat) (v : Word)
  | apcfClear (f : Nat) (v : Word)
  | clusterRecall (cl : Nat) (line : Nat)
  | l2StorePerform (k idx : Nat)
  | mergeFillArrive (cl : Nat) (line : Nat)
  | l2Eviction (cl : Nat) (line : Nat)
  | l1ParityError (k : Nat) (icache : Bool) (line : Nat)
  | sramEccError (unit : Nat) (l2 : Bool) (addr : Nat) (e : LineErr)
  | cmlayWrite (k n : Nat) (v : Word)
  | feWaitSatisfied (k off : Nat)
  | waitaWake (c : Nat)
  | recordStart (cl ch : Nat)
  | recordElement (cl ch : Nat)
  | copyErrorMessage (f : Nat)
  | recordComplete (cl ch : Nat)
  | chainNextRecord (cl ch : Nat)
  | ceresRetry (f : Nat) (v : Word)
  | ceresFail (f : Nat) (v : Word)
  | bankReduce (f id : Nat)
  | statusWriteback (k item : Nat)
  | tileReply (k item : Nat)
  | matrixExecute (cl : Nat)
  | mbcastComplete (k item : Nat)
  | putLand (cl item : Nat)
  | putComplete (cl item : Nat)
  | ramoExecute (k item : Nat)
  | ramoReply (k item : Nat)
  | exportDisable (f : Nat) (v : Word)
  | exportEnable (f : Nat) (v : Word)
  | importEnable (f : Nat) (v : Word)
  | importRequest (f : Nat) (fromField : Nat) (handle : Nat) (slot : Nat)
  | importReply (f slot : Nat)
  | importTimeout (f slot : Nat)
  | peerAccess (f id : Nat)
  | oslotWrite (f n : Nat) (v : Word)
  | opticalStart (f : Nat) (v : Word)
  | rotationStart (f : Nat)
  | slotWindowOpen (f : Nat)
  | slotWindowClose (f : Nat)
  | opticalFlitReceive (f : Nat) (x : Flit) (crcOk : Bool)
  | opticalAck (f : Nat) (dest vc seq : Nat) (code : Nat)
  | fibreLoss (f fibre : Nat)
  | timeLockLoss
  | timeLockRegain (offset : BitVec 32)
  | launchRecordRead (f q : Nat)
  | groupPlace (f q : Nat)
  | gangStart (f gid : Nat)
  | starveTimeout (f q : Nat)
  | preemptRequest (f q : Nat)
  | spanReport (f : Nat)
  | launchComplete (f lid : Nat)
  | graphNodeEnd (f lid node : Nat)
  | contextSelect (c : Nat)
  | messageArrive (f id : Nat)
  | messageReturn (f id : Nat)
  | cfreeRetry (k : Nat)
  | refusalRetryTimer (f id : Nat)
  | saddlebagWake (k : Nat)
  | reinEvaluate (f rule : Nat)
  | panelSnapshot (f : Nat)
  | panelMove (f id : Nat)
  | barrierArrival (f id : Nat)
  | barrierRelease (f id : Nat)
  | energyWindow (part : Nat)
  | energyCount (part uj : Nat)
  | lateFaultTake (c : Nat)
  | forcedSave (c : Nat)
  | contextRestore (k entry x : Nat)
  | coreFailure (k : Nat)
  | orphanFlit (k item : Nat)
  | killComplete (f id : Nat)
  | revokeComplete (part id : Nat)
  | modSet (via : Via) (num : BitVec 16) (gm : Bool)
  | partCreate (via : Via) (fx0 fx1 fy0 fy1 : Nat) (mask passed : BitVec 16)
  | partDissolve (via : Via) (part : Nat)
  | keyLoad (via : Via) (part key : Nat) (data tweak tag : BitVec 256)
  | keyRevoke (via : Via) (part key : Nat)
  | energySet (via : Via) (part mj : Nat)
  | fnEnable (via : Via) (f : Nat)
  | remargin (via : Via) (fields passed : BitVec 16) (lives : List (Nat × Nat))
  | retire (via : Via) (cl : Nat)
  | logRead (via : Via) (part : Nat)
  | wearSample (cl months : Nat)
  | thermalStep (f : Nat) (celsius : Int)
  | moduleReset (passed : BitVec 16) (kernelPc : Word)
  | readFillReply (cl : Nat) (line : Nat)
  | cxlCacheResponse (f id : Nat) (data : LineData)
  deriving DecidableEq, Repr

end Sys2Proof
end

