-- ==== Sys2Proof/Machine/State.lean ====
section
/-! DEFINITION. The state of one module as plain data: contexts, cores, clusters, fields, partitions, and what is in
flight between them. INVENTORY.md names the rule and the reset value of each part. Maps are lists of (key, value). -/

namespace Sys2Proof.Machine

/-- A sparse map: keys not listed hold the default of the map's owner. -/
abbrev SMap (α : Type) := List (Nat × α)

/-- Bytes of a memory: addresses strictly rising, no byte 0 listed; an unlisted byte reads 0 (DESIGN CHOICE: log entry 2). -/
abbrev Mem := List Host.Cell

/-- Reasons the machine stops. -/
inductive Fault where
  /-- step, when State.cur names no context of R10: no run reaches it. Safe. -/
  | noSuchContext
  deriving DecidableEq, Repr

/-- Reasons the model refuses an instruction. -/
inductive Refusal where
  /-- exec, for an instruction without a meaning yet. Safe. -/
  | notModelled (mnemonic : String)
  deriving DecidableEq, Repr

/-! ## Contexts -/

/-- A register an instruction can name. -/
inductive RegRef where
  | g (n : Nat) | p (n : Nat) | v (n : Nat) | q (n : Nat) | a (n : Nat)
  deriving DecidableEq, Repr

/-- States of a sequence-ring entry (R378, R390). -/
inductive SeqState where
  | pending | done | faulted | notexec | withdrawn
  deriving DecidableEq, Repr

/-- One entry of the coprocessor sequence ring (R378); more: the fault is recorded and not yet taken. -/
structure SeqEntry where
  seq : BitVec 16
  st : SeqState := .pending
  code : BitVec 8 := 0
  progress : BitVec 16 := 0
  pc : Word := 0
  addr : Word := 0
  untaken : Bool := false
  /-- The registers that the instruction writes (R379). -/
  dst : Option RegRef := none
  dst2 : Option RegRef := none
  deriving DecidableEq, Repr

/-- An open lookahead window (R171, R172): the L instruction's pc, instructions left, registers written with their
values before; seed: the model's own, which value each of its instructions takes. -/
structure LaWin where
  pc : Word
  left : Nat
  olds : List (RegRef × VWord)
  seed : Nat := 0
  deriving DecidableEq, Repr

/-- Scale state of MSCL (R239). -/
structure Mscl where
  wa : Word := 0
  wb : Word := 0
  aen : Bool := false
  ben : Bool := false
  ablk : Bool := false
  bblk : Bool := false
  deriving DecidableEq, Repr

/-- Issue shadow of one counter bank (R240). -/
structure BankShadow where
  depth : Nat := 0
  ba : Nat := 0
  bb : Nat := 0
  ta : ETy := .f4
  tb : ETy := .f4
  deriving DecidableEq, Repr

/-- An inbox slot a task owns, with its checked mark (R360). -/
structure OwnSlot where
  slot : Nat
  checked : Bool := false
  deriving DecidableEq, Repr

/-- Membership of a launch group (R330). -/
structure Member where
  gid : Nat
  rank : Nat
  deriving DecidableEq, Repr

/-- What a context runs. tid is the model's own number of the task. -/
structure Task where
  tid : Nat := 0
  member : Option Member := none
  prio : Nat := 0
  cls : Nat := 0
  slots : List OwnSlot := []
  /-- Declared outputs of an actor with the messages sent so far: (port, declared, sent) (R346). -/
  outs : List (Nat × Nat × Nat) := []
  /-- Discarded at its next yield instead of saved (R386). -/
  stop : Bool := false
  /-- Of a handler: the member that configured its pattern or port (R426). -/
  owner : Option Member := none
  deriving DecidableEq, Repr

/-- What a context waits for, beside its instruction at pc. -/
inductive WaitFor where
  | memory | fullEmpty (core off n : Nat) | word | items | barrier (slot : Nat) | pattern (n : Nat) | queue | drain
  deriving DecidableEq, Repr

/-- Run status of a context (R330, R336, R390). -/
inductive RunSt where
  | free
  | held (gid : Nat)
  | ready
  | waiting (w : WaitFor)
  | asleep
  deriving DecidableEq, Repr

/-- An outcome of an outstanding access, to be met by the instruction that waits (R89, R29). -/
inductive RimOut where
  | nomap (va : Nat)
  | keyrev (va : Nat)
  | ue (va : Nat)
  /-- UE on a poisoned 8-byte word, met by an element of VAMO (R289). -/
  | ueWord (va : Nat)
  | bounds (va : Nat)
  | perm (va : Nat)
  | fmtwr (va : Nat)
  deriving DecidableEq, Repr

/-- An operation that a waiting instruction has sent and that must not be sent twice (R276). -/
structure Sent where
  id : Nat
  /-- An atomic: it is never withdrawn (R276). -/
  atomic : Bool := false
  /-- Which access of the instruction it is: the element of a vector form, else 0. -/
  key : Nat := 0
  /-- The stamp fixed for an atomic that holds its line in the L2 (R122). -/
  stamp : Option Nat := none
  /-- Old value and flags of an atomic, or the value of a load, once it has replied. -/
  reply : Option (BitVec 128 × BitVec 5) := none
  deriving DecidableEq, Repr

/-- A save that has begun (R381): its reason, the frame-list entry that takes it, ASID, key ID and address of the frame, and
the requests at the rim on which the instruction waited. -/
structure Saving where
  reason : Nat
  entry : Option Nat
  asid : BitVec 16
  key : BitVec 8
  addr : Nat
  reqs : List Nat
  deriving DecidableEq, Repr

/-- One context (R161, R166, R375). -/
structure Ctx where
  pc : Word := 0
  g : Vector Word 64 := Vector.replicate 64 0
  p : Vector Bool 8 := Vector.replicate 8 false
  v : Vector VWord 32 := Vector.replicate 32 0
  q : Vector QWord 8 := Vector.replicate 8 0
  fstat : Word := 0
  lvl : Bool := false
  preq : Bool := false
  asidr : Word := 0
  ftvec : Word := 0
  utvec : Word := 0
  tcause : Word := 0
  tpc : Word := 0
  tval : Word := 0
  tsave : Word := 0
  utcause : Word := 0
  utpc : Word := 0
  utval : Word := 0
  pdl : Word := 20000
  sqDepth : Nat := 8
  /-- A pending PORTOV with its TVAL (R340). -/
  ppov : Option Word := none
  ring : List SeqEntry := []
  nextSeq : BitVec 16 := 0
  windows : List LaWin := []
  /-- g registers awaiting an item's status: (register, item) (R295). -/
  pend : List (Nat × Nat) := []
  mscl : Mscl := {}
  shadow0 : BankShadow := {}
  shadow1 : BankShadow := {}
  st : RunSt := .free
  task : Task := {}
  sent : Option Sent := none
  /-- Replies taken by the instruction that waits, by access. -/
  parts : List (Nat × BitVec 128 × BitVec 5) := []
  rim : List RimOut := []
  /-- The context yields before its next instruction (R285, R174). -/
  yieldDue : Bool := false
  /-- Its save has begun: it issues nothing (R381). -/
  saving : Option Saving := none
  /-- The instruction that waits is a vector load (R91). -/
  vec : Bool := false
  /-- A CCANCEL in progress: records ended CANCELLED so far (R297). -/
  cancelled : Option Nat := none
  /-- Clk at which PREQ was set (R380). -/
  preqClk : Nat := 0
  /-- Stores of its core before this number are visible to it while still in the queue: it has read a store of another task
  there, or acquired a mark (R255, R257). -/
  seen : Nat := 0
  /-- Launch whose waiting group asked for the pre-emption (R329). -/
  preqFor : Option Nat := none
  deriving DecidableEq, Repr

/-! ## Cores -/

/-- One L1D line (R120, R122). -/
structure L1Line where
  data : LineData
  lts : Nat
  deriving DecidableEq, Repr

/-- Frame classes (R40). -/
inductive FrameClass where
  | plain | decoded | raw
  deriving DecidableEq, Repr

/-- Page sizes of leaves (R79, R82). -/
inductive PageSize where
  | k64 | m2 | m64 | g32
  deriving DecidableEq, Repr

/-- One PLB entry (R84); vpage is VA[56:16] of its first byte. -/
structure PlbEnt where
  vpage : Nat
  size : PageSize
  asid : BitVec 16
  rd : Bool
  wr : Bool
  ex : Bool
  tk : Bool
  g : Bool
  i : Bool
  clean : Bool
  cls : FrameClass
  deriving DecidableEq, Repr

/-- One L1I line, with the page it was fetched under: VA[56:16] of its first byte, and its size (R119). -/
structure ILine where
  data : LineData
  base : Nat
  size : PageSize
  deriving DecidableEq, Repr

/-- One entry of a core's store queue (R120): bytes for one line of paged memory; rel is the scope of a release. -/
structure SqEnt where
  cx : Nat
  tid : Nat
  va : Nat
  asid : BitVec 16
  data : LineData
  be : BitVec 64
  rel : Option Scope := none
  /-- Order of issue among the stores of the module. -/
  n : Nat := 0
  /-- Of a release: stores of the core before this number are those of other tasks that its context has seen (R255). -/
  after : Nat := 0
  /-- Stamp fixed at the L2 while the store waits for its clk (R122). -/
  stamp : Option Nat := none
  deriving DecidableEq, Repr

/-- A word marked by a release at CORE scope (R258): byte offset, releasing core and task, order of issue of the
release, and the largest stamp of the writes published for it (R259). -/
structure Mark where
  off : Nat
  core : Nat
  tid : Nat
  n : Nat
  stamp : Nat := 0
  /-- Stores of the core before this number are published with it, of whatever task (R255). -/
  after : Nat := 0
  deriving DecidableEq, Repr

/-- A queued matrix instruction with what it sampled at issue (R229, R238). -/
structure MqEnt where
  ins : Instr
  cx : Nat
  tid : Nat
  seq : BitVec 16
  wa : Word
  wb : Word
  mscl : Mscl
  extn : Bool
  asid : BitVec 16
  lvl : Bool
  /-- The model's number of the instruction, the K-steps or rows done (R230, R232), and the elements done of a row of MST. -/
  eid : Nat
  kc : Nat := 0
  col : Nat := 0
  deriving DecidableEq, Repr

/-- Kinds of item (R292, R248, R249). -/
inductive ItemKind where
  | cpy (ch : Nat)
  | put (dst ctr : Nat) (dk cen : Bool) (vc : Nat) (src : Option Nat) (len : Nat) (words : List Word)
  | ramo (va : Nat) (op : AtOp) (dw : Bool) (b c : BitVec 128) (seq : BitVec 16) (vc : Nat) (acq rel : Bool)
  | mbcast (off : Nat) (bus : Bool) (mask : BitVec 8) (words : List (BitVec 32))
  /-- A tile form; the lines that it pushes into cluster cl. -/
  | tile (cl : Nat) (lines : List Nat)
  deriving DecidableEq, Repr

/-- One item of a context (R292). status: what gd receives; at: words landed of a put. -/
structure Item where
  id : Nat
  cx : Nat
  tid : Nat
  gd : Nat
  asid : BitVec 16
  lvl : Bool
  extn : Bool
  sc : Scope
  kind : ItemKind
  at_ : Nat := 0
  status : Option Word := none
  /-- Result of a RAMO: old value and flags. -/
  old : BitVec 128 := 0
  flags : BitVec 5 := 0
  /-- Failure: of a RAMO a code of Table 18-3, of a put a code of Table 07-5. -/
  bad : BitVec 8 := 0
  /-- Handed to the optical port group, and flits not yet acknowledged. -/
  away : Bool := false
  unacked : Nat := 0
  /-- A KILL has met a put whose words are away: it ends KILLED with its acknowledgement (R304). -/
  killed : Bool := false
  deriving DecidableEq, Repr

/-- A barrier slot (R282). A released episode whose arrivals differed is listed in mism. -/
structure BarSlot where
  desc : Option Word := none
  /-- Task that set it. -/
  setter : Nat := 0
  episode : BitVec 32 := 0
  arrived : Bool := false
  mism : List (BitVec 32) := []
  /-- At a corner: arrivals held, with the descriptor each carries, and the judging descriptor while no BARSET. -/
  arrivals : List (Nat × Word) := []
  judge : Option Word := none
  deriving DecidableEq, Repr

/-- A configured port (Table 17-6) with its queue of inbox slots, oldest first. -/
structure Port where
  direct : Bool
  policy : Nat
  limit : Nat
  prio : Nat
  cls : Nat
  strict : Bool
  extn : Bool
  asid : BitVec 16
  handler : Word
  queue : List Nat := []
  /-- Firings of the core since a direct port's own, or since its PCFG, and those in a row that passed over an arrival that waits
  (R343, R344). -/
  since : Nat := 0
  passed : Nat := 0
  /-- The member that configured it. -/
  owner : Option Member := none
  deriving DecidableEq, Repr

/-- A configured pattern (Table 17-7): inputs and outputs are (port, count); pos: the numbers of the used inputs. -/
structure Pattern where
  ins : List (Nat × Nat)
  pos : List Nat
  outs : List (Nat × Nat)
  prio : Nat
  cls : Nat
  extn : Bool
  strict : Bool
  actor : Bool
  asid : BitVec 16
  handler : Word
  /-- Firings of the core since this pattern last fired, or since JCFG (R344). -/
  since : Nat := 0
  /-- Consecutive firings that passed it over while satisfied. -/
  passed : Nat := 0
  /-- The member that configured it. -/
  owner : Option Member := none
  deriving DecidableEq, Repr

/-- Use of an inbox slot (R337, R340, R345). -/
inductive SlotUse where
  | port (n : Nat)
  | spilled (port : Nat)
  | owned (tid : Nat)
  deriving DecidableEq, Repr

/-- An entry of the spawn deque (R348). -/
structure Spawned where
  pc : Word
  arg : Word
  asid : BitVec 16
  cls : Nat
  prio : Nat
  fst : BitVec 2
  deriving DecidableEq, Repr

/-- What a frame holds in its private blocks (Table 18-5), by frame address, and where it may be restored. -/
structure Saved where
  addr : Nat
  entry : Option Nat
  cx : Nat
  task : Task
  mscl : Mscl
  shadow0 : BankShadow
  shadow1 : BankShadow
  wait : Option WaitFor
  /-- Matrix instructions withdrawn, from a parked MLD on (R91). -/
  mq : List MqEnt := []
  pend : List (Nat × Nat)
  ppov : Option Word
  nextSeq : BitVec 16
  ring : List SeqEntry
  /-- Rim requests it waited on, and their outcomes (R91). -/
  reqs : List Nat
  rim : List RimOut
  /-- Elements that a waiting VAMO has performed (R289). -/
  parts : List (Nat × BitVec 128 × BitVec 5) := []
  banks : Bool
  accs : BitVec 4
  /-- Restore is due: yielded, or its parked requests have completed; the clk since when. -/
  ready : Bool
  /-- It yielded with PREQ = 0 (rank 6 of Table 16-7). -/
  own : Bool
  since : Nat
  /-- Time base of the save, as the frame's header has it. -/
  ns : Nat := 0
  deriving DecidableEq, Repr

/-- A prefetch on its way (R272): address, ASID, level, :str; the line asked for, once the page is translated. -/
structure Pref where
  va : Nat
  asid : BitVec 16
  lvl : Bool
  str : Bool
  line : Option Nat := none
  deriving DecidableEq, Repr

/-- One core. -/
structure Core where
  sys : SMap Word := []
  /-- Words of a0 to a3: word i of accumulator n under key n × 16,384 + i; an unlisted word is 0. -/
  acc : SMap (BitVec 32) := []
  accHolder : Vector (Option Nat) 4 := Vector.replicate 4 none
  l1i : SMap ILine := []
  l1d : SMap L1Line := []
  /-- pts = clk since the field's reset + ptsOff (R121). -/
  ptsOff : Nat := 0
  plb : List PlbEnt := []
  prefs : List Pref := []
  sq : List SqEnt := []
  cmem : Mem := []
  /-- Word numbers whose full/empty bit is empty (R139). -/
  empties : List Nat := []
  /-- 8-byte word numbers that are poisoned (R132). -/
  poison : List Nat := []
  cmarks : List Mark := []
  /-- Waiting LDF and LDE, in order of beginning to wait: (context key, word, words, empties) (R140). -/
  fe : List (Nat × Nat × Nat × Bool) := []
  mq : List MqEnt := []
  items : List Item := []
  bars : Vector BarSlot 4 := Vector.replicate 4 {}
  ports : SMap Port := []
  pats : SMap Pattern := []
  slots : SMap SlotUse := []
  /-- Slots marked spilled, oldest first. -/
  spills : List Nat := []
  joins : List (Nat × Nat) := []
  /-- Bottom of the deque last (R348). -/
  deque : List Spawned := []
  /-- The ready ring: core key × 2^18 + offset of each descriptor, oldest first (R347). -/
  ring : List Nat := []
  /-- Offsets of descriptors that may be armed: those that CARM has armed, or CDEC has found so (R369). -/
  armed : List Nat := []
  /-- The refusal list, and the time at which CFREE was sent to a sender on it (R339). -/
  refused : List Nat := []
  cfree : Option Nat := none
  saved : List Saved := []
  /-- Rein rule and role, true for B (R350). -/
  role : Option (Nat × Bool) := none
  retired : Bool := false
  deriving DecidableEq, Repr

/-! ## Clusters -/

/-- States of a line in a cluster L2 (Table 05-4). -/
inductive L2St where
  | s | e | m | o
  deriving DecidableEq, Repr

/-- One L2 line (R121, R127, R129). -/
structure L2Line where
  data : LineData
  valid : BitVec 16
  dirty : BitVec 16
  st : L2St
  wts : Nat := 0
  rts : Nat := 0
  poison : Bool := false
  marks : List Mark := []
  /-- Poisoned 8-byte words (R132). -/
  pw : BitVec 8 := 0
  /-- A store whose stamp is fixed holds the line (R122). -/
  hold : Bool := false
  /-- 4-byte words that no core of the cluster has written since the line came, or that were filled later: what they hold has no
  stamp of this L2 (R129, R257). -/
  foreign : BitVec 16 := 0
  deriving DecidableEq, Repr

/-- A record or chain head in a channel's queue, with what was latched at issue (R143, R144). -/
structure ChanEnt where
  addr : Nat
  chain : Bool
  core : Nat
  cx : Nat
  tid : Nat
  item : Nat
  asid : BitVec 16
  lvl : Bool
  extn : Bool
  /-- KILLED or CANCELLED: the records still to be reached end with this code (R160). -/
  dead : Option (BitVec 8) := none
  /-- Queued before a change of SHMCF: a record of it that names the shared window ends with BOUNDS (R102). -/
  stale : Bool := false
  deriving DecidableEq, Repr

/-- Where a channel stands with its current record (R157, R158). -/
inductive RecSt where
  | start
  | move
  | halted (code : BitVec 8) (addr : Nat) (side : Nat)
  | finish
  | holding
  | next
  deriving DecidableEq, Repr

/-- Where an element of a copy record lies (R148). -/
inductive ElemAt where
  | va (a : Nat)
  | cmem (k off : Nat)
  deriving DecidableEq, Repr

/-- An element read and not yet written: its ordinal, its place with a nibble, its size in nibbles, its value. -/
structure BufEnt where
  ordinal : Nat
  place : ElemAt
  nib : Nat
  size : Nat
  val : Nat
  deriving DecidableEq, Repr

/-- The record a channel runs. -/
structure RunRec where
  id : Nat
  ent : ChanEnt
  addr : Nat
  bytes : List Byte
  /-- Its first line, where the rest cannot be read (R158). -/
  head : List Byte := []
  st : RecSt
  ordinal : Nat := 0
  pad : Nat := 0
  oob : Bool := false
  flags : BitVec 5 := 0
  code : BitVec 8 := 0
  /-- Terminal writes already made: status word, completion word. -/
  wroteSt : Bool := false
  wroteCw : Bool := false
  /-- Flits to another module that are not yet acknowledged, oldest first: address and ordinal. -/
  unacked : List (Nat × Nat) := []
  /-- Flits of its completion word or increment that are not yet acknowledged (R158). -/
  cwFlits : Nat := 0
  /-- Resumed after a failure elsewhere: the flits still on their way come first. -/
  hold : Bool := false
  /-- Elements read from `ordinal` on and not yet written, with their flags and OOB; how many elements they stand for. -/
  buf : List BufEnt := []
  ahead : Nat := 0
  bufFlags : BitVec 5 := 0
  bufOob : Bool := false
  /-- The aligned 8-byte word of the source that it read last: elements of it share one read (R254, R263). -/
  word : Option (ElemAt × List Byte) := none
  /-- Key IDs of the frames it has touched (R160). -/
  keys : List Nat := []
  deriving DecidableEq, Repr

/-- One channel (R143). -/
structure Channel where
  queue : List ChanEnt := []
  cur : Option RunRec := none
  deriving DecidableEq, Repr

/-- One counter bank (R69, R240): counters by cell × 64 + product class, depth and binding. -/
structure Bank where
  counts : SMap (BitVec 8) := []
  depth : Nat := 0
  ba : Nat := 0
  bb : Nat := 0
  ta : ETy := .f4
  tb : ETy := .f4
  /-- Scale codes latched per A row and B column; an unlisted one is 127. -/
  ea : SMap (BitVec 8) := []
  eb : SMap (BitVec 8) := []
  deriving DecidableEq, Repr

/-- Wear states (R401). -/
inductive Wear where
  | normal | derated | out | retired
  deriving DecidableEq, Repr

/-- One cluster. -/
structure Cluster where
  l2 : SMap L2Line := []
  chans : Vector Channel 4 := Vector.replicate 4 {}
  banks : Vector Bank 2 := Vector.replicate 2 {}
  /-- Context key and task holding the banks. -/
  bankHolder : Option (Nat × Nat) := none
  rrCore : Nat := 0
  rrLeft : Nat := 0
  /-- Fills on their way from the home (READ_FILL_REPLY), and merging fills. -/
  fills : List (Nat × L2Line) := []
  merges : List (Nat × LineData × Bool) := []
  /-- Tile pushes on their way: line, data, poison. -/
  pushes : List (Nat × LineData × Bool) := []
  wear : Wear := .normal
  months : BitVec 16 := 0xFFFF
  deriving DecidableEq, Repr

/-! ## Fields -/

/-- What the tag of a line was computed over (R33): tag key, key ID, and the ciphertext, kept as its plaintext with the
data and tweak keys. -/
structure TagOf where
  tkey : BitVec 256
  id : BitVec 8
  dk : BitVec 256
  tk : BitVec 256
  data : LineData
  deriving DecidableEq, Repr

/-- What rim memory holds beside the plaintext that was written to a line: the data and tweak keys of its ciphertext, its
tag, poison (R29, R31, R33). -/
structure LineMeta where
  dk : BitVec 256 := 0
  tk : BitVec 256 := 0
  written : Bool := false
  tag : Option TagOf := none
  poison : Bool := false
  /-- What the last stack read of the line by HBM_READ_COMPLETE showed (R28). -/
  err : LineErr := .none
  /-- The carve-out line that holds its tag is poisoned (R30). -/
  tagPoison : Bool := false
  deriving DecidableEq, Repr

/-- States of a key slot (R32). -/
inductive KeySt where
  | empty | valid | revoking | revoked
  deriving DecidableEq, Repr

/-- One key slot (R32). -/
structure KeySlot where
  st : KeySt := .empty
  data : BitVec 256 := 0
  tweak : BitVec 256 := 0
  tag : BitVec 256 := 0
  deriving DecidableEq, Repr

/-- One storage-format window's registers (R35). -/
structure Win where
  sb : Nat
  size : Nat
  sc : Nat
  cf : Word
  deriving DecidableEq, Repr

/-- Directory states (Table 05-4): holders by cluster number. -/
inductive DirSt where
  | i
  | s (sh : List Nat)
  | e (k : Nat)
  | m (k : Nat)
  | o (k : Nat) (sh : List Nat)
  deriving DecidableEq, Repr

/-- The host field H (R106). -/
inductive HostF where
  | none | hs | hx
  deriving DecidableEq, Repr

/-- A line at its home: data with a byte mask when cached there, directory state, H, tile mark (R100). -/
structure HLine where
  data : LineData := 0
  present : Bool := false
  dirty : BitVec 64 := 0
  poison : Bool := false
  dir : DirSt := .i
  h : HostF := .none
  tile : Option Nat := none
  deriving DecidableEq, Repr

/-- What a request at a home asks (R105). -/
inductive HReqKind where
  | rds
  | own
  | merge
  | evict (data : LineData) (be : BitVec 64) (poison : Bool)
  | atomic (op : AtOp) (dw : Bool) (b c : BitVec 128) (near adaptive : Bool)
  deriving DecidableEq, Repr

/-- A request at a home slice: requesting cluster (40 stands for a gateway or rim agent), core, line, byte offset. -/
structure HReq where
  id : Nat
  kind : HReqKind
  cl : Nat
  core : Nat
  cx : Option Nat
  line : Nat
  off : Nat := 0
  pref : Bool := false
  /-- The predictor has counted the atomic, and its place is fixed (R116). -/
  placed : Bool := false
  /-- Made for context 15 of the supervisor core (R90). -/
  svc : Bool := false
  deriving DecidableEq, Repr

/-- A tile entry (R109). -/
structure Tile where
  owner : Nat
  base : Nat
  pitch : Nat
  rows : Nat
  cols : Nat
  size : Nat
  asid : BitVec 16
  gen : BitVec 8
  dem : Bool
  sh : List Nat
  deriving DecidableEq, Repr

/-- Kinds of request at the rim (Table 04-6). -/
inductive RKind where
  | fill | wb | atomic | plb (store : Bool) | copy | fetch
  deriving DecidableEq, Repr

/-- On whose behalf homes and the rim are asked (R89): nobody who could meet an outcome; a piece of work by its number (a
request at a home, a copy record, a put, a RAMO, a gateway's request), svc where it is made for context 15 of the
supervisor core (R90); a context; a host request by its tag. -/
inductive Agent where
  | none
  | work (id : Nat) (svc : Bool)
  | cx (c : Nat)
  | host (tag : Nat)
  deriving DecidableEq, Repr

/-- Where a request at the rim stands (R85, R88, R93): wait: for a free walker; held: at the reverse map. -/
inductive RStage where
  | new
  | wait
  | walk
  | held (frame : Nat)
  | mem (pa : Nat) (key : BitVec 8) (i : Bool)
  | parked (group : Nat)
  | frozen (slot : Nat)
  deriving DecidableEq, Repr

/-- One request at the rim: core and context that wait, if any, and the other agents that do; bytes of a write-back. -/
structure RReq where
  id : Nat
  kind : RKind
  va : Nat
  asid : BitVec 16
  core : Option Nat
  cx : Option Nat
  data : LineData := 0
  be : BitVec 64 := 0
  poison : Bool := false
  stage : RStage := .new
  /-- A prefetch: dropped where the translation is missing (R272). -/
  pref : Bool := false
  /-- An atomic executed at the rim: operation, size, operands, and the item of a RAMO (R97). -/
  op : Option (AtOp × Bool × BitVec 128 × BitVec 128) := none
  item : Option (Nat × Nat) := none
  agents : List Agent := []
  /-- Made for context 15 of the supervisor core: never parked (R90). -/
  svc : Bool := false
  /-- Time at which it was parked (R91). -/
  ns : Nat := 0
  /-- Order of arrival at the reverse map (R93). -/
  order : Nat := 0
  /-- The window of a decoded line as the request reached the controller (R43). -/
  win : Option Win := none
  deriving DecidableEq, Repr

/-- One entry of the rim translation cache (R85). -/
structure XEnt where
  vpage : Nat
  size : PageSize
  asid : BitVec 16
  g : Bool
  pa : Nat
  key : BitVec 8
  i : Bool
  rd : Bool
  wr : Bool
  deriving DecidableEq, Repr

/-- The holder of a frame in the reverse map (R93): (VA page, ASID, key ID), the order of filling, and the page that maps
it: VA[56:16] of its first byte, its size, G. -/
structure RMapEnt where
  vpage : Nat
  asid : BitVec 16
  key : BitVec 8
  i : Bool
  order : Nat
  base : Nat
  size : PageSize
  g : Bool
  deriving DecidableEq, Repr

/-- A park group (R88). -/
structure Park where
  vpage : Nat
  asid : BitVec 16
  va : Nat
  cause : Nat
  kind : Nat
  level : Nat
  ns : Nat
  deriving DecidableEq, Repr

/-- A migration in progress (R94 to R97). -/
structure Mig where
  record : Nat
  src : Nat
  dst : Nat
  size : PageSize
  key : BitVec 8
  /-- I of the leaf of the source frame. -/
  i : Bool
  maps : List (Nat × Nat)
  limit : Nat
  used : Nat
  /-- Clk at which the round began: one line is copied per 2 clk (R96). -/
  start : Nat
  /-- Lines to copy in this round, in order, and lines written since they were copied. -/
  todo : List Nat
  dirty : List Nat
  frozen : Bool
  cword : Nat
  cval : Word
  deriving DecidableEq, Repr

/-- Where a message stands (R338 to R341). -/
inductive MsgSt where
  | flying
  | refused (listed : Bool) (ns : Nat)
  | returning (status : Nat)
  | retRefused (status : Nat) (listed : Bool) (ns : Nat)
  deriving DecidableEq, Repr

/-- A message that holds a send-queue entry of task tid (R338). -/
structure Msg where
  id : Nat
  tid : Nat
  src : Nat
  cx : Nat
  dloc : BitVec 32
  dport : Nat
  rport : Nat
  rpy : Bool
  extn : Bool
  len8 : Nat
  tag : BitVec 16
  pay : List Byte
  st : MsgSt := .flying
  /-- Its task has been ended by force: a return that is not accepted is discarded (R374, R388). -/
  ended : Bool := false
  deriving DecidableEq, Repr

/-- A command of the panel (R351): move up to n entries. -/
structure Move where
  id : Nat
  src : Nat
  dst : Nat
  n : Nat
  deriving DecidableEq, Repr

/-- A barrier arrival or release in flight (R353): slot, the core that has arrived or is released, the descriptor whose path it
takes, the core that it has reached; arrivals combined with it, with the descriptor that each carries; the status of a release. -/
structure BarMsg where
  id : Nat
  slot : Nat
  core : Nat
  desc : Word
  at_ : Nat
  others : List (Nat × Word) := []
  release : Option Bool := none
  deriving DecidableEq, Repr

/-- What a request through a gateway or peer window asks (R118, R317). -/
inductive PeerOp where
  | load (n : Nat)
  | store (bytes : List Byte)
  /-- Bytes of one aligned 8-byte word, by their enables: elements of a vector store (R253). -/
  | storeWord (be : BitVec 8) (bytes : List Byte)
  | atomic (op : AtOp) (dw : Bool) (b c : BitVec 128)
  deriving DecidableEq, Repr

/-- A request of another agent on this field: handle generation checked where it lands. -/
structure Peer where
  id : Nat
  /-- Field and context that wait, and the address it named. -/
  srcField : Nat
  cx : Option Nat
  va : Nat := 0
  handle : BitVec 32
  off : Nat
  op : PeerOp
  /-- Task that issued it, for releases at PRT and SYS. -/
  tid : Nat := 0
  /-- Admitted: the exporter's VA and ASID (R317). -/
  at_ : Option (Nat × BitVec 16) := none
  /-- A host read of an engine: which access of which engine's work it is, and the reply (R314). -/
  tag : Option (Nat × Nat) := none
  reply : Option (BitVec 128) := none
  deriving DecidableEq, Repr

/-- An import request (R316): number, slot, time sent, the source it names; the reply: ECODE, RD, WR, SIZE. -/
structure Import where
  id : Nat
  slot : Nat
  ns : Nat
  src : Word
  reply : Option (Nat × Bool × Bool × Nat) := none
  deriving DecidableEq, Repr

/-- A contribution of a REDUCE record on its way to a bank ALU (R115, R153): channel, record, ordinal, target, operation
of Table 07-4, bytes, value; asid: of paged memory, else va is an offset of field shared memory. -/
structure Contrib where
  id : Nat
  cl : Nat
  ch : Nat
  rid : Nat
  ordinal : Nat
  va : Nat
  asid : Option (BitVec 16)
  rop : Nat
  n : Nat
  val : Nat
  deriving DecidableEq, Repr

/-- A snoop to the host (R107): kind (true BISnpInv), time sent; done: answered, while the device event that raised it
has not yet been applied. -/
structure Snoop where
  inv : Bool
  ns : Nat
  done : Bool := false
  by_ : Agent := .none
  /-- Of an instruction: its pc. -/
  pc : Option Word := none
  deriving DecidableEq, Repr

/-- A flit in an optical send queue (R320, R321): its payload bytes and the address it writes for its sender; its sequence
number once it has been sent; sent: in the occurrence that runs; since: the time at which it was queued (R449). -/
structure OFlit where
  vc : Nat
  seq : Option Nat := none
  bytes : Nat
  va : Nat := 0
  flit : Flit
  sent : Bool := false
  since : Nat := 0
  deriving DecidableEq, Repr

/-- The optical port group of a field (R318 to R321). -/
structure Optical where
  fibres : BitVec 16 := 0xFFFF
  /-- Send queues, by destination module. -/
  queues : List (Nat × List OFlit) := []
  /-- Next sequence number to send, by module × 8 + VC, and next to accept, by (module × 16 + field) × 8 + VC. -/
  sendSeq : SMap Nat := []
  recvSeq : SMap Nat := []
  /-- Acknowledgements sent, by destination module: what a duplicate of their flit brings again (R321). -/
  acks : List (Nat × OFlit) := []
  /-- Flits accepted that have not landed yet, in order, with the bytes of each that have (R318). -/
  landing : List (Flit × Nat) := []
  /-- Puts of which a flit has failed here: key of source and channel, item, code: they count nothing (R300). -/
  failed : List (Nat × Nat × BitVec 8) := []
  /-- Running: start of the rotation that runs, or of the first one while the slot table is empty; the slot table as
  the rotation took it, the open slot with the budget left in bytes, the VC whose turn it is. -/
  running : Bool := false
  rotStart : Nat := 0
  table : List Word := []
  open_ : Option (Nat × Nat) := none
  rr : Nat := 0
  rot : Nat := 0
  deriving DecidableEq, Repr

/-- An error record's event (R397); its partition is none for a location in no partition. -/
structure ErrRec where
  cls : BitVec 8
  syn : BitVec 8
  kind : BitVec 8
  field : Nat
  loc : BitVec 32
  addr : Word
  asid : BitVec 16
  key : BitVec 8
  part : Option Nat
  count : BitVec 32
  first : Nat
  last : Nat
  detail : Word
  deriving DecidableEq, Repr

/-- A KILL in progress (R392): the task, the record with the ASID and core of its issuer, the core of the task, its context or
its frame-list entry, and the counts of Table 18-8. -/
structure Kill where
  id : Nat
  tid : Nat
  record : Nat
  asid : BitVec 16
  by_ : Nat
  core : Nat
  cx : Option Nat
  frame : Option Nat
  /-- It has waited for a save in progress and for an atomic that its task had issued (R276, Table 18-4). -/
  begun : Bool := true
  recs : Nat := 0
  items : Nat := 0
  dead : Nat := 0
  lost : Nat := 0
  deriving DecidableEq, Repr

/-- One field. -/
structure Field where
  sys : SMap Word := []
  mem : Mem := []
  lmeta : SMap LineMeta := []
  keys : SMap KeySlot := []
  code : SMap (BitVec 24) := []
  home : SMap HLine := []
  hreqs : List HReq := []
  tiles : SMap Tile := []
  tileGens : SMap (BitVec 8) := []
  pred : SMap (BitVec 2) := []
  predInit : BitVec 2 := 1
  shm : Mem := []
  shmMarks : List Mark := []
  rreqs : List RReq := []
  /-- Outcomes of fills and translations that an agent has still to meet (R89): line key, agent, code of Table 07-5. -/
  rimFails : List (Nat × Agent × BitVec 8) := []
  xlat : List XEnt := []
  rmap : SMap RMapEnt := []
  parks : SMap Park := []
  /-- Fault messages and copy-error messages that wait for their port, oldest first (R451). -/
  faultMsgs : List (Nat × List Byte) := []
  copyMsgs : List (Nat × Nat × List Byte) := []
  /-- The invalidation in progress, and the writes that queue behind it (R87). -/
  inval : Option Word := none
  invQueue : List Word := []
  migs : SMap Mig := []
  scrub : Vector Nat 2 := Vector.replicate 2 0
  ucie : Vector Nat 2 := Vector.replicate 2 12
  ceCount : Vector Nat 2 := Vector.replicate 2 0
  replays : Nat := 0
  msgs : List Msg := []
  moves : List Move := []
  bars : List BarMsg := []
  panel : Nat := 0
  rein : SMap Nat := []
  peers : List Peer := []
  /-- Writes to the host that it has not acknowledged (R256, R314): number, task, and the work of an engine. -/
  hostWrs : List (Nat × Nat × Nat) := []
  contribs : List Contrib := []
  imports : List Import := []
  /-- PIMSRC of an enabled import slot, as its import took it (R316). -/
  impSrc : SMap Word := []
  optical : Optical := {}
  snoops : SMap Snoop := []
  contained : Bool := false
  log : List ErrRec := []
  logCount : Nat := 0
  kills : List Kill := []
  inReset : Bool := true
  /-- Clk at the last reset of the field, from which pts counts (R121). -/
  clk0 : Nat := 0
  /-- clk in MHz, and whether it is being lowered; life of the rim chiplet (R403, R401). -/
  mhz : Nat := 850
  hot : Bool := false
  rimMonths : BitVec 16 := 0xFFFF
  deriving DecidableEq, Repr

/-! ## The module -/

/-- A failure entry of a completion record (Table 16-4). -/
structure FailEnt where
  group : Nat
  status : Nat
  rank : Nat
  loc : BitVec 32
  members : List Nat
  deriving DecidableEq, Repr

/-- A node of a task graph (R354): launch record, predecessors left, successors; dispatched; its launch status. -/
structure GNode where
  addr : Nat
  preds : Nat
  succs : List Nat
  run : Bool := false
  st : Option Nat := none
  deriving DecidableEq, Repr

/-- A launch in progress (R323 to R328, R354). -/
structure Launch where
  field : Nat
  queue : Nat
  entry : Word
  shape : List Byte
  groups : Nat
  w : Nat
  h : Nat
  flags : BitVec 8
  cls : Nat
  fmask : BitVec 16
  fst : BitVec 2
  tag : BitVec 32
  energy : Nat
  compl : Nat
  asid : BitVec 16
  gen : Word
  blk : Word
  /-- Groups not yet placed, by index, in the order they are to be placed. -/
  todo : List Nat
  done : Nat := 0
  bad : Nat := 0
  tFirst : Option Nat := none
  tLast : Nat := 0
  restarts : Nat := 0
  fails : List FailEnt := []
  /-- Number of its record in the ring, and whether the head word has passed it. -/
  index : Nat := 0
  headDone : Bool := false
  /-- Energy counted for its groups, in µJ (R399). -/
  used : Nat := 0
  /-- Rejected with BADLAUNCH. -/
  reject : Bool := false
  /-- A graph's node: parent launch and node; a node that has ended keeps its launch status until the graph takes it. -/
  parent : Option (Nat × Nat) := none
  ended : Option Nat := none
  nodes : List GNode := []
  /-- When its head group was first found not to fit, whether it has starved, and the energy window that holds it. -/
  headNs : Option Nat := none
  starved : Bool := false
  heldWin : Option Nat := none
  /-- SPAN: groups handed to each field and not yet placed, and the field visited next. -/
  batches : SMap (List Nat) := []
  turn : Nat := 0
  deriving DecidableEq, Repr

/-- A placed group (R330). -/
structure Group where
  lid : Nat
  index : Nat
  field : Nat
  members : List Nat
  status : List (Option Nat)
  prio : Nat
  started : Bool
  startNs : Nat
  fail : Option (Nat × Nat × BitVec 32) := none
  deriving DecidableEq, Repr

/-- Commands of Slagan, with the path of each (Table 19-1). -/
inductive SlCmd where
  | modSet (via : Via) (num : BitVec 16) (gm : Bool)
  | partCreate (via : Via) (fx0 fx1 fy0 fy1 : Nat) (mask passed : BitVec 16)
  | partDissolve (via : Via) (part : Nat)
  | keyLoad (via : Via) (part key : Nat) (data tweak tag : BitVec 256)
  | keyRevoke (via : Via) (part key : Nat)
  | energySet (via : Via) (part mj : Nat)
  | fnEnable (via : Via) (f : Nat)
  | remargin (via : Via) (fields passed : BitVec 16) (lives : List (Nat × Nat))
  | retire (via : Via) (cl : Nat)
  | logRead (via : Via) (part : Nat)
  deriving DecidableEq, Repr

/-- A partition (R19, R398). -/
structure Part where
  fx0 : Nat
  fx1 : Nat
  fy0 : Nat
  fy1 : Nat
  fields : List Nat
  allow : Nat
  used : Nat
  commit : Nat
  window : Nat
  eovr : BitVec 32
  /-- The field kernels have been started (R404). -/
  begun : Bool := false
  deriving DecidableEq, Repr

/-- A revocation in progress (R393): partition, key, and the KREVOKE record with its ASID and core, if one is owed. -/
structure Revoke where
  id : Nat
  part : Nat
  key : BitVec 8
  record : Option (Nat × BitVec 16 × Nat)
  recs : Nat
  items : Nat
  lines : Nat
  deriving DecidableEq, Repr

/-- Statuses of Slagan commands (R394, R396, R398). -/
inductive SlStatus where
  | done | denied | rejected | busy | notValid | refused
  deriving DecidableEq, Repr

/-- What leaves the module towards hosts, Slagan's callers and other modules. fn: the host function that asked. -/
inductive OutMsg where
  | hostData (fn tag : Nat) (data : LineData) (poison : Bool)
  | hostDone (fn tag : Nat) (ok : Bool)
  | snoop (f line : Nat) (inv : Bool)
  | rspIHitI (f addr : Nat)
  | cxlRead (f id addr n : Nat)
  | cxlWrite (f id addr : Nat) (bytes : List Byte)
  | flit (f : Nat) (x : Flit)
  | slagan (via : Via) (status : SlStatus) (info : List Nat)
  | records (via : Via) (recs : List ErrRec)
  deriving DecidableEq, Repr

/-- The state of one module. Context keys are (field × 320 + core) × 16 + x, core keys field × 320 + core, cluster
keys field × 40 + cluster. -/
structure State where
  ctxs : SMap Ctx
  cores : SMap Core
  clusters : SMap Cluster
  fields : SMap Field
  parts : SMap Part
  launches : SMap Launch
  groups : SMap Group
  revokes : List Revoke
  /-- Time base and core clock. -/
  ns : Nat
  clk : Nat
  locked : Bool
  gm : Bool
  toff : BitVec 32
  /-- The time base has been stepped at the first lock (R322). -/
  stepped : Bool
  /-- Where the field kernels start (R404). -/
  kernelPc : Word
  /-- Fields whose dispatch a REMARGIN in progress has stopped (R402). -/
  stopped : BitVec 16
  /-- Commands that Slagan has received and not executed, in order (R394), and the error records delivered to it, newest first
  (R397). -/
  cmds : List SlCmd
  slog : List ErrRec
  /-- The model's own: the next fresh number, the context that issues next, the agent of the event that runs, the events before the next instruction,
  and what was sent outside (log entries 3 and 4). -/
  fresh : Nat
  cur : Nat
  agent : Agent
  agenda : List Instr
  out : List OutMsg
  deriving DecidableEq, Repr

/-- The module right after reset: no partition, no memory byte listed, every register at its reset value; what the
manual does not give is named in log entries 1 to 5. -/
def State.reset : State :=
  { ctxs := [], cores := [], clusters := [], fields := [], parts := [], launches := [], groups := [], revokes := []
    ns := 0, clk := 0, locked := false, gm := false, toff := 0, stepped := false, kernelPc := 0, stopped := 0, cmds := [], slog := []
    fresh := 1, cur := 15, agent := .none, agenda := [], out := [] }

end Sys2Proof.Machine
end

