-- ==== Sys2Proof/Machine/Bits.lean ====
section
/-! DEFINITION. Sparse maps, byte memories in canonical form, bit fields and byte order. -/

namespace Sys2Proof.Machine

/-! ## Maps -/

/-- The value listed for a key. -/
def SMap.find? {α : Type} (m : SMap α) (k : Nat) : Option α :=
  match m with
  | [] => none
  | (j, v) :: t => if j = k then some v else SMap.find? t k

/-- The value of a key, or the map's default. -/
def SMap.get {α : Type} (m : SMap α) (k : Nat) (d : α) : α := (SMap.find? m k).getD d

/-- Lists a value for a key, in rising order of keys. -/
def SMap.put {α : Type} (m : SMap α) (k : Nat) (v : α) : SMap α :=
  match m with
  | [] => [(k, v)]
  | (j, w) :: t => if k < j then (k, v) :: (j, w) :: t else if j = k then (k, v) :: t else (j, w) :: SMap.put t k v

/-- Removes a key. -/
def SMap.del {α : Type} (m : SMap α) (k : Nat) : SMap α := m.filter (fun x => x.1 != k)

/-- Lists a value, or removes the key when the value is the default. -/
def SMap.set {α : Type} [DecidableEq α] (m : SMap α) (k : Nat) (v d : α) : SMap α :=
  if v = d then SMap.del m k else SMap.put m k v

/-- The number of elements for which a test holds has reached a bound. -/
def full {α : Type} (l : List α) (bound : Nat) (p : α → Bool) : Bool :=
  decide (bound ≤ l.length) && decide (bound ≤ (l.filter p).length)

/-- A map of lines with a place for a key: where its set of so many ways is full, line n of the set is given up. -/
def SMap.makeRoom {α : Type} (m : SMap α) (l ways : Nat) (set : Nat → Nat) (n : Nat) : SMap α :=
  if (SMap.find? m l).isNone && full m ways (fun x => set x.1 == set l) then
    match (m.filter fun x => set x.1 == set l)[n % ways]? with
    | some x => SMap.del m x.1
    | none => m
  else m

/-! ## Byte memories -/

/-- The canonical form: addresses strictly rising and no byte 0 listed. -/
def Memory.wf : Mem → Bool
  | [] => true
  | (_, b) :: [] => b != 0
  | (a, b) :: (a', b') :: t => b != 0 && decide (a < a') && Memory.wf ((a', b') :: t)

/-- One byte; an address not listed reads 0 (DESIGN CHOICE: log entry 2). -/
def Mem.read (m : Mem) (a : Nat) : Byte :=
  match m with
  | [] => 0
  | (j, b) :: t => if j = a then b else Mem.read t a

/-- Lists a byte for an address, in rising order of addresses. -/
def Mem.insert (m : Mem) (a : Nat) (v : Byte) : Mem :=
  match m with
  | [] => [(a, v)]
  | (j, b) :: t => if a < j then (a, v) :: (j, b) :: t else if j = a then (a, v) :: t else (j, b) :: Mem.insert t a v

/-- Writes one byte and keeps the canonical form: a byte 0 is not listed. -/
def Mem.write (m : Mem) (a : Nat) (v : Byte) : Mem := if v = 0 then m.filter (fun x => x.1 != a) else Mem.insert m a v

/-- n bytes from an address. -/
def Mem.readBytes (m : Mem) (a : Nat) : Nat → List Byte
  | 0 => []
  | n + 1 => Mem.read m a :: Mem.readBytes m (a + 1) n

/-- Writes a run of bytes. -/
def Mem.writeBytes (m : Mem) (a : Nat) : List Byte → Mem
  | [] => m
  | b :: bs => Mem.writeBytes (Mem.write m a b) (a + 1) bs

/-! ## Byte order (R6) -/

/-- The little-endian value of a run of bytes. -/
def bytesNat : List Byte → Nat
  | [] => 0
  | b :: bs => b.toNat + 256 * bytesNat bs

/-- The n little-endian bytes of a number. -/
def natBytes (x : Nat) : Nat → List Byte
  | 0 => []
  | n + 1 => BitVec.ofNat 8 x :: natBytes (x / 256) n

/-- Byte i of a run, 0 beyond its end. -/
def byteAt (l : List Byte) (i : Nat) : Byte := l.getD i 0

/-- The little-endian value of n bytes at offset i of a run. -/
def fieldAt (l : List Byte) (i n : Nat) : Nat := bytesNat ((l.drop i).take n)

/-- Byte i of a line. -/
def lineByte (d : LineData) (i : Nat) : Byte := d.extractLsb' (8 * i) 8

/-- n bytes of a line from offset i. -/
def lineBytes (d : LineData) (i : Nat) : Nat → List Byte
  | 0 => []
  | n + 1 => lineByte d i :: lineBytes d (i + 1) n

/-- A line from its bytes. -/
def lineOf (l : List Byte) : LineData := BitVec.ofNat 512 (bytesNat (l.take 64))

/-- Bit mask of the bytes that a byte enable names. -/
def beMask (be : BitVec 64) : Nat → Nat
  | 0 => 0
  | n + 1 => beMask be n + (if be.getLsbD n then 255 * 2 ^ (8 * n) else 0)

/-- Puts the enabled bytes of one line over another (R130). -/
def mergeLine (old new : LineData) (be : BitVec 64) : LineData :=
  let m : LineData := BitVec.ofNat 512 (beMask be 64)
  (old &&& ~~~m) ||| (new &&& m)

/-- Byte enables of n bytes from offset i. -/
def beOf (i n : Nat) : BitVec 64 := BitVec.ofNat 64 ((2 ^ n - 1) * 2 ^ i)

/-- The byte enables of a word-valid mask: four bytes a word (R130). -/
def wordBe (v : BitVec 16) : BitVec 64 :=
  BitVec.ofNat 64 ((List.range 16).foldl (fun a i => if v.getLsbD i then a + 15 * 2 ^ (4 * i) else a) 0)

/-- The words that byte enables touch, and those they cover. -/
def wordsTouched (be : BitVec 64) : BitVec 16 :=
  BitVec.ofNat 16 ((List.range 16).foldl (fun a i => if be.extractLsb' (4 * i) 4 = 0 then a else a + 2 ^ i) 0)

def wordsCovered (be : BitVec 64) : BitVec 16 :=
  BitVec.ofNat 16 ((List.range 16).foldl (fun a i => if be.extractLsb' (4 * i) 4 = 15 then a + 2 ^ i else a) 0)

/-- Bytes placed in a line from offset i. -/
def placeBytes (l : List Byte) (i : Nat) : LineData := BitVec.ofNat 512 (bytesNat l * 2 ^ (8 * i))

/-! ## Bit fields -/

/-- The field [lo + n − 1 : lo] of a word, as a number. -/
def bits (w : Word) (lo n : Nat) : Nat := (w.toNat / 2 ^ lo) % 2 ^ n

/-- A field replaced by a value. -/
def setBits (w : Word) (lo n v : Nat) : Word :=
  BitVec.ofNat 64 (w.toNat - bits w lo n * 2 ^ lo + (v % 2 ^ n) * 2 ^ lo)

/-- The remainder of two's complement: the signed value of the low n bits. -/
def signed (n x : Nat) : Int :=
  let y := x % 2 ^ n
  if 2 * y < 2 ^ n then (y : Int) else (y : Int) - (2 ^ n : Nat)

/-- A signed value as n bits (trunc of R9). -/
def truncTo (n : Nat) (x : Int) : Nat := (x % (2 ^ n : Nat)).toNat

/-- Ceiling division. -/
def ceilDiv (a b : Nat) : Nat := (a + b - 1) / b

/-- The first element of a list that a test accepts, with its position. -/
def findIdx {α : Type} (p : α → Bool) (l : List α) : Option Nat :=
  match l with
  | [] => none
  | x :: t => if p x then some 0 else (findIdx p t).map (· + 1)

/-- Membership by a decidable test, as a Bool. -/
def inList (x : Nat) (l : List Nat) : Bool := l.contains x

end Sys2Proof.Machine
end

