-- ==== Sys2Proof/Machine/Crypt.lean ====
section
/-! DEFINITION. The ciphers of the rim: AES-256 (FIPS 197), XTS over a line (R31), and the tag of R33, the first 32 bits
of AES-256-CMAC. Keys and blocks are bytes, byte 0 first. -/

namespace Sys2Proof.Machine

/-! ## AES-256 -/

/-- The substitution table of FIPS 197, 16 bytes a number, and its inverse. -/
def sboxTable : List Nat :=
  [0x76ABD7FE2B670130C56F6BF27B777C63, 0xC072A49CAFA2D4ADF04759FA7DC982CA, 0x1531D871F1E5A534CCF73F362693FDB7,
   0x75B227EBE28012079A059618C323C704, 0x842FE329B3D63B52A05A6E1B1A2C8309, 0xCF584C4A39BECB6A5BB1FC20ED00D153,
   0xA89F3C507F02F94585334D43FBAAEFD0, 0xD2F3FF1021DAB6BCF5389D928F40A351, 0x73195D643D7EA7C41744975FEC130CCD,
   0xDB0B5EDE14B8EE4688902A22DC4F8160, 0x79E4959162ACD3C25C2406490A3A32E0, 0x08AE7A65EAF4566CA94ED58D6D37C8E7,
   0x8A8BBD4B1F74DDE8C6B4A61C2E2578BA, 0x9E1DC186B95735610EF6034866B53E70, 0xDF2855CEE9871E9B948ED9691198F8E1,
   0x16BB54B00F2D99416842E6BF0D89A18C]
def sboxInvTable : List Nat :=
  [0xFBD7F3819EA340BF38A53630D56A0952, 0xCBE9DEC444438E3487FF2F9B8239E37C, 0x4EC3FA420B954CEE3D23C2A632947B54,
   0x25D18B6D49A25B76B224D92866A12E08, 0x92B6655DCC5CA4D41698688664F6F872, 0x849D8DA75746155EDAB9EDFD5048706C,
   0x0645B3B80558E4F70AD3BC8C00ABD890, 0x6B8A130103BDAFC1020F3FCA8F1E2CD0, 0x73E6B4F0CECFF297EADC674F4111913A,
   0x6EDF751CE837F9E28535ADE72274AC96, 0x1BBE18AA0E62B76F89C5291D711AF147, 0xF45ACD78FEC0DB9A2079D2C64B3E56FC,
   0x5FEC8027591012B131C7078833A8DD1F, 0xEF9CC9939F7AE52D0D4AB519A97F5160, 0x619953833CBBEBC8B0F52AAE4D3BE0A0,
   0x7D0C2155631469E126D677BA7E042B17]

/-- Byte x of a table. -/
def tableByte (t : List Nat) (x : Byte) : Byte := BitVec.ofNat 8 (t.getD (x.toNat / 16) 0 / 256 ^ (x.toNat % 16))
def subByte (x : Byte) : Byte := tableByte sboxTable x
def subInv (x : Byte) : Byte := tableByte sboxInvTable x

/-- Twice a byte in the field of AES. -/
def xtime (x : Byte) : Byte := (x <<< 1) ^^^ (if x.getLsbD 7 then 0x1B else 0)

/-- The product of a byte and a small number, bit by bit. -/
def gfMul (x : Byte) : Nat → Nat → Byte
  | 0, _ => 0
  | fuel + 1, n => (if n % 2 = 1 then x else 0) ^^^ gfMul (xtime x) fuel (n / 2)

def xorBytes (a b : List Byte) : List Byte := List.zipWith (· ^^^ ·) a b

/-- The next word of the key schedule, from the words before it, newest first. -/
def nextWord (rcon : Byte) (i : Nat) (ws : List (List Byte)) : List Byte :=
  let p := ws.headD []
  let t := if i % 8 = 0 then xorBytes ((p.drop 1 ++ p.take 1).map subByte) [rcon, 0, 0, 0]
    else if i % 8 = 4 then p.map subByte else p
  xorBytes (ws.getD 7 []) t

/-- Words i to 59 of the key schedule, newest first. -/
def keyWords : Nat → Nat → Byte → List (List Byte) → List (List Byte)
  | 0, _, _, ws => ws
  | fuel + 1, i, rcon, ws => keyWords fuel (i + 1) (if i % 8 = 0 then xtime rcon else rcon) (nextWord rcon i ws :: ws)

/-- The fifteen round keys. -/
def roundKeys (key : List Byte) : List (List Byte) :=
  let w0 := (List.range 8).map fun i => (key.drop (4 * i)).take 4
  let ws := (keyWords 52 8 1 w0.reverse).reverse
  (List.range 15).map fun r => ((ws.drop (4 * r)).take 4).flatten

/-- Row r of a block moves r columns to the left, or back. -/
def shiftRows (b : List Byte) : List Byte := (List.range 16).map fun i => b.getD ((i + 4 * (i % 4)) % 16) 0
def shiftRowsInv (b : List Byte) : List Byte := (List.range 16).map fun i => b.getD ((i + 12 * (i % 4)) % 16) 0

/-- The columns of a block times the circulant matrix of a first row. -/
def mixWith (row : List Nat) (b : List Byte) : List Byte :=
  (List.range 16).map fun i =>
    (List.range 4).foldl (fun a j => a ^^^ gfMul (b.getD (i / 4 * 4 + j) 0) 4 (row.getD ((j + 4 - i % 4) % 4) 0)) 0

/-- One block encrypted. -/
def aesEnc (rk : List (List Byte)) (b : List Byte) : List Byte :=
  let one (b : List Byte) (k : List Byte) : List Byte := xorBytes (mixWith [2, 3, 1, 1] (shiftRows (b.map subByte))) k
  let b := ((rk.drop 1).take 13).foldl one (xorBytes b (rk.headD []))
  xorBytes (shiftRows (b.map subByte)) (rk.getD 14 [])

/-- One block decrypted. -/
def aesDec (rk : List (List Byte)) (b : List Byte) : List Byte :=
  let one (b : List Byte) (k : List Byte) : List Byte := mixWith [14, 11, 13, 9] (xorBytes ((shiftRowsInv b).map subInv) k)
  let b := ((rk.drop 1).take 13).reverse.foldl one (xorBytes b (rk.getD 14 []))
  xorBytes ((shiftRowsInv b).map subInv) (rk.headD [])

/-! ## XTS over one line (R31) -/

/-- The tweak of the next block. -/
def xtsNext (t : Nat) : Nat := 2 * t % 2 ^ 128 ^^^ (if 2 ^ 127 ≤ t then 0x87 else 0)

/-- The four tweaks of the line with a number PA[51:6]. -/
def xtsTweaks (tweak : BitVec 256) (line : Nat) : List (List Byte) :=
  let t0 := bytesNat (aesEnc (roundKeys (natBytes tweak.toNat 32)) (natBytes line 16))
  let t1 := xtsNext t0
  let t2 := xtsNext t1
  [t0, t1, t2, xtsNext t2].map fun t => natBytes t 16

/-- A line through a block function between its tweaks. -/
def xtsLine (f : List Byte → List Byte) (tweak : BitVec 256) (line : Nat) (d : LineData) : LineData :=
  let bs := natBytes d.toNat 64
  lineOf (((xtsTweaks tweak line).zipIdx.map fun (t, j) => xorBytes t (f (xorBytes t ((bs.drop (16 * j)).take 16)))).flatten)

def xtsEnc (data tweak : BitVec 256) (line : Nat) (d : LineData) : LineData :=
  let rk := roundKeys (natBytes data.toNat 32)
  xtsLine (aesEnc rk) tweak line d

def xtsDec (data tweak : BitVec 256) (line : Nat) (d : LineData) : LineData :=
  let rk := roundKeys (natBytes data.toNat 32)
  xtsLine (aesDec rk) tweak line d

/-! ## CMAC (R33) -/

/-- Twice a block in the field of CMAC, whose first byte is the most significant. -/
def cmacDouble (b : List Byte) : List Byte :=
  let n := bytesNat b.reverse
  (natBytes (2 * n % 2 ^ 128 ^^^ (if 2 ^ 127 ≤ n then 0x87 else 0)) 16).reverse

/-- The chaining value over the whole blocks of a message. -/
def cmacChain (rk : List (List Byte)) : Nat → List Byte → List Byte → List Byte
  | 0, c, _ => c
  | n + 1, c, m => cmacChain rk n (aesEnc rk (xorBytes c (m.take 16))) (m.drop 16)

def cmac (key : BitVec 256) (m : List Byte) : List Byte :=
  let rk := roundKeys (natBytes key.toNat 32)
  let k1 := cmacDouble (aesEnc rk (List.replicate 16 0))
  let n := (m.length + 15) / 16 - 1
  let last := m.drop (16 * n)
  let c := cmacChain rk n (List.replicate 16 0) m
  let end_ := if last.length = 16 then xorBytes last k1
    else xorBytes (last ++ [0x80] ++ List.replicate (15 - last.length) 0) (cmacDouble k1)
  aesEnc rk (xorBytes c end_)

/-- The tag of a line: over PA[51:6], the key ID and the ciphertext. -/
def lineTag (key : BitVec 256) (id : BitVec 8) (line : Nat) (cipher : LineData) : BitVec 32 :=
  BitVec.ofNat 32 (bytesNat ((cmac key (natBytes line 8 ++ [id] ++ natBytes cipher.toNat 64)).take 4))

end Sys2Proof.Machine
end

