-- ==== Sys2Proof/Machine/Fp.lean ====
section
/-! DEFINITION. Number formats and exact arithmetic (chapter 03): values of the element formats as exact dyadic numbers,
one rounding, flags IV, DZ, OF, UF, NX in bits 4 to 0. -/

namespace Sys2Proof.Machine

/-- Element formats with a fraction (Tables 03-1 and 03-3); the F8 formats carry EXTN (R48). -/
inductive Fmt where
  | f64 | f32 | f16 | bf16
  | f8e4 (ext : Bool)
  | f8e5 (ext : Bool)
  | f4 | l4
  deriving DecidableEq, Repr

def Fmt.width : Fmt → Nat
  | .f64 => 64 | .f32 => 32 | .f16 | .bf16 => 16 | .f8e4 _ | .f8e5 _ => 8 | .f4 | .l4 => 4

/-- Fraction bits; L4 has its magnitude code alone. -/
def Fmt.frac : Fmt → Nat
  | .f64 => 52 | .f32 => 23 | .f16 => 10 | .bf16 => 7 | .f8e4 _ => 3 | .f8e5 _ => 2 | .f4 => 1 | .l4 => 3

def Fmt.bias : Fmt → Nat
  | .f64 => 1023 | .f32 | .bf16 => 127 | .f16 | .f8e5 _ => 15 | .f8e4 _ => 7 | .f4 | .l4 => 1

/-- Code of the largest finite magnitude (Tables 03-1 to 03-3). -/
def Fmt.maxCode : Fmt → Nat
  | .f64 => 0x7FEFFFFFFFFFFFFF | .f32 => 0x7F7FFFFF | .f16 => 0x7BFF | .bf16 => 0x7F7F
  | .f8e4 false => 0x77 | .f8e4 true => 0x7E | .f8e5 _ => 0x7B | .f4 | .l4 => 7

/-- Code of +infinity, in a format that has it. -/
def Fmt.infCode : Fmt → Option Nat
  | .f64 => some 0x7FF0000000000000 | .f32 => some 0x7F800000 | .f16 => some 0x7C00 | .bf16 => some 0x7F80
  | .f8e4 false => some 0x78 | .f8e5 false => some 0x7C | _ => none

/-- Canonical quiet NaN (R58); F4 and L4 have none and give +0 (R63). -/
def Fmt.nanCode : Fmt → Nat
  | .f64 => 0x7FF8000000000000 | .f32 => 0x7FC00000 | .f16 => 0x7E00 | .bf16 => 0x7FC0 | .f8e4 _ | .f8e5 _ => 0x7F
  | .f4 | .l4 => 0

/-- The value of a code: NaN, infinity, or (−1)^neg × m × 2^e. -/
inductive FVal where
  | nan (sig : Bool)
  | inf (neg : Bool)
  | fin (neg : Bool) (m : Nat) (e : Int)
  deriving DecidableEq, Repr

def ivFlag : BitVec 5 := 16
def dzFlag : BitVec 5 := 8
def ofFlag : BitVec 5 := 4
def ufFlag : BitVec 5 := 2
def nxFlag : BitVec 5 := 1

/-- The value of an element (R45, R46, R48, R50). -/
def Fmt.val (f : Fmt) (x : Nat) : FVal :=
  let w := f.width
  let neg := x.testBit (w - 1)
  let mag := x % 2 ^ (w - 1)
  match f with
  | .l4 => .fin neg mag (-1)
  | .f4 =>
    if mag < 2 then .fin neg mag (-1) else .fin neg (2 + mag % 2) ((mag / 2 : Nat) - 2 : Int)
  | _ =>
    let n := f.frac
    let e := mag / 2 ^ n
    let fr := mag % 2 ^ n
    if f.maxCode < mag then
      if f.infCode = some mag then .inf neg
      else .nan (match f with
        | .f8e4 _ | .f8e5 _ => false
        | _ => !fr.testBit (n - 1))
    else if e = 0 then .fin neg fr (1 - (f.bias : Int) - n)
    else .fin neg (2 ^ n + fr) ((e : Int) - f.bias - n)

/-- Number of bits of a positive number. -/
def bitLen (m : Nat) : Nat := if m = 0 then 0 else Nat.log2 m + 1

/-- Whether the magnitude is rounded up, from its integer part, whether the rest is nonzero, and how the rest compares
with one half (Table 03-4). -/
def roundUp (mode : RMode) (neg odd : Bool) (rest : Ordering) (inexact : Bool) : Bool :=
  match mode with
  | .rne => rest == .gt || (rest == .eq && odd)
  | .rtz => false
  | .rup => inexact && !neg
  | .rdn => inexact && neg
  | .rna => rest != .lt

/-- A magnitude (m + δ) × 2^e, 0 ≤ δ < 1 and δ nonzero exactly when sticky, in units of 2^q: the rounded integer and
whether it is inexact. -/
def quantize (mode : RMode) (neg : Bool) (m : Nat) (e q : Int) (sticky : Bool) : Nat × Bool :=
  if q ≤ e then
    let i := m * 2 ^ (e - q).toNat
    let up := roundUp mode neg (i % 2 == 1) .lt sticky
    (if up then i + 1 else i, sticky)
  else
    let k := (q - e).toNat
    let i := m / 2 ^ k
    let r := m % 2 ^ k
    let inexact := r != 0 || sticky
    let rest := match compare (2 * r) (2 ^ k) with
      | .eq => if sticky then .gt else .eq
      | o => o
    let up := roundUp mode neg (i % 2 == 1) rest inexact
    (if up then i + 1 else i, inexact)

/-- A code with its sign. -/
def Fmt.signed (f : Fmt) (neg : Bool) (mag : Nat) : Nat := if neg then mag + 2 ^ (f.width - 1) else mag

/-- What an overflow returns (R57). -/
def Fmt.overflow (f : Fmt) (mode : RMode) (sat neg : Bool) : Nat :=
  match f.infCode, sat with
  | some i, false =>
    match mode with
    | .rne | .rna => f.signed neg i
    | .rtz => f.signed neg f.maxCode
    | .rup => if neg then f.signed neg f.maxCode else i
    | .rdn => if neg then f.signed neg i else f.maxCode
  | _, _ => f.signed neg f.maxCode

/-- round(x, fmt, mode) of R57 for a nonzero magnitude (m + δ) × 2^e: the code and OF, UF, NX (R59). -/
def Fmt.roundMag (f : Fmt) (mode : RMode) (sat neg : Bool) (m : Nat) (e : Int) (sticky : Bool) : Nat × BitVec 5 :=
  match f with
  | .l4 =>
    let (i, nx) := quantize mode neg m e (-1) sticky
    let tiny := decide ((bitLen m : Int) + e < 0)
    if 7 < i then (f.overflow mode sat neg, ofFlag ||| nxFlag)
    else (f.signed neg i, (if nx then nxFlag else 0) ||| (if tiny && nx then ufFlag else 0))
  | _ =>
    let n := f.frac
    let top : Int := e + bitLen m - 1
    let emin : Int := 1 - (f.bias : Int)
    let q : Int := max top emin - n
    let (i, nx) := quantize mode neg m e q sticky
    let code := ((q + n + f.bias - 1) * 2 ^ n + i).toNat
    let tiny := decide (top < emin) &&
      !(decide (top = emin - 1) && (quantize mode neg m e (top - n) sticky).1 == 2 ^ (n + 1))
    if f.maxCode < code then (f.overflow mode sat neg, ofFlag ||| nxFlag)
    else (f.signed neg code, (if nx then nxFlag else 0) ||| (if tiny && nx then ufFlag else 0))

/-- round of an exact value; zero says the sign of an exact zero. -/
def Fmt.roundVal (f : Fmt) (mode : RMode) (sat : Bool) (neg : Bool) (m : Nat) (e : Int) (sticky : Bool := false) :
    Nat × BitVec 5 :=
  if m = 0 ∧ sticky = false then (f.signed neg 0, 0) else f.roundMag mode sat neg m e sticky

/-- The NaN that an operation returns; a signalling operand sets IV (R58, R59). -/
def Fmt.nanOut (f : Fmt) (sig : Bool) : Nat × BitVec 5 := (f.nanCode, if sig then ivFlag else 0)

/-- An invalid operation. -/
def Fmt.invalid (f : Fmt) : Nat × BitVec 5 := (f.nanCode, ivFlag)

/-- An infinity as a result of an operation in its own format. -/
def Fmt.infOut (f : Fmt) (neg : Bool) : Nat := f.signed neg (f.infCode.getD f.maxCode)

/-- A signed mantissa. -/
def sgn (neg : Bool) (m : Nat) : Int := if neg then -(m : Int) else m

/-- The exact sum of two finite values, with the sign of an exact zero (R57). -/
def exactAdd (mode : RMode) (n1 : Bool) (m1 : Nat) (e1 : Int) (n2 : Bool) (m2 : Nat) (e2 : Int) : Bool × Nat × Int :=
  let e := min e1 e2
  let s := sgn n1 (m1 * 2 ^ (e1 - e).toNat) + sgn n2 (m2 * 2 ^ (e2 - e).toNat)
  if s = 0 then ((if n1 = n2 ∧ m1 = 0 then n1 else mode == .rdn), 0, e) else (decide (s < 0), s.natAbs, e)

/-- Whether one of two values is a signalling NaN. -/
def sig2 (a b : FVal) : Bool := a == .nan true || b == .nan true

def FVal.isNan : FVal → Bool
  | .nan _ => true
  | _ => false

def FVal.negate : FVal → FVal
  | .nan s => .nan s
  | .inf n => .inf (!n)
  | .fin n m e => .fin (!n) m e

/-- a + b, rounded once. -/
def Fmt.add (f : Fmt) (mode : RMode) (a b : FVal) : Nat × BitVec 5 :=
  match a, b with
  | .inf x, .inf y => if x = y then (f.infOut x, 0) else f.invalid
  | .inf x, .fin .. => (f.infOut x, 0)
  | .fin .., .inf y => (f.infOut y, 0)
  | .fin n1 m1 e1, .fin n2 m2 e2 =>
    let (n, m, e) := exactAdd mode n1 m1 e1 n2 m2 e2
    f.roundVal mode false n m e
  | _, _ => f.nanOut (sig2 a b)

/-- a × b, rounded once. -/
def Fmt.mul (f : Fmt) (mode : RMode) (a b : FVal) : Nat × BitVec 5 :=
  match a, b with
  | .inf x, .inf y => (f.infOut (x != y), 0)
  | .inf x, .fin y m _ => if m = 0 then f.invalid else (f.infOut (x != y), 0)
  | .fin x m _, .inf y => if m = 0 then f.invalid else (f.infOut (x != y), 0)
  | .fin n1 m1 e1, .fin n2 m2 e2 => f.roundVal mode false (n1 != n2) (m1 * m2) (e1 + e2)
  | _, _ => f.nanOut (sig2 a b)

/-- The exact product as a value, and whether it is 0 × infinity (R68). -/
def FVal.mul (a b : FVal) : FVal × Bool :=
  match a, b with
  | .inf x, .inf y => (.inf (x != y), false)
  | .inf x, .fin y m _ => if m = 0 then (.nan false, true) else (.inf (x != y), false)
  | .fin x m _, .inf y => if m = 0 then (.nan false, true) else (.inf (x != y), false)
  | .fin n1 m1 e1, .fin n2 m2 e2 => (.fin (n1 != n2) (m1 * m2) (e1 + e2), false)
  | _, _ => (.nan (sig2 a b), false)

/-- a × b + c, rounded once. -/
def Fmt.fma (f : Fmt) (mode : RMode) (a b c : FVal) : Nat × BitVec 5 :=
  let (p, bad) := a.mul b
  let (r, fl) := f.add mode p c
  (r, if bad then fl ||| ivFlag else fl)

/-- a ÷ b, rounded once (R59: 0 / 0, ∞ / ∞, x / 0). -/
def Fmt.div (f : Fmt) (mode : RMode) (a b : FVal) : Nat × BitVec 5 :=
  match a, b with
  | .inf _, .inf _ => f.invalid
  | .inf x, .fin y _ _ => (f.infOut (x != y), 0)
  | .fin x _ _, .inf y => (f.signed (x != y) 0, 0)
  | .fin n1 m1 e1, .fin n2 m2 e2 =>
    if m2 = 0 then (if m1 = 0 then f.invalid else (f.infOut (n1 != n2), dzFlag))
    else if m1 = 0 then (f.signed (n1 != n2) 0, 0)
    else
      let k := 70 + bitLen m2
      let x := m1 * 2 ^ k
      f.roundVal mode false (n1 != n2) (x / m2) (e1 - e2 - k) (x % m2 != 0)
  | _, _ => f.nanOut (sig2 a b)

/-- The integer square root, from the highest bit down. -/
def isqrtFrom (x : Nat) (r : Nat) : Nat → Nat
  | 0 => r
  | i + 1 => isqrtFrom x (if (r + 2 ^ i) * (r + 2 ^ i) ≤ x then r + 2 ^ i else r) i

def isqrt (x : Nat) : Nat := isqrtFrom x 0 (bitLen x / 2 + 1)

/-- √a, rounded once. -/
def Fmt.sqrt (f : Fmt) (mode : RMode) (a : FVal) : Nat × BitVec 5 :=
  match a with
  | .nan s => f.nanOut s
  | .inf n => if n then f.invalid else (f.infOut false, 0)
  | .fin n m e =>
    if m = 0 then (f.signed n 0, 0)
    else if n then f.invalid
    else
      let k : Nat := 140 + (if e % 2 = 0 then 0 else 1)
      let x := m * 2 ^ k
      let r := isqrt x
      f.roundVal mode false false r ((e - k) / 2) (r * r != x)

/-- Order of two values that are not NaN: −0 equals +0. -/
def FVal.cmp (a b : FVal) : Ordering :=
  match a, b with
  | .inf x, .inf y => if x = y then .eq else if x then .lt else .gt
  | .inf x, _ => if x then .lt else .gt
  | _, .inf y => if y then .gt else .lt
  | .fin n1 m1 e1, .fin n2 m2 e2 =>
    let e := min e1 e2
    compare (sgn n1 (m1 * 2 ^ (e1 - e).toNat)) (sgn n2 (m2 * 2 ^ (e2 - e).toNat))
  | _, _ => .eq

def FVal.isNeg : FVal → Bool
  | .inf n | .fin n _ _ => n
  | .nan _ => false

/-- Minimum or maximum of two codes (R62): −0 below +0; one NaN gives the other operand. -/
def Fmt.minmax (f : Fmt) (max : Bool) (x y : Nat) : Nat × BitVec 5 :=
  let a := f.val x
  let b := f.val y
  let fl : BitVec 5 := if sig2 a b then ivFlag else 0
  if a.isNan && b.isNan then (f.nanCode, fl)
  else if a.isNan then (y, fl)
  else if b.isNan then (x, fl)
  else
    let less := match a.cmp b with
      | .lt => true
      | .eq => a.isNeg && !b.isNeg
      | .gt => false
    ((if less then (if max then y else x) else (if b.cmp a == .lt || (b.isNeg && !a.isNeg) then
      (if max then x else y) else x)), fl)

/-- Conversion between formats with a fraction (R63). -/
def Fmt.convert (t : Fmt) (mode : RMode) (sat : Bool) (a : FVal) : Nat × BitVec 5 :=
  match a with
  | .nan s =>
    match t with
    | .f4 | .l4 => (0, ivFlag)
    | _ => t.nanOut s
  | .inf n =>
    match t.infCode with
    | some _ => (t.infOut n, 0)
    | none => (t.signed n t.maxCode, ofFlag ||| nxFlag)
  | .fin n m e => t.roundVal mode sat n m e

/-- Conversion to an integer in [lo, hi] (R64). -/
def toInt (lo hi : Int) (mode : RMode) (a : FVal) : Int × BitVec 5 :=
  match a with
  | .nan _ => (0, ivFlag)
  | .inf n => (if n then lo else hi, ivFlag)
  | .fin n m e =>
    let (i, nx) := quantize mode n m e 0 false
    let x := sgn n i
    if x < lo then (lo, ivFlag) else if hi < x then (hi, ivFlag) else (x, if nx then nxFlag else 0)

/-- Conversion between integer formats: wraps, or clamps with SAT (R64). -/
def intConv (lo hi : Int) (w : Nat) (sat : Bool) (x : Int) : Nat :=
  truncTo w (if sat then max lo (min hi x) else x)

/-- A scale byte as an exponent; 0xFF is NaN (R52). -/
def scaleExp (x : Nat) : Option Int := if x = 255 then none else some ((x : Int) - 127)

/-- The value times 2^k. -/
def FVal.scale (a : FVal) (k : Int) : FVal :=
  match a with
  | .fin n m e => .fin n m (e + k)
  | x => x

/-- LC8: the eight L4 codes of an index, from the 24-bit entry of its codebook (R54). -/
def lc8 (entry : Nat) (idx : Nat) : List Nat :=
  let s (j : Nat) : Nat := (idx / 2 ^ (j + 1)) % 2
  let neg := (List.range 7).foldl (fun a j => a + s j) 0
  let s7 := (neg + idx) % 2
  (List.range 8).map fun j => (if j = 7 then s7 else s j) * 8 + (entry / 2 ^ (3 * j)) % 8

/-- Entry n of codebook slot 0 (R55). -/
def slot0 (n : Nat) : Nat := (List.range 8).foldl (fun a j => a + (if n.testBit j then 3 else 1) * 2 ^ (3 * j)) 0

/-- The format of a floating-point element type under EXTN. -/
def ETy.fmt (t : ETy) (ext : Bool) : Option Fmt :=
  match t with
  | .f64 => some .f64 | .f32 => some .f32 | .f16 => some .f16 | .bf16 => some .bf16
  | .f8e4 => some (.f8e4 ext) | .f8e5 => some (.f8e5 ext) | .f4 => some .f4 | .l4 => some .l4
  | _ => none

end Sys2Proof.Machine
end

