-- ==== Sys2Proof/Config.lean ====
section
/-! DEFINITION. What the manual leaves open, as constants without a body: nothing can be proved of their values. The
counter that indexes them is State.fresh (DESIGN CHOICE: log entry 4); a value that depends on operands takes them as arguments. -/

namespace Sys2Proof.Config

/-- Events that reach the machine after instruction n: host, Slagan, links, engines and slices step at any time
(DESIGN CHOICE: log entry 3). DESIGN CHOICE: log entry 116. -/
opaque events : Nat → List Instr

/-- Nanoseconds of the time base that pass in step n (R5; DESIGN CHOICE: log entry 5). -/
opaque stepNs : Nat → Nat

/-- Which context issues next (R175). -/
opaque schedule : Nat → Nat

/-- A choice between two outcomes that a rule allows (R3). -/
opaque choice : Nat → Bool

/-- A byte whose value the manual leaves open: private frame blocks (R383). -/
opaque freeByte : Nat → Nat → BitVec 8

/-- The set of a line, by its key, in an L1I, an L1D, a cluster L2, a slice's data array and a slice's directory (R100, R119,
R120, R127). DESIGN CHOICE: log entry 117. -/
opaque l1iSet : Nat → Nat
opaque l1dSet : Nat → Nat
opaque l2Set : Nat → Nat
opaque homeSet : Nat → Nat
opaque dirSet : Nat → Nat

/-- Which line of a full set of an L1 gives its place up. DESIGN CHOICE: log entry 117. -/
opaque victim : Nat → Nat

/-- A word whose value the manual leaves open. -/
opaque freeWord : Nat → BitVec 64

end Sys2Proof.Config
end

