-- ==== Sys2Proof/WellFormed.lean ====
section
/-! DEFINITION. Well-formed instructions: what the issue checks of R176 demand of the fields beyond their widths.
A term that is not well-formed has no encoding; a word whose fields form such a term raises ILLOP. -/

namespace Sys2Proof

namespace ETy

/-- .B .H .W .D (codes 0x0 to 0x3). -/
def isInt : ETy → Bool
  | .b | .h | .w | .d => true
  | _ => false

/-- .F64 .F32 .F16 .BF16 (codes 0x4 to 0x7). -/
def isFp : ETy → Bool
  | .f64 | .f32 | .f16 | .bf16 => true
  | _ => false

/-- Every floating-point code, 0x4 to 0xB (R209). -/
def isFloat : ETy → Bool
  | .f64 | .f32 | .f16 | .bf16 | .f8e4 | .f8e5 | .f4 | .l4 => true
  | _ => false

/-- The integer codes as VFCVT reads them (R222). -/
def isCvtInt : ETy → Bool
  | .h | .w | .d | .i8 | .i4 | .ui8 => true
  | _ => false

/-- Element width in bits (Table 08-8). -/
def width : ETy → Nat
  | .b | .f8e4 | .f8e5 | .i8 | .ui8 => 8
  | .h | .f16 | .bf16 => 16
  | .w | .f32 => 32
  | .d | .f64 => 64
  | .f4 | .l4 | .i4 => 4

end ETy

/-- An even register number, for a pair (R269, R274, R291). -/
def evenReg (r : GReg) : Bool := !r.getLsbD 0

namespace Instr

/-- The header of an instruction; the steps of other agents have none. -/
def hdr? : Instr → Option Hdr
  | .add h .. | .sub h .. | .mul h .. | .mulh h .. | .mulhu h .. | .div h .. | .divu h .. | .rem h .. | .remu h ..
  | .and h .. | .or h .. | .xor h .. | .andn h .. | .orn h .. | .shl h .. | .shr h .. | .sar h .. | .rol h ..
  | .ror h .. | .min h .. | .max h .. | .minu h .. | .maxu h .. | .clz h .. | .ctz h .. | .popc h .. | .brev h ..
  | .bswap h .. | .sext h .. | .zext h .. | .bfx h .. | .bfi h .. | .lea h .. | .sel h .. | .mov h .. | .movi h ..
  | .movhi h .. | .cmp h .. | .pand h .. | .por h .. | .pxor h .. | .pnot h .. | .pmov h .. | .pget h .. | .br h ..
  | .brl h .. | .jmp h .. | .jmpl h .. | .ret h .. | .loop h .. | .brt h .. | .nop h
  | .ld h .. | .st h .. | .ldp h .. | .stp h .. | .ldf h .. | .lde h .. | .stf h .. | .sete h .. | .pref h ..
  | .cflush h .. | .cinv h .. | .czero h ..
  | .aadd h .. | .amin h .. | .amax h .. | .aminu h .. | .amaxu h .. | .aand h .. | .aor h .. | .axor h ..
  | .aswp h .. | .acas h .. | .acas2 h .. | .afadd h .. | .ainc h ..
  | .fence h .. | .waita h .. | .waitn h .. | .barset h .. | .bararr h .. | .barwait h .. | .chk h .. | .yield h
  | .vadd h .. | .vsub h .. | .vmul h .. | .vmulh h .. | .vmin h .. | .vmax h .. | .vminu h .. | .vmaxu h ..
  | .vand h .. | .vor h .. | .vxor h .. | .vshl h .. | .vshr h .. | .vsar h .. | .vabs h .. | .vneg h .. | .vcmp h ..
  | .vsel h .. | .vpopc h ..
  | .vfadd h .. | .vfsub h .. | .vfmul h .. | .vfma h .. | .vfms h .. | .vfnma h .. | .vfdiv h .. | .vfsqrt h ..
  | .vfrcp h .. | .vfrsq h .. | .vfexp2 h .. | .vflog2 h .. | .vfmin h .. | .vfmax h .. | .vfcmp h .. | .vfclass h ..
  | .vfcvt h .. | .vfscl h ..
  | .vradd h .. | .vrmin h .. | .vrmax h .. | .vfradd h .. | .vfrmax h .. | .vperm h .. | .vslide h .. | .vbcast h ..
  | .vext h .. | .vins h .. | .vcmpr h .. | .vexpd h .. | .vzip h .. | .vunzip h .. | .viota h .. | .qand h ..
  | .qor h .. | .qxor h .. | .qnot h .. | .qcnt h ..
  | .vld h .. | .vst h .. | .vlds h .. | .vsts h .. | .vgath h .. | .vscat h .. | .vldf h .. | .vamo h ..
  | .mma h .. | .mcnt h .. | .mdrain h .. | .mmerge h | .mzero h .. | .mld h .. | .mst h .. | .mscl h .. | .mwait h
  | .mcfg h .. | .mbcast h .. | .mqw h ..
  | .tdecl h .. | .trel h .. | .tfwd h .. | .town h .. | .tqry h ..
  | .cpy h .. | .cchain h .. | .ccancel h .. | .cqry h .. | .put h .. | .putv h .. | .ramo h ..
  | .send h .. | .sendv h .. | .pcfg h .. | .jcfg h .. | .jena h .. | .jdis h .. | .mtake h .. | .mreplay h ..
  | .spawn h .. | .joinw h .. | .carm h .. | .cdec h .. | .texit h | .sqcfg h .. | .stlcfg h ..
  | .trap h .. | .rett h .. | .srd h .. | .swr h .. | .rdtime h .. | .brk h .. | .cxsave h .. | .cxload h ..
  | .kill h .. | .krevoke h .. | .enrg h .. | .halt h | .seqrd h .. | .ill h => some h
  | _ => none

/-- The forms marked L in Table 08-9 (R178). -/
def lookaheadOk : Instr → Bool
  | .div .. | .divu .. | .rem .. | .remu .. | .ld .. | .ldp .. | .ldf .. | .lde ..
  | .aadd .. | .amin .. | .amax .. | .aminu .. | .amaxu .. | .aand .. | .aor .. | .axor .. | .aswp .. | .acas ..
  | .acas2 .. | .afadd .. | .ainc ..
  | .vadd .. | .vsub .. | .vmul .. | .vmulh .. | .vmin .. | .vmax .. | .vminu .. | .vmaxu .. | .vand .. | .vor ..
  | .vxor .. | .vshl .. | .vshr .. | .vsar .. | .vabs .. | .vneg .. | .vcmp .. | .vsel .. | .vpopc ..
  | .vfadd .. | .vfsub .. | .vfmul .. | .vfma .. | .vfms .. | .vfnma .. | .vfdiv .. | .vfsqrt .. | .vfrcp ..
  | .vfrsq .. | .vfexp2 .. | .vflog2 .. | .vfmin .. | .vfmax .. | .vfcmp .. | .vfclass .. | .vfcvt .. | .vfscl ..
  | .vradd .. | .vrmin .. | .vrmax .. | .vfradd .. | .vfrmax .. | .vperm .. | .vslide .. | .vbcast .. | .vext ..
  | .vins .. | .vcmpr .. | .vexpd .. | .vzip .. | .vunzip .. | .viota .. | .qand .. | .qor .. | .qxor .. | .qnot ..
  | .qcnt .. | .vld .. | .vst .. | .vlds .. | .vsts .. | .vgath .. | .vscat .. | .vldf .. | .vamo ..
  | .mma .. | .mcnt .. | .mdrain .. | .mmerge .. | .mzero .. | .mld .. | .mst .. | .mscl .. | .mbcast .. | .mqw ..
  | .tdecl .. | .trel .. | .tfwd .. | .town .. | .tqry .. | .cpy .. | .cqry .. | .ramo .. => true
  | _ => false

/-- The unguarded forms of R178. -/
def unguarded : Instr → Bool
  | .loop .. | .rett .. | .cxsave .. | .cxload .. | .halt .. | .ill .. => true
  | _ => false

/-- The privileged forms of R178 (SRD and SWR are privileged by register, R164). -/
def privileged : Instr → Bool
  | .cxsave .. | .cxload .. | .kill .. | .krevoke .. | .halt .. => true
  | _ => false

end Instr

/-- NEG is accepted only with a floating-point type (R209). -/
def VSrc.ok (t : ETy) (x : VSrc) : Bool := !x.neg || t.isFp

def VB.ok (t : ETy) : VB → Bool
  | .v x => x.ok t
  | _ => true

def VG.ok (t : ETy) : VG → Bool
  | .v x => x.ok t
  | .g _ => true

/-- In OPB, class 0b11 number 0 selects IMM, so no predicate operand B is p0 (R168). -/
def PB.ok : PB → Bool
  | .pred x => x.p != 0
  | .imm _ => true

/-- An IMM operand whose bits at and above n are unused bits (R192, R195). -/
def GI.immBelow (n : Nat) : GI → Bool
  | .reg _ => true
  | .imm v => v.toNat < 2 ^ n

/-- The IMM of BFX and BFI uses bits [14:8] and [5:0] (R196). -/
def GI.bitfieldOk : GI → Bool
  | .reg _ => true
  | .imm v => v &&& 0x7F3F#32 == v

/-- Table 11-2: A types of MMA. -/
def ETy.isMma : ETy → Bool
  | .f64 | .f16 | .bf16 | .f8e4 | .f8e5 | .i8 => true
  | _ => false

def ETy.isF8 : ETy → Bool
  | .f8e4 | .f8e5 => true
  | _ => false

def ETy.isFour : ETy → Bool
  | .f4 | .l4 => true
  | _ => false

/-- Types of VGATH, VSCAT, VLDF and VAMO (Table 13-9). -/
def ETy.isGath : ETy → Bool
  | .w | .d | .f32 | .f64 => true
  | _ => false

/-- Types of VLDS and VSTS: every code but the four-bit ones (Table 13-9). -/
def ETy.isStrided : ETy → Bool
  | .f4 | .l4 | .i4 => false
  | _ => true

/-- MST: which types take a rounding mode, and which take SAT (R244). -/
def mstOk (t : ETy) (r : RMode) (sat : Bool) (rows : BitVec 7) : Bool :=
  match t with
  | .f32 | .w => r == .rne && !sat
  | .f64 => r == .rne && !sat && rows.toNat < 64
  | .f16 | .bf16 | .f8e4 | .f8e5 => true
  | .i8 => r == .rne
  | _ => false

/-- VFCVT: codes and part (R222). -/
def vfcvtOk (t st : ETy) (r : RMode) (part : BitVec 4) (x : VSrc) : Bool :=
  (t.isFloat || t.isCvtInt) && (st.isFloat || st.isCvtInt) && st != t &&
  (!(t.isCvtInt && st.isCvtInt) || r == .rne) &&
  part.toNat * Nat.min t.width st.width < Nat.max t.width st.width &&
  (!x.neg || st.isFloat)

/-- The operation and type of VAMO (R288). -/
def vamoOk (t : ETy) (op : AtOp) : Bool :=
  match op with
  | .fadd => t == .f32 || t == .f64
  | .cas | .cas2 | .inc => false
  | _ => t == .w || t == .d

/-- The checks of one instruction's own fields. -/
def Instr.fieldsOk : Instr → Bool
  | .shl _ w _ _ b | .shr _ w _ _ b | .sar _ w _ _ b | .rol _ w _ _ b | .ror _ w _ _ b =>
    b.immBelow (if w then 5 else 6)
  | .sext _ _ _ b | .zext _ _ _ b => b.immBelow 7
  | .bfx _ _ _ b | .bfi _ _ _ b => b.bitfieldOk
  | .pand _ _ _ b | .por _ _ _ b | .pxor _ _ _ b => b.ok
  | .ld _ sz sx _ _ _ _ => !(sz == .d && sx)
  | .ldp _ _ d _ _ => evenReg d
  | .stp _ _ s _ _ => evenReg s
  | .acas2 _ m d _ b _ => m.dw && evenReg d && evenReg b
  | .fence _ _ a b c d => a || b || c || d
  | .vadd _ t _ _ _ x y | .vsub _ t _ _ _ x y => t.isInt && x.ok t && y.ok t
  | .vmul _ t _ _ x y | .vmulh _ t _ _ x y | .vmin _ t _ _ x y | .vmax _ t _ _ x y | .vminu _ t _ _ x y
  | .vmaxu _ t _ _ x y | .vand _ t _ _ x y | .vor _ t _ _ x y | .vxor _ t _ _ x y | .vshl _ t _ _ x y
  | .vshr _ t _ _ x y | .vsar _ t _ _ x y => t.isInt && x.ok t && y.ok t
  | .vsel _ t m _ x y => t.isInt && !m.z && x.ok t && y.ok t
  | .vcmp _ _ t _ _ x y => t.isInt && x.ok t && y.ok t
  | .vabs _ t _ _ _ x | .vneg _ t _ _ _ x => t.isInt && x.ok t
  | .vpopc _ t _ _ x | .vcmpr _ t _ _ x | .vexpd _ t _ _ x => t.isInt && x.ok t
  | .vfadd _ t _ _ _ x y | .vfsub _ t _ _ _ x y | .vfmul _ t _ _ _ x y | .vfma _ t _ _ _ x y
  | .vfms _ t _ _ _ x y | .vfnma _ t _ _ _ x y | .vfdiv _ t _ _ _ x y => t.isFp && x.ok t && y.ok t
  | .vfmin _ t _ _ x y | .vfmax _ t _ _ x y => t.isFp && x.ok t && y.ok t
  | .vfcmp _ _ t _ _ x y => t.isFp && x.ok t && y.ok t
  | .vfsqrt _ t _ _ _ x | .vfrcp _ t _ _ _ x | .vfrsq _ t _ _ _ x | .vfexp2 _ t _ _ _ x | .vflog2 _ t _ _ _ x =>
    t.isFp && x.ok t
  | .vfclass _ t _ _ x => t.isFp && x.ok t
  | .vfcvt _ t r _ _ src part _ x => vfcvtOk t src r part x
  | .vfscl _ t _ _ blk _ _ x _ => t.isFp && x.ok t && blk != 3
  | .vradd _ t _ _ x => t.isInt && x.ok t
  | .vrmin _ t _ _ _ x | .vrmax _ t _ _ _ x => t.isInt && x.ok t
  | .vfradd _ t _ _ _ x => t.isFp && x.ok t
  | .vfrmax _ t _ _ x => t.isFp && x.ok t
  | .vperm _ t _ _ x y => t.isInt && x.ok t && y.ok t
  | .vzip _ t _ _ _ x y | .vunzip _ t _ _ _ x y => t.isInt && x.ok t && y.ok t
  | .vslide _ t _ _ x _ => t.isInt && x.ok t
  | .vext _ t _ x _ => t.isInt && x.ok t
  | .vbcast _ t _ _ _ => t.isInt
  | .vins _ t _ _ _ => t.isInt
  | .viota _ t _ _ => t.isInt
  | .qcnt _ t _ _ => t.isInt
  | .vlds _ t _ _ _ _ _ | .vsts _ t _ _ _ _ _ => t.isStrided
  | .vgath _ t _ _ _ _ _ _ | .vscat _ t _ _ _ _ _ _ => t.isGath
  | .vldf _ t _ _ _ _ => t.isGath
  | .vamo _ t _ op _ _ _ _ _ _ _ _ => vamoOk t op
  | .mma _ ta tb _ _ _ k =>
    ta.isMma && (ta == tb || (ta.isF8 && tb.isF8)) && 1 ≤ k.toNat && k.toNat ≤ 4096
  | .mcnt _ ta tb _ _ k _ => ta.isFour && tb.isFour && k != 0
  | .mld _ t _ _ _ rows _ =>
    match t with
    | .f32 | .f16 | .bf16 | .w => true
    | .f64 => rows.toNat < 64
    | _ => false
  | .mst _ t r sat _ _ _ rows _ => mstOk t r sat rows
  | .mbcast _ _ _ _ bus mask len =>
    mask != 0 && (!bus || mask.toNat < 32) && 1 ≤ len.toNat && len.toNat ≤ 49152
  | .put _ _ _ _ a _ _ _ _ => evenReg a
  | .putv _ _ _ _ a _ _ _ _ => evenReg a
  | .ramo _ op dw _ _ d _ b _ => !(op == .cas2) || (dw && evenReg d && evenReg b)
  | .jena _ _ b | .jdis _ _ b => b.immBelow 16
  | .mtake _ _ _ port spl => !spl || port == 0
  | .joinw _ d _ _ => 1 ≤ d.toNat && d.toNat ≤ 60
  | .seqrd .. => true
  | _ => true

/-- A well-formed instruction: an encodable one (R176). Steps of other agents have no encoding. -/
def Instr.wf (i : Instr) : Bool :=
  match i.hdr? with
  | none => false
  | some h =>
    (h.la == 0 || i.lookaheadOk) &&
    ((!h.neg && h.p == 0) || !i.unguarded) &&
    (match i with | .ill _ => h == ⟨false, 0, 0, false, false, false⟩ | _ => true) &&
    i.fieldsOk

end Sys2Proof
end

