-- ==== Sys2Proof/Decode.lean ====
section
/-! DEFINITION. The decoder and the encoder (R167 to R179), over the fields of Table 08-5. A word that the issue checks
of R176 reject decodes to none. -/

namespace Sys2Proof

/-- One operand field: class, number, modifier (R168). -/
structure Opnd where
  cls : BitVec 2
  num : BitVec 6
  mod : BitVec 4
  deriving DecidableEq, Repr

/-- The fields of an instruction word (Table 08-5). -/
structure Fields where
  opc : BitVec 8
  fn : BitVec 8
  grd : BitVec 4
  la : BitVec 4
  hnt : BitVec 4
  d : Opnd
  a : Opnd
  b : Opnd
  imm : BitVec 32
  deriving DecidableEq, Repr

/-- Splits a 12-bit operand field (R168). -/
def Opnd.unpack (x : BitVec 12) : Opnd := ⟨x.extractLsb' 10 2, x.extractLsb' 4 6, x.extractLsb' 0 4⟩

def Opnd.pack (o : Opnd) : BitVec 12 := o.cls ++ o.num ++ o.mod

/-- Splits a word into its fields (Table 08-5). -/
def Fields.unpack (w : InstrWord) : Fields :=
  { opc := w.extractLsb' 88 8, fn := w.extractLsb' 80 8, grd := w.extractLsb' 76 4, la := w.extractLsb' 72 4
    hnt := w.extractLsb' 68 4, d := Opnd.unpack (w.extractLsb' 56 12), a := Opnd.unpack (w.extractLsb' 44 12)
    b := Opnd.unpack (w.extractLsb' 32 12), imm := w.extractLsb' 0 32 }

def Fields.pack (f : Fields) : InstrWord :=
  f.opc ++ f.fn ++ f.grd ++ f.la ++ f.hnt ++ f.d.pack ++ f.a.pack ++ f.b.pack ++ f.imm

/-! ## Codes -/

/-- Table 08-8. -/
def ETy.code : ETy → BitVec 4
  | .b => 0 | .h => 1 | .w => 2 | .d => 3 | .f64 => 4 | .f32 => 5 | .f16 => 6 | .bf16 => 7
  | .f8e4 => 8 | .f8e5 => 9 | .f4 => 10 | .l4 => 11 | .i8 => 12 | .i4 => 13 | .ui8 => 14

def ETy.ofCode (c : BitVec 4) : Option ETy :=
  match c.toNat with
  | 0 => some .b | 1 => some .h | 2 => some .w | 3 => some .d | 4 => some .f64 | 5 => some .f32 | 6 => some .f16
  | 7 => some .bf16 | 8 => some .f8e4 | 9 => some .f8e5 | 10 => some .f4 | 11 => some .l4 | 12 => some .i8
  | 13 => some .i4 | 14 => some .ui8 | _ => none

/-- Table 03-4. -/
def RMode.code : RMode → BitVec 3
  | .rne => 0 | .rtz => 1 | .rup => 2 | .rdn => 3 | .rna => 4

def RMode.ofCode (c : BitVec 3) : Option RMode :=
  match c.toNat with
  | 0 => some .rne | 1 => some .rtz | 2 => some .rup | 3 => some .rdn | 4 => some .rna | _ => none

/-- Table 12-1. -/
def Scope.code : Scope → BitVec 3
  | .core => 0 | .clu => 1 | .fld => 2 | .prt => 3 | .sys => 4

def Scope.ofCode (c : BitVec 3) : Option Scope :=
  match c.toNat with
  | 0 => some .core | 1 => some .clu | 2 => some .fld | 3 => some .prt | 4 => some .sys | _ => none

/-- Conditions in CMP's order (R200). -/
def Cond.code : Cond → BitVec 3
  | .eq => 0 | .ne => 1 | .lt => 2 | .ge => 3 | .ltu => 4 | .geu => 5 | .bits => 6 | .nbits => 7

def Cond.ofCode (c : BitVec 3) : Cond :=
  match c.toNat with
  | 0 => .eq | 1 => .ne | 2 => .lt | 3 => .ge | 4 => .ltu | 5 => .geu | 6 => .bits | _ => .nbits

/-- Orders and placements (Table 08-9, OPC 0x05). -/
def Order.code : Order → BitVec 2
  | .rlx => 0 | .acq => 1 | .rel => 2 | .ar => 3

def Order.ofCode (c : BitVec 2) : Order :=
  match c.toNat with
  | 0 => .rlx | 1 => .acq | 2 => .rel | _ => .ar

def Place.code : Place → BitVec 2
  | .adaptive => 0 | .home => 1 | .near => 2

def Place.ofCode (c : BitVec 2) : Option Place :=
  match c.toNat with
  | 0 => some .adaptive | 1 => some .home | 2 => some .near | _ => none

def Sz.code : Sz → BitVec 2
  | .b => 0 | .h => 1 | .w => 2 | .d => 3

def Sz.ofCode (c : BitVec 2) : Sz :=
  match c.toNat with
  | 0 => .b | 1 => .h | 2 => .w | _ => .d

/-- Table 13-4, and R291 for RAMO. -/
def AtOp.code : AtOp → BitVec 4
  | .add => 0 | .min => 1 | .max => 2 | .minu => 3 | .maxu => 4 | .and => 5 | .or => 6 | .xor => 7 | .swp => 8
  | .cas => 9 | .cas2 => 10 | .fadd => 11 | .inc => 12

def AtOp.ofCode (c : BitVec 4) : Option AtOp :=
  match c.toNat with
  | 0 => some .add | 1 => some .min | 2 => some .max | 3 => some .minu | 4 => some .maxu | 5 => some .and
  | 6 => some .or | 7 => some .xor | 8 => some .swp | 9 => some .cas | 10 => some .cas2 | 11 => some .fadd
  | 12 => some .inc | _ => none

/-- VAMO's own codes (Table 13-10); an operation it lacks has the unused code 15. -/
def AtOp.vcode : AtOp → BitVec 4
  | .add => 0 | .min => 1 | .max => 2 | .minu => 3 | .maxu => 4 | .and => 5 | .or => 6 | .xor => 7 | .swp => 8
  | .fadd => 9 | _ => 15

def AtOp.ofVcode (c : BitVec 4) : Option AtOp :=
  match c.toNat with
  | 0 => some .add | 1 => some .min | 2 => some .max | 3 => some .minu | 4 => some .maxu | 5 => some .and
  | 6 => some .or | 7 => some .xor | 8 => some .swp | 9 => some .fadd | _ => none

/-! ## Operand decoders: none where the class, number or modifier is not accepted -/

/-- A bit as one bit of a vector. -/
def bit (b : Bool) : BitVec 1 := BitVec.ofBool b

namespace Opnd

def zero : Opnd := ⟨0, 0, 0⟩
def isZero (o : Opnd) : Option Unit := if o = zero then some () else none

/-- A g register with any modifier, for the forms that give it a meaning. -/
def gm (o : Opnd) : Option (GReg × BitVec 4) := if o.cls = 0 then some (o.num, o.mod) else none
/-- A g register with modifier 0. -/
def g (o : Opnd) : Option GReg := if o.cls = 0 ∧ o.mod = 0 then some o.num else none
def vm (o : Opnd) : Option (VReg × BitVec 4) :=
  if o.cls = 1 ∧ o.num.getLsbD 5 = false then some (o.num.setWidth 5, o.mod) else none
def v (o : Opnd) : Option VReg :=
  if o.cls = 1 ∧ o.num.getLsbD 5 = false ∧ o.mod = 0 then some (o.num.setWidth 5) else none
/-- A vector source: NEG in modifier [3], BC in modifier [2] (Table 10-1). -/
def vsrc (o : Opnd) : Option VSrc :=
  if o.cls = 1 ∧ o.num.getLsbD 5 = false ∧ o.mod.setWidth 2 = 0 then
    some ⟨o.num.setWidth 5, o.mod.getLsbD 3, o.mod.getLsbD 2⟩ else none
def qm (o : Opnd) : Option (QReg × BitVec 4) :=
  if o.cls = 2 ∧ o.num.extractLsb' 3 3 = 0 then some (o.num.setWidth 3, o.mod) else none
def q (o : Opnd) : Option QReg :=
  if o.cls = 2 ∧ o.num.extractLsb' 3 3 = 0 ∧ o.mod = 0 then some (o.num.setWidth 3) else none
def am (o : Opnd) : Option (AReg × BitVec 4) :=
  if o.cls = 2 ∧ o.num.extractLsb' 2 4 = 0 then some (o.num.setWidth 2, o.mod) else none
def a0 (o : Opnd) : Option AReg :=
  if o.cls = 2 ∧ o.num.extractLsb' 2 4 = 0 ∧ o.mod = 0 then some (o.num.setWidth 2) else none
def pm (o : Opnd) : Option (PReg × BitVec 4) :=
  if o.cls = 3 ∧ o.num.extractLsb' 3 3 = 0 then some (o.num.setWidth 3, o.mod) else none
def p (o : Opnd) : Option PReg :=
  if o.cls = 3 ∧ o.num.extractLsb' 3 3 = 0 ∧ o.mod = 0 then some (o.num.setWidth 3) else none
/-- A predicate source: NEG in modifier [3] (R200). -/
def psrc (o : Opnd) : Option PSrc :=
  if o.cls = 3 ∧ o.num.extractLsb' 3 3 = 0 ∧ o.mod.setWidth 3 = 0 then
    some ⟨o.num.setWidth 3, o.mod.getLsbD 3⟩ else none
/-- The IMM select of OPB: 0xC00 (R168). -/
def isImm (o : Opnd) : Option Unit := if o = ⟨3, 0, 0⟩ then some () else none
/-- A g register and its W32 modifier bit (R189). -/
def gw (o : Opnd) : Option (GReg × Bool) :=
  if o.cls = 0 ∧ o.mod.extractLsb' 1 3 = 0 then some (o.num, o.mod.getLsbD 0) else none
/-- A g register with a scope in modifier [2:0] (R274). -/
def gsc (o : Opnd) : Option (GReg × Scope) :=
  if o.cls = 0 ∧ o.mod.getLsbD 3 = false then (Scope.ofCode (o.mod.setWidth 3)).map fun s => (o.num, s) else none
/-- A g register with ORD and scope: ORD = 0 needs scope 0 (R269). -/
def gord (o : Opnd) : Option (GReg × Option Scope) :=
  if o.cls = 0 then
    if o.mod.getLsbD 3 then (Scope.ofCode (o.mod.setWidth 3)).map fun s => (o.num, some s)
    else if o.mod = 0 then some (o.num, none) else none
  else none

/-! Encoders of the same operands. -/

def ofG (r : GReg) (m : BitVec 4 := 0) : Opnd := ⟨0, r, m⟩
def ofV (r : VReg) (m : BitVec 4 := 0) : Opnd := ⟨1, r.setWidth 6, m⟩
def ofVSrc (x : VSrc) : Opnd := ⟨1, x.v.setWidth 6, bit x.neg ++ bit x.bc ++ 0#2⟩
def ofQ (r : QReg) (m : BitVec 4 := 0) : Opnd := ⟨2, r.setWidth 6, m⟩
def ofA (r : AReg) (m : BitVec 4 := 0) : Opnd := ⟨2, r.setWidth 6, m⟩
def ofP (r : PReg) (m : BitVec 4 := 0) : Opnd := ⟨3, r.setWidth 6, m⟩
def ofPSrc (x : PSrc) : Opnd := ⟨3, x.p.setWidth 6, bit x.neg ++ 0#3⟩
def imm : Opnd := ⟨3, 0, 0⟩
def ofGW (r : GReg) (w : Bool) : Opnd := ⟨0, r, 0#3 ++ bit w⟩
def ofGSc (r : GReg) (s : Scope) : Opnd := ⟨0, r, 0#1 ++ s.code⟩
def ofGOrd (r : GReg) : Option Scope → Opnd
  | none => ⟨0, r, 0⟩
  | some s => ⟨0, r, 1#1 ++ s.code⟩

end Opnd

/-- Guard and hints of the word (R170, R174). HNT[68] must be 0. -/
def Fields.hdr (f : Fields) : Option Hdr :=
  if f.hnt.getLsbD 0 then none
  else some ⟨f.grd.getLsbD 3, f.grd.setWidth 3, f.la, f.hnt.getLsbD 3, f.hnt.getLsbD 2, f.hnt.getLsbD 1⟩

def Hdr.grd (h : Hdr) : BitVec 4 := bit h.neg ++ h.p
def Hdr.hnt (h : Hdr) : BitVec 4 := bit h.yld ++ bit h.reu ++ bit h.str ++ 0#1

/-- Requires that IMM is 0 (R168). -/
def Fields.noImm (f : Fields) : Option Unit := if f.imm = 0 then some () else none

/-- Requires that IMM has no bit outside a mask. -/
def Fields.immMask (f : Fields) (m : BitVec 32) : Option Unit := if f.imm &&& ~~~m = 0 then some () else none

/-- OPB as a g register or the IMM select; IMM is unused with a register (R188). -/
def Fields.gi (f : Fields) : Option GI :=
  if f.b.cls = 3 then (do f.b.isImm; return .imm f.imm)
  else do let r ← f.b.g; f.noImm; return .reg r

def GI.opnd : GI → Opnd
  | .reg r => Opnd.ofG r
  | .imm _ => Opnd.imm

def GI.immv : GI → BitVec 32
  | .reg _ => 0
  | .imm v => v

/-- The IMM of a vector form: IMMB, F2, F1, Z, MSK (Table 10-2). -/
structure VImm where
  immb : BitVec 16 := 0
  f2 : BitVec 8 := 0
  f1 : BitVec 4 := 0
  m : VMask := ⟨0, false⟩
  deriving DecidableEq, Repr

def VImm.unpack (i : BitVec 32) : VImm :=
  ⟨i.extractLsb' 16 16, i.extractLsb' 8 8, i.extractLsb' 4 4, ⟨i.extractLsb' 0 3, i.getLsbD 3⟩⟩

def VImm.pack (x : VImm) : BitVec 32 := x.immb ++ x.f2 ++ x.f1 ++ bit x.m.z ++ x.m.msk

def Fields.vimm (f : Fields) : VImm := VImm.unpack f.imm

/-- A condition as Option, for the decoders. -/
def need (c : Prop) [Decidable c] : Option Unit := if c then some () else none

/-- OPB of an integer vector form; IMMB is unused unless it is selected. -/
def Fields.vb (f : Fields) : Option VB :=
  if f.b.cls = 3 then (do f.b.isImm; return .imm f.vimm.immb)
  else if f.b.cls = 0 then (do let r ← f.b.g; need (f.vimm.immb = 0); return .g r)
  else (do let x ← f.b.vsrc; need (f.vimm.immb = 0); return .v x)

def VB.opnd : VB → Opnd
  | .v x => Opnd.ofVSrc x
  | .g r => Opnd.ofG r
  | .imm _ => Opnd.imm

def VB.immb : VB → BitVec 16
  | .imm i => i
  | _ => 0

def Fields.vg (f : Fields) : Option VG :=
  if f.b.cls = 0 then (do let r ← f.b.g; return .g r) else (do let x ← f.b.vsrc; return .v x)

def VG.opnd : VG → Opnd
  | .v x => Opnd.ofVSrc x
  | .g r => Opnd.ofG r

def Fields.gi16 (f : Fields) : Option GI16 :=
  if f.b.cls = 3 then (do f.b.isImm; return .imm f.vimm.immb)
  else do let r ← f.b.g; need (f.vimm.immb = 0); return .reg r

def GI16.opnd : GI16 → Opnd
  | .reg r => Opnd.ofG r
  | .imm _ => Opnd.imm

def GI16.immb : GI16 → BitVec 16
  | .reg _ => 0
  | .imm i => i

def Fields.pb (f : Fields) : Option PB :=
  if f.b = Opnd.imm then (do f.immMask 1#32; return .imm (f.imm.getLsbD 0))
  else do let x ← f.b.psrc; f.noImm; return .pred x

def PB.opnd : PB → Opnd
  | .pred x => Opnd.ofPSrc x
  | .imm _ => Opnd.imm

def PB.immv : PB → BitVec 32
  | .pred _ => 0
  | .imm c => (bit c).setWidth 32

/-! ## Decoders by opcode -/

namespace Fields

/-- gd, ga and operand B with W32 (Table 09-1). -/
def alu3 (f : Fields) (h : Hdr) (k : Hdr → Bool → GReg → GReg → GI → Instr) : Option Instr := do
  let (d, w) ← f.d.gw; let a ← f.a.g; let b ← f.gi
  return k h w d a b

def alu2 (f : Fields) (h : Hdr) (k : Hdr → Bool → GReg → GReg → Instr) : Option Instr := do
  let (d, w) ← f.d.gw; let a ← f.a.g; f.b.isZero; f.noImm
  return k h w d a

def alu3n (f : Fields) (h : Hdr) (k : Hdr → GReg → GReg → GI → Instr) : Option Instr := do
  let d ← f.d.g; let a ← f.a.g; let b ← f.gi
  return k h d a b

def dec01 (f : Fields) (h : Hdr) : Option Instr :=
  match f.fn.toNat with
  | 0x00 => f.alu3 h .add | 0x01 => f.alu3 h .sub | 0x02 => f.alu3 h .mul | 0x03 => f.alu3 h .mulh
  | 0x04 => f.alu3 h .mulhu | 0x05 => f.alu3 h .div | 0x06 => f.alu3 h .divu | 0x07 => f.alu3 h .rem
  | 0x08 => f.alu3 h .remu | 0x09 => f.alu3 h .and | 0x0A => f.alu3 h .or | 0x0B => f.alu3 h .xor
  | 0x0C => f.alu3 h .andn | 0x0D => f.alu3 h .orn | 0x0E => f.alu3 h .shl | 0x0F => f.alu3 h .shr
  | 0x10 => f.alu3 h .sar | 0x11 => f.alu3 h .rol | 0x12 => f.alu3 h .ror | 0x13 => f.alu3 h .min
  | 0x14 => f.alu3 h .max | 0x15 => f.alu3 h .minu | 0x16 => f.alu3 h .maxu
  | 0x17 => f.alu2 h .clz | 0x18 => f.alu2 h .ctz | 0x19 => f.alu2 h .popc | 0x1A => f.alu2 h .brev
  | 0x1B => f.alu2 h .bswap
  | 0x1C => f.alu3n h .sext | 0x1D => f.alu3n h .zext | 0x1E => f.alu3n h .bfx | 0x1F => f.alu3n h .bfi
  | 0x20 => do
    let d ← f.d.g; let a ← f.a.g
    need (f.b.mod.extractLsb' 2 2 = 0)
    let k := f.b.mod.setWidth 2
    if f.b.cls = 3 then (do need (f.b.num = 0); return .lea h d a (.imm f.imm) k)
    else do need (f.b.cls = 0); f.noImm; return .lea h d a (.reg f.b.num) k
  | 0x21 => do
    let d ← f.d.g; let a ← f.a.g; let b ← f.b.g; f.immMask 0xF#32
    return .sel h d a b ⟨f.imm.setWidth 3, f.imm.getLsbD 3⟩
  | 0x22 => do let d ← f.d.g; let a ← f.a.g; f.b.isZero; f.noImm; return .mov h d a
  | 0x23 => do let d ← f.d.g; f.a.isZero; f.b.isImm; return .movi h d f.imm
  | 0x24 => do let d ← f.d.g; f.a.isZero; f.b.isImm; return .movhi h d f.imm
  | _ => none

def pred3 (f : Fields) (h : Hdr) (k : Hdr → PReg → PSrc → PB → Instr) : Option Instr := do
  let d ← f.d.p; let a ← f.a.psrc; let b ← f.pb
  return k h d a b

def dec02 (f : Fields) (h : Hdr) : Option Instr :=
  if f.fn.toNat < 8 then do
    let (d, m) ← f.d.pm; need (m.extractLsb' 1 3 = 0)
    let a ← f.a.g; let b ← f.gi
    return .cmp h (Cond.ofCode (f.fn.setWidth 3)) (m.getLsbD 0) d a b
  else
  match f.fn.toNat with
  | 0x10 => f.pred3 h .pand | 0x11 => f.pred3 h .por | 0x12 => f.pred3 h .pxor
  | 0x13 => do let d ← f.d.p; let a ← f.a.psrc; f.b.isZero; f.noImm; return .pnot h d a
  | 0x14 => do
    let d ← f.d.p; f.b.isZero; f.noImm
    if f.a.cls = 0 then (do need (f.a.mod.setWidth 3 = 0); return .pmov h d (.g f.a.num (f.a.mod.getLsbD 3)))
    else do let a ← f.a.psrc; return .pmov h d (.pred a)
  | 0x15 => do let d ← f.d.g; f.a.isZero; f.b.isZero; f.noImm; return .pget h d
  | _ => none

def dec03 (f : Fields) (h : Hdr) : Option Instr :=
  match f.fn.toNat with
  | 0 => do f.d.isZero; f.a.isZero; f.b.isZero; return .br h f.imm
  | 1 => do let d ← f.d.g; f.a.isZero; f.b.isZero; return .brl h d f.imm
  | 2 => do f.d.isZero; let a ← f.a.g; f.b.isZero; return .jmp h a f.imm
  | 3 => do let d ← f.d.g; let a ← f.a.g; f.b.isZero; return .jmpl h d a f.imm
  | 4 => do f.d.isZero; let a ← f.a.g; f.b.isZero; f.noImm; return .ret h a
  | 5 => do let d ← f.d.g; f.a.isZero; f.b.isZero; return .loop h d f.imm
  | 6 => do f.d.isZero; let a ← f.a.g; let b ← f.b.g; return .brt h a b f.imm
  | 7 => do f.d.isZero; f.a.isZero; f.b.isZero; f.noImm; return .nop h
  | _ => none

/-- The .W and .D size codes of the full/empty forms (Table 08-10). -/
def feSize (lo : Nat) : Option Bool := if lo = 2 then some false else if lo = 3 then some true else none

def dec04 (f : Fields) (h : Hdr) : Option Instr := do
  f.b.isImm
  let lo := f.fn.toNat % 16
  match f.fn.toNat / 16 with
  | 0 => do
    need (lo < 8); let d ← f.d.g; let (a, o) ← f.a.gord
    return .ld h (Sz.ofCode (f.fn.setWidth 2)) (f.fn.getLsbD 2) o d a f.imm
  | 1 => do
    need (lo < 4); let s ← f.d.g; let (a, o) ← f.a.gord
    return .st h (Sz.ofCode (f.fn.setWidth 2)) o s a f.imm
  | 2 => do need (lo = 3); let d ← f.d.g; let (a, o) ← f.a.gord; return .ldp h o d a f.imm
  | 3 => do need (lo = 3); let s ← f.d.g; let (a, o) ← f.a.gord; return .stp h o s a f.imm
  | 4 => do let w ← feSize lo; let d ← f.d.g; let a ← f.a.g; return .ldf h w d a f.imm
  | 5 => do let w ← feSize lo; let d ← f.d.g; let a ← f.a.g; return .lde h w d a f.imm
  | 6 => do let w ← feSize lo; let s ← f.d.g; let a ← f.a.g; return .stf h w s a f.imm
  | 7 => do let w ← feSize lo; f.d.isZero; let a ← f.a.g; return .sete h w a f.imm
  | 8 => do need (lo = 0); f.d.isZero; let a ← f.a.g; return .pref h a f.imm
  | 9 => do need (lo = 0); f.d.isZero; let a ← f.a.g; return .cflush h a f.imm
  | 10 => do need (lo < 2); f.d.isZero; let a ← f.a.g; return .cinv h (f.fn.getLsbD 0) a f.imm
  | 11 => do need (lo = 0); f.d.isZero; let a ← f.a.g; return .czero h a f.imm
  | _ => none

def dec05 (f : Fields) (h : Hdr) : Option Instr := do
  let (d, m) ← f.d.gm; need (m.extractLsb' 1 3 = 1)
  let (a, sc) ← f.a.gsc; let b ← f.b.g
  let pl ← Place.ofCode (f.fn.setWidth 2)
  let md : AtMode := ⟨m.getLsbD 0, Order.ofCode (f.fn.extractLsb' 2 2), pl, sc⟩
  match f.fn.toNat / 16 with
  | 0 => return .aadd h md d a b f.imm
  | 1 => return .amin h md d a b f.imm
  | 2 => return .amax h md d a b f.imm
  | 3 => return .aminu h md d a b f.imm
  | 4 => return .amaxu h md d a b f.imm
  | 5 => return .aand h md d a b f.imm
  | 6 => return .aor h md d a b f.imm
  | 7 => return .axor h md d a b f.imm
  | 8 => return .aswp h md d a b f.imm
  | 9 => return .acas h md d a b f.imm
  | 10 => return .acas2 h md d a b f.imm
  | 11 => return .afadd h md d a b f.imm
  | 12 => return .ainc h md d a b f.imm
  | _ => none

def dec06 (f : Fields) (h : Hdr) : Option Instr :=
  match f.fn.toNat with
  | 0 => do
    f.d.isZero; let (r, sc) ← f.a.gsc; need (r = 0); f.b.isZero; f.immMask 0xF#32
    return .fence h sc (f.imm.getLsbD 0) (f.imm.getLsbD 1) (f.imm.getLsbD 2) (f.imm.getLsbD 3)
  | 1 => do
    let (d, m) ← f.d.gm; need (m.extractLsb' 1 2 = 0)
    let (a, sc) ← f.a.gsc
    let (b, c) ← f.b.gm; need (c.getLsbD 3 = false)
    return .waita h (Cond.ofCode (c.setWidth 3)) (m.getLsbD 0) (m.getLsbD 3) sc d a b f.imm
  | 2 => do f.d.isZero; f.a.isZero; let b ← f.gi; return .waitn h b
  | 3 => do
    let d ← f.d.g; let a ← f.a.g; f.b.isZero; f.immMask 3#32
    return .barset h d a (f.imm.setWidth 2)
  | 4 => do let d ← f.d.g; f.a.isZero; f.b.isZero; f.immMask 3#32; return .bararr h d (f.imm.setWidth 2)
  | 5 => do
    let d ← f.d.g; let a ← f.a.g; f.b.isZero; f.immMask 3#32
    return .barwait h d a (f.imm.setWidth 2)
  | 6 => do let d ← f.d.g; f.a.isZero; f.b.isZero; f.noImm; return .chk h d
  | 7 => do f.d.isZero; f.a.isZero; f.b.isZero; f.noImm; return .yield h
  | _ => none

/-- vd with its type, va, operand B, and the IMM fields F1 and F2 left to the caller. -/
def vtyd (f : Fields) : Option (VReg × ETy) := do
  let (d, t) ← f.d.vm; let t ← ETy.ofCode t
  return (d, t)

def gtyd (f : Fields) : Option (GReg × ETy) := do
  let (d, t) ← f.d.gm; let t ← ETy.ofCode t
  return (d, t)

def noF (f : Fields) : Option Unit := need (f.vimm.f1 = 0 ∧ f.vimm.f2 = 0)
def noB (f : Fields) : Option Unit := do f.b.isZero; need (f.vimm.immb = 0)

def vi3 (f : Fields) (h : Hdr) (k : Hdr → ETy → VMask → VReg → VSrc → VB → Instr) : Option Instr := do
  let (d, t) ← f.vtyd; let x ← f.a.vsrc; let y ← f.vb; f.noF
  return k h t f.vimm.m d x y

def vi3s (f : Fields) (h : Hdr) (k : Hdr → ETy → VMask → Bool → VReg → VSrc → VB → Instr) : Option Instr := do
  let (d, t) ← f.vtyd; let x ← f.a.vsrc; let y ← f.vb
  need (f.vimm.f1.extractLsb' 1 3 = 0 ∧ f.vimm.f2 = 0)
  return k h t f.vimm.m (f.vimm.f1.getLsbD 0) d x y

def vi2s (f : Fields) (h : Hdr) (k : Hdr → ETy → VMask → Bool → VReg → VSrc → Instr) : Option Instr := do
  let (d, t) ← f.vtyd; let x ← f.a.vsrc; f.noB
  need (f.vimm.f1.extractLsb' 1 3 = 0 ∧ f.vimm.f2 = 0)
  return k h t f.vimm.m (f.vimm.f1.getLsbD 0) d x

def vi2 (f : Fields) (h : Hdr) (k : Hdr → ETy → VMask → VReg → VSrc → Instr) : Option Instr := do
  let (d, t) ← f.vtyd; let x ← f.a.vsrc; f.noB; f.noF
  return k h t f.vimm.m d x

def dec10 (f : Fields) (h : Hdr) : Option Instr :=
  match f.fn.toNat with
  | 0x00 => f.vi3s h .vadd | 0x01 => f.vi3s h .vsub | 0x02 => f.vi3 h .vmul | 0x03 => f.vi3 h .vmulh
  | 0x04 => f.vi3 h .vmin | 0x05 => f.vi3 h .vmax | 0x06 => f.vi3 h .vminu | 0x07 => f.vi3 h .vmaxu
  | 0x08 => f.vi3 h .vand | 0x09 => f.vi3 h .vor | 0x0A => f.vi3 h .vxor | 0x0B => f.vi3 h .vshl
  | 0x0C => f.vi3 h .vshr | 0x0D => f.vi3 h .vsar | 0x0E => f.vi2s h .vabs | 0x0F => f.vi2s h .vneg
  | 0x10 => do
    let (d, t) ← f.d.qm; let t ← ETy.ofCode t; let x ← f.a.vsrc; let y ← f.vb
    need (f.vimm.f1.getLsbD 3 = false ∧ f.vimm.f2 = 0)
    return .vcmp h (Cond.ofCode (f.vimm.f1.setWidth 3)) t f.vimm.m d x y
  | 0x11 => f.vi3 h .vsel
  | 0x12 => f.vi2 h .vpopc
  | _ => none

def vf3 (f : Fields) (h : Hdr) (r : RMode) (k : Hdr → ETy → RMode → VMask → VReg → VSrc → VG → Instr) :
    Option Instr := do
  let (d, t) ← f.vtyd; let x ← f.a.vsrc; let y ← f.vg; need (f.vimm.immb = 0); f.noF
  return k h t r f.vimm.m d x y

def vf2 (f : Fields) (h : Hdr) (r : RMode) (k : Hdr → ETy → RMode → VMask → VReg → VSrc → Instr) :
    Option Instr := do
  let (d, t) ← f.vtyd; let x ← f.a.vsrc; f.noB; f.noF
  return k h t r f.vimm.m d x

def dec11 (f : Fields) (h : Hdr) : Option Instr := do
  let r ← RMode.ofCode (f.fn.extractLsb' 5 3)
  match (f.fn.setWidth 5).toNat with
  | 0x00 => f.vf3 h r .vfadd | 0x01 => f.vf3 h r .vfsub | 0x02 => f.vf3 h r .vfmul | 0x03 => f.vf3 h r .vfma
  | 0x04 => f.vf3 h r .vfms | 0x05 => f.vf3 h r .vfnma | 0x06 => f.vf3 h r .vfdiv
  | 0x07 => f.vf2 h r .vfsqrt | 0x08 => f.vf2 h r .vfrcp | 0x09 => f.vf2 h r .vfrsq | 0x0A => f.vf2 h r .vfexp2
  | 0x0B => f.vf2 h r .vflog2
  | 0x0C => do
    need (r = .rne); let (d, t) ← f.vtyd; let x ← f.a.vsrc; let y ← f.vg; need (f.vimm.immb = 0); f.noF
    return .vfmin h t f.vimm.m d x y
  | 0x0D => do
    need (r = .rne); let (d, t) ← f.vtyd; let x ← f.a.vsrc; let y ← f.vg; need (f.vimm.immb = 0); f.noF
    return .vfmax h t f.vimm.m d x y
  | 0x0E => do
    need (r = .rne); let (d, t) ← f.d.qm; let t ← ETy.ofCode t; let x ← f.a.vsrc; let y ← f.vg
    need (f.vimm.immb = 0 ∧ f.vimm.f1.getLsbD 3 = false ∧ f.vimm.f2 = 0)
    return .vfcmp h (Cond.ofCode (f.vimm.f1.setWidth 3)) t f.vimm.m d x y
  | 0x0F => do need (r = .rne); f.vi2 h .vfclass
  | 0x10 => do
    let (d, t) ← f.vtyd; let x ← f.a.vsrc; f.noB
    let src ← ETy.ofCode f.vimm.f1; need (f.vimm.f2.extractLsb' 5 3 = 0)
    return .vfcvt h t r f.vimm.m (f.vimm.f2.getLsbD 4) src (f.vimm.f2.setWidth 4) d x
  | 0x11 => do
    let (d, t) ← f.vtyd; let x ← f.a.vsrc; let y ← f.b.v
    need (f.vimm.immb = 0 ∧ f.vimm.f1 = 0 ∧ f.vimm.f2.extractLsb' 3 5 = 0)
    return .vfscl h t r f.vimm.m (f.vimm.f2.setWidth 2) (f.vimm.f2.getLsbD 2) d x y
  | _ => none

/-- A reduction: Z must be 0 (R225). -/
def red (f : Fields) (k : GReg → ETy → VSrc → VImm → Option Instr) : Option Instr := do
  let (d, t) ← f.gtyd; let x ← f.a.vsrc; f.noB; need (f.vimm.m.z = false ∧ f.vimm.f2 = 0)
  k d t x f.vimm

def dec12 (f : Fields) (h : Hdr) : Option Instr :=
  match f.fn.toNat with
  | 0x00 => f.red fun d t x i => do need (i.f1 = 0); return .vradd h t i.m.msk d x
  | 0x01 => f.red fun d t x i => do
    need (i.f1.extractLsb' 1 3 = 0); return .vrmin h t i.m.msk (i.f1.getLsbD 0) d x
  | 0x02 => f.red fun d t x i => do
    need (i.f1.extractLsb' 1 3 = 0); return .vrmax h t i.m.msk (i.f1.getLsbD 0) d x
  | 0x03 => f.red fun d t x i => do
    need (i.f1.getLsbD 3 = false); let r ← RMode.ofCode (i.f1.setWidth 3); return .vfradd h t r i.m.msk d x
  | 0x04 => f.red fun d t x i => do need (i.f1 = 0); return .vfrmax h t i.m.msk d x
  | 0x05 => do
    let (d, t) ← f.vtyd; let x ← f.a.vsrc; let y ← f.b.vsrc; need (f.vimm.immb = 0); f.noF
    return .vperm h t f.vimm.m d x y
  | 0x06 => do let (d, t) ← f.vtyd; let x ← f.a.vsrc; let k ← f.gi16; f.noF; return .vslide h t f.vimm.m d x k
  | 0x07 => do let (d, t) ← f.vtyd; let a ← f.a.g; f.noB; f.noF; return .vbcast h t f.vimm.m d a
  | 0x08 => do
    let (d, t) ← f.gtyd; let x ← f.a.vsrc; let k ← f.gi16; f.noF; need (f.vimm.m = ⟨0, false⟩)
    return .vext h t d x k
  | 0x09 => do
    let (d, t) ← f.vtyd; let a ← f.a.g; let k ← f.gi16; f.noF; need (f.vimm.m = ⟨0, false⟩)
    return .vins h t d a k
  | 0x0A => f.vi2 h .vcmpr
  | 0x0B => f.vi2 h .vexpd
  | 0x0C => do
    let (d, t) ← f.vtyd; let x ← f.a.vsrc; let y ← f.b.vsrc
    need (f.vimm.immb = 0 ∧ f.vimm.f1.extractLsb' 1 3 = 0 ∧ f.vimm.f2 = 0)
    return .vzip h t f.vimm.m (f.vimm.f1.getLsbD 0) d x y
  | 0x0D => do
    let (d, t) ← f.vtyd; let x ← f.a.vsrc; let y ← f.b.vsrc
    need (f.vimm.immb = 0 ∧ f.vimm.f1.extractLsb' 1 3 = 0 ∧ f.vimm.f2 = 0)
    return .vunzip h t f.vimm.m (f.vimm.f1.getLsbD 0) d x y
  | 0x0E => do let (d, t) ← f.vtyd; f.a.isZero; f.noB; f.noF; return .viota h t f.vimm.m d
  | 0x0F => do let d ← f.d.q; let a ← f.a.q; let b ← f.b.q; f.noImm; return .qand h d a b
  | 0x10 => do let d ← f.d.q; let a ← f.a.q; let b ← f.b.q; f.noImm; return .qor h d a b
  | 0x11 => do let d ← f.d.q; let a ← f.a.q; let b ← f.b.q; f.noImm; return .qxor h d a b
  | 0x12 => do let d ← f.d.q; let a ← f.a.q; f.b.isZero; f.noImm; return .qnot h d a
  | 0x13 => do let (d, t) ← f.gtyd; let a ← f.a.q; f.b.isZero; f.noImm; return .qcnt h t d a
  | _ => none

def dec13 (f : Fields) (h : Hdr) : Option Instr := do
  let (d, t) ← f.vtyd
  let i := f.vimm
  match f.fn.toNat with
  | 0 => do let a ← f.a.g; f.b.isImm; f.noF; return .vld h t i.m d a i.immb
  | 1 => do let a ← f.a.g; f.b.isImm; f.noF; need (i.m.z = false); return .vst h t i.m.msk d a i.immb
  | 2 => do let a ← f.a.g; let b ← f.b.g; f.noF; return .vlds h t i.m d a b i.immb
  | 3 => do let a ← f.a.g; let b ← f.b.g; f.noF; need (i.m.z = false); return .vsts h t i.m.msk d a b i.immb
  | 4 => do
    let a ← f.a.g; let x ← f.b.v; need (i.f2 = 0 ∧ i.f1.extractLsb' 2 2 = 0)
    return .vgath h t i.m (i.f1.setWidth 2) d a x i.immb
  | 5 => do
    let a ← f.a.g; let x ← f.b.v; need (i.f2 = 0 ∧ i.f1.extractLsb' 2 2 = 0 ∧ i.m.z = false)
    return .vscat h t i.m.msk (i.f1.setWidth 2) d a x i.immb
  | 6 => do let a ← f.a.g; f.b.isImm; f.noF; return .vldf h t i.m d a i.immb
  | 7 => do
    let (a, sc) ← f.a.gsc; let x ← f.b.v; need (i.f1.extractLsb' 2 2 = 0)
    let op ← AtOp.ofVcode (i.f2.setWidth 4); let pl ← Place.ofCode (i.f2.extractLsb' 6 2)
    return .vamo h t i.m op (Order.ofCode (i.f2.extractLsb' 4 2)) pl sc (i.f1.setWidth 2) d a x i.immb
  | _ => none

def dec20 (f : Fields) (h : Hdr) : Option Instr :=
  match f.fn.toNat with
  | 0 => do
    let (d, t) ← f.d.am; let ta ← ETy.ofCode t; let a ← f.a.g; let b ← f.b.g; f.immMask 0xFFFFF#32
    let tb ← ETy.ofCode (f.imm.extractLsb' 16 4)
    return .mma h ta tb d a b (f.imm.setWidth 16)
  | 1 => do
    f.d.isZero; let a ← f.a.g; let b ← f.b.g; f.immMask 0xFF017F#32
    let ta ← ETy.ofCode (f.imm.extractLsb' 16 4); let tb ← ETy.ofCode (f.imm.extractLsb' 20 4)
    return .mcnt h ta tb a b (f.imm.setWidth 7) (f.imm.getLsbD 8)
  | 2 => do let d ← f.d.a0; f.a.isZero; f.b.isZero; f.immMask 1#32; return .mdrain h d (f.imm.getLsbD 0)
  | 3 => do f.d.isZero; f.a.isZero; f.b.isZero; f.noImm; return .mmerge h
  | 4 => do let d ← f.d.a0; f.a.isZero; f.b.isZero; f.noImm; return .mzero h d
  | 5 => do
    let (d, t) ← f.d.am; let t ← ETy.ofCode t; let a ← f.a.g; let b ← f.b.g; f.immMask 0x7F7F#32
    return .mld h t d a b (f.imm.setWidth 7) (f.imm.extractLsb' 8 7)
  | 6 => do
    let (d, t) ← f.d.am; let t ← ETy.ofCode t; let a ← f.a.g; let b ← f.b.g; f.immMask 0xF7F7F#32
    let r ← RMode.ofCode (f.imm.extractLsb' 16 3)
    return .mst h t r (f.imm.getLsbD 19) d a b (f.imm.setWidth 7) (f.imm.extractLsb' 8 7)
  | 7 => do
    f.d.isZero; let a ← f.a.g; let b ← f.b.g; f.immMask 0xF#32
    return .mscl h a b (f.imm.getLsbD 0) (f.imm.getLsbD 1) (f.imm.getLsbD 2) (f.imm.getLsbD 3)
  | 8 => do f.d.isZero; f.a.isZero; f.b.isZero; f.noImm; return .mwait h
  | 9 => do
    let d ← f.d.g; f.a.isZero; f.b.isZero; f.immMask 0x1F1F#32
    return .mcfg h d (f.imm.setWidth 5) (f.imm.extractLsb' 8 5)
  | 0xA => do
    let d ← f.d.g; let a ← f.a.g; let b ← f.b.g; f.immMask 0xFFFFFF01#32
    return .mbcast h d a b (f.imm.getLsbD 0) (f.imm.extractLsb' 8 8) (f.imm.extractLsb' 16 16)
  | 0xB => do f.d.isZero; f.a.isZero; let b ← f.gi; return .mqw h b
  | _ => none

def dec21 (f : Fields) (h : Hdr) : Option Instr := do
  let d ← f.d.g; let a ← f.a.g
  match f.fn.toNat with
  | 0 => do let b ← f.b.g; f.immMask 3#32; return .tdecl h d a b (f.imm.setWidth 2)
  | 1 => do f.b.isZero; f.noImm; return .trel h d a
  | 2 => do let b ← f.b.g; f.immMask 1#32; return .tfwd h d a b (f.imm.getLsbD 0)
  | 3 => do f.b.isZero; f.noImm; return .town h d a
  | 4 => do f.b.isZero; f.noImm; return .tqry h d a
  | _ => none

/-- The scope and DK of PUT and PUTV in OPA's modifier (Table 14-1). -/
def putA (f : Fields) : Option (GReg × Scope × Bool) := do
  let (a, m) ← f.a.gm; let sc ← Scope.ofCode (m.setWidth 3)
  return (a, sc, m.getLsbD 3)

def dec30 (f : Fields) (h : Hdr) : Option Instr :=
  match f.fn.toNat with
  | 0 => do let d ← f.d.g; let a ← f.a.g; f.b.isZero; f.immMask 3#32; return .cpy h d a (f.imm.setWidth 2)
  | 1 => do f.d.isZero; let a ← f.a.g; f.b.isZero; f.immMask 3#32; return .cchain h a (f.imm.setWidth 2)
  | 2 => do
    let d ← f.d.g; f.a.isZero; f.b.isZero; f.immMask 7#32
    return .ccancel h d (f.imm.setWidth 2) (f.imm.getLsbD 2)
  | 3 => do let d ← f.d.g; f.a.isZero; f.b.isZero; f.immMask 3#32; return .cqry h d (f.imm.setWidth 2)
  | 4 => do
    let d ← f.d.g; let (a, sc, dk) ← f.putA; let b ← f.b.g; f.immMask 0x7FFFF#32
    return .put h sc dk d a b (f.imm.setWidth 16) (f.imm.extractLsb' 16 2) (f.imm.getLsbD 18)
  | 5 => do
    let d ← f.d.g; let (a, sc, dk) ← f.putA; let b ← f.b.v; f.immMask 0x7000F#32
    return .putv h sc dk d a b (f.imm.setWidth 4) (f.imm.extractLsb' 16 2) (f.imm.getLsbD 18)
  | 6 => do
    let (d, m) ← f.d.gm; need (m.extractLsb' 1 3 = 1)
    let (a, sc) ← f.a.gsc; let b ← f.b.g; f.immMask 0xFF#32
    let op ← AtOp.ofCode (f.imm.setWidth 4)
    return .ramo h op (m.getLsbD 0) (Order.ofCode (f.imm.extractLsb' 4 2)) sc d a b (f.imm.extractLsb' 6 2)
  | _ => none

def msgImm (f : Fields) : MsgImm :=
  ⟨f.imm.setWidth 5, f.imm.extractLsb' 5 5, f.imm.getLsbD 10, f.imm.extractLsb' 11 5, f.imm.extractLsb' 16 16⟩

def dec31 (f : Fields) (h : Hdr) : Option Instr :=
  match f.fn.toNat with
  | 0 => do f.d.isZero; let a ← f.a.g; let b ← f.b.g; return .send h a b f.msgImm
  | 1 => do f.d.isZero; let a ← f.a.g; let b ← f.b.v; return .sendv h a b f.msgImm
  | 2 => do
    let d ← f.d.g; let a ← f.a.g; f.b.isZero; f.immMask 0x1F#32; return .pcfg h d a (f.imm.setWidth 5)
  | 3 => do let d ← f.d.g; let a ← f.a.g; f.b.isZero; f.immMask 0xF#32; return .jcfg h d a (f.imm.setWidth 4)
  | 4 => do let d ← f.d.g; f.a.isZero; let b ← f.gi; return .jena h d b
  | 5 => do let d ← f.d.g; f.a.isZero; let b ← f.gi; return .jdis h d b
  | 6 => do
    let d ← f.d.g; let a ← f.a.g; f.b.isZero; f.immMask 0x3F#32
    return .mtake h d a (f.imm.setWidth 5) (f.imm.getLsbD 5)
  | 7 => do let d ← f.d.g; let a ← f.a.g; f.b.isZero; f.noImm; return .mreplay h d a
  | _ => none

def dec32 (f : Fields) (h : Hdr) : Option Instr :=
  match f.fn.toNat with
  | 0 => do
    let d ← f.d.g; let a ← f.a.g; let b ← f.b.g; f.immMask 3#32; return .spawn h d a b (f.imm.setWidth 2)
  | 1 => do
    let d ← f.d.g; f.a.isZero; f.b.isZero; f.immMask 0x1F#32
    return .joinw h d (f.imm.setWidth 4) (f.imm.getLsbD 4)
  | 2 => do
    let d ← f.d.g; let a ← f.a.g; let b ← f.b.g; f.immMask 3#32; return .carm h d a b (f.imm.setWidth 2)
  | 3 => do let d ← f.d.g; let a ← f.a.g; let b ← f.gi; return .cdec h d a b
  | 4 => do f.d.isZero; f.a.isZero; f.b.isZero; f.noImm; return .texit h
  | 5 => do f.d.isZero; f.a.isZero; let b ← f.gi; return .sqcfg h b
  | 6 => do f.d.isZero; f.a.isZero; let b ← f.gi; return .stlcfg h b
  | _ => none

def dec3F (f : Fields) (h : Hdr) : Option Instr :=
  match f.fn.toNat with
  | 0x0 => do f.d.isZero; f.a.isZero; f.b.isZero; return .trap h f.imm
  | 0x1 => do f.d.isZero; f.a.isZero; f.b.isZero; f.immMask 1#32; return .rett h (f.imm.getLsbD 0)
  | 0x2 => do let d ← f.d.g; f.a.isZero; f.b.isZero; f.immMask 0xFFF#32; return .srd h d (f.imm.setWidth 12)
  | 0x3 => do f.d.isZero; f.a.isZero; let b ← f.b.g; f.immMask 0xFFF#32; return .swr h (f.imm.setWidth 12) b
  | 0x4 => do let d ← f.d.g; f.a.isZero; f.b.isZero; f.immMask 1#32; return .rdtime h d (f.imm.getLsbD 0)
  | 0x5 => do f.d.isZero; f.a.isZero; f.b.isZero; f.immMask 0xFFFF#32; return .brk h (f.imm.setWidth 16)
  | 0x6 => do
    let d ← f.d.g; let a ← f.a.g; f.b.isZero; f.immMask 0xF#32; return .cxsave h d a (f.imm.setWidth 4)
  | 0x7 => do
    let d ← f.d.g; let a ← f.a.g; f.b.isZero; f.immMask 0xF#32; return .cxload h d a (f.imm.setWidth 4)
  | 0x8 => do let d ← f.d.g; let a ← f.a.g; let b ← f.b.g; f.noImm; return .kill h d a b
  | 0x9 => do let d ← f.d.g; let a ← f.a.g; let b ← f.b.g; f.noImm; return .krevoke h d a b
  | 0xA => do let d ← f.d.g; f.a.isZero; f.b.isZero; f.noImm; return .enrg h d
  | 0xB => do f.d.isZero; f.a.isZero; f.b.isZero; f.noImm; return .halt h
  | 0xC => do
    let d ← f.d.g; let a ← f.a.g; f.b.isZero; f.immMask 3#32; return .seqrd h d a (f.imm.setWidth 2)
  | 0xD => do f.d.isZero; f.a.isZero; f.b.isZero; f.noImm; return .ill h
  | _ => none

/-- The form a word's fields name, before the checks of WellFormed (Table 08-9). -/
def form (f : Fields) (h : Hdr) : Option Instr :=
  match f.opc.toNat with
  | 0x01 => f.dec01 h | 0x02 => f.dec02 h | 0x03 => f.dec03 h | 0x04 => f.dec04 h | 0x05 => f.dec05 h
  | 0x06 => f.dec06 h | 0x10 => f.dec10 h | 0x11 => f.dec11 h | 0x12 => f.dec12 h | 0x13 => f.dec13 h
  | 0x20 => f.dec20 h | 0x21 => f.dec21 h | 0x30 => f.dec30 h | 0x31 => f.dec31 h | 0x32 => f.dec32 h
  | 0x3F => f.dec3F h
  | _ => none

end Fields

/-- The instruction of a field record; none where R176 raises ILLOP. -/
def decodeFields (f : Fields) : Option Instr := do
  let h ← f.hdr
  let i ← f.form h
  if i.wf then some i else none

/-- The instruction of a 96-bit word; none where R176 raises ILLOP (an all-zero word names OPC 0x00, which no form has). -/
def decode (w : InstrWord) : Option Instr := decodeFields (Fields.unpack w)

/-- The word of bytes in memory order: the byte at the lowest address is bits [7:0] (R6, R167). -/
def bytesToWord : List Byte → Nat
  | [] => 0
  | b :: bs => b.toNat + 256 * bytesToWord bs

/-- Decoding a byte list: one instruction and the rest, or none for a short list or a rejected word. -/
def decodeBytes (bs : List Byte) : Option (Instr × List Byte) :=
  if bs.length < 12 then none
  else (decode (BitVec.ofNat 96 (bytesToWord (bs.take 12)))).map fun i => (i, bs.drop 12)

/-! ## The encoder -/

/-- A field record of one instruction. -/
def mkF (h : Hdr) (opc fn : BitVec 8) (d a b : Opnd) (imm : BitVec 32) : Fields :=
  ⟨opc, fn, h.grd, h.la, h.hnt, d, a, b, imm⟩

def enc01 (h : Hdr) (fn : BitVec 8) (w : Bool) (d a : GReg) (b : GI) : Fields :=
  mkF h 1 fn (Opnd.ofGW d w) (Opnd.ofG a) b.opnd b.immv

def enc01u (h : Hdr) (fn : BitVec 8) (w : Bool) (d a : GReg) : Fields :=
  mkF h 1 fn (Opnd.ofGW d w) (Opnd.ofG a) Opnd.zero 0

def enc01n (h : Hdr) (fn : BitVec 8) (d a : GReg) (b : GI) : Fields :=
  mkF h 1 fn (Opnd.ofG d) (Opnd.ofG a) b.opnd b.immv

def enc02p (h : Hdr) (fn : BitVec 8) (d : PReg) (a : PSrc) (b : PB) : Fields :=
  mkF h 2 fn (Opnd.ofP d) (Opnd.ofPSrc a) b.opnd b.immv

def enc04 (h : Hdr) (hi lo : BitVec 4) (d a : Opnd) (e : BitVec 32) : Fields :=
  mkF h 4 (hi ++ lo) d a Opnd.imm e

def enc05 (h : Hdr) (op : AtOp) (m : AtMode) (d a b : GReg) (e : BitVec 32) : Fields :=
  mkF h 5 (op.code ++ m.ord.code ++ m.pl.code) (Opnd.ofG d (1#3 ++ bit m.dw)) (Opnd.ofGSc a m.sc) (Opnd.ofG b) e

def encVI (h : Hdr) (fn : BitVec 8) (t : ETy) (m : VMask) (d : VReg) (x : VSrc) (y : VB) (f1 : BitVec 4 := 0) :
    Fields :=
  mkF h 0x10 fn (Opnd.ofV d t.code) (Opnd.ofVSrc x) y.opnd (VImm.pack { immb := y.immb, f1 := f1, m := m })

def encVI2 (h : Hdr) (fn : BitVec 8) (t : ETy) (m : VMask) (d : VReg) (x : VSrc) (f1 : BitVec 4 := 0) : Fields :=
  mkF h 0x10 fn (Opnd.ofV d t.code) (Opnd.ofVSrc x) Opnd.zero (VImm.pack { f1 := f1, m := m })

def encVF (h : Hdr) (fn : BitVec 5) (t : ETy) (r : RMode) (m : VMask) (d : VReg) (x : VSrc) (y : VG) : Fields :=
  mkF h 0x11 (r.code ++ fn) (Opnd.ofV d t.code) (Opnd.ofVSrc x) y.opnd (VImm.pack { m := m })

def encVF2 (h : Hdr) (fn : BitVec 5) (t : ETy) (r : RMode) (m : VMask) (d : VReg) (x : VSrc) : Fields :=
  mkF h 0x11 (r.code ++ fn) (Opnd.ofV d t.code) (Opnd.ofVSrc x) Opnd.zero (VImm.pack { m := m })

def encRed (h : Hdr) (fn : BitVec 8) (t : ETy) (q : QReg) (d : GReg) (x : VSrc) (f1 : BitVec 4) : Fields :=
  mkF h 0x12 fn (Opnd.ofG d t.code) (Opnd.ofVSrc x) Opnd.zero (VImm.pack { f1 := f1, m := ⟨q, false⟩ })

def encVP (h : Hdr) (fn : BitVec 8) (t : ETy) (m : VMask) (d : VReg) (a b : Opnd) (immb : BitVec 16 := 0)
    (f1 : BitVec 4 := 0) : Fields :=
  mkF h 0x12 fn (Opnd.ofV d t.code) a b (VImm.pack { immb := immb, f1 := f1, m := m })

def encVM (h : Hdr) (fn : BitVec 8) (t : ETy) (m : VMask) (d : VReg) (a b : Opnd) (e : BitVec 16)
    (f1 : BitVec 4 := 0) (f2 : BitVec 8 := 0) : Fields :=
  mkF h 0x13 fn (Opnd.ofV d t.code) a b (VImm.pack { immb := e, f2 := f2, f1 := f1, m := m })

def MsgImm.pack (m : MsgImm) : BitVec 32 := m.tag ++ m.len8 ++ bit m.rpy ++ m.rport ++ m.dport

/-- The fields of an instruction, from the encoding tables of chapters 08 to 18; none for a step of another agent. -/
def Instr.fields : Instr → Option Fields
  | .add h w d a b => some (enc01 h 0x00 w d a b)
  | .sub h w d a b => some (enc01 h 0x01 w d a b)
  | .mul h w d a b => some (enc01 h 0x02 w d a b)
  | .mulh h w d a b => some (enc01 h 0x03 w d a b)
  | .mulhu h w d a b => some (enc01 h 0x04 w d a b)
  | .div h w d a b => some (enc01 h 0x05 w d a b)
  | .divu h w d a b => some (enc01 h 0x06 w d a b)
  | .rem h w d a b => some (enc01 h 0x07 w d a b)
  | .remu h w d a b => some (enc01 h 0x08 w d a b)
  | .and h w d a b => some (enc01 h 0x09 w d a b)
  | .or h w d a b => some (enc01 h 0x0A w d a b)
  | .xor h w d a b => some (enc01 h 0x0B w d a b)
  | .andn h w d a b => some (enc01 h 0x0C w d a b)
  | .orn h w d a b => some (enc01 h 0x0D w d a b)
  | .shl h w d a b => some (enc01 h 0x0E w d a b)
  | .shr h w d a b => some (enc01 h 0x0F w d a b)
  | .sar h w d a b => some (enc01 h 0x10 w d a b)
  | .rol h w d a b => some (enc01 h 0x11 w d a b)
  | .ror h w d a b => some (enc01 h 0x12 w d a b)
  | .min h w d a b => some (enc01 h 0x13 w d a b)
  | .max h w d a b => some (enc01 h 0x14 w d a b)
  | .minu h w d a b => some (enc01 h 0x15 w d a b)
  | .maxu h w d a b => some (enc01 h 0x16 w d a b)
  | .clz h w d a => some (enc01u h 0x17 w d a)
  | .ctz h w d a => some (enc01u h 0x18 w d a)
  | .popc h w d a => some (enc01u h 0x19 w d a)
  | .brev h w d a => some (enc01u h 0x1A w d a)
  | .bswap h w d a => some (enc01u h 0x1B w d a)
  | .sext h d a b => some (enc01n h 0x1C d a b)
  | .zext h d a b => some (enc01n h 0x1D d a b)
  | .bfx h d a b => some (enc01n h 0x1E d a b)
  | .bfi h d a b => some (enc01n h 0x1F d a b)
  | .lea h d a b k =>
    some (mkF h 1 0x20 (Opnd.ofG d) (Opnd.ofG a) { b.opnd with mod := 0#2 ++ k } b.immv)
  | .sel h d a b c =>
    some (mkF h 1 0x21 (Opnd.ofG d) (Opnd.ofG a) (Opnd.ofG b) ((bit c.neg ++ c.p).setWidth 32))
  | .mov h d a => some (mkF h 1 0x22 (Opnd.ofG d) (Opnd.ofG a) Opnd.zero 0)
  | .movi h d imm => some (mkF h 1 0x23 (Opnd.ofG d) Opnd.zero Opnd.imm imm)
  | .movhi h d imm => some (mkF h 1 0x24 (Opnd.ofG d) Opnd.zero Opnd.imm imm)
  | .cmp h c w d a b =>
    some (mkF h 2 (c.code.setWidth 8) (Opnd.ofP d (0#3 ++ bit w)) (Opnd.ofG a) b.opnd b.immv)
  | .pand h d a b => some (enc02p h 0x10 d a b)
  | .por h d a b => some (enc02p h 0x11 d a b)
  | .pxor h d a b => some (enc02p h 0x12 d a b)
  | .pnot h d a => some (mkF h 2 0x13 (Opnd.ofP d) (Opnd.ofPSrc a) Opnd.zero 0)
  | .pmov h d (.pred a) => some (mkF h 2 0x14 (Opnd.ofP d) (Opnd.ofPSrc a) Opnd.zero 0)
  | .pmov h d (.g r n) => some (mkF h 2 0x14 (Opnd.ofP d) (Opnd.ofG r (bit n ++ 0#3)) Opnd.zero 0)
  | .pget h d => some (mkF h 2 0x15 (Opnd.ofG d) Opnd.zero Opnd.zero 0)
  | .br h off => some (mkF h 3 0 Opnd.zero Opnd.zero Opnd.zero off)
  | .brl h d off => some (mkF h 3 1 (Opnd.ofG d) Opnd.zero Opnd.zero off)
  | .jmp h a e => some (mkF h 3 2 Opnd.zero (Opnd.ofG a) Opnd.zero e)
  | .jmpl h d a e => some (mkF h 3 3 (Opnd.ofG d) (Opnd.ofG a) Opnd.zero e)
  | .ret h a => some (mkF h 3 4 Opnd.zero (Opnd.ofG a) Opnd.zero 0)
  | .loop h d off => some (mkF h 3 5 (Opnd.ofG d) Opnd.zero Opnd.zero off)
  | .brt h a b off => some (mkF h 3 6 Opnd.zero (Opnd.ofG a) (Opnd.ofG b) off)
  | .nop h => some (mkF h 3 7 Opnd.zero Opnd.zero Opnd.zero 0)
  | .ld h sz sx acq d a e => some (enc04 h 0 (0#1 ++ bit sx ++ sz.code) (Opnd.ofG d) (Opnd.ofGOrd a acq) e)
  | .st h sz rel s a e => some (enc04 h 1 (0#2 ++ sz.code) (Opnd.ofG s) (Opnd.ofGOrd a rel) e)
  | .ldp h acq d a e => some (enc04 h 2 3 (Opnd.ofG d) (Opnd.ofGOrd a acq) e)
  | .stp h rel s a e => some (enc04 h 3 3 (Opnd.ofG s) (Opnd.ofGOrd a rel) e)
  | .ldf h w d a e => some (enc04 h 4 (1#3 ++ bit w) (Opnd.ofG d) (Opnd.ofG a) e)
  | .lde h w d a e => some (enc04 h 5 (1#3 ++ bit w) (Opnd.ofG d) (Opnd.ofG a) e)
  | .stf h w s a e => some (enc04 h 6 (1#3 ++ bit w) (Opnd.ofG s) (Opnd.ofG a) e)
  | .sete h w a e => some (enc04 h 7 (1#3 ++ bit w) Opnd.zero (Opnd.ofG a) e)
  | .pref h a e => some (enc04 h 8 0 Opnd.zero (Opnd.ofG a) e)
  | .cflush h a e => some (enc04 h 9 0 Opnd.zero (Opnd.ofG a) e)
  | .cinv h i a e => some (enc04 h 10 (0#3 ++ bit i) Opnd.zero (Opnd.ofG a) e)
  | .czero h a e => some (enc04 h 11 0 Opnd.zero (Opnd.ofG a) e)
  | .aadd h m d a b e => some (enc05 h .add m d a b e)
  | .amin h m d a b e => some (enc05 h .min m d a b e)
  | .amax h m d a b e => some (enc05 h .max m d a b e)
  | .aminu h m d a b e => some (enc05 h .minu m d a b e)
  | .amaxu h m d a b e => some (enc05 h .maxu m d a b e)
  | .aand h m d a b e => some (enc05 h .and m d a b e)
  | .aor h m d a b e => some (enc05 h .or m d a b e)
  | .axor h m d a b e => some (enc05 h .xor m d a b e)
  | .aswp h m d a b e => some (enc05 h .swp m d a b e)
  | .acas h m d a b e => some (enc05 h .cas m d a b e)
  | .acas2 h m d a b e => some (enc05 h .cas2 m d a b e)
  | .afadd h m d a b e => some (enc05 h .fadd m d a b e)
  | .ainc h m d a b e => some (enc05 h .inc m d a b e)
  | .fence h sc l s g k =>
    some (mkF h 6 0 Opnd.zero (Opnd.ofGSc 0 sc) Opnd.zero ((bit k ++ bit g ++ bit s ++ bit l).setWidth 32))
  | .waita h c w acq sc d a b e =>
    some (mkF h 6 1 (Opnd.ofG d (bit acq ++ 0#2 ++ bit w)) (Opnd.ofGSc a sc) (Opnd.ofG b (0#1 ++ c.code)) e)
  | .waitn h b => some (mkF h 6 2 Opnd.zero Opnd.zero b.opnd b.immv)
  | .barset h d a s => some (mkF h 6 3 (Opnd.ofG d) (Opnd.ofG a) Opnd.zero (s.setWidth 32))
  | .bararr h d s => some (mkF h 6 4 (Opnd.ofG d) Opnd.zero Opnd.zero (s.setWidth 32))
  | .barwait h d a s => some (mkF h 6 5 (Opnd.ofG d) (Opnd.ofG a) Opnd.zero (s.setWidth 32))
  | .chk h d => some (mkF h 6 6 (Opnd.ofG d) Opnd.zero Opnd.zero 0)
  | .yield h => some (mkF h 6 7 Opnd.zero Opnd.zero Opnd.zero 0)
  | .vadd h t m sat d x y => some (encVI h 0x00 t m d x y (0#3 ++ bit sat))
  | .vsub h t m sat d x y => some (encVI h 0x01 t m d x y (0#3 ++ bit sat))
  | .vmul h t m d x y => some (encVI h 0x02 t m d x y)
  | .vmulh h t m d x y => some (encVI h 0x03 t m d x y)
  | .vmin h t m d x y => some (encVI h 0x04 t m d x y)
  | .vmax h t m d x y => some (encVI h 0x05 t m d x y)
  | .vminu h t m d x y => some (encVI h 0x06 t m d x y)
  | .vmaxu h t m d x y => some (encVI h 0x07 t m d x y)
  | .vand h t m d x y => some (encVI h 0x08 t m d x y)
  | .vor h t m d x y => some (encVI h 0x09 t m d x y)
  | .vxor h t m d x y => some (encVI h 0x0A t m d x y)
  | .vshl h t m d x y => some (encVI h 0x0B t m d x y)
  | .vshr h t m d x y => some (encVI h 0x0C t m d x y)
  | .vsar h t m d x y => some (encVI h 0x0D t m d x y)
  | .vabs h t m sat d x => some (encVI2 h 0x0E t m d x (0#3 ++ bit sat))
  | .vneg h t m sat d x => some (encVI2 h 0x0F t m d x (0#3 ++ bit sat))
  | .vcmp h c t m d x y =>
    some (mkF h 0x10 0x10 (Opnd.ofQ d t.code) (Opnd.ofVSrc x) y.opnd
      (VImm.pack { immb := y.immb, f1 := 0#1 ++ c.code, m := m }))
  | .vsel h t m d x y => some (encVI h 0x11 t m d x y)
  | .vpopc h t m d x => some (encVI2 h 0x12 t m d x)
  | .vfadd h t r m d x y => some (encVF h 0x00 t r m d x y)
  | .vfsub h t r m d x y => some (encVF h 0x01 t r m d x y)
  | .vfmul h t r m d x y => some (encVF h 0x02 t r m d x y)
  | .vfma h t r m d x y => some (encVF h 0x03 t r m d x y)
  | .vfms h t r m d x y => some (encVF h 0x04 t r m d x y)
  | .vfnma h t r m d x y => some (encVF h 0x05 t r m d x y)
  | .vfdiv h t r m d x y => some (encVF h 0x06 t r m d x y)
  | .vfsqrt h t r m d x => some (encVF2 h 0x07 t r m d x)
  | .vfrcp h t r m d x => some (encVF2 h 0x08 t r m d x)
  | .vfrsq h t r m d x => some (encVF2 h 0x09 t r m d x)
  | .vfexp2 h t r m d x => some (encVF2 h 0x0A t r m d x)
  | .vflog2 h t r m d x => some (encVF2 h 0x0B t r m d x)
  | .vfmin h t m d x y => some (encVF h 0x0C t .rne m d x y)
  | .vfmax h t m d x y => some (encVF h 0x0D t .rne m d x y)
  | .vfcmp h c t m d x y =>
    some (mkF h 0x11 0x0E (Opnd.ofQ d t.code) (Opnd.ofVSrc x) y.opnd (VImm.pack { f1 := 0#1 ++ c.code, m := m }))
  | .vfclass h t m d x => some (encVF2 h 0x0F t .rne m d x)
  | .vfcvt h t r m sat src part d x =>
    some (mkF h 0x11 (r.code ++ 0x10#5) (Opnd.ofV d t.code) (Opnd.ofVSrc x) Opnd.zero
      (VImm.pack { f2 := 0#3 ++ bit sat ++ part, f1 := src.code, m := m }))
  | .vfscl h t r m blk inv d x y =>
    some (mkF h 0x11 (r.code ++ 0x11#5) (Opnd.ofV d t.code) (Opnd.ofVSrc x) (Opnd.ofV y)
      (VImm.pack { f2 := 0#5 ++ bit inv ++ blk, m := m }))
  | .vradd h t q d x => some (encRed h 0x00 t q d x 0)
  | .vrmin h t q u d x => some (encRed h 0x01 t q d x (0#3 ++ bit u))
  | .vrmax h t q u d x => some (encRed h 0x02 t q d x (0#3 ++ bit u))
  | .vfradd h t r q d x => some (encRed h 0x03 t q d x (0#1 ++ r.code))
  | .vfrmax h t q d x => some (encRed h 0x04 t q d x 0)
  | .vperm h t m d x y => some (encVP h 0x05 t m d (Opnd.ofVSrc x) (Opnd.ofVSrc y))
  | .vslide h t m d x k => some (encVP h 0x06 t m d (Opnd.ofVSrc x) k.opnd k.immb)
  | .vbcast h t m d a => some (encVP h 0x07 t m d (Opnd.ofG a) Opnd.zero)
  | .vext h t d x k =>
    some (mkF h 0x12 0x08 (Opnd.ofG d t.code) (Opnd.ofVSrc x) k.opnd (VImm.pack { immb := k.immb }))
  | .vins h t d a k => some (encVP h 0x09 t ⟨0, false⟩ d (Opnd.ofG a) k.opnd k.immb)
  | .vcmpr h t m d x => some (encVP h 0x0A t m d (Opnd.ofVSrc x) Opnd.zero)
  | .vexpd h t m d x => some (encVP h 0x0B t m d (Opnd.ofVSrc x) Opnd.zero)
  | .vzip h t m hi d x y => some (encVP h 0x0C t m d (Opnd.ofVSrc x) (Opnd.ofVSrc y) 0 (0#3 ++ bit hi))
  | .vunzip h t m o d x y => some (encVP h 0x0D t m d (Opnd.ofVSrc x) (Opnd.ofVSrc y) 0 (0#3 ++ bit o))
  | .viota h t m d => some (encVP h 0x0E t m d Opnd.zero Opnd.zero)
  | .qand h d a b => some (mkF h 0x12 0x0F (Opnd.ofQ d) (Opnd.ofQ a) (Opnd.ofQ b) 0)
  | .qor h d a b => some (mkF h 0x12 0x10 (Opnd.ofQ d) (Opnd.ofQ a) (Opnd.ofQ b) 0)
  | .qxor h d a b => some (mkF h 0x12 0x11 (Opnd.ofQ d) (Opnd.ofQ a) (Opnd.ofQ b) 0)
  | .qnot h d a => some (mkF h 0x12 0x12 (Opnd.ofQ d) (Opnd.ofQ a) Opnd.zero 0)
  | .qcnt h t d a => some (mkF h 0x12 0x13 (Opnd.ofG d t.code) (Opnd.ofQ a) Opnd.zero 0)
  | .vld h t m d a e => some (encVM h 0 t m d (Opnd.ofG a) Opnd.imm e)
  | .vst h t q s a e => some (encVM h 1 t ⟨q, false⟩ s (Opnd.ofG a) Opnd.imm e)
  | .vlds h t m d a b e => some (encVM h 2 t m d (Opnd.ofG a) (Opnd.ofG b) e)
  | .vsts h t q s a b e => some (encVM h 3 t ⟨q, false⟩ s (Opnd.ofG a) (Opnd.ofG b) e)
  | .vgath h t m k d a x e => some (encVM h 4 t m d (Opnd.ofG a) (Opnd.ofV x) e (0#2 ++ k))
  | .vscat h t q k s a x e => some (encVM h 5 t ⟨q, false⟩ s (Opnd.ofG a) (Opnd.ofV x) e (0#2 ++ k))
  | .vldf h t m d a e => some (encVM h 6 t m d (Opnd.ofG a) Opnd.imm e)
  | .vamo h t m op o pl sc k d a x e =>
    some (encVM h 7 t m d (Opnd.ofGSc a sc) (Opnd.ofV x) e (0#2 ++ k) (pl.code ++ o.code ++ op.vcode))
  | .mma h ta tb d a b k =>
    some (mkF h 0x20 0 (Opnd.ofA d ta.code) (Opnd.ofG a) (Opnd.ofG b) ((tb.code ++ k).setWidth 32))
  | .mcnt h ta tb a b k bank =>
    some (mkF h 0x20 1 Opnd.zero (Opnd.ofG a) (Opnd.ofG b)
      ((tb.code ++ ta.code ++ 0#7 ++ bit bank ++ 0#1 ++ k).setWidth 32))
  | .mdrain h d bank => some (mkF h 0x20 2 (Opnd.ofA d) Opnd.zero Opnd.zero ((bit bank).setWidth 32))
  | .mmerge h => some (mkF h 0x20 3 Opnd.zero Opnd.zero Opnd.zero 0)
  | .mzero h d => some (mkF h 0x20 4 (Opnd.ofA d) Opnd.zero Opnd.zero 0)
  | .mld h t d a b r c =>
    some (mkF h 0x20 5 (Opnd.ofA d t.code) (Opnd.ofG a) (Opnd.ofG b) ((c ++ 0#1 ++ r).setWidth 32))
  | .mst h t md sat d a b r c =>
    some (mkF h 0x20 6 (Opnd.ofA d t.code) (Opnd.ofG a) (Opnd.ofG b)
      ((bit sat ++ md.code ++ 0#1 ++ c ++ 0#1 ++ r).setWidth 32))
  | .mscl h a b p q r s =>
    some (mkF h 0x20 7 Opnd.zero (Opnd.ofG a) (Opnd.ofG b) ((bit s ++ bit r ++ bit q ++ bit p).setWidth 32))
  | .mwait h => some (mkF h 0x20 8 Opnd.zero Opnd.zero Opnd.zero 0)
  | .mcfg h d c r => some (mkF h 0x20 9 (Opnd.ofG d) Opnd.zero Opnd.zero ((r ++ 0#3 ++ c).setWidth 32))
  | .mbcast h d a b bus mask len =>
    some (mkF h 0x20 0xA (Opnd.ofG d) (Opnd.ofG a) (Opnd.ofG b) (len ++ mask ++ 0#7 ++ bit bus))
  | .mqw h b => some (mkF h 0x20 0xB Opnd.zero Opnd.zero b.opnd b.immv)
  | .tdecl h d a b l => some (mkF h 0x21 0 (Opnd.ofG d) (Opnd.ofG a) (Opnd.ofG b) (l.setWidth 32))
  | .trel h d a => some (mkF h 0x21 1 (Opnd.ofG d) (Opnd.ofG a) Opnd.zero 0)
  | .tfwd h d a b g => some (mkF h 0x21 2 (Opnd.ofG d) (Opnd.ofG a) (Opnd.ofG b) ((bit g).setWidth 32))
  | .town h d a => some (mkF h 0x21 3 (Opnd.ofG d) (Opnd.ofG a) Opnd.zero 0)
  | .tqry h d a => some (mkF h 0x21 4 (Opnd.ofG d) (Opnd.ofG a) Opnd.zero 0)
  | .cpy h d a c => some (mkF h 0x30 0 (Opnd.ofG d) (Opnd.ofG a) Opnd.zero (c.setWidth 32))
  | .cchain h a c => some (mkF h 0x30 1 Opnd.zero (Opnd.ofG a) Opnd.zero (c.setWidth 32))
  | .ccancel h d c all => some (mkF h 0x30 2 (Opnd.ofG d) Opnd.zero Opnd.zero ((bit all ++ c).setWidth 32))
  | .cqry h d c => some (mkF h 0x30 3 (Opnd.ofG d) Opnd.zero Opnd.zero (c.setWidth 32))
  | .put h sc dk d a b len vc cen =>
    some (mkF h 0x30 4 (Opnd.ofG d) (Opnd.ofG a (bit dk ++ sc.code)) (Opnd.ofG b) ((bit cen ++ vc ++ len).setWidth 32))
  | .putv h sc dk d a b len vc cen =>
    some (mkF h 0x30 5 (Opnd.ofG d) (Opnd.ofG a (bit dk ++ sc.code)) (Opnd.ofV b)
      ((bit cen ++ vc ++ 0#12 ++ len).setWidth 32))
  | .ramo h op w o sc d a b vc =>
    some (mkF h 0x30 6 (Opnd.ofG d (1#3 ++ bit w)) (Opnd.ofGSc a sc) (Opnd.ofG b)
      ((vc ++ o.code ++ op.code).setWidth 32))
  | .send h a b m => some (mkF h 0x31 0 Opnd.zero (Opnd.ofG a) (Opnd.ofG b) m.pack)
  | .sendv h a b m => some (mkF h 0x31 1 Opnd.zero (Opnd.ofG a) (Opnd.ofV b) m.pack)
  | .pcfg h d a n => some (mkF h 0x31 2 (Opnd.ofG d) (Opnd.ofG a) Opnd.zero (n.setWidth 32))
  | .jcfg h d a n => some (mkF h 0x31 3 (Opnd.ofG d) (Opnd.ofG a) Opnd.zero (n.setWidth 32))
  | .jena h d b => some (mkF h 0x31 4 (Opnd.ofG d) Opnd.zero b.opnd b.immv)
  | .jdis h d b => some (mkF h 0x31 5 (Opnd.ofG d) Opnd.zero b.opnd b.immv)
  | .mtake h d a n s => some (mkF h 0x31 6 (Opnd.ofG d) (Opnd.ofG a) Opnd.zero ((bit s ++ n).setWidth 32))
  | .mreplay h d a => some (mkF h 0x31 7 (Opnd.ofG d) (Opnd.ofG a) Opnd.zero 0)
  | .spawn h d a b c => some (mkF h 0x32 0 (Opnd.ofG d) (Opnd.ofG a) (Opnd.ofG b) (c.setWidth 32))
  | .joinw h d n fr => some (mkF h 0x32 1 (Opnd.ofG d) Opnd.zero Opnd.zero ((bit fr ++ n).setWidth 32))
  | .carm h d a b c => some (mkF h 0x32 2 (Opnd.ofG d) (Opnd.ofG a) (Opnd.ofG b) (c.setWidth 32))
  | .cdec h d a b => some (mkF h 0x32 3 (Opnd.ofG d) (Opnd.ofG a) b.opnd b.immv)
  | .texit h => some (mkF h 0x32 4 Opnd.zero Opnd.zero Opnd.zero 0)
  | .sqcfg h b => some (mkF h 0x32 5 Opnd.zero Opnd.zero b.opnd b.immv)
  | .stlcfg h b => some (mkF h 0x32 6 Opnd.zero Opnd.zero b.opnd b.immv)
  | .trap h n => some (mkF h 0x3F 0x0 Opnd.zero Opnd.zero Opnd.zero n)
  | .rett h u => some (mkF h 0x3F 0x1 Opnd.zero Opnd.zero Opnd.zero ((bit u).setWidth 32))
  | .srd h d n => some (mkF h 0x3F 0x2 (Opnd.ofG d) Opnd.zero Opnd.zero (n.setWidth 32))
  | .swr h n b => some (mkF h 0x3F 0x3 Opnd.zero Opnd.zero (Opnd.ofG b) (n.setWidth 32))
  | .rdtime h d p => some (mkF h 0x3F 0x4 (Opnd.ofG d) Opnd.zero Opnd.zero ((bit p).setWidth 32))
  | .brk h n => some (mkF h 0x3F 0x5 Opnd.zero Opnd.zero Opnd.zero (n.setWidth 32))
  | .cxsave h d a x => some (mkF h 0x3F 0x6 (Opnd.ofG d) (Opnd.ofG a) Opnd.zero (x.setWidth 32))
  | .cxload h d a x => some (mkF h 0x3F 0x7 (Opnd.ofG d) (Opnd.ofG a) Opnd.zero (x.setWidth 32))
  | .kill h d a b => some (mkF h 0x3F 0x8 (Opnd.ofG d) (Opnd.ofG a) (Opnd.ofG b) 0)
  | .krevoke h d a b => some (mkF h 0x3F 0x9 (Opnd.ofG d) (Opnd.ofG a) (Opnd.ofG b) 0)
  | .enrg h d => some (mkF h 0x3F 0xA (Opnd.ofG d) Opnd.zero Opnd.zero 0)
  | .halt h => some (mkF h 0x3F 0xB Opnd.zero Opnd.zero Opnd.zero 0)
  | .seqrd h d a p => some (mkF h 0x3F 0xC (Opnd.ofG d) (Opnd.ofG a) Opnd.zero (p.setWidth 32))
  | .ill h => some (mkF h 0x3F 0xD Opnd.zero Opnd.zero Opnd.zero 0)
  | _ => none

/-- The 96-bit word of an instruction; none unless it is well-formed (R176). -/
def encode (i : Instr) : Option InstrWord :=
  if i.wf then i.fields.map Fields.pack else none

/-- Instruction bits [95:32], which ILLOP and PRIV record in TVAL (Table 18-3). -/
def Instr.tvalBits (i : Instr) : Word :=
  match i.fields with
  | some f => f.pack.extractLsb' 32 64
  | none => 0

/-- The instruction whose table bits are w, w numbered from the first word, bits above nbits 0. -/
def decodeTableWord (nbits w : Nat) : Option Instr := decode (BitVec.ofNat 96 (w % 2 ^ nbits))

end Sys2Proof
end

