-- ==== Sys2Proof/Machine/Ops.lean ====
section
/-! DEFINITION. Named operations over the state: numbering, lookups, registers, error records, taking a trap and
returning from it, and the end of a task. -/

namespace Sys2Proof.Machine

abbrev Out := Host.Outcome State Fault Refusal

/-! ## Numbering (R10) -/

def numCtxs : Nat := 81920
/-- Core key of a context key. -/
def coreOf (c : Nat) : Nat := c / 16
/-- Context number of a context key (CXST.CTX). -/
def ctxNum (c : Nat) : Nat := c % 16
def fieldOf (k : Nat) : Nat := k / 320
def coreNum (k : Nat) : Nat := k % 320
/-- Cluster key of a core key. -/
def clusterOf (k : Nat) : Nat := (k / 320) * 40 + (k % 320) / 8
/-- Number of a core in its cluster. -/
def coreInCl (k : Nat) : Nat := k % 8
/-- First core key of a cluster key. -/
def clusterCore (cl : Nat) : Nat := (cl / 40) * 320 + (cl % 40) * 8
def fieldOfCl (cl : Nat) : Nat := cl / 40
/-- Core keys of a cluster. -/
def coresOf (cl : Nat) : List Nat := (List.range 8).map (clusterCore cl + ·)
/-- Locator of a core, module number 0 (R11). -/
def locator (k : Nat) : BitVec 32 := BitVec.ofNat 32 (fieldOf k * 512 + coreNum k)
/-- The supervisor core of a field (R12). -/
def supervisor (f : Nat) : Nat := f * 320

/-! ## Lookups: what is not listed is as reset leaves it -/

def State.ctx (s : State) (c : Nat) : Ctx := SMap.get s.ctxs c {}
def State.core (s : State) (k : Nat) : Core := SMap.get s.cores k {}
def State.cluster (s : State) (cl : Nat) : Cluster := SMap.get s.clusters cl {}
def State.field (s : State) (f : Nat) : Field := SMap.get s.fields f {}
def State.setCtx (s : State) (c : Nat) (x : Ctx) : State := { s with ctxs := SMap.put s.ctxs c x }
def State.setCore (s : State) (k : Nat) (x : Core) : State := { s with cores := SMap.put s.cores k x }
def State.setCluster (s : State) (cl : Nat) (x : Cluster) : State := { s with clusters := SMap.put s.clusters cl x }
def State.setField (s : State) (f : Nat) (x : Field) : State := { s with fields := SMap.put s.fields f x }
def State.modCtx (s : State) (c : Nat) (h : Ctx → Ctx) : State := s.setCtx c (h (s.ctx c))
def State.modCore (s : State) (k : Nat) (h : Core → Core) : State := s.setCore k (h (s.core k))
def State.modCluster (s : State) (cl : Nat) (h : Cluster → Cluster) : State := s.setCluster cl (h (s.cluster cl))
def State.modField (s : State) (f : Nat) (h : Field → Field) : State := s.setField f (h (s.field f))

/-- The context that issues, its core, cluster and field. -/
def State.me (s : State) : Ctx := s.ctx s.cur
def State.myCore (s : State) : Nat := coreOf s.cur
def State.myCl (s : State) : Nat := clusterOf (coreOf s.cur)
def State.myField (s : State) : Nat := fieldOf (coreOf s.cur)
def State.setMe (s : State) (x : Ctx) : State := s.setCtx s.cur x

/-- A number not used before. -/
def State.bump (s : State) : State := { s with fresh := s.fresh + 1 }

/-- pts of a core (R121). -/
def State.pts (s : State) (k : Nat) : Nat := s.clk - (s.field (fieldOf k)).clk0 + (s.core k).ptsOff
/-- pts only jumps forwards. -/
def State.raisePts (s : State) (k p : Nat) : State :=
  if s.pts k < p then s.modCore k fun c => { c with ptsOff := p - (s.clk - (s.field (fieldOf k)).clk0) } else s

/-! ## Registers (R161): g0 reads 0, p0 reads 1, q0 reads all ones, and writes to them are discarded -/

def Ctx.rg (c : Ctx) (r : GReg) : Word := if r = 0 then 0 else c.g[r.toNat]
def Ctx.rp (c : Ctx) (r : PReg) : Bool := if r = 0 then true else c.p[r.toNat]
def Ctx.rv (c : Ctx) (r : VReg) : VWord := c.v[r.toNat]
def Ctx.rq (c : Ctx) (r : QReg) : QWord := if r = 0 then BitVec.allOnes 128 else c.q[r.toNat]
def Ctx.wg (c : Ctx) (r : GReg) (x : Word) : Ctx := if r = 0 then c else { c with g := c.g.set r.toNat x }
def Ctx.wp (c : Ctx) (r : PReg) (x : Bool) : Ctx := if r = 0 then c else { c with p := c.p.set r.toNat x }
def Ctx.wv (c : Ctx) (r : VReg) (x : VWord) : Ctx := { c with v := c.v.set r.toNat x }
def Ctx.wq (c : Ctx) (r : QReg) (x : QWord) : Ctx := if r = 0 then c else { c with q := c.q.set r.toNat x }

/-- The next instruction in sequence (R167). -/
def Ctx.advance (c : Ctx) : Ctx := { c with pc := c.pc + 12 }

/-- The guard of R170. -/
def Hdr.holds (h : Hdr) (c : Ctx) : Bool := c.rp h.p != h.neg

def Ctx.extn (c : Ctx) : Bool := c.fstat.getLsbD 8
def Ctx.strict (c : Ctx) : Bool := c.fstat.getLsbD 9
def Ctx.asid (c : Ctx) : BitVec 16 := c.asidr.setWidth 16
/-- Sets sticky flags IV, DZ, OF, UF, NX (Table 03-6). -/
def Ctx.orFlags (c : Ctx) (x : BitVec 5) : Ctx := { c with fstat := c.fstat ||| x.setWidth 64 }
/-- Sets FSTAT.SCOPEW (R261). -/
def Ctx.setScopeW (c : Ctx) : Ctx := { c with fstat := c.fstat ||| 0x400#64 }

/-! ## System register values -/

/-- Reset values that are not 0 (Tables 02-9, 04-5, 05-2, 06-2, 11-4, 15-2, 16-2). -/
def resetReg (num : Nat) : Word :=
  match num % 0x1000 with
  | 0x942 => 24
  | 0x963 => 40
  | 0x981 => 9
  | 0x9A4 => 0x100100
  | 0x080 => 1
  | 0xA04 => 100
  | 0x043 => 0xC800640000
  | 0x044 => 0xFFFFFFFFFFFFFF
  | 0x045 => 0x6E00000000000000
  | 0x046 => 32
  | 0x04B => 0xA00000000
  | 0x04C => 0xA00000804
  | _ => 0

def Field.reg (f : Field) (num : Nat) : Word := SMap.get f.sys num (resetReg num)
def Core.reg (c : Core) (num : Nat) : Word := SMap.get c.sys num (resetReg num)
def Field.setReg (f : Field) (num : Nat) (v : Word) : Field := { f with sys := SMap.put f.sys num v }
def Core.setReg (c : Core) (num : Nat) (v : Word) : Core := { c with sys := SMap.put c.sys num v }
/-- A register of a bank: entry i of the registers behind a selector. -/
def bankReg (num i : Nat) : Nat := num + 0x1000 * (i + 1)
/-- Field shared memory in bytes (R101). -/
def State.shmSize (s : State) (f : Nat) : Nat := bits ((s.field f).reg 0x980) 0 4 * 0x400000

/-- The partition that holds a field. -/
def State.partOf (s : State) (f : Nat) : Option Nat :=
  (List.find? (fun (p : Nat × Part) => inList f p.2.fields) s.parts).map (·.1)

/-- The accounting unit of a partition in the window that holds a time: at the start of a window USED and COMMIT are 0, and
one that ended overspent has counted (R398, R399). -/
def Part.roll (p : Part) (ns : Nat) : Part :=
  let w := ns / 1000000
  if p.window < w then
    { p with used := 0, commit := 0, window := w, eovr := if 1000 * p.allow < p.used then p.eovr + 1 else p.eovr }
  else p

/-- The accounting unit of a partition now. -/
def State.partNow (s : State) (n : Nat) : Option Part := (SMap.find? s.parts n).map fun p => p.roll s.ns

/-- The field that carries host port h (R13). -/
def portField (h : Nat) : Nat := h + 8 * (h % 2)
/-- The field of a host function, numbered 16 × host port + function number: function n of a port is the field of the
nth-lowest number of the port's partition (R310). -/
def State.hostFun (s : State) (fn : Nat) : Option Nat :=
  if fn < 128 then
    (s.partOf (portField (fn / 16))).bind fun p => (SMap.find? s.parts p).bind fun x => x.fields[fn % 16]?
  else none
/-- Module number (R307). -/
def State.modId (s : State) : Nat := bits ((s.field 0).reg 0xA00) 0 16
/-- The field a locator names, if it names a core of this module (R11, R307). -/
def State.locCore (s : State) (l : BitVec 32) : Option Nat :=
  let m := (l.extractLsb' 16 16).toNat
  let core := (l.extractLsb' 0 9).toNat
  if (m = 0 ∨ m = s.modId) ∧ l.extractLsb' 13 3 = 0 ∧ core < 320 then
    some ((l.extractLsb' 9 4).toNat * 320 + core)
  else none

/-! ## Error records (R397) -/

/-- Classes of Table 19-2. -/
inductive ErrCls where
  | ce | ue | integ | link | ptec | nomap | syn | hostbi | optmis | rate | msglost | trap | dbltrap | orphan | wear
  | core | hostref | launch
  deriving DecidableEq, Repr

def ErrCls.code : ErrCls → BitVec 8
  | .ce => 1 | .ue => 2 | .integ => 3 | .link => 4 | .ptec => 5 | .nomap => 6 | .syn => 7 | .hostbi => 8
  | .optmis => 9 | .rate => 10 | .msglost => 11 | .trap => 12 | .dbltrap => 13 | .orphan => 14 | .wear => 15
  | .core => 16 | .hostref => 17 | .launch => 18

/-- Location and detail of an event to be logged. -/
structure ErrAt where
  syn : BitVec 8 := 0
  kind : BitVec 8 := 2
  loc : BitVec 32 := 0
  addr : Word := 0
  asid : BitVec 16 := 0
  key : BitVec 8 := 0
  detail : Word := 0
  deriving DecidableEq, Repr

/-- Same class, location and syndrome, logged less than 1 ms ago. -/
def ErrRec.same (r x : ErrRec) (now : Nat) : Bool :=
  r.cls == x.cls && r.field == x.field && r.syn == x.syn && r.kind == x.kind && r.loc == x.loc && r.addr == x.addr && r.asid == x.asid
    && decide (now < r.first + 1000000)

/-- Counts an event into a recent record of the same kind and place, if there is one. -/
def coalesce (now : Nat) (x : ErrRec) : List ErrRec → Option (List ErrRec)
  | [] => none
  | r :: t =>
    if r.same x now then some ({ r with count := r.count + 1, last := now } :: t)
    else (coalesce now x t).map (r :: ·)

/-- The accumulator that a queued instruction uses. -/
def MqEnt.acc? (e : MqEnt) : Option Nat :=
  match e.ins with
  | .mma _ _ _ d .. | .mdrain _ d _ | .mzero _ d | .mld _ _ d .. | .mst _ _ _ _ d .. => some d.toNat
  | _ => none

/-- Logs an error event in a field: newest record first, the last 256 kept; every record is delivered to Slagan. -/
def State.logErr (s : State) (f : Nat) (cls : ErrCls) (a : ErrAt) : State :=
  let x : ErrRec :=
    { cls := cls.code, syn := a.syn, kind := a.kind, field := f, loc := a.loc, addr := a.addr, asid := a.asid
      key := a.key, part := s.partOf f, count := 1, first := s.ns, last := s.ns, detail := a.detail }
  { s with slog := (coalesce s.ns x s.slog).getD (x :: s.slog) }.modField f fun fd =>
    match coalesce s.ns x fd.log with
    | some l => { fd with log := l }
    | none => { fd with log := (x :: fd.log).take 256, logCount := fd.logCount + 1 }

/-! ## End of a task -/

/-- What a task holds of its core returns: accumulators, barrier slots, inbox slots (R233, R284, R345). -/
def Core.releaseTask (c : Core) (x : Nat) (tid : Nat) : Core :=
  { c with
    accHolder := c.accHolder.map fun h => if h = some x then none else h
    bars := c.bars.map fun b =>
      if b.desc.isSome && b.setter == tid then
        { b with desc := none, arrived := false, judge := (b.arrivals.head?).map (·.2) } else b
    slots := c.slots.filter fun u => u.2 != SlotUse.owned tid
    mq := c.mq.filter fun e => e.tid != tid
    joins := c.joins.filter fun j => j.1 % 16 != x }

/-- A context no longer waits for a word of a core memory of its cluster (R140). -/
def State.dropWaits (s : State) (c : Nat) : State :=
  (coresOf (clusterOf (coreOf c))).foldl (fun s k =>
    if (s.core k).fe.any fun w => w.1 == c then s.modCore k fun co => { co with fe := co.fe.filter fun w => w.1 != c }
    else s) s

/-- The counter banks a task holds are released (R233). -/
def Cluster.releaseTask (c : Cluster) (tid : Nat) : Cluster :=
  if (c.bankHolder.map (·.2)) = some tid then { c with bankHolder := none } else c

/-- Status codes of members (Table 16-5). -/
inductive MemSt where
  | done | failedUe | ctxLost | killed | stopped | failedTrap
  deriving DecidableEq, Repr

def MemSt.code : MemSt → Nat
  | .done => 0 | .failedUe => 1 | .ctxLost => 2 | .killed => 3 | .stopped => 4 | .failedTrap => 5

/-- A launch counts a group that has ended (R328): DONE, or not, or placed again under RESTART.
DEDUCED: log entry 98. -/
def Launch.groupEnd (l : Launch) (g : Group) (ns : Nat) : Launch :=
  let l := { l with tLast := ns, tFirst := some (l.tFirst.getD g.startNs) }
  match g.fail with
  | none => { l with done := l.done + 1 }
  | some (st, rank, loc) =>
    if l.flags.getLsbD 0 && st == 1 then { l with restarts := l.restarts + 1, todo := g.index :: l.todo }
    else
      { l with
        bad := l.bad + 1
        fails := if l.fails.length < 4 then
            l.fails ++ [{ group := g.index, status := st, rank := rank, loc := loc
                          members := g.status.map fun x => x.getD 0 }]
          else l.fails }

/-- A group whose members have all ended leaves the groups and is counted by its launch (R331).
DEDUCED: log entry 98. -/
def State.groupCheck (s : State) (gid : Nat) : State :=
  match SMap.find? s.groups gid with
  | none => s
  | some g =>
    if g.status.all Option.isSome then
      match SMap.find? s.launches g.lid with
      | none => { s with groups := SMap.del s.groups gid }
      | some l =>
        { s with groups := SMap.del s.groups gid, launches := SMap.put s.launches g.lid (l.groupEnd g s.ns) }
    else s

/-- Records a member's status; the first failure is the group's (R386). -/
def State.markMember (s : State) (m : Member) (st : MemSt) (loc : BitVec 32) : State :=
  match SMap.find? s.groups m.gid with
  | none => s
  | some g =>
    let g := { g with status := g.status.set m.rank (some st.code) }
    let g := if st != .done && st != .stopped && g.fail.isNone then { g with fail := some (st.code, m.rank, loc) } else g
    { s with groups := SMap.put s.groups m.gid g }.groupCheck m.gid

/-- Every other member of a group is stopped: PREQ is raised and it is discarded at its yield (R386).
DEDUCED: log entry 45. -/
def State.stopGroup (s : State) (gid : Nat) : State :=
  let hit : Task → Bool := fun t => (t.member.map (·.gid)) == some gid
  let mark : Saved → Saved := fun v => if hit v.task then { v with task := { v.task with stop := true } } else v
  { s with
    ctxs := s.ctxs.map fun x =>
      if hit x.2.task && x.2.st != .free then
        (x.1, { x.2 with preq := true, preqClk := (if x.2.preq then x.2.preqClk else s.clk),
                         task := { x.2.task with stop := true } }) else x
    cores := s.cores.map fun x => (x.1, { x.2 with saved := x.2.saved.map mark }) }

/-- A handler ends by a trap that nothing reflects: the group of the member that configured its pattern or port has failed, so
that its launch completes FAILED (R426). DEDUCED: log entry 130. -/
def State.failOwner (s : State) (m : Member) (loc : BitVec 32) : State :=
  match SMap.find? s.groups m.gid with
  | none => s
  | some g =>
    ({ s with groups := SMap.put s.groups m.gid
                { g with fail := some (g.fail.getD (MemSt.failedTrap.code, m.rank, loc)) } } : State).stopGroup m.gid

/-- The context is free; its registers read as last written (R161). -/
def Ctx.freed (c : Ctx) : Ctx :=
  { c with st := .free, task := {}, preq := false, lvl := false, tsave := 0, windows := [], pend := [], sent := none
           parts := [], yieldDue := false, cancelled := none, preqFor := none, rim := [], ppov := none, seen := 0
           saving := none, vec := false }

/-- A context holds no task that has started. -/
def Ctx.vacant (c : Ctx) : Bool :=
  match c.st with
  | .free | .held _ => true
  | _ => false

/-- Ends the task of a context with a member status. In contexts 14 and 15 the activation ends and the context sleeps
until its next wake (R373, R377). DEDUCED: log entry 45. -/
def State.endTask (s : State) (c : Nat) (st : MemSt) : State :=
  let x := s.ctx c
  let k := coreOf c
  let s := s.modCore k fun co => co.releaseTask (ctxNum c) x.task.tid
  let s := (s.modCluster (clusterOf k) fun cl => cl.releaseTask x.task.tid).dropWaits c
  if 14 ≤ ctxNum c then
    s.setCtx c { x with
      st := if ctxNum c = 14 then .free else .asleep, tsave := 0, windows := [], pend := [], sent := none, parts := [], rim := [], ppov := none, seen := 0
      saving := none, vec := false }
  else
    let s := s.setCtx c x.freed
    match x.task.member with
    | none => match x.task.owner with
      | some m => if st = .failedTrap then s.failOwner m (locator k) else s
      | none => s
    | some m =>
      let s := s.markMember m st (locator k)
      if st = .failedUe ∨ st = .ctxLost ∨ st = .killed then s.stopGroup m.gid else s

/-! ## Traps (R375 to R379) -/

/-- Trap codes of Table 18-3. -/
inductive Cause where
  | illop | priv | align | bounds | perm | nomap | fmtwr | fmtmis | sendqf | portov | cntov | late | keyrev | ue | brk
  | swtrap | laviol | ctxlost | badloc
  deriving DecidableEq, Repr

def Cause.code : Cause → BitVec 8
  | .illop => 0x01 | .priv => 0x02 | .align => 0x03 | .bounds => 0x04 | .perm => 0x05 | .nomap => 0x06
  | .fmtwr => 0x07 | .fmtmis => 0x08 | .sendqf => 0x09 | .portov => 0x0A | .cntov => 0x0B | .late => 0x0C
  | .keyrev => 0x0D | .ue => 0x0E | .brk => 0x0F | .swtrap => 0x10 | .laviol => 0x11 | .ctxlost => 0x12
  | .badloc => 0x13

/-- A trap to be taken: cause, value, and for LATE the underlying code, sequence number and MORE. skip: the return
pc is that of the next instruction (TRAP). -/
structure Trap where
  cause : Cause
  tval : Word := 0
  sub : BitVec 8 := 0
  seq : BitVec 16 := 0
  more : Bool := false
  skip : Bool := false
  deriving DecidableEq, Repr

/-- TCAUSE of a trap (Table 18-2). -/
def Trap.tcause (t : Trap) : Word := bit t.more ++ 0#23 ++ t.seq ++ 0#8 ++ t.sub ++ t.cause.code

/-- Bits [56:2] of an address. -/
def pcField (w : Word) : Word := w &&& 0x01FFFFFFFFFFFFFC#64

/-- RW bits of UTVEC and FTVEC, of TCAUSE, and of FSTAT (Tables 18-2 and 03-6). -/
def vecMask : Word := 0x01FFFFFFFFFFFFFD#64
def causeMask : Word := 0x800000FFFF00FFFF#64
def fstatMask : Word := 0x71F#64

/-- TSAVE.NEST. -/
def Ctx.nest (c : Ctx) : Bool := c.tsave.getLsbD 1

/-- The context after a trap is entered (R376). A PORTOV clears SQD.PPOV (R361). -/
def Ctx.enter (c : Ctx) (t : Trap) : Ctx :=
  { c with
    tcause := t.tcause
    tpc := pcField (if t.skip then c.pc + 12 else c.pc)
    tval := t.tval
    tsave := (bit true ++ bit c.lvl).setWidth 64
    lvl := true
    pc := pcField c.ftvec
    windows := []
    rim := []
    sent := none
    parts := []
    vec := false
    ppov := if t.cause = .portov then none else c.ppov
    st := .ready }

/-- Takes a trap in a context: entry at field level; the end of the task where FTVEC.EN is 0 (R376); a double trap
(R377). -/
def State.takeTrap (s : State) (c : Nat) (t : Trap) : State :=
  let x := s.ctx c
  let a : ErrAt := { loc := locator (coreOf c) }
  if x.nest then (s.logErr (fieldOf (coreOf c)) .dbltrap a).endTask c .failedTrap
  else if x.ftvec.getLsbD 0 = false then (s.logErr (fieldOf (coreOf c)) .trap a).endTask c .failedTrap
  else (s.setCtx c (x.enter t)).dropWaits c

/-- The context after RETT at field level with U = 0 (R390). -/
def Ctx.rett (c : Ctx) : Ctx := { c with pc := c.tpc, lvl := c.tsave.getLsbD 0, tsave := c.tsave &&& ~~~2#64, windows := [] }

/-- The context after RETT.U at field level (R390). -/
def Ctx.rettU (c : Ctx) : Ctx :=
  { c with utcause := c.tcause, utpc := c.tpc, utval := c.tval, tsave := c.tsave &&& ~~~2#64, lvl := false
           pc := pcField c.utvec, windows := [] }

/-- The late faults of a context not yet taken, oldest first (R379). -/
def Ctx.lates (c : Ctx) : List SeqEntry := c.ring.filter fun e => e.untaken

/-- The LATE trap that the oldest of them raises. -/
def lateTrap (e : SeqEntry) (more : Bool) : Trap :=
  { cause := .late, tval := e.addr, sub := e.code, seq := e.seq, more := more }

/-- A fault is taken once; its entry stays FAULTED (R379). -/
def Ctx.markTaken (c : Ctx) (q : BitVec 16) : Ctx :=
  { c with ring := c.ring.map fun e => if e.seq = q then { e with untaken := false } else e }

/-- The late faults that a context can take now: with TSAVE.NEST = 1 they wait for RETT (R379). -/
def Ctx.lateDue (c : Ctx) : List SeqEntry := if c.nest then [] else c.lates

/-- Takes the oldest recorded late fault of a context, if there is one (R379). DEDUCED: log entry 46. -/
def State.takeLate (s : State) (c : Nat) : State :=
  match (s.ctx c).lateDue with
  | [] => s
  | e :: t => (s.modCtx c fun x => x.markTaken e.seq).takeTrap c (lateTrap e (!t.isEmpty))

/-! ## Meanings -/

/-- How a meaning stops: a precise trap, a wait (the instruction is issued again), the taking of a late fault, or the
failure of an engine's access with a code of Table 07-5 and an address. -/
inductive Stop where
  | trap (t : Trap)
  | wait (w : WaitFor)
  | late
  | fail (code : BitVec 8) (addr : Nat)
  deriving DecidableEq, Repr

/-- State with early stops: a trap discards what the meaning has done, a wait keeps it. -/
abbrev M := EStateM Stop State

def trapIf (b : Bool) (t : Trap) : M Unit := if b then throw (.trap t) else pure ()
def waitIf (b : Bool) (w : WaitFor) : M Unit := if b then throw (.wait w) else pure ()
def mod (h : State → State) : M Unit := modify h
def me : M Ctx := do return (← get).me
def modMe (h : Ctx → Ctx) : M Unit := modify fun s => s.setMe (h s.me)
/-- An operand-value check that raises ILLOP with the instruction's bits [95:32] (R176, Table 18-3). -/
def illopIf (i : Instr) (b : Bool) : M Unit := trapIf b { cause := .illop, tval := i.tvalBits }
/-- A late fault recorded is taken first (R379). DEDUCED: log entry 46. -/
def lateFirst : M Unit := do if (← get).me.lateDue.isEmpty then pure () else throw .late
/-- A fresh number. -/
def freshId : M Nat := do
  let s ← get
  set s.bump
  return s.fresh

/-- Where pc goes after an instruction. -/
inductive Flow where
  | next
  | goto (pc : Word)
  | stay
  deriving DecidableEq, Repr

def Flow.pc (f : Flow) (c : Ctx) : Ctx :=
  match f with
  | .next => c.advance
  | .goto p => { c with pc := p }
  | .stay => c

/-- The state that an action leaves, as far as it has come. -/
def State.after {α : Type} (s : State) (m : M α) : State :=
  match m s with
  | .ok _ s => s
  | .error _ s => s

/-- An event: what it does, or as far as it has come when it must wait. -/
def runEvent (m : M Unit) (s : State) : Out :=
  match m s with
  | .ok _ s => .next s
  | .error _ s => .next s

end Sys2Proof.Machine
end

