-- ==== Sys2Proof/Machine/Mem.lean ====
section
/-! DEFINITION. Address windows, the PLB, access checks, and the coherence transitions of the home slices and the
cluster L2s (R76, R84, R105, R106, R112, R113, R125, R130, R133, R134). -/

namespace Sys2Proof.Machine

/-! ## Windows (R76, R133, R316) -/

/-- Where an address lies. -/
inductive Space where
  | paged
  | core (k off : Nat)
  | shared (off : Nat)
  | peer (slot off : Nat)
  | hole
  deriving DecidableEq, Repr

def cmemSize : Nat := 0x30000
def localBase : Nat := 0x0100000000000000
def clusterBase : Nat := 0x0100000001000000
def sharedBase : Nat := 0x0100000100000000
def peerBase : Nat := 0x0180000000000000

/-- Table 06-3, for an address below 2^57, seen from a core. -/
def State.space (s : State) (k va : Nat) : Space :=
  if va < localBase then .paged
  else if peerBase ≤ va then .peer ((va - peerBase) / 2 ^ 45) ((va - peerBase) % 2 ^ 45)
  else if sharedBase ≤ va then
    if va - sharedBase < s.shmSize (fieldOf k) then .shared (va - sharedBase) else .hole
  else if clusterBase ≤ va then
    let o := va - clusterBase
    if o < 8 * 0x40000 ∧ o % 0x40000 < cmemSize then .core (clusterCore (clusterOf k) + o / 0x40000) (o % 0x40000)
    else .hole
  else if va - localBase < cmemSize then .core k (va - localBase)
  else .hole

/-- Import slot registers of a field (R316). -/
def State.pimCtl (s : State) (f slot : Nat) : Word := (s.field f).reg (bankReg 0xA0E slot)
def State.pimSrc (s : State) (f slot : Nat) : Word := SMap.get (s.field f).impSrc slot ((s.field f).reg (bankReg 0xA0D slot))
def pimSize (ctl : Word) : Nat := bits ctl 0 21 * 0x10000
def pimKind (ctl : Word) : Nat := bits ctl 56 2

/-- Every byte of [va, va + n) in one extent (R134); for a peer slot the bound is that of R317. -/
def State.contained (s : State) (k va n : Nat) : Bool :=
  match s.space k va with
  | .paged => decide (va + n ≤ localBase)
  | .core _ o => decide (o + n ≤ cmemSize)
  | .shared o => decide (o + n ≤ s.shmSize (fieldOf k))
  | .peer i o =>
    let ctl := s.pimCtl (fieldOf k) i
    decide (i < 1024) && ctl.getLsbD 63 && decide (o + n ≤ pimSize ctl)
  | .hole => false

/-! ## Line keys: ASID and VA[56:6] -/

def lineKey (asid : BitVec 16) (va : Nat) : Nat := asid.toNat * 2 ^ 51 + (va / 64) % 2 ^ 51
def keyVa (l : Nat) : Nat := (l % 2 ^ 51) * 64
def keyAsid (l : Nat) : BitVec 16 := BitVec.ofNat 16 (l / 2 ^ 51)

/-- The home slice of R98. -/
def sliceOf (l : Nat) : Nat :=
  let x : BitVec 34 := BitVec.ofNat 34 l
  let a := keyAsid l
  let h := x.extractLsb' 0 5 ^^^ x.extractLsb' 5 5 ^^^ x.extractLsb' 10 5 ^^^ x.extractLsb' 15 5 ^^^ x.extractLsb' 20 5
    ^^^ x.extractLsb' 25 5 ^^^ (x.extractLsb' 30 4).setWidth 5
  (h ^^^ a.extractLsb' 0 5 ^^^ a.extractLsb' 5 5 ^^^ a.extractLsb' 10 5 ^^^ (a.extractLsb' 15 1).setWidth 5).toNat

/-- The sets of a line: 128 of an L1I, 256 of an L1D, 2,048 of a cluster L2, 2,048 of a slice's data array and 4,096 of its
directory (R100, R119, R120, R127); which one is open. DESIGN CHOICE: log entry 117. -/
def l1iSet (l : Nat) : Nat := Config.l1iSet l % 128
def l1dSet (l : Nat) : Nat := Config.l1dSet l % 256
def l2Set (l : Nat) : Nat := Config.l2Set l % 2048
def homeSet (l : Nat) : Nat := Config.homeSet l % 2048
def dirSet (l : Nat) : Nat := Config.dirSet l % 4096

/-! ## The PLB (R84) -/

/-- 64 KiB pages in a page of a size (R79, R82). -/
def PageSize.pages : PageSize → Nat
  | .k64 => 1 | .m2 => 32 | .m64 => 1024 | .g32 => 524288

def PlbEnt.covers (e : PlbEnt) (vp : Nat) (asid : BitVec 16) : Bool :=
  decide (e.vpage ≤ vp) && decide (vp < e.vpage + e.size.pages) && (e.g || e.asid == asid)

/-- Who makes an access: core, ASID, level, and the context that waits for it. -/
structure Acc where
  core : Nat
  asid : BitVec 16
  lvl : Bool
  cx : Option Nat := none
  deriving DecidableEq, Repr

/-- Kinds of access (Table 04-3). -/
inductive AccKind where
  | load | store | atomic | fetch | flush
  deriving DecidableEq, Repr

def AccKind.writes : AccKind → Bool
  | .store | .atomic => true
  | _ => false

/-- Table 04-3. -/
def PlbEnt.permits (e : PlbEnt) (k : AccKind) (lvl : Bool) : Bool :=
  (lvl || e.tk) &&
  match k with
  | .load | .flush => e.rd
  | .store => e.wr
  | .atomic => e.rd && e.wr
  | .fetch => e.ex

/-- An entry that translates an access. A context whose ASID is 0xFFFF has none (R99). -/
def State.plbFind (s : State) (a : Acc) (va : Nat) : Option PlbEnt :=
  if a.asid = 0xFFFF then none else (s.core a.core).plb.find? fun e => e.covers (va / 0x10000) a.asid

/-- What the checks of R267 answer: a cause, a PLB fill that is needed first, or the place and the ASID carried. -/
inductive Chk where
  | bad (c : Cause)
  | miss (store : Bool)
  | ok (sp : Space) (asid : BitVec 16)
  deriving DecidableEq, Repr

/-- The PLB and frame-class checks of a paged access (R83, R84, R40). -/
def State.checkPaged (s : State) (a : Acc) (va : Nat) (k : AccKind) : Chk :=
  match s.plbFind a va with
  | none => .miss k.writes
  | some e =>
    if !e.permits k a.lvl then .bad .perm
    else if e.cls == .decoded && k.writes then .bad .fmtwr
    else if e.cls == .raw && k != .flush then .bad .perm
    else if e.clean && k.writes then .miss true
    else .ok .paged (if e.g then 0xFFFF else a.asid)

/-- The scheduler area of R335. -/
def schedBase : Nat := 0x2C000

/-- A write into the scheduler area by a task-level access (R335). own: of a store, the context whose shape slot it may write. -/
def schedBad (lvl : Bool) (own : Option Nat) (off n : Nat) : Bool :=
  !lvl && decide (schedBase < off + n) &&
  match own with
  | some x => !(decide (0x2F000 + 0x80 * x ≤ off) && decide (off + n ≤ 0x2F080 + 0x80 * x))
  | none => true

/-- The checks of R267 in their order. modOk: the form may go to an import of another module or of the host. -/
def State.check (s : State) (a : Acc) (va n align : Nat) (k : AccKind) : Chk :=
  if 2 ^ 57 ≤ va then .bad .bounds
  else if va % align ≠ 0 then .bad .align
  else if !s.contained a.core va n then .bad .bounds
  else
    match s.space a.core va with
    | .paged => s.checkPaged a va k
    | .peer i o =>
      let ctl := s.pimCtl (fieldOf a.core) i
      let okRd := ctl.getLsbD 55
      let okWr := ctl.getLsbD 54
      if (if k.writes then okWr else okRd) = false then .bad .perm
      else if pimKind ctl = 1 then .bad .perm
      else if pimKind ctl = 2 && k == .atomic then .bad .perm
      else .ok (.peer i o) a.asid
    | .core c o =>
      if k.writes && schedBad a.lvl ((a.cx.filter fun x => coreOf x == c && k == .store).map ctxNum) o n then .bad .perm
      else .ok (.core c o) a.asid
    | sp => .ok sp a.asid

/-! ## Requests and wakes -/

/-- A context that waits becomes ready, to issue its instruction again. -/
def Ctx.wake (c : Ctx) : Ctx :=
  match c.st with
  | .waiting _ => { c with st := .ready }
  | _ => c

def State.wake (s : State) (c : Nat) : State := s.modCtx c Ctx.wake

/-- Every context of a cluster that waits for memory is made ready. -/
def State.wakeMem (s : State) (p : Nat → Bool) : State :=
  let up : Nat × Ctx → Nat × Ctx := fun x =>
    if p x.1 && x.2.st == .waiting .memory then (x.1, { x.2 with st := .ready }) else x
  { s with ctxs := s.ctxs.map up }

/-- Every context of a cluster. -/
def inCluster (cl c : Nat) : Bool := clusterOf (coreOf c) == cl

/-- Bytes that a request of a kind concerns: its line, or its page. -/
def RKind.unit : RKind → Nat
  | .fill | .wb | .atomic => 64
  | _ => 65536

/-- The context key of field service's context 15 (R90). -/
def serviceCx (f : Nat) : Nat := supervisor f * 16 + 15

/-- An agent that works for context 15 of the supervisor core (R90). -/
def Agent.service (a : Agent) (f : Nat) : Bool :=
  match a with
  | .work _ svc => svc
  | .cx c => c == serviceCx f
  | _ => false

/-- Two requests that share one place at the rim. -/
def RReq.same (x r : RReq) : Bool :=
  x.kind == r.kind && x.va / r.kind.unit == r.va / r.kind.unit && x.asid == r.asid && x.core == r.core && x.cx == r.cx
    && x.svc == r.svc

/-- One more agent waits for a request. -/
def RReq.join (x : RReq) (a : Agent) (pref : Bool) : RReq :=
  { x with agents := if a == .none || x.agents.contains a then x.agents else x.agents ++ [a], pref := x.pref && pref }

/-- Posts a rim request for the agent of the event, or joins the same one if it is posted already (R85). -/
def State.postRim (s : State) (f : Nat) (r : RReq) : State :=
  let fd := s.field f
  let a : Agent := if r.cx.isSome then .none else s.agent
  let r := { r with svc := r.svc || r.cx == some (serviceCx f) || a.service f }
  if r.kind != .atomic && r.kind != .wb && fd.rreqs.any (fun x => x.same r) then
    s.modField f fun fd => { fd with rreqs := fd.rreqs.map fun x => if x.same r then x.join a r.pref else x }
  else (s.modField f fun fd => { fd with rreqs := fd.rreqs ++ [({ r with id := s.fresh }).join a r.pref] }).bump

/-- Posts a request at a home unless the same one waits already. -/
def State.postHome (s : State) (f : Nat) (r : HReq) : State :=
  let fd := s.field f
  let r := { r with svc := r.svc || r.cx == some (serviceCx f) }
  if fd.hreqs.any fun x => x.kind == r.kind && x.cl == r.cl && x.line == r.line && x.cx == r.cx && x.svc == r.svc then s
  else (s.modField f fun fd => { fd with hreqs := fd.hreqs ++ [{ r with id := s.fresh }] }).bump

/-- Posts a PLB fill for an access that misses (R84). -/
def State.postPlb (s : State) (a : Acc) (va : Nat) (k : RKind) : State :=
  s.postRim (fieldOf a.core) { id := 0, kind := k, va := va, asid := a.asid, core := some a.core
                               cx := a.cx }

/-! ## Lines at the home and in the L2s -/

def State.hline (s : State) (f l : Nat) : HLine := SMap.get (s.field f).home l {}
def State.setHline (s : State) (f l : Nat) (h : HLine) : State :=
  s.modField f fun fd => { fd with home := SMap.set fd.home l h {} }
def State.l2 (s : State) (cl l : Nat) : Option L2Line := SMap.find? (s.cluster cl).l2 l
def State.setL2 (s : State) (cl l : Nat) (x : L2Line) : State :=
  s.modCluster cl fun c => { c with l2 := SMap.put c.l2 l x }
def State.delL2 (s : State) (cl l : Nat) : State :=
  s.modCluster cl fun c => { c with l2 := SMap.del c.l2 l, fills := c.fills.filter fun x => x.1 != l
                                    merges := c.merges.filter fun x => x.1 != l
                                    pushes := c.pushes.filter fun x => x.1 != l }

/-- The lease break of R125: no core of the cluster keeps the line in its L1D. DEDUCED: log entry 21. -/
def State.breakLeases (s : State) (cl l : Nat) : State :=
  (coresOf cl).foldl (fun s k =>
    if (SMap.find? (s.core k).l1d l).isSome then s.modCore k fun c => { c with l1d := SMap.del c.l1d l } else s) s

/-- The writes that a mark's release follows have not all performed (R258). -/
def State.markOpen (s : State) (m : Mark) : Bool :=
  (s.core m.core).sq.any fun e => (e.tid == m.tid && decide (e.n < m.n)) || decide (e.n < m.after)

/-- A cluster can answer a recall of a line: no store holds it, and its marks are published (R122, R260).
DEDUCED: log entry 16. -/
def State.recallable (s : State) (cl l : Nat) : Bool :=
  match s.l2 cl l with
  | some x => !x.hold && !(x.marks.any fun m => s.markOpen m)
  | none => true

/-- The L2 has a way for a line that it does not hold (R127); which lines share a set is open.
DESIGN CHOICE: log entry 117. -/
def Cluster.room (c : Cluster) (l : Nat) : Bool :=
  (SMap.find? c.l2 l).isSome || !full c.l2 16 fun x => l2Set x.1 == l2Set l

/-- Merges written-back bytes into the home's copy; poison travels with them, and a write of the whole line clears it
(R29, R130). DEDUCED: log entry 37. -/
def HLine.absorb (h : HLine) (data : LineData) (be : BitVec 64) (poison : Bool) : HLine :=
  { h with data := mergeLine h.data data be, dirty := h.dirty ||| be
           poison := (h.poison && be != BitVec.allOnes 64) || poison
           present := h.present || (h.dirty ||| be) == BitVec.allOnes 64 }

/-- What the data array of a slice holds of a line (R100). -/
def HLine.cached (h : HLine) : Bool := h.present || h.dirty != 0 || h.poison

/-- The slice's data array has a way for a line that it does not hold (R100, R101); which lines share a set is open.
DESIGN CHOICE: log entry 117. -/
def Field.room (f : Field) (l : Nat) : Bool :=
  (SMap.get f.home l {}).cached ||
    !full f.home (24 - bits (f.reg 0x980) 0 4) fun x => x.2.cached && sliceOf x.1 == sliceOf l && homeSet x.1 == homeSet l

/-- A line has an entry of the line directory: clusters hold it, or a tile marks it (R100, R109). -/
def HLine.listed (h : HLine) : Bool := h.dir != .i || h.tile.isSome

/-- The line directory has an entry for a line (R100). DESIGN CHOICE: log entry 117. -/
def Field.dirRoom (f : Field) (l : Nat) : Bool :=
  (SMap.get f.home l {}).listed ||
    !full f.home 16 fun x => x.2.listed && sliceOf x.1 == sliceOf l && dirSet x.1 == dirSet l

/-- The home's data array gives a line up: dirty bytes leave for the rim, a clean copy is dropped (R33, R100).
DEDUCED: log entry 25. -/
def State.homeDrop (s : State) (f l : Nat) : State :=
  let h := s.hline f l
  let s := if h.dirty = 0 then s
    else { (({ s with agent := .none }).postRim f
        { id := 0, kind := .wb, va := keyVa l, asid := keyAsid l, core := none, cx := none, data := h.data
          be := h.dirty, poison := h.poison }) with agent := s.agent }
  s.setHline f l { h with data := 0, present := false, dirty := 0, poison := false }

/-- Written-back bytes reach the home; with no way free they go on to the rim. -/
def State.absorbAt (s : State) (f l : Nat) (data : LineData) (be : BitVec 64) (poison : Bool) : State :=
  let room := (s.field f).room l
  let s := s.setHline f l ((s.hline f l).absorb data be poison)
  if room then s else s.homeDrop f l

/-- Eviction by holder k (Table 05-4). -/
def DirSt.evicted (d : DirSt) (k : Nat) : DirSt :=
  match d with
  | .i => .i
  | .s sh => let r := sh.filter (· != k); if r.isEmpty then .i else .s r
  | .e j => if j = k then .i else d
  | .m j => if j = k then .i else d
  | .o j sh => if j = k then (if sh.isEmpty then .i else .s sh) else .o j (sh.filter (· != k))

def State.homeEvict (s : State) (f k l : Nat) (data : LineData) (be : BitVec 64) (poison : Bool) : State :=
  let s := if be = 0 then s else s.absorbAt f l data be poison
  s.setHline f l { s.hline f l with dir := (s.hline f l).dir.evicted k }

/-- What a cluster has sent to the home before its answer to a recall arrives with that answer: its evictions of the
line (R104). DEDUCED: log entry 16. -/
def State.landEvicts (s : State) (f cl l : Nat) : State :=
  let mine (r : HReq) : Bool := r.cl == cl && r.line == l && match r.kind with
    | .evict .. => true
    | _ => false
  let s := ((s.field f).hreqs.filter mine).foldl (fun s r => match r.kind with
    | .evict data be poison => s.homeEvict f cl l data be poison
    | _ => s) s
  if (s.field f).hreqs.any mine then s.modField f fun fd => { fd with hreqs := fd.hreqs.filter fun r => !mine r } else s

/-- A line leaves the L2: leases broken, marks published, valid words of a dirty line on their way to the home.
DEDUCED: log entry 22. -/
def State.evictL2 (s : State) (cl l : Nat) (x : L2Line) : State :=
  let s := x.marks.foldl (fun s m => s.raisePts m.core m.stamp) (s.breakLeases cl l)
  let be := if x.dirty = 0 then 0 else wordBe x.valid
  let s := (s.delL2 cl l).postHome (fieldOfCl cl)
    { id := 0, kind := .evict x.data be (x.dirty != 0 && (x.poison || x.pw != 0)), cl := cl, core := clusterCore cl
      cx := none, line := l }
  s.wakeMem (inCluster cl)

/-- The line of a full set that gives its place to a pushed line: none that the cluster has written (R114, R127), that a
store holds or whose marks are open. DESIGN CHOICE: log entry 117. -/
def State.pushVictim (s : State) (cl l : Nat) : Option (Nat × L2Line) :=
  let c := s.cluster cl
  let may := c.l2.filter fun x => l2Set x.1 == l2Set l && x.2.dirty == 0 && !x.2.hold && !(x.2.marks.any fun m => s.markOpen m)
    && !(c.fills.any fun y => y.1 == x.1) && !(c.pushes.any fun y => y.1 == x.1)
  may[Config.victim s.fresh % may.length]?

/-- A line on its way into an L2 is installed (R121). DEDUCED: log entry 23. -/
def State.install (s : State) (cl l : Nat) (x : L2Line) : State :=
  (s.breakLeases cl l).setL2 cl l x

/-- A pushed line arrives (R114): a clean copy that takes the place of an older one, or that of a victim of its set; with
no victim it is not installed. A copy of which the L2 is the owner is newer than the push, which is dropped.
DEDUCED: log entry 35. -/
def State.landPush (s : State) (cl l : Nat) : State :=
  match List.find? (fun (y : Nat × LineData × Bool) => y.1 == l) (s.cluster cl).pushes with
  | none => s
  | some y =>
    let t := s.modCluster cl fun c => { c with pushes := c.pushes.filter fun z => z.1 != l }
    let x : L2Line := { data := y.2.1, valid := BitVec.allOnes 16, dirty := 0, st := .s, poison := y.2.2, foreign := BitVec.allOnes 16 }
    match s.l2 cl l with
    | some z => if z.hold || z.dirty != 0 || z.st != .s then t else t.install cl l x
    | none =>
      if (s.cluster cl).room l then t.install cl l x
      else match s.pushVictim cl l with
        | none => t
        | some v => (t.evictL2 cl v.1 v.2).install cl l x

/-- The pushes that line l's slice has sent to a cluster arrive, in order (R104). -/
def State.landFrom (s : State) (cl l : Nat) : State :=
  if (s.cluster cl).pushes.isEmpty then s
  else ((s.cluster cl).pushes.filter fun y => sliceOf y.1 == sliceOf l).foldl (fun s y => s.landPush cl y.1) s

/-- A cluster gives up a line, or keeps a clean copy; dirty valid words reach the home (R125, R130). What was sent to it
on the same network before arrives before (R104). -/
def State.recall (s : State) (f cl l : Nat) (keep : Option L2St) : State :=
  let s := ((s.landEvicts f cl l).landFrom cl l).breakLeases cl l
  match s.l2 cl l with
  | none => s.delL2 cl l
  | some x =>
    let s := if x.dirty = 0 then s else s.absorbAt f l x.data (wordBe x.valid) (x.poison || x.pw != 0)
    let s := x.marks.foldl (fun s m => s.raisePts m.core m.stamp) s
    match keep with
    | none => (s.delL2 cl l).wakeMem (inCluster cl)
    | some st =>
      (s.setL2 cl l { x with dirty := 0, st := st, marks := [] }).modCluster cl fun c =>
        { c with fills := c.fills.filter fun y => y.1 != l }

def DirSt.holders : DirSt → List Nat
  | .i => []
  | .s sh => sh
  | .e k | .m k => [k]
  | .o k sh => k :: sh

/-- Adds a sharer, in ascending order and once. -/
def addShare (sh : List Nat) (j : Nat) : List Nat :=
  if inList j sh then sh else (sh.filter (decide <| · < j)) ++ [j] ++ (sh.filter (decide <| j < ·))

/-- Every named cluster can be recalled. -/
def State.allRecallable (s : State) (l : Nat) (ks : List Nat) : Bool := ks.all fun k => s.recallable k l

/-- Recalls a line from each of a list of clusters. -/
def State.recallAll (s : State) (f l : Nat) (ks : List Nat) : State := ks.foldl (fun s k => s.recall f k l none) s

/-! ## Tiles (R108 to R113) -/

/-- The footprint of R108: line numbers of the rows, ascending, without repeats. -/
def footprint (base pitch rows cols size : Nat) : List Nat :=
  ((List.range rows).foldl (fun acc r =>
    let a := base + r * pitch
    let lo := a / 64
    let hi := (a + cols * size - 1) / 64
    (List.range (hi + 1 - lo)).foldl (fun acc i => if acc.contains (lo + i) then acc else (lo + i) :: acc) acc) [])
  |>.reverse

def Tile.lines (t : Tile) : List Nat := (footprint t.base t.pitch t.rows t.cols t.size).map fun x => lineKey t.asid (x * 64)

/-- The cluster of a tile's owner. -/
def Tile.ownerCl (t : Tile) (f : Nat) : Nat := clusterOf (f * 320 + t.owner)

/-- Every pushed line of a tile is installed in its sharers (R113). -/
def State.landPushes (s : State) (t : Tile) : State :=
  t.sh.foldl (fun s k => if (s.cluster k).pushes.isEmpty then s else t.lines.foldl (fun s l => s.landPush k l) s) s

/-- Demotion (R113, Table 05-7): the pushes of an earlier TFWD land, then each footprint line takes its own state and loses
the mark; the tile is DEM. -/
def State.demote (s : State) (f tid : Nat) : State :=
  match SMap.find? (s.field f).tiles tid with
  | none => s
  | some t =>
    let oc := t.ownerCl f
    let s := t.lines.foldl (fun s l =>
      let h := s.hline f l
      if h.tile == some tid then
        let dir := match h.dir with
          | .e k | .m k => if k == oc then (if ((s.l2 oc l).map (·.dirty != 0)).getD false then .m k else .e k) else h.dir
          | d => d
        s.setHline f l { h with tile := none, dir := dir }
      else s) (s.landPushes t)
    s.modField f fun fd => { fd with tiles := SMap.put fd.tiles tid { t with dem := true, sh := [] } }

/-- A line access by an agent that is not the owner's demotes the tile that marks the line (R110, R113). -/
def State.triggerTile (s : State) (f l : Nat) (cl : Option Nat) : State :=
  match (s.hline f l).tile with
  | none => s
  | some tid =>
    match SMap.find? (s.field f).tiles tid with
    | none => s
    | some t => if cl == some (t.ownerCl f) then s else s.demote f tid

/-- The state of a line of which cluster k alone stays a holder. -/
def DirSt.only (d : DirSt) (k : Nat) : DirSt :=
  match d with
  | .e j | .m j => if j = k then d else .i
  | .o j sh => if j = k then .m k else if inList k sh then .s [k] else .i
  | .s sh => if inList k sh then .s [k] else .i
  | .i => .i

/-- An Own from the owner's cluster on a shared tile invalidates the sharers as one unit (Table 05-7). -/
def State.unshareTile (s : State) (f l : Nat) : M State := do
  match (s.hline f l).tile with
  | none => return s
  | some tid =>
    match SMap.find? (s.field f).tiles tid with
    | none => return s
    | some t =>
      if t.sh.isEmpty then return s
      let oc := t.ownerCl f
      let away (s : State) (l : Nat) : List Nat := (t.sh ++ (s.hline f l).dir.holders.filter fun k => !inList k t.sh).filter (· != oc)
      if !(t.lines.all fun l => s.allRecallable l (away s l)) then throw (.wait .memory)
      let s := t.lines.foldl (fun s l =>
        let s := s.recallAll f l (away s l)
        let h := s.hline f l
        s.setHline f l { h with dir := h.dir.only oc }) s
      return s.modField f fun fd => { fd with tiles := SMap.put fd.tiles tid { t with sh := [] } }

/-! ## Lines held back or on their way -/

/-- A snoop to the host that has not been answered. -/
def Field.snoopOpen (f : Field) (l : Nat) : Bool :=
  match SMap.find? f.snoops l with
  | some x => !x.done
  | none => false

/-- The device event that raised a snoop has been applied. -/
def State.endSnoop (s : State) (f l : Nat) : State :=
  if (SMap.find? (s.field f).snoops l).isSome then
    s.modField f fun fd => { fd with snoops := SMap.del fd.snoops l }
  else s

/-- A line on its way from its home to a cluster. -/
def Cluster.incoming (c : Cluster) (l : Nat) : Bool := c.fills.any fun y => y.1 == l

end Sys2Proof.Machine
end

