-- ==== Sys2Proof/Machine/Rim.lean ====
section
/-! DEFINITION. The rim: backed memory with keys, tags and poison (R23 to R34), storage-format windows and decode (R35
to R43), the page walk (R78 to R83), the reverse map (R93). -/

namespace Sys2Proof.Machine

def backedEnd : Nat := 0x1E00000000
def apertureBase : Nat := 0x400000000000
def apertureSize : Nat := 0x20000000000
def scaleHalf : Nat := 0x10000000000

/-! ## Windows (R35 to R37) -/

def Field.win (f : Field) (w : Nat) : Win :=
  { sb := bits (f.reg (0x900 + 4 * w)) 16 36 * 65536, size := bits (f.reg (0x901 + 4 * w)) 0 21 * 65536
    sc := bits (f.reg (0x902 + 4 * w)) 6 46 * 64, cf := f.reg (0x903 + 4 * w) }

def Win.en (w : Win) : Bool := w.cf.getLsbD 63
def winFmt (cf : Word) : Nat := bits cf 0 3
def winTgt (cf : Word) : Nat := bits cf 4 2
def winExtn (cf : Word) : Bool := cf.getLsbD 11
def winEtyp (cf : Word) : Bool := cf.getLsbD 10
def winCbs (cf : Word) : Nat := bits cf 8 2

/-- Stored bits per element (Table 02-5). -/
def winS (cf : Word) : Nat :=
  match winFmt cf with
  | 1 => 4 | 3 => 2 | _ => 8

/-- Elements per scale; 0 where there is none. -/
def winBlock (cf : Word) : Nat :=
  match winFmt cf with
  | 1 | 2 => 32 | 3 => 64 | _ => 0

/-- Decoded bits per element; none where the combination is illegal (Table 02-5). -/
def winD (cf : Word) : Option Nat :=
  match winFmt cf, winTgt cf with
  | 0, 0 => some 8
  | 1, 0 | 3, 0 => some 4
  | 1, 1 | 2, 1 | 3, 1 => some 8
  | 1, 2 | 2, 2 | 3, 2 => some 16
  | _, _ => none

def Win.elems (w : Win) : Nat := w.size * 8 / winS w.cf
/-- Bytes of the decoded range and of the scale half (R36). -/
def Win.decLen (w : Win) : Nat := w.size * (winD w.cf).getD 0 / winS w.cf
def Win.scLen (w : Win) : Nat := if winBlock w.cf = 0 then 0 else ceilDiv w.elems (winBlock w.cf)

/-- Two ranges (base, length) have a byte in common. -/
def overlap (a la b lb : Nat) : Bool := decide (a < b + lb) && decide (b < a + la) && la != 0 && lb != 0

/-- A range meets a stored range or a scale region of an enabled window other than `self`. -/
def Field.rawHit (f : Field) (a la : Nat) (self : Option Nat) : Bool :=
  (List.range 16).any fun i =>
    let w := f.win i
    some i != self && w.en && (overlap a la w.sb w.size || overlap a la w.sc w.scLen)

/-- A range meets a decoded range or a scale half of an enabled window. -/
def Field.decHit (f : Field) (a la : Nat) : Bool :=
  (List.range 16).any fun i =>
    let w := f.win i
    let b := apertureBase + i * apertureSize
    w.en && (overlap a la b w.decLen || overlap a la (b + scaleHalf) w.scLen)

/-- The first enable check of Table 02-6 that fails. -/
def Field.winCheck (f : Field) (i : Nat) (cf : Word) : Option Nat :=
  let w := { f.win i with cf := cf }
  if (winD cf).isNone || (winEtyp cf && winFmt cf != 2) || (winCbs cf != 0 && winFmt cf != 3) then some 1
  else if w.size = 0 ∨ backedEnd < w.sb + w.size then some 2
  else if f.rawHit w.sb w.size (some i) then some 3
  else if w.scLen ≠ 0 ∧ (backedEnd < w.sc + w.scLen ∨ f.rawHit w.sc w.scLen (some i) = true
      ∨ overlap w.sc w.scLen w.sb w.size = true) then some 4
  else none

/-- The class of a frame (R40): decoded or raw-only where any byte of the leaf is, decoded first; and whether it may be
mapped (R25). DESIGN CHOICE: log entry 118. -/
def Field.frameClass (f : Field) (pa len : Nat) : FrameClass :=
  if f.decHit pa len then .decoded else if f.rawHit pa len none then .raw else .plain

def Field.mappable (f : Field) (pa len : Nat) : Bool := decide (pa + len ≤ backedEnd) || f.decHit pa len

/-! ## Lines of backed memory -/

def Field.meta_ (f : Field) (pa : Nat) : LineMeta := SMap.get f.lmeta (pa / 64) {}
def Field.slot (f : Field) (k : BitVec 8) : KeySlot := SMap.get f.keys k.toNat {}
/-- An access under a key whose slot is not VALID transfers no byte (R32). -/
def Field.keyOk (f : Field) (k : BitVec 8) : Bool := (f.slot k).st == .valid

/-- The plaintext of a line under a key (R31): what was written, where the slot holds the writer's data and tweak keys; else
what the slot's keys make of the ciphertext. DEDUCED: log entry 6. -/
def Field.lineAs (f : Field) (pa : Nat) (k : BitVec 8) : LineData :=
  let pa := pa / 64 * 64
  let m := f.meta_ pa
  let d := lineOf (Mem.readBytes f.mem pa 64)
  let s := f.slot k
  if !m.written || (m.dk == s.data && m.tk == s.tweak) then d
  else xtsDec s.data s.tweak (pa / 64) (xtsEnc m.dk m.tk (pa / 64) d)

/-- A byte of a line under a key. -/
def Field.plain (f : Field) (pa : Nat) (k : BitVec 8) : Byte := lineByte (f.lineAs pa k) (pa % 64)

def Field.plainBytes (f : Field) (pa : Nat) (k : BitVec 8) : Nat → List Byte
  | 0 => []
  | n + 1 => f.plain pa k :: f.plainBytes (pa + 1) k n

/-- The tag of a line of plaintext d under given keys. -/
def TagOf.bits (x : TagOf) (line : Nat) : BitVec 32 := lineTag x.tkey x.id line (xtsEnc x.dk x.tk line x.data)

/-- What the tag of a line is computed over when it is read under a key. -/
def Field.tagOver (f : Field) (pa : Nat) (k : BitVec 8) : TagOf :=
  let m := f.meta_ pa
  { tkey := (f.slot k).tag, id := k, dk := m.dk, tk := m.tk, data := lineOf (Mem.readBytes f.mem (pa / 64 * 64) 64) }

/-- The tag of a line matches under a key (R33); one never written does not (R34). DEDUCED: log entry 6. -/
def Field.tagOk (f : Field) (pa : Nat) (k : BitVec 8) : Bool :=
  match (f.meta_ pa).tag with
  | none => false
  | some x => x == f.tagOver pa k || x.bits (pa / 64) == (f.tagOver pa k).bits (pa / 64)

/-- What a read of a line delivers: poisoned lines with the class of the record, its syndrome and the line at fault. -/
inductive RLine where
  | data (d : LineData)
  | poison (cls : ErrCls) (syn : BitVec 8) (pa : Nat)
  | keyrev
  deriving DecidableEq, Repr

/-- Entry of a codebook slot (R39, R55). -/
def Field.codeEntry (f : Field) (slot n : Nat) : Nat :=
  if slot = 0 then slot0 n else (SMap.get f.code (slot * 256 + n) 0).toNat

/-- Stored element e of a window: its bits, or the L4 code of an LC8 group (R38, R39). -/
def Field.stored (f : Field) (w : Win) (k : BitVec 8) (e : Nat) : Nat :=
  match winFmt w.cf with
  | 1 => ((f.plain (w.sb + e / 2) k).toNat / 16 ^ (e % 2)) % 16
  | 3 =>
    let idx := bytesNat (f.plainBytes (w.sb + e / 8 * 2) k 2)
    (lc8 (f.codeEntry (winCbs w.cf) (idx / 256)) idx).getD (e % 8) 0
  | _ => (f.plain (w.sb + e) k).toNat

/-- The decoded code of element e (R38). -/
def Field.decoded (f : Field) (w : Win) (k : BitVec 8) (e : Nat) : Nat :=
  let x := f.stored w k e
  if winTgt w.cf = 0 then x
  else
    let t : Fmt := if winTgt w.cf = 1 then .f8e4 (winExtn w.cf) else .bf16
    let src : Fmt := match winFmt w.cf with
      | 1 => .f4
      | 3 => .l4
      | _ => if winEtyp w.cf then .f8e5 (winExtn w.cf) else .f8e4 (winExtn w.cf)
    match scaleExp (f.plain (w.sc + e / winBlock w.cf) k).toNat with
    | none => if winTgt w.cf = 1 then 0x7F else 0x7FC0
    | some sc => (t.convert .rne (winTgt w.cf == 1) ((src.val x).scale sc)).1

/-- Byte o of a decoded range; a byte beyond it reads 0 (R36). -/
def Field.decodedByte (f : Field) (w : Win) (k : BitVec 8) (o : Nat) : Byte :=
  if w.decLen ≤ o then 0
  else match winD w.cf with
    | some 4 => BitVec.ofNat 8 (f.decoded w k (2 * o) + 16 * f.decoded w k (2 * o + 1))
    | some 16 => BitVec.ofNat 8 (f.decoded w k (o / 2) / 256 ^ (o % 2))
    | _ => BitVec.ofNat 8 (f.decoded w k o)

/-- The controller that serves a backed line (R24), and whether a module of its link works (R27). -/
def ctlOf (pa : Nat) : Nat :=
  let b (i : Nat) : Nat := pa / 2 ^ i % 2
  (b 8 + b 14 + b 20 + b 26 + b 32) % 2
def Field.ctlOk (f : Field) (pa : Nat) : Bool := (if ctlOf pa = 0 then f.ucie[0] else f.ucie[1]) != 0

/-- Lines that a range of bytes touches. -/
def linesIn (a n : Nat) : List Nat :=
  if n = 0 then [] else (List.range ((a + n - 1) / 64 + 1 - a / 64)).map fun j => (a / 64 + j) * 64

/-- The backed lines that a line of an aperture is built from (R36, R38): bytes beyond a half need none. -/
def Win.lines (w : Win) (o : Nat) : List Nat :=
  if scaleHalf ≤ o then linesIn (w.sc + (o - scaleHalf)) (Nat.min 64 (w.scLen - (o - scaleHalf)))
  else
    let n := Nat.min 64 (w.decLen - o)
    let d := (winD w.cf).getD 8
    let s := winS w.cf
    let b := winBlock w.cf
    let e0 := o * 8 / d
    let e1 := ((o + n) * 8 - 1) / d
    if n = 0 then []
    else linesIn (w.sb + e0 * s / 8) ((e1 * s + s - 1) / 8 + 1 - e0 * s / 8) ++
      if b = 0 then [] else linesIn (w.sc + e0 / b) (e1 / b + 1 - e0 / b)

/-- A backed line cannot be delivered: its controller has failed, or it is poisoned (R27, R29). -/
def Field.lost (f : Field) (pa : Nat) : Bool := !f.ctlOk pa || (f.meta_ pa).poison

/-- The aperture that holds an address. -/
def Field.winOf (f : Field) (pa : Nat) : Win := f.win ((pa - apertureBase) / apertureSize)

/-- A line of an aperture of a window (R36, R38, R43): a disabled window's is delivered poisoned. -/
def Field.aperture (f : Field) (w : Win) (pa : Nat) (k : BitVec 8) : RLine :=
  let o := (pa - apertureBase) % apertureSize
  if !w.en then .poison .ue 3 pa
  else
    match (w.lines o).find? f.lost with
    | some a => .poison .ue 2 a
    | none =>
      if scaleHalf ≤ o then
        let b := o - scaleHalf
        .data (lineOf ((List.range 64).map fun j => if b + j < w.scLen then f.plain (w.sc + b + j) k else 0))
      else .data (lineOf ((List.range 64).map fun j => f.decodedByte w k (o + j)))

/-- A read of the line at pa under key k, with or without its tag (R27, R29, R31 to R33); w: the window of a decoded line. -/
def Field.readLine (f : Field) (pa : Nat) (k : BitVec 8) (i : Bool) (w : Option Win := none) : RLine :=
  let pa := pa / 64 * 64
  if !f.keyOk k then .keyrev
  else if backedEnd ≤ pa then f.aperture (w.getD (f.winOf pa)) pa k
  else if f.lost pa then .poison .ue 2 pa
  else if i && (f.meta_ pa).tagPoison then .poison .ue 2 pa
  else if i && !f.tagOk pa k then .poison .integ 4 pa
  else .data (f.lineAs pa k)

/-- The backed lines that a read of the stacks for a line takes. -/
def Field.readFrom (f : Field) (pa : Nat) (w : Option Win) : List Nat :=
  if backedEnd ≤ pa then
    let v := w.getD (f.winOf pa)
    if v.en then v.lines ((pa / 64 * 64 - apertureBase) % apertureSize) else []
  else [pa / 64 * 64]

/-- A corrected error of a controller (R28). PRESUMED: log entry 28. -/
def State.corrected (s : State) (f pa : Nat) : State :=
  let ctl := ctlOf pa
  (s.modField f fun fd => { fd with ceCount := fd.ceCount.set! ctl ((fd.ceCount.toList.getD ctl 0) + 1) }).logErr f .ce
    { syn := 1, kind := 1, addr := BitVec.ofNat 64 pa }

/-- A read of a line with the errors that its cells show: a corrected one counts and is recorded, an uncorrectable one
poisons what is delivered; every uncorrectable delivery is recorded (R28, R29, R33). errs: lines with their errors.
DESIGN CHOICE: log entry 118. -/
def State.readWith (s : State) (f pa : Nat) (k : BitVec 8) (i : Bool) (w : Option Win) (errs : List (Nat × LineErr)) :
    State × RLine :=
  let r := (s.field f).readLine pa k i w
  if r = .keyrev then (s, r)
  else
    let s := errs.foldl (fun s x => if x.2 = .single then s.corrected f x.1 else s) s
    let r : RLine := match errs.find? fun x => x.2 == .double with
      | some x => .poison .ue 2 x.1
      | none => r
    match r with
    | .poison cls syn a => (s.logErr f cls { syn := syn, kind := 1, addr := BitVec.ofNat 64 a, key := k }, r)
    | _ => (s, r)

/-- A read of a line by a RAW record or a masked write, which meets the errors that the stack's last read of the line
showed. DESIGN CHOICE: log entry 119. -/
def State.readAgain (s : State) (f pa : Nat) (k : BitVec 8) (i : Bool) : State × RLine :=
  s.readWith f pa k i none (((s.field f).readFrom pa none).map fun a => (a, ((s.field f).meta_ a).err))

/-- A write during a migration sets the line's bit if the line has been copied (R96): in round 0, one line in 2 clk. -/
def migTouch (clk pa : Nat) (m : Mig) : Mig :=
  let l := pa / 64
  let n := m.size.pages * 1024
  if m.src / 64 ≤ l ∧ l < m.src / 64 + n ∧ (m.used ≠ 0 ∨ m.start + 2 * (l - m.src / 64 + 1) ≤ clk) then
    { m with dirty := addShare m.dirty (l - m.src / 64) } else m

/-- A write has landed on a line, for the migrations of its frame. -/
def Field.touch (f : Field) (clk pa : Nat) : Field := { f with migs := f.migs.map fun m => (m.1, migTouch clk pa m.2) }

/-- Puts a line's plaintext under the keys of a slot, and with I its tag; a poisoned carve-out line keeps its poison, and
the tag is discarded (R29, R33). -/
def Field.putLine (f : Field) (pa : Nat) (k : BitVec 8) (i : Bool) (d : LineData) : Field :=
  let m := f.meta_ pa
  let s := f.slot k
  let tag : Option TagOf :=
    if i then (if m.tagPoison then m.tag else some { tkey := s.tag, id := k, dk := s.data, tk := s.tweak, data := d })
    else m.tag
  { f with
    mem := Mem.writeBytes f.mem pa (lineBytes d 0 64)
    lmeta := SMap.put f.lmeta (pa / 64) { m with dk := s.data, tk := s.tweak, written := true, tag := tag, poison := false
                                                 err := .none } }

/-- A write of enabled bytes of a line at the controller (R29, R31 to R33). asid and va name the writer. The bytes of a
poisoned write-back were written to a poisoned line: they are discarded, and the record names the writer; where the tag
does not match, line and tag stay as they are. DESIGN CHOICE: log entry 118. -/
def State.writeLine (s : State) (f pa : Nat) (k : BitVec 8) (i : Bool) (d : LineData) (be : BitVec 64) (poison : Bool)
    (asid : BitVec 16) (va : Nat) : State :=
  let fd := s.field f
  let pa := pa / 64 * 64
  let no (s : State) (cls : ErrCls) (syn : BitVec 8) : State :=
    s.logErr f cls { syn := syn, kind := 0, addr := BitVec.ofNat 64 va, asid := asid, key := k }
  let m := fd.meta_ pa
  if !fd.keyOk k || decide (backedEnd ≤ pa) then s
  else if !fd.ctlOk pa then no s .ue 2
  else if poison then
    if i && !fd.tagOk pa k then no s .integ 4
    else no (s.modField f fun fd =>
      ({ fd with lmeta := SMap.put fd.lmeta (pa / 64) { fd.meta_ pa with poison := true } } : Field).touch s.clk pa) .ue 2
  else if be = BitVec.allOnes 64 then
    let s := s.modField f fun fd => (fd.putLine pa k i d).touch s.clk pa
    if i && m.tagPoison then no s .ue 2 else s
  else if m.poison then no s .ue 2
  else if m.err = .double then no (s.modField f fun fd => { fd with lmeta := SMap.put fd.lmeta (pa / 64) { m with poison := true } }) .ue 2
  else if i && m.tagPoison then no s .ue 2
  else if i && !fd.tagOk pa k then no s .integ 4
  else
    let s := if m.err = .single then s.corrected f pa else s
    s.modField f fun fd => (fd.putLine pa k i (mergeLine (fd.lineAs pa k) d be)).touch s.clk pa

/-! ## The page walk (R78 to R83, R99) -/

/-- A leaf that a walk reached: page, frame, attributes, address of the entry that takes A and D. -/
structure Leaf where
  vpage : Nat
  size : PageSize
  pa : Nat
  key : BitVec 8
  e : Word
  at_ : Nat
  ptec : Bool
  deriving DecidableEq, Repr

/-- What a walk finds. -/
inductive Walk where
  | leaf (l : Leaf)
  | missing (cause level : Nat)
  deriving DecidableEq, Repr

/-- The line that holds a frame's line under its virtual mapping (R78, R93). -/
def Field.vline (f : Field) (pa : Nat) : Option Nat :=
  (SMap.find? f.rmap (pa / 65536)).map fun r => lineKey r.asid (r.vpage * 65536 + pa % 65536)

/-- A write-back of a line that has not reached memory. -/
def RReq.wbOf (r : RReq) (l : Nat) : Bool := r.kind == .wb && lineKey r.asid r.va == l

/-- The current bytes of a line held on chip, with a mask: the owner's words over the home's bytes, over those of the
write-backs on their way. -/
def State.chipLine (s : State) (f l : Nat) : LineData × BitVec 64 :=
  let h := s.hline f l
  let lay (a : LineData × BitVec 64) (d : LineData) (be : BitVec 64) : LineData × BitVec 64 := (mergeLine a.1 d be, a.2 ||| be)
  let a := ((s.field f).rreqs.filter fun r => r.wbOf l).foldl (fun a r => lay a r.data r.be) (0, 0)
  let a := lay a h.data (if h.present then BitVec.allOnes 64 else h.dirty)
  let a := ((s.field f).hreqs.filter fun r => r.line == l).foldl (fun a r => match r.kind with
    | .evict d be _ => lay a d be
    | _ => a) a
  h.dir.holders.foldl (fun a k =>
    match s.l2 k l with
    | some x => if x.dirty = 0 then a else lay a x.data (wordBe x.valid)
    | none => a) a

/-- The on-chip bytes of a backed line. -/
def State.chipAt (s : State) (f pa : Nat) : LineData × BitVec 64 :=
  match (s.field f).vline pa with
  | none => (0, 0)
  | some l => s.chipLine f l

/-- The key ID of the walkers' accesses. -/
def Field.walkKey (f : Field) : BitVec 8 := BitVec.ofNat 8 (bits (f.reg 0x960) 56 8)

/-- The memory line gives a walker nothing: key, controller or poison. -/
def Field.walkLost (f : Field) (pa : Nat) : Bool :=
  decide (backedEnd < pa + 8) || f.lost pa || (f.meta_ pa).err == .double

/-- A walker's read of an 8-byte entry at a physical address: coherent, under XBASE.KEY; 0 where no byte is
transferred. DEDUCED: log entry 7. -/
def State.readEntry (s : State) (f pa : Nat) : Word :=
  let fd := s.field f
  let (c, be) := s.chipAt f pa
  let want := beOf (pa % 64) 8
  if be &&& want = want then c.extractLsb' (8 * (pa % 64)) 64
  else if !fd.keyOk fd.walkKey || fd.walkLost pa then 0
  else (mergeLine (fd.lineAs pa fd.walkKey) c be).extractLsb' (8 * (pa % 64)) 64

/-- The records of a walker's read of an entry from memory (R28, R29). -/
def State.noteEntry (s : State) (f pa : Nat) : State :=
  let fd := s.field f
  let want := beOf (pa % 64) 8
  if (s.chipAt f pa).2 &&& want = want || !fd.keyOk fd.walkKey || decide (backedEnd < pa + 8) then s
  else if fd.walkLost pa then
    s.logErr f .ue { syn := 2, kind := 1, addr := BitVec.ofNat 64 (pa / 64 * 64), key := fd.walkKey }
  else if (fd.meta_ pa).err = .single then s.corrected f (pa / 64 * 64) else s

/-- A malformed entry at a level (R81). -/
def badEntry (e : Word) (lvl : Nat) : Bool :=
  if e.getLsbD 1 then
    bits e 60 4 != 0 || e.getLsbD 11 || lvl == 0 || (lvl == 2 && bits e 16 10 != 0) || (lvl == 1 && bits e 16 19 != 0)
      || (lvl != 3 && e.getLsbD 7)
  else
    bits e 52 12 != 0 || bits e 2 10 != 0 || lvl == 3 ||
      (bits e 12 40 * 4096) % (if lvl = 0 then 16384 else if lvl = 1 then 4096 else 8192) != 0

/-- The run of 32 entries of a 2 MiB page agrees (R82). -/
def State.runOk (s : State) (f at0 : Nat) : Bool :=
  let e0 := s.readEntry f at0
  let frame := bits e0 16 36
  frame % 32 == 0 &&
  (List.range 32).all fun n =>
    let e := s.readEntry f (at0 + 8 * n)
    e.getLsbD 0 && e.getLsbD 1 && e.getLsbD 7 && bits e 16 36 == frame + n && bits e 52 8 == bits e0 52 8
      && bits e 2 4 == bits e0 2 4 && e.getLsbD 6 == e0.getLsbD 6 && e.getLsbD 8 == e0.getLsbD 8

/-- The index of a level (Table 04-1). -/
def walkIdx (va lvl : Nat) : Nat :=
  match lvl with
  | 0 => va / 2 ^ 46 % 2048 | 1 => va / 2 ^ 35 % 2048 | 2 => va / 2 ^ 26 % 512 | _ => va / 2 ^ 16 % 1024

/-- The walk from a node at a level, `fuel` levels left. -/
def State.walkFrom (s : State) (f va : Nat) (node lvl : Nat) : Nat → Walk
  | 0 => .missing 2 3
  | fuel + 1 =>
    let at_ := node + walkIdx va lvl * 8
    let e := s.readEntry f at_
    if e.getLsbD 0 = false then .missing 1 lvl
    else if badEntry e lvl then .missing 2 lvl
    else if e.getLsbD 1 = false then s.walkFrom f va (bits e 12 40 * 4096) (lvl + 1) fuel
    else
      let pfn := bits e 16 36 * 65536
      let key : BitVec 8 := BitVec.ofNat 8 (bits e 52 8)
      let size : PageSize := if lvl = 1 then .g32 else if lvl = 2 then .m64 else .k64
      if !(s.field f).mappable pfn (size.pages * 65536) then .missing 3 lvl
      else if lvl = 3 ∧ e.getLsbD 7 then
        let at0 := node + walkIdx va lvl / 32 * 32 * 8
        if s.runOk f at0 then
          .leaf { vpage := va / 65536 / 32 * 32, size := .m2, pa := bits (s.readEntry f at0) 16 36 * 65536, key := key
                  e := e, at_ := at0, ptec := false }
        else .leaf { vpage := va / 65536, size := .k64, pa := pfn, key := key, e := e, at_ := at_, ptec := true }
      else .leaf { vpage := va / 65536 / size.pages * size.pages, size := size, pa := pfn, key := key, e := e, at_ := at_
                   ptec := false }

/-- The level of the leaf of a page size. -/
def PageSize.level : PageSize → Nat
  | .g32 => 1 | .m64 => 2 | .k64 | .m2 => 3

/-- The walk of a virtual address under an ASID; own: whether a context's own ASID is meant (R99). Of L0 only the indices
below 1,024 are walked (R79); an ASID-table entry with V = 1 is taken as valid whatever its reserved bits hold.
DESIGN CHOICE: log entry 120. -/
def State.walk (s : State) (f : Nat) (asid : BitVec 16) (va : Nat) (own : Bool) : Walk :=
  let x := (s.field f).reg 0x960
  if x.getLsbD 0 = false then .missing 5 0xFF
  else if asid = 0xFFFF ∧ own then .missing 4 0xFF
  else
    let a := s.readEntry f (bits x 19 33 * 2 ^ 19 + asid.toNat * 8)
    if a.getLsbD 0 = false then .missing 4 0xFF
    else if 1024 ≤ walkIdx va 0 then .missing 1 0
    else
      match s.walkFrom f va (bits a 14 38 * 16384) 0 4 with
      | .leaf l => if asid = 0xFFFF ∧ l.e.getLsbD 6 = false then .missing 2 l.size.level else .leaf l
      | m => m

/-- The entries that a walk from a node reads. -/
def State.pathFrom (s : State) (f va : Nat) (node lvl : Nat) : Nat → List Nat
  | 0 => []
  | fuel + 1 =>
    let at_ := node + walkIdx va lvl * 8
    let e := s.readEntry f at_
    at_ :: if e.getLsbD 0 = false || badEntry e lvl then []
      else if e.getLsbD 1 = false then s.pathFrom f va (bits e 12 40 * 4096) (lvl + 1) fuel
      else if e.getLsbD 7 then (List.range 4).map fun j => (at_ / 256 * 4 + j) * 64
      else []

/-- The records of a walk's reads, one for each line (R28, R29). -/
def State.noteWalk (s : State) (f : Nat) (asid : BitVec 16) (va : Nat) : State :=
  let x := (s.field f).reg 0x960
  let a := bits x 19 33 * 2 ^ 19 + asid.toNat * 8
  let node := s.readEntry f a
  let path := a :: if node.getLsbD 0 then s.pathFrom f va (bits node 14 38 * 16384) 0 4 else []
  path.foldl (fun s pa => s.noteEntry f pa) s

/-- Recalls every holder of a line and drops its state; dirty bytes stay at the home. -/
def State.collectLine (s : State) (f l : Nat) : State :=
  let s := s.recallAll f l (s.hline f l).dir.holders
  s.setHline f l { s.hline f l with dir := .i }

/-- A walker's write of an 8-byte word at a physical address, coherent and under XBASE.KEY (R78, R83): to the home's copy,
to a write-back on its way that covers the word, or to memory. -/
def State.writeEntry (s : State) (f pa : Nat) (w : Word) : State :=
  let k := (s.field f).walkKey
  let data := placeBytes (natBytes w.toNat 8) (pa % 64)
  let be := beOf (pa % 64) 8
  match (s.field f).vline pa with
  | none => s.writeLine f pa k false data be false 0 0
  | some v =>
    let s := s.collectLine f v
    let h := s.hline f v
    if h.present || h.dirty &&& be == be then s.setHline f v (h.absorb data be false)
    else if (s.field f).rreqs.any (fun r => r.wbOf v && r.be &&& be == be) then
      let put (r : RReq) : RReq :=
        if r.wbOf v && r.be &&& be == be then { r with data := mergeLine r.data data be } else r
      s.modField f fun fd => { fd with rreqs := fd.rreqs.map put }
    else s.writeLine f pa k false data be false 0 0

/-- Sets A, or A and D, in a leaf: an indivisible OR where the entry's line is found (R83). DEDUCED: log entry 10. -/
def State.setAD (s : State) (f : Nat) (l : Leaf) (d : Bool) : State :=
  let e := s.readEntry f l.at_
  let e' := e ||| 0x200#64 ||| (if d then 0x400#64 else 0)
  if e' = e then s else s.writeEntry f l.at_ e'

/-! ## The rim translation cache and the reverse map -/

/-- The rim translation-cache entry of a leaf. -/
def Leaf.entry (l : Leaf) (asid : BitVec 16) : XEnt :=
  { vpage := l.vpage, size := l.size, asid := asid, g := l.e.getLsbD 6, pa := l.pa, key := l.key, i := l.e.getLsbD 8
    rd := l.e.getLsbD 2, wr := l.e.getLsbD 3 }

def XEnt.covers (e : XEnt) (vp : Nat) (asid : BitVec 16) : Bool :=
  decide (e.vpage ≤ vp) && decide (vp < e.vpage + e.size.pages) && (e.g || e.asid == asid)

/-- With translation disabled every request is a missing translation (Table 04-5). -/
def Field.translate (f : Field) (asid : BitVec 16) (va : Nat) : Option XEnt :=
  if (f.reg 0x960).getLsbD 0 then f.xlat.find? fun e => e.covers (va / 65536) asid else none

def XEnt.paOf (e : XEnt) (va : Nat) : Nat := e.pa + (va - e.vpage * 65536)

/-- The lines of a field that its homes list for one 64 KiB page, or that are on their way to memory. -/
def Field.linesOf (f : Field) (vpage : Nat) (asid : BitVec 16) : List Nat :=
  let mine (l : Nat) : Bool := keyAsid l == asid && keyVa l / 65536 == vpage
  let ls := (f.home.map (·.1)).filter mine
  ((f.rreqs.filter fun r => r.kind == .wb).map fun r => lineKey r.asid r.va).foldl
    (fun a l => if mine l then addShare a l else a) ls

/-- The write-backs of a line that are on their way land in a frame. -/
def State.landWbs (s : State) (f l pa : Nat) (key : BitVec 8) (i : Bool) : State :=
  let rs := (s.field f).rreqs.filter fun r => r.wbOf l
  let s := rs.foldl (fun s r => s.writeLine f pa key i r.data r.be r.poison r.asid r.va) s
  if rs.isEmpty then s else s.modField f fun fd => { fd with rreqs := fd.rreqs.filter fun r => !r.wbOf l }

/-- Recalls every line of a page and writes dirty bytes back to the frame that held them (R87, R93); the home keeps
of a line only its tile mark and H. -/
def State.purge (s : State) (f vpage : Nat) (asid : BitVec 16) (pa : Nat) (key : BitVec 8) (i : Bool) : State :=
  ((s.field f).linesOf vpage asid).foldl (fun s l =>
    let s := s.collectLine f l
    let at_ := pa + keyVa l % 65536
    let s := s.landWbs f l at_ key i
    let h := s.hline f l
    let s := if h.dirty = 0 then s
      else s.writeLine f at_ key i h.data h.dirty h.poison asid (keyVa l)
    s.setHline f l { tile := h.tile, h := h.h }) s

/-- A fill for a frame that is on its way from the stack. -/
def RReq.inFlight (r : RReq) (frame : Nat) : Bool :=
  r.kind == .fill && match r.stage with
  | .mem pa _ _ => pa / 65536 == frame
  | _ => false

/-- The lines of the frame that the reverse map lists can be recalled: none is on its way to its home, no snoop to the host
is out for one (R93). -/
def State.purgeable (s : State) (f frame : Nat) : Bool :=
  match SMap.find? (s.field f).rmap frame with
  | none => true
  | some r =>
    !((s.field f).rreqs.any fun x => x.inFlight frame) &&
    ((s.field f).linesOf r.vpage r.asid).all fun l =>
      s.allRecallable l (s.hline f l).dir.holders && !(s.field f).snoopOpen l

/-- Purges the frame that the reverse map lists, and its entry. -/
def State.purgeFrame (s : State) (f frame : Nat) : State :=
  match SMap.find? (s.field f).rmap frame with
  | none => s
  | some r =>
    (s.purge f r.vpage r.asid (frame * 65536) r.key r.i).modField f fun fd => { fd with rmap := SMap.del fd.rmap frame }

/-- The frame filled least recently. -/
def Field.oldestFrame (f : Field) : Option (Nat × RMapEnt) :=
  f.rmap.foldl (fun a x => match a with
    | none => some x
    | some y => if x.2.order < y.2.order then some x else some y) none

/-- The reverse map before a fill for a frame (R93): none when the fill must be held. -/
def State.claimFrame (s : State) (f frame vpage : Nat) (asid : BitVec 16) (x : XEnt) : Option State :=
  let fd := s.field f
  let ent (s : State) : State :=
    (s.modField f fun fd => { fd with rmap := SMap.put fd.rmap frame
                                        { vpage := vpage, asid := asid, key := x.key, i := x.i, order := s.fresh
                                          base := x.vpage, size := x.size, g := x.g } }).bump
  match SMap.find? fd.rmap frame with
  | some r =>
    if r.vpage = vpage ∧ r.asid = asid ∧ r.key = x.key then some (ent s)
    else if s.purgeable f frame then some (ent (s.purgeFrame f frame)) else none
  | none =>
    if fd.rmap.length < 65536 then some (ent s)
    else
      match fd.oldestFrame with
      | none => some (ent s)
      | some y => if s.purgeable f y.1 then some (ent (s.purgeFrame f y.1)) else none

/-- The frame of a line, and what maps it: from the rim translation cache, else from the page tables. -/
def State.frameOf (s : State) (f l : Nat) : Option (Nat × XEnt) :=
  let asid := keyAsid l
  let x : Option XEnt := match (s.field f).translate asid (keyVa l) with
    | some x => some x
    | none => match s.walk f asid (keyVa l) false with
      | .leaf e => some (e.entry asid)
      | .missing .. => none
  x.map fun x => (x.paOf (keyVa l) / 65536, x)

/-- The reverse map holds a frame under a triple. -/
def Field.holdsFrame (f : Field) (frame page : Nat) (asid : BitVec 16) (key : BitVec 8) : Bool :=
  match SMap.find? f.rmap frame with
  | some r => r.vpage == page && r.asid == asid && r.key == key
  | none => false

/-- Before bytes of a line are held on chip without a fill, under Own or at the home, the reverse map takes up its frame as
it does for a fill, so that a frame is cached under one triple (R93). DEDUCED: log entry 128. -/
def ownFrame (f l : Nat) : M Unit := do
  let s ← get
  match s.frameOf f l with
  | none => pure ()
  | some (fr, x) =>
    if (s.field f).holdsFrame fr (keyVa l / 65536) (keyAsid l) x.key then pure ()
    else match s.claimFrame f fr (keyVa l / 65536) (keyAsid l) x with
      | some s => set s
      | none => throw (.wait .memory)

/-! ## Migrations that a request meets (R97) -/

/-- A record lists a page: one of the pages that begin at a mapping's VA as given. A 2 MiB mapping whose VA is not that of
its page's first 64 KiB stands for the 32 pages from there. DESIGN CHOICE: log entry 127. -/
def Mig.lists (m : Mig) (asid : BitVec 16) (page : Nat) : Bool :=
  m.maps.any fun x => x.1 == asid.toNat && decide (x.2 ≤ page) && decide (page < x.2 + m.size.pages)

def Mig.holds (m : Mig) (pa : Nat) : Bool := decide (m.src ≤ pa) && decide (pa < m.src + m.size.pages * 65536)

/-- The migration that is frozen for a page. -/
def Field.frozenFor (f : Field) (asid : BitVec 16) (page : Nat) : Option Nat :=
  (List.find? (fun (m : Nat × Mig) => m.2.frozen && m.2.lists asid page) f.migs).map (·.1)

/-- The migration of the frame that an address lies in, when its record does not list the pair. -/
def Field.unlisted (f : Field) (asid : BitVec 16) (page pa : Nat) : Option (Nat × Mig) :=
  List.find? (fun (m : Nat × Mig) => m.2.holds pa && !m.2.lists asid page) f.migs

/-- Status word of a migration record (Table 04-7). DEDUCED: log entry 12. -/
def migWord (w : Word) (status used : Nat) : Word := setBits (setBits w 56 8 status) 40 8 used

/-- Ends a migration with a status; requests it froze go on. -/
def State.endMig (s : State) (f slot : Nat) (m : Mig) (status : Nat) : State :=
  let thaw (r : RReq) : RReq := if r.stage = .frozen slot then { r with stage := .new } else r
  let s := s.modField f fun fd => { fd with migs := SMap.del fd.migs slot, rreqs := fd.rreqs.map thaw }
  s.writeEntry f m.record (migWord (s.readEntry f m.record) status m.used)

/-- A request at the rim that has its translation, before it goes on: it waits during a freeze of its page; under a pair that
the record of its frame's migration does not list it ends the migration, or during the freeze fails (Table 04-8). -/
def migMeets (f : Nat) (asid : BitVec 16) (va : Nat) (x : XEnt) : M Bool := do
  let s ← get
  let fd := s.field f
  waitIf (fd.frozenFor asid (va / 65536)).isSome .memory
  match fd.unlisted asid (va / 65536) (x.paOf va) with
  | none => return true
  | some (slot, m) =>
    if m.frozen then
      set (s.logErr f .syn { kind := 0, addr := BitVec.ofNat 64 va, asid := asid })
      return false
    else
      set (s.endMig f slot m 2)
      return true

end Sys2Proof.Machine
end

