-- ==== Sys2Proof/Machine/Home.lean ====
section
/-! DEFINITION. The transitions of the home slices for clusters, engines and agents of no cluster, and the engines'
coherent access to a line (R93, R105, R106, R112, R122, R144). -/

namespace Sys2Proof.Machine

/-- The pc of the context for which the event works. -/
def State.agentPc (s : State) : Option Word :=
  match s.agent with
  | .cx c => some (s.ctx c).pc
  | _ => none

/-! ## Home transitions (Tables 05-4 and 05-5); a wait keeps the requests posted -/

/-- The device event that raised a snoop is still to be applied: its request or work is under way, or its context stands at
the instruction. -/
def State.agentLive (s : State) (f : Nat) (x : Snoop) : Bool :=
  match x.by_ with
  | .work id _ =>
    let fd := s.field f
    fd.hreqs.any (fun r => r.id == id) || fd.peers.any (fun p => p.id == id) || fd.contribs.any (fun x => x.id == id) ||
      (s.clusters.any fun x => x.2.chans.toList.any fun c => (c.cur.map (·.id)) == some id) ||
      s.cores.any fun x => x.2.items.any (fun i => i.id == id) || x.2.mq.any fun e => e.eid == id
  | .cx c => (s.ctx c).st != .free && some (s.ctx c).pc == x.pc
  | _ => false

/-- A line is held for another event: its snoop has not been answered, or it has and the event that raised it comes
first (R105, R107). -/
def State.heldFor (s : State) (f l : Nat) (a : Agent) : Bool :=
  match SMap.find? (s.field f).snoops l with
  | some x => !x.done || (x.by_ != a && s.agentLive f x)
  | none => false

/-- Sends a snoop to the host for a line and waits for its answer (R106, R107). -/
def snoopHost (f l : Nat) (inv : Bool) : M Unit := do
  let s ← get
  let s' := s.modField f fun fd => { fd with snoops := SMap.put fd.snoops l { inv := inv, ns := s.ns, by_ := s.agent, pc := s.agentPc } }
  set { s' with out := s.out ++ [OutMsg.snoop f l inv] }
  throw (.wait .memory)

/-- The event column of Table 05-5 for agents of the device: reads and writes. -/
def hostClear (f l : Nat) (write : Bool) : M Unit := do
  let s ← get
  waitIf (s.heldFor f l s.agent) .memory
  match (s.hline f l).h with
  | .none => pure ()
  | .hs => if write then snoopHost f l true
  | .hx => snoopHost f l write

/-- The outcome that an agent has still to meet for a line (R89). -/
def Field.failOf (f : Field) (l : Nat) (a : Agent) : Option (BitVec 8) :=
  (List.find? (fun (x : Nat × Agent × BitVec 8) => x.1 == l && x.2.1 == a) f.rimFails).map (·.2.2)

/-- From here on homes and the rim are asked for an agent. -/
def asAgent (a : Agent) : M Unit := modify fun s => { s with agent := a }

/-- The home's whole copy of a line, filled from the rim when bytes are missing. -/
def homeData (f l : Nat) : M HLine := do
  let s ← get
  let h := s.hline f l
  if h.present then return h
  match (s.field f).failOf l s.agent with
  | some _ => throw (.wait .memory)
  | none =>
    set (s.postRim f { id := 0, kind := .fill, va := keyVa l, asid := keyAsid l, core := none, cx := none })
    throw (.wait .memory)

/-- The bytes that a holder supplies, completed from the home's copy where its words are invalid. -/
def supply (f k l : Nat) : M (LineData × Bool) := do
  let s ← get
  match s.l2 k l with
  | none => do let h ← homeData f l; return (h.data, h.poison)
  | some x =>
    if x.valid = BitVec.allOnes 16 then return (x.data, x.poison || x.pw != 0)
    let h ← homeData f l
    return (mergeLine h.data x.data (wordBe x.valid), h.poison || x.poison || x.pw != 0)

def freshLine (d : LineData) (p : Bool) (st : L2St) : L2Line :=
  { data := d, valid := BitVec.allOnes 16, dirty := 0, st := st, poison := p, foreign := BitVec.allOnes 16 }

/-- Holder k keeps a line, or the line on its way to it, in a weaker state. -/
def State.weaken (s : State) (k l : Nat) (st : L2St) : State :=
  let s := s.breakLeases k l
  let s := match s.l2 k l with
    | none => s
    | some x => s.setL2 k l { x with st := st }
  let low (y : Nat × L2Line) : Nat × L2Line := if y.1 = l then (y.1, { y.2 with st := st }) else y
  s.modCluster k fun c => { c with fills := c.fills.map low }

/-- What holders that no longer have a line have sent to the home, evictions, reaches it before their answer would (R104). -/
def State.landAway (s : State) (f l : Nat) : State :=
  (s.hline f l).dir.holders.foldl (fun s k =>
    if (s.l2 k l).isNone && !(s.cluster k).incoming l then s.landEvicts f k l else s) s

/-- RdS from cluster j (Table 05-4): the line that j receives. -/
def homeRds (f j l : Nat) : M L2Line := do
  waitIf (!((← get).field f).dirRoom l) .memory
  hostClear f l false
  modify fun s => (s.triggerTile f l (some j)).landAway f l
  let s ← get
  let dir (d : DirSt) : M Unit := modify fun s => (s.setHline f l { s.hline f l with dir := d }).endSnoop f l
  match (s.hline f l).dir with
  | .i => do
    let h ← homeData f l
    dir (.e j)
    return freshLine h.data h.poison .e
  | .s sh => do
    let h ← homeData f l
    dir (.s (addShare sh j))
    return freshLine h.data h.poison .s
  | .e k | .m k => do
    if k == j || !s.recallable k l then throw (.wait .memory)
    let (d, p) ← supply f k l
    let dirty := (s.hline f l).dir == .m k || ((s.l2 k l).map (·.dirty != 0)).getD false
    modify fun s => s.weaken k l (if dirty then .o else .s)
    dir (if dirty then .o k [j] else .s (addShare [k] j))
    return freshLine d p .s
  | .o k sh => do
    if k == j || !s.recallable k l then throw (.wait .memory)
    let (d, p) ← supply f k l
    dir (.o k (addShare sh j))
    return freshLine d p .s

/-- The other holders that an Own from cluster j recalls. -/
def State.ownOthers (s : State) (f j l : Nat) : List Nat := (s.hline f l).dir.holders.filter (· != j)

/-- Nothing holds an Own from cluster j back: the host has answered, and every holder can be recalled. -/
def ownReady (f j l : Nat) : M Unit := do
  waitIf (!((← get).field f).dirRoom l) .memory
  hostClear f l true
  let s ← get
  waitIf (!s.allRecallable l (s.ownOthers f j l)) .memory

/-- Own from cluster j at the home (Table 05-4). -/
def homeGrant (f j l : Nat) : M Unit := do
  hostClear f l true
  modify fun s => s.triggerTile f l (some j)
  let s ← get
  set (← s.unshareTile f l)
  ownReady f j l
  ownFrame f l
  modify fun s => s.recallAll f l (s.ownOthers f j l)
  modify fun s => (s.setHline f l { s.hline f l with dir := .m j, h := .none }).endSnoop f l

/-- The line that a grant of Own leaves in cluster j: the words it held, or none. -/
def State.granted (s : State) (j l : Nat) : L2Line :=
  match s.l2 j l with
  | some x => { x with st := .m }
  | none =>
    match (List.find? (fun (y : Nat × L2Line) => y.1 == l) (s.cluster j).fills).map (·.2) with
    | some x => { x with st := .m }
    | none => { data := 0, valid := 0, dirty := 0, st := .m }

/-- Own from cluster j whose grant arrives at once: j holds the line in M. DEDUCED: log entry 23. -/
def homeOwn (f j l : Nat) : M Unit := do
  homeGrant f j l
  let s ← get
  let s := s.setL2 j l (s.granted j l)
  set (s.modCluster j fun c => { c with fills := c.fills.filter fun y => y.1 != l })

/-- Every holder gives the line back to its home, for an access of cluster cl or of an agent of no cluster (R110); a bank
operation of the owner's cluster on a shared tile is an Own for the tile (Table 05-7). -/
def homeGather (f l : Nat) (cl : Option Nat) : M Unit := do
  modify fun s => s.triggerTile f l cl
  set (← (← get).unshareTile f l)
  let s ← get
  let ks := (s.hline f l).dir.holders
  waitIf (!s.allRecallable l ks) .memory
  modify fun s => s.recallAll f l ks
  modify fun s => s.setHline f l { s.hline f l with dir := .i }

/-- No cluster holds the line, and the home's copy is current: the state before a home atomic or a gateway store
(Table 05-4). -/
def homeCollect (f l : Nat) (cl : Option Nat) : M Unit := do
  hostClear f l true
  homeGather f l cl
  modify fun s => (s.setHline f l { s.hline f l with h := .none }).endSnoop f l

/-- Requests of clusters for a line wait at its home: an access of another agent comes after them (R105). -/
def afterHome (f l : Nat) : M Unit := do
  waitIf (((← get).field f).hreqs.any fun r => r.line == l) .memory

/-! ## Engines' coherent access to a line, as requests of their cluster (R105, R106, R144) -/

/-- The code of a fill that failed for the agent of the event is taken once (R89). DEDUCED: log entry 11. -/
def takeFail (f l : Nat) : M (Option (BitVec 8)) := do
  let s ← get
  match (s.field f).failOf l s.agent with
  | none => return none
  | some c => do
    set (s.modField f fun fd => { fd with rimFails := fd.rimFails.filter fun x => !(x.1 == l && x.2.1 == s.agent) })
    return some c

/-- 8-byte words of a line whose bytes are all enabled. -/
def wholeWords (be : BitVec 64) : BitVec 8 :=
  BitVec.ofNat 8 ((List.range 8).foldl (fun a i => if be.extractLsb' (8 * i) 8 = 0xFF then a + 2 ^ i else a) 0)

/-- The line, every word valid, in cluster cl's L2. -/
def engineLine (cl l : Nat) : M L2Line := do
  let f := fieldOfCl cl
  let s ← get
  match s.l2 cl l with
  | some x =>
    if x.hold then throw (.wait .memory)
    if x.valid = BitVec.allOnes 16 then return x
    afterHome f l
    let h ← homeData f l
    let y := { x with data := mergeLine h.data x.data (wordBe x.valid), valid := BitVec.allOnes 16
                      poison := x.poison || h.poison, foreign := x.foreign ||| ~~~x.valid }
    modify fun s => s.setL2 cl l y
    return y
  | none =>
    waitIf (!(s.cluster cl).room l) .memory
    afterHome f l
    let x ← homeRds f cl l
    modify fun s => s.install cl l x
    return x

/-- The write of an engine or matrix unit performs in the L2 under Own, logically after every lease (R122).
DEDUCED: log entry 21. -/
def engineWrite (cl l : Nat) (data : LineData) (be : BitVec 64) : M Unit := do
  let f := fieldOfCl cl
  let s ← get
  let owned := match s.l2 cl l with
    | some x => x.st == .m || x.st == .e
    | none => false
  waitIf (!(s.cluster cl).room l) .memory
  if !owned then
    afterHome f l
    homeOwn f cl l
  let s ← get
  match s.l2 cl l with
  | none => throw (.wait .memory)
  | some x =>
    if x.hold then throw (.wait .memory)
    let part := wordsTouched be &&& ~~~(wordsCovered be) &&& ~~~x.valid
    if part != 0 then let _ ← engineLine cl l
    let s ← get
    match s.l2 cl l with
    | none => throw (.wait .memory)
    | some x =>
      let w := x.rts + 1
      let y := { x with data := mergeLine x.data data be, valid := x.valid ||| wordsTouched be
                        dirty := x.dirty ||| wordsTouched be, foreign := x.foreign ||| wordsTouched be, st := .m, wts := Nat.max w x.wts, rts := Nat.max w x.wts
                        pw := x.pw &&& ~~~(wholeWords be), poison := x.poison && be != BitVec.allOnes 64 }
      set ((s.breakLeases cl l).setL2 cl l y)
      modify fun s => s.wakeMem (inCluster cl)

end Sys2Proof.Machine
end

