-- ==== Sys2Proof/Machine/Access.lean ====
section
/-! DEFINITION. Loads and stores of a context: checks, the store queue, L1D leases, the cluster L2, banks, the peer
window; releases and acquires (R120 to R123, R128 to R135, R257 to R261, R267, R268, R317, R360). -/

namespace Sys2Proof.Machine

/-- The issuing context as the maker of an access. -/
def State.acc (s : State) : Acc := { core := s.myCore, asid := s.me.asid, lvl := s.me.lvl, cx := some s.cur }

/-- The address that a rim outcome concerns. -/
def RimOut.va : RimOut → Nat
  | .nomap va | .keyrev va | .ue va | .ueWord va | .bounds va | .perm va | .fmtwr va => va

/-- The cause of a rim outcome (Table 13-2). -/
def RimOut.cause : RimOut → Cause
  | .nomap _ => .nomap
  | .keyrev _ => .keyrev
  | .ue _ | .ueWord _ => .ue
  | .bounds _ => .bounds
  | .perm _ => .perm
  | .fmtwr _ => .fmtwr

/-- An outcome of the rim concerns an access: a translation its whole page, poison its line or its 8-byte word, a refusal beyond the
field the 16 bytes that hold its address. -/
def RimOut.on (o : RimOut) (va : Nat) : Bool :=
  match o with
  | .nomap a | .keyrev a => a / 65536 == va / 65536
  | .ue a => a / 64 == va / 64
  | .ueWord a => a / 8 == va / 8
  | .bounds a | .perm a | .fmtwr a => a / 16 == va / 16

/-- The trap of an access that an outcome of the rim concerns (R89, R268). -/
def Ctx.rimTrap (c : Ctx) (va : Nat) : Option Trap :=
  (c.rim.find? fun o => o.on va).map fun o => { cause := o.cause, tval := BitVec.ofNat 64 va }

/-- An outcome that the rim has delivered to this waiting instruction is its trap (R89, R268).
DEDUCED: log entry 11. -/
def rimCheck (va : Nat) : M Unit := do
  match (← me).rimTrap va with
  | none => pure ()
  | some t => throw (.trap t)

/-- The checks of R267 for the issuing context: a precise trap, a PLB fill, or the place. -/
def place (va n align : Nat) (k : AccKind) : M (Space × BitVec 16) := do
  let s ← get
  match s.check s.acc va n align k with
  | .bad c => throw (.trap { cause := c, tval := BitVec.ofNat 64 va })
  | .miss st => do
    set (s.postPlb s.acc va (.plb st))
    throw (.wait .memory)
  | .ok sp a => return (sp, a)

/-- A scalar access: an outcome of the rim first, then the checks. -/
def access (va n align : Nat) (k : AccKind) : M (Space × BitVec 16) := do
  rimCheck va
  place va n align k

/-! ## Releases and acquires (R257 to R261) -/

/-- Stores of a task that have not performed. -/
def State.undone (s : State) (k tid : Nat) : Bool := (s.core k).sq.any fun e => e.tid == tid

/-- Stores of other tasks of its core that a context has seen and that have not performed (R255). -/
def State.seenOpenOf (s : State) (c : Nat) : Bool := (s.core (coreOf c)).sq.any fun e => decide (e.n < (s.ctx c).seen)
def State.seenOpen (s : State) : Bool := s.seenOpenOf s.cur

/-- The context has seen the core's stores before a number. -/
def noteSeen (n : Nat) : M Unit := modMe fun c => { c with seen := Nat.max c.seen n }

/-- Peer-window accesses of a task in flight. -/
def State.peersOpen (s : State) (tid : Nat) : Bool :=
  s.fields.any fun f => f.2.peers.any fun p => p.tid == tid && p.tag.isNone

/-- Writes of a task to the host that have not been acknowledged. -/
def State.hostOpen (s : State) (tid : Nat) : Bool := s.fields.any fun f => f.2.hostWrs.any fun w => w.2.1 == tid && w.2.2 == 0

/-- Waits until the context's earlier writes, and those of its core that it has seen, are visible at a scope wider than CORE
(Table 12-1, R255). DEDUCED: log entry 20. -/
def drainStores (sc : Scope) : M Unit := do
  let s ← get
  let t := s.me.task.tid
  waitIf (s.undone s.myCore t || s.seenOpen) .drain
  waitIf ((sc == .prt || sc == .sys) && s.peersOpen t) .drain
  waitIf (sc == .sys && s.hostOpen t) .drain

/-- Waits until the context's earlier stores have performed, those through an import slot to another field or the host too: before an engine or the matrix
unit reads for it (R145, R231). -/
def storesDone : M Unit := drainStores .sys

/-- A release at CORE scope leaves a mark, or publishes at once: both are allowed (R258).
DEDUCED: log entries 19, 20. -/
def releaseMarks (sc : Scope) : M Bool := do
  let s ← get
  if sc == .core && Config.choice s.fresh then return true
  drainStores sc
  return false

/-- The effect on a core's L1D of an acquire that reads what no stamp of the cluster's L2 orders, a bank, a word of the L2 that came
from elsewhere: copies that their L2 lines have outdated are given up, so that no later load hits an old value (R257).
DEDUCED: log entry 18. -/
def State.acquireAll (s : State) (k : Nat) : State :=
  let current (x : Nat × L1Line) : Bool := match s.l2 (clusterOf k) x.1 with
    | some y => decide (y.wts ≤ x.2.lts)
    | none => false
  s.modCore k fun c => { c with l1d := c.l1d.filter current }

def acquireAll : M Unit := modify fun s => s.acquireAll s.myCore

/-- Whether a scope contains a target reached through an import (R261). -/
def scopeHolds (sc : Scope) (kind : Nat) : Bool :=
  match sc with
  | .sys => true
  | .prt => kind == 0
  | _ => false

/-! ## Banks: core memory and field shared memory -/

/-- 8-byte words that n bytes at an offset touch. -/
def words8 (off n : Nat) : List Nat := (List.range ((off + n - 1) / 8 + 1 - off / 8)).map (off / 8 + ·)

/-- Bytes of a core memory, unless a word of them is poisoned (R132). -/
def cmemRead (k off n : Nat) (va : Nat) : M (List Byte) := do
  let s ← get
  let c := s.core k
  if (words8 off n).any fun w => inList w c.poison then throw (.trap { cause := .ue, tval := BitVec.ofNat 64 va })
  return Mem.readBytes c.cmem off n

/-- A write of core memory; a whole 8-byte word clears its poison (R132). -/
def Core.writeMem (c : Core) (off : Nat) (bs : List Byte) : Core :=
  let whole := (words8 off bs.length).filter fun w => decide (off ≤ 8 * w) && decide (8 * w + 8 ≤ off + bs.length)
  { c with cmem := Mem.writeBytes c.cmem off bs, poison := c.poison.filter fun w => !inList w whole }

/-- Words of 4 bytes that n bytes at an offset touch. -/
def words4 (off n : Nat) : List Nat := (List.range ((off + n - 1) / 4 + 1 - off / 4)).map (off / 4 + ·)

def Core.setFull (c : Core) (off n : Nat) : Core :=
  { c with empties := c.empties.filter fun w => !inList w (words4 off n) }

def Core.setEmpty (c : Core) (off n : Nat) : Core :=
  { c with empties := (words4 off n).foldl (fun l w => addShare l w) c.empties }

def Core.allFull (c : Core) (off n : Nat) : Bool := (words4 off n).all fun w => !inList w c.empties

/-- The reply that a filling gives the first waiting LDF or LDE it satisfies: value, and the core after it. -/
def Core.serveOne (c : Core) : List (Nat × Nat × Nat × Bool) → Option (Nat × BitVec 128 × Core)
  | [] => none
  | (cx, w, n, e) :: t =>
    if c.allFull (4 * w) (4 * n) && !((words8 (4 * w) (4 * n)).any fun x => inList x c.poison) then
      let v := BitVec.ofNat 128 (bytesNat (Mem.readBytes c.cmem (4 * w) (4 * n)))
      let c := if e then c.setEmpty (4 * w) (4 * n) else c
      some (cx, v, { c with fe := c.fe.filter fun x => x.1 != cx })
    else c.serveOne t

/-- Waiting LDF and LDE that fillings satisfy take their values in the order in which they began to wait, before the
bank applies its next operation (R140, R271). -/
def State.serveFrom (s : State) (k : Nat) : Nat → State
  | 0 => s
  | n + 1 =>
    let c := s.core k
    match c.serveOne c.fe with
    | none => s
    | some (cx, v, c') =>
      let s := s.setCore k c'
      (s.modCtx cx fun x => { x with sent := some { id := s.fresh, reply := some (v, 0) } }.wake).serveFrom k n

def State.serveFe (s : State) (k : Nat) : State := s.serveFrom k (s.core k).fe.length

/-- An engine write into core memory sets its words full (R139). -/
def State.engineStore (s : State) (k off : Nat) (bs : List Byte) : State :=
  ((s.serveFe k).modCore k fun c => (c.writeMem off bs).setFull off bs.length).serveFe k

/-- Marks on the 8-byte words that n bytes touch. -/
def marksOn (ms : List Mark) (off n : Nat) : List Mark := ms.filter fun m => inList (m.off / 8) (words8 off n)

/-- The forced publish of marks that an acquire from another core meets: waits until the writes have performed, then
takes their stamps (R258, R259); what a mark of the same core covers is seen. DEDUCED: log entry 19. -/
def forcePublish (ms : List Mark) (except_ : Nat) : M Nat := do
  let s ← get
  let mine := ms.filter fun m => m.core == except_ && m.tid != s.me.task.tid && s.markOpen m
  if !mine.isEmpty then noteSeen (mine.foldl (fun a m => Nat.max a (Nat.max m.n m.after)) 0)
  let ms := ms.filter fun m => m.core != except_
  waitIf (ms.any fun m => s.markOpen m) .memory
  let w := ms.foldl (fun a m => Nat.max a m.stamp) 0
  modify fun s => ms.foldl (fun s m => s.raisePts m.core m.stamp) s
  return w

/-- Removes marks on the words that n bytes touch. -/
def unmark (ms : List Mark) (off n : Nat) : List Mark := ms.filter fun m => !inList (m.off / 8) (words8 off n)

/-- A release to a word publishes another task's mark first (R260). -/
def overMark (ms : List Mark) (off n tid : Nat) : M Unit := do
  let s ← get
  waitIf ((marksOn ms off n).any fun m => m.tid != tid && s.markOpen m) .memory

/-! ## Payload loads of inbox slots (R360) -/

def slotBase (n : Nat) : Nat := 0x2CC00 + 144 * n

/-- A load of payload of an unchecked slot compares EXTN: the slot becomes checked, or FMTMIS. -/
def slotCheck (k off n : Nat) : M Unit := do
  let s ← get
  if k != s.myCore then return ()
  let hit := s.me.task.slots.filter fun o =>
    !o.checked && decide (off < slotBase o.slot + 144) && decide (slotBase o.slot + 16 < off + n)
  if hit.isEmpty then return ()
  for o in hit do
    let ext := (Mem.read (s.core k).cmem (slotBase o.slot + 5)).getLsbD 6
    if ext != s.me.extn then
      throw (.trap { cause := .fmtmis, tval := BitVec.ofNat 64 (localBase + slotBase o.slot) })
  let tick : OwnSlot → OwnSlot := fun o =>
    if hit.any (fun h => h.slot == o.slot) then { o with checked := true } else o
  modMe fun c => { c with task := { c.task with slots := c.task.slots.map tick } }

/-! ## Paged loads -/

/-- A mark of the issuing context on each 8-byte word that n bytes touch. -/
def newMarks (s : State) (off n id : Nat) : List Mark :=
  (words8 off n).map fun w => { off := 8 * w, core := s.myCore, tid := s.me.task.tid, n := id, after := s.me.seen }

/-- What a load takes from stores of other tasks in its core's queue makes them seen (R255). -/
def seeStores (k l : Nat) (be : BitVec 64) : M Unit := do
  let s ← get
  let es := (s.core k).sq.filter fun e => lineKey e.asid e.va == l && e.be &&& be != 0 && e.tid != s.me.task.tid
  if !es.isEmpty then noteSeen (es.foldl (fun a e => Nat.max a (e.n + 1)) 0)

/-- Bytes of a line that the core's store queue holds, newest store last (R120). -/
def State.forwarded (s : State) (k l : Nat) : LineData × BitVec 64 :=
  ((s.core k).sq.filter fun e => lineKey e.asid e.va == l).foldl
    (fun a e => (mergeLine a.1 e.data e.be, a.2 ||| e.be)) (0, 0)

/-- The stamps of a load at the L2 (R122). -/
def L2Line.loadStamp (x : L2Line) (pts len : Nat) : L2Line :=
  { x with rts := Nat.max x.rts (Nat.max (pts + len) (x.wts + len)) }

/-- Puts a line under a lease into the L1D: 256 sets of 4 ways (R120). -/
def Core.fillL1d (c : Core) (l : Nat) (x : L2Line) (n : Nat) : Core :=
  { c with l1d := SMap.put (SMap.makeRoom c.l1d l 4 l1dSet (Config.victim n)) l { data := x.data, lts := x.rts } }

/-- Reads a line at the L2 for a core: merging fill, poison, marks, stamps, L1D copy (R122, R129, R131, R258). An acquire that reads
a word that came from elsewhere has the effect of one at a bank (R257). DEDUCED: log entry 18. -/
def l2Read (k l : Nat) (be : BitVec 64) (acq : Bool) (va n : Nat) : M LineData := do
  let s ← get
  let cl := clusterOf k
  let f := fieldOf k
  match s.l2 cl l with
  | none => do
    waitIf ((s.cluster cl).incoming l) .memory
    set (s.postHome f { id := 0, kind := .rds, cl := cl, core := k, cx := some s.cur, line := l })
    throw (.wait .memory)
  | some x => do
    waitIf x.hold .memory
    if x.poison || (List.range 8).any (fun i => x.pw.getLsbD i && be.extractLsb' (8 * i) 8 != 0) then
      throw (.trap { cause := .ue, tval := BitVec.ofNat 64 va })
    if wordsTouched be &&& ~~~x.valid != 0 then
      set (s.postHome f { id := 0, kind := .merge, cl := cl, core := k, cx := some s.cur, line := l })
      throw (.wait .memory)
    let off := va % 64
    let w ← if acq then forcePublish (marksOn x.marks off n) k else pure 0
    let s ← get
    let x := if acq then { x with marks := x.marks.filter (fun m => m.core == k || !inList (m.off / 8) (words8 off n))
                                  wts := Nat.max x.wts w } else x
    let len := bits ((s.core k).reg 0x9A4) 0 16
    let x := x.loadStamp (s.pts k) len
    let s := (s.setL2 cl l x).raisePts k x.wts
    let s := if x.valid = BitVec.allOnes 16 && x.pw = 0 then
      s.modCore k fun c => c.fillL1d l x s.fresh else s
    set (if acq && x.foreign &&& wordsTouched be != 0 then s.acquireAll k else s)
    return x.data

/-- A read at the cluster L2, never under an L1 lease, after the store queue's bytes (R123, R279). -/
def loadL2 (l va n : Nat) (acq : Bool) : M (List Byte) := do
  let s ← get
  let k := s.myCore
  let (fd, fbe) := s.forwarded k l
  seeStores k l (beOf (va % 64) n)
  let d ← l2Read k l (beOf (va % 64) n &&& ~~~fbe) acq va n
  return lineBytes (mergeLine d fd fbe) (va % 64) n

/-- n bytes of paged memory at va, not beyond its line: store queue, then L1D under its lease, then L2 (R120, R122,
R123). -/
def loadPaged (l va n : Nat) (acq : Bool) : M (List Byte) := do
  let s ← get
  let k := s.myCore
  let be := beOf (va % 64) n
  let (fd, fbe) := s.forwarded k l
  let rest := be &&& ~~~fbe
  let fill (d : LineData) : List Byte := lineBytes (mergeLine d fd fbe) (va % 64) n
  seeStores k l be
  if !acq && rest = 0 then return fill 0
  match SMap.find? (s.core k).l1d l with
  | some x =>
    if !acq && s.pts k ≤ x.lts then return fill x.data
    else do let d ← l2Read k l rest acq va n; return fill d
  | none => do let d ← l2Read k l rest acq va n; return fill d

/-! ## The peer window (R317) -/

/-- Takes the reply of an access that has been sent, or waits for it; none when it has not been sent. -/
def takeReply (key : Nat) : M (Option (BitVec 128 × BitVec 5)) := do
  match (← me).sent with
  | some x => match x.reply with
    | some r => modMe fun c => { c with sent := none, parts := c.parts ++ [(x.key, r)] }
    | none => throw (.wait .memory)
  | none => pure ()
  return ((← me).parts.find? fun p => p.1 == key).map (·.2)

/-- Sends a request through an import slot, or takes its reply. key: the access within the instruction. -/
def peerAsk (slot off : Nat) (op : PeerOp) (key : Nat) : M (BitVec 128 × BitVec 5) := do
  match ← takeReply key with
  | some r => return r
  | none => do
    let s ← get
    let f := s.myField
    let ctl := s.pimCtl f slot
    let src := s.pimSrc f slot
    let id ← freshId
    modMe fun c => { c with sent := some { id := id, key := key, atomic := (match op with
      | .atomic .. => true
      | _ => false) } }
    if pimKind ctl = 2 then
      let n := match op with
        | .load n => n
        | _ => 8
      modify fun s => { s with out := s.out ++ [OutMsg.cxlRead f id ((src.toNat % 2 ^ 48) * 65536 + off) n] }
    else
      modify fun s => s.modField (bits src 44 4) fun fd =>
        { fd with peers := fd.peers ++ [{ id := id, srcField := f, cx := some s.cur
                                          va := peerBase + slot * 2 ^ 45 + off, handle := src.setWidth 32, off := off, op := op, tid := s.me.task.tid }] }
    throw (.wait .memory)

/-- A write to the host through an import slot of a field, for a task or an engine's work (R314). -/
def hostWrite (f slot off : Nat) (bs : List Byte) (tid work : Nat) : M Unit := do
  let id ← freshId
  modify fun s =>
    { s.modField f fun fd => { fd with hostWrs := fd.hostWrs ++ [(id, tid, work)] } with
      out := s.out ++ [OutMsg.cxlWrite f id (((s.pimSrc f slot).toNat % 2 ^ 48) * 65536 + off) bs] }

/-- Posts a store through an import slot. -/
def peerStore (slot off : Nat) (bs : List Byte) : M Unit := do
  let s ← get
  let f := s.myField
  let ctl := s.pimCtl f slot
  let src := s.pimSrc f slot
  if pimKind ctl = 2 then hostWrite f slot off bs s.me.task.tid 0
  else
    let id ← freshId
    modify fun s => s.modField (bits src 44 4) fun fd =>
      { fd with peers := fd.peers ++ [{ id := id, srcField := f, cx := none, handle := src.setWidth 32
                                        off := off, op := .store bs, tid := s.me.task.tid }] }

/-- The runs of enabled bytes of a word, with their offsets in it. -/
def byteRuns (bs : List Byte) (be : BitVec 8) : List (Nat × List Byte) :=
  ((List.range 8).filter be.getLsbD).foldr (fun i rs => match rs with
    | (j, l) :: t => if j = i + 1 then (i, bs.getD i 0 :: l) :: t else (i, [bs.getD i 0]) :: rs
    | [] => [(i, [bs.getD i 0])]) []

/-- Posts a store of the enabled bytes of an aligned 8-byte word through an import slot (R253). -/
def peerStoreWord (slot off : Nat) (bs : List Byte) (be : BitVec 8) : M Unit := do
  let s ← get
  let f := s.myField
  let src := s.pimSrc f slot
  if pimKind (s.pimCtl f slot) = 2 then
    for r in byteRuns bs be do hostWrite f slot (off + r.1) r.2 s.me.task.tid 0
  else
    let id ← freshId
    modify fun s => s.modField (bits src 44 4) fun fd =>
      { fd with peers := fd.peers ++ [{ id := id, srcField := f, cx := none, handle := src.setWidth 32
                                        off := off, op := .storeWord be bs, tid := s.me.task.tid }] }

/-- The effect of an order annotation on an access beyond the field: kept, or dropped with SCOPEW set (R261). -/
def orderBeyond (slot : Nat) (ord : Option Scope) : M (Option Scope) := do
  let s ← get
  match ord with
  | none => return none
  | some sc =>
    if scopeHolds sc (pimKind (s.pimCtl s.myField slot)) then return some sc
    else do
      modMe Ctx.setScopeW
      return none

/-! ## mem_rd and mem_wr -/

/-- Reads n bytes at a checked place. acq: the scope of an acquire; key: the access within the instruction. -/
def readAt (sp : Space) (asid : BitVec 16) (va n : Nat) (acq : Option Scope) (key : Nat := 0) : M (List Byte) := do
  let s ← get
  match sp with
  | .paged => loadPaged (lineKey asid va) va n acq.isSome
  | .core k off => do
    if acq.isSome then
      let _ ← forcePublish (marksOn (s.core k).cmarks off n) s.myCore
      modify fun s => s.modCore k fun c =>
        { c with cmarks := c.cmarks.filter fun m => m.core == s.myCore || !inList (m.off / 8) (words8 off n) }
    modify fun s => s.serveFe k
    slotCheck k off n
    let bs ← cmemRead k off n va
    if acq.isSome then acquireAll
    return bs
  | .shared off => do
    if acq.isSome then
      let _ ← forcePublish (marksOn (s.field s.myField).shmMarks off n) s.myCore
      modify fun s => s.modField s.myField fun f =>
        { f with shmMarks := f.shmMarks.filter fun m => m.core == s.myCore || !inList (m.off / 8) (words8 off n) }
      acquireAll
    return Mem.readBytes (s.field s.myField).shm off n
  | .peer slot off => do
    let o ← orderBeyond slot acq
    let r ← peerAsk slot off (.load n) key
    if o.isSome then acquireAll
    return natBytes r.1.toNat n
  | .hole => throw (.trap { cause := .bounds, tval := BitVec.ofNat 64 va })

/-- Queues a store to paged memory (R120). DEDUCED: log entry 26. -/
def pushStore (asid : BitVec 16) (va : Nat) (data : LineData) (be : BitVec 64) (rel : Option Scope) : M Unit := do
  let n ← freshId
  modify fun s => s.modCore s.myCore fun c =>
    { c with sq := c.sq ++ [{ cx := s.cur, tid := s.me.task.tid, va := va, asid := asid, data := data, be := be
                              rel := rel, n := n, after := s.me.seen }] }

/-- A word of a store: address, bytes placed in its line, byte enables. -/
abbrev StoreWord := Nat × LineData × BitVec 64

/-- Bytes that do not cross a line, as a word of a store. -/
def storeWord (va : Nat) (bs : List Byte) : StoreWord := (va, placeBytes bs (va % 64), beOf (va % 64) bs.length)

/-- The 8-byte words of a store, each of which performs by itself (R254). -/
def splitWords (va : Nat) (bs : List Byte) : List StoreWord :=
  if bs.length ≤ 8 then [storeWord va bs]
  else (List.range (bs.length / 8)).map fun i => storeWord (va + 8 * i) ((bs.drop (8 * i)).take 8)

/-- Queues the words of a store under an ASID. -/
def pushAll (asid : BitVec 16) (rel : Option Scope) : List StoreWord → M Unit
  | [] => pure ()
  | (va, d, be) :: t => do
    pushStore asid va d be rel
    pushAll asid rel t

/-- Queues the words of a store, which perform one by one, in either order (R254). DEDUCED: log entry 26. -/
def pushStores (asid : BitVec 16) (rel : Option Scope) (ws : List StoreWord) : M Unit := do
  let s ← get
  pushAll asid rel (if ws.length ≤ 1 || Config.choice s.fresh then ws else ws.reverse)

/-- Writes bytes at a checked place. rel: the scope of a release. -/
def writeAt (sp : Space) (asid : BitVec 16) (va : Nat) (bs : List Byte) (rel : Option Scope) : M Unit := do
  let s ← get
  let n := bs.length
  let t := s.me.task.tid
  match sp with
  | .paged => do
    let r : Option Scope := match rel with
      | none => none
      | some .core => if Config.choice s.fresh then some .core else some .clu
      | some sc => some sc
    if rel = some .prt ∨ rel = some .sys then drainStores (rel.getD .sys)
    pushStores asid r (splitWords va bs)
  | .core k off => do
    let mark ← match rel with
      | none => pure false
      | some sc => do overMark (s.core k).cmarks off n t; releaseMarks sc
    let id ← if mark then freshId else pure 0
    modify fun s => s.serveFe k
    modify fun s => s.modCore k fun c =>
      let c := c.writeMem off bs
      if mark then { c with cmarks := unmark c.cmarks off n ++ newMarks s off n id }
      else if rel.isSome then { c with cmarks := unmark c.cmarks off n } else c
  | .shared off => do
    let mark ← match rel with
      | none => pure false
      | some sc => do overMark (s.field s.myField).shmMarks off n t; releaseMarks sc
    let id ← if mark then freshId else pure 0
    modify fun s => s.modField s.myField fun f =>
      let f := { f with shm := Mem.writeBytes f.shm off bs }
      if mark then { f with shmMarks := unmark f.shmMarks off n ++ newMarks s off n id }
      else if rel.isSome then { f with shmMarks := unmark f.shmMarks off n } else f
  | .peer slot off => do
    match ← orderBeyond slot rel with
    | none => pure ()
    | some sc => drainStores sc
    peerStore slot off bs
  | .hole => throw (.trap { cause := .bounds, tval := BitVec.ofNat 64 va })

/-- A part of an access has been performed: its value is kept until the instruction ends. -/
def Ctx.keepPart (c : Ctx) (e : Nat) (r : BitVec 128 × BitVec 5) : Ctx :=
  if c.parts.any fun p => p.1 == e then c else { c with parts := c.parts ++ [(e, r)] }

/-- A place further on. -/
def Space.plus (sp : Space) (n : Nat) : Space :=
  match sp with
  | .core k off => .core k (off + n)
  | .shared off => .shared (off + n)
  | .peer slot off => .peer slot (off + n)
  | sp => sp

/-- The read of LDP: two words, each single-copy atomic by itself. Other accesses may come between them (R254), as the choice of
the hardware has it. DEDUCED: log entry 26. -/
def readPair (sp : Space) (asid : BitVec 16) (va : Nat) (acq : Option Scope) : M Nat := do
  let high (lo : Nat) : M Nat := do return lo + 2 ^ 64 * bytesNat (← readAt (sp.plus 8) asid (va + 8) 8 acq 1)
  match (← me).parts.find? fun p => p.1 == 0 with
  | some p => high p.2.1.toNat
  | none => do
    let lo := bytesNat (← readAt sp asid va 8 acq)
    if Config.choice (← get).fresh then
      modMe fun c => c.keepPart 0 (BitVec.ofNat 128 lo, 0)
      throw (.wait .memory)
    high lo

/-- mem_rd: n bytes, naturally aligned. -/
def memRd (va n : Nat) (acq : Option Scope) : M Nat := do
  let (sp, a) ← access va n n .load
  return bytesNat (← readAt sp a va n acq)

/-- mem_wr: n bytes, naturally aligned. -/
def memWr (va n x : Nat) (rel : Option Scope) : M Unit := do
  let (sp, a) ← access va n n .store
  writeAt sp a va (natBytes x n) rel

/-- g[OPA] + sext(IMM) (R267). -/
def effAddr (c : Ctx) (r : GReg) (e : BitVec 32) : Nat := (c.rg r + e.signExtend 64).toNat

end Sys2Proof.Machine
end

