-- ==== Sys2Proof/Machine/Issue.lean ====
section
/-! DEFINITION. The frame of every instruction: privilege, guard, effect, where pc goes, the :yld hint, and what a trap
or a wait leaves (R170, R174, R176, R376). -/

namespace Sys2Proof.Machine

/-- State of entry n of the frame list (R382). -/
def Core.frameState (c : Core) (n : Nat) : Nat := (Mem.read c.cmem (0x2F800 + 32 * n + 12)).toNat

/-- The lowest FREE entry of the frame list. -/
def Core.freeEntry (c : Core) : Option Nat := (List.range 16).find? fun n => c.frameState n == 1

/-- A save of the context can begin: a frame-list entry is FREE, or the member is to be discarded (R285, R386). -/
def State.canSave (s : State) (c : Nat) : Bool :=
  ((s.core (coreOf c)).freeEntry).isSome || (s.ctx c).task.stop

/-- Frame ASID and key ID of a core's saves (R382). -/
def Core.frameWord (c : Core) : Word := BitVec.ofNat 64 (bytesNat (Mem.readBytes c.cmem 0x2FA00 8))
def Core.frameAsid (c : Core) : BitVec 16 := c.frameWord.setWidth 16
def Core.frameKey (c : Core) : BitVec 8 := c.frameWord.extractLsb' 56 8

/-- Frame address of an entry of the frame list, and its save number. -/
def Core.frameAddr (c : Core) (n : Nat) : Nat := bytesNat (Mem.readBytes c.cmem (0x2F800 + 32 * n) 8)
def Core.frameNum (c : Core) (n : Nat) : Nat := bytesNat (Mem.readBytes c.cmem (0x2F808 + 32 * n) 4)

/-- A context begins a save (R381): the lowest FREE entry of the frame list becomes SAVED (R382); a member that has been
stopped is discarded before its next instruction instead (R386). reqs: the requests at the rim that its instruction has
waited on. -/
def State.beginSave (s : State) (c reason : Nat) (reqs : List Nat) : State :=
  let k := coreOf c
  let co := s.core k
  if (s.ctx c).task.stop then s.modCtx c fun x => { x with yieldDue := true }
  else match co.freeEntry with
  | none => s
  | some n =>
    let v : Saving := { reason := reason, entry := some n, asid := co.frameAsid, key := co.frameKey, addr := co.frameAddr n, reqs := reqs }
    (s.modCore k fun co => co.writeMem (0x2F80C + 32 * n) [2]).modCtx c fun x => { x with saving := some v, yieldDue := false }

/-- The :yld hint after an instruction has completed: with PREQ set the context yields before its next instruction (R174).
DEDUCED: log entry 43. -/
def yldAfter (h : Hdr) (s : State) : State :=
  if h.yld && s.me.preq && s.canSave s.cur then s.setMe { s.me with yieldDue := true } else s

/-- An instruction whose guard is false only advances pc (R170). -/
def State.skip (s : State) : State := s.setMe { s.me.advance with st := .ready }

/-- Runs the effect of an instruction whose guard is true. -/
def execute (h : Hdr) (body : M Flow) (s : State) : Out :=
  match body s with
  | .ok f s' => .next (yldAfter h (s'.setMe (f.pc { s'.me with st := .ready, parts := [], vec := false })))
  | .error (.trap t) _ => .next (s.takeTrap s.cur t)
  | .error (.wait w) s' => .next (s'.setMe { s'.me with st := .waiting w })
  | .error .late s' => .next (s'.takeLate s'.cur)
  | .error (.fail ..) _ => .next s

/-- An instruction: its guard, then its effect. -/
def runIsa (h : Hdr) (body : M Flow) (s : State) : Out :=
  if Hdr.holds h s.me then execute h body s else .next (yldAfter h s.skip)

/-- An instruction without a guard. -/
def runFree (h : Hdr) (body : M Flow) (s : State) : Out := execute h body s

/-- PRIV with the instruction's bits [95:32] (Table 18-3). -/
def privTrap (i : Instr) : Trap := { cause := .priv, tval := i.tvalBits }

/-- A privileged instruction: PRIV at task level, before the guard (R176). -/
def runPriv (i : Instr) (h : Hdr) (body : M Flow) (s : State) : Out :=
  if s.me.lvl then runIsa h body s else .next (s.takeTrap s.cur (privTrap i))

/-- An instruction that only changes the registers of its context: the context before gives the context after. -/
def runReg (h : Hdr) (f : Ctx → Ctx) (s : State) : Out :=
  if Hdr.holds h s.me then .next (yldAfter h (s.setMe { (f s.me).advance with st := .ready })) else .next (yldAfter h s.skip)

/-! ## Results of open windows (R173) -/

/-- A register that an open window names awaits its result: the status of an item, or a queued matrix instruction. -/
def State.unresolved (s : State) (c : Nat) : Bool :=
  let x := s.ctx c
  x.windows.any fun w => w.olds.any fun o => match o.1 with
    | .g n => n != 0 && x.pend.any fun p => p.1 == n
    | .a _ => (s.core (coreOf c)).mq.any fun e => e.tid == x.task.tid
    | _ => false

/-! ## The issue checks (R164, R176) -/

/-! ### Numbers and levels (Table 08-2 and the tables of each chapter) -/

/-- a ≤ n ≤ b. -/
def within (a b n : Nat) : Bool := decide (a ≤ n) && decide (n ≤ b)

/-- The number of a register of a context. -/
def ctxReg (n : Nat) : Bool := within 0x000 0x004 n || n == 0x052 || within 0x0C0 0x0C9 n

/-- The number of a register of a core. -/
def coreReg (n : Nat) : Bool := within 0x044 0x046 n || n == 0x050 || n == 0x051 || n == 0x080 || within 0x9A0 0x9A4 n

/-- The number of a register of a field, or of its cluster, partition or module as a field reads it. -/
def fieldReg (n : Nat) : Bool :=
  within 0x040 0x043 n || within 0x047 0x04C n || n == 0x081 || within 0x900 0x942 n || within 0x960 0x966 n ||
    within 0x980 0x982 n || n == 0x9C0 || within 0xA00 0xA04 n || within 0xA08 0xA0A n || within 0xA0C 0xA0E n ||
    within 0xA10 0xA13 n || within 0xA40 0xA7F n || within 0xA80 0xA84 n || within 0xA88 0xA91 n || within 0xA98 0xA9A n

/-- The manual defines the number (R164). -/
def regDefined (n : Nat) : Bool := ctxReg n || coreReg n || fieldReg n

/-- Task level may read it (Table 08-3, R126, R137, R247, R308, R358, R375). -/
def taskRead (n : Nat) : Bool :=
  within 0x000 0x004 n || within 0x050 0x052 n || n == 0x080 || n == 0x081 || n == 0x0C1 || within 0x0C6 0x0C8 n ||
    within 0x9A0 0x9A4 n || n == 0xA00

/-- Task level may write it, or the write is ignored. -/
def taskWrite (n : Nat) : Bool :=
  n == 0x000 || n == 0x001 || n == 0x003 || n == 0x004 || n == 0x080 || n == 0x081 || n == 0x0C1 || within 0x0C6 0x0C8 n ||
    within 0x9A0 0x9A3 n

/-- The register checks of SRD and SWR, which come before the guard (R164, R176): ILLOP, then PRIV.
DEDUCED: log entry 41. -/
def regTrap (i : Instr) (num : Nat) (task : Bool) (c : Ctx) : Option Trap :=
  if !regDefined num then some { cause := .illop, tval := i.tvalBits }
  else if !c.lvl && !task then some (privTrap i)
  else none

/-- The trap of the checks that come before the guard, for an instruction that has been decoded (R176). -/
def issueTrap (i : Instr) (c : Ctx) : Option Trap :=
  match i with
  | .cxsave .. | .cxload .. | .kill .. | .krevoke .. | .halt .. => if c.lvl then none else some (privTrap i)
  | .srd _ _ num => regTrap i num.toNat (taskRead num.toNat) c
  | .swr _ num _ => regTrap i num.toNat (taskWrite num.toNat) c
  | _ => none

/-! ## The sequence ring (R378) -/

/-- The oldest of 64 entries is still pending: dispatch waits. -/
def Ctx.ringFull (c : Ctx) : Bool :=
  decide (64 ≤ c.ring.length) && ((c.ring[c.ring.length - 64]?).map (·.st)) == some .pending

/-- Takes the next entry of the ring, whose number and pc are the instruction's. A fault that has not been taken is not lost
when its entry is overwritten (R379). DEDUCED: log entry 46. -/
def Ctx.pushEntry (c : Ctx) (e : SeqEntry) : Ctx :=
  { c with
    ring := (c.ring.take (c.ring.length - 63)).filter (·.untaken) ++ c.ring.drop (c.ring.length - 63) ++ [{ e with seq := c.nextSeq, pc := c.pc }]
    nextSeq := c.nextSeq + 1 }

def Ctx.pushSeq (c : Ctx) (st : SeqState) (dst : Option RegRef) : Ctx := c.pushEntry { seq := 0, st := st, dst := dst }

/-- An entry that records a late fault not yet taken (R379). -/
def Ctx.pushLate (c : Ctx) (dst : Option RegRef) (t : Trap) (progress : Nat) : Ctx :=
  c.pushEntry { seq := 0, st := .faulted, code := t.cause.code, progress := BitVec.ofNat 16 progress, addr := t.tval
                untaken := true, dst := dst }

/-- A vector instruction: an operand-value check, an entry in the ring, and a change of its context's registers
(R212). -/
def runVec (h : Hdr) (i : Instr) (bad : Bool) (dst : RegRef) (f : Ctx → Ctx) (s : State) : Out :=
  if Hdr.holds h s.me then
    if bad then .next (s.takeTrap s.cur { cause := .illop, tval := i.tvalBits })
    else if s.me.ringFull then .next (s.setMe { s.me with st := .waiting .items })
    else .next (yldAfter h (s.setMe { (f (s.me.pushSeq .done (some dst))).advance with st := .ready }))
  else .next (yldAfter h s.skip)

end Sys2Proof.Machine
end

