-- ==== Sys2Proof/Machine/Operands.lean ====
section
/-! DEFINITION. Operand values, and the registers that each instruction reads and writes (R171, R172, R188, R198, R211,
R226, R295). -/

namespace Sys2Proof.Machine

/-! ## Values -/

/-- Operand B of a scalar form: g, or sext(IMM) (R188). -/
def GI.sval (b : GI) (c : Ctx) : Word :=
  match b with
  | .reg r => c.rg r
  | .imm v => v.signExtend 64

/-- Operand B where the immediate is zero-extended (R356). -/
def GI.uval (b : GI) (c : Ctx) : Word :=
  match b with
  | .reg r => c.rg r
  | .imm v => v.setWidth 64

/-- A predicate source with its inversion (R200). -/
def PSrc.val (x : PSrc) (c : Ctx) : Bool := c.rp x.p != x.neg

def PB.val (x : PB) (c : Ctx) : Bool :=
  match x with
  | .pred y => PSrc.val y c
  | .imm b => b

/-! ## Registers named -/

def gr (r : GReg) : RegRef := .g r.toNat
def vr (r : VReg) : RegRef := .v r.toNat
def qr (r : QReg) : RegRef := .q r.toNat
def ar (r : AReg) : RegRef := .a r.toNat

def GI.regs : GI → List RegRef
  | .reg r => [gr r]
  | .imm _ => []
def GI16.regs : GI16 → List RegRef
  | .reg r => [gr r]
  | .imm _ => []
def VB.regs : VB → List RegRef
  | .v x => [vr x.v]
  | .g r => [gr r]
  | .imm _ => []
def VG.regs : VG → List RegRef
  | .v x => [vr x.v]
  | .g r => [gr r]
def PMovSrc.regs : PMovSrc → List RegRef
  | .g r _ => [gr r]
  | .pred _ => []

/-- The mask of a vector form, and vd where inactive lanes keep its elements (R211). -/
def VMask.regs (m : VMask) (d : VReg) : List RegRef := if m.z then [qr m.msk] else [qr m.msk, vr d]

/-- Registers read: g, v, q and a. -/
def Instr.reads : Instr → List RegRef
  | .add _ _ _ a b | .sub _ _ _ a b | .mul _ _ _ a b | .mulh _ _ _ a b | .mulhu _ _ _ a b | .div _ _ _ a b
  | .divu _ _ _ a b | .rem _ _ _ a b | .remu _ _ _ a b | .and _ _ _ a b | .or _ _ _ a b | .xor _ _ _ a b
  | .andn _ _ _ a b | .orn _ _ _ a b | .shl _ _ _ a b | .shr _ _ _ a b | .sar _ _ _ a b | .rol _ _ _ a b
  | .ror _ _ _ a b | .min _ _ _ a b | .max _ _ _ a b | .minu _ _ _ a b | .maxu _ _ _ a b => gr a :: GI.regs b
  | .clz _ _ _ a | .ctz _ _ _ a | .popc _ _ _ a | .brev _ _ _ a | .bswap _ _ _ a => [gr a]
  | .sext _ _ a b | .zext _ _ a b | .bfx _ _ a b => gr a :: GI.regs b
  | .bfi _ d a b => gr d :: gr a :: GI.regs b
  | .lea _ _ a b _ => gr a :: GI.regs b
  | .sel _ _ a b _ => [gr a, gr b]
  | .mov _ _ a => [gr a]
  | .movhi _ d _ => [gr d]
  | .cmp _ _ _ _ a b => gr a :: GI.regs b
  | .pmov _ _ a => PMovSrc.regs a
  | .jmp _ a _ | .jmpl _ _ a _ | .ret _ a => [gr a]
  | .loop _ d _ => [gr d]
  | .brt _ a b _ => [gr a, gr b]
  | .ld _ _ _ _ _ a _ | .ldp _ _ _ a _ | .ldf _ _ _ a _ | .lde _ _ _ a _ | .sete _ _ a _ | .pref _ a _
  | .cflush _ a _ | .cinv _ _ a _ | .czero _ a _ => [gr a]
  | .st _ _ _ x a _ | .stf _ _ x a _ => [gr x, gr a]
  | .stp _ _ x a _ => [gr x, gr (x + 1), gr a]
  | .aadd _ _ _ a b _ | .amin _ _ _ a b _ | .amax _ _ _ a b _ | .aminu _ _ _ a b _ | .amaxu _ _ _ a b _
  | .aand _ _ _ a b _ | .aor _ _ _ a b _ | .axor _ _ _ a b _ | .aswp _ _ _ a b _ | .afadd _ _ _ a b _
  | .ainc _ _ _ a b _ => [gr a, gr b]
  | .acas _ _ d a b _ => [gr a, gr b, gr d]
  | .acas2 _ _ d a b _ => [gr a, gr b, gr (b + 1), gr d, gr (d + 1)]
  | .waita _ _ _ _ _ _ a b _ => [gr a, gr b]
  | .waitn _ b => GI.regs b
  | .barset _ _ a _ | .barwait _ _ a _ => [gr a]
  | .vadd _ _ m _ d x y | .vsub _ _ m _ d x y => vr x.v :: VB.regs y ++ VMask.regs m d
  | .vmul _ _ m d x y | .vmulh _ _ m d x y | .vmin _ _ m d x y | .vmax _ _ m d x y | .vminu _ _ m d x y
  | .vmaxu _ _ m d x y | .vand _ _ m d x y | .vor _ _ m d x y | .vxor _ _ m d x y | .vshl _ _ m d x y
  | .vshr _ _ m d x y | .vsar _ _ m d x y | .vsel _ _ m d x y => vr x.v :: VB.regs y ++ VMask.regs m d
  | .vabs _ _ m _ d x | .vneg _ _ m _ d x => vr x.v :: VMask.regs m d
  | .vcmp _ _ _ m d x y => vr x.v :: qr d :: qr m.msk :: VB.regs y
  | .vpopc _ _ m d x => vr x.v :: VMask.regs m d
  | .vfadd _ _ _ m d x y | .vfsub _ _ _ m d x y | .vfmul _ _ _ m d x y | .vfdiv _ _ _ m d x y =>
    vr x.v :: VG.regs y ++ VMask.regs m d
  | .vfma _ _ _ m d x y | .vfms _ _ _ m d x y | .vfnma _ _ _ m d x y => vr d :: vr x.v :: qr m.msk :: VG.regs y
  | .vfsqrt _ _ _ m d x | .vfrcp _ _ _ m d x | .vfrsq _ _ _ m d x | .vfexp2 _ _ _ m d x | .vflog2 _ _ _ m d x =>
    vr x.v :: VMask.regs m d
  | .vfmin _ _ m d x y | .vfmax _ _ m d x y => vr x.v :: VG.regs y ++ VMask.regs m d
  | .vfcmp _ _ _ m d x y => vr x.v :: qr d :: qr m.msk :: VG.regs y
  | .vfclass _ _ m d x => vr x.v :: VMask.regs m d
  | .vfcvt _ _ _ m _ _ _ d x => [vr x.v, vr d, qr m.msk]
  | .vfscl _ _ _ m _ _ d x y => vr x.v :: vr y :: VMask.regs m d
  | .vradd _ _ q _ x | .vrmin _ _ q _ _ x | .vrmax _ _ q _ _ x | .vfradd _ _ _ q _ x | .vfrmax _ _ q _ x =>
    [vr x.v, qr q]
  | .vperm _ _ m d x y | .vzip _ _ m _ d x y | .vunzip _ _ m _ d x y => vr x.v :: vr y.v :: VMask.regs m d
  | .vslide _ _ m d x k => vr x.v :: GI16.regs k ++ VMask.regs m d
  | .vbcast _ _ m d a => gr a :: VMask.regs m d
  | .vext _ _ _ x k => vr x.v :: GI16.regs k
  | .vins _ _ d a k => vr d :: gr a :: GI16.regs k
  | .vcmpr _ _ m d x | .vexpd _ _ m d x => [vr x.v, vr d, qr m.msk]
  | .viota _ _ m d => VMask.regs m d
  | .qand _ _ a b | .qor _ _ a b | .qxor _ _ a b => [qr a, qr b]
  | .qnot _ _ a | .qcnt _ _ _ a => [qr a]
  | .vld _ _ m d a _ | .vldf _ _ m d a _ => gr a :: VMask.regs m d
  | .vst _ _ q x a _ => [qr q, vr x, gr a]
  | .vlds _ _ m d a b _ => gr a :: gr b :: VMask.regs m d
  | .vsts _ _ q x a b _ => [qr q, vr x, gr a, gr b]
  | .vgath _ _ m _ d a x _ => gr a :: vr x :: VMask.regs m d
  | .vscat _ _ q _ y a x _ => [qr q, vr y, gr a, vr x]
  | .vamo _ _ m _ _ _ _ _ d a x _ => [vr d, gr a, vr x, qr m.msk]
  | .mma _ _ _ d a b _ => [ar d, gr a, gr b]
  | .mcnt _ _ _ a b _ _ => [gr a, gr b]
  | .mdrain _ d _ => [ar d]
  | .mld _ _ d a b _ _ | .mst _ _ _ _ d a b _ _ => [ar d, gr a, gr b]
  | .mscl _ a b _ _ _ _ => [gr a, gr b]
  | .mbcast _ _ a b _ _ _ => [gr a, gr b]
  | .mqw _ b => GI.regs b
  | .tdecl _ _ a b _ | .tfwd _ _ a b _ => [gr a, gr b]
  | .trel _ _ a | .town _ _ a | .tqry _ _ a => [gr a]
  | .cpy _ _ a _ | .cchain _ a _ => [gr a]
  | .put _ _ _ _ a b _ _ _ => [gr a, gr (a + 1), gr b]
  | .putv _ _ _ _ a b _ _ _ => [gr a, gr (a + 1), vr b]
  | .ramo _ op _ _ _ d a b _ =>
    match op with
    | .cas => [gr a, gr b, gr d]
    | .cas2 => [gr a, gr b, gr (b + 1), gr d, gr (d + 1)]
    | _ => [gr a, gr b]
  | .send _ a b _ => [gr a, gr b]
  | .sendv _ a b _ => [gr a, vr b]
  | .pcfg _ _ a _ | .jcfg _ _ a _ | .mtake _ _ a _ _ | .mreplay _ _ a => [gr a]
  | .jena _ _ b | .jdis _ _ b | .sqcfg _ b | .stlcfg _ b => GI.regs b
  | .spawn _ _ a b _ | .carm _ _ a b _ => [gr a, gr b]
  | .cdec _ _ a b => gr a :: GI.regs b
  | .swr _ _ b => [gr b]
  | .cxsave _ _ a _ | .cxload _ _ a _ | .seqrd _ _ a _ => [gr a]
  | .kill _ _ a b | .krevoke _ _ a b => [gr a, gr b]
  | _ => []

/-- Registers written: g, v, q and a. -/
def Instr.writes : Instr → List RegRef
  | .add _ _ d _ _ | .sub _ _ d _ _ | .mul _ _ d _ _ | .mulh _ _ d _ _ | .mulhu _ _ d _ _ | .div _ _ d _ _
  | .divu _ _ d _ _ | .rem _ _ d _ _ | .remu _ _ d _ _ | .and _ _ d _ _ | .or _ _ d _ _ | .xor _ _ d _ _
  | .andn _ _ d _ _ | .orn _ _ d _ _ | .shl _ _ d _ _ | .shr _ _ d _ _ | .sar _ _ d _ _ | .rol _ _ d _ _
  | .ror _ _ d _ _ | .min _ _ d _ _ | .max _ _ d _ _ | .minu _ _ d _ _ | .maxu _ _ d _ _ => [gr d]
  | .clz _ _ d _ | .ctz _ _ d _ | .popc _ _ d _ | .brev _ _ d _ | .bswap _ _ d _ => [gr d]
  | .sext _ d _ _ | .zext _ d _ _ | .bfx _ d _ _ | .bfi _ d _ _ | .lea _ d _ _ _ | .sel _ d _ _ _ | .mov _ d _
  | .movi _ d _ | .movhi _ d _ | .pget _ d | .brl _ d _ | .jmpl _ d _ _ | .loop _ d _ => [gr d]
  | .ld _ _ _ _ d _ _ | .ldf _ _ d _ _ | .lde _ _ d _ _ => [gr d]
  | .ldp _ _ d _ _ => [gr d, gr (d + 1)]
  | .aadd _ _ d _ _ _ | .amin _ _ d _ _ _ | .amax _ _ d _ _ _ | .aminu _ _ d _ _ _ | .amaxu _ _ d _ _ _
  | .aand _ _ d _ _ _ | .aor _ _ d _ _ _ | .axor _ _ d _ _ _ | .aswp _ _ d _ _ _ | .acas _ _ d _ _ _
  | .afadd _ _ d _ _ _ | .ainc _ _ d _ _ _ => [gr d]
  | .acas2 _ _ d _ _ _ => [gr d, gr (d + 1)]
  | .waita _ _ _ _ _ d _ _ _ | .barset _ d _ _ | .bararr _ d _ | .barwait _ d _ _ | .chk _ d => [gr d]
  | .vadd _ _ _ _ d _ _ | .vsub _ _ _ _ d _ _ => [vr d]
  | .vmul _ _ _ d _ _ | .vmulh _ _ _ d _ _ | .vmin _ _ _ d _ _ | .vmax _ _ _ d _ _ | .vminu _ _ _ d _ _
  | .vmaxu _ _ _ d _ _ | .vand _ _ _ d _ _ | .vor _ _ _ d _ _ | .vxor _ _ _ d _ _ | .vshl _ _ _ d _ _
  | .vshr _ _ _ d _ _ | .vsar _ _ _ d _ _ | .vsel _ _ _ d _ _ => [vr d]
  | .vabs _ _ _ _ d _ | .vneg _ _ _ _ d _ | .vpopc _ _ _ d _ => [vr d]
  | .vcmp _ _ _ _ d _ _ | .vfcmp _ _ _ _ d _ _ => [qr d]
  | .vfadd _ _ _ _ d _ _ | .vfsub _ _ _ _ d _ _ | .vfmul _ _ _ _ d _ _ | .vfma _ _ _ _ d _ _ | .vfms _ _ _ _ d _ _
  | .vfnma _ _ _ _ d _ _ | .vfdiv _ _ _ _ d _ _ => [vr d]
  | .vfsqrt _ _ _ _ d _ | .vfrcp _ _ _ _ d _ | .vfrsq _ _ _ _ d _ | .vfexp2 _ _ _ _ d _ | .vflog2 _ _ _ _ d _ => [vr d]
  | .vfmin _ _ _ d _ _ | .vfmax _ _ _ d _ _ | .vfclass _ _ _ d _ => [vr d]
  | .vfcvt _ _ _ _ _ _ _ d _ | .vfscl _ _ _ _ _ _ d _ _ => [vr d]
  | .vradd _ _ _ d _ | .vrmin _ _ _ _ d _ | .vrmax _ _ _ _ d _ | .vfradd _ _ _ _ d _ | .vfrmax _ _ _ d _
  | .vext _ _ d _ _ | .qcnt _ _ d _ => [gr d]
  | .vperm _ _ _ d _ _ | .vzip _ _ _ _ d _ _ | .vunzip _ _ _ _ d _ _ | .vslide _ _ _ d _ _ | .vbcast _ _ _ d _
  | .vins _ _ d _ _ | .vcmpr _ _ _ d _ | .vexpd _ _ _ d _ | .viota _ _ _ d => [vr d]
  | .qand _ d _ _ | .qor _ d _ _ | .qxor _ d _ _ | .qnot _ d _ => [qr d]
  | .vld _ _ _ d _ _ | .vldf _ _ _ d _ _ | .vlds _ _ _ d _ _ _ | .vgath _ _ _ _ d _ _ _
  | .vamo _ _ _ _ _ _ _ _ d _ _ _ => [vr d]
  | .mma _ _ _ d _ _ _ | .mdrain _ d _ | .mzero _ d | .mld _ _ d _ _ _ _ => [ar d]
  | .mcfg _ d _ _ | .mbcast _ d _ _ _ _ _ => [gr d]
  | .tdecl _ d _ _ _ | .trel _ d _ | .tfwd _ d _ _ _ | .town _ d _ | .tqry _ d _ => [gr d]
  | .cpy _ d _ _ | .ccancel _ d _ _ | .cqry _ d _ => [gr d]
  | .put _ _ _ d _ _ _ _ _ | .putv _ _ _ d _ _ _ _ _ => [gr d]
  | .ramo _ op _ _ _ d _ _ _ => if op = .cas2 then [gr d, gr (d + 1)] else [gr d]
  | .pcfg _ d _ _ | .jcfg _ d _ _ | .jena _ d _ | .jdis _ d _ | .mtake _ d _ _ _ | .mreplay _ d _ | .spawn _ d _ _ _
  | .carm _ d _ _ _ | .cdec _ d _ _ => [gr d]
  | .joinw _ d _ _ => [gr d, gr (d + 1), gr (d + 2), gr (d + 3)]
  | .srd _ d _ | .rdtime _ d _ | .cxsave _ d _ _ | .cxload _ d _ _ | .kill _ d _ _ | .krevoke _ d _ _ | .enrg _ d
  | .seqrd _ d _ _ => [gr d]
  | _ => []

end Sys2Proof.Machine
end

