-- ==== Sys2Proof/Machine/Flags.lean ====
section
/-! DEFINITION. Conditions and flags: the eight conditions of CMP at any width, their floating-point readings, and the
gathering of flags into FSTAT (R59, R201, R219). -/

namespace Sys2Proof.Machine

/-- A condition on two w-bit patterns (R201). -/
def Cond.test (c : Cond) (w a b : Nat) : Bool :=
  let ua := a % 2 ^ w
  let ub := b % 2 ^ w
  match c with
  | .eq => ua == ub
  | .ne => ua != ub
  | .lt => decide (signed w a < signed w b)
  | .ge => decide (signed w b ≤ signed w a)
  | .ltu => decide (ua < ub)
  | .geu => decide (ub ≤ ua)
  | .bits => ua &&& ub != 0
  | .nbits => ua &&& ub == 0

/-- Flags of a list of results, together. -/
def allFlags (l : List (Nat × BitVec 5)) : BitVec 5 := l.foldl (fun a x => a ||| x.2) 0

end Sys2Proof.Machine
end

