-- ==== Sys2Proof/Machine/Memory.lean ====
section
/-! DEFINITION. Meanings of the scalar memory forms, OPC 0x04: loads, stores, full/empty forms, cache maintenance and
zeroing (R267 to R273). -/

namespace Sys2Proof.Machine

/-- Bytes of an access size. -/
def Sz.bytes : Sz → Nat
  | .b => 1 | .h => 2 | .w => 4 | .d => 8

/-! ## Loads and stores (R270) -/

/-- The value that LD writes. -/
def loadVal (n : Nat) (sx : Bool) (v : Nat) : Word :=
  if sx then BitVec.ofInt 64 (signed (8 * n) v) else BitVec.ofNat 64 v

def execLd (h : Hdr) (sz : Sz) (sx : Bool) (acq : Option Scope) (d a : GReg) (e : BitVec 32) (s : State) : Out :=
  runIsa h (do
    let v ← memRd (effAddr (← me) a e) (Sz.bytes sz) acq
    modMe fun c => c.wg d (loadVal (Sz.bytes sz) sx v)
    return .next) s

def execSt (h : Hdr) (sz : Sz) (rel : Option Scope) (src a : GReg) (e : BitVec 32) (s : State) : Out :=
  runIsa h (do
    let c ← me
    memWr (effAddr c a e) (Sz.bytes sz) (c.rg src).toNat rel
    return .next) s

/-- Both words are read before either register is written. DEDUCED: log entry 26. -/
def execLdp (h : Hdr) (acq : Option Scope) (d a : GReg) (e : BitVec 32) (s : State) : Out :=
  runIsa h (do
    let va := effAddr (← me) a e
    let (sp, x) ← access va 16 16 .load
    let v ← readPair sp x va acq
    modMe fun c => (c.wg d (BitVec.ofNat 64 v)).wg (d + 1) (BitVec.ofNat 64 (v / 2 ^ 64))
    return .next) s

/-- DEDUCED: log entry 26. -/
def execStp (h : Hdr) (rel : Option Scope) (src a : GReg) (e : BitVec 32) (s : State) : Out :=
  runIsa h (do
    let c ← me
    memWr (effAddr c a e) 16 ((c.rg src).toNat + 2 ^ 64 * (c.rg (src + 1)).toNat) rel
    return .next) s

/-! ## Full/empty forms (R139, R140, R271) -/

/-- The checks of a full/empty form: canonical form, alignment, and a place in a core memory, which for a write lies outside the
scheduler area (R271, R335). host: the cause of a target in a host import (R314). -/
def feAccess (va n : Nat) (k : AccKind) (host : Cause := .perm) : M (Nat × Nat) := do
  let s ← get
  let bad (c : Cause) : M (Nat × Nat) := throw (.trap { cause := c, tval := BitVec.ofNat 64 va })
  if 2 ^ 57 ≤ va then bad .bounds
  else if va % n ≠ 0 then bad .align
  else
    match s.space s.myCore va with
    | .core .. => do
      match ← place va n n k with
      | (.core c o, _) => if k.writes && schedBad s.me.lvl none o n then bad .perm else return (c, o)
      | _ => bad .bounds
    | .peer i _ => if s.contained s.myCore va n && pimKind (s.pimCtl s.myField i) == 2 then bad host else bad .bounds
    | _ => bad .bounds

/-- A waiting entry of this context, at the end of the order. -/
def Core.feWait (c : Core) (cx w n : Nat) (e : Bool) : Core :=
  if c.fe.any fun x => x.1 == cx then c else { c with fe := c.fe ++ [(cx, w, n, e)] }

/-- LDF and LDE: waits until every word is full, in the order of beginning to wait; an acquire at CLU. -/
def feLoad (d : GReg) (va n : Nat) (empty : Bool) : M Unit := do
  let v ← (do
    match ← takeReply 0 with
    | some r => return r.1.toNat
    | none => do
      let (k, o) ← feAccess va n .load
      modify fun s => s.serveFe k
      slotCheck k o n
      let s ← get
      if !((s.core k).allFull o n) then
        set (s.modCore k fun c => c.feWait s.cur (o / 4) (n / 4) empty)
        throw (.wait (.fullEmpty k o n))
      let bs ← cmemRead k o n va
      modify fun s => s.modCore k fun c =>
        let c := if empty then c.setEmpty o n else c
        { c with fe := c.fe.filter fun x => x.1 != s.cur }
      return bytesNat bs)
  acquireAll
  modMe fun c => c.wg d (BitVec.ofNat 64 (v % 2 ^ (8 * n)))

def execLdf (h : Hdr) (dw : Bool) (d a : GReg) (e : BitVec 32) (s : State) : Out :=
  runIsa h (do
    feLoad d (effAddr (← me) a e) (if dw then 8 else 4) false
    return .next) s

def execLde (h : Hdr) (dw : Bool) (d a : GReg) (e : BitVec 32) (s : State) : Out :=
  runIsa h (do
    feLoad d (effAddr (← me) a e) (if dw then 8 else 4) true
    return .next) s

/-- STF sets its words full and is a release at CLU (R271). -/
def execStf (h : Hdr) (dw : Bool) (src a : GReg) (e : BitVec 32) (s : State) : Out :=
  runIsa h (do
    let c ← me
    let n := if dw then 8 else 4
    let (k, o) ← feAccess (effAddr c a e) n .store
    overMark ((← get).core k).cmarks o n c.task.tid
    drainStores .clu
    modify fun s => s.modCore k fun x => { x with cmarks := unmark x.cmarks o n }
    modify fun s => s.engineStore k o (natBytes (c.rg src).toNat n)
    return .next) s

def execSete (h : Hdr) (dw : Bool) (a : GReg) (e : BitVec 32) (s : State) : Out :=
  runIsa h (do
    let n := if dw then 8 else 4
    let (k, o) ← feAccess (effAddr (← me) a e) n .store
    modify fun s => (s.serveFe k).modCore k fun c => c.setEmpty o n
    return .next) s

/-! ## Cache maintenance (R272) -/

/-- The line in the cluster L2 is also put into the L1D under a lease. -/
def State.prefL1 (s : State) (k l : Nat) : State :=
  match s.l2 (clusterOf k) l with
  | none => s
  | some x =>
    if x.hold || x.poison || x.pw != 0 || x.valid != BitVec.allOnes 16 then s
    else
      let x := x.loadStamp (s.pts k) (bits ((s.core k).reg 0x9A4) 0 16)
      (s.setL2 (clusterOf k) l x).modCore k fun c => c.fillL1d l x s.fresh

/-- A prefetch that a core has to go on with. -/
def Core.notePref (c : Core) (p : Pref) : Core := if c.prefs.contains p then c else { c with prefs := c.prefs ++ [p] }

/-- A prefetch: what fails a check is dropped; a missing PLB entry is filled first, and the line enters the L1D when it has
come to the L2. -/
def State.prefetch (s : State) (a : Acc) (va : Nat) (str : Bool) : State :=
  let p : Pref := { va := va, asid := a.asid, lvl := a.lvl, str := str }
  if va < localBase then
    match s.checkPaged a va .load with
    | .bad _ => s
    | .miss _ =>
      (s.postRim (fieldOf a.core) { id := 0, kind := .plb false, va := va, asid := a.asid
                                    core := some a.core, cx := none, pref := true }).modCore a.core (·.notePref p)
    | .ok _ g =>
      let l := lineKey g va
      let cl := clusterOf a.core
      if (s.l2 cl l).isSome then (if str then s else s.prefL1 a.core l)
      else
        let s := s.postHome (fieldOf a.core) { id := 0, kind := .rds, cl := cl, core := a.core, cx := none, line := l, pref := true }
        if str then s else s.modCore a.core (·.notePref { p with line := some l })
  else s

/-- The prefetches of a core in a page that its PLB now holds go on. -/
def State.prefetchOn (s : State) (k page : Nat) (asid : BitVec 16) : State :=
  let due (p : Pref) : Bool := p.line.isNone && p.va / 65536 == page && p.asid == asid
  ((s.core k).prefs.filter due).foldl
    (fun s p => s.prefetch { core := k, asid := p.asid, lvl := p.lvl } p.va p.str)
    (if (s.core k).prefs.any due then s.modCore k fun c => { c with prefs := c.prefs.filter fun p => !due p } else s)

/-- A line that has come to a cluster's L2 enters the L1D of the cores that prefetch it. -/
def State.prefetchIn (s : State) (cl l : Nat) : State :=
  (coresOf cl).foldl (fun s k =>
    if (s.core k).prefs.any fun p => p.line == some l then
      (s.prefL1 k l).modCore k fun c => { c with prefs := c.prefs.filter fun p => p.line != some l }
    else s) s

/-- Prefetches of a field that are dropped. -/
def State.dropPrefs (s : State) (f : Nat) (gone : Pref → Bool) : State :=
  s.cores.foldl (fun s x =>
    if fieldOf x.1 = f ∧ x.2.prefs.any gone then s.modCore x.1 fun c => { c with prefs := c.prefs.filter fun p => !gone p } else s) s

/-- DEDUCED: log entry 56. -/
def execPref (h : Hdr) (a : GReg) (e : BitVec 32) (s : State) : Out :=
  runIsa h (do
    let va := effAddr (← me) a e
    modify fun s => s.prefetch { s.acc with cx := none } va h.str
    return .next) s

/-- The canonical check of a maintenance form, and its paged line; no effect elsewhere. DEDUCED: log entry 56. -/
def maintLine (va : Nat) : M (Option Nat) := do
  if 2 ^ 57 ≤ va then throw (.trap { cause := .bounds, tval := BitVec.ofNat 64 va })
  if va < localBase then
    let (_, a) ← access va 1 1 .flush
    return some (lineKey a va)
  else return none

/-- A cluster gives a line back to its home, which takes the dirty bytes (R130, R272). -/
def State.giveBack (s : State) (f cl l : Nat) : State :=
  let s := s.recall f cl l none
  s.setHline f l { s.hline f l with dir := (s.hline f l).dir.evicted cl }

/-- DEDUCED: log entry 56. -/
def execCflush (h : Hdr) (a : GReg) (e : BitVec 32) (s : State) : Out :=
  runIsa h (do
    match ← maintLine (effAddr (← me) a e) with
    | none => return .next
    | some l => do
      let s ← get
      waitIf ((s.core s.myCore).sq.any fun x => x.tid == s.me.task.tid && lineKey x.asid x.va == l) .drain
      waitIf (!s.recallable s.myCl l) .memory
      set ((s.breakLeases s.myCl l).giveBack s.myField s.myCl l)
      return .next) s

def execCinv (h : Hdr) (icache : Bool) (a : GReg) (e : BitVec 32) (s : State) : Out :=
  runIsa h (do
    match ← maintLine (effAddr (← me) a e) with
    | none => return .next
    | some l => do
      modify fun s => s.modCore s.myCore fun c =>
        if icache then { c with l1i := SMap.del c.l1i l } else { c with l1d := SMap.del c.l1d l }
      return .next) s

/-- CZERO: 64 zero bytes, which perform together in paged memory (R273). -/
def execCzero (h : Hdr) (a : GReg) (e : BitVec 32) (s : State) : Out :=
  runIsa h (do
    let va := effAddr (← me) a e
    let (sp, asid) ← access va 64 64 .store
    match sp with
    | .paged => pushStore asid va 0 (BitVec.allOnes 64) none
    | _ => writeAt sp asid va (List.replicate 64 0) none
    return .next) s

end Sys2Proof.Machine
end

