-- ==== Sys2Proof/Machine/Atomic.lean ====
section
/-! DEFINITION. Atomic operations (Table 13-4), the place where each executes (R112, R115, R116, R122, R276), and the
meanings of OPC 0x05 (R274, R275). -/

namespace Sys2Proof.Machine

/-! ## The operations -/

/-- round(old + b) with RNE (R57, R58). -/
def faddBits (f : Fmt) (a b : Nat) : Nat × BitVec 5 := f.add .rne (f.val a) (f.val b)

/-- Table 13-4 on n bytes: new value, whether it is written, flags. -/
def AtOp.apply (op : AtOp) (n old b c : Nat) : Nat × Bool × BitVec 5 :=
  let w := 8 * n
  match op with
  | .add => ((old + b) % 2 ^ w, true, 0)
  | .min => (if signed w old ≤ signed w b then old else b, true, 0)
  | .max => (if signed w old ≤ signed w b then b else old, true, 0)
  | .minu => (Nat.min old b, true, 0)
  | .maxu => (Nat.max old b, true, 0)
  | .and => (old &&& b, true, 0)
  | .or => (old ||| b, true, 0)
  | .xor => (old ^^^ b, true, 0)
  | .swp => (b, true, 0)
  | .cas | .cas2 => (b, old == c, 0)
  | .fadd => let r := faddBits (if n = 4 then .f32 else .f64) old b; (r.1, true, r.2)
  | .inc => (if b ≤ old then 0 else (old + 1) % 2 ^ w, true, 0)

/-- Bytes of an atomic. -/
def AtOp.bytes (op : AtOp) (dw : Bool) : Nat :=
  match op with
  | .cas2 => 16
  | _ => if dw then 8 else 4

/-- What gd receives from the old value (R275). -/
def AtOp.result (op : AtOp) (n old : Nat) : Word :=
  if n = 4 then (if op = .fadd then BitVec.ofNat 64 old else BitVec.ofInt 64 (signed 32 old)) else BitVec.ofNat 64 old

def Order.acquires : Order → Bool
  | .acq | .ar => true
  | _ => false

def Order.releases : Order → Bool
  | .rel | .ar => true
  | _ => false

/-! ## A line of the L2 -/

/-- Words of 8 bytes that byte enables cover. -/
def covers8 (be : BitVec 64) : BitVec 8 :=
  BitVec.ofNat 8 ((List.range 8).foldl (fun a i => if be.extractLsb' (8 * i) 8 = 255 then a + 2 ^ i else a) 0)

/-- A line after a write at stamp w (R122, R132). -/
def L2Line.write (x : L2Line) (w : Nat) (data : LineData) (be : BitVec 64) : L2Line :=
  { x with
    data := mergeLine x.data data be, valid := x.valid ||| wordsTouched be, dirty := x.dirty ||| wordsTouched be
    foreign := x.foreign &&& ~~~(wordsCovered be)
    poison := x.poison && be != BitVec.allOnes 64, st := .m, wts := w, rts := w, hold := false, pw := x.pw &&& ~~~(covers8 be) }

/-- Core k performs a write in its cluster's L2: its own L1D copy goes (R122). -/
def State.l2Put (s : State) (k l : Nat) (x : L2Line) (w : Nat) (data : LineData) (be : BitVec 64) : State :=
  let s := s.setL2 (clusterOf k) l (x.write w data be)
  (s.modCore k fun c => { c with l1d := SMap.del c.l1d l }).wakeMem (inCluster (clusterOf k))

/-- The bytes of an atomic in a line. -/
def oldIn (d : LineData) (off n : Nat) : Nat := bytesNat (lineBytes d off n)

/-- An atomic executed in the cluster L2: a load followed by a store under one hold (R122); one that acquires a foreign word does as
a load does (R257). DEDUCED: log entries 18, 24. -/
def atomicL2 (k l va : Nat) (op : AtOp) (n b c : Nat) (acq rel : Bool) (key : Nat) : M (BitVec 128 × BitVec 5) := do
  let s ← get
  let cl := clusterOf k
  let off := va % 64
  let be := beOf off n
  match s.l2 cl l with
  | none => throw (.wait .memory)
  | some x => do
    let mine := (s.me.sent.bind (·.stamp))
    waitIf (x.hold && mine.isNone) .memory
    if x.poison || (List.range 8).any (fun i => x.pw.getLsbD i && be.extractLsb' (8 * i) 8 != 0) then
      throw (.trap { cause := .ue, tval := BitVec.ofNat 64 va })
    if wordsTouched be &&& ~~~x.valid != 0 then
      set (s.postHome (fieldOf k) { id := 0, kind := .merge, cl := cl, core := k, cx := some s.cur, line := l })
      throw (.wait .memory)
    let len := bits ((s.core k).reg 0x9A4) 0 16
    let gap := bits ((s.core k).reg 0x9A4) 16 8
    match mine with
    | none => do
      let m ← if acq then forcePublish (marksOn x.marks off n) k else pure 0
      if rel then overMark x.marks off n s.me.task.tid
      let x := if acq then { x with marks := x.marks.filter (fun y => y.core == k || !inList (y.off / 8) (words8 off n))
                                    wts := Nat.max x.wts m } else x
      let x := x.loadStamp (s.pts k) len
      modify fun s => s.raisePts k x.wts
      let s ← get
      let w := Nat.max (s.pts k) (x.rts + 1)
      if w - s.pts k ≤ gap && decide (s.pts k < w) then
        set ((s.setL2 cl l { x with hold := true }).modCtx s.cur fun y =>
          { y with sent := some { id := s.fresh, atomic := true, key := key, stamp := some w } })
        throw (.wait .memory)
      set ((s.setL2 cl l x).raisePts k w)
    | some w => waitIf (s.pts k < w) .memory
    let s ← get
    match s.l2 cl l with
    | none => throw (.wait .memory)
    | some x => do
      let w := mine.getD (Nat.max (s.pts k) (x.rts + 1))
      let old := oldIn x.data off n
      let (new, wr, fl) := AtOp.apply op n old b c
      let x := if rel then { x with marks := unmark x.marks off n } else x
      let s := if wr then s.l2Put k l x w (placeBytes (natBytes new n) off) be else s.l2Put k l x w 0 0
      set (s.setMe { s.me with sent := none })
      if acq && x.foreign &&& wordsTouched be != 0 then acquireAll
      return (BitVec.ofNat 128 old, fl)

/-! ## Placement (R112, R116) -/

/-- The line belongs to a tile in T-E or T-S owned in a cluster: its atomics are placed there. -/
def State.tileNear (s : State) (f cl l : Nat) : Bool :=
  match (s.hline f l).tile with
  | none => false
  | some t => match SMap.find? (s.field f).tiles t with
    | none => false
    | some t => t.ownerCl f == cl

/-- The predictor's counter of a line. -/
def predKey (l : Nat) : Nat := sliceOf l * 1024 + (keyVa l / 4096 % 1024 ^^^ keyVa l / 2 ^ 22 % 1024)

/-- DEDUCED: log entry 24. -/
def State.predictor (s : State) (f l : Nat) : Nat :=
  (SMap.get (s.field f).pred (predKey l) (s.field f).predInit).toNat

/-- Some cluster other than the requester holds the line in E, M or O. -/
def DirSt.ownedByOther (d : DirSt) (j : Nat) : Bool :=
  match d with
  | .e k | .m k | .o k _ => k != j
  | _ => false

/-- The update of the counter before an atomic of cluster j is placed (R116). -/
def State.predict (s : State) (f j l : Nat) (waiting : Bool) : State :=
  let d := (s.hline f l).dir
  let v := s.predictor f l
  let v' := if d.ownedByOther j || waiting then min 3 (v + 1)
    else if d.holders.all (· == j) then v - 1 else v
  s.modField f fun fd => { fd with pred := SMap.put fd.pred (predKey l) (BitVec.ofNat 2 v') }

/-- An atomic at the bank ALU on the home's whole copy: old value and flags (R115). -/
def State.homeApply (s : State) (f l off : Nat) (op : AtOp) (n b c : Nat) : State × Nat × BitVec 5 :=
  let h := s.hline f l
  let old := oldIn h.data off n
  let (new, wr, fl) := AtOp.apply op n old b c
  (if wr then s.setHline f l (h.absorb (placeBytes (natBytes new n) off) (beOf off n) false) else s, old, fl)

/-- An atomic to paged memory of the field, by a context. -/
def atomicPaged (asid : BitVec 16) (va : Nat) (op : AtOp) (dw : Bool) (n b c : Nat) (pl : Place) (acq rel : Bool)
    (key : Nat) : M (BitVec 128 × BitVec 5) := do
  let s ← get
  let k := s.myCore
  let f := s.myField
  let l := lineKey asid va
  waitIf ((s.core k).sq.any fun e => lineKey e.asid e.va == l) .drain
  if (s.me.sent.bind (·.stamp)).isSome then return ← atomicL2 k l va op n b c acq rel key
  match ← takeReply key with
  | some r => do
    if acq then acquireAll
    return r
  | none => do
    let s ← get
    let pl := if pl = .adaptive ∧ ((s.field f).reg 0x981).getLsbD 3 = false then Place.home else pl
    let near := pl == .near || s.tileNear f s.myCl l
    let here := match s.l2 s.myCl l with
      | some x => x.st == .m || x.st == .e
      | none => false
    if here && (near || pl == .adaptive) then return ← atomicL2 k l va op n b c acq rel key
    waitIf ((s.cluster s.myCl).incoming l) .memory
    let b' : BitVec 128 := BitVec.ofNat 128 b
    let c' : BitVec 128 := BitVec.ofNat 128 c
    let adaptive := pl == .adaptive && !near
    set (s.postHome f { id := 0, kind := .atomic op dw b' c' near adaptive, cl := s.myCl, core := k, cx := some s.cur
                        line := l, off := va % 64 })
    modMe fun y => { y with sent := some { id := s.fresh, atomic := true, key := key } }
    throw (.wait .memory)

/-! ## Banks -/

/-- An atomic at the bank of a core memory: full/empty bits unchanged. -/
def atomicCore (k off va : Nat) (op : AtOp) (n b c : Nat) (acq rel : Bool) : M (BitVec 128 × BitVec 5) := do
  let s ← get
  if acq then
    let _ ← forcePublish (marksOn (s.core k).cmarks off n) s.myCore
    modify fun s => s.modCore k fun x =>
      { x with cmarks := x.cmarks.filter fun m => m.core == s.myCore || !inList (m.off / 8) (words8 off n) }
  if rel then overMark (s.core k).cmarks off n s.me.task.tid
  modify fun s => s.serveFe k
  let old := bytesNat (← cmemRead k off n va)
  let (new, wr, fl) := AtOp.apply op n old b c
  modify fun s => s.modCore k fun x =>
    let x := if rel then { x with cmarks := unmark x.cmarks off n } else x
    if wr then x.writeMem off (natBytes new n) else x
  if acq then acquireAll
  return (BitVec.ofNat 128 old, fl)

/-- An atomic at the bank ALU of field shared memory (R115). -/
def atomicShared (off : Nat) (op : AtOp) (n b c : Nat) (acq rel : Bool) : M (BitVec 128 × BitVec 5) := do
  let s ← get
  let f := s.myField
  if acq then
    let _ ← forcePublish (marksOn (s.field f).shmMarks off n) s.myCore
    modify fun s => s.modField f fun x =>
      { x with shmMarks := x.shmMarks.filter fun m => m.core == s.myCore || !inList (m.off / 8) (words8 off n) }
  if rel then overMark (s.field f).shmMarks off n s.me.task.tid
  let old := bytesNat (Mem.readBytes (s.field f).shm off n)
  let (new, wr, fl) := AtOp.apply op n old b c
  modify fun s => s.modField f fun x =>
    let x := if rel then { x with shmMarks := unmark x.shmMarks off n } else x
    if wr then { x with shm := Mem.writeBytes x.shm off (natBytes new n) } else x
  if acq then acquireAll
  return (BitVec.ofNat 128 old, fl)

/-! ## One atomic of a context -/

/-- An atomic at a checked place: release first, the indivisible step, then the acquire (R275). The old value and the
flags. -/
def atomicAt (sp : Space) (asid : BitVec 16) (va : Nat) (op : AtOp) (dw : Bool) (b c : Nat) (pl : Place) (ord : Order)
    (sc : Scope) (key : Nat) : M (BitVec 128 × BitVec 5) := do
  let n := AtOp.bytes op dw
  match sp with
  | .paged => do
    if Order.releases ord then drainStores sc
    atomicPaged asid va op dw n b c pl (Order.acquires ord) (Order.releases ord) key
  | .core k off => do
    if Order.releases ord then drainStores sc
    atomicCore k off va op n b c (Order.acquires ord) (Order.releases ord)
  | .shared off => do
    if Order.releases ord then drainStores sc
    atomicShared off op n b c (Order.acquires ord) (Order.releases ord)
  | .peer slot off => do
    let o ← orderBeyond slot (if ord = .rlx then none else some sc)
    if o.isSome && Order.releases ord then drainStores sc
    let r ← peerAsk slot off (.atomic op dw (BitVec.ofNat 128 b) (BitVec.ofNat 128 c)) key
    if o.isSome && Order.acquires ord then acquireAll
    return r
  | .hole => throw (.trap { cause := .bounds, tval := BitVec.ofNat 64 va })

/-- Value and comparand of an atomic from its registers (R275). -/
def atomicArgs (op : AtOp) (n : Nat) (c : Ctx) (d b : GReg) : Nat × Nat :=
  match op with
  | .cas2 => ((c.rg b).toNat + 2 ^ 64 * (c.rg (b + 1)).toNat, (c.rg d).toNat + 2 ^ 64 * (c.rg (d + 1)).toNat)
  | _ => ((c.rg b).toNat % 2 ^ (8 * n), (c.rg d).toNat % 2 ^ (8 * n))

/-- Writes the old value to gd, or to the pair of ACAS2. -/
def Ctx.putOld (c : Ctx) (op : AtOp) (n : Nat) (d : GReg) (old : BitVec 128) : Ctx :=
  match op with
  | .cas2 => (c.wg d (old.setWidth 64)).wg (d + 1) (old.extractLsb' 64 64)
  | _ => c.wg d (AtOp.result op n old.toNat)

/-- An atomic of OPC 0x05. -/
def doAtomic (op : AtOp) (m : AtMode) (d a b : GReg) (e : BitVec 32) : M Flow := do
  let c ← me
  let n := AtOp.bytes op m.dw
  let va := effAddr c a e
  let (x, y) := atomicArgs op n c d b
  let (sp, asid) ← access va n n .atomic
  let (old, fl) ← atomicAt sp asid va op m.dw x y m.pl m.ord m.sc 0
  modMe fun c => (c.putOld op n d old).orFlags fl
  return .next

/-! ## Meanings -/

def execAadd (h : Hdr) (m : AtMode) (d a b : GReg) (e : BitVec 32) (s : State) : Out := runIsa h (doAtomic .add m d a b e) s
def execAmin (h : Hdr) (m : AtMode) (d a b : GReg) (e : BitVec 32) (s : State) : Out := runIsa h (doAtomic .min m d a b e) s
def execAmax (h : Hdr) (m : AtMode) (d a b : GReg) (e : BitVec 32) (s : State) : Out := runIsa h (doAtomic .max m d a b e) s
def execAminu (h : Hdr) (m : AtMode) (d a b : GReg) (e : BitVec 32) (s : State) : Out :=
  runIsa h (doAtomic .minu m d a b e) s
def execAmaxu (h : Hdr) (m : AtMode) (d a b : GReg) (e : BitVec 32) (s : State) : Out :=
  runIsa h (doAtomic .maxu m d a b e) s
def execAand (h : Hdr) (m : AtMode) (d a b : GReg) (e : BitVec 32) (s : State) : Out := runIsa h (doAtomic .and m d a b e) s
def execAor (h : Hdr) (m : AtMode) (d a b : GReg) (e : BitVec 32) (s : State) : Out := runIsa h (doAtomic .or m d a b e) s
def execAxor (h : Hdr) (m : AtMode) (d a b : GReg) (e : BitVec 32) (s : State) : Out := runIsa h (doAtomic .xor m d a b e) s
def execAswp (h : Hdr) (m : AtMode) (d a b : GReg) (e : BitVec 32) (s : State) : Out := runIsa h (doAtomic .swp m d a b e) s
def execAcas (h : Hdr) (m : AtMode) (d a b : GReg) (e : BitVec 32) (s : State) : Out := runIsa h (doAtomic .cas m d a b e) s
def execAcas2 (h : Hdr) (m : AtMode) (d a b : GReg) (e : BitVec 32) (s : State) : Out :=
  runIsa h (doAtomic .cas2 m d a b e) s
def execAfadd (h : Hdr) (m : AtMode) (d a b : GReg) (e : BitVec 32) (s : State) : Out :=
  runIsa h (doAtomic .fadd m d a b e) s
def execAinc (h : Hdr) (m : AtMode) (d a b : GReg) (e : BitVec 32) (s : State) : Out := runIsa h (doAtomic .inc m d a b e) s

end Sys2Proof.Machine
end

