-- ==== Sys2Proof/Machine/Engine.lean ====
section
/-! DEFINITION. Accesses of the copy engines, the put path and the matrix units, and of requests that enter a field
through a gateway: checks, translation, coherent reads and writes (R41, R42, R84, R85, R106, R118, R144, R317). -/

namespace Sys2Proof.Machine

/-! ## Codes of Table 07-5 -/

def codeBadRec : BitVec 8 := 0x10
def codeBounds : BitVec 8 := 0x11
def codePerm : BitVec 8 := 0x12
def codeNomap : BitVec 8 := 0x13
def codeFmtwr : BitVec 8 := 0x14
def codeKeyrev : BitVec 8 := 0x15
def codeUe : BitVec 8 := 0x16
def codeBadloc : BitVec 8 := 0x17
def codeIdx : BitVec 8 := 0x18
def codeOwntab : BitVec 8 := 0x19
def codeRemrd : BitVec 8 := 0x1A

/-- The trap cause of a code (Table 18-3). -/
def lateCause (code : BitVec 8) : Cause :=
  if code = codeBounds then .bounds
  else if code = codePerm ∨ code = codeRemrd then .perm
  else if code = codeFmtwr then .fmtwr
  else if code = codeKeyrev then .keyrev
  else if code = codeUe then .ue
  else if code = codeBadloc then .badloc
  else .nomap

/-- The access of an engine has failed. -/
def failAt {α : Type} (code : BitVec 8) (va : Nat) : M α := throw (.fail code va)

/-- Handles the failure of an access. -/
def onFail {α : Type} (m : M α) (h : BitVec 8 → Nat → M α) : M α :=
  tryCatch m fun e => match e with
    | .fail c a => h c a
    | e => throw e

/-! ## Who makes an access -/

/-- An engine at work for a context: issuing core, ASID, level, the number of the work; rim: its accesses are
translated at the rim one by one (R85). -/
structure Eng where
  k : Nat
  asid : BitVec 16
  lvl : Bool
  id : Nat
  rim : Bool := true
  /-- The context whose store a matrix unit makes: its own shape slot is open to it (R141, R335). -/
  cx : Option Nat := none
  /-- Made for context 15 of the supervisor core: never parked (R90). -/
  svc : Bool := false
  /-- For a record that was issued before a change of SHMCF: the field shared window is closed to it (R102). -/
  stale : Bool := false
  deriving DecidableEq, Repr

def Eng.acc (e : Eng) : Acc := { core := e.k, asid := e.asid, lvl := e.lvl }
def Eng.f (e : Eng) : Nat := fieldOf e.k
def Eng.cl (e : Eng) : Nat := clusterOf e.k

/-- Where a checked access goes. -/
inductive EngAt where
  | paged (asid : BitVec 16)
  | raw (x : XEnt)
  | core (k off : Nat)
  | shared (off : Nat)
  | peer (slot off : Nat)
  deriving DecidableEq, Repr

/-- Waits for a request at the rim for a page, or takes the code it has failed with. -/
def rimAsk (f : Nat) (asid : BitVec 16) (va : Nat) (r : RReq) : M Unit := do
  match ← takeFail f (lineKey asid (va / 65536 * 65536)) with
  | some c => failAt c va
  | none => do
    modify fun s => s.postRim f r
    throw (.wait .memory)

/-- The translation at the rim of an engine's access: during a freeze of its page it waits (R97); no byte passes under a key
that is not VALID (R32, R85).
DEDUCED: log entry 40. -/
def rimXlat (f : Nat) (asid : BitVec 16) (va : Nat) : M XEnt := do
  let s ← get
  match (s.field f).translate asid va with
  | some x => do
    if !(← migMeets f asid va x) then failAt codeNomap va
    if !(s.field f).keyOk x.key then failAt codeKeyrev va
    return x
  | none => do
    rimAsk f asid va { id := 0, kind := .copy, va := va, asid := asid, core := none, cx := none }
    throw (.wait .memory)

/-- The PLB check of an engine's access to paged memory (R40, R41, R84, R144). -/
def Eng.paged (e : Eng) (va : Nat) (k : AccKind) (raw : Bool) : M EngAt := do
  let s ← get
  let fill (st : Bool) : M EngAt := do
    rimAsk e.f e.asid va { id := 0, kind := .plb st, va := va, asid := e.asid, core := some e.k, cx := none }
    throw (.wait .memory)
  match s.plbFind e.acc va with
  | none => fill k.writes
  | some p => do
    if !p.permits k e.lvl then failAt codePerm va
    if p.cls == .decoded && (raw || k.writes) then failAt codeFmtwr va
    if p.cls == .raw && !raw then failAt codePerm va
    if p.clean && k.writes then return ← fill true
    let asid : BitVec 16 := if p.g then 0xFFFF else e.asid
    if p.cls == .raw then return .raw (← rimXlat e.f asid va)
    if e.rim then let _ ← rimXlat e.f asid va
    return .paged asid

/-- The checks of an engine's access to n bytes (R134, R144, R156, R317). -/
def Eng.place (e : Eng) (va n : Nat) (k : AccKind) (raw : Bool := false) : M EngAt := do
  asAgent (.work e.id e.svc)
  let s ← get
  if 2 ^ 57 ≤ va then failAt codeBounds va
  if !s.contained e.k va n then failAt codeBounds va
  match s.space e.k va with
  | .paged => e.paged va k raw
  | .peer i o => do
    let ctl := s.pimCtl e.f i
    if pimKind ctl = 1 && !k.writes then failAt codeRemrd va
    if pimKind ctl = 1 && !e.rim then failAt codePerm va
    if !(if k.writes then ctl.getLsbD 54 else ctl.getLsbD 55) then failAt codePerm va
    return .peer i o
  | .core c o => do
    if k.writes && schedBad e.lvl ((e.cx.filter fun x => coreOf x == c).map ctxNum) o n then failAt codePerm va
    return .core c o
  | .shared o => do
    if e.stale then failAt codeBounds va
    return .shared o
  | .hole => failAt codeBounds va

/-! ## Lines -/

/-- Poison on the bytes that a read needs. -/
def L2Line.bad (x : L2Line) (be : BitVec 64) : Bool :=
  x.poison || (List.range 8).any fun i => x.pw.getLsbD i && be.extractLsb' (8 * i) 8 != 0

/-- A line of paged memory in the engine's cluster. -/
def Eng.line (e : Eng) (asid : BitVec 16) (va : Nat) (be : BitVec 64) : M LineData := do
  let l := lineKey asid va
  match ← takeFail e.f l with
  | some c => failAt c va
  | none => do
    let x ← engineLine e.cl l
    if x.bad be then failAt codeUe va
    return x.data

/-- Bytes of a core memory, unless one of their words is poisoned (R132). -/
def coreBytes (k off n va : Nat) : M (List Byte) := do
  let c := (← get).core k
  if (words8 off n).any fun w => inList w c.poison then failAt codeUe va
  return Mem.readBytes c.cmem off n

/-! ## RAW accesses at the rim (R41, R42) -/

/-- A write-back of the line at a physical address has not landed (R44). -/
def State.wbOpen (s : State) (f pa : Nat) : Bool :=
  (s.field f).rreqs.any fun r => r.kind == .wb &&
    (((s.field f).vline pa).any (fun l => r.wbOf l) || (((s.field f).translate r.asid r.va).any fun x => x.paOf r.va / 64 == pa / 64))

/-- Bytes of a line at the rim. -/
def rawRead (f : Nat) (x : XEnt) (va n : Nat) : M (List Byte) := do
  waitIf ((← get).wbOpen f (x.paOf va)) .memory
  let (s, r) := (← get).readAgain f (x.paOf va) x.key x.i
  set s
  match r with
  | .data d => return lineBytes d (va % 64) n
  | .poison .. => failAt codeUe va
  | .keyrev => failAt codeKeyrev va

/-- Frames of the decoded range or scale half of the windows built from a line. -/
def Field.builtFrom (f : Field) (pa : Nat) : List Nat :=
  let ws := (List.range 16).filter fun i =>
    let w := f.win i
    w.en && (overlap pa 64 w.sb w.size || overlap pa 64 w.sc w.scLen)
  (f.rmap.map (·.1)).filter fun fr => ws.any fun i =>
    decide (apertureBase + i * apertureSize ≤ fr * 65536) && decide (fr * 65536 < apertureBase + (i + 1) * apertureSize)

/-- A RAW write: cached decoded lines built from the bytes are recalled first. -/
def rawWrite (f : Nat) (x : XEnt) (asid : BitVec 16) (va : Nat) (bs : List Byte) : M Unit := do
  let s ← get
  let frs := (s.field f).builtFrom (x.paOf va / 64 * 64)
  waitIf (!frs.all (s.purgeable f) || s.wbOpen f (x.paOf va)) .memory
  let be := beOf (va % 64) bs.length
  modify fun s => (frs.foldl (fun s fr => s.purgeFrame f fr) s).writeLine f (x.paOf va) x.key x.i
    (placeBytes bs (va % 64)) be false asid va

/-! ## Requests that enter through a gateway (R118, R317) -/

/-- The exporter's translation and permissions (R317). DEDUCED: log entry 39. -/
def gateXlat (f : Nat) (asid : BitVec 16) (va : Nat) (rd wr : Bool) : M Unit := do
  let x ← rimXlat f asid va
  if (rd && !x.rd) || (wr && !x.wr) then failAt codePerm va
  let cls := ((← get).field f).frameClass (x.paOf va / 65536 * 65536) 65536
  if cls == .decoded && wr then failAt codeFmtwr va
  if cls == .raw then failAt codePerm va

/-- The home's whole copy of a line, or the code its fill has failed with. -/
def homeLine (f l va : Nat) : M HLine := do
  match ← takeFail f l with
  | some c => failAt c va
  | none => homeData f l

/-- Bytes with the nibbles at their ends that four-bit elements leave as they are. -/
def keepEdges (old bs : List Byte) (edge : BitVec 2) : List Byte :=
  let lo := if edge.getLsbD 0 then 15 else 0
  let hi := if edge.getLsbD 1 then 240 else 0
  (bs.zip old).zipIdx.map fun x =>
    let m : Byte := BitVec.ofNat 8 ((if x.2 = 0 then lo else 0) + (if x.2 + 1 = bs.length then hi else 0))
    (x.1.1 &&& ~~~m) ||| (x.1.2 &&& m)

/-- A load is served once from current data, and no holder is recorded (R118): from the words that an owner holds over the
home's copy, where one does; the owner keeps its state. DESIGN CHOICE: log entry 39. -/
def gateRead (f : Nat) (asid : BitVec 16) (va n : Nat) : M (List Byte) := do
  gateXlat f asid va true false
  let l := lineKey asid va
  afterHome f l
  hostClear f l false
  modify fun s => (s.triggerTile f l none).landAway f l
  let s ← get
  let (d, p) ← match (s.hline f l).dir with
    | .e k | .m k | .o k _ => do
      if !s.recallable k l then throw (.wait .memory)
      match s.l2 k l with
      | some x =>
        if x.valid = BitVec.allOnes 16 then pure (x.data, x.bad (beOf (va % 64) n))
        else do
          let h ← homeLine f l va
          pure (mergeLine h.data x.data (wordBe x.valid), h.poison || x.bad (beOf (va % 64) n))
      | none => do
        let h ← homeLine f l va
        pure (h.data, h.poison)
    | _ => do
      let h ← homeLine f l va
      pure (h.data, h.poison)
  if p then failAt codeUe va
  modify fun s => s.endSnoop f l
  return lineBytes d (va % 64) n

/-- A store writes at the home, as M followed by eviction; on: the bytes enabled. DEDUCED: log entry 39. -/
def gateWrite (f : Nat) (asid : BitVec 16) (va : Nat) (bs : List Byte) (edge : BitVec 2 := 0) (on : BitVec 64 := BitVec.allOnes 64) : M Unit := do
  gateXlat f asid va false true
  let l := lineKey asid va
  afterHome f l
  homeCollect f l none
  let old ← if edge = 0 then pure bs else do
    let h ← homeLine f l va
    pure (lineBytes h.data (va % 64) bs.length)
  let bs := keepEdges old bs edge
  ownFrame f l
  modify fun s => s.absorbAt f l (placeBytes bs (va % 64)) (beOf (va % 64) bs.length &&& on) false

/-- An atomic runs at the bank ALU; rd: it also needs RD. -/
def gateAtomic (f : Nat) (asid : BitVec 16) (va : Nat) (rd : Bool) (op : AtOp) (n b c : Nat) : M (Nat × BitVec 5) := do
  gateXlat f asid va rd true
  let l := lineKey asid va
  afterHome f l
  homeCollect f l none
  let h ← homeLine f l va
  if h.poison then failAt codeUe va
  let (s, old, fl) := (← get).homeApply f l (va % 64) op n b c
  set s
  return (old, fl)

/-- The export entry that a handle names: VA of its first byte, ASID, rights; a stale handle gives NOMAP (R315, R317). -/
def Field.export? (f : Field) (handle : BitVec 32) : Option (Nat × BitVec 16 × Bool × Bool × Nat) :=
  let x := handle.toNat % 256
  let base := f.reg (bankReg 0xA09 x)
  let ctl := f.reg (bankReg 0xA0A x)
  if handle.extractLsb' 8 16 != 0 || !ctl.getLsbD 63 || bits ctl 53 8 != (handle.extractLsb' 24 8).toNat then none
  else some (bits base 16 41 * 65536, base.setWidth 16, ctl.getLsbD 62, ctl.getLsbD 61, bits ctl 0 21 * 65536)

/-- No request passes between two fields: their boundary is fenced (R15). -/
def State.fenced (s : State) (f g : Nat) : Bool := f != g && (s.partOf f != s.partOf g || (s.partOf f).isNone)

/-- The exporter's address of an access of a field of this module, or of another module: a stale handle gives NOMAP, and so does
a fenced boundary. DEDUCED: log entry 65; DESIGN CHOICE: log entry 108. -/
def exportAt (f : Nat) (src : Option Nat) (handle : BitVec 32) (off n va : Nat) (rd wr : Bool) : M (Nat × BitVec 16) := do
  if src.any ((← get).fenced f) then failAt codeNomap va
  match ((← get).field f).export? handle with
  | none => failAt codeNomap va
  | some (base, asid, r, w, size) => do
    if (rd && !r) || (wr && !w) then failAt codePerm va
    if size < off + n then failAt codeBounds va
    return (base + off, asid)

/-! ## The peer window of an engine -/

/-- Fields of an import slot: kind, exporter's field and handle. -/
def State.pimAt (s : State) (f slot : Nat) : Nat × Nat × BitVec 32 :=
  let src := s.pimSrc f slot
  (pimKind (s.pimCtl f slot), bits src 44 4, src.setWidth 32)

/-- A word of the host, read by an engine: sent once for each piece of work (R314). DEDUCED: log entry 65. -/
def hostWord (f slot w work : Nat) : M (List Byte) := do
  let s ← get
  let tag := (work, slot * 2 ^ 45 + w)
  match (s.field f).peers.find? fun p => p.tag == some tag with
  | some p =>
    match p.reply with
    | some v => return natBytes v.toNat 8
    | none => throw (.wait .memory)
  | none => do
    let id ← freshId
    let src := s.pimSrc f slot
    modify fun s =>
      { s.modField f fun fd => { fd with peers := fd.peers ++ [{ id := id, srcField := f, cx := none
                                                                 handle := 0, off := 8 * w, op := .load 8, tag := some tag }] }
        with out := s.out ++ [OutMsg.cxlRead f id ((src.toNat % 2 ^ 48) * 65536 + 8 * w) 8] }
    throw (.wait .memory)

/-- A read of the host by an engine, by aligned 8-byte words (R254). -/
def hostRead (f slot off n work : Nat) : M (List Byte) := do
  let mut out : List Byte := []
  for w in words8 off n do out := out ++ (← hostWord f slot w work)
  return (out.drop (off % 8)).take n

/-- The host has not acknowledged a write made under an engine's number. -/
def Field.hostAwaits (f : Field) (work : Nat) : Bool := f.hostWrs.any fun w => w.2.2 == work

/-- Drops the host reads of an engine's work once it is over. -/
def Field.dropTags (f : Field) (id : Nat) : Field :=
  { f with peers := f.peers.filter fun p => (p.tag.map (·.1)) != some id }

/-- A flit to another module enters the send queue of its destination under a virtual channel and an issue number
(R320); it takes its sequence number when it is first sent (R321). n: payload bytes. -/
def State.pushFlit (s : State) (f dest vc n item va : Nat) (body : FlitBody) : State :=
  let o := (s.field f).optical
  let x : OFlit := { vc := vc, bytes := n, va := va, since := s.ns
                     flit := { src := s.modId, dest := dest, srcField := f, vc := vc, seq := 0, item := item, body := body } }
  let qs := if o.queues.any fun e => e.1 == dest then o.queues.map fun e => if e.1 == dest then (dest, e.2 ++ [x]) else e
    else o.queues ++ [(dest, [x])]
  s.modField f fun fd => { fd with optical := { fd.optical with queues := qs } }

/-! ## Reads and writes of an engine -/

/-- n bytes, not beyond a line. DEDUCED: log entry 65. -/
def Eng.read (e : Eng) (va n : Nat) (raw : Bool := false) : M (List Byte) := do
  match ← e.place va n .load raw with
  | .paged asid => return lineBytes (← e.line asid va (beOf (va % 64) n)) (va % 64) n
  | .raw x => rawRead e.f x va n
  | .core k off => coreBytes k off n va
  | .shared off => return Mem.readBytes ((← get).field e.f).shm off n
  | .peer slot off => do
    let (kind, f, handle) := (← get).pimAt e.f slot
    if kind = 2 then hostRead e.f slot off n e.id
    else do
      let (a, asid) ← exportAt f (some e.f) handle off n va true false
      onFail (gateRead f asid a n) fun c _ => failAt c va

/-- Writes bytes, not beyond a line. The number of flits sent to another module. A write of four-bit elements may leave the
nibbles at its ends: that needs no RD (R152). DEDUCED: log entry 65. -/
def Eng.write (e : Eng) (va : Nat) (bs : List Byte) (vc : Nat) (raw : Bool := false) (edge : BitVec 2 := 0) : M Nat := do
  let n := bs.length
  match ← e.place va n .store raw with
  | .paged asid => do
    let l := lineKey asid va
    match ← takeFail e.f l with
    | some c => failAt c va
    | none => do
      let old ← if edge = 0 then pure bs else do
        let x ← engineLine e.cl l
        pure (lineBytes x.data (va % 64) n)
      engineWrite e.cl l (placeBytes (keepEdges old bs edge) (va % 64)) (beOf (va % 64) n)
      return 0
  | .raw x => do
    rawWrite e.f x e.asid va bs
    return 0
  | .core k off => do
    let old := Mem.readBytes ((← get).core k).cmem off n
    modify fun s => s.engineStore k off (keepEdges old bs edge)
    return 0
  | .shared off => do
    let old := Mem.readBytes ((← get).field e.f).shm off n
    modify fun s => s.modField e.f fun f => { f with shm := Mem.writeBytes f.shm off (keepEdges old bs edge) }
    return 0
  | .peer slot off => do
    let s ← get
    let (kind, f, handle) := s.pimAt e.f slot
    if kind = 2 then
      let old ← if edge = 0 then pure bs else do
        let a ← hostRead e.f slot off 1 e.id
        let z ← hostRead e.f slot (off + n - 1) 1 e.id
        pure (if n = 1 then a else a ++ List.replicate (n - 2) 0 ++ z)
      hostWrite e.f slot off (keepEdges old bs edge) 0 e.id
      return 0
    else if kind = 1 then
      let body := FlitBody.data f handle.toNat off n (BitVec.ofNat 2048 (bytesNat bs)) edge
      set (s.pushFlit e.f (bits (s.pimSrc e.f slot) 48 16) vc n e.id va body)
      return 1
    else do
      let (a, asid) ← exportAt f (some e.f) handle off n va false true
      onFail (gateWrite f asid a bs edge) fun c _ => failAt c va
      return 0

/-! ### Releases of engines (R260): marks on the words written are published first, and go -/

/-- The writes that marks follow have performed, and their stamps count for the releasing cores. -/
def publishAll (ms : List Mark) : M Unit := do
  let s ← get
  waitIf (ms.any fun m => s.markOpen m) .memory
  modify fun s => ms.foldl (fun s m => s.raisePts m.core m.stamp) s

def publishCore (k off n : Nat) : M Unit := do
  publishAll (marksOn ((← get).core k).cmarks off n)
  modify fun s => s.modCore k fun c => { c with cmarks := unmark c.cmarks off n }

def publishShared (f off n : Nat) : M Unit := do
  publishAll (marksOn ((← get).field f).shmMarks off n)
  modify fun s => s.modField f fun x => { x with shmMarks := unmark x.shmMarks off n }

/-- Marks on a line of a cluster's L2, whose stamp takes theirs (R259). -/
def publishLine (cl l off n : Nat) : M Unit := do
  match (← get).l2 cl l with
  | none => pure ()
  | some x => do
    let ms := marksOn x.marks off n
    publishAll ms
    if !ms.isEmpty then
      modify fun s => s.setL2 cl l { x with marks := unmark x.marks off n, wts := ms.foldl (fun a m => Nat.max a m.stamp) x.wts }

/-- Marks at the place of an engine's release, before it writes (R260). -/
def Eng.release (e : Eng) (va n : Nat) : M Unit := do
  match ← e.place va n .store with
  | .paged asid => publishLine e.cl (lineKey asid va) (va % 64) n
  | .core k off => publishCore k off n
  | .shared off => publishShared e.f off n
  | _ => pure ()

/-- Adds 1 to a counter word after the data (R154, R300): a home or bank operation. The number of flits sent.
DEDUCED: log entry 67. -/
def Eng.increment (e : Eng) (va vc : Nat) : M Nat := do
  match ← e.place va 8 .store with
  | .paged asid => do
    let _ ← onFail (do
      let l := lineKey asid va
      afterHome e.f l
      homeCollect e.f l (some e.cl)
      let h ← homeLine e.f l va
      if h.poison then failAt codeUe va
      set ((← get).homeApply e.f l (va % 64) .add 8 1 0).1) fun c _ => failAt c va
    return 0
  | .raw _ => failAt codePerm va
  | .core k off => do
    let x := bytesNat (← coreBytes k off 8 va)
    publishCore k off 8
    modify fun s => s.engineStore k off (natBytes (x + 1) 8)
    return 0
  | .shared off => do
    publishShared e.f off 8
    modify fun s => s.modField e.f fun f =>
      { f with shm := Mem.writeBytes f.shm off (natBytes (bytesNat (Mem.readBytes f.shm off 8) + 1) 8) }
    return 0
  | .peer slot off => do
    let s ← get
    let (kind, f, handle) := s.pimAt e.f slot
    if kind = 2 then failAt codePerm va
    else if kind = 1 then
      set (s.pushFlit e.f (bits (s.pimSrc e.f slot) 48 16) vc 0 e.id va (.inc f handle.toNat off))
      return 1
    else do
      let (a, asid) ← exportAt f (some e.f) handle off 8 va false true
      let _ ← onFail (gateAtomic f asid a false .add 8 1 0) fun c _ => failAt c va
      return 0

end Sys2Proof.Machine
end

