-- ==== Sys2Proof/Machine/Fetch.lean ====
section
/-! DEFINITION. Fetching an instruction, and what surrounds its execution: the scoreboard of items, lookahead windows,
the passing of time, and the choice of what comes next (R119, R167, R171 to R173, R175, R176, R295). -/

namespace Sys2Proof.Machine

/-! ## Fetch -/

/-- A fetch needs EX on the page of an address (R167): PERM, or a PLB fill. -/
def fetchCheck (va : Nat) : M (BitVec 16) := do
  let s ← get
  if localBase ≤ va then throw (.trap { cause := .bounds, tval := BitVec.ofNat 64 va })
  match s.checkPaged s.acc va .fetch with
  | .bad c => throw (.trap { cause := c, tval := BitVec.ofNat 64 va })
  | .miss _ => do
    set (s.postPlb s.acc va .fetch)
    throw (.wait .memory)
  | .ok _ a => return a

/-- Puts a line into the L1I, with the page that its address is fetched under: 128 sets of 4 ways (R119). -/
def Core.fillL1i (c : Core) (l : Nat) (d : LineData) (page : Nat × PageSize) (n : Nat) : Core :=
  { c with l1i := SMap.put (SMap.makeRoom c.l1i l 4 l1iSet (Config.victim n)) l { data := d, base := page.1, size := page.2 } }

/-- The page that holds a fetched address: VA[56:16] of its first byte, and its size. -/
def State.fetchPage (s : State) (va : Nat) : Nat × PageSize :=
  match s.plbFind s.acc va with
  | some e => (e.vpage, e.size)
  | none => (va / 65536, .k64)

/-- A line of the L1I, filled from the cluster L2 (R119). -/
def fetchLine (l va : Nat) : M LineData := do
  let s ← get
  let k := s.myCore
  match SMap.find? (s.core k).l1i l with
  | some x => return x.data
  | none =>
    let cl := clusterOf k
    let post (kind : HReqKind) : M LineData := do
      set (s.postHome (fieldOf k) { id := 0, kind := kind, cl := cl, core := k, cx := some s.cur, line := l })
      throw (.wait .memory)
    match s.l2 cl l with
    | none => do
      waitIf ((s.cluster cl).incoming l) .memory
      post .rds
    | some x =>
      waitIf x.hold .memory
      if x.poison || x.pw != 0 then throw (.trap { cause := .ue, tval := BitVec.ofNat 64 va })
      if x.valid != BitVec.allOnes 16 then post .merge
      else do
        set (s.modCore k fun c => c.fillL1i l x.data (s.fetchPage va) s.fresh)
        return x.data

/-- The word at pc (R167). -/
def fetch : M InstrWord := do
  let va := (← me).pc.toNat
  rimCheck va
  rimCheck (va + 11)
  let a ← fetchCheck va
  let b ← fetchCheck (va + 11)
  let l0 := lineKey a va
  let l1 := lineKey b (va + 11)
  let d0 ← fetchLine l0 va
  if va % 64 ≤ 52 then return BitVec.ofNat 96 (bytesNat (lineBytes d0 (va % 64) 12))
  else
    let d1 ← fetchLine l1 (va + 11)
    let n := 64 - va % 64
    return BitVec.ofNat 96 (bytesNat (lineBytes d0 (va % 64) n ++ lineBytes d1 0 (12 - n)))

/-! ## Scoreboard and windows -/

/-- A register's number among all those an instruction can name. -/
def RegRef.idx : RegRef → Nat
  | .g n => n
  | .p n => 64 + n
  | .v n => 72 + n
  | .q n => 104 + n
  | .a n => 112 + n

/-- Which of two allowed values the next instruction of a window takes for a register: the same each time it issues (R171).
DEDUCED: log entry 42. -/
def LaWin.pick (w : LaWin) (r : RegRef) (k : Nat) : Bool := Config.choice (w.seed + 512 * w.left + 128 * k + r.idx)

/-- With STRICT = 0 an instruction in a window may read a register before its status arrives (R171). -/
def Ctx.overlooks (c : Ctx) (n : Nat) : Bool :=
  !c.strict && c.windows.any fun w => (w.olds.any fun o => o.1 == .g n) && w.pick (.g n) 2

/-- A g register that an instruction reads awaits an item (R295). -/
def Ctx.awaits (c : Ctx) (rs : List RegRef) : Bool :=
  c.pend.any fun p => p.1 != 0 && rs.contains (.g p.1) && !c.overlooks p.1

/-- A remote atomic that acquires has not been answered: no later access is made before its reply (R257, R302).
DEDUCED: log entry 66. -/
def State.acquiring (s : State) : Bool :=
  s.me.pend.any fun p => (s.core s.myCore).items.any fun i => i.id == p.2 && match i.kind with
    | .ramo _ _ _ _ _ _ _ acq _ => acq
    | _ => false

/-- A register that an instruction reads was to be written by one that has faulted and not yet been taken (R379).
DEDUCED: log entry 46. -/
def Ctx.lateOn (c : Ctx) (rs : List RegRef) : Bool :=
  c.lateDue.any fun e => (e.dst.toList ++ e.dst2.toList).any rs.contains

/-- The value of a register, widened. -/
def Ctx.regVal (c : Ctx) : RegRef → VWord
  | .g n => (c.g.toList.getD n 0).setWidth 1024
  | .p n => if c.p.toList.getD n false then 1 else 0
  | .v n => c.v.toList.getD n 0
  | .q n => (c.q.toList.getD n 0).setWidth 1024
  | .a _ => 0

/-- Puts a register's value back. -/
def Ctx.putReg (c : Ctx) (r : RegRef) (x : VWord) : Ctx :=
  match r with
  | .g n => c.wg (BitVec.ofNat 6 n) (x.setWidth 64)
  | .p n => c.wp (BitVec.ofNat 3 n) (x.getLsbD 0)
  | .v n => c.wv (BitVec.ofNat 5 n) x
  | .q n => c.wq (BitVec.ofNat 3 n) (x.setWidth 128)
  | .a _ => c

/-- Gives registers the values that they have in another context. -/
def Ctx.putBack (x c : Ctx) (rs : List RegRef) : Ctx := rs.foldl (fun x r => x.putReg r (c.regVal r)) x

/-- The registers of open windows that a list names, with their values before, where the instruction takes the other of two
allowed values (R171). DEDUCED: log entry 42. -/
def Ctx.inWindow (c : Ctx) (rs : List RegRef) (k : Nat) : List (RegRef × VWord) :=
  c.windows.flatMap fun w => w.olds.filter fun o => rs.contains o.1 && w.pick o.1 k

/-- The L instruction whose window a register of a list lies in (R172). DEDUCED: log entry 42. -/
def Ctx.violates (c : Ctx) (rs : List RegRef) : Option Word :=
  (c.windows.find? fun w => w.olds.any fun o => rs.contains o.1).map (·.pc)

/-- With STRICT = 0 a read in a window takes the old or the new value (R171): the old ones of a choice.
DEDUCED: log entry 42. -/
def Ctx.peek (c : Ctx) (olds : List (RegRef × VWord)) : Ctx := olds.foldl (fun a o => a.putReg o.1 o.2) c

/-- What a context awaits after an instruction that writes registers: with STRICT = 0 a status that arrives later may be
lost to that write (R295). -/
def Ctx.keeps (c : Ctx) (ws : List RegRef) : List (Nat × Nat) :=
  c.pend.filter fun p => !(ws.contains (.g p.1) && Config.choice p.2)

/-- One instruction of the program order has passed (R171). -/
def Ctx.passWindow (c : Ctx) : Ctx :=
  { c with windows := (c.windows.map fun w => { w with left := w.left - 1 }).filter fun w => w.left != 0 }

/-- After an instruction that completed: windows pass, and its own opens (R171). -/
def settle (i : Instr) (h : Hdr) (before : Ctx) (seed : Nat) (c : Ctx) : Ctx :=
  let c := c.passWindow
  if h.la != 0 && Hdr.holds h before then
    { c with windows := c.windows ++ [{ pc := before.pc, left := h.la.toNat, seed := seed
                                        olds := (Instr.writes i).map fun r => (r, before.regVal r) }] }
  else c

/-- A trap waits until the results of open windows are written (R173). -/
def State.afterWindow (s : State) (o : Out) : Out :=
  if s.unresolved s.cur then .next (s.setMe { s.me with st := .waiting .items }) else o

/-- Stands among the windows of a context while an instruction executes: a trap, a return from one, and the end of a task
close every window. -/
def LaWin.mark : LaWin := { pc := 0, left := 1, olds := [] }

/-- What follows the effect of an instruction that may have read old values. A trap or a wait leaves every register as it
was; after a completion the registers read at old values and not written are as they were, and one written in a window holds
either value: what the L instruction gave it, or gives it once its status arrives, or what was written (R171, R173).
DEDUCED: log entry 42. -/
def State.conclude (s t : State) (i : Instr) (h : Hdr) (olds : List (RegRef × VWord)) : Out :=
  let c := s.me
  let x := t.me
  let rs := olds.map (·.1)
  let ws := Instr.writes i
  if x.windows.isEmpty then
    if x.task.tid != c.task.tid || x.st == .free then .next t
    else s.afterWindow (.next (t.setMe { x.putBack c rs with pend := c.pend }))
  else if x.st != .ready && x.st != .asleep then .next (t.setMe { x.putBack c rs with pend := c.pend, windows := c.windows })
  else
    let y := ({ x with windows := c.windows }).putBack c (rs.filter fun r => !ws.contains r)
    let kept := ((c.inWindow ws 1).map (·.1)).filter fun r => !c.pend.any fun p => r == .g p.1
    let y := if Hdr.holds h c then y.putBack c kept else y
    .next (t.setMe (settle i h c s.fresh y))

/-- Executes a decoded instruction of the current context in its surroundings: the issue checks, late faults on registers it
reads, items it reads the status of, and open windows. DEDUCED: log entry 42. -/
def issue (ex : Instr → State → Out) (i : Instr) (s : State) : Out :=
  let c := s.me
  match Instr.hdr? i with
  | none => ex i s
  | some h =>
    let rs := Instr.reads i
    let ws := Instr.writes i
    let on := Hdr.holds h c
    if (issueTrap i c).isSome then s.afterWindow (ex i s)
    else if on && c.lateOn rs then s.afterWindow (.next (s.takeLate s.cur))
    else if (on && (c.awaits rs || (c.strict && c.awaits ws))) || s.acquiring then .next (s.setMe { c with st := .waiting .items })
    else
      match (if on && c.strict then c.violates (rs ++ ws) else none) with
      | some pc => s.afterWindow (.next (s.takeTrap s.cur { cause := .laviol, tval := pc }))
      | none =>
        if c.windows.isEmpty && c.pend.isEmpty && h.la = 0 then ex i s
        else
          let olds := if on then c.inWindow rs 0 else []
          let keep := if on then c.keeps ws else c.pend
          match ex i (s.setMe { c.peek olds with pend := keep, windows := LaWin.mark :: c.windows }) with
          | .next t => s.conclude t i h olds
          | r => r

/-! ## Time and order of steps -/

/-- Clk periods in the first n ns at 850 MHz (R5). -/
def clksAt (n : Nat) : Nat := n * 17 / 20

/-- Time passes (R5, R121): at least 2 ns of the 64-bit time base, and the clk periods that begin in it. -/
def State.tick (s : State) : State :=
  let d := 2 + Config.stepNs s.fresh
  { s with clk := s.clk + (clksAt (s.ns + d) - clksAt s.ns), ns := (s.ns + d) % 2 ^ 64, fresh := s.fresh + 1
           agent := .none }

/-- A context issues its next instruction, or issues again the one that waits (R276, R279, R281); not once its save has begun
(R381). -/
def Ctx.issues (c : Ctx) : Bool :=
  c.saving.isNone &&
  match c.st with
  | .ready | .waiting _ => true
  | _ => false

/-- Contexts that can issue or whose save goes on, in order of their keys. -/
def State.readyList (s : State) : List Nat :=
  (s.ctxs.filter fun x => decide (x.1 < numCtxs) && (x.2.issues || x.2.saving.isSome)).map (·.1)

/-- A step of another agent that comes by itself. The effect of a register write is no such step: it happens within the
SWR or the host write that causes it (R165, R308). -/
def Instr.spontaneous (i : Instr) : Bool :=
  match i with
  | .registerWrite .. | .windowEnable .. | .windowDisable .. | .cbdataWrite .. | .cbdataRead .. | .scrubcfWrite ..
  | .xinvPage .. | .xinvAsid .. | .xinvAll .. | .xinvReserved .. | .parkRetry .. | .parkFail .. | .migrationStart ..
  | .shmcfWrite .. | .apcfClear .. | .cmlayWrite .. | .ceresRetry .. | .ceresFail .. | .exportDisable .. | .exportEnable ..
  | .importEnable .. | .oslotWrite .. | .opticalStart .. => false
  | i => (Instr.hdr? i).isNone

/-- What comes next: events, then the instruction of a ready context chosen by the hardware, or of c where none is ready
(R175; DESIGN CHOICE: log entry 3). -/
def State.plan (s : State) (c : Nat) : State :=
  let l := s.readyList
  let n := Config.schedule s.fresh
  { s with agenda := (Config.events s.fresh).filter Instr.spontaneous, cur := (l[n % l.length]?).getD c, fresh := s.fresh + 1 }

/-- Fetches and issues the next instruction of the current context; a word that is not an instruction raises ILLOP
(R176, R177). -/
def runNext (ex : Instr → State → Out) (s : State) : Out :=
  match fetch s with
  | .error (.trap t) _ => s.afterWindow (.next (s.takeTrap s.cur t))
  | .error (.wait w) s' => .next (s'.setMe { s'.me with st := .waiting w })
  | .error .late _ => s.afterWindow (.next (s.takeLate s.cur))
  | .error (.fail ..) _ => .next s
  | .ok w s' =>
    match decode w with
    | none => s'.afterWindow (.next (s'.takeTrap s'.cur { cause := .illop, tval := w.extractLsb' 32 64 }))
    | some i => issue ex i s'

/-! ## Placing an instruction where the next step fetches it -/

/-- Stores an instruction of 96 bits at the pc of the current context: in the core's L1I, with a PLB entry that lets it
be fetched, the context ready and no event before it. -/
def placeInstr (s : State) (w : Nat) : State :=
  let c := s.me
  let va := c.pc.toNat
  let k := s.myCore
  let e : PlbEnt :=
    { vpage := va / 65536, size := .m64, asid := c.asid, rd := true, wr := true, ex := true, tk := true, g := false
      i := false, clean := false, cls := .plain }
  let bytes := natBytes w 12
  let n := min 12 (64 - va % 64)
  let l0 := lineKey c.asid va
  let l1 := lineKey c.asid (va + 11)
  let put (co : Core) (l off : Nat) (bs : List Byte) : Core :=
    let old : LineData := ((SMap.find? co.l1i l).map (·.data)).getD 0
    { co with l1i := SMap.put co.l1i l { data := mergeLine old (placeBytes bs off) (beOf off bs.length)
                                         base := va / 65536, size := .m64 } }
  let s := s.modCore k fun co => { co with plb := e :: co.plb }
  let s := s.modCore k fun co => put co l0 (va % 64) (bytes.take n)
  let s := if n < 12 then s.modCore k fun co => put co l1 0 (bytes.drop n) else s
  { s.setMe { c with st := .ready, rim := [], windows := [], pend := [], ring := [], yieldDue := false, saving := none, preq := false } with agenda := [] }

end Sys2Proof.Machine
end

