-- ==== Sys2Proof/Machine/Save.lean ====
section
/-! DEFINITION. Context frames: saving a context, restoring one, and what ends the items of a task that is discarded
(R91, R160, R284, R304, R329, R380 to R384, R386). -/

namespace Sys2Proof.Machine

/-! ## Items of a task that ends by force (R160, R304, R386) -/

/-- Completion codes of Table 07-5: done, and those used by KILL and CCANCEL. -/
def codeDone : BitVec 8 := 0x01
def codeKilled : BitVec 8 := 0x20
def codeCancelled : BitVec 8 := 0x21

/-- Status word of an item (Table 14-2). -/
def itemWord (chan : Nat) (code : BitVec 8) (oob : Bool) (flags : BitVec 5) : Word :=
  BitVec.ofNat 64 (chan * 2 ^ 40 + code.toNat * 2 ^ 24 + (if oob then 2 ^ 23 else 0) + flags.toNat * 2 ^ 18)

/-- FAIL with the reported code; of a terminal write, that word stays unwritten (R157, R158). -/
def RunRec.giveUp (r : RunRec) (code : BitVec 8) : RunRec :=
  if r.code = 0 then { r with st := .finish, code := code }
  else if r.wroteSt then { r with st := .finish, wroteCw := true } else { r with st := .finish, wroteSt := true }

/-- Ends the records of a task on one channel with a code: the current record ends at once, unless its code is fixed,
queued ones end without moving a byte, and the walk of a chain goes on from the current record (R158, R160). The number
of records ended now. -/
def Channel.endTask (c : Channel) (tid : Nat) (code : BitVec 8) : Channel × Nat :=
  let kill (e : ChanEnt) : ChanEnt := if e.tid == tid && e.dead.isNone then { e with dead := some code } else e
  let hit := (c.queue.filter fun e => e.tid == tid && e.dead.isNone).length
  match c.cur with
  | none => ({ c with queue := c.queue.map kill }, hit)
  | some r =>
    if r.ent.tid != tid || r.ent.dead.isSome then ({ c with queue := c.queue.map kill }, hit)
    else
      let r' := { r with ent := kill r.ent }
      match r.st with
      | .finish =>
        if r.code == codeDone && !r.wroteSt && !r.unacked.isEmpty then
          ({ queue := c.queue.map kill, cur := some { r' with code := code } }, hit + 1)
        else ({ queue := c.queue.map kill, cur := some r' }, hit)
      | .holding => ({ queue := c.queue.map kill, cur := none }, hit)
      | .next => ({ queue := c.queue.map kill, cur := some r' }, hit)
      | .start => ({ queue := c.queue.map kill, cur := some r' }, hit + 1)
      | _ => ({ queue := c.queue.map kill, cur := some (r'.giveUp code) }, hit + 1)

def Item.isPut (i : Item) : Bool :=
  match i.kind with
  | .put .. => true
  | _ => false

/-- Words and increment of a put have gone where they go. -/
def Item.landed (i : Item) : Bool :=
  match i.kind with
  | .put _ _ _ cen _ _ len _ => decide (len / 8 + (if cen then 1 else 0) ≤ i.at_)
  | _ => false

/-- Every byte of a put has landed; its increment may be out (R301, R305). -/
def Item.over (i : Item) : Bool :=
  match i.kind with
  | .put _ _ _ _ _ _ len _ => decide (len / 8 < i.at_) || (i.at_ == len / 8 && i.unacked == 0)
  | _ => false

/-- A put of a task ends KILLED: at once unless its words are away; one that is complete ends DONE (R304).
DEDUCED: log entry 34. -/
def Item.kill (i : Item) (tid : Nat) : Item :=
  if i.tid != tid || i.status.isSome || (i.landed && i.unacked == 0) then i
  else match i.kind with
    | .put _ _ _ _ vc .. => if i.away then { i with killed := true } else { i with status := some (itemWord vc codeKilled false 0) }
    | _ => i

/-- Flits of an issue number that wait in a send queue of a field and have not been sent: their addresses.
DEDUCED: log entry 105. -/
def Field.unsent (f : Field) (id : Nat) : List Nat :=
  f.optical.queues.flatMap fun q => (q.2.filter fun x => x.seq.isNone && x.flit.item == id).map (·.va)

/-- Takes those flits out of the send queues (R320). DEDUCED: log entry 105. -/
def Field.cutFlits (f : Field) (id : Nat) : Field :=
  let cut (q : Nat × List OFlit) : Nat × List OFlit := (q.1, q.2.filter fun x => x.seq.isSome || x.flit.item != id)
  { f with optical := { f.optical with queues := f.optical.queues.map cut } }

/-- The first unacknowledged flit of a record to an address: its ordinal, and the others. -/
def takeFlit (va : Nat) : List (Nat × Nat) → Option Nat × List (Nat × Nat)
  | [] => (none, [])
  | x :: t => if x.1 = va then (some x.2, t) else let r := takeFlit va t; (r.1, x :: r.2)

/-- The record that a channel runs has been ended by force: its unsent flits go. DEDUCED: log entry 34. -/
def State.cutRec (s : State) (cl ch : Nat) : State :=
  match ((s.cluster cl).chans.toList.getD ch {}).cur with
  | none => s
  | some r =>
    let f := cl / 40
    let out := (s.field f).unsent r.id
    if r.ent.dead != some r.code || r.wroteSt || out.isEmpty then s
    else
      let cut : RunRec := { r with unacked := out.foldl (fun l va => (takeFlit va l).2) r.unacked }
      let set1 (x : Channel × Nat) : Channel := if x.2 = ch then { x.1 with cur := some cut } else x.1
      (s.modField f fun fd => fd.cutFlits r.id).modCluster cl fun c => { c with chans := c.chans.zipIdx.map set1 }

/-- A put without n flits that it has not sent, the last one among them: it is not complete. -/
def Item.withoutFlits (i : Item) (n : Nat) : Item := { i with unacked := i.unacked - n, at_ := if n = 0 then i.at_ else 0 }

/-- A put that has been ended by force: its unsent flits go. A RAMO whose flit has not been sent fails with a code: it is never
performed (R304, R320). -/
def State.cutItem (s : State) (k : Nat) (code : BitVec 8) (i : Item) : State :=
  let f := fieldOf k
  let n := ((s.field f).unsent i.id).length
  let cut (j : Item) : Item := match j.kind with
    | .ramo .. => { j with bad := code, status := some 0 }
    | _ => j.withoutFlits n
  let forced : Bool := match i.kind with
    | .ramo .. => i.status.isNone
    | _ => i.killed
  if !forced || n == 0 then s
  else
    (s.modField f fun fd => fd.cutFlits i.id).modCore k fun c =>
      { c with items := c.items.map fun j => if j.id == i.id then cut j else j }

/-- Clusters of a field on whose channels a task has records or chains: CXLOAD may have taken it elsewhere. -/
def State.clustersOf (s : State) (f tid : Nat) : List Nat :=
  (s.clusters.filter fun x => x.1 / 40 == f && x.2.chans.toList.any fun h =>
    (h.queue.any fun e => e.tid == tid) || h.cur.any fun r => r.ent.tid == tid).map (·.1)

/-- Ends the records and puts of a task as KILL does. -/
def State.killItems (s : State) (k tid : Nat) : State :=
  let s := (s.clustersOf (fieldOf k) tid).foldl (fun s cl =>
    let s := s.modCluster cl fun c => { c with chans := c.chans.map fun h => (h.endTask tid codeKilled).1 }
    (List.range 4).foldl (fun s ch => s.cutRec cl ch) s) s
  let s := s.modCore k fun c => { c with items := c.items.map fun i => i.kill tid }
  ((s.core k).items.filter fun i => i.tid == tid).foldl (fun s i => s.cutItem k codeKilled i) s

/-! ## Requests that a task's end takes back (R92, R276, R374) -/

/-- The numbers under which the engines work for a task. -/
def State.worksOf (s : State) (k tid : Nat) : List Nat :=
  ((s.core k).mq.filter fun e => e.tid == tid).map (·.eid) ++ ((s.core k).items.filter fun i => i.tid == tid).map (·.id) ++
    (s.cluster (clusterOf k)).chans.toList.flatMap fun h => ((h.cur.filter fun r => r.ent.tid == tid).map (·.id)).toList

/-- A request at the rim is parked. -/
def RReq.parked (r : RReq) : Bool :=
  match r.stage with
  | .parked _ => true
  | _ => false

/-- An agent that works for a context, or under one of some numbers. -/
def Agent.isOf (a : Agent) (c : Option Nat) (ws : List Nat) : Bool :=
  match a with
  | .none => false
  | .cx x => some x == c
  | .work id _ => ws.contains id
  | .host _ => false

/-- The fill of a line is parked. -/
def Field.stuck (f : Field) (l : Nat) : Bool := f.rreqs.any fun r => r.kind == .fill && r.parked && lineKey r.asid r.va == l

/-- A queued store of a task that waits for a merging fill which is parked, and whose value no other context has seen. -/
def State.stuckStore (s : State) (k tid : Nat) (e : SqEnt) : Bool :=
  let l := lineKey e.asid e.va
  e.tid == tid && e.stamp.isNone && (s.field (fieldOf k)).stuck l && (match s.l2 (clusterOf k) l with
    | some x => wordsTouched e.be &&& ~~~(wordsCovered e.be) &&& ~~~x.valid != 0
    | none => false) &&
    !(s.ctxs.any fun x => coreOf x.1 == k && x.2.task.tid != tid && decide (e.n < x.2.seen))

/-- Stores of other tasks of the cluster wait on a line. -/
def State.othersStore (s : State) (k tid l : Nat) : Bool :=
  (coresOf (clusterOf k)).any fun j => (s.core j).sq.any fun e => lineKey e.asid e.va == l && (e.tid != tid || j != k)

/-- A request at a home that the end of a task takes back: loads and fetches of its context, and of an instruction that its save
has recorded; merging fills for them, and for its stuck stores. An atomic is performed or fails (R276). -/
def State.asked (s : State) (k tid : Nat) (c : Option Nat) (reqs : List Nat) (h : HReq) : Bool :=
  let fd := s.field (fieldOf k)
  let own := (c.isSome && h.cx == c) ||
    (h.cx.isNone && !h.pref && fd.rreqs.any fun r => reqs.contains r.id && lineKey r.asid r.va == h.line)
  match h.kind with
  | .evict .. | .atomic .. | .own => false
  | .rds => own
  | .merge => own || (h.cx.isNone && h.core == k && !s.othersStore k tid h.line &&
      (s.core k).sq.any fun e => lineKey e.asid e.va == h.line && s.stuckStore k tid e)

/-- A request that a task awaited goes: a parked one, or a PLB fill, and no other agent awaits it; hs: lines that the
task has asked a home for, others: lines that homes await for others. -/
def RReq.withdrawn (r : RReq) (c : Option Nat) (ws reqs hs others : List Nat) : Bool :=
  let mine := (c.isSome && r.cx == c) || reqs.contains r.id || (r.agents.any fun a => a.isOf c ws) ||
    (r.kind == .fill && hs.contains (lineKey r.asid r.va))
  let alone := (r.cx.isNone || r.cx == c) && r.agents.all fun a => a == .none || a.isOf c ws
  mine && alone && match r.kind with
    | .wb | .atomic => false
    | .fill => r.parked && !others.contains (lineKey r.asid r.va)
    | _ => r.parked || (c.isSome && r.cx == c)

/-- Loads that a context has sent through import slots go, with the parked requests that only they await at the other field;
an atomic is performed or fails (R92, R276). -/
def Field.dropPeers (f : Field) (c : Option Nat) : Field :=
  let gone (p : Peer) : Bool := c.isSome && p.cx == c && !(match p.op with
    | .atomic .. => true
    | _ => false)
  let ids := (f.peers.filter gone).map (·.id)
  let sole (r : RReq) : Bool := r.parked && r.cx.isNone && r.kind != .wb && !r.agents.isEmpty && r.agents.all fun a => a.isOf none ids
  if ids.isEmpty then f
  else { f with peers := f.peers.filter fun p => !gone p, rreqs := f.rreqs.filter fun r => !sole r }

/-- The end of a task by force withdraws the parked fills and the PLB fills that only it awaited, with what it has asked homes
and other fields for and has not been performed (R92, R386). c: its context; reqs: the requests its save has recorded. A park
group is not closed by this: its number stays taken until an XRES names it. DESIGN CHOICE, DEDUCED: log entry 89. -/
def State.withdraw (s : State) (k tid : Nat) (c : Option Nat) (reqs : List Nat) : State :=
  let f := fieldOf k
  let fd := s.field f
  let mine := fd.hreqs.filter (s.asked k tid c reqs)
  let hs := mine.map (·.line)
  let ws := s.worksOf k tid ++ mine.map (·.id)
  let fills (h : HReq) : Bool := match h.kind with
    | .evict .. | .own => false
    | _ => true
  let others := (fd.hreqs.filter fun h => fills h && !s.asked k tid c reqs h).map (·.line)
  let saved := (s.cores.filter fun x => fieldOf x.1 == f).flatMap fun x =>
    (x.2.saved.filter fun v => v.task.tid != tid).flatMap (·.reqs)
  let leave (r : RReq) : RReq :=
    { r with cx := if c.isSome && r.cx == c && r.kind != .atomic then none else r.cx
             agents := r.agents.filter fun a => !a.isOf c ws }
  let stuck (e : SqEnt) : Bool := s.stuckStore k tid e && !s.othersStore k tid (lineKey e.asid e.va)
  let s := s.modCore k fun co => { co with sq := co.sq.filter fun e => !stuck e }
  let s := s.modField f fun fd =>
    { fd with hreqs := fd.hreqs.filter fun h => !mine.contains h
              rreqs := (fd.rreqs.filter fun r => saved.contains r.id || !r.withdrawn c ws reqs hs others).map leave }
  (List.range 16).foldl (fun s g =>
    if c.isSome && (s.field g).peers.any fun p => p.cx == c then s.modField g fun fd => fd.dropPeers c else s) s

/-- Messages of a task that is ended by force are returned with DEAD, where they have not been placed; a return that no slot
accepts is discarded (R374, R386, R388). -/
def Msg.endedBy (m : Msg) : Msg :=
  { m with ended := true, st := match m.st with
    | .returning n => .returning n
    | .retRefused n _ _ => .returning n
    | _ => .returning 5 }

def State.endMsgs (s : State) (f tid : Nat) : State :=
  if (s.field f).msgs.any fun m => m.tid == tid then
    s.modField f fun fd => { fd with msgs := fd.msgs.map fun m => if m.tid == tid then m.endedBy else m }
  else s

/-- What a task that is stopped or has failed has in flight ends as for KILL (R386, R388). -/
def State.endForced (s : State) (k tid : Nat) (c : Option Nat) (reqs : List Nat) : State :=
  ((s.withdraw k tid c reqs).endMsgs (fieldOf k) tid).killItems k tid

/-! ## Marks (R260) -/

/-- The marks of a task leave a line, whose stamp takes theirs. DEDUCED: log entry 19. -/
def L2Line.publish (x : L2Line) (tid : Nat) : L2Line :=
  let m := x.marks.filter fun m => m.tid == tid
  if m.isEmpty then x
  else { x with marks := x.marks.filter fun m => m.tid != tid, wts := m.foldl (fun a m => Nat.max a m.stamp) x.wts }

/-- Publishes every mark of a task whose stores have performed. DEDUCED: log entry 19. -/
def State.publishMarks (s : State) (k tid : Nat) : State :=
  let keep (ms : List Mark) : List Mark := ms.filter fun m => m.tid != tid
  let s := s.modCluster (clusterOf k) fun c => { c with l2 := c.l2.map fun x => (x.1, x.2.publish tid) }
  let s := s.modField (fieldOf k) fun f => { f with shmMarks := keep f.shmMarks }
  let s := (coresOf (clusterOf k)).foldl (fun s j =>
    if (s.core j).cmarks.isEmpty then s else s.modCore j fun c => { c with cmarks := keep c.cmarks }) s
  s

/-- Writes that a mark of a task follows have not all performed. -/
def State.marksOpen (s : State) (k tid : Nat) : Bool :=
  let open_ (ms : List Mark) : Bool := ms.any fun m => m.tid == tid && s.markOpen m
  ((s.cluster (clusterOf k)).l2.any fun x => open_ x.2.marks) || open_ (s.field (fieldOf k)).shmMarks ||
    (coresOf (clusterOf k)).any fun j => open_ (s.core j).cmarks

/-! ## Frame lines -/

/-- Where a frame is: field, and cluster that reads or writes it; ASID, key ID, address. -/
structure FrameAt where
  f : Nat
  cl : Nat
  asid : BitVec 16
  key : BitVec 8
  addr : Nat
  deriving DecidableEq, Repr

/-- The translation of a page of a frame, probed for access; none where the fault handler has answered FAIL.
DEDUCED: log entry 40. -/
def FrameAt.probe (a : FrameAt) (va : Nat) (store : Bool) : M (Option XEnt) := do
  let s ← get
  match (s.field a.f).translate a.asid va with
  | some e => return if ← migMeets a.f a.asid va e then some e else none
  | none =>
    let page := va / 65536 * 65536
    match ← takeFail a.f (lineKey a.asid page) with
    | some _ => return none
    | none => do
      modify fun s => s.postRim a.f { id := 0, kind := .plb store, va := page, asid := a.asid, core := none, cx := none }
      throw (.wait .drain)

/-- The parts of a frame that are written or read: its first 16 KiB, and the accumulators held (R383). -/
def frameParts (accs : BitVec 4) : List (Nat × Nat) :=
  (0, 0x4000) :: ((List.range 4).filter fun n => accs.getLsbD n).map fun n => (0x4000 + n * 0x10000, 0x10000)

/-- The end of the last of them. -/
def frameLen (accs : BitVec 4) : Nat := (frameParts accs).foldl (fun m p => Nat.max m (p.1 + p.2)) 0

/-- Every 64 KiB page that these parts touch is mapped. -/
def FrameAt.probeAll (a : FrameAt) (accs : BitVec 4) (store : Bool) : M Bool := do
  let mut ok := true
  for p in frameParts accs do
    let lo := a.addr + p.1
    for j in List.range ((lo + p.2 - 1) / 65536 + 1 - lo / 65536) do
      match ← a.probe (Nat.max lo ((lo / 65536 + j) * 65536)) store with
      | some _ => pure ()
      | none => ok := false
  return ok

/-- Writes lines of a frame, from an offset, under the frame key ID with tags (R384). -/
def FrameAt.write (a : FrameAt) (off : Nat) (ls : List LineData) : M Unit := do
  for j in List.range ls.length do homeCollect a.f (lineKey a.asid (a.addr + off + 64 * j)) (some a.cl)
  for x in ls.zipIdx do
    let va := a.addr + off + 64 * x.2
    match (← get).field a.f |>.translate a.asid va with
    | none => throw (.wait .drain)
    | some e =>
      modify fun s => s.writeLine a.f (e.paOf va) a.key true x.1 (BitVec.allOnes 64) false a.asid va
      modify fun s => s.modField a.f fun fd => { fd with home := SMap.del fd.home (lineKey a.asid va) }

/-- Reads one line of a frame: none where it is poisoned, fails its tag or key, or is not mapped as R383 asks. -/
def FrameAt.readLine (a : FrameAt) (off : Nat) : M (Option LineData) := do
  let va := a.addr + off
  let l := lineKey a.asid va
  homeCollect a.f l (some a.cl)
  let s ← get
  match (s.field a.f).translate a.asid va with
  | none => throw (.wait .drain)
  | some e =>
    if e.key != a.key || !e.i then return none
    let h := s.hline a.f l
    match (s.field a.f).readLine (e.paOf va) a.key true with
    | .data d => return if h.poison then none else some (mergeLine d h.data (if h.present then BitVec.allOnes 64 else h.dirty))
    | .poison cls syn _ => do
      if h.present && !h.poison then return some h.data
      modify fun s => s.logErr a.f cls { syn := syn, kind := 0, addr := BitVec.ofNat 64 va, asid := a.asid, key := a.key }
      return none
    | .keyrev => return none

/-- Reads n lines of a frame: none if one of them cannot be read. -/
def FrameAt.read (a : FrameAt) (off : Nat) : Nat → M (Option (List Byte))
  | 0 => return some []
  | n + 1 => do
    match ← a.readLine off with
    | none => return none
    | some d => return (← a.read (off + 64) n).map (lineBytes d 0 64 ++ ·)

/-- Cuts bytes into n lines. -/
def linesOfBytes (bs : List Byte) : Nat → List LineData
  | 0 => []
  | n + 1 => lineOf bs :: linesOfBytes (bs.drop 64) n

/-! ## Withdrawn matrix instructions (R91) -/

/-- The pages from a to b hold an address. -/
def pagesHold (a b va : Nat) : Bool := decide (a / 65536 ≤ va / 65536) && decide (va / 65536 ≤ b / 65536)

/-- The parked requests that a queued MLD waits on. -/
def MqEnt.parkedReqs (e : MqEnt) (f : Field) : List Nat :=
  match e.ins with
  | .mld _ _ _ _ _ rows _ =>
    let a := e.wa.toNat
    (f.rreqs.filter fun r => r.cx.isNone && (r.asid == e.asid || r.asid == 0xFFFF)
      && pagesHold a (a + (rows.toNat + 1) * e.wb.toNat) r.va &&
      match r.stage with
      | .parked _ => true
      | _ => false).map (·.id)
  | _ => []

/-- The queued instructions of a task that a save withdraws: from a parked MLD on, when it is the task's oldest. -/
def State.withdrawn (s : State) (k tid : Nat) : List MqEnt :=
  match (s.core k).mq.filter fun e => e.tid == tid with
  | [] => []
  | e :: t => if (e.parkedReqs (s.field (fieldOf k))).isEmpty then [] else e :: t

/-- Ring entries of withdrawn instructions (R390). -/
def SeqEntry.withdraw (e : SeqEntry) (l : List MqEnt) : SeqEntry :=
  if e.st == .pending && l.any fun m => m.seq == e.seq then { e with st := .withdrawn } else e

/-- A withdrawn instruction is pending again after the restore. -/
def SeqEntry.reissue (e : SeqEntry) : SeqEntry := if e.st == .withdrawn then { e with st := .pending } else e

/-! ## What a frame holds (Table 18-5) -/

/-- State codes of SEQRD (R390). -/
def SeqState.code : SeqState → Nat
  | .pending => 0 | .done => 1 | .faulted => 2 | .notexec => 3 | .withdrawn => 4

/-- SEQRD parts 0, 1 and 2 of an entry (R390). -/
def SeqEntry.part (e : SeqEntry) : Nat → Word
  | 0 => BitVec.ofNat 64 (e.st.code * 2 ^ 61 + e.code.toNat * 2 ^ 48 + e.progress.toNat * 2 ^ 32 + e.seq.toNat)
  | 1 => e.pc
  | _ => e.addr

/-- Messages that hold send-queue entries of a task (R338). -/
def State.sqUsed (s : State) (k tid : Nat) : Nat := ((s.field (fieldOf k)).msgs.filter fun m => m.tid == tid).length

/-- The word SQD of a context (Table 17-4). -/
def State.sqd (s : State) (c : Nat) : Word :=
  let x := s.ctx c
  BitVec.ofNat 64 (s.sqUsed (coreOf c) x.task.tid * 2 ^ 20 + (if x.ppov.isSome then 256 else 0) + x.sqDepth % 16)

def padTo (n : Nat) (l : List Byte) : List Byte := (l ++ List.replicate n 0).take n
def word8 (w : Word) : List Byte := natBytes w.toNat 8

/-- The sequence ring as a frame holds it, the last 64 entries: a vector load that waits is withdrawn under the next number
(R91, R383). -/
def State.frameRing (s : State) (c : Nat) : List SeqEntry :=
  let x := s.ctx c
  let ring := x.ring.map fun e => e.withdraw (s.withdrawn (coreOf c) x.task.tid)
  let all := ring ++ if x.vec then [{ seq := x.nextSeq, st := .withdrawn, pc := x.pc }] else []
  all.drop (all.length - 64)

/-- A private block: its bytes are left open (R383). -/
def privBlock (seed n : Nat) : List Byte := (List.range (n / 8)).flatMap fun i => word8 (Config.freeWord (seed + i))

/-- The first 16 KiB of a frame. -/
def State.frameBytes (s : State) (c num reason : Nat) (accs : BitVec 4) (banks : Bool) : List Byte :=
  let x := s.ctx c
  let k := coreOf c
  let head := natBytes 1 4 ++ natBytes num 4 ++ natBytes (locator k).toNat 8 ++ natBytes s.ns 8 ++ natBytes reason 1
    ++ natBytes accs.toNat 1 ++ natBytes (if banks then 1 else 0) 1 ++ natBytes x.lates.length 1 ++ natBytes 0 4
    ++ natBytes (s.pts k) 8
  let preds := (List.range 8).foldl (fun a i => a + (if i != 0 && (x.p.toList.getD i false) then 2 ^ i else 0))
    (if x.lvl then 1 else 0)
  let pend := x.pend.foldl (fun a p => a ||| 2 ^ p.1) 0
  let traps := [x.ftvec, x.utvec, x.tcause, x.tpc, x.tval, x.tsave, x.utcause, x.utpc, x.utval, x.pdl]
  padTo 256 head ++ x.g.toList.flatMap word8
    ++ padTo 64 (word8 x.pc ++ natBytes preds 8 ++ natBytes pend 8)
    ++ padTo 192 (word8 x.fstat ++ word8 x.asidr ++ word8 (s.sqd c) ++ traps.flatMap word8)
    ++ natBytes (2 ^ 128 - 1) 16 ++ (x.q.toList.drop 1).flatMap (fun q => natBytes q.toNat 16)
    ++ privBlock s.fresh 2944
    ++ x.v.toList.flatMap (fun v => natBytes v.toNat 128)
    ++ padTo 2048 ((s.frameRing c).flatMap fun e => word8 (e.part 0) ++ word8 (e.part 1) ++ word8 (e.part 2) ++ natBytes 0 8)
    ++ privBlock (s.fresh + 368) 2048 ++ List.replicate 4096 0

/-- The lines of an accumulator, byte for byte in the layout of R237. -/
def Core.accLines (c : Core) (n : Nat) : List LineData :=
  (List.range 1024).map fun j =>
    lineOf ((List.range 16).flatMap fun i => natBytes (SMap.get c.acc (n * 16384 + 16 * j + i) 0).toNat 4)

/-- The accumulators that a context holds. -/
def Core.heldAccs (c : Core) (x : Nat) : BitVec 4 :=
  BitVec.ofNat 4 ((List.range 4).foldl (fun a n => if c.accHolder.toList.getD n none = some x then a + 2 ^ n else a) 0)

/-! ## Saving (R381) -/

/-- What a save waits for: stores, with those that it has seen and those that its marks follow, queued matrix instructions, atomics and requests sent, results of open windows, and
marks (R173, R212, R234, R255, R260, R276, R381). -/
def drained (c : Nat) : M Unit := do
  let s ← get
  let x := s.ctx c
  let k := coreOf c
  waitIf (s.undone k x.task.tid || s.seenOpenOf c || s.marksOpen k x.task.tid) .drain
  let gone := s.withdrawn k x.task.tid
  waitIf (gone.isEmpty && (s.core k).mq.any fun e => e.tid == x.task.tid) .drain
  waitIf (x.sent.isSome || x.cancelled.isSome) .drain
  waitIf (s.unresolved c) .drain
  let wd (q : BitVec 16) : Bool := gone.any fun e => e.seq == q
  waitIf (x.ring.any fun e => e.st == .pending && !wd e.seq && !(match e.dst with | some (.g _) => true | _ => false)) .drain
  modify fun s => s.publishMarks k x.task.tid

/-- Requests at the rim that a context waits on: its own, and the fills of lines that it has asked its home for. -/
def State.reqsOf (s : State) (c : Nat) : List Nat :=
  let f := s.field (fieldOf (coreOf c))
  (f.rreqs.filter fun r => r.cx == some c ||
    (r.kind == .fill && f.hreqs.any fun h => h.cx == some c && h.line == lineKey r.asid r.va)).map (·.id) ++
    (s.withdrawn (coreOf c) (s.ctx c).task.tid).flatMap fun e => e.parkedReqs f

/-- One of some requests at the rim is parked. -/
def State.anyParked (s : State) (f : Nat) (ids : List Nat) : Bool := (s.field f).rreqs.any fun r => r.parked && ids.contains r.id

/-- An instruction whose effect has begun, which a save and a KILL let end: an atomic under way, an answer that it has yet to
take, a CCANCEL (R276, R381). -/
def Ctx.committed (x : Ctx) : Bool := x.cancelled.isSome || x.sent.any fun q => q.atomic || q.reply.isSome

/-- The context stands at no instruction boundary: its instruction goes on and ends before a save, unless a request of it is parked
(R91, R207, R381). -/
def State.midway (s : State) (c : Nat) : Bool :=
  let x := s.ctx c
  x.committed || (x.st == .waiting .memory && !s.anyParked (fieldOf (coreOf c)) (s.reqsOf c))

/-- An atomic whose fill is parked has not been executed: a save takes it back, and only the fill stays (R91). -/
def State.unsend (s : State) (c : Nat) : State :=
  let x := s.ctx c
  let f := fieldOf (coreOf c)
  let back (h : HReq) : Bool := h.cx == some c && (s.field f).stuck h.line && match h.kind with
    | .atomic .. => true
    | _ => false
  if (x.sent.any fun q => q.atomic && q.reply.isNone && q.stamp.isNone) && (s.field f).hreqs.any back then
    (s.modField f fun fd => { fd with hreqs := fd.hreqs.map fun h => if back h then { h with kind := .rds } else h }).modCtx c
      fun x => { x with sent := none }
  else s

/-- A context that a save meets at an instruction boundary begins it (R380, R381, R91). -/
def State.takeOut (s : State) (c reason : Nat) : State :=
  let u := s.unsend c
  if u.midway c then s else u.beginSave c reason (s.reqsOf c)

/-- The context record of a save, at a frame address. reqs: the requests that its instruction has waited on; of them, those that
have not completed. DEDUCED: log entry 54. -/
def State.savedOf (s : State) (c addr : Nat) (entry : Option Nat) (accs : BitVec 4) (banks ready : Bool) (reqs : List Nat) : Saved :=
  let x := s.ctx c
  let left := (reqs ++ s.reqsOf c).eraseDups.filter fun id => (s.field (fieldOf (coreOf c))).rreqs.any fun r => r.id == id
  let mq := s.withdrawn (coreOf c) x.task.tid
  { addr := addr, entry := entry, cx := ctxNum c, task := x.task, mscl := x.mscl, shadow0 := x.shadow0
    shadow1 := x.shadow1
    wait := match x.st with
      | .waiting w => some w
      | _ => none
    mq := mq, pend := x.pend, ppov := x.ppov, nextSeq := x.nextSeq, ring := x.ring.map fun e => e.withdraw mq
    reqs := left
    rim := x.rim, parts := if x.vec then [] else x.parts, banks := banks, accs := accs, ready := ready && left.isEmpty
    own := !x.preq && ready && left.isEmpty
    since := s.clk, ns := s.ns }

/-- Requests of a context no longer name it. -/
def State.orphanReqs (s : State) (c : Nat) : State :=
  s.modField (fieldOf (coreOf c)) fun f =>
    { f with rreqs := f.rreqs.map fun r => if r.cx == some c then { r with cx := none } else r
             hreqs := f.hreqs.map fun r => if r.cx == some c then { r with cx := none } else r }

/-- Writes the frame of a context and frees it (R381, step 5). reason: 0 yield, 1 forced, 2 park timeout, 3 CXSAVE. -/
def saveInto (c : Nat) (a : FrameAt) (num reason : Nat) (entry : Option Nat) (ready : Bool) (reqs : List Nat) : M Unit := do
  let s ← get
  let k := coreOf c
  let x := s.ctx c
  let accs := (s.core k).heldAccs (ctxNum c)
  let banks := ((s.cluster (clusterOf k)).bankHolder.map (·.2)) == some x.task.tid
  let bs := s.frameBytes c num reason accs banks
  let seed := s.fresh + 1000
  modify fun s => { s with fresh := seed }
  a.write 0 (linesOfBytes bs 256)
  for n in [0, 1, 2, 3] do
    if accs.getLsbD n then a.write (0x4000 + n * 0x10000) ((s.core k).accLines n)
  let sv := s.savedOf c a.addr entry accs banks ready reqs
  let free (co : Core) : Core :=
    { co with accHolder := co.accHolder.map fun h => if h = some (ctxNum c) then none else h
              joins := co.joins.filter fun j => j.1 != c
              mq := co.mq.filter fun e => e.tid != x.task.tid
              saved := co.saved ++ [sv] }
  modify fun s => ((s.modCore k free).dropWaits c).orphanReqs c
  modify fun s => s.setCtx c { x.freed with st := (match x.preqFor with
    | some l => if x.preq then .held l else .free
    | none => .free) }

/-- The frame of a save in progress. -/
def Saving.frame (v : Saving) (c : Nat) : FrameAt :=
  { f := fieldOf (coreOf c), cl := clusterOf (coreOf c), asid := v.asid, key := v.key, addr := v.addr }

/-- The entry that a save has taken, afterwards: its save number, state, priority and reason (R382, R384). -/
def Core.entryAfter (c : Core) (n num prio reason : Nat) (ready : Bool) : Core :=
  c.writeMem (0x2F808 + 32 * n) (natBytes num 4 ++ [if ready then 3 else 2, BitVec.ofNat 8 prio, BitVec.ofNat 8 reason])

/-- A save goes on to its end, or waits (R381). A frame page that cannot be written ends the task FAILED_CTXLOST, and its entry is
free again (Table 18-4). -/
def saveOn (c : Nat) : M Unit := do
  let s ← get
  let k := coreOf c
  let x := s.ctx c
  match x.saving with
  | none => pure ()
  | some v => do
    drained c
    let a := v.frame c
    if !(← a.probeAll ((s.core k).heldAccs (ctxNum c)) true) then
      modify fun s => ((s.endForced k x.task.tid (some c) v.reqs).orphanReqs c).endTask c .ctxLost
      match v.entry with
      | some n => modify fun s => s.modCore k fun co => co.writeMem (0x2F80C + 32 * n) [1]
      | none => pure ()
    else match v.entry with
      | none => saveInto c a ((Config.freeWord s.fresh).toNat % 2 ^ 32) v.reason none false v.reqs
      | some n => do
        let num := ((s.core k).frameNum n + 1) % 2 ^ 32
        saveInto c a num v.reason (some n) true v.reqs
        modify fun s => s.modCore k fun co =>
          co.entryAfter n num x.task.prio v.reason ((co.saved.getLast?.map (·.ready)).getD true)

/-- A member that a failed group stops is discarded instead of saved, and what it has in flight ends as for KILL (R386).
DEDUCED: log entry 86. -/
def State.discard (s : State) (c : Nat) : State :=
  let x := s.ctx c
  ((s.endForced (coreOf c) x.task.tid (some c) []).orphanReqs c).endTask c .stopped

/-- A context leaves at an instruction boundary: discarded, or its save begins. -/
def State.leave (s : State) (c reason : Nat) : State :=
  if (s.ctx c).task.stop then (if (s.unsend c).midway c then s else s.discard c) else s.takeOut c reason

/-- A context that is due to yield first takes a recorded late fault (R379); else its save begins, or it is discarded; one that can
no longer be saved goes on (R285). DEDUCED: log entry 43. -/
def State.yieldNow (s : State) (c : Nat) : Out :=
  if !(s.ctx c).lateDue.isEmpty then
    if s.unresolved c then .next s else .next ((s.takeLate c).modCtx c fun x => { x with yieldDue := false })
  else if s.canSave c then .next (s.leave c 0) else .next (s.modCtx c fun x => { x with yieldDue := false })

/-! ## Restoring (R384) -/

/-- Registers of a context from the bytes of a frame and its private record; reserved bits read 0 (R8). The TVAL of a PORTOV that
only software has made pending is a free value. DEDUCED: log entry 54. -/
def ctxOfFrame (bs : List Byte) (sv : Saved) : Ctx :=
  let w (o : Nat) : Word := BitVec.ofNat 64 (fieldAt bs o 8)
  let t (i : Nat) : Word := w (0x358 + 8 * i)
  let preds := fieldAt bs 0x308 8
  let mask := fieldAt bs 0x310 8
  { pc := w 0x300 &&& ~~~3#64
    g := (Vector.range 64).map fun n => if n = 0 then 0 else w (0x100 + 8 * n)
    p := (Vector.range 8).map fun n => n != 0 && preds.testBit n
    v := (Vector.range 32).map fun n => BitVec.ofNat 1024 (fieldAt bs (0x1000 + 128 * n) 128)
    q := (Vector.range 8).map fun n => if n = 0 then 0 else BitVec.ofNat 128 (fieldAt bs (0x400 + 16 * n) 16)
    fstat := w 0x340 &&& fstatMask, lvl := preds.testBit 0, asidr := w 0x348 &&& 0xFFFF#64, sqDepth := fieldAt bs 0x350 1 % 16
    ftvec := t 0 &&& vecMask, utvec := t 1 &&& vecMask, tcause := t 2 &&& causeMask, tpc := pcField (t 3), tval := t 4
    tsave := t 5 &&& 3#64, utcause := t 6 &&& causeMask, utpc := pcField (t 7), utval := t 8, pdl := t 9 &&& 0xFFFFFFFF#64
    ppov := if (w 0x350).getLsbD 8 then some (sv.ppov.getD (Config.freeWord sv.since)) else none
    ring := sv.ring.map SeqEntry.reissue, nextSeq := sv.nextSeq, pend := sv.pend.filter fun p => mask.testBit p.1
    mscl := sv.mscl, shadow0 := sv.shadow0, shadow1 := sv.shadow1, st := .ready, task := sv.task, rim := sv.rim
    parts := sv.parts }

/-- Accumulator words from the bytes of a frame. -/
def Core.putAcc (c : Core) (n : Nat) (bs : List Byte) : Core :=
  let kept := c.acc.filter fun x => x.1 / 16384 != n
  let put (m : SMap (BitVec 32)) (i : Nat) : SMap (BitVec 32) :=
    let v : BitVec 32 := BitVec.ofNat 32 (fieldAt bs (4 * i) 4)
    if v = 0 then m else SMap.put m (n * 16384 + i) v
  { c with acc := (List.range 16384).foldl put kept }

/-- Reads a frame back into a context of a core; false when the task is lost. The header names the accumulators, which it claims
first (R383, R384); instructions that were withdrawn wait for room in the matrix queue (R229). The save number is compared when
one is given. A member that has been stopped is pre-empted again (R386). -/
def restoreInto (k x : Nat) (a : FrameAt) (num : Option Nat) (sv : Saved) : M Bool := do
  let s ← get
  let c := k * 16 + x
  if !(← a.probeAll 0 false) then return false
  match ← a.read 0 256 with
  | none => return false
  | some bs =>
    match num with
    | some n => if fieldAt bs 4 4 != n then return false
    | none => pure ()
    let held : BitVec 4 := BitVec.ofNat 4 (fieldAt bs 25 1)
    let taken := (List.range 4).any fun n =>
      held.getLsbD n && (((s.core k).accHolder.toList.getD n none).any (· != x) || (s.core k).mq.any fun e => e.acc? == some n)
    waitIf (taken || decide (32 < (s.core k).mq.length + sv.mq.length)) .drain
    if !(← a.probeAll held false) then return false
    let mut accs : List (Nat × List Byte) := []
    for n in [0, 1, 2, 3] do
      if held.getLsbD n then
        match ← a.read (0x4000 + n * 0x10000) 1024 with
        | none => return false
        | some b => accs := accs ++ [(n, b)]
    let mine := accs.map (·.1)
    modify fun s => s.modCore k fun co =>
      let co := accs.foldl (fun (co : Core) b => co.putAcc b.1 b.2) co
      let back := sv.mq.map fun e => { e with cx := c }
      { co with accHolder := (Vector.range 4).map fun n => if inList n mine then some x else co.accHolder.toList.getD n none
                mq := co.mq ++ back
                saved := co.saved.filter fun v => v.task.tid != sv.task.tid }
    modify fun s =>
      let s := s.setCtx c { ctxOfFrame bs sv with preq := sv.task.stop, preqClk := s.clk }
      let s := (s.raisePts k (fieldAt bs 32 8)).acquireAll k
      s.modCluster (clusterOf k) fun cl => match cl.bankHolder with
        | some (_, t) => if t = sv.task.tid then { cl with bankHolder := if byteAt bs 26 = 1 then some (c, t) else none } else cl
        | none => cl
    return true

/-- A saved task that cannot be restored ends FAILED_CTXLOST, with its group (R384, R386). DEDUCED: log entry 84. -/
def State.loseSaved (s : State) (k : Nat) (sv : Saved) : State :=
  let s := s.modCore k fun co =>
    { co.releaseTask 99 sv.task.tid with saved := co.saved.filter fun v => v.task.tid != sv.task.tid }
  let s := s.modCluster (clusterOf k) fun cl => cl.releaseTask sv.task.tid
  let s := s.endForced k sv.task.tid none sv.reqs
  match sv.task.member with
  | none => s
  | some m => (s.markMember m .ctxLost (locator k)).stopGroup m.gid

end Sys2Proof.Machine
end

