-- ==== Sys2Proof/Machine/Items.lean ====
section
/-! DEFINITION. Items of a context: their creation, and the writing of their status to gd (R292, R295). -/

namespace Sys2Proof.Machine

/-- The context of a core that runs a task. -/
def State.ctxOfTask (s : State) (k tid : Nat) : Option Nat :=
  ((List.range 16).map (k * 16 + ·)).find? fun c =>
    match (s.ctx c).st with
    | .free | .held _ => false
    | _ => (s.ctx c).task.tid == tid

/-- The context of a field that runs a task, on whatever core CXLOAD has put it. -/
def State.taskAt (s : State) (f tid : Nat) : Option Nat :=
  (List.find? (fun (x : Nat × Ctx) => fieldOf (coreOf x.1) == f && x.2.task.tid == tid && !x.2.vacant) s.ctxs).map (·.1)

/-- Kinds that hold an entry of the transfer interface. -/
def ItemKind.transfer : ItemKind → Bool
  | .cpy _ | .put .. | .ramo .. => true
  | _ => false

/-- Issue waits while no entry of the transfer interface is free (R292). -/
def entryWait : M Unit := do
  let s ← get
  waitIf (decide (32 ≤ ((s.core s.myCore).items.filter fun i => i.kind.transfer && i.status.isNone).length)) .items

/-- A new item of the issuing context, whose status goes to gd. -/
def newItem (d : GReg) (sc : Scope) (kind : ItemKind) (status : Option Word) : M Nat := do
  let id ← freshId
  let s ← get
  let c := s.me
  let it : Item :=
    { id := id, cx := s.cur, tid := c.task.tid, gd := d.toNat, asid := c.asid, lvl := c.lvl, extn := c.extn, sc := sc
      kind := kind, status := status }
  modify fun s => s.modCore s.myCore fun k => { k with items := k.items ++ [it] }
  modMe fun c => { c with pend := c.pend ++ [(d.toNat, id)] }
  return id

def State.item? (s : State) (k id : Nat) : Option Item := (s.core k).items.find? fun i => i.id == id

def State.setItem (s : State) (k : Nat) (i : Item) : State :=
  s.modCore k fun c => { c with items := c.items.map fun j => if j.id == i.id then i else j }

def State.dropItem (s : State) (k id : Nat) : State :=
  s.modCore k fun c => { c with items := c.items.filter fun i => i.id != id }

/-- An item has ended: contexts that wait for items look again. -/
def State.endItem (s : State) (k : Nat) (i : Item) (w : Word) : State :=
  let s := s.setItem k { i with status := some w }
  match s.ctxOfTask k i.tid with
  | some c => s.wake c
  | none => s

/-- Takes a register off the list of those that await an item. -/
def Ctx.unpend (c : Ctx) (id : Nat) : Ctx := { c with pend := c.pend.filter fun p => p.2 != id }

/-- Writes the status of an item that has ended to its gd, an acquire (R295); while its task is saved it waits, and when
the task is gone it is dropped. DEDUCED: log entry 32. -/
def State.giveStatus (s : State) (k id : Nat) : State :=
  match s.item? k id with
  | none => s
  | some i =>
    match i.status with
    | none => s
    | some w =>
      match s.ctxOfTask k i.tid with
      | some c =>
        let x := s.ctx c
        let x := if x.pend.any fun p => p.2 == id then (x.unpend id).wg (BitVec.ofNat 6 i.gd) w else x
        ((s.setCtx c x.wake).acquireAll k).dropItem k id
      | none => if (s.core k).saved.any fun v => v.task.tid == i.tid then s else s.dropItem k id

/-- A status word of Table 07-3 in bits [31:24]. -/
def mbWord (code : BitVec 8) : Word := BitVec.ofNat 64 (code.toNat * 2 ^ 24)

end Sys2Proof.Machine
end

