-- ==== Sys2Proof/Machine/Sched.lean ====
section
/-! DEFINITION. What the scheduler of a core holds: classes, inbox slots, patterns and their arbitration, the start of a
task (R335 to R346). -/

namespace Sys2Proof.Machine

/-! ## Contexts and classes (R335, R336) -/

/-- CXCLS allows a context for a class. -/
def Core.allows (c : Core) (cls x : Nat) : Bool := (bits (c.reg 0x044) (14 * (cls % 4)) 14).testBit x

/-- The lowest free context of a core that a class may use. -/
def State.freeCtx (s : State) (k cls : Nat) : Option Nat :=
  (List.range 14).find? fun x => (s.core k).allows cls x && (s.ctx (k * 16 + x)).st == .free

/-- The start of a task in a context (R331, R345, R348, R370): other registers keep their values.
DEDUCED: log entry 44. -/
def Ctx.start (c : Ctx) (pc : Word) (g : Vector Word 64) (fst : BitVec 2) (asid : BitVec 16) (t : Task) : Ctx :=
  { c with
    pc := pcField pc, g := g, fstat := fst.setWidth 64 <<< 8, asidr := asid.setWidth 64, lvl := false, preq := false
    tsave := 0, mscl := {}, shadow0 := {}, shadow1 := {}, sqDepth := 8, ppov := none, ring := [], nextSeq := 0
    windows := [], pend := [], sent := none, parts := [], rim := [], yieldDue := false, cancelled := none
    preqFor := none, seen := 0, saving := none, vec := false, st := .ready, task := t }

/-- General registers with g1 set. -/
def argRegs (x : Word) : Vector Word 64 := (Vector.replicate 64 0).set 1 x

/-! ## Inbox slots (R337, R340, R345) -/

/-- The lowest free slot of the inbox pool. -/
def Core.freeSlot (c : Core) : Option Nat := (List.range 64).find? fun n => (SMap.find? c.slots n).isNone

/-- Messages that the pool holds: in ports, spilled or owned. -/
def Core.poolUsed (c : Core) : Nat := c.slots.length

/-- The 16-byte header of a message (Table 17-5). -/
def Msg.header (m : Msg) (ret : Option Nat) : List Byte :=
  let b5 := m.rport % 32 + (if m.rpy then 32 else 0) + (if m.extn then 64 else 0) + (if ret.isSome then 128 else 0)
  natBytes m.dloc.toNat 4 ++ natBytes (m.dport % 32) 1 ++ natBytes b5 1 ++ natBytes m.len8 1 ++ natBytes (ret.getD 0) 1
    ++ natBytes (locator m.src).toNat 4 ++ natBytes m.tag.toNat 2 ++ natBytes (ctxNum m.cx) 1 ++ [0]

/-- Puts a message's header and payload into a slot. -/
def Core.fillSlot (c : Core) (n : Nat) (bs : List Byte) (u : SlotUse) : Core :=
  { c.writeMem (slotBase n) bs with slots := SMap.put c.slots n u }

/-- A message placed at the tail of a queued port. -/
def Core.placeMsg (c : Core) (port n : Nat) (bs : List Byte) : Core :=
  match SMap.find? c.ports port with
  | none => c
  | some p => { c.fillSlot n bs (.port port) with ports := SMap.put c.ports port { p with queue := p.queue ++ [n] } }

/-- A message placed in a slot marked spilled. -/
def Core.spillMsg (c : Core) (port n : Nat) (bs : List Byte) : Core :=
  { c.fillSlot n bs (.spilled port) with spills := c.spills ++ [n] }

/-- A slot returns to the pool. -/
def Core.dropSlot (c : Core) (n : Nat) : Core := { c with slots := SMap.del c.slots n, spills := c.spills.filter (· != n) }

/-! ## Patterns (R343, R344) -/

def Core.jen (c : Core) : Nat := bits (c.reg 0x050) 0 16
def Core.setJen (c : Core) (m : Nat) : Core := c.setReg 0x050 (BitVec.ofNat 64 (m % 65536))

/-- Messages that a port holds. -/
def Core.portLen (c : Core) (n : Nat) : Nat := ((SMap.find? c.ports n).map (·.queue.length)).getD 0

/-- Each port holds at least its count. -/
def Core.satisfied (c : Core) (p : Pattern) : Bool := p.ins.all fun i => decide (i.2 ≤ c.portLen i.1)

/-- JARB.PASS. -/
def Core.passLimit (c : Core) : Nat := bits (c.reg 0x046) 0 6

/-- Effective priority of a pattern or direct port that has been passed over a number of times (R344). -/
def Core.boosted (c : Core) (passed prio : Nat) : Nat := if c.passLimit ≤ passed then 8 else prio
def Core.effPrio (c : Core) (p : Pattern) : Nat := c.boosted p.passed p.prio

/-- A candidate of R344: effective priority, firings since its own, number; join: a waiting JOINW. -/
structure Cand where
  prio : Nat
  since : Nat
  num : Nat
  join : Option Nat
  deriving DecidableEq, Repr

/-- The first of two candidates is chosen. -/
def Cand.before (a b : Cand) : Bool :=
  decide (b.prio < a.prio) || (a.prio == b.prio && (decide (b.since < a.since) || (a.since == b.since && decide (a.num < b.num))))

/-- The best of a list. -/
def bestCand : List Cand → Option Cand
  | [] => none
  | x :: t => match bestCand t with
    | none => some x
    | some y => if y.before x then some y else some x

/-- The longest-waiting JOINW on a pattern. DEDUCED: log entry 76. -/
def Core.joinOn (c : Core) (n : Nat) : Option Nat := (c.joins.find? fun j => j.2 == n).map (·.1)

/-- Candidates: waiting JOINWs, and enabled satisfied patterns whose class a test allows. -/
def Core.cands (c : Core) (ok : Nat → Bool) : List Cand :=
  (c.pats.filter fun p => c.satisfied p.2).flatMap fun p =>
    (match c.joinOn p.1 with
     | some x => [{ prio := 8, since := p.2.since, num := p.1, join := some x }]
     | none => []) ++
    (if c.jen.testBit p.1 && ok p.2.cls then [{ prio := c.effPrio p.2, since := p.2.since, num := p.1, join := none }] else [])

/-- The pass count after a firing of something else: a boost lasts until the pattern fires (R344). -/
def Core.passedBy (c : Core) (passed : Nat) (could : Bool) : Nat :=
  if c.passLimit ≤ passed then passed else if could then passed + 1 else 0

/-- Counts a firing (R344): of a pattern, or of a direct port; waits: the direct ports at which a refused arrival waits. A direct
port acts as a pattern that is satisfied while one waits (R343). DEDUCED: log entry 80. -/
def Core.countFiring (c : Core) (fired direct : Option Nat) (waits : List Nat) : Core :=
  let one (p : Nat × Pattern) : Nat × Pattern :=
    if some p.1 = fired then (p.1, { p.2 with since := 0, passed := 0 })
    else (p.1, { p.2 with since := p.2.since + 1, passed := c.passedBy p.2.passed (c.satisfied p.2 && c.jen.testBit p.1) })
  let port (p : Nat × Port) : Nat × Port :=
    if !p.2.direct then p
    else if some p.1 = direct then (p.1, { p.2 with since := 0, passed := 0 })
    else (p.1, { p.2 with since := p.2.since + 1, passed := c.passedBy p.2.passed (waits.contains p.1) })
  { c with pats := c.pats.map one, ports := c.ports.map port }

/-- Ports of a core at which a refused arrival or return waits. -/
def State.waitPorts (s : State) (k : Nat) : List Nat :=
  (s.field (fieldOf k)).msgs.filterMap fun m => match m.st with
    | .refused .. => if s.locCore m.dloc = some k then some m.dport else none
    | .retRefused .. => if m.src = k then some m.rport else none
    | _ => none

/-! ## Work that a free context owes to an earlier rank (R336) -/

/-- A saved task comes before another: higher priority, then longest ready. DEDUCED: log entry 81. -/
def Saved.before (a b : Saved) : Bool := decide (b.task.prio < a.task.prio) || (a.task.prio == b.task.prio && decide (a.since ≤ b.since))

/-- The saved task of a rank that a context takes first. DEDUCED: log entries 54, 81. -/
def Core.restorable (c : Core) (x : Nat) (own : Bool) : Option (Nat × Saved) :=
  let vs := c.saved.filter fun v => v.ready && v.own == own && c.allows v.task.cls x && v.entry.isSome
  match vs with
  | [] => none
  | v :: t => let best := t.foldl (fun a b => if a.before b then a else b) v; best.entry.map fun e => (e, best)

/-- A free context that work of rank 1 or a firing takes before a gang start can (Table 16-7). -/
def Core.awaits (c : Core) (x : Nat) : Bool :=
  (c.restorable x false).isSome || (c.cands fun cls => c.allows cls x).any fun d => d.join.isNone

/-- The context that an arrival at a direct port starts: the lowest free one that neither work of rank 1 nor a firing that
R344 puts before the port's takes. DEDUCED: log entry 80. -/
def State.arrivalCtx (s : State) (k n : Nat) (p : Port) : Option Nat :=
  let c := s.core k
  let me : Cand := { prio := c.boosted p.passed p.prio, since := p.since, num := 16 + n, join := none }
  (List.range 14).find? fun x =>
    c.allows p.cls x && (s.ctx (k * 16 + x)).st == .free && (c.restorable x false).isNone &&
      !((c.cands fun cls => c.allows cls x).any fun d => d.join.isNone && d.before me)

/-! ## Taking messages (R345) -/

/-- A take list: count in bits [63:60], slots of 6 bits, oldest first. -/
def takeList (slots : List Nat) : Word :=
  BitVec.ofNat 64 (slots.length * 2 ^ 60 + (slots.zipIdx.foldl (fun a x => a + x.1 % 64 * 2 ^ (6 * x.2)) 0))

/-- The oldest count messages of each input, removed from its port and owned by a task. -/
def Core.takeInputs (c : Core) (tid : Nat) : List (Nat × Nat) → Core × List (List Nat)
  | [] => (c, [])
  | (port, n) :: t =>
    match SMap.find? c.ports port with
    | none => let (c, l) := c.takeInputs tid t; (c, [] :: l)
    | some p =>
      let own := p.queue.take n
      let c := { c with ports := SMap.put c.ports port { p with queue := p.queue.drop n }
                        slots := own.foldl (fun m x => SMap.put m x (.owned tid)) c.slots }
      let (c, l) := c.takeInputs tid t
      (c, own :: l)

/-- Slots that a task comes to own. -/
def Task.own (t : Task) (ns : List Nat) : Task := { t with slots := t.slots ++ ns.map fun n => { slot := n } }

/-- A release at FLD by a task's start is met by an acquire (R361, R370, R371). DEDUCED: log entry 18. -/
def State.startAcquire (s : State) (k : Nat) : State := s.acquireAll k

end Sys2Proof.Machine
end

