-- ==== Sys2Proof/Machine/Deliver.lean ====
section
/-! DEFINITION. What reaches a waiting context: outcomes of the rim, messages of field service, and the completion of
requests that a saved task waits on (R89, R91, R451). -/

namespace Sys2Proof.Machine

/-! ## Outcomes (R89) -/

/-- The outcome that a code of Table 07-5 stands for. -/
def RimOut.ofCode (code : BitVec 8) (va : Nat) : RimOut :=
  if code = codeKeyrev then .keyrev va else if code = codeUe then .ue va else if code = codeBounds then .bounds va
  else if code = codePerm then .perm va else if code = codeFmtwr then .fmtwr va else .nomap va

/-- Delivers an outcome to a context, which issues its instruction again and meets it there. DEDUCED: log entry 11. -/
def State.deliver (s : State) (c : Nat) (o : RimOut) : State :=
  s.modCtx c fun x => { x with rim := x.rim ++ [o], sent := none }.wake

/-- A context goes on: what it waited for at the rim has come. -/
def State.served (s : State) (c : Nat) : State := s.modCtx c Ctx.wake

/-- A saved task no longer waits on a request; with none left it is ready (R91). -/
def Saved.met (v : Saved) (f : Field) (id clk : Nat) (o : Option RimOut) : Saved :=
  if !inList id v.reqs then v
  else
    let matrix := v.mq.any fun e => inList id (e.parkedReqs f)
    let left := v.reqs.filter (· != id)
    { v with reqs := left, rim := if matrix then v.rim else v.rim ++ o.toList, ready := v.ready || left.isEmpty
             since := if left.isEmpty && !v.ready then clk else v.since }

/-- Marks the frame-list entry of a task that has become ready (R382). -/
def Core.markReady (c : Core) (v w : Saved) : Core :=
  if !v.ready && w.ready then
    match w.entry with
    | some n => c.writeMem (0x2F80C + 32 * n) [3]
    | none => c
  else c

/-- A request has completed, for every saved task of a field that waits on it. -/
def State.reqDone (s : State) (f id : Nat) (o : Option RimOut) : State :=
  let fd := s.field f
  let one (c : Core) : Core :=
    if c.saved.any fun v => inList id v.reqs then
      let up := c.saved.map fun v => (v, v.met fd id s.clk o)
      up.foldl (fun c p => c.markReady p.1 p.2) { c with saved := up.map (·.2) }
    else c
  { s with cores := s.cores.map fun x => if fieldOf x.1 = f then (x.1, one x.2) else x }

/-! ## Messages to field service (R88, R157, R451) -/

/-- A header and payload from a unit to a port of the supervisor core; what Table 17-5 does not fix for a unit is left
open. DESIGN CHOICE: log entry 14. -/
def unitMsg (s : State) (f port : Nat) (pay : List Byte) : List Byte :=
  let free (i : Nat) : Byte := Config.freeByte s.fresh i
  natBytes (locator (supervisor f)).toNat 4 ++ natBytes port 1 ++ [free 5 &&& 0x7F] ++ natBytes (pay.length / 8) 1
    ++ natBytes 0 1 ++ (List.range 6).map (fun i => free (8 + i)) ++ [free 14 &&& 0x0F, 0] ++ pay

/-- Context 15 is free to start a handler. -/
def Ctx.idle (c : Ctx) : Bool := c.st == .free || c.st == .asleep

/-- A service context starts at field level under the ASID it last held (R335, R342). DEDUCED: log entry 15. -/
def Ctx.startService (c : Ctx) (pc : Word) (g : Vector Word 64) (t : Task) : Ctx :=
  { c.start pc g 0 c.asid t with lvl := true }

/-- A service context that sleeps goes on. -/
def Ctx.wakeUp (c : Ctx) : Ctx := if c.st = .asleep then { c with st := .ready } else c

/-- Starts the handler of a direct port in a context, with a message in a slot that its task owns (R339, R345).
DEDUCED: log entry 15. -/
def State.startDirect (s : State) (k x n port : Nat) (p : Port) (bs : List Byte) : State :=
  let c := k * 16 + x
  let tid := s.fresh
  let t : Task := { tid := tid, prio := p.prio, cls := p.cls, slots := [{ slot := n }], owner := p.owner }
  let s := s.modCore k fun co => (co.fillSlot n bs (.owned tid)).countFiring none (some port) (s.waitPorts k)
  let s := if 14 ≤ x then s.modCtx c fun y => y.startService p.handler (argRegs (takeList [n])) t
    else s.modCtx c fun y => y.start p.handler (argRegs (takeList [n]))
      ((if p.strict then 2 else 0) + (if p.extn then 1 else 0)) p.asid t
  (s.bump).startAcquire k

/-- Delivers a unit's message to port 30 or 31 of the supervisor core; none while the port cannot take it. -/
def State.toService (s : State) (f port : Nat) (pay : List Byte) : Option State :=
  let k := supervisor f
  let c := s.core k
  let bs := unitMsg s f port pay
  match SMap.find? c.ports port, c.freeSlot with
  | some p, some n =>
    if c.retired then none
    else if p.direct then
      if (s.ctx (k * 16 + 15)).idle then some (s.startDirect k 15 n port p bs) else none
    else if p.queue.length < p.limit then
      some (((s.modCore k fun c => c.placeMsg port n bs).modCtx (k * 16 + 15) Ctx.wakeUp).bump)
    else none
  | _, _ => none

end Sys2Proof.Machine
end

