-- ==== Sys2Proof/Machine/RimEvents.lean ====
section
/-! DEFINITION. Steps of the rim: requests, walks, reads of the stacks, parking, invalidation, migration, scrubbing, the
die-to-die links, windows and codebooks (R24 to R43, R78 to R97). -/

namespace Sys2Proof.Machine

def State.rreq? (s : State) (f id : Nat) : Option RReq := (s.field f).rreqs.find? fun r => r.id == id
def State.setReq (s : State) (f : Nat) (r : RReq) : State :=
  s.modField f fun fd => { fd with rreqs := fd.rreqs.map fun x => if x.id == r.id then r else x }
def State.dropReq (s : State) (f id : Nat) : State :=
  s.modField f fun fd => { fd with rreqs := fd.rreqs.filter fun x => x.id != id }
def RReq.page (r : RReq) : Nat := r.va / 65536

/-- A request that fills a PLB entry. -/
def RKind.plbFill : RKind → Bool
  | .plb _ | .fetch => true
  | _ => false

/-! ## Requests that end (R89) -/

/-- Contexts that have asked a home for the line of a fill, those of field service or the others (R90). -/
def Field.askers (f : Field) (l : Nat) (svc : Bool) : List Nat :=
  (f.hreqs.filter fun h => h.line == l && h.svc == svc).filterMap (·.cx)

/-- The agents of a request have an outcome to meet. -/
def Field.failAgents (f : Field) (l : Nat) (as : List Agent) (code : BitVec 8) : Field :=
  { f with rimFails := f.rimFails.filter (fun x => !(x.1 == l && as.contains x.2.1)) ++ as.map fun a => (l, a, code) }

/-- A fill has failed: every context that asked for its line, and every other agent that waits for it, meets the outcome.
DEDUCED: log entry 11. -/
def State.failFill (s : State) (f : Nat) (r : RReq) (code : BitVec 8) : State :=
  let l := lineKey r.asid r.va
  let mine (h : HReq) : Bool := h.line == l && h.svc == r.svc && h.cx.isSome
  let gone := ((s.field f).hreqs.filter mine).map fun h => Agent.work h.id h.svc
  let s := ((s.field f).askers l r.svc).foldl (fun s c => s.deliver c (RimOut.ofCode code (keyVa l))) s
  s.modField f fun fd =>
    ({ fd with hreqs := fd.hreqs.filter fun h => !mine h } : Field).failAgents l (r.agents.filter fun a => !gone.contains a) code

/-- Ends an atomic at the rim: its context or its item takes the result, or the failure. -/
def State.endAtomic (s : State) (r : RReq) (res : Except (BitVec 8) (Nat × BitVec 5)) : State :=
  let s := match r.cx with
    | none => s
    | some c =>
      match res with
      | .error code => s.deliver c (RimOut.ofCode code r.va)
      | .ok (old, fl) =>
        s.modCtx c fun x =>
          let y : Ctx := { x with sent := x.sent.map fun e => { e with reply := some (BitVec.ofNat 128 old, fl) } }
          y.wake
  match r.item with
  | none => s
  | some (k, id) =>
    match s.item? k id with
    | none => s
    | some i =>
      s.setItem k (match res with
        | .error code => { i with bad := (lateCause code).code, status := some 0 }
        | .ok (old, fl) => { i with old := BitVec.ofNat 128 old, flags := fl, status := some 0 })

/-- A request at the rim completes with an error of Table 07-5 (R89): its waiting access fails, a write-back's bytes
are discarded. DEDUCED: log entry 11. -/
def State.failReq (s : State) (f : Nat) (r : RReq) (code : BitVec 8) : State :=
  let s := s.reqDone f r.id (some (RimOut.ofCode code r.va))
  let s := s.dropReq f r.id
  match r.kind with
  | .fill => s.failFill f r code
  | .wb =>
    if code = codeNomap then s.logErr f .nomap { kind := 0, addr := BitVec.ofNat 64 r.va, asid := r.asid } else s
  | .atomic => s.endAtomic r (.error code)
  | _ =>
    match r.cx with
    | some c => s.deliver c (RimOut.ofCode code r.va)
    | none =>
      s.modField f fun fd => fd.failAgents (lineKey r.asid (r.page * 65536)) r.agents code

/-- A request has been served. -/
def State.reqServed (s : State) (f : Nat) (r : RReq) : State :=
  let s := (s.reqDone f r.id none).dropReq f r.id
  match r.cx with
  | some c => s.served c
  | none => s

/-! ## RIM_REQUEST (R85, R93, R97) -/

/-- The line of memory that a request concerns, as far as the rim knows it. -/
def Field.paLine (f : Field) (r : RReq) : Option Nat :=
  match r.stage with
  | .mem pa _ _ => some (pa / 64)
  | _ => (f.translate r.asid r.va).map fun x => x.paOf r.va / 64

/-- Two requests concern one line: by address and ASID, or in memory. -/
def Field.sameLine (f : Field) (x r : RReq) : Bool :=
  (x.asid == r.asid && x.va / 64 == r.va / 64) || ((f.paLine x).isSome && f.paLine x == f.paLine r)

/-- A request of an earlier arrival concerns the same line (R44); two fills need no order. -/
def Field.behind (f : Field) (r : RReq) : Bool :=
  r.kind.unit == 64 &&
  match f.rreqs.find? fun x => x.id == r.id ||
      (x.kind.unit == 64 && !(x.kind == .fill && r.kind == .fill) && f.sameLine x r) with
  | some x => x.id != r.id
  | none => false

/-- The pages of the walks in progress: requests for one page and ASID share a walk. -/
def Field.walks (f : Field) : List (Nat × BitVec 16) :=
  (f.rreqs.filter fun x => x.stage = .walk).foldl
    (fun a x => if a.contains (x.page, x.asid) then a else (x.page, x.asid) :: a) []

/-- The first of the requests that wait for a walker. -/
def Field.nextWait (f : Field) : Option RReq :=
  (f.rreqs.filter fun x => x.stage = .wait).foldl (fun a x => match a with
    | none => some x
    | some y => if x.order < y.order then some x else some y) none

/-- Free ones of the 1,024 walkers take the requests that wait, in arrival order (R85). -/
def Field.takeWalkers (f : Field) : Nat → Field
  | 0 => f
  | n + 1 =>
    match f.nextWait with
    | none => f
    | some r =>
      if 1024 ≤ f.rreqs.length ∧ 1024 ≤ f.walks.length then f
      else
        let go (x : RReq) : RReq := if x.stage = .wait ∧ x.page = r.page ∧ x.asid = r.asid then { x with stage := .walk } else x
        Field.takeWalkers { f with rreqs := f.rreqs.map go } n

/-- A request shares the walk of its page, or waits for a free walker. -/
def State.toWalk (s : State) (f : Nat) (r : RReq) : State :=
  if (s.field f).walks.contains (r.page, r.asid) then s.setReq f { r with stage := .walk }
  else
    let s := (s.setReq f { r with stage := .wait, order := s.fresh }).bump
    s.modField f fun fd => fd.takeWalkers fd.rreqs.length

/-- Walkers that have become free are taken. -/
def State.freeWalkers (s : State) (f : Nat) : State := s.modField f fun fd => fd.takeWalkers fd.rreqs.length

/-- A fill at the reverse map: in arrival order for its frame, after the holder before it has been evicted (R93). -/
def State.fillAtMap (s : State) (f : Nat) (r : RReq) (pa : Nat) (x : XEnt) : State :=
  let fr := pa / 65536
  let here := decide (r.stage = .held fr)
  let hold : State := if here then s else (s.setReq f { r with stage := .held fr, order := s.fresh }).bump
  if (s.field f).rreqs.any fun y => y.id != r.id && y.stage = .held fr && (!here || decide (y.order < r.order)) then hold
  else
    match s.claimFrame f fr r.page r.asid x with
    | some s => s.setReq f { r with stage := .mem pa x.key x.i, win := if backedEnd ≤ pa then some ((s.field f).winOf pa) else none }
    | none => hold

/-- A translated request at the memory controller; a write-back or atomic goes on whatever triple holds its frame.
DESIGN CHOICE: log entry 121. -/
def State.atController (s : State) (f : Nat) (r : RReq) (x : XEnt) : State :=
  let pa := x.paOf r.va
  match r.kind with
  | .fill => s.fillAtMap f r pa x
  | .wb => (s.writeLine f pa x.key x.i r.data r.be r.poison r.asid r.va).reqServed f r
  | .atomic => s.setReq f { r with stage := .mem pa x.key x.i }
  | _ => s.reqServed f r

/-- A request under a pair that a migration of its frame does not list: it ends the migration, or fails during its freeze
(Table 04-8). -/
def State.unlistedReq (s : State) (f : Nat) (r : RReq) (pa : Nat) (go : State → State) : State :=
  match (s.field f).unlisted r.asid r.page pa with
  | none => go s
  | some (slot, m) =>
    if m.frozen then
      (s.logErr f .syn { kind := 0, addr := BitVec.ofNat 64 r.va, asid := r.asid }).failReq f r codeNomap
    else go (s.endMig f slot m 2)

/-- A request at the rim: during a freeze of its page it is parked; without a translation it walks; a PLB fill always
does. DEDUCED: log entry 8. -/
def State.rimRequest (s : State) (f : Nat) (r : RReq) : State :=
  let fd := s.field f
  if fd.behind r then s
  else
    match fd.frozenFor r.asid r.page with
    | some slot => s.setReq f { r with stage := .frozen slot }
    | none =>
      match (if r.kind.plbFill && r.core.isSome then none else fd.translate r.asid r.va) with
      | none => s.toWalk f r
      | some x => s.unlistedReq f r (x.paOf r.va) fun s => s.atController f r x

/-- The stage of a request that RIM_REQUEST moves on. -/
def RStage.atRim : RStage → Bool
  | .new | .held _ => true
  | _ => false

def execRimRequest (f id : Nat) (s : State) : Out :=
  match s.rreq? f id with
  | none => .next s
  | some r => if r.stage.atRim then .next (s.rimRequest f r) else .next s

/-! ## PAGE_WALK_DONE (R83, R84, R88 to R90) -/

/-- The PLB entry of a leaf (R84, R40). DEDUCED: log entry 8. -/
def Field.plbEntry (f : Field) (asid : BitVec 16) (l : Leaf) (store : Bool) : PlbEnt :=
  { vpage := l.vpage, size := l.size, asid := asid, rd := l.e.getLsbD 2, wr := l.e.getLsbD 3, ex := l.e.getLsbD 4
    tk := l.e.getLsbD 5, g := l.e.getLsbD 6, i := l.e.getLsbD 8, clean := !store
    cls := f.frameClass l.pa (l.size.pages * 65536) }

/-- Fills a PLB: 128 entries, the newest kept. DESIGN CHOICE: log entry 9. -/
def Core.fillPlb (c : Core) (e : PlbEnt) : Core :=
  { c with plb := (e :: c.plb.filter fun x => !(x.vpage == e.vpage && x.size == e.size && x.asid == e.asid)).take 128 }

/-- DESIGN CHOICE: log entry 9. -/
def Field.fillXlat (f : Field) (e : XEnt) : Field :=
  { f with xlat := (e :: f.xlat.filter fun x => !(x.vpage == e.vpage && x.size == e.size && x.asid == e.asid)).take 16384 }

/-- A store's PLB fill. -/
def RKind.store : RKind → Bool
  | .plb st => st
  | _ => false

/-- A walk that reached a leaf, for one request. DEDUCED: log entry 10. -/
def State.walkLeaf (s : State) (f : Nat) (r : RReq) (l : Leaf) : State :=
  let s := if l.ptec then
      s.logErr f .ptec { kind := 0, addr := BitVec.ofNat 64 r.va, asid := r.asid } else s
  match (if r.kind.plbFill then r.core else none) with
  | some k => s.unlistedReq f r (l.pa + (r.va - l.vpage * 65536)) fun s =>
      let s := s.setAD f l r.kind.store
      ((s.modCore k fun c => c.fillPlb ((s.field f).plbEntry r.asid l r.kind.store)).reqServed f r).prefetchOn k r.page r.asid
  | none =>
    let s := s.setAD f l false
    (s.modField f fun fd => fd.fillXlat (l.entry r.asid)).setReq f { r with stage := .new }

/-- Kind codes of Table 04-6. -/
def RKind.code : RKind → Nat
  | .fill => 0 | .wb => 1 | .atomic => 2 | .plb _ => 3 | .copy => 4 | .fetch => 5

/-- The payload of Table 04-6. -/
def faultPayload (g : Nat) (p : Park) (n : Nat) : List Byte :=
  natBytes (p.va % 2 ^ 57) 8 ++ natBytes p.asid.toNat 2 ++ natBytes p.cause 1 ++ natBytes p.kind 1 ++ natBytes g 2
    ++ natBytes p.level 1 ++ [0] ++ natBytes p.ns 8 ++ natBytes n 8

/-- Requests parked in a group. -/
def Field.parkedIn (f : Field) (g : Nat) : List RReq := f.rreqs.filter fun r => r.stage = .parked g

/-- The lowest number that no open group holds. -/
def Field.freeGroup (f : Field) : Option Nat := (List.range 4096).find? fun g => (SMap.find? f.parks g).isNone

/-- The open group of a page and ASID. -/
def Field.groupOf (f : Field) (asid : BitVec 16) (page : Nat) : Option Nat :=
  (List.find? (fun (p : Nat × Park) => p.2.asid == asid && p.2.vpage == page) f.parks).map (·.1)

/-- A request is parked (R88, R91). -/
def State.park (s : State) (f : Nat) (r : RReq) (g : Nat) : State := s.setReq f { r with stage := .parked g, ns := s.ns }

/-- A walk that found no translation, for one request. -/
def State.walkMissing (s : State) (f : Nat) (r : RReq) (cause level : Nat) : State :=
  let fd := s.field f
  let l := lineKey r.asid r.va
  let s := s.dropPrefs f fun p => p.line == some l || (r.kind.plbFill && p.line.isNone && p.va / 65536 == r.page && p.asid == r.asid)
  if r.pref then
    (s.dropReq f r.id).modField f fun fd => { fd with hreqs := fd.hreqs.filter fun h => !(h.pref && h.line == l) }
  else if r.svc then s.failReq f r codeNomap
  else
    match fd.groupOf r.asid r.page with
    | some g => s.park f r g
    | none =>
      match fd.freeGroup with
      | none => s.setReq f { r with stage := .new }
      | some g =>
        let p : Park := { vpage := r.page, asid := r.asid, va := r.va, cause := cause, kind := r.kind.code, level := level
                          ns := s.ns }
        let s := s.modField f fun fd => { fd with parks := SMap.put fd.parks g p }
        let s := s.park f r g
        s.modField f fun fd => { fd with faultMsgs := fd.faultMsgs ++ [(g, faultPayload g p 1)] }

/-- The walk of one request, under its own ASID when it fills a PLB (R99). -/
def State.walkDone (s : State) (f : Nat) (r : RReq) : State :=
  match (s.field f).frozenFor r.asid r.page with
  | some slot => s.setReq f { r with stage := .frozen slot }
  | none =>
    match s.walk f r.asid r.va r.kind.plbFill with
    | .leaf l => s.walkLeaf f r l
    | .missing cause level => s.walkMissing f r cause level

/-- Requests for the same page and ASID share the walk. -/
def execPageWalkDone (f id : Nat) (s : State) : Out :=
  match s.rreq? f id with
  | none => .next s
  | some r =>
    if r.stage = .walk then
      .next ((((s.field f).rreqs.filter fun x => x.stage = .walk ∧ x.asid = r.asid ∧ x.page = r.page).foldl
        (fun s x => s.walkDone f x) (s.noteWalk f r.asid r.va)).freeWalkers f)
    else .next s

/-! ## FAULT_MESSAGE_DELIVER (R88, R451) -/

/-- The count of parked requests is that at the time of sending. -/
def faultNow (fd : Field) (g : Nat) (pay : List Byte) : List Byte :=
  pay.take 24 ++ natBytes (fd.parkedIn g).length 8

def execFaultMessageDeliver (f : Nat) (s : State) : Out :=
  match (s.field f).faultMsgs with
  | [] => .next s
  | (g, pay) :: t =>
    match s.toService f 31 (faultNow (s.field f) g pay) with
    | none => .next s
    | some s => .next (s.modField f fun fd => { fd with faultMsgs := t })

/-! ## HBM_READ_COMPLETE (R27 to R29, R31 to R34) -/

/-- Cells of the lines read show an error from now on, or none (R28). DESIGN CHOICE: log entry 119. -/
def Field.noteCells (f : Field) (xs : List (Nat × LineErr)) : Field :=
  xs.foldl (fun f x =>
    if (f.meta_ x.1).err = x.2 then f
    else { f with lmeta := SMap.put f.lmeta (x.1 / 64) { f.meta_ x.1 with err := x.2 } }) f

/-- The read of the stacks for a fill or an atomic; the error given concerns the first of the lines that a decoded line is
built from, the others show what they showed last. DESIGN CHOICE: log entry 119. -/
def State.stackRead (s : State) (f pa : Nat) (key : BitVec 8) (i : Bool) (w : Option Win) (e : LineErr) : State × RLine :=
  let ls := (s.field f).readFrom pa w
  let now := (ls.take 1).map fun a => (a, e)
  (s.modField f fun fd => fd.noteCells now).readWith f pa key i w
    (now ++ (ls.drop 1).map fun a => (a, ((s.field f).meta_ a).err))

/-- A line delivered to its home: bytes written there since win. -/
def HLine.fill (h : HLine) (d : LineData) (poison : Bool) : HLine :=
  { h with data := mergeLine d h.data h.dirty, present := true, poison := h.poison || poison }

/-- A fill that has been read; it waits while the home's set has no way free (R100). -/
def State.fillDone (s : State) (f : Nat) (r : RReq) (x : RLine) : State :=
  let l := lineKey r.asid r.va
  let put (d : LineData) (p : Bool) : State :=
    ((s.setHline f l ((s.hline f l).fill d p)).reqServed f r).wakeMem fun c => fieldOf (coreOf c) == f
  match x with
  | .data d => put d false
  | .poison .. => put 0 true
  | .keyrev => s.failReq f r codeKeyrev

/-- An atomic executed at the memory controller (R97), in one read and write of its line. -/
def State.rimAtomic (s : State) (f : Nat) (r : RReq) (pa : Nat) (key : BitVec 8) (i : Bool) (x : RLine) : State :=
  match r.op, x with
  | some (op, dw, b, c), .data d =>
    let n := AtOp.bytes op dw
    let off := pa % 64
    let old := oldIn d off n
    let (new, wr, fl) := AtOp.apply op n old b.toNat c.toNat
    let line := mergeLine d (placeBytes (natBytes new n) off) (beOf off n)
    let s := if wr then s.writeLine f pa key i line (BitVec.allOnes 64) false r.asid r.va else s
    (s.endAtomic r (.ok (old, fl))).reqServed f r
  | _, .keyrev => s.failReq f r codeKeyrev
  | _, _ => s.failReq f r codeUe

def execHbmReadComplete (f id : Nat) (e : LineErr) (s : State) : Out :=
  match s.rreq? f id with
  | none => .next s
  | some r =>
    match r.stage with
    | .mem pa key i =>
      if r.kind = .fill && !(s.field f).room (lineKey r.asid r.va) then .next s
      else
      let (s, x) := s.stackRead f pa key i r.win e
      if r.kind = .atomic then .next (s.rimAtomic f r pa key i x) else .next (s.fillDone f r x)
    | _ => .next s

/-! ## XINV (R87, R97, R119) -/

def xScope (v : Word) : Nat := bits v 62 2
def xPage (v : Word) : Nat := bits v 16 41
def xAsid (v : Word) : BitVec 16 := v.setWidth 16

/-- An entry of given page range, ASID and G matches an invalidation. -/
def xMatch (v : Word) (vpage n : Nat) (asid : BitVec 16) (g : Bool) : Bool :=
  match xScope v with
  | 0 => decide (vpage ≤ xPage v) && decide (xPage v < vpage + n) && (g || asid == xAsid v)
  | 1 => !g && asid == xAsid v
  | _ => true

/-- An L1I line of a page that an invalidation matches (R119). -/
def iMatch (v : Word) (x : Nat × ILine) : Bool :=
  xMatch v x.2.base x.2.size.pages (keyAsid x.1) (keyAsid x.1 == 0xFFFF)

/-- A frame whose holder is mapped by a page that an invalidation matches. -/
def rMatch (v : Word) (r : RMapEnt) : Bool := xMatch v r.base r.size.pages r.asid (r.g || r.asid == 0xFFFF)

/-- The reverse map takes up the frames of lines that were written without a fill, under an entry that goes.
DEDUCED: log entry 13. -/
def Field.claimHeld (f : Field) (v : Word) (n : Nat) : Field :=
  f.home.foldl (fun g x =>
    let p := keyVa x.1 / 65536
    match f.xlat.find? fun e => xMatch v e.vpage e.size.pages e.asid e.g && e.covers p (keyAsid x.1) with
    | none => g
    | some e =>
      let fr := e.paOf (p * 65536) / 65536
      if (SMap.find? g.rmap fr).isSome then g
      else { g with rmap := SMap.put g.rmap fr { vpage := p, asid := keyAsid x.1, key := e.key, i := e.i, order := n
                                                 base := e.vpage, size := e.size, g := e.g } }) f

/-- The start of an invalidation: entries go, walks restart. -/
def State.xinvStart (s : State) (f : Nat) (v : Word) : State :=
  let clear (c : Core) : Core :=
    { c with plb := c.plb.filter fun e => !xMatch v e.vpage e.size.pages e.asid e.g
             l1i := c.l1i.filter fun x => !iMatch v x }
  let again (r : RReq) : RReq :=
    if (r.stage = .walk ∨ r.stage = .wait) ∧ xMatch v r.page 1 r.asid (r.asid == 0xFFFF) = true then { r with stage := .new } else r
  let s := { s with cores := s.cores.map fun (x : Nat × Core) => if fieldOf x.1 = f then (x.1, clear x.2) else x }
  (s.modField f fun fd =>
    { (if v.getLsbD 61 then fd.claimHeld v s.fresh else fd) with
      xlat := fd.xlat.filter fun e => !xMatch v e.vpage e.size.pages e.asid e.g
      rreqs := fd.rreqs.map again, inval := some v }).freeWalkers f

/-- A write of XINV: started, queued behind 16 at most, or ignored with ERR. -/
def xinvWrite (f : Nat) (v : Word) : M Unit := do
  let s ← get
  let fd := s.field f
  if xScope v = 3 then
    set (s.modField f fun fd => fd.setReg 0x962 (fd.reg 0x962 ||| 2))
  else match fd.inval with
    | none => set (s.xinvStart f v)
    | some _ => do
      waitIf (decide (16 ≤ fd.invQueue.length)) .queue
      set (s.modField f fun fd => { fd with invQueue := fd.invQueue ++ [v] })

def execXinvPage (f : Nat) (v : Word) (s : State) : Out :=
  if xScope v = 0 then runEvent (xinvWrite f v) s else .next s
def execXinvAsid (f : Nat) (v : Word) (s : State) : Out :=
  if xScope v = 1 then runEvent (xinvWrite f v) s else .next s
def execXinvAll (f : Nat) (v : Word) (s : State) : Out :=
  if xScope v = 2 then runEvent (xinvWrite f v) s else .next s
def execXinvReserved (f : Nat) (v : Word) (s : State) : Out :=
  if xScope v = 3 then runEvent (xinvWrite f v) s else .next s

/-- A migration of the page that an invalidation with RECALL names has not ended. -/
def Field.migWait (f : Field) (v : Word) : Bool :=
  xScope v == 0 && v.getLsbD 61 && f.migs.any fun m => m.2.lists (xAsid v) (xPage v)

/-- The frames that an invalidation recalls: those that the reverse map holds for its pages. -/
def Field.invFrames (f : Field) (v : Word) : List Nat :=
  if v.getLsbD 61 then (f.rmap.filter fun r => rMatch v r.2).map (·.1) else []

/-- Every recall has landed, and the next invalidation starts. DEDUCED: log entry 13. -/
def execXinvComplete (f : Nat) (s : State) : Out :=
  let fd := s.field f
  match fd.inval with
  | none => .next s
  | some v =>
    if fd.migWait v || !(fd.invFrames v).all (s.purgeable f) then .next s
    else
      let s := (fd.invFrames v).foldl (fun s fr => s.purgeFrame f fr) s
      let s := s.modField f fun fd => { fd with inval := none, invQueue := fd.invQueue.drop 1 }
      match fd.invQueue with
      | [] => .next s
      | v :: _ => .next (s.xinvStart f v)

/-! ## XRES and the park timeout (R89, R91) -/

/-- RETRY of a park group: its requests walk again, or it is reported again. -/
def State.parkRetry (s : State) (f : Nat) (v : Word) : State :=
  let g := bits v 0 12
  match SMap.find? (s.field f).parks g with
  | none => s
  | some p =>
    let rs := (s.field f).parkedIn g
    let own := rs.any fun r => r.kind.plbFill
    match s.walk f p.asid p.va own with
    | .leaf _ =>
      let s := s.modField f fun fd => { fd with parks := SMap.del fd.parks g }
      rs.foldl (fun s r => s.toWalk f r) s
    | .missing cause level =>
      let p := { p with cause := cause, level := level }
      (s.noteWalk f p.asid p.va).modField f fun fd =>
        { fd with parks := SMap.put fd.parks g p, faultMsgs := fd.faultMsgs ++ [(g, faultPayload g p rs.length)] }

/-- FAIL of a park group: every request in it fails. -/
def State.parkFail (s : State) (f : Nat) (v : Word) : State :=
  let g := bits v 0 12
  match SMap.find? (s.field f).parks g with
  | none => s
  | some _ =>
    let rs := (s.field f).parkedIn g
    let s := s.modField f fun fd => { fd with parks := SMap.del fd.parks g }
    rs.foldl (fun s r => s.failReq f r codeNomap) s

/-- A write of XRES. -/
def State.xres (s : State) (f : Nat) (v : Word) : State := if v.getLsbD 63 then s.parkFail f v else s.parkRetry f v

def execParkRetry (f : Nat) (v : Word) (s : State) : Out := if v.getLsbD 63 then .next s else .next (s.parkRetry f v)
def execParkFail (f : Nat) (v : Word) (s : State) : Out := if v.getLsbD 63 then .next (s.parkFail f v) else .next s

/-- The requests that a context's task waits on at the rim: its own, fills of lines that it has asked a home for, and
those of its queued MLDs (R91). -/
def State.awaited (s : State) (c : Nat) : List RReq :=
  let f := s.field (fieldOf (coreOf c))
  let ids := (s.withdrawn (coreOf c) (s.ctx c).task.tid).flatMap fun e => e.parkedReqs f
  f.rreqs.filter fun r => r.cx == some c || inList r.id ids ||
    (r.kind == .fill && (f.askers (lineKey r.asid r.va) r.svc).contains c)

/-- The time at which the oldest of them was parked. -/
def State.parkedSince (s : State) (c : Nat) : Option Nat :=
  (s.awaited c).foldl (fun a r => match r.stage, a with
    | .parked _, none => some r.ns
    | .parked _, some m => some (min m r.ns)
    | _, a => a) none

/-- The save of a task whose oldest parked request has waited PKTO.LIMIT µs begins, or one that has begun goes on. -/
def execParkTimeoutSave (c : Nat) (s : State) : Out :=
  let limit := bits ((s.field (fieldOf (coreOf c))).reg 0x963) 0 16
  if (s.ctx c).saving.isSome then runEvent (saveOn c) s
  else match s.parkedSince c with
  | none => .next s
  | some t =>
    if limit != 0 && decide (t + limit * 1000 ≤ s.ns) && decide (ctxNum c < 14) && (s.ctx c).issues && s.canSave c then
      .next (s.leave c 2)
    else .next s

/-! ## Migration (R94 to R97) -/

/-- Mappings of a record: ASID and page. -/
def migMaps (s : State) (f rec n : Nat) : List (Nat × Nat) :=
  (List.range n).map fun i => let w := s.readEntry f (rec + 32 + 8 * i); (bits w 48 16, bits w 0 41)

/-- The leaves of the mappings; none where one is missing. -/
def State.migLeaves (s : State) (f : Nat) : List (Nat × Nat) → Option (List Leaf)
  | [] => some []
  | (a, p) :: t =>
    match s.walk f (BitVec.ofNat 16 a) (p * 65536) false, s.migLeaves f t with
    | .leaf l, some ls => some (l :: ls)
    | _, _ => none

/-- The status of a migration that ends at its checks, or what it is to do (R95); where several fail, the first in this
order. DESIGN CHOICE: log entry 126. -/
def State.migCheck (s : State) (f rec : Nat) : Except Nat Mig :=
  let w := s.readEntry f rec
  let n := bits w 32 8
  let dst := bits (s.readEntry f (rec + 8)) 16 36 * 65536
  let limit := let l := bits w 48 8; if l = 0 then 16 else l
  let maps := migMaps s f rec n
  let fd := s.field f
  if 1 < bits w 30 2 ∨ n = 0 ∨ 4 < n then .error 3
  else
    let size : PageSize := if bits w 30 2 = 0 then .k64 else .m2
    match s.migLeaves f maps with
    | none => .error 6
    | some ls =>
      match ls with
      | [] => .error 6
      | l :: t =>
        if ls.any fun x => x.size != size then .error 3
        else if t.any fun x => x.pa != l.pa || x.key != l.key then .error 6
        else
          let len := size.pages * 65536
          if backedEnd < dst + len ∨ dst % len ≠ 0 ∨ overlap dst len l.pa len = true then .error 4
          else if fd.migs.any fun m => overlap m.2.src (m.2.size.pages * 65536) l.pa len then .error 7
          else if !fd.keyOk l.key then .error 5
          else .ok { record := rec, src := l.pa, dst := dst, size := size, key := l.key, i := l.e.getLsbD 8
                     maps := maps, limit := limit, used := 0, start := s.clk, todo := List.range (size.pages * 1024), dirty := [], frozen := false
                     cword := bits (s.readEntry f (rec + 16)) 3 49 * 8, cval := s.readEntry f (rec + 24) }

/-- A write of MIGCMD. -/
def State.migStart (s : State) (f : Nat) (v : Word) : State :=
  let rec_ := bits v 6 46 * 64
  let fd := s.field f
  match (List.range 8).find? fun n => (SMap.find? fd.migs n).isNone with
  | none => s.modField f fun fd => fd.setReg 0x966 (fd.reg 0x966 ||| 16)
  | some slot =>
    match s.migCheck f rec_ with
    | .error st => s.writeEntry f rec_ (migWord (s.readEntry f rec_) st 0)
    | .ok m =>
      (s.writeEntry f rec_ (migWord (s.readEntry f rec_) 0 0)).modField f fun fd => { fd with migs := SMap.put fd.migs slot m }

def execMigrationStart (f : Nat) (v : Word) (s : State) : Out := .next (s.migStart f v)

/-- Copies one line: decrypted under its old address, encrypted under its new one, with I its tag checked and rewritten; a
line that cannot be read is copied as poisoned (R29, R33, R96). DEDUCED: log entry 12. -/
def State.copyLine (s : State) (f : Nat) (m : Mig) (i : Nat) : State :=
  let a := m.src + 64 * i
  let b := m.dst + 64 * i
  let (s, x) := s.readAgain f a m.key m.i
  let d : LineData := match x with
    | .data d => d
    | _ => 0
  let bad := match x with
    | .data _ => false
    | _ => true
  let at_ : ErrAt := { syn := 2, kind := 1, addr := BitVec.ofNat 64 b, key := m.key }
  if !(s.field f).ctlOk b then s.logErr f .ue at_
  else
    let s := if m.i && ((s.field f).meta_ b).tagPoison then s.logErr f .ue at_ else s
    s.modField f fun fd =>
      let g := fd.putLine b m.key m.i d
      { g with lmeta := SMap.put g.lmeta (b / 64) { g.meta_ b with poison := bad } }

def State.copyLines (s : State) (f : Nat) (m : Mig) (ls : List Nat) : State := ls.foldl (fun s i => s.copyLine f m i) s

/-- A request under a listed mapping that has not been executed is parked by the freeze (R96). -/
def RReq.freeze (r : RReq) (slot : Nat) (m : Mig) : RReq :=
  match r.stage with
  | .parked _ => r
  | _ => if m.lists r.asid r.page then { r with stage := .frozen slot } else r

/-- The end of a round, 2 clk for each of its lines after its beginning: they are copied, and the next round or the freeze
begins (R96). DEDUCED: log entry 12. -/
def execMigrationRoundEnd (f slot : Nat) (s : State) : Out :=
  match SMap.find? (s.field f).migs slot with
  | none => .next s
  | some m =>
    if m.frozen || decide (s.clk < m.start + 2 * m.todo.length) then .next s
    else
      let s := s.copyLines f m m.todo
      let used := m.used + 1
      let stop := (decide (0 < m.used) && decide (m.todo.length ≤ 8)) || decide (m.limit ≤ used)
      let n : Mig := { m with used := used, start := s.clk, todo := m.dirty, dirty := [], frozen := stop }
      .next (s.modField f fun fd =>
        { fd with migs := SMap.put fd.migs slot n
                  rreqs := if stop then fd.rreqs.map fun r => r.freeze slot m else fd.rreqs })

/-- The leaf entries of a mapping are rewritten to the destination (R96). -/
def State.moveLeaf (s : State) (f : Nat) (m : Mig) (x : Nat × Nat) : State :=
  match s.walk f (BitVec.ofNat 16 x.1) (x.2 * 65536) false with
  | .missing .. => s
  | .leaf l =>
    (List.range m.size.pages).foldl (fun s n =>
      let e := s.readEntry f (l.at_ + 8 * n)
      s.writeEntry f (l.at_ + 8 * n) (setBits e 16 36 (m.dst / 65536 + n))) s

/-- The reverse map follows the frame. -/
def Field.moveFrames (f : Field) (m : Mig) : Field :=
  (List.range m.size.pages).foldl (fun (f : Field) n =>
    let a := m.src / 65536 + n
    match SMap.find? f.rmap a with
    | none => f
    | some r => { f with rmap := SMap.put (SMap.del f.rmap a) (m.dst / 65536 + n) r }) f

/-- A migration ends: its completion word is written. DESIGN CHOICE: under XBASE.KEY, as its record is read: R96 names no key for it
(log entry 12). -/
def execMigrationComplete (f slot : Nat) (s : State) : Out :=
  match SMap.find? (s.field f).migs slot with
  | none => .next s
  | some m =>
    if !m.frozen || decide (s.clk < m.start + 2 * m.todo.length) then .next s
    else
      let s := s.copyLines f m (m.todo ++ m.dirty)
      let s := m.maps.foldl (fun s x => s.moveLeaf f m x) s
      let s := s.modField f fun fd =>
        { fd.moveFrames m with xlat := fd.xlat.filter fun e => !overlap e.pa (e.size.pages * 65536) m.src (m.size.pages * 65536) }
      let s := s.endMig f slot m 1
      .next (s.writeEntry f m.cword m.cval)

/-! ## Scrubbing and the links (R27, R28, R30) -/

/-- The physical address of a line of a stack (R24). -/
def paOfStack (ctl a : Nat) : Nat :=
  let base := a / 256 * 512 + a % 256
  if ctlOf base = ctl then base else base + 256

/-- DEDUCED: log entry 38. -/
def stackLines : Nat := 0x40000000
/-- DEDUCED: log entry 38. -/
def tagLines : Nat := 0x3C000000

/-- The 16 lines whose tags a line of the carve-out holds (R24). -/
def taggedBy (ctl n : Nat) : List Nat := (List.range 16).map fun j => paOfStack ctl (64 * ((n - tagLines) * 16 + j))

/-- What the scrub of a line writes back: a corrected line, or a poisoned one; a poisoned line of the carve-out poisons the
tags of 16 lines (R30). -/
def Field.scrubbed (f : Field) (clk ctl n : Nat) (e : LineErr) : Field :=
  let put (f : Field) (pa : Nat) (m : LineMeta) : Field := { f with lmeta := SMap.put f.lmeta (pa / 64) m }
  if n < tagLines then
    let pa := paOfStack ctl (64 * n)
    match e with
    | .double => (put f pa { f.meta_ pa with poison := true, err := .none }).touch clk pa
    | _ => if (f.meta_ pa).err = .none then f else put f pa { f.meta_ pa with err := .none }
  else if e = .double then (taggedBy ctl n).foldl (fun f pa => put f pa { f.meta_ pa with tagPoison := true }) f
  else f

/-- The record of a scrub error: the line, or the controller alone for a line of the carve-out, which has no physical
address. PRESUMED: log entry 28. -/
def scrubRec (ctl n : Nat) (syn : BitVec 8) : ErrAt :=
  if n < tagLines then { syn := syn, kind := 1, addr := BitVec.ofNat 64 (paOfStack ctl (64 * n)) }
  else { syn := syn, kind := 2, loc := BitVec.ofNat 32 ctl }

/-- The scrub of one line of a controller's stack (R30, Table 02-9); none in a field held in reset (R19).
DEDUCED: log entry 38. -/
def execScrubLine (f ctl : Nat) (e : LineErr) (s : State) : Out :=
  let fd := s.field f
  if bits (fd.reg 0x942) 0 16 = 0 ∨ 2 ≤ ctl ∨ fd.inReset = true then .next s
  else
    let n := fd.scrub.toList.getD ctl 0
    let s := s.modField f fun fd => fd.scrubbed s.clk ctl n e
    let s := match e with
      | .none => s
      | .single =>
        (s.modField f fun fd => { fd with ceCount := fd.ceCount.set! ctl ((fd.ceCount.toList.getD ctl 0) + 1) }).logErr f .ce
          (scrubRec ctl n 1)
      | .double => s.logErr f .ue (scrubRec ctl n 2)
    .next (s.modField f fun fd =>
      let last := decide (stackLines ≤ n + 1)
      let r := fd.reg 0x942
      { fd.setReg 0x942 (if last then setBits r 16 16 (bits r 16 16 + 1) else r) with
        scrub := fd.scrub.set! ctl (if last then 0 else n + 1) })

/-- SCRUBCF: HOURS is written, PASSES kept. -/
def Field.scrubcf (f : Field) (v : Word) : Field := f.setReg 0x942 (setBits (f.reg 0x942) 0 16 (bits v 0 16))

def execScrubcfWrite (f : Nat) (v : Word) (s : State) : Out := .next (s.modField f fun fd => fd.scrubcf v)

/-- A replay changes no byte. -/
def execUcieFlitReplay (f ctl : Nat) (s : State) : Out :=
  if ctl < 2 then .next (s.modField f fun fd => { fd with replays := fd.replays + 1 }) else .next s

/-- A link loses a module; with none left the controller has failed (R27). -/
def execUcieLinkDegrade (f ctl : Nat) (failed : Bool) (s : State) : Out :=
  let n := (s.field f).ucie.toList.getD ctl 0
  if 2 ≤ ctl ∨ n = 0 then .next s
  else
    let left := if failed then 0 else n - 1
    let s := s.modField f fun fd => { fd with ucie := fd.ucie.set! ctl left }
    .next (if left = 0 then s.logErr f .link { syn := 6, loc := BitVec.ofNat 32 ctl } else s)

/-! ## Windows and codebooks (R37, R39) -/

/-- A write to FWCF with EN = 1: a refused enable stores the other RW fields. DEDUCED: log entry 122. -/
def Field.windowOn (f : Field) (w : Nat) (v : Word) : Field :=
  let num := 0x903 + 4 * w
  let new := v &&& 0x8000000000000F37#64
  if (f.win w).en then f
  else
    match f.winCheck w new with
    | none => f.setReg num new
    | some code => f.setReg num ((setBits new 52 4 code ||| 0x4000000000000000#64) &&& ~~~0x8000000000000000#64)

/-- A write to FWCF with EN = 0: ERR and ECODE stay. -/
def Field.windowOff (f : Field) (w : Nat) (v : Word) : Field :=
  let num := 0x903 + 4 * w
  f.setReg num ((f.reg num &&& 0x40F0000000000000#64) ||| (v &&& 0x0000000000000F37#64))

def execWindowEnable (f w : Nat) (v : Word) (s : State) : Out :=
  if v.getLsbD 63 && decide (w < 16) then .next (s.modField f fun fd => fd.windowOn w v) else .next s
def execWindowDisable (f w : Nat) (v : Word) (s : State) : Out :=
  if !v.getLsbD 63 && decide (w < 16) then .next (s.modField f fun fd => fd.windowOff w v) else .next s

/-- CBSEL.ENTRY moves on. -/
def Field.cbNext (f : Field) : Field :=
  let r := f.reg 0x940
  f.setReg 0x940 (setBits r 0 8 (bits r 0 8 + 1))

/-- A codebook slot that an enabled window names, and slot 0, are protected. -/
def Field.cbLocked (f : Field) (slot : Nat) : Bool :=
  slot == 0 || (List.range 16).any fun i => (f.win i).en && winFmt (f.win i).cf == 3 && winCbs (f.win i).cf == slot

def Field.cbWrite (f : Field) (v : Word) : Field :=
  let slot := bits (f.reg 0x940) 8 2
  let n := bits (f.reg 0x940) 0 8
  (if f.cbLocked slot then f else { f with code := SMap.put f.code (slot * 256 + n) (v.setWidth 24) }).cbNext

def Field.cbRead (f : Field) : Word := BitVec.ofNat 64 (f.codeEntry (bits (f.reg 0x940) 8 2) (bits (f.reg 0x940) 0 8))

def execCbdataWrite (f : Nat) (v : Word) (s : State) : Out := .next (s.modField f fun fd => fd.cbWrite v)
def execCbdataRead (f : Nat) (s : State) : Out := .next (s.modField f Field.cbNext)

end Sys2Proof.Machine
end

