-- ==== Sys2Proof/Machine/HomeEvents.lean ====
section
/-! DEFINITION. Steps of the home slices and the cluster L2s: fills, ownership, evictions, atomics, recalls, stores that
perform, and errors of the memories near the core (R100 to R116, R120 to R132, R137, R139, R140, R279). -/

namespace Sys2Proof.Machine

/-! ## Requests at a home, in arrival order (R105) -/

def State.hreq? (s : State) (f id : Nat) : Option HReq := (s.field f).hreqs.find? fun r => r.id == id
def State.dropHReq (s : State) (f id : Nat) : State :=
  s.modField f fun fd => { fd with hreqs := fd.hreqs.filter fun r => r.id != id }
def State.setHReq (s : State) (f : Nat) (r : HReq) : State :=
  s.modField f fun fd => { fd with hreqs := fd.hreqs.map fun x => if x.id == r.id then r else x }

/-- A fill for a line is parked. -/
def Field.fillParked (f : Field) (l : Nat) : Bool :=
  f.rreqs.any fun r => r.kind == .fill && lineKey r.asid r.va == l && match r.stage with
    | .parked _ => true
    | _ => false

/-- No earlier request for the line waits (R105); one of field service does not wait behind a parked fill (R90). -/
def Field.firstAt (f : Field) (r : HReq) : Bool :=
  let past := r.svc && f.fillParked r.line
  match f.hreqs.find? fun x => x.line == r.line && (x.svc || !past) with
  | some x => x.id == r.id
  | none => false

/-- Wakes the context that waits for a request. -/
def State.wakeFor (s : State) (r : HReq) : State :=
  match r.cx with
  | some c => s.wake c
  | none => s

/-- A store of part of a word has no context that could meet the failure of its merging fill: the line is poisoned, as
Table 13-2 leaves the outcome to the write-back. DEDUCED: log entry 17. -/
def State.mergeFailed (s : State) (r : HReq) : State :=
  s.modCluster r.cl fun c => { c with merges := c.merges.filter (fun y => y.1 != r.line) ++ [(r.line, 0, true)] }

/-- A fill for a request has failed (R89): its context meets the outcome. -/
def State.failHReq (s : State) (f : Nat) (r : HReq) (code : BitVec 8) : State :=
  let s := s.dropHReq f r.id
  match r.cx with
  | some c => s.deliver c (RimOut.ofCode code (keyVa r.line))
  | none => if r.kind = .merge then s.mergeFailed r else s

/-- A request of a kind that is first at its line, which no other event holds, with the failure of its fill taken first. -/
def atHome (f id : Nat) (kind : HReqKind → Bool) (m : HReq → M Unit) : M Unit := do
  let s ← get
  match s.hreq? f id with
  | none => return ()
  | some r =>
    if kind r.kind && (s.field f).firstAt r && !s.heldFor f r.line (.work r.id r.svc) then
      asAgent (.work r.id r.svc)
      match ← takeFail f r.line with
      | some code => modify fun s => s.failHReq f r code
      | none => m r

/-- Puts a line on its way to a cluster. -/
def State.sendFill (s : State) (cl l : Nat) (x : L2Line) : State :=
  s.modCluster cl fun c => { c with fills := c.fills.filter (fun y => y.1 != l) ++ [(l, x)] }

/-- The line that a grant of Own puts on its way: what was already on its way, or a grant without data. -/
def Cluster.grant (c : Cluster) (l : Nat) : L2Line :=
  match (List.find? (fun (y : Nat × L2Line) => y.1 == l) c.fills).map (·.2) with
  | some x => { x with st := .m }
  | none => { data := 0, valid := 0, dirty := 0, st := .m }

/-! ## HOME_RDS -/

/-- A prefetch's fill asks the rim as a prefetch (R272). -/
def prefetchFill (f : Nat) (r : HReq) : M Unit := do
  let s ← get
  if r.pref && !(s.hline f r.line).present && (s.hline f r.line).dir == .i then
    if (← takeFail f r.line).isSome then
      modify fun s => (s.dropHReq f r.id).dropPrefs f fun p => p.line == some r.line
      throw (.wait .memory)
    let s ← get
    set (s.postRim f { id := 0, kind := .fill, va := keyVa r.line, asid := keyAsid r.line, core := none, cx := none
                       pref := true })
    throw (.wait .memory)

/-- A cluster that the directory lists holds the line, or has it on its way. -/
def State.holdsNow (s : State) (f cl l : Nat) : Bool :=
  inList cl (s.hline f l).dir.holders && ((s.l2 cl l).isSome || (s.cluster cl).incoming l)

/-- DEDUCED: log entry 22. -/
def rdsAt (f : Nat) (r : HReq) : M Unit := do
  let s ← get
  if s.holdsNow f r.cl r.line then set ((s.dropHReq f r.id).wakeFor r)
  else do
    prefetchFill f r
    let x ← homeRds f r.cl r.line
    modify fun s => (s.dropHReq f r.id).sendFill r.cl r.line x

def execHomeRds (f id : Nat) (s : State) : Out :=
  runEvent (atHome f id (fun k => match k with
    | .rds => true
    | _ => false) (rdsAt f)) s

/-! ## HOME_OWN: a store miss, or an atomic placed in its cluster's L2 -/

/-- Another atomic of a cluster on the line waits. -/
def State.atomicsWait (s : State) (f : Nat) (r : HReq) : Bool :=
  (s.field f).hreqs.any fun x => x.line == r.line && x.id != r.id && (match x.kind with
    | .atomic .. => true
    | _ => false)

/-- The predictor's count of an atomic, made once (R116): other atomics wait at the bank where a cluster's request for one is
queued behind it; a RAMO and a gateway's atomic are not counted. An atomic of the owner's cluster on a line of its tile is
placed near, whenever it was posted (R112). DESIGN CHOICE, DEDUCED: log entry 24. -/
def countAtomic (f : Nat) (r : HReq) : M HReq := do
  let s ← get
  if s.tileNear f r.cl r.line then
    let near : HReqKind := match r.kind with
      | .atomic op dw b c _ _ => .atomic op dw b c true false
      | k => k
    let s := if r.placed then s else s.predict f r.cl r.line (s.atomicsWait f r)
    let r := { r with kind := near, placed := true }
    set (s.setHReq f r)
    return r
  if r.placed then return r
  let s := s.predict f r.cl r.line (s.atomicsWait f r)
  let bank := decide (2 ≤ s.predictor f r.line)
  let kind : HReqKind := match r.kind with
    | .atomic op dw b c near adaptive => if adaptive && !bank then .atomic op dw b c true false else .atomic op dw b c near adaptive
    | k => k
  let r := { r with kind := kind, placed := true }
  set (s.setHReq f r)
  return r

/-- Own is granted; a context that waited with an atomic issues it again, in its L2. DEDUCED: log entry 23. -/
def ownAt (f : Nat) (r : HReq) : M Unit := do
  let r ← (match r.kind with
    | .atomic .. => countAtomic f r
    | _ => pure r)
  homeGrant f r.cl r.line
  modify fun s => (s.dropHReq f r.id).sendFill r.cl r.line ((s.cluster r.cl).grant r.line)
  match r.cx with
  | none => pure ()
  | some c => modify fun s => s.modCtx c fun x => { x with sent := x.sent.filter fun y => y.id != r.id }

def execHomeOwn (f id : Nat) (s : State) : Out :=
  runEvent (atHome f id (fun k => match k with
    | .own => true
    | .atomic _ _ _ _ near _ => near
    | _ => false) (ownAt f)) s

/-! ## HOME_MERGE_FILL -/

/-- The home sends its own copy and changes no state; a cluster that no longer holds the line asks again. -/
def mergeAt (f : Nat) (r : HReq) : M Unit := do
  let s ← get
  if !inList r.cl (s.hline f r.line).dir.holders then set ((s.dropHReq f r.id).wakeFor r)
  else do
    modify fun s => s.triggerTile f r.line (some r.cl)
    let h ← homeData f r.line
    modify fun s => (s.dropHReq f r.id).modCluster r.cl fun c =>
      { c with merges := c.merges.filter (fun y => y.1 != r.line) ++ [(r.line, h.data, h.poison)] }

def execHomeMergeFill (f id : Nat) (s : State) : Out :=
  runEvent (atHome f id (fun k => match k with
    | .merge => true
    | _ => false) (mergeAt f)) s

/-! ## HOME_EVICTION -/

/-- An eviction by a holder, in its turn at the line. With no such request, the home replaces the line with that key in its
own array (R100). DEDUCED: log entry 25. -/
def execHomeEviction (f id : Nat) (s : State) : Out :=
  match s.hreq? f id with
  | some r =>
    match r.kind with
    | .evict data be poison =>
      if (s.field f).firstAt r && !s.heldFor f r.line (.work r.id r.svc) then
        .next (((s.homeEvict f r.cl r.line data be poison).dropHReq f id).wakeMem fun c => fieldOf (coreOf c) == f)
      else .next s
    | _ => .next s
  | none => if (SMap.find? (s.field f).home id).isSome then .next (s.homeDrop f id) else .next s

/-! ## HOME_ATOMIC (R97, R115, R116, R276) -/

/-- The reply of an atomic to its context. -/
def State.replyTo (s : State) (c id : Nat) (old : Nat) (fl : BitVec 5) : State :=
  s.modCtx c fun x =>
    let y : Ctx := { x with sent := x.sent.map fun e =>
                       if e.id = id then { e with reply := some (BitVec.ofNat 128 old, fl) } else e }
    y.wake

/-- An atomic at the bank ALU; with .HOME and no byte of the line at the home, at the memory controller. -/
def bankAtomic (f : Nat) (r : HReq) (op : AtOp) (dw : Bool) (b c : BitVec 128) (adaptive : Bool) : M Unit := do
  homeCollect f r.line (some r.cl)
  let s ← get
  let h := s.hline f r.line
  if !adaptive && !h.present && h.dirty == 0 && !h.poison then
    set ((s.dropHReq f r.id).postRim f
      { id := 0, kind := .atomic, va := keyVa r.line + r.off, asid := keyAsid r.line, core := none, cx := r.cx
        op := some (op, dw, b, c) })
  else do
    let h ← homeData f r.line
    match r.cx with
    | none => modify fun s => s.dropHReq f r.id
    | some x =>
      if h.poison then modify fun s => (s.dropHReq f r.id).deliver x (.ue (keyVa r.line + r.off))
      else
        let (s, old, fl) := (← get).homeApply f r.line r.off op (AtOp.bytes op dw) b.toNat c.toNat
        set ((s.dropHReq f r.id).replyTo x r.id old fl)

def atomicAtHome (f : Nat) (r : HReq) : M Unit := do
  let r ← countAtomic f r
  match r.kind with
  | .atomic op dw b c false adaptive => bankAtomic f r op dw b c adaptive
  | _ => return ()

def execHomeAtomic (f id : Nat) (s : State) : Out :=
  runEvent (atHome f id (fun k => match k with
    | .atomic _ _ _ _ near _ => !near
    | _ => false) (atomicAtHome f)) s

/-! ## READ_FILL_REPLY, MERGE_FILL_ARRIVE, TILE_PUSH_INSTALL -/

/-- Data of a read fill or a grant of Own arrives (R121): the line is installed with wts = rts = 0, in a free way of its set
(R127), after what its slice has sent before (R104): of the lines of one slice for which there is a way, the first goes
first; a line that the L2 holds takes the state granted. DEDUCED: log entry 129. -/
def execReadFillReply (cl line : Nat) (s : State) : Out :=
  match List.find? (fun (y : Nat × L2Line) => sliceOf y.1 == sliceOf line && (s.cluster cl).room y.1) (s.cluster cl).fills with
  | none => .next s
  | some y =>
    if y.1 != line then .next s
    else
    let s := s.modCluster cl fun c => { c with fills := c.fills.filter fun z => z.1 != line }
    let s := match s.l2 cl line with
      | some x => s.setL2 cl line { x with st := y.2.st }
      | none => s.install cl line y.2
    .next ((s.prefetchIn cl line).wakeMem (inCluster cl))

/-- Each valid word keeps its local value, each other word takes the fetched one (R129). -/
def L2Line.mergeFill (x : L2Line) (d : LineData) (poison : Bool) : L2Line :=
  { x with data := mergeLine d x.data (wordBe x.valid), valid := BitVec.allOnes 16, poison := x.poison || poison
           foreign := x.foreign ||| ~~~x.valid }

/-- Merging fills of one slice arrive in the order sent (R104). DEDUCED: log entries 17, 129. -/
def execMergeFillArrive (cl line : Nat) (s : State) : Out :=
  match List.find? (fun (y : Nat × LineData × Bool) => sliceOf y.1 == sliceOf line) (s.cluster cl).merges with
  | none => .next s
  | some y =>
    if y.1 != line then .next s
    else
    let s := s.modCluster cl fun c => { c with merges := c.merges.filter fun z => z.1 != line }
    match s.l2 cl line with
    | none => .next s
    | some x => .next ((s.setL2 cl line (x.mergeFill y.2.1 y.2.2)).wakeMem (inCluster cl))

/-- A pushed line arrives (R114), in the order its slice has sent them (R104); id is the line's key. -/
def execTilePushInstall (cl id : Nat) (s : State) : Out :=
  match (s.cluster cl).pushes.find? fun y => sliceOf y.1 == sliceOf id with
  | some y => if y.1 = id then .next ((s.landPush cl id).wakeMem (inCluster cl)) else .next s
  | none => .next s

/-! ## CLUSTER_RECALL and L2_EVICTION (R125, R130, R260) -/

/-- A recall of a line whose directory entry is to be replaced (R100): never of a tile's line.
DEDUCED: log entry 25. -/
def execClusterRecall (cl line : Nat) (s : State) : Out :=
  let f := fieldOfCl cl
  let h := s.hline f line
  if inList cl h.dir.holders && h.tile.isNone && s.recallable cl line then .next (s.giveBack f cl line) else .next s

/-- DEDUCED: log entry 22. -/
def execL2Eviction (cl line : Nat) (s : State) : Out :=
  match s.l2 cl line with
  | none => .next s
  | some x =>
    if x.hold || x.marks.any (fun m => s.markOpen m) || (s.cluster cl).incoming line
        || (s.cluster cl).pushes.any (fun y => y.1 == line) then .next s
    else .next (s.evictL2 cl line x)

/-! ## L2_STORE_PERFORM (R120, R122, R123, R128, R258 to R260) -/

/-- Marks whose releases follow a write that has performed take its stamp (R259). DEDUCED: log entry 18. -/
def raiseMarks (k tid n w : Nat) (ms : List Mark) : List Mark :=
  ms.map fun m => if m.core = k ∧ (m.tid = tid ∧ n < m.n ∨ n < m.after) then { m with stamp := Nat.max m.stamp w } else m

def State.stampMarks (s : State) (k tid n w : Nat) : State :=
  let up := raiseMarks k tid n w
  let line (x : L2Line) : L2Line := if x.marks.isEmpty then x else { x with marks := up x.marks }
  let s := s.modCluster (clusterOf k) fun c => { c with l2 := c.l2.map fun (y : Nat × L2Line) => (y.1, line y.2) }
  let s := (coresOf (clusterOf k)).foldl (fun s j =>
    if (s.core j).cmarks.isEmpty then s else s.modCore j fun c => { c with cmarks := up c.cmarks }) s
  if (s.field (fieldOf k)).shmMarks.isEmpty then s
  else s.modField (fieldOf k) fun f => { f with shmMarks := up f.shmMarks }

/-- The entry may go to the L2: in order within its line, and a release wider than CORE after every earlier store of its
context. DEDUCED: log entry 27. -/
def sqMayGo (q : List SqEnt) (idx : Nat) (e : SqEnt) : Bool :=
  let before := q.take idx
  !(before.any fun x => lineKey x.asid x.va == lineKey e.asid e.va) &&
    match e.rel with
    | none | some .core => true
    | some _ => !(before.any fun x => x.tid == e.tid || decide (x.n < e.after))

/-- Bytes that a store writes. -/
def SqEnt.bytes (e : SqEnt) : Nat := (List.range 64).foldl (fun a i => if e.be.getLsbD i then a + 1 else a) 0

/-- The bytes of a store and its mark, on the line at stamp w. DEDUCED: log entry 27. -/
def State.performStore (s : State) (k idx : Nat) (e : SqEnt) (x : L2Line) (w : Nat) : State :=
  let l := lineKey e.asid e.va
  let off := e.va % 64
  let n := e.bytes
  let marks := match e.rel with
    | none => x.marks
    | some .core => unmark x.marks off n ++
      (words8 off n).map fun w => ({ off := 8 * w, core := k, tid := e.tid, n := e.n, after := e.after } : Mark)
    | some _ => unmark x.marks off n
  let s := s.l2Put k l { x with marks := marks } w e.data e.be
  (s.modCore k fun c => { c with sq := c.sq.eraseIdx idx }).stampMarks k e.tid e.n w

/-- A store reaches the L2: ownership and merging fill first, then its stamp, waited out or passed. -/
def storeAtL2 (k idx : Nat) (e : SqEnt) : M Unit := do
  let s ← get
  let cl := clusterOf k
  let l := lineKey e.asid e.va
  let ask (kind : HReqKind) : M Unit := do
    modify fun s => s.postHome (fieldOf k) { id := 0, kind := kind, cl := cl, core := k, cx := none, line := l,
                                             svc := e.cx == serviceCx (fieldOf k) }
    throw (.wait .memory)
  waitIf ((s.cluster cl).incoming l) .memory
  match s.l2 cl l with
  | none => ask .own
  | some x => do
    if x.st != .m && x.st != .e then ask .own
    waitIf (x.hold && e.stamp.isNone) .memory
    if wordsTouched e.be &&& ~~~(wordsCovered e.be) &&& ~~~x.valid != 0 then ask .merge
    match e.stamp with
    | some w => do
      waitIf (s.pts k < w) .memory
      set (s.performStore k idx e x w)
    | none => do
      waitIf (e.rel.isSome && (marksOn x.marks (e.va % 64) e.bytes).any fun m => m.tid != e.tid && s.markOpen m) .memory
      let w := Nat.max (s.pts k) (x.rts + 1)
      let gap := bits ((s.core k).reg 0x9A4) 16 8
      if w - s.pts k ≤ gap && decide (s.pts k < w) then
        let q := (s.core k).sq.set idx { e with stamp := some w }
        set ((s.setL2 cl l { x with hold := true }).modCore k fun c => { c with sq := q })
      else set ((s.raisePts k w).performStore k idx e x w)

/-- DEDUCED: log entry 27. -/
def execL2StorePerform (k idx : Nat) (s : State) : Out :=
  let q := (s.core k).sq
  match q[idx]? with
  | none => .next s
  | some e => if sqMayGo q idx e then runEvent (storeAtL2 k idx e) s else .next s

/-! ## Errors of the memories near the core (R132) -/

/-- The line is removed, to be fetched again. PRESUMED: log entry 28. -/
def execL1ParityError (k : Nat) (icache : Bool) (line : Nat) (s : State) : Out :=
  let c := s.core k
  if (if icache then (SMap.find? c.l1i line).isSome else (SMap.find? c.l1d line).isSome) then
    let s := s.modCore k fun c =>
      if icache then { c with l1i := SMap.del c.l1i line } else { c with l1d := SMap.del c.l1d line }
    .next (s.logErr (fieldOf k) .ce
      { syn := 1, kind := 0, loc := locator k, addr := BitVec.ofNat 64 (keyVa line), asid := keyAsid line })
  else .next s

/-- The record of an error in an 8-byte word. PRESUMED: log entry 28. -/
def eccRec (e : LineErr) (k : Nat) (va : Nat) (asid : BitVec 16) (paged : Bool) : ErrCls × ErrAt :=
  let a : ErrAt := { syn := if e = .single then 1 else 2, kind := if paged then 0 else 2, loc := locator k
                     addr := if paged then BitVec.ofNat 64 va else 0, asid := asid }
  (if e = .single then .ce else .ue, a)

/-- An error in an 8-byte word of the L2 of cluster `unit`, word addr mod 8 of line addr / 8; or in word addr of the
core memory of core `unit`. PRESUMED: log entry 28. -/
def execSramEccError (unit : Nat) (l2 : Bool) (addr : Nat) (e : LineErr) (s : State) : Out :=
  if e = .none then .next s
  else if l2 then
    match s.l2 unit (addr / 8) with
    | none => .next s
    | some x =>
      let l := addr / 8
      let s := if e = .double then s.setL2 unit l { x with pw := x.pw ||| BitVec.ofNat 8 (2 ^ (addr % 8)) } else s
      let (cls, a) := eccRec e (clusterCore unit) (keyVa l + 8 * (addr % 8)) (keyAsid l) true
      .next (s.logErr (fieldOfCl unit) cls a)
  else if decide (addr < 24576) then
    let e := if schedBase ≤ 8 * addr then LineErr.single else e
    let s := if e = .double then s.modCore unit fun c => { c with poison := addShare c.poison addr } else s
    let (cls, a) := eccRec e unit 0 0 false
    .next (s.logErr (fieldOf unit) cls a)
  else .next s

/-! ## Core memory: regions and full/empty waits (R137, R140); WAITA (R279) -/

/-- Base and length in bytes of a region. -/
def layBase (v : Word) : Nat := bits v 7 11 * 128
def layLen (v : Word) : Nat := 128 * bits v 32 12 * bits v 24 8

/-- A write of CMLAYn: refused with ERR alone set, or accepted. -/
def Core.cmlay (c : Core) (n : Nat) (v : Word) : Core :=
  let num := 0x9A0 + n
  let rows := bits v 32 12
  let meets := v.getLsbD 63 && (List.range 4).any fun m =>
    let o := c.reg (0x9A0 + m)
    m != n && o.getLsbD 63 && overlap (layBase v) (layLen v) (layBase o) (layLen o)
  if rows < 32 ∨ 1536 < rows ∨ bits v 24 8 = 0 ∨ cmemSize < layBase v + layLen v ∨ meets then
    c.setReg num (c.reg num ||| 0x4000000000000000#64)
  else c.setReg num (v &&& 0x80000FFFFF03FF80#64)

def execCmlayWrite (k n : Nat) (v : Word) (s : State) : Out :=
  if n < 4 then .next (s.modCore k fun c => c.cmlay n v) else .next s

/-- A filling satisfies waiting LDF and LDE on a word, in the order in which they began to wait. -/
def execFeWaitSatisfied (k off : Nat) (s : State) : Out :=
  if (s.core k).fe.any fun w => decide (w.2.1 ≤ off / 4) && decide (off / 4 < w.2.1 + w.2.2.1) then .next (s.serveFe k)
  else .next s

/-- A WAITA that waits reads its word again. -/
def execWaitaWake (c : Nat) (s : State) : Out :=
  if (s.ctx c).st = .waiting .word then .next (s.wake c) else .next s

/-! ## APCF (R116) -/

/-- A write of APCF; CLR gives every counter the value INIT. -/
def Field.apcf (f : Field) (v : Word) : Field :=
  let f := f.setReg 0x981 (v &&& 0xB#64)
  if v.getLsbD 2 then { f with pred := [], predInit := v.setWidth 2 } else f

def execApcfClear (f : Nat) (v : Word) (s : State) : Out :=
  if v.getLsbD 2 then .next (s.modField f fun fd => fd.apcf v) else .next s

end Sys2Proof.Machine
end

