-- ==== Sys2Proof/Machine/HostEvents.lean ====
section
/-! DEFINITION. Steps of the host over CXL and of requests that enter a field through a gateway or the peer window
(R40, R106, R107, R118, R266, R311, R312, R314, R317). -/

namespace Sys2Proof.Machine

def State.emit (s : State) (m : OutMsg) : State := { s with out := s.out ++ [m] }

/-! ## Host memory requests (R311, R312) -/

/-- VA, ASID and right to write of an HDM offset: none outside every enabled aperture. -/
def Field.hostVa (f : Field) (off : Nat) : Option (Nat × BitVec 16 × Bool) :=
  let a := off / 2 ^ 40
  let ctl := f.reg (bankReg 0xA03 a)
  let base := f.reg (bankReg 0xA02 a)
  let o := off % 2 ^ 40
  if 4 ≤ a ∨ ctl.getLsbD 63 = false ∨ bits ctl 0 24 * 65536 ≤ o then none
  else some (bits base 16 41 * 65536 + o / 64 * 64, base.setWidth 16, ctl.getLsbD 62)

/-- Translation, key and frame class of a host request; a missing translation parks it (R40, R88). -/
def hostXlat (f : Nat) (asid : BitVec 16) (va : Nat) (write : Bool) : M Unit := do
  match ← takeFail f (lineKey asid va) with
  | some c => failAt c va
  | none => pure ()
  let s ← get
  match (s.field f).translate asid va with
  | none => do
    modify fun s => s.postRim f { id := 0, kind := .fill, va := va, asid := asid, core := none, cx := none }
    throw (.wait .memory)
  | some x => do
    if !(← migMeets f asid va x) then failAt codeNomap va
    if !(s.field f).keyOk x.key then failAt codeKeyrev va
    let cls := (s.field f).frameClass (x.paOf va / 65536 * 65536) 65536
    if cls == .raw then failAt codePerm va
    if cls == .decoded && write then failAt codeFmtwr va

/-- A host request waits while a snoop for its line is out, while the device event that raised one is still to be
applied, and behind earlier requests for the line (R105, R107). DEDUCED: log entry 99. -/
def hostTurn (f l : Nat) : M Unit := do
  let s ← get
  waitIf (s.heldFor f l s.agent) .memory
  afterHome f l

/-- H after a MemRd (Table 05-5). -/
def Meta.hostAfter (mv : Meta) (h : HostF) : HostF :=
  match mv with
  | .i => h
  | .s => if h = .hx then .hx else .hs
  | .a | .noop => .hx

/-- Host MemRd at the home (Tables 05-4 and 05-5); want: the line is returned. -/
def hostRd (f l : Nat) (mv : Meta) (want : Bool) : M (LineData × Bool) := do
  hostTurn f l
  modify fun s => s.triggerTile f l none
  let s ← get
  let d := (s.hline f l).dir
  waitIf (!s.allRecallable l d.holders) .memory
  let d' : DirSt ← (match mv with
    | .a | .noop => do
      modify fun s => s.recallAll f l d.holders
      pure DirSt.i
    | _ => match d with
      | .e k | .m k => do
        modify fun s => s.recall f k l (some .s)
        pure (DirSt.s [k])
      | .o k sh => do
        modify fun s => s.recall f k l (some .s)
        pure (DirSt.s (addShare sh k))
      | d => pure d)
  modify fun s => s.setHline f l { s.hline f l with dir := d' }
  let x ← (if want then do
      let h ← homeData f l
      pure (h.data, h.poison)
    else pure (0, false))
  modify fun s => (s.setHline f l { s.hline f l with h := Meta.hostAfter mv (s.hline f l).h }).endSnoop f l
  return x

/-- Host MemWr and MemWrPtl at the home: a write-back of a line that the host holds is not held back by a snoop. -/
def hostWr (f l : Nat) (data : LineData) (be : BitVec 64) : M Unit := do
  let s ← get
  if (s.hline f l).h != .hx then hostTurn f l
  homeGather f l none
  ownFrame f l
  modify fun s => s.absorbAt f l data be false

/-- A read request of the host to a function. -/
def State.hostRead (s : State) (fn tag off : Nat) (mv : Meta) (want : Bool) (reply : LineData → Bool → OutMsg) : Out :=
  match s.hostFun fn with
  | none => .next s
  | some f =>
    if (s.field f).contained then .next (s.emit (reply 0 true))
    else match (s.field f).hostVa off with
    | none => .next (s.emit (reply 0 true))
    | some (va, asid, _) =>
      match (do
          asAgent (.host tag)
          hostXlat f asid va false
          hostRd f (lineKey asid va) mv want) s with
      | .ok x s => .next (s.emit (reply x.1 x.2))
      | .error (.fail ..) s => .next (s.emit (reply 0 true))
      | .error _ s => .next s

def execHostMemrd (fn tag off : Nat) (mv : Meta) (s : State) : Out :=
  s.hostRead fn tag off mv true fun d p => .hostData fn tag d p
def execHostMemrddata (fn tag off : Nat) (s : State) : Out := s.hostRead fn tag off .s true fun d p => .hostData fn tag d p
def execHostMeminv (fn tag off : Nat) (mv : Meta) (s : State) : Out :=
  s.hostRead fn tag off mv false fun _ p => .hostDone fn tag (!p)

/-- A refused write: the bytes are discarded, and a record names the cause and the offset (R311).
DEDUCED: log entry 100. -/
def State.hostRefuse (s : State) (f fn tag off cause : Nat) (va : Nat) (asid : BitVec 16) : State :=
  (s.logErr f .hostref { kind := if cause = 1 then 2 else 0, addr := BitVec.ofNat 64 va, asid := asid
                         detail := BitVec.ofNat 64 (cause + off % 2 ^ 48 * 65536) }).emit (.hostDone fn tag false)

/-- The cause of a refused write by the code of its failure. DEDUCED: log entry 100. -/
def hostCause (code : BitVec 8) : Nat := if code = codeNomap then 3 else if code = codeKeyrev then 4 else 5

/-- A write request of the host to a function. -/
def State.hostWrite (s : State) (fn tag off : Nat) (data : LineData) (be : BitVec 64) : Out :=
  match s.hostFun fn with
  | none => .next s
  | some f =>
    if (s.field f).contained then .next (s.emit (.hostDone fn tag false))
    else match (s.field f).hostVa off with
    | none => .next (s.hostRefuse f fn tag off 1 0 0)
    | some (va, asid, wr) =>
      if !wr then .next (s.hostRefuse f fn tag off 2 va asid)
      else
        match (do
            asAgent (.host tag)
            hostXlat f asid va true
            hostWr f (lineKey asid va) data be) s with
        | .ok _ s => .next ((s.emit (.hostDone fn tag true)).wakeMem fun c => fieldOf (coreOf c) == f)
        | .error (.fail c _) s => .next (s.hostRefuse f fn tag off (hostCause c) va asid)
        | .error _ s => .next s

def execHostMemwr (fn tag off : Nat) (data : LineData) (s : State) : Out := s.hostWrite fn tag off data (BitVec.allOnes 64)
def execHostMemwrptl (fn tag off : Nat) (data : LineData) (be : BitVec 64) (s : State) : Out := s.hostWrite fn tag off data be

/-! ## Snoops (R107, R312, R314) -/

/-- H after the answer to a snoop; none where the answer is not accepted. -/
def BiRsp.after (r : BiRsp) (inv : Bool) : Option HostF :=
  match r, inv with
  | .i, true => some .none
  | .i, false | .s, false => some .hs
  | _, _ => none

/-- A snoop is over: H is set, and the device event can go on. DEDUCED: log entry 99. -/
def State.snoopDone (s : State) (f l : Nat) (x : Snoop) (h : HostF) : State :=
  let s := s.modField f fun fd => { fd with snoops := SMap.put fd.snoops l { x with done := true } }
  (s.setHline f l { s.hline f l with h := h }).wakeMem fun c => fieldOf (coreOf c) == f

/-- DEDUCED: log entry 99. -/
def execBirsp (f line : Nat) (r : BiRsp) (s : State) : Out :=
  match SMap.find? (s.field f).snoops line with
  | none => .next s
  | some x =>
    match (if x.done then none else BiRsp.after r x.inv) with
    | none => .next s
    | some h => .next (s.snoopDone f line x h)

def execBiTimeout (f line : Nat) (s : State) : Out :=
  match SMap.find? (s.field f).snoops line with
  | none => .next s
  | some x =>
    if !x.done && decide (x.ns + bits ((s.field f).reg 0xA04) 0 16 * 1000 ≤ s.ns) then
      let s := s.logErr f .hostbi { syn := 6, kind := 0, addr := BitVec.ofNat 64 (keyVa line), asid := keyAsid line }
      .next ((s.modField f fun fd => { fd with contained := true }).snoopDone f line x .none)
    else .next s

def execH2dSnoop (f addr : Nat) (s : State) : Out := .next (s.emit (.rspIHitI f addr))

/-- The read of host memory that an OutMsg asks for: address and bytes. -/
def OutMsg.readOf (f id : Nat) : OutMsg → Option (Nat × Nat)
  | .cxlRead g i a n => if g = f ∧ i = id then some (a, n) else none
  | _ => none

/-- The host's line for a read that was sent: the load, or the engine's access, that asked for it completes; or the host's
acknowledgement of a write (R314). -/
def execCxlCacheResponse (f id : Nat) (data : LineData) (s : State) : Out :=
  match s.out.findSome? (OutMsg.readOf f id) with
  | none =>
    .next ((s.modField f fun fd => { fd with hostWrs := fd.hostWrs.filter fun w => w.1 != id }).wakeMem fun c =>
      fieldOf (coreOf c) == f)
  | some (a, n) =>
    let v := bytesNat (lineBytes data (a % 64) n)
    let s := { s with out := s.out.filter fun m => (OutMsg.readOf f id m).isNone }
    let s := s.modField f fun fd =>
      { fd with peers := fd.peers.map fun p => if p.id = id ∧ p.tag.isSome then { p with reply := some (BitVec.ofNat 128 v) } else p }
    match List.find? (fun (x : Nat × Ctx) => fieldOf (coreOf x.1) == f && (x.2.sent.map (·.id)) == some id) s.ctxs with
    | none => .next s
    | some x => .next (s.replyTo x.1 id v 0)

/-! ## Gateways (R118) and the peer window (R317) -/

def State.peer? (s : State) (f id : Nat) : Option Peer := (s.field f).peers.find? fun p => p.id == id && p.tag.isNone

/-- Bytes of a request. -/
def PeerOp.bytes : PeerOp → Nat
  | .load n => n
  | .store bs => bs.length
  | .storeWord _ bs => bs.length
  | .atomic op dw _ _ => AtOp.bytes op dw

def PeerOp.reads : PeerOp → Bool
  | .load _ => true
  | _ => false

/-- Requests of one task to one line are served in the order sent (R104). DEDUCED: log entry 101. -/
def Field.peerFirst (f : Field) (p : Peer) : Bool :=
  match f.peers.find? fun x => x.tag.isNone && x.tid == p.tid && x.handle == p.handle && x.off / 64 == p.off / 64 with
  | some x => x.id == p.id
  | none => false

/-- A request has been served, or has failed: a context takes the result; a posted store's failure is met where it
lands, as that of a write-back is (R89). DEDUCED: log entry 101. -/
def State.endPeer (s : State) (f : Nat) (p : Peer) (res : Except (BitVec 8) (Nat × BitVec 5)) : State :=
  let s := s.modField f fun fd => { fd with peers := fd.peers.filter fun x => x.id != p.id }
  match p.cx, res with
  | some c, .ok (v, fl) => s.replyTo c p.id v fl
  | some c, .error code =>
    if ((s.ctx c).sent.map (·.id)) = some p.id then s.deliver c (RimOut.ofCode code p.va) else s
  | none, .error code =>
    match p.at_ with
    | some (va, asid) => if code = codeNomap then s.logErr f .nomap { kind := 0, addr := BitVec.ofNat 64 va, asid := asid } else s
    | none => s
  | none, .ok _ => s

/-- A request arrives at the exporter: its handle's entry, generation and rights. DEDUCED: log entry 101. -/
def execPeerAccess (f id : Nat) (s : State) : Out :=
  match s.peer? f id with
  | none => .next s
  | some p =>
    if p.at_.isSome then .next s
    else
      match exportAt f (some p.srcField) p.handle p.off p.op.bytes p.va p.op.reads (!p.op.reads) s with
      | .ok x s => .next (s.modField f fun fd =>
          { fd with peers := fd.peers.map fun y => if y.id = id then { y with at_ := some x } else y })
      | .error (.fail c _) s => .next (s.endPeer f p (.error c))
      | .error _ s => .next s

/-- A request of context 15 of a supervisor core (R90). -/
def State.peerService (s : State) (p : Peer) : Bool :=
  p.cx == some (serviceCx p.srcField) || (p.cx.isNone && p.tid != 0 && (s.ctx (serviceCx p.srcField)).task.tid == p.tid)

/-- Serves a request that has been admitted. -/
def State.gate (s : State) (f : Nat) (p : Peer) (m : M (Nat × BitVec 5)) : Out :=
  if !(s.field f).peerFirst p then .next s
  else
    match m { s with agent := .work p.id (s.peerService p) } with
    | .ok r s => .next ((s.endPeer f p (.ok r)).wakeMem fun c => fieldOf (coreOf c) == f)
    | .error (.fail c _) s => .next (s.endPeer f p (.error c))
    | .error _ s => .next s

/-- An admitted request of an id: the request, its VA and ASID. -/
def State.admitted (s : State) (f id : Nat) : Option (Peer × Nat × BitVec 16) :=
  match s.peer? f id with
  | none => none
  | some p => p.at_.map fun x => (p, x.1, x.2)

def execGatewayLoad (f id : Nat) (s : State) : Out :=
  match s.admitted f id with
  | none => .next s
  | some (p, va, asid) =>
    match p.op with
    | .load n => s.gate f p (do
        let bs ← gateRead f asid va n
        return (bytesNat bs, 0))
    | _ => .next s

def execGatewayStore (f id : Nat) (s : State) : Out :=
  match s.admitted f id with
  | none => .next s
  | some (p, va, asid) =>
    match p.op with
    | .store bs => s.gate f p (do
        gateWrite f asid va bs
        return (0, 0))
    | .storeWord be bs => s.gate f p (do
        gateWrite f asid va bs 0 (be.setWidth 64 <<< (va % 64))
        return (0, 0))
    | _ => .next s

def execGatewayAtomic (f id : Nat) (s : State) : Out :=
  match s.admitted f id with
  | none => .next s
  | some (p, va, asid) =>
    match p.op with
    | .atomic op dw b c => s.gate f p (gateAtomic f asid va true op (AtOp.bytes op dw) b.toNat c.toNat)
    | _ => .next s

end Sys2Proof.Machine
end

