-- ==== Sys2Proof/Machine/Order.lean ====
section
/-! DEFINITION. The fields of a copy record, and the order and destinations of the transfers of a context (R146, R262, R265,
R292, R293). -/

namespace Sys2Proof.Machine

/-! ## Fields (Tables 07-1 and 07-2) -/

/-- A copy record. -/
structure CopyRec where
  ctl : Nat
  next : Nat
  cword : Nat
  cval : Nat
  ext : List Nat
  ss : List Int
  ds : List Int
  sb : Nat
  db : Nat
  st : Nat
  dt : Nat
  slay : Nat
  dlay : Nat
  padg : Nat
  idx : Nat
  lim : Nat
  rop : Nat
  /-- A reserved byte, or a reserved bit of the status word, is not 0. -/
  rsv : Bool
  deriving DecidableEq, Repr

def CopyRec.of (b : List Byte) : CopyRec :=
  let nine (f : Nat → Nat) : List Nat := (List.range 9).map f
  { ctl := fieldAt b 0 4, next := fieldAt b 8 8, cword := fieldAt b 16 8, cval := fieldAt b 24 8
    ext := nine fun d => fieldAt b (32 + 4 * d) 4
    ss := (nine fun d => fieldAt b (68 + 8 * d) 8).map (signed 64)
    ds := (nine fun d => fieldAt b (140 + 8 * d) 8).map (signed 64)
    sb := fieldAt b 212 8, db := fieldAt b 220 8, st := fieldAt b 228 1, dt := fieldAt b 229 1, slay := fieldAt b 230 1
    dlay := fieldAt b 231 1, padg := fieldAt b 232 2, idx := fieldAt b 236 8, lim := fieldAt b 244 4
    rop := fieldAt b 248 1, rsv := fieldAt b 4 4 % 2 ^ 18 != 0 || fieldAt b 234 2 != 0 || fieldAt b 249 7 != 0 }

def CopyRec.bitsOf (r : CopyRec) (lo n : Nat) : Nat := r.ctl / 2 ^ lo % 2 ^ n
def CopyRec.own (r : CopyRec) : Bool := r.bitsOf 31 1 == 1
def CopyRec.kind (r : CopyRec) : Nat := r.bitsOf 28 3
def CopyRec.scope (r : CopyRec) : Nat := r.bitsOf 25 3
def CopyRec.padskip (r : CopyRec) : Bool := r.bitsOf 24 1 == 1
def CopyRec.bmode (r : CopyRec) : Nat := r.bitsOf 22 2
def CopyRec.ndim (r : CopyRec) : Nat := r.bitsOf 18 4
def CopyRec.srck (r : CopyRec) : Nat := r.bitsOf 16 2
def CopyRec.dstk (r : CopyRec) : Nat := r.bitsOf 14 2
def CopyRec.cwen (r : CopyRec) : Bool := r.bitsOf 13 1 == 1
def CopyRec.extn (r : CopyRec) : Bool := r.bitsOf 12 1 == 1
def CopyRec.rmode (r : CopyRec) : Nat := r.bitsOf 9 3
def CopyRec.sat (r : CopyRec) : Bool := r.bitsOf 8 1 == 1

/-! ## Order of transfers (R265, R292, R293) -/

/-- The virtual channel of an item. DEDUCED: log entry 70. -/
def Item.vc (i : Item) : Nat :=
  match i.kind with
  | .put _ _ _ _ vc .. => vc
  | .ramo _ _ _ _ _ _ vc .. => vc
  | .cpy ch => ch
  | _ => 0

def Item.isCpy (i : Item) : Bool :=
  match i.kind with
  | .cpy _ => true
  | _ => false

/-- The destination of an address for transfers of a field: module and field. -/
def State.vaDest (s : State) (f va : Nat) : Nat × Nat :=
  if peerBase ≤ va then
    let src := s.pimSrc f ((va - peerBase) / 2 ^ 45)
    let m := bits src 48 16
    (if m = s.modId then 0 else m, bits src 44 4)
  else (0, f)

/-- The destination of a put or a RAMO (R265). -/
def State.itemDest (s : State) (k : Nat) (i : Item) : Nat × Nat :=
  match i.kind with
  | .put dst _ dk .. => s.vaDest (fieldOf k) (if dk then 0 else dst)
  | .ramo va .. => s.vaDest (fieldOf k) va
  | _ => (0, fieldOf k)

/-- Every word of a put has left. -/
def Item.left (i : Item) : Bool :=
  i.status.isSome || i.killed || i.bad != 0 ||
  match i.kind with
  | .put _ _ _ _ _ _ len _ => decide (len / 8 ≤ i.at_)
  | _ => true

/-- What a transfer writes is visible, or on its way to another module: of a put, its increment too. -/
def Item.gone (i : Item) : Bool :=
  i.status.isSome ||
  match i.kind with
  | .put .. => i.killed || i.bad != 0 || i.landed
  | .ramo va .. => i.away && decide (peerBase ≤ va)
  | .cpy _ => false
  | _ => true

/-- The items that a task issued before an item. DEDUCED: log entry 70. -/
def Core.before (c : Core) (tid id : Nat) : List Item := c.items.filter fun j => j.tid == tid && decide (j.id < id)

/-- The destination of a record: module and field; none of an owned one, whose elements may lie anywhere. -/
def CopyRec.goesTo (r : CopyRec) (s : State) (f : Nat) : Option (Nat × Nat) :=
  if r.dstk = 1 then none else some (s.vaDest f (if r.dstk = 0 then r.db else 0))

/-- The bytes of a CPY record of a context, where they are at hand: its channel runs it, or they lie in memory of its
cluster. -/
def State.recBytes (s : State) (k ch id : Nat) : Option (List Byte) :=
  let c := (s.cluster (clusterOf k)).chans.toList.getD ch {}
  match c.cur.filter fun r => !r.ent.chain && r.ent.item == id && !r.bytes.isEmpty with
  | some r => some r.bytes
  | none =>
    match ((c.cur.map (·.ent)).toList ++ c.queue).find? fun e => !e.chain && e.item == id with
    | none => none
    | some e =>
      match s.space k e.addr with
      | .core j o => some (Mem.readBytes (s.core j).cmem o 256)
      | .shared o => some (Mem.readBytes (s.field (fieldOf k)).shm o 256)
      | .paged => ((List.range 4).mapM fun n => s.l2 (clusterOf k) (lineKey e.asid (e.addr + 64 * n))).map fun ls =>
          ls.flatMap fun x => lineBytes x.data 0 64
      | _ => none

/-- A CPY item may write at a destination: so long as its record is not at hand, anywhere. DEDUCED: log entry 66. -/
def State.cpyGoes (s : State) (k : Nat) (j : Item) (d : Nat × Nat) : Bool :=
  match (s.recBytes k j.vc j.id).map fun b => (CopyRec.of b).goesTo s (fieldOf k) with
  | some (some x) => x == d
  | _ => true

/-- A chain that a task issued before an item is queued, or walked, on a channel, and may write at a destination; one that holds a
record with OWN = 0 has written what it was given (R265, R293). DEDUCED: log entry 66. -/
def State.chainGoes (s : State) (k ch tid id : Nat) (d : Nat × Nat) : Bool :=
  let c := (s.cluster (clusterOf k)).chans.toList.getD ch {}
  let mine (e : ChanEnt) : Bool := e.chain && e.tid == tid && decide (e.item < id)
  c.queue.any mine ||
  match c.cur with
  | some r => mine r.ent && r.st != .holding &&
      (r.bytes.isEmpty || (CopyRec.of r.bytes).next != 0 || ((CopyRec.of r.bytes).goesTo s (fieldOf k)).all (· == d))
  | none => false

/-- No earlier transfer of the context that must go first is still here: a put leaves after the earlier puts of its
context, and each transfer follows those to its destination on its virtual channel (R265, R292).
DEDUCED: log entry 66. -/
def State.mayLeave (s : State) (k : Nat) (i : Item) : Bool :=
  let d := s.itemDest k i
  !(s.chainGoes k i.vc i.tid i.id d) && ((s.core k).before i.tid i.id).all fun j =>
    (!(i.isPut && j.isPut) || j.left) &&
      (j.gone || j.vc != i.vc || !(if j.isCpy then s.cpyGoes k j d else s.itemDest k j == d))

/-- A copy record writes a byte outside the field at a destination inside a scope; an owned side may (R262). -/
def CopyRec.outside (r : CopyRec) (s : State) (f : Nat) (sc : Scope) : Bool :=
  r.dstk == 1 || (r.dstk == 0 && decide (peerBase ≤ r.db) && scopeHolds sc (pimKind (s.pimCtl f ((r.db - peerBase) / 2 ^ 45))))

/-- A channel runs, or has queued, a record of a task that may leave the field for a destination inside a scope: a record
whose bytes are not at hand may (R262). DEDUCED: log entry 51. -/
def State.chanOutside (s : State) (k ch tid : Nat) (sc : Scope) : Bool :=
  let c := (s.cluster (clusterOf k)).chans.toList.getD ch {}
  let out (b : List Byte) : Bool := (CopyRec.of b).outside s (fieldOf k) sc
  (c.queue.any fun e => e.tid == tid && (e.chain || ((s.recBytes k ch e.item).map out).getD true)) ||
  match c.cur with
  | some r => r.ent.tid == tid && r.st != .holding &&
      (r.bytes.isEmpty || out r.bytes || (r.ent.chain && (CopyRec.of r.bytes).next != 0))
  | none => false

/-- An item may leave the field for a destination inside a scope; the records of copies are looked at on their channels. -/
def State.itemOutside (s : State) (k : Nat) (i : Item) (sc : Scope) : Bool :=
  let at_ (va : Nat) : Bool := decide (peerBase ≤ va) && scopeHolds sc (pimKind (s.pimCtl (fieldOf k) ((va - peerBase) / 2 ^ 45)))
  match i.kind with
  | .put d _ dk .. => !dk && at_ d
  | .ramo va .. => at_ va
  | _ => false

end Sys2Proof.Machine
end

