-- ==== Sys2Proof/Machine/Vector.lean ====
section
/-! DEFINITION. Lanes, masks and operands of the vector forms (R163, R209 to R211), and the functions of one lane. -/

namespace Sys2Proof.Machine

/-! ## Elements and lanes -/

/-- Element e of width w of a register (R47). -/
def elem (v : VWord) (e w : Nat) : Nat := v.toNat / 2 ^ (e * w) % 2 ^ w

/-- Packs elements of width w, element 0 first. -/
def packNat (w : Nat) : List Nat → Nat
  | [] => 0
  | x :: t => x % 2 ^ w + 2 ^ w * packNat w t

def packVec (w : Nat) (l : List Nat) : VWord := BitVec.ofNat 1024 (packNat w l)

/-- Number of lanes of width w. -/
def lanesOf (w : Nat) : Nat := 1024 / w

/-- Activity of element e (R163). -/
def active (q : QWord) (e w : Nat) : Bool := q.getLsbD (e * w / 8)

/-- Element e of a vector source, with its broadcast and its sign inversion (R211). -/
def VSrc.elem (x : VSrc) (c : Ctx) (w e : Nat) : Nat :=
  let v := Machine.elem (c.rv x.v) (if x.bc then 0 else e) w
  if x.neg then v ^^^ 2 ^ (w - 1) else v

/-- Element e of operand B of an integer form. -/
def VB.elem (y : VB) (c : Ctx) (w e : Nat) : Nat :=
  match y with
  | .v x => VSrc.elem x c w e
  | .g r => (c.rg r).toNat % 2 ^ w
  | .imm i => (i.signExtend 64).toNat % 2 ^ w

/-- Element e of operand B of a floating-point form. -/
def VG.elem (y : VG) (c : Ctx) (w e : Nat) : Nat :=
  match y with
  | .v x => VSrc.elem x c w e
  | .g r => (c.rg r).toNat % 2 ^ w

/-- The elements of the common lane loop: result and flags of active lanes, 0 or the old value elsewhere (R211). -/
def laneList (c : Ctx) (w : Nat) (m : VMask) (d : VReg) (f : Nat → Nat × BitVec 5) : List (Nat × BitVec 5) :=
  let mk := c.rq m.msk
  (List.range (lanesOf w)).map fun e =>
    if active mk e w then f e else if m.z then (0, 0) else (elem (c.rv d) e w, 0)

/-- Writes the lanes and sets the flags. -/
def putLanes (c : Ctx) (w : Nat) (m : VMask) (d : VReg) (f : Nat → Nat × BitVec 5) : Ctx :=
  let l := laneList c w m d f
  (c.wv d (packVec w (l.map (·.1)))).orFlags (allFlags l)

/-- The common lane loop of forms that set no flag. -/
def putInts (c : Ctx) (w : Nat) (m : VMask) (d : VReg) (f : Nat → Nat) : Ctx :=
  c.wv d (packVec w ((laneList c w m d fun e => (f e, 0)).map (·.1)))

/-- Mask bits of lanes: every bit that governs a lane's bytes (R216). -/
def putMask (c : Ctx) (w : Nat) (m : VMask) (d : QReg) (f : Nat → Bool) : Ctx :=
  let mk := c.rq m.msk
  let old := c.rq d
  let bitOf (b : Nat) : Bool :=
    let e := b * 8 / w
    if active mk e w then f e else if m.z then false else old.getLsbD b
  c.wq d (BitVec.ofNat 128 ((List.range 128).foldl (fun a b => if bitOf b then a + 2 ^ b else a) 0))

/-- The active lanes, ascending. -/
def activeLanes (c : Ctx) (q : QReg) (w : Nat) : List Nat :=
  (List.range (lanesOf w)).filter fun e => active (c.rq q) e w

/-! ## Integer lanes (R213 to R215) -/

/-- An exact signed result: modulo 2^w, or clamped (R214). -/
def satOr (sat : Bool) (w : Nat) (x : Int) : Nat :=
  intConv (-(2 ^ (w - 1) : Nat)) ((2 ^ (w - 1) : Nat) - 1) w sat x

def laneAdd (sat : Bool) (w a b : Nat) : Nat := satOr sat w (signed w a + signed w b)
def laneSub (sat : Bool) (w a b : Nat) : Nat := satOr sat w (signed w a - signed w b)
def laneMulh (w a b : Nat) : Nat := truncTo w (signed w a * signed w b / (2 ^ w : Nat))
def laneMin (w a b : Nat) : Nat := if signed w a ≤ signed w b then a else b
def laneMax (w a b : Nat) : Nat := if signed w a ≤ signed w b then b else a
def laneShl (w a b : Nat) : Nat := a * 2 ^ (b % w) % 2 ^ w
def laneShr (w a b : Nat) : Nat := a / 2 ^ (b % w)
def laneSar (w a b : Nat) : Nat := truncTo w (signed w a / (2 ^ (b % w) : Nat))
def lanePopc (w a : Nat) : Nat := ((List.range w).filter fun i => a.testBit i).length

/-- An immediate shift amount outside [0, w − 1] raises ILLOP (R215). -/
def shiftBad (t : ETy) : VB → Bool
  | .imm i => decide (i.toInt < 0) || decide ((t.width : Int) ≤ i.toInt)
  | _ => false

/-- A form of two operands. -/
def vint (op : Nat → Nat → Nat → Nat) (t : ETy) (m : VMask) (d : VReg) (x : VSrc) (y : VB) (c : Ctx) : Ctx :=
  let w := t.width
  putInts c w m d fun e => op w (VSrc.elem x c w e) (VB.elem y c w e)

/-- A form of one operand. -/
def vint1 (op : Nat → Nat → Nat) (t : ETy) (m : VMask) (d : VReg) (x : VSrc) (c : Ctx) : Ctx :=
  let w := t.width
  putInts c w m d fun e => op w (VSrc.elem x c w e)

/-! ## Floating-point lanes (R218 to R221) -/

/-- The format of a lane; every float type has one. -/
def fmtOf (t : ETy) (c : Ctx) : Fmt := (ETy.fmt t c.extn).getD .f32

/-- A form of two operands; op also gets the old element. -/
def vfp (op : Fmt → FVal → FVal → FVal → Nat × BitVec 5) (t : ETy) (m : VMask) (d : VReg) (x : VSrc) (y : VG)
    (c : Ctx) : Ctx :=
  let w := t.width
  let f := fmtOf t c
  putLanes c w m d fun e =>
    op f (f.val (VSrc.elem x c w e)) (f.val (VG.elem y c w e)) (f.val (elem (c.rv d) e w))

/-- A form of one operand. -/
def vfp1 (op : Fmt → FVal → Nat × BitVec 5) (t : ETy) (m : VMask) (d : VReg) (x : VSrc) (c : Ctx) : Ctx :=
  let w := t.width
  let f := fmtOf t c
  putLanes c w m d fun e => op f (f.val (VSrc.elem x c w e))

/-- Table 10-5. -/
def fpCond (c : Cond) (a b : FVal) : Bool :=
  let un := a.isNan || b.isNan
  let o := a.cmp b
  match c with
  | .eq => !un && o == .eq
  | .ne => un || o != .eq
  | .lt => !un && o == .lt
  | .ge => !un && o != .lt
  | .ltu => un || o == .lt
  | .geu => un || o != .lt
  | .bits => un
  | .nbits => !un

/-- Table 10-6: the class bit of a code. -/
def fpClass (f : Fmt) (x : Nat) : Nat :=
  match f.val x with
  | .inf n => if n then 0 else 7
  | .nan s => if s then 8 else 9
  | .fin n m _ =>
    if m = 0 then (if n then 3 else 4)
    else if m < 2 ^ f.frac then (if n then 2 else 5)
    else if n then 1 else 6

/-! ### Estimates (R220, Table 10-7) -/

/-- The quotient rounded to nearest, ties to even. -/
def divRne (a b : Nat) : Nat :=
  let q := a / b
  let r := a % b
  if b < 2 * r ∨ (2 * r = b ∧ q % 2 = 1) then q + 1 else q

/-- Exponent t and table index k = floor((m − 1) × n + 1/2) of a positive magnitude M × 2^e = 2^t × m. -/
def splitMag (m : Nat) (e : Int) (n : Nat) : Int × Nat :=
  let l := bitLen m - 1
  (e + l, ((m - 2 ^ l) * n * 2 + 2 ^ l) / 2 ^ (l + 1))

/-- sig12(1 / (1 + k/256)) in units of 2^−12. -/
def rcpTable (k : Nat) : Nat := divRne (256 * 4096) (256 + k)

/-- sig12(√(p/q)) in units of 2^−12, for p/q in [1/4, 1]. -/
def rsqTable (p q : Nat) : Nat :=
  let n := 4096 * 4096 * 4 * p
  let r := isqrt (n / q)
  if r * r * q = n ∧ r % 4 = 1 then r / 2 else (r + 1) / 2

/-- x^(2^n). -/
def squares (x : Nat) : Nat → Nat
  | 0 => x
  | n + 1 => squares (x * x) n

/-- floor of the 256th root of a number, below 2^14, from the highest bit down. -/
def root256 (x : Nat) (r : Nat) : Nat → Nat
  | 0 => r
  | i + 1 => root256 x (if squares (r + 2 ^ i) 8 ≤ x then r + 2 ^ i else r) i

/-- sig12(2^(k/256)) in units of 2^−11. -/
def exp2Table (k : Nat) : Nat := (root256 (2 ^ (3072 + k)) 0 14 + 1) / 2

/-- fix12(log2(1 + k/256)) in units of 2^−12. -/
def log2Table (k : Nat) : Nat := (bitLen (squares (256 + k) 13) - 1 - 65536 + 1) / 2

def estRcp (f : Fmt) (mode : RMode) (a : FVal) : Nat × BitVec 5 :=
  match a with
  | .nan s => f.nanOut s
  | .inf n => (f.signed n 0, 0)
  | .fin n m e =>
    if m = 0 then (f.infOut n, dzFlag)
    else
      let (t, k) := splitMag m e 256
      f.roundVal mode false n (rcpTable k) (-12 - t)

/-- The table argument of VFRSQ as a ratio 1/c, and t/2. -/
def rsqSplit (m : Nat) (e : Int) : Nat × Nat × Int :=
  let t := e + bitLen m - 1
  if t % 2 = 0 then (128, 128 + (splitMag m e 128).2, t / 2)
  else (64, 128 + (splitMag m e 128).2, (t - 1) / 2)

def estRsq (f : Fmt) (mode : RMode) (a : FVal) : Nat × BitVec 5 :=
  match a with
  | .nan s => f.nanOut s
  | .inf n => if n then f.invalid else (f.signed false 0, 0)
  | .fin n m e =>
    if m = 0 then (f.infOut n, dzFlag)
    else if n then f.invalid
    else
      let (p, q, h) := rsqSplit m e
      f.roundVal mode false false (rsqTable p q) (-12 - h)

/-- floor(x) and floor((x − floor(x)) × 256 + 1/2). -/
def expSplit (neg : Bool) (m : Nat) (e : Int) : Int × Nat :=
  if 0 ≤ e then (sgn neg (m * 2 ^ e.toNat), 0)
  else
    let k := (-e).toNat
    let x := sgn neg m
    let i := x / (2 ^ k : Nat)
    let r := (x - i * (2 ^ k : Nat)).toNat
    (i, (r * 512 + 2 ^ k) / 2 ^ (k + 1))

def estExp2 (f : Fmt) (mode : RMode) (a : FVal) : Nat × BitVec 5 :=
  match a with
  | .nan s => f.nanOut s
  | .inf n => if n then (f.signed false 0, 0) else (f.infOut false, 0)
  | .fin n m e =>
    let (i, k) := expSplit n m e
    f.roundVal mode false false (exp2Table k) (max (-4000) (min 4000 i) - 11)

def estLog2 (f : Fmt) (mode : RMode) (a : FVal) : Nat × BitVec 5 :=
  match a with
  | .nan s => f.nanOut s
  | .inf n => if n then f.invalid else (f.infOut false, 0)
  | .fin n m e =>
    if m = 0 then (f.infOut true, dzFlag)
    else if n then f.invalid
    else
      let (t, k) := splitMag m e 256
      let x := t * 4096 + log2Table k
      f.roundVal mode false (decide (x < 0)) x.natAbs (-12)

/-! ## Conversion (R222) -/

/-- Range of an integer type as VFCVT, copies and MST read it. -/
def intRange (t : ETy) : Int × Int :=
  match t with
  | .ui8 => (0, 255)
  | _ => (-(2 ^ (t.width - 1) : Nat), (2 ^ (t.width - 1) : Nat) - 1)

/-- The integer of a code. -/
def intOf (t : ETy) (x : Nat) : Int :=
  match t with
  | .ui8 => (x % 256 : Nat)
  | _ => signed t.width x

/-- Converts one element between value types (R63, R64). -/
def convElem (dt st : ETy) (mode : RMode) (sat ext : Bool) (x : Nat) : Nat × BitVec 5 :=
  match ETy.fmt dt ext, ETy.fmt st ext with
  | some d, some f => d.convert mode sat (f.val x)
  | none, some f =>
    let (y, fl) := toInt (intRange dt).1 (intRange dt).2 mode (f.val x)
    (truncTo dt.width y, fl)
  | some d, none =>
    let y := intOf st x
    d.roundVal mode sat (decide (y < 0)) y.natAbs 0
  | none, none => (intConv (intRange dt).1 (intRange dt).2 dt.width sat (intOf st x), 0)

/-- VFCVT's loop. -/
def vfcvtLanes (dt st : ETy) (mode : RMode) (m : VMask) (sat : Bool) (part : Nat) (d : VReg) (x : VSrc) (c : Ctx) : Ctx :=
  let ws := st.width
  let wd := dt.width
  let n := 1024 / Nat.max ws wd
  let base := if wd < ws then part * n else 0
  let l : List (Nat × BitVec 5) := (List.range (1024 / wd)).map fun di =>
    if base ≤ di ∧ di < base + n then
      if active (c.rq m.msk) di wd then
        let e := di - base
        convElem dt st mode sat c.extn (VSrc.elem x c ws (if ws < wd then part * n + e else e))
      else if m.z then (0, 0) else (elem (c.rv d) di wd, 0)
    else (elem (c.rv d) di wd, 0)
  (c.wv d (packVec wd (l.map (·.1)))).orFlags (allFlags l)

/-- Lanes per scale byte (R223). -/
def sclBlock (b : BitVec 2) : Nat := if b = 0 then 1 else if b = 1 then 32 else 64

/-- One lane of VFSCL. -/
def vfsclLane (f : Fmt) (mode : RMode) (inv : Bool) (a : FVal) (sc : Nat) : Nat × BitVec 5 :=
  match scaleExp sc with
  | none => f.invalid
  | some k =>
    match a with
    | .nan s => f.nanOut s
    | .inf n => (f.infOut n, 0)
    | .fin n m e => f.roundVal mode false n m (if inv then e - k else e + k)

end Sys2Proof.Machine
end

