-- ==== Sys2Proof/Machine/CopyRec.lean ====
section
/-! DEFINITION. Copy records: their checks, the addresses of their elements, owner tables, and the work on one
element (R146 to R156). -/

namespace Sys2Proof.Machine

/-! ## Types (Table 07-4) -/

/-- Bits of an element of a type code (Table 07-4). -/
def typeBits (t : Nat) : Nat :=
  match t with
  | 0 | 8 | 9 | 12 | 14 => 8
  | 1 | 6 | 7 => 16
  | 2 | 5 | 15 => 32
  | 10 | 11 | 13 => 4
  | _ => 64

def typeBytes (t : Nat) : Nat := Nat.max 1 (typeBits t / 8)

def typed (t : Nat) : Bool := decide (4 ≤ t)

/-- The value type of a typed code. -/
def typeETy (t : Nat) : ETy :=
  match t with
  | 4 => .f64 | 5 => .f32 | 6 => .f16 | 7 => .bf16 | 8 => .f8e4 | 9 => .f8e5 | 10 => .f4 | 11 => .l4 | 12 => .i8
  | 13 => .i4 | 14 => .ui8 | 15 => .w | _ => .d

def kCopy : Nat := 0
def kGather : Nat := 1
def kScatter : Nat := 2
def kReduce : Nat := 3
def kPutx : Nat := 4
def kRaw : Nat := 5

def CopyRec.indexed (r : CopyRec) : Bool := r.kind == kGather || r.kind == kScatter || r.kind == kReduce
def CopyRec.total (r : CopyRec) : Nat := (r.ext.take r.ndim).foldl (· * ·) 1
def CopyRec.e (r : CopyRec) (d : Nat) : Nat := r.ext.getD d 0
def CopyRec.strides (r : CopyRec) (src : Bool) : List Int := if src then r.ss else r.ds
def CopyRec.base (r : CopyRec) (src : Bool) : Nat := if src then r.sb else r.db
def CopyRec.type (r : CopyRec) (src : Bool) : Nat := if src then r.st else r.dt
def CopyRec.lay (r : CopyRec) (src : Bool) : Nat := if src then r.slay else r.dlay
def CopyRec.side (r : CopyRec) (src : Bool) : Nat := if src then r.srck else r.dstk

/-- Channel groups of the C32 layout (R151). -/
def CopyRec.groups (r : CopyRec) : Nat := if r.padg = 0 then ceilDiv (r.e 2) 32 else r.padg

/-! ## The checks before any byte moves (R147) -/

/-- A dimension of a side whose outermost coordinate an index replaces. -/
def CopyRec.indexedDim (r : CopyRec) (src : Bool) (d : Nat) : Bool :=
  d + 1 == r.ndim && (if src then r.kind == kGather else r.kind == kScatter || r.kind == kReduce)

/-- Some element of an ADDR or CMEM side would not be naturally aligned; an extent 0 leaves no element.
DEDUCED: log entry 29. -/
def CopyRec.misaligned (r : CopyRec) (src : Bool) : Bool :=
  let n := typeBytes (r.type src)
  r.side src != 1 && !((List.range r.ndim).any fun d => r.e d == 0) &&
    (r.base src % n != 0 ||
      (r.lay src == 0 && (List.range r.ndim).any fun d =>
        (if r.indexedDim src d then decide (1 < r.lim) else decide (1 < r.e d)) && ((r.strides src).getD d 0) % n != 0))

/-- A 4-bit side that is not packed as R148 asks; the strides of an OWNED side hold coordinates (R155). -/
def CopyRec.badNibbles (r : CopyRec) (src : Bool) : Bool :=
  typeBits (r.type src) == 4 && (r.side src != 1 && (r.strides src).getD 0 0 != 0 || r.e 0 % 2 != 0)

/-- The C32 rules (R151). -/
def CopyRec.badC32 (r : CopyRec) : Bool :=
  let on (src : Bool) : Bool := r.lay src == 1 && (r.strides src).any (· != 0)
  (r.slay == 1 || r.dlay == 1) &&
    (r.kind != kCopy || r.ndim != 4 || r.srck == 1 || r.dstk == 1 || on true || on false
      || (r.padg != 0 && decide (r.padg < ceilDiv (r.e 2) 32)))

/-- Where an owner table may lie: paged memory or core memory of the cluster of core k (R155). -/
def CopyRec.badTable (r : CopyRec) (s : State) (k : Nat) (src : Bool) : Bool :=
  r.side src == 1 && (r.base src % 128 != 0 || match s.space k (r.base src) with
    | .paged | .core .. => false
    | _ => true)

/-- The rules of the kinds (R153, R154). -/
def CopyRec.badKind (r : CopyRec) : Bool :=
  (r.indexed && r.idx % 4 != 0) ||
  (r.kind == kReduce &&
    (decide (7 < r.rop) || (decide (r.rop ≤ 4) && !(r.dt == 15 || r.dt == 16)) ||
      (decide (5 ≤ r.rop) && !(r.dt == 4 || r.dt == 5)) || r.dstk == 2 ||
      !(decide (r.db < localBase) || (decide (sharedBase ≤ r.db) && decide (r.db < peerBase))))) ||
  (r.kind == kPutx && (r.cval != 0 || !r.cwen)) ||
  (r.kind == kRaw && (typed r.st || typed r.dt || typeBits r.st != typeBits r.dt || r.slay != 0 || r.dlay != 0
    || r.srck != 0 || r.dstk != 0))

/-- The record of core k completes with BADREC (R147). DESIGN CHOICE: bits [31:18] of a CMEM base, to which R148 gives no meaning,
count as reserved (log entry 29). DEDUCED: log entry 29. -/
def CopyRec.bad (r : CopyRec) (s : State) (k : Nat) : Bool :=
  r.bitsOf 0 7 != 0 || decide (5 < r.kind) || decide (4 < r.scope) || r.bmode == 3 || r.srck == 3 || r.dstk == 3
    || decide (4 < r.rmode) || decide (16 < r.st) || decide (16 < r.dt) || decide (1 < r.slay) || decide (1 < r.dlay)
    || decide (7 < r.rop) || r.rsv || r.ndim == 0 || decide (9 < r.ndim)
    || ((List.range 9).any fun d => decide (r.ndim ≤ d) && (r.e d != 0 || r.ss.getD d 0 != 0 || r.ds.getD d 0 != 0))
    || decide (2 ^ 63 ≤ r.cval) || r.cword % 8 != 0
    || (r.st != r.dt && !(typed r.st && typed r.dt) && typeBits r.st != typeBits r.dt)
    || (r.srck == 2 && r.sb / 2 ^ 18 % 2 ^ 14 != 0) || (r.dstk == 2 && r.db / 2 ^ 18 % 2 ^ 14 != 0)
    || r.badC32 || r.badKind || r.badTable s k true || r.badTable s k false || r.misaligned true || r.misaligned false
    || r.badNibbles true || r.badNibbles false

/-! ## Addresses of elements (R148, R151) -/

/-- The coordinates of an ordinal, dimension 0 fastest. -/
def coordsOf (t : Nat) : List Nat → List Nat
  | [] => []
  | e :: es => t % e :: coordsOf (t / e) es

def CopyRec.coords (r : CopyRec) (t : Nat) : List Int := (coordsOf t (r.ext.take r.ndim)).map Int.ofNat

/-- Offset of a logical element of a C32 side, in nibbles. DESIGN CHOICE: four-bit elements of a C32 side are packed in pairs along
c, an odd c in the high nibble: R148 packs along dimension 0, and R151 does not say which holds (log entry 29). -/
def CopyRec.c32At (r : CopyRec) (src : Bool) (w h c n : Nat) : Nat :=
  let u := typeBits (r.type src) / 4
  (((n * r.groups + c / 32) * r.e 1 + h) * r.e 0 + w) * 32 * u + c % 32 * u

/-- Offset from its base of an element on an ADDR or CMEM side: bytes, and a nibble. -/
def CopyRec.offAt (r : CopyRec) (src : Bool) (xs : List Int) : Int × Nat :=
  if r.lay src = 1 then
    let x (d : Nat) : Nat := (xs.getD d 0).toNat
    let nib := r.c32At src (x 0) (x 1) (x 2) (x 3)
    (((nib / 2 : Nat) : Int), nib % 2)
  else
    let sum := ((xs.zip (r.strides src)).foldl (fun a p => a + p.1 * p.2) (0 : Int))
    if typeBits (r.type src) = 4 then (sum + xs.getD 0 0 / 2, (xs.getD 0 0 % 2).toNat) else (sum, 0)

/-- Adds a signed offset to an address, modulo 2^64. -/
def addrPlus (b : Nat) (o : Int) : Nat := (((b : Int) + o) % 2 ^ 64).toNat

/-- Marks a failure with the side it concerns (Table 07-7). -/
def sideAt {α : Type} (n : Nat) (m : M α) : M α := onFail m fun c a => failAt c (a % 2 ^ 64 + n * 2 ^ 64)

/-! ## Owner tables (R155, R156) -/

/-- n bytes of an engine's read from an address on, not beyond 16 lines. -/
def Eng.readLong (e : Eng) (va n : Nat) : M (List Byte) := do
  let mut out : List Byte := []
  for j in List.range ((va + n - 1) / 64 + 1 - va / 64) do
    let a := Nat.max va ((va / 64 + j) * 64)
    let b := Nat.min (va + n) ((va / 64 + j + 1) * 64)
    out := out ++ (← e.read a (b - a))
  return out

/-- A header that agrees with the record. -/
def ownHeaderOk (h : List Byte) (ndim type : Nat) : Bool :=
  fieldAt h 0 1 == ndim && fieldAt h 1 1 == type && fieldAt h 2 6 == 0 && (h.drop 80).all (· == 0)
    && (List.range ndim).all fun d => fieldAt h (8 + 4 * d) 4 != 0 && fieldAt h (44 + 4 * d) 4 != 0

/-- The import slot of the field that maps a handle. -/
def State.slotOf (s : State) (f : Nat) (modu field handle : Nat) : Option Nat :=
  (List.range 1024).find? fun i =>
    let ctl := s.pimCtl f i
    let src := s.pimSrc f i
    let m := bits src 48 16
    let m := if m = s.modId then 0 else m
    ctl.getLsbD 63 && pimKind ctl != 2 && m == (if modu = s.modId then 0 else modu) && bits src 44 4 == field
      && bits src 0 32 == handle

/-- The address of an element on an OWNED side with its nibble, and the address of its table entry. -/
def ownedAt (e : Eng) (r : CopyRec) (src : Bool) (xs : List Int) : M (Nat × Nat × Nat) := do
  let tb := r.base src
  let h ← e.readLong tb 128
  if !ownHeaderOk h r.ndim (r.type src) then failAt codeOwntab tb
  let b (d : Nat) : Nat := fieldAt h (8 + 4 * d) 4
  let g (d : Nat) : Nat := fieldAt h (44 + 4 * d) 4
  let x := (xs.zip (r.strides src)).map fun p => p.1 + p.2
  let dims := List.range r.ndim
  if dims.any fun d => x.getD d 0 < 0 ∨ ((g d * b d : Nat) : Int) ≤ x.getD d 0 then failAt codeBounds tb
  let at_ (d : Nat) : Nat := (x.getD d 0).toNat
  let blk := (dims.foldl (fun (a : Nat × Nat) d => (a.1 + at_ d / b d * a.2, a.2 * g d)) (0, 1)).1
  let inb := dims.foldl (fun (a : Nat × Nat) d => (a.1 + at_ d % b d * a.2, a.2 * b d)) (0, 1)
  let nib := inb.1 * (typeBits (r.type src) / 4)
  let size := (inb.2 * typeBits (r.type src) + 7) / 8
  let at16 := tb + 128 + 16 * blk
  let ent ← e.readLong at16 16
  let fl := fieldAt ent 3 1
  let off := fieldAt ent 8 8
  if fl % 2 = 0 then failAt codeOwntab at16
  if fl / 2 % 2 = 1 then
    let va := (off + nib / 2) % 2 ^ 64
    if localBase < va + typeBytes (r.type src) then failAt codeBounds va
    return (va, nib % 2, at16)
  let s ← get
  match s.slotOf e.f (fieldAt ent 0 2) (fieldAt ent 2 1) (fieldAt ent 4 4) with
  | none => failAt codeOwntab at16
  | some i =>
    if pimSize (s.pimCtl e.f i) < off + size then failAt codeOwntab at16
    return (peerBase + i * 2 ^ 45 + off + nib / 2, nib % 2, at16)

/-- Where an element of a side lies, its nibble, and the addresses that this touches. -/
def elemAt (e : Eng) (r : CopyRec) (src : Bool) (xs : List Int) : M (ElemAt × Nat × List Nat) := do
  let n := if src then 0 else 1
  match r.side src with
  | 1 => do
    let (va, nib, ent) ← sideAt 3 (ownedAt e r src xs)
    return (.va va, nib, [r.base src, ent, va])
  | 2 => do
    let b := r.base src
    let (o, nib) := r.offAt src xs
    let off := ((b % 2 ^ 18 : Nat) : Int) + o
    match (← get).locCore (BitVec.ofNat 32 (b / 2 ^ 32)) with
    | some k =>
      if fieldOf k != e.f then sideAt n (failAt codeBadloc b)
      if off < 0 ∨ (cmemSize : Int) < off + typeBytes (r.type src) then sideAt n (failAt codeBounds (addrPlus b o))
      return (.cmem k off.toNat, nib, [])
    | none => sideAt n (failAt codeBadloc b)
  | _ => do
    let (o, nib) := r.offAt src xs
    let va := addrPlus (r.base src) o
    return (.va va, nib, [va])

/-- A CMEM side names a working core of the own field (R11, R148). -/
def locatorsOk (e : Eng) (r : CopyRec) : M Unit := do
  for src in [true, false] do
    if r.side src = 2 then
      match (← get).locCore (BitVec.ofNat 32 (r.base src / 2 ^ 32)) with
      | some k => if fieldOf k != e.f then sideAt (if src then 0 else 1) (failAt codeBadloc (r.base src))
      | none => sideAt (if src then 0 else 1) (failAt codeBadloc (r.base src))

/-! ## Reading and writing elements -/

/-- An address, or an offset in a core memory. -/
def ElemAt.addr : ElemAt → Nat
  | .va a => a
  | .cmem _ o => o

/-- The aligned 8-byte word that holds n bytes at a place. -/
def ElemAt.word (a : ElemAt) (n : Nat) : Option ElemAt :=
  if a.addr % 8 + n ≤ 8 then
    some (match a with
      | .va x => .va (x / 8 * 8)
      | .cmem k o => .cmem k (o / 8 * 8))
  else none

/-- Bytes at a place that may lie across words. -/
def readAcross (e : Eng) (a : ElemAt) (n : Nat) (raw : Bool) : M (List Byte) := do
  match a with
  | .va va => if raw || va % 64 + n ≤ 64 then e.read va n raw else e.readLong va n
  | .cmem k off => coreBytes k off n off

/-- An aligned word. -/
def readAligned (e : Eng) (a : ElemAt) (raw : Bool) : M (List Byte) := readAcross e a 8 raw

/-- The code at a place: elements of one aligned 8-byte word share the read of it (R254). A failure names the element's address.
DESIGN CHOICE: of a CMEM side UE and PERM name the offset in the core memory alone, BOUNDS and BADLOC the base with its locator:
R157 does not give the form (log entry 29). -/
def readElem (e : Eng) (a : ElemAt) (nib type : Nat) (raw : Bool) (w : Option (ElemAt × List Byte)) :
    M (Nat × Option (ElemAt × List Byte)) := do
  let n := typeBytes type
  let (bs, w) ← match a.word n with
    | some x => do
      let ws ← match w.filter fun y => y.1 == x with
        | some y => pure y.2
        | none => onFail (readAligned e x raw) fun c _ => failAt c a.addr
      pure ((ws.drop (a.addr % 8)).take n, some (x, ws))
    | none => do pure (← readAcross e a n raw, w)
  let v := bytesNat bs
  return (if typeBits type = 4 then v / 16 ^ nib % 16 else v, w)


/-- Writes bytes at an address, in as many lines as they touch; the flits sent to another module. -/
def writeLines (e : Eng) (va : Nat) (bs : List Byte) (vc : Nat) (raw : Bool) (edge : BitVec 2) : M Nat := do
  let k := 64 - va % 64
  if bs.length ≤ k then e.write va bs vc raw edge
  else do
    let m ← e.write va (bs.take k) vc raw (edge &&& 1)
    let n ← e.write (va + k) (bs.drop k) vc raw (edge &&& 2)
    return m + n

/-- Writes bytes at a place; the flits sent to another module. -/
def writePlace (e : Eng) (a : ElemAt) (bs : List Byte) (vc : Nat) (raw : Bool) (edge : BitVec 2) : M Nat := do
  match a with
  | .va va => writeLines e va bs vc raw edge
  | .cmem k off => do
    if schedBad e.lvl none off bs.length then failAt codePerm off
    let old := Mem.readBytes ((← get).core k).cmem off bs.length
    modify fun s => s.engineStore k off (keepEdges old bs edge)
    return 0

/-- The first nibble of an element that has been read. -/
def ElemAt.nibble (a : ElemAt) : Nat :=
  match a with
  | .va x => 2 * x
  | .cmem _ x => 2 * x

/-- Two places of one memory. -/
def ElemAt.along (a b : ElemAt) : Bool :=
  match a, b with
  | .va _, .va _ => true
  | .cmem k _, .cmem j _ => k == j
  | _, _ => false

def BufEnt.first (b : BufEnt) : Nat := b.place.nibble + b.nib
def BufEnt.past (b : BufEnt) : Nat := b.first + b.size

/-- Runs of elements that lie one after the other, as one element each. -/
def joinRuns : List BufEnt → List BufEnt
  | [] => []
  | b :: t =>
    match joinRuns t with
    | c :: u =>
      if b.place.along c.place && b.past == c.first then
        { b with size := b.size + c.size, val := b.val + c.val * 16 ^ b.size } :: u
      else b :: c :: u
    | [] => [b]

/-- Writes a run: the flits sent, with the address and the ordinal that each stands for. -/
def writeRun (e : Eng) (vc : Nat) (raw : Bool) (b : BufEnt) : M (List (Nat × Nat)) := do
  let lo := b.nib % 2
  let n := (lo + b.size + 1) / 2
  let edge : BitVec 2 := BitVec.ofNat 2 (lo + 2 * ((lo + b.size) % 2))
  let m ← writePlace e b.place (natBytes (b.val * 16 ^ lo) n) vc raw edge
  let va := match b.place with
    | .va x => x
    | .cmem .. => 0
  return (List.range m).map fun j => ((va / 64 + j) * 64 + (if j = 0 then va % 64 else 0), b.ordinal)

/-- The index of an element's slice, where the record has a table: none where the slice is not moved; and OOB (R153). -/
def sliceIndex (e : Eng) (r : CopyRec) (xs : List Int) : M (Option Int × Bool) := do
  let last := xs.getD (r.ndim - 1) 0
  if !r.indexed then return (some last, false)
  let va := addrPlus r.idx (4 * last)
  let i := signed 32 (bytesNat (← sideAt 2 (e.read va 4)))
  if 0 ≤ i ∧ i < (r.lim : Int) then return (some i, false)
  match r.bmode with
  | 0 => return (none, true)
  | 1 =>
    let top : Int := (r.lim : Int) - 1
    return (some (if i.natAbs ≤ (i - top).natAbs then 0 else top), true)
  | _ => sideAt 2 (failAt codeIdx va)

/-- Coordinates with the outermost one replaced. -/
def putLast (xs : List Int) (i : Int) : List Int := xs.dropLast ++ [i]

/-- Conversion of an element (R149). -/
def CopyRec.conv (r : CopyRec) (v : Nat) : Nat × BitVec 5 :=
  if r.st = r.dt ∨ typed r.st = false ∨ typed r.dt = false then (v, 0)
  else convElem (typeETy r.dt) (typeETy r.st) ((RMode.ofCode (BitVec.ofNat 3 r.rmode)).getD .rne) r.sat r.extn v

/-- The address of the index of an element's slice. -/
def CopyRec.indexAt (r : CopyRec) (xs : List Int) : List Nat :=
  if r.indexed then [addrPlus r.idx (4 * xs.getD (r.ndim - 1) 0)] else []

/-- The value that an element receives: its code, flags, OOB, and the addresses that this touches; none where nothing is
written. -/
def elemValue (e : Eng) (r : CopyRec) (t : Nat) (w : Option (ElemAt × List Byte)) :
    M (Option Nat × List Int × BitVec 5 × Bool × List Nat × Option (ElemAt × List Byte)) := do
  let xs := r.coords t
  let (i, oob) ← sliceIndex e r xs
  let gather := r.kind == kGather
  let ix := r.indexAt xs
  match i with
  | none =>
    if gather then let (v, fl) := r.conv 0; return (some v, xs, fl, true, ix, w)
    else return (none, xs, 0, true, ix, w)
  | some i =>
    let ys := putLast xs i
    let (a, nib, vs) ← elemAt e r true (if gather then ys else xs)
    let (v, w) ← sideAt 0 (readElem e a nib r.st (r.kind == kRaw) w)
    let (x, fl) := r.conv v
    return (some x, if gather then xs else ys, fl, oob, ix ++ vs, w)

/-- Key IDs of the frames that an address lies on, in the own field or in an exporter of this module (R160). -/
def State.keysAt (s : State) (e : Eng) (va : Nat) : List Nat :=
  let of (f : Nat) (asid : BitVec 16) (a : Nat) : List Nat := ((s.frameOf f (lineKey asid a)).map fun x => x.2.key.toNat).toList
  if va < localBase then of e.f e.asid va
  else if peerBase ≤ va then
    let (kind, f, handle) := s.pimAt e.f ((va - peerBase) / 2 ^ 45)
    if kind != 0 then []
    else match (s.field f).export? handle with
      | some (base, asid, _) => of f asid (base + (va - peerBase) % 2 ^ 45)
      | none => []
  else []

/-- A padding position of a C32 destination by its number: w, h, c, n (R152). -/
def CopyRec.padAt (r : CopyRec) (p : Nat) : Nat × Nat × Nat × Nat :=
  let free := 32 * r.groups - r.e 2
  (p % r.e 0, p / r.e 0 % r.e 1, r.e 2 + p / (r.e 0 * r.e 1) % free, p / (r.e 0 * r.e 1 * free))

def CopyRec.pads (r : CopyRec) : Nat :=
  if r.dlay = 1 && !r.padskip then (32 * r.groups - r.e 2) * r.e 0 * r.e 1 * r.e 3 else 0

end Sys2Proof.Machine
end

