-- ==== Sys2Proof/Machine/Transfer.lean ====
section
/-! DEFINITION. Meanings of the transfer forms, OPC 0x30, at issue (R291 to R299, R302). -/

namespace Sys2Proof.Machine

def trapAt {α : Type} (c : Cause) (va : Nat) : M α := throw (.trap { cause := c, tval := BitVec.ofNat 64 va })

/-! ## Records and chains (R294, R296) -/

/-- The checks of a record or chain head at issue. DEDUCED: log entries 29, 64. -/
def recordCheck (va : Nat) : M Unit := do
  rimCheck va
  if 2 ^ 57 ≤ va then trapAt .bounds va
  if va % 256 ≠ 0 then trapAt .align va
  let s ← get
  match s.space s.myCore va with
  | .paged =>
    match s.plbFind s.acc va with
    | none => do
      set (s.postPlb s.acc va (.plb false))
      throw (.wait .memory)
    | some e => if !e.permits .atomic s.me.lvl then trapAt .perm va
  | .core .. | .shared _ => if !s.contained s.myCore va 256 then trapAt .bounds va
  | _ => trapAt .bounds va

def Cluster.chan (c : Cluster) (n : BitVec 2) : Channel := c.chans[n.toNat]
def Cluster.setChan (c : Cluster) (n : BitVec 2) (x : Channel) : Cluster := { c with chans := c.chans.set n.toNat x }

/-- Queues a record or a chain head on a channel (R143). -/
def chanPush (ch : BitVec 2) (addr : Nat) (chain : Bool) (item : Nat) : M Unit := do
  let s ← get
  let c := s.me
  let e : ChanEnt :=
    { addr := addr, chain := chain, core := s.myCore, cx := s.cur, tid := c.task.tid, item := item, asid := c.asid
      lvl := c.lvl, extn := c.extn }
  modify fun s => s.modCluster s.myCl fun x => x.setChan ch { x.chan ch with queue := (x.chan ch).queue ++ [e] }

/-- Issue waits while the channel's queue is full. -/
def chanWait (ch : BitVec 2) : M Unit := do
  let s ← get
  waitIf (decide (16 ≤ ((s.cluster s.myCl).chan ch).queue.length)) .queue

def execCpy (h : Hdr) (d a : GReg) (ch : BitVec 2) (s : State) : Out :=
  runIsa h (do
    let va := ((← me).rg a).toNat
    recordCheck va
    entryWait
    chanWait ch
    storesDone
    let id ← newItem d .fld (.cpy ch.toNat) none
    chanPush ch va false id
    return .next) s

/-- A head of 0 makes the channel read its held record again, when this context issued the chain. -/
def Channel.reread (c : Channel) (tid : Nat) : Channel :=
  match c.cur with
  | some r => if r.st == .holding && r.ent.tid == tid then { c with cur := some { r with st := .next } } else c
  | none => c

def execCchain (h : Hdr) (a : GReg) (ch : BitVec 2) (s : State) : Out :=
  runIsa h (do
    let va := ((← me).rg a).toNat
    if va = 0 then
      storesDone
      modify fun s => s.modCluster s.myCl fun x => x.setChan ch ((x.chan ch).reread s.me.task.tid)
    else
      recordCheck va
      chanWait ch
      storesDone
      chanPush ch va true (← freshId)
    return .next) s

/-! ## CCANCEL and CQRY (R297, R298) -/

/-- A record of a task still to be ended CANCELLED. DEDUCED: log entry 34. -/
def Channel.cancelling (c : Channel) (tid : Nat) : Bool :=
  (c.queue.any fun e => e.tid == tid && e.dead == some codeCancelled) ||
  match c.cur with
  | some r => r.ent.tid == tid && r.ent.dead == some codeCancelled
  | none => false

def execCcancel (h : Hdr) (d : GReg) (ch : BitVec 2) (all : Bool) (s : State) : Out :=
  runIsa h (do
    let s ← get
    let t := s.me.task.tid
    let on (n : Nat) : Bool := all || n == ch.toNat
    if s.me.cancelled.isNone then
      modMe fun c => { c with cancelled := some 0 }
      modify fun s => s.modCluster s.myCl fun x =>
        { x with chans := (Vector.range 4).map fun n =>
            let c := x.chan (BitVec.ofNat 2 n)
            if on n then (c.endTask t codeCancelled).1 else c }
      modify fun s => (List.range 4).foldl (fun s n => s.cutRec s.myCl n) s
    let s ← get
    waitIf ((List.range 4).any fun n => on n && ((s.cluster s.myCl).chan (BitVec.ofNat 2 n)).cancelling t) .items
    let n := (← me).cancelled.getD 0
    modMe fun c => { c with cancelled := none }.wg d (BitVec.ofNat 64 (n % 65536))
    return .next) s

/-- Table 14-3. -/
def cqryWord (c : Channel) (tid : Nat) : Word :=
  let (st, cur) := match c.cur with
    | none => (0, 0)
    | some r =>
      (match r.st with
       | .halted .. => 2
       | .holding => 3
       | _ => 1, if r.ent.tid = tid then r.addr % 2 ^ 57 / 256 * 256 else 0)
  BitVec.ofNat 64 (st * 2 ^ 62 + c.queue.length % 32 * 2 ^ 57 + cur)

def execCqry (h : Hdr) (d : GReg) (ch : BitVec 2) (s : State) : Out :=
  runReg h (fun c => c.wg d (cqryWord ((s.cluster s.myCl).chan ch) c.task.tid)) s

/-! ## PUT and PUTV (R299, R300) -/

/-- Permission on the pages with these numbers, for a range that begins at va (R84); fmt: then the frames of the pages
(R40). DEDUCED: log entry 64. -/
def pagesCheck (va : Nat) (k : AccKind) (fmt : Bool) : List Nat → M Unit
  | [] => return ()
  | p :: t => do
    let a := Nat.max va (p * 65536)
    rimCheck a
    match (← get).checkPaged (← get).acc a k with
    | .bad c => do
      if fmt || c != .fmtwr then trapAt c va
      pagesCheck va k fmt t
    | .miss st => do
      modify fun s => s.postPlb s.acc a (.plb st)
      throw (.wait .memory)
    | .ok .. => pagesCheck va k fmt t

/-- Permission on every page of a paged range: a load or a store of each (R84). DEDUCED: log entry 64. -/
def rangeCheck (va len : Nat) (k : AccKind) : M Unit := do
  let ps := (List.range ((va + len - 1) / 65536 + 1 - va / 65536)).map (va / 65536 + ·)
  pagesCheck va k false ps
  pagesCheck va k true ps

/-- Canonical form and 8-byte alignment. -/
def putForm (va : Nat) : M Unit := do
  if 2 ^ 57 ≤ va then trapAt .bounds va
  if va % 8 ≠ 0 then trapAt .align va

/-- The checks of a range in this field: one extent, and the permission. -/
def putRange (va len : Nat) (k : AccKind) : M Unit := do
  let s ← get
  match s.space s.myCore va with
  | .paged => do
    if !s.contained s.myCore va len then trapAt .bounds va
    rangeCheck va len k
  | .core _ o => do
    if !s.contained s.myCore va len then trapAt .bounds va
    if k.writes && schedBad s.me.lvl none o len then trapAt .perm va
  | .shared _ => if !s.contained s.myCore va len then trapAt .bounds va
  | _ => trapAt .bounds va

/-- The field rule of DK = 1 for a word with its offset in bits [17:0] and, for D, a locator above. -/
def cmemForm (w : Word) (loc : Bool) : M Unit := do
  if bits w 18 14 != 0 || (!loc && bits w 32 32 != 0) then trapAt .bounds w.toNat
  if bits w 0 3 != 0 then trapAt .align w.toNat

def isPeer (va : Nat) : Bool := decide (peerBase ≤ va)

/-- The checks of D and K (R299). -/
def putDest (dw kw : Word) (len : Nat) (dk cen : Bool) : M Unit := do
  let d := dw.toNat
  let k := kw.toNat
  if dk then
    cmemForm dw true
    if cen then cmemForm kw false
  else
    putForm d
    if !isPeer d then putRange d len .store
    if cen then
      putForm k
      if !isPeer k then putRange k 8 .store
      let s ← get
      if isPeer d != isPeer k || (isPeer d && s.vaDest s.myField d != s.vaDest s.myField k) then trapAt .bounds k

/-- PUT: source, then D, then K; earlier writes at FLD, and the put is handed to the put path. -/
def execPut (h : Hdr) (sc : Scope) (dk : Bool) (d a b : GReg) (len : BitVec 16) (vc : BitVec 2) (cen : Bool)
    (s : State) : Out :=
  runIsa h (do
    let c ← me
    let n := (len.toNat + 1) * 8
    let src := (c.rg b).toNat
    putForm src
    if isPeer src then trapAt .bounds src
    putRange src n .load
    putDest (c.rg a) (c.rg (a + 1)) n dk cen
    entryWait
    drainStores .fld
    let _ ← newItem d sc (.put (c.rg a).toNat (c.rg (a + 1)).toNat dk cen vc.toNat (some src) n []) none
    return .next) s

/-- Words of 8 bytes of a vector register. -/
def vecWords (v : VWord) (n : Nat) : List Word := (List.range n).map fun i => v.extractLsb' (64 * i) 64

def execPutv (h : Hdr) (sc : Scope) (dk : Bool) (d a : GReg) (b : VReg) (len : BitVec 4) (vc : BitVec 2) (cen : Bool)
    (s : State) : Out :=
  runIsa h (do
    let c ← me
    let n := (len.toNat + 1) * 8
    putDest (c.rg a) (c.rg (a + 1)) n dk cen
    entryWait
    drainStores .fld
    let _ ← newItem d sc (.put (c.rg a).toNat (c.rg (a + 1)).toNat dk cen vc.toNat none n
      (vecWords (c.rv b) (len.toNat + 1))) none
    return .next) s

/-! ## RAMO (R302) -/

/-- The checks of RAMO at issue. -/
def ramoCheck (va n : Nat) : M Unit := do
  rimCheck va
  if 2 ^ 57 ≤ va then trapAt .bounds va
  if va % n ≠ 0 then trapAt .align va
  let s ← get
  match s.space s.myCore va with
  | .paged => rangeCheck va n .atomic
  | .shared _ => if !s.contained s.myCore va n then trapAt .bounds va
  | .peer i _ => do
    if !s.contained s.myCore va n then trapAt .bounds va
    let ctl := s.pimCtl s.myField i
    if !ctl.getLsbD 54 || pimKind ctl = 2 then trapAt .perm va
  | _ => trapAt .bounds va

def execRamo (h : Hdr) (op : AtOp) (dw : Bool) (ord : Order) (sc : Scope) (d a b : GReg) (vc : BitVec 2) (s : State) :
    Out :=
  runIsa h (do
    let c ← me
    let va := (c.rg a).toNat
    let n := AtOp.bytes op dw
    ramoCheck va n
    waitIf c.ringFull .items
    entryWait
    let (x, y) := atomicArgs op n c d b
    let s ← get
    let o ← match s.space s.myCore va with
      | .peer i _ => orderBeyond i (if ord = .rlx then none else some sc)
      | _ => pure (if ord = .rlx then none else some sc)
    match o with
    | some sc => if Order.releases ord then drainStores sc
    | none => pure ()
    let seq := c.nextSeq
    let id ← newItem d sc (.ramo va op dw (BitVec.ofNat 128 x) (BitVec.ofNat 128 y) seq vc.toNat
      (o.isSome && Order.acquires ord) (o.isSome && Order.releases ord)) none
    modMe fun c => if op = .cas2 then { c with pend := c.pend ++ [((d + 1).toNat, id)] } else c
    modMe fun c => c.pushEntry { seq := 0, st := .pending, dst := some (.g d.toNat)
                                 dst2 := if op = .cas2 then some (.g (d + 1).toNat) else none }
    return .next) s

end Sys2Proof.Machine
end

