-- ==== Sys2Proof/Machine/CopyEvents.lean ====
section
/-! DEFINITION. Steps of the copy engines (R143 to R160): a channel takes, moves and ends its records. -/

namespace Sys2Proof.Machine

/-! ## Channels -/

/-- The item of a number on the cores of a cluster, with its core. -/
def State.itemIn (s : State) (cl id : Nat) : Option (Nat × Item) :=
  (coresOf cl).findSome? fun k => (s.item? k id).map fun i => (k, i)

def State.chanOf (s : State) (cl ch : Nat) : Channel := (s.cluster cl).chan (BitVec.ofNat 2 ch)
def State.setCur (s : State) (cl ch : Nat) (r : Option RunRec) : State :=
  s.modCluster cl fun c =>
    let x := c.chan (BitVec.ofNat 2 ch)
    c.setChan (BitVec.ofNat 2 ch) { x with cur := r }

/-- The engine at work on a record. -/
def RunRec.eng (r : RunRec) : Eng :=
  { k := r.ent.core, asid := r.ent.asid, lvl := r.ent.lvl, id := r.id, svc := r.ent.cx == serviceCx (fieldOf r.ent.core), stale := r.ent.stale }

/-- What is known of a record: all of it, or its first line. -/
def RunRec.known (r : RunRec) : List Byte := if r.bytes.isEmpty then r.head else r.bytes

def RunRec.fields (r : RunRec) : CopyRec := CopyRec.of r.known

/-- The payload of Table 07-7. -/
def copyPayload (cl ch : Nat) (r : RunRec) (code : BitVec 8) (addr side ord : Nat) : List Byte :=
  natBytes r.addr 8 ++ natBytes addr 8 ++ natBytes r.ent.asid.toNat 2 ++ [code] ++ natBytes side 1 ++ natBytes (cl % 40) 1
    ++ natBytes ch 1 ++ [0, 0] ++ natBytes ord 8

/-- Elements read and not yet written are forgotten. -/
def RunRec.dropBuf (r : RunRec) : RunRec := { r with buf := [], ahead := 0, bufFlags := 0, bufOob := false }

/-- The position of a record: elements, then padding positions. -/
def RunRec.pos (r : RunRec) : Nat := r.ordinal + r.pad

/-- The record stands at a position. -/
def RunRec.goto (r : RunRec) (q : Nat) : RunRec :=
  { r.dropBuf with ordinal := Nat.min q r.fields.total, pad := q - r.fields.total }

/-- A record's work has failed: KEYREV and BADREC end it at once; anything else halts the channel, with a message
(R157). A terminal code already fixed stays; elements read and not yet written are read again. ord: the failing element. -/
def State.recFail (s : State) (cl ch : Nat) (r : RunRec) (code : BitVec 8) (x ord : Nat) : State :=
  let r := { r.dropBuf with word := none }
  if r.code = 0 ∧ (code = codeKeyrev ∨ code = codeBadRec) then s.setCur cl ch (some { r with st := .finish, code := code })
  else
    let addr := x % 2 ^ 64
    let side := x / 2 ^ 64
    (s.setCur cl ch (some { r with st := .halted code addr side })).modField (fieldOfCl cl) fun f =>
      { f with copyMsgs := f.copyMsgs ++ [(cl, ch, copyPayload cl ch r code addr side ord)] }

/-- Runs a piece of a record's work. -/
def State.recWork (s : State) (cl ch : Nat) (r : RunRec) (m : M (Option RunRec)) : Out :=
  match m s with
  | .ok r' s => .next (s.setCur cl ch r')
  | .error (.fail c x) s =>
    let now := (s.chanOf cl ch).cur.getD r
    .next (s.recFail cl ch now c x now.pos)
  | .error _ s => .next s

/-! ## RECORD_START and CHAIN_NEXT_RECORD (R146, R147, R158, R160) -/

/-- A new record of a queue entry or of a chain. -/
def newRec (id : Nat) (e : ChanEnt) (addr : Nat) (st : RecSt) : RunRec :=
  { id := id, ent := e, addr := addr, bytes := [], st := st }

/-- A record lies where R146 allows. DESIGN CHOICE: an address of a chain that is misaligned, or lies elsewhere, halts with BOUNDS:
Table 07-5 has no code for it (log entry 33). -/
def recPlace (e : Eng) (addr : Nat) : M Unit := do
  let s ← get
  if addr % 256 ≠ 0 ∨ 2 ^ 57 ≤ addr ∨ s.contained e.k addr 256 = false then failAt codeBounds addr
  match s.space e.k addr with
  | .paged | .core .. => pure ()
  | .shared _ => if e.stale then failAt codeBounds addr
  | _ => failAt codeBounds addr

/-- A record touches frames (R160). -/
def RunRec.touch (r : RunRec) (s : State) (vas : List Nat) : RunRec :=
  { r with keys := (vas.flatMap fun va => s.keysAt r.eng va).foldl (fun a k => addShare a k) r.keys }

/-- Reads a record: where only its first line can be read, that is kept (R158). -/
def readRec (cl ch : Nat) (r : RunRec) : M (List Byte) := do
  recPlace r.eng r.addr
  let h ← r.eng.read r.addr 64
  onFail (return h ++ (← r.eng.readLong (r.addr + 64) 192)) fun c a => do
    modify fun s => s.setCur cl ch (some ({ r with head := h }.touch s [r.addr]))
    failAt c a

/-- The channel holds the address of a record with OWN = 0: what is appended there comes after any change of SHMCF. -/
def RunRec.hold1 (r : RunRec) : RunRec := { newRec r.id { r.ent with stale := false } r.addr .holding with bytes := [] }

/-- What a channel does with a record it has read. -/
def startRecord (cl ch : Nat) (r : RunRec) : M (Option RunRec) := do
  let bs ← sideAt 4 (readRec cl ch r)
  let c := CopyRec.of bs
  let r := { r with bytes := bs }.touch (← get) [r.addr]
  if r.ent.chain && !c.own then
    return if r.ent.dead.isSome then none else some (r.hold1)
  match r.ent.dead with
  | some code => return some { r with st := .finish, code := code }
  | none =>
    if c.bad (← get) r.eng.k then return some { r with st := .finish, code := codeBadRec }
    if c.total = 0 then return some { r with st := .finish, code := codeDone }
    return some { r with st := .move }

/-- The channel takes its next queue entry. -/
def State.takeEntry (s : State) (cl ch : Nat) : State :=
  let c := s.chanOf cl ch
  match c.cur, c.queue with
  | none, e :: q =>
    let c := { c with queue := q, cur := some (newRec s.fresh e e.addr (if e.chain then .next else .start)) }
    (s.modCluster cl fun x => x.setChan (BitVec.ofNat 2 ch) c).bump
  | _, _ => s

def execRecordStart (cl ch : Nat) (s : State) : Out :=
  if 4 ≤ ch then .next s
  else
    let s := s.takeEntry cl ch
    match (s.chanOf cl ch).cur with
    | none => .next s
    | some r => if r.st = .start then s.recWork cl ch r (startRecord cl ch r) else .next s

/-- The control word at a chain's next address is read for its OWN bit. -/
def nextRecord (r : RunRec) : M (Option RunRec) := do
  let bs ← sideAt 4 (do recPlace r.eng r.addr; r.eng.read r.addr 4)
  if (CopyRec.of bs).own then return some ((newRec r.id r.ent r.addr .start).touch (← get) [r.addr])
  return if r.ent.dead.isSome then none else some r.hold1

def execChainNextRecord (cl ch : Nat) (s : State) : Out :=
  match (s.chanOf cl ch).cur with
  | none => .next s
  | some r => if r.st = .next ∧ ch < 4 then s.recWork cl ch r (nextRecord r) else .next s

/-! ## RECORD_ELEMENT (R148 to R156) -/

/-- Sends a contribution of a REDUCE record to the bank of its destination (R153). DEDUCED: log entry 31. -/
def sendContrib (cl ch : Nat) (r : RunRec) (c : CopyRec) (a : ElemAt) (v : Nat) : M Unit := do
  let e := r.eng
  let put (va : Nat) (asid : Option (BitVec 16)) : M Unit := do
    let id ← freshId
    let x : Contrib :=
      { id := id, cl := cl, ch := ch, rid := r.id, ordinal := r.ordinal, va := va, asid := asid, rop := c.rop
        n := typeBytes c.dt, val := v }
    modify fun s => s.modField e.f fun f => { f with contribs := f.contribs ++ [x] }
  match a with
  | .cmem _ off => failAt codeBounds off
  | .va va => do
    if !(decide (va < localBase) || (decide (sharedBase ≤ va) && decide (va < peerBase))) then failAt codeBounds va
    match ← e.place va (typeBytes c.dt) .atomic with
    | .paged asid => put va (some asid)
    | .shared off => put off none
    | _ => failAt codeBounds va

/-- A contribution of a REDUCE record leaves. -/
def reduceStep (cl ch : Nat) (r : RunRec) : M RunRec := do
  let c := r.fields
  let (v, ys, fl, oob, vs, w) ← elemValue r.eng c r.ordinal r.word
  let r := { r with word := w, ordinal := r.ordinal + 1, flags := r.flags ||| fl, oob := r.oob || oob }
  match v with
  | none => return r.touch (← get) vs
  | some v => do
    let (a, _, ws) ← elemAt r.eng c false ys
    sideAt 1 (sendContrib cl ch { r with ordinal := r.ordinal - 1 } c a v)
    return r.touch (← get) (vs ++ ws)

/-- What the next position of a record writes, if anything, with flags, OOB, the addresses touched and the word of the source read
last: an element, or a padding position of a C32 destination (R152). -/
def nextEnt (r : RunRec) : M (Option BufEnt × BitVec 5 × Bool × List Nat × Option (ElemAt × List Byte)) := do
  let c := r.fields
  let e := r.eng
  let q := r.pos + r.ahead
  let size := typeBits c.dt / 4
  if q < c.total then
    let (v, ys, fl, oob, vs, w) ← elemValue e c q r.word
    match v with
    | none => return (none, fl, oob, vs, w)
    | some v => do
      let (a, nib, ws) ← elemAt e c false ys
      return (some { ordinal := q, place := a, nib := nib, size := size, val := v }, fl, oob, vs ++ ws.dropLast, w)
  else
    let (w, h, k, n) := c.padAt (q - c.total)
    let (a, nib, _) ← elemAt e c false [(w : Int), (h : Int), (k : Int), (n : Int)]
    return (some { ordinal := q, place := a, nib := nib, size := size, val := 0 }, 0, false, [], r.word)

/-- A line of paged memory is whole in the cluster's L2. -/
def State.wholeAt (s : State) (e : Eng) (va : Nat) : Bool :=
  [e.asid, 0xFFFF].any fun a => match s.l2 e.cl (lineKey a va) with
    | some x => x.valid == BitVec.allOnes 16
    | none => false

/-- An element is written together with those before it: always within one 8-byte word (R254); within one line, unless the
engine writes a line that is no whole line yet (R34). DEDUCED: log entry 30. -/
def State.together (s : State) (r : RunRec) (b : BufEnt) : Bool :=
  match r.buf with
  | [] => true
  | x :: _ =>
    x.place.along b.place && (x.first / 16 == b.first / 16 || (x.first / 128 == b.first / 128 &&
      !((match x.place with
          | .va a => decide (localBase ≤ a) || (r.fields.kind != kRaw && s.wholeAt r.eng a)
          | .cmem .. => true) && Config.choice (r.id + r.pos))))

/-- Writes what has been read: the record after it. -/
def flushBuf (cl ch : Nat) (r : RunRec) : M RunRec := do
  let mut out : List (Nat × Nat) := []
  for b in joinRuns r.buf do
    let k ← onFail (sideAt 1 (writeRun r.eng ch (r.fields.kind == kRaw) b)) fun code a => do
      modify fun s => s.setCur cl ch (some { r.goto b.ordinal with unacked := r.unacked ++ out })
      failAt code a
    out := out ++ k
  let s ← get
  let r := r.touch s (r.buf.filterMap fun b => match b.place with
    | .va x => some x
    | .cmem .. => none)
  modify fun s => s.modField (fieldOfCl cl) fun f => f.dropTags r.id
  return { r.goto (r.pos + r.ahead) with flags := r.flags ||| r.bufFlags, oob := r.oob || r.bufOob
                                         unacked := r.unacked ++ out }

/-- Reads the next element of a record, or writes those read when it does not go with them. -/
def moveStep (cl ch : Nat) (r : RunRec) : M RunRec := do
  let s ← get
  if 128 ≤ r.ahead then flushBuf cl ch r
  else do
    let x ← onFail (do return some (← nextEnt r)) fun code a =>
      if r.ahead = 0 then failAt code a else do set s; return none
    match x with
    | none => flushBuf cl ch r
    | some (b, fl, oob, vs, w) =>
      let r := { r with word := w }
      if (b.map fun b => s.together r b).getD true then
        let r := r.touch (← get) vs
        return { r with buf := r.buf ++ b.toList, ahead := r.ahead + 1, bufFlags := r.bufFlags ||| fl, bufOob := r.bufOob || oob }
      else flushBuf cl ch r

/-- An earlier transfer of the record's context on its virtual channel, to a destination of the record, has still to
become visible (R265). DEDUCED: log entry 66. -/
def State.recMayWrite (s : State) (ch : Nat) (r : RunRec) : Bool :=
  let k := r.ent.core
  (coresOf (clusterOf k)).all fun k => ((s.core k).before r.ent.tid r.ent.item).all fun j =>
    j.gone || j.vc != ch || j.isCpy ||
      match r.fields.goesTo s (fieldOf k) with
      | some d => s.itemDest k j != d
      | none => false

/-- One step of a record that moves. DEDUCED: log entry 30. -/
def elemStep (cl ch : Nat) (r : RunRec) : M (Option RunRec) := do
  waitIf (r.hold && !r.unacked.isEmpty) .memory
  waitIf (!(← get).recMayWrite ch r) .memory
  let c := r.fields
  let r := { r with hold := false }
  locatorsOk r.eng c
  if r.pos + r.ahead < c.total + c.pads then
    if c.kind = kReduce then return some (← reduceStep cl ch r)
    return some (← moveStep cl ch r)
  else if r.ahead != 0 then return some (← flushBuf cl ch r)
  else return some { r with st := .finish, code := codeDone }

/-- DEDUCED: log entry 30. -/
def execRecordElement (cl ch : Nat) (s : State) : Out :=
  match (s.chanOf cl ch).cur with
  | none => .next s
  | some r => if r.st = .move ∧ ch < 4 then s.recWork cl ch r (elemStep cl ch r) else .next s

/-! ## BANK_REDUCE (R115, R153) -/

/-- A reduction of Table 07-4 on n bytes: new value and flags. -/
def ropApply (rop n old v : Nat) : Nat × BitVec 5 :=
  let f : Fmt := if n = 4 then .f32 else .f64
  match rop with
  | 0 => ((AtOp.apply .add n old v 0).1, 0)
  | 1 => ((AtOp.apply .min n old v 0).1, 0)
  | 2 => ((AtOp.apply .max n old v 0).1, 0)
  | 3 => ((AtOp.apply .minu n old v 0).1, 0)
  | 4 => ((AtOp.apply .maxu n old v 0).1, 0)
  | 5 => faddBits f old v
  | 6 => f.minmax false old v
  | _ => f.minmax true old v

/-- The parts of a range of bytes that lie in one line each. -/
def lineParts (va n : Nat) : List (Nat × Nat) :=
  let k := 64 - va % 64
  if n ≤ k then [(va, n)] else [(va, k), (va + k, n - k)]

/-- The home's bytes of those parts, gathered for a bank operation of cluster cl. -/
def gatherParts (f cl : Nat) (asid : BitVec 16) : List (Nat × Nat) → M (List Byte)
  | [] => return []
  | (va, n) :: t => do
    let l := lineKey asid va
    afterHome f l
    homeCollect f l (some cl)
    let h ← homeLine f l va
    if h.poison then failAt codeUe va
    return lineBytes h.data (va % 64) n ++ (← gatherParts f cl asid t)

/-- Puts bytes over the home's copies of those parts. -/
def State.putParts (s : State) (f : Nat) (asid : BitVec 16) (bs : List Byte) : List (Nat × Nat) → State
  | [] => s
  | (va, n) :: t =>
    let l := lineKey asid va
    (s.setHline f l ((s.hline f l).absorb (placeBytes (bs.take n) (va % 64)) (beOf (va % 64) n) false)).putParts f asid (bs.drop n) t

/-- A contribution at its bank: the flags it raises. Its element may lie across two lines (R155). DEDUCED: log entry 31. -/
def reduceAt (f : Nat) (x : Contrib) : M (BitVec 5) := do
  match x.asid with
  | none => do
    let m := ((← get).field f).shm
    let (v, fl) := ropApply x.rop x.n (bytesNat (Mem.readBytes m x.va x.n)) x.val
    modify fun s => s.modField f fun fd => { fd with shm := Mem.writeBytes fd.shm x.va (natBytes v x.n) }
    return fl
  | some asid => do
    asAgent (.work x.id (((← get).chanOf x.cl x.ch).cur.any fun r => r.id == x.rid && r.eng.svc))
    let ps := lineParts x.va x.n
    let old ← gatherParts f x.cl asid ps
    let (v, fl) := ropApply x.rop x.n (bytesNat old) x.val
    modify fun s => s.putParts f asid (natBytes v x.n) ps
    return fl

def State.dropContrib (s : State) (f id : Nat) : State :=
  s.modField f fun fd => { fd with contribs := fd.contribs.filter fun x => x.id != id }

/-- The record that a contribution belongs to, while its channel runs it. -/
def State.recOf (s : State) (cl ch rid : Nat) : Option RunRec := (s.chanOf cl ch).cur.filter fun r => r.id == rid

/-- A record that has not come to a terminal state: its code is open, or is DONE while contributions are out. -/
def RunRec.open_ (r : RunRec) : Bool := r.code == 0 || (r.code == codeDone && !r.wroteSt)

/-- A contribution has failed: it stays for a retry and its record halts, unless the record is over or halted. -/
def State.reduceFail (s : State) (f : Nat) (x : Contrib) (code : BitVec 8) (addr : Nat) : State :=
  match s.recOf x.cl x.ch x.rid with
  | none => s.dropContrib f x.id
  | some r =>
    match r.st with
    | .halted .. => s
    | _ =>
      if r.open_ then
        let s := if code = codeKeyrev then s.dropContrib f x.id else s
        s.recFail x.cl x.ch { r with code := 0 } code (addr + 2 ^ 64) x.ordinal
      else s.dropContrib f x.id

/-- DEDUCED: log entry 31. -/
def execBankReduce (f id : Nat) (s : State) : Out :=
  match (s.field f).contribs.find? fun x => x.id == id with
  | none => .next s
  | some x =>
    match reduceAt f x s with
    | .ok fl s =>
      let s := s.dropContrib f id
      match s.recOf x.cl x.ch x.rid with
      | none => .next s
      | some r => .next (s.setCur x.cl x.ch (some { r with flags := r.flags ||| fl }))
    | .error (.fail c a) s => .next (s.reduceFail f x c a)
    | .error _ s => .next s

/-! ## RECORD_COMPLETE (R154, R157, R158) -/

/-- The status word (Table 07-3). -/
def RunRec.statusWord (r : RunRec) : Nat :=
  r.code.toNat * 2 ^ 24 + (if r.oob then 2 ^ 23 else 0) + r.flags.toNat * 2 ^ 18

/-- What the completion word receives. -/
def RunRec.complWord (r : RunRec) : Nat := if r.code = codeDone then r.fields.cval else 2 ^ 63 + r.code.toNat

/-- Keeps the progress of the terminal writes. -/
def keepRec (cl ch : Nat) (r : RunRec) : M Unit := modify fun s => s.setCur cl ch (some r)

/-- Step 2: bytes 0 to 7, with OWN = 0 and the status; the other bits of a control word that could not be read are free.
DESIGN CHOICE: log entry 33. -/
def writeStatus (cl ch : Nat) (r : RunRec) : M RunRec := do
  if r.wroteSt then return r
  sideAt 4 (recPlace r.eng r.addr)
  sideAt 4 (r.eng.release r.addr 8)
  let ctl := if r.known.isEmpty then (Config.freeWord r.id).toNat else r.fields.ctl
  let _ ← sideAt 4 (r.eng.write r.addr (natBytes (ctl % 2 ^ 31) 4 ++ natBytes r.statusWord 4) ch)
  let r := { r with wroteSt := true }.touch (← get) [r.addr]
  keepRec cl ch r
  return r

/-- Step 3: the completion word, or the increment of a PUTX that ended DONE; a record whose first line could not be read names
none. DESIGN CHOICE: a completion word of a BADREC record that is not 8-byte aligned halts with BOUNDS: R157 does not say what step
3 does with it (log entry 33). -/
def writeCompletion (cl ch : Nat) (r : RunRec) : M RunRec := do
  let c := r.fields
  if r.wroteCw || r.known.isEmpty || !(c.cwen || r.ent.chain) then return r
  let n ← (if c.kind = kPutx then
      if r.code = codeDone then sideAt 4 (r.eng.increment c.cword ch) else pure 0
    else do
      if c.cword % 8 ≠ 0 then sideAt 4 (failAt codeBounds c.cword)
      sideAt 4 (r.eng.release c.cword 8)
      sideAt 4 (r.eng.write c.cword (natBytes r.complWord 8) ch))
  let r := { r with wroteCw := true, cwFlits := r.cwFlits + n }.touch (← get) [c.cword]
  keepRec cl ch r
  return r

/-- Counts a record ended CANCELLED or KILLED for the context or the KILL that ended it (R297, R392). -/
def State.countRec (s : State) (r : RunRec) : State :=
  if r.code = codeCancelled then
    match s.taskAt (fieldOf r.ent.core) r.ent.tid with
    | some c => s.modCtx c fun x => { x with cancelled := x.cancelled.map (· + 1) }
    | none => s
  else if r.code = codeKilled then
    s.modField (fieldOf r.ent.core) fun f =>
      { f with kills := f.kills.map fun k => if k.tid = r.ent.tid then { k with recs := k.recs + 1 } else k }
  else s

/-- The record is over: its item ends, and the channel goes on. DESIGN CHOICE: a chain ends at a record whose first line could not be
read: R158 does not say where it goes on when the next address is unknown (log entry 33). -/
def State.recordOver (s : State) (cl ch : Nat) (r : RunRec) : State :=
  let s := (s.countRec r).modField (fieldOfCl cl) fun f => f.dropTags r.id
  let s := if r.ent.chain then s
    else match s.itemIn cl r.ent.item with
      | some (k, i) => s.endItem k i (itemWord ch r.code r.oob r.flags)
      | none => s
  let s := match s.taskAt (fieldOf r.ent.core) r.ent.tid with
    | some c => s.wake c
    | none => s
  let next := r.fields.next
  if r.ent.chain && !r.known.isEmpty && next != 0 then
    (s.setCur cl ch (some (newRec s.fresh r.ent next .next))).bump
  else s.setCur cl ch none

/-- The terminal writes of a record, after all its payload has landed, and the acknowledgement of those that leave the
module. -/
def finishRecord (cl ch : Nat) (r : RunRec) : M Unit := do
  let s ← get
  waitIf (!r.unacked.isEmpty) .memory
  let away (s : State) : Bool := (s.field (fieldOfCl cl)).hostAwaits r.id
  waitIf ((s.field (fieldOfCl cl)).contribs.any (fun x => x.rid == r.id) || away s) .memory
  let r ← writeStatus cl ch r
  let r ← writeCompletion cl ch r
  waitIf (r.cwFlits != 0 || away (← get)) .memory

def execRecordComplete (cl ch : Nat) (s : State) : Out :=
  match (s.chanOf cl ch).cur with
  | none => .next s
  | some r =>
    if r.st = .finish ∧ ch < 4 then
      match finishRecord cl ch r s with
      | .ok _ s => .next (s.recordOver cl ch r)
      | .error (.fail c x) s =>
        let now := (s.chanOf cl ch).cur.getD r
        .next (s.recFail cl ch now c x now.pos)
      | .error _ s => .next s
    else .next s

/-! ## COPY_ERROR_MESSAGE and CERES (R157, R451) -/

def execCopyErrorMessage (f : Nat) (s : State) : Out :=
  match (s.field f).copyMsgs with
  | [] => .next s
  | (_, _, pay) :: t =>
    match s.toService f 30 pay with
    | none => .next s
    | some s => .next (s.modField f fun fd => { fd with copyMsgs := t })

/-- Where a halted record goes on: its terminal writes, its elements, or its reading. DEDUCED: log entry 33. -/
def RunRec.resume (r : RunRec) : RecSt := if r.code != 0 then .finish else if r.bytes.isEmpty then .start else .move

/-- RETRY from the failing element, or the failed write again. -/
def RunRec.retry (r : RunRec) : RunRec := { r with st := r.resume, hold := !r.unacked.isEmpty }

/-- A write of CERES: ignored where it names a channel that is not halted. -/
def State.ceres (s : State) (f : Nat) (v : Word) : State :=
  let n := bits v 8 6
  let cl := f * 40 + n
  let ch := bits v 0 2
  if 40 ≤ n then s
  else
    match (s.chanOf cl ch).cur with
    | none => s
    | some r =>
      match r.st with
      | .halted code _ _ => s.setCur cl ch (some (if v.getLsbD 63 then r.giveUp code else r.retry))
      | _ => s

/-- DEDUCED: log entry 33. -/
def execCeresRetry (f : Nat) (v : Word) (s : State) : Out := if v.getLsbD 63 then .next s else .next (s.ceres f v)
def execCeresFail (f : Nat) (v : Word) (s : State) : Out := if v.getLsbD 63 then .next (s.ceres f v) else .next s

end Sys2Proof.Machine
end

