-- ==== Sys2Proof/Machine/Sync.lean ====
section
/-! DEFINITION. Meanings of the fences, waits, barriers and yield points, OPC 0x06 (R262, R277 to R285). -/

namespace Sys2Proof.Machine

/-! ## Fence (R262, R278) -/

/-- Marks of other cores on a list. DEDUCED: log entry 51. -/
def othersMarks (ms : List Mark) (k : Nat) : List Mark := ms.filter fun m => m.core != k

/-- Every mark that an earlier load may have read is published, and pts follows (R258, R262); stores that it has seen in the
store queue are performed. DEDUCED: log entry 51. -/
def fenceLoads : M Unit := do
  let s ← get
  waitIf s.seenOpen .drain
  let k := s.myCore
  let cl := s.myCl
  let ms := (s.cluster cl).l2.flatMap (fun x => othersMarks x.2.marks k) ++ othersMarks (s.field s.myField).shmMarks k
    ++ (coresOf cl).flatMap fun j => othersMarks (s.core j).cmarks k
  waitIf (ms.any fun m => s.markOpen m) .memory
  let take : L2Line → L2Line := fun x =>
    let o := othersMarks x.marks k
    if o.isEmpty then x
    else { x with marks := x.marks.filter fun m => m.core == k, wts := o.foldl (fun a m => Nat.max a m.stamp) x.wts }
  modify fun s => ms.foldl (fun s m => s.raisePts m.core m.stamp) s
  modify fun s => s.modCluster cl fun c => { c with l2 := c.l2.map fun x => (x.1, take x.2) }
  modify fun s => s.modField s.myField fun f => { f with shmMarks := f.shmMarks.filter fun m => m.core == k }
  modify fun s => (coresOf cl).foldl (fun s j =>
    if (s.core j).cmarks.isEmpty then s
    else s.modCore j fun c => { c with cmarks := c.cmarks.filter fun m => m.core == k }) s
  acquireAll

/-- An item of a task that has neither ended nor been accepted; a remote atomic stays open until its reply, so that its
late fault is taken by the instruction that waits for it (R303). DEDUCED: log entry 52. -/
def Item.openOf (i : Item) (tid : Nat) : Bool :=
  i.tid == tid &&
  match i.kind with
  | .tile .. => false
  | .ramo .. => true
  | _ => i.status.isNone

/-- Records of a task on the channels of a cluster. -/
def Channel.busyFor (c : Channel) (tid : Nat) : Bool :=
  (c.queue.any fun e => e.tid == tid) ||
  match c.cur with
  | some r => r.ent.tid == tid && r.st != .holding
  | none => false

/-- Records of a task on the channels of the field of a cluster. DEDUCED: log entry 52. -/
def State.recsOpen (s : State) (cl tid : Nat) : Bool :=
  s.clusters.any fun x => x.1 / 40 == cl / 40 && x.2.chans.toList.any fun c => c.busyFor tid

/-- What the kinds of a FENCE wait for. DEDUCED: log entry 51. -/
def fenceOn (sc : Scope) (kld kst keng klnk : Bool) : M Unit := do
  if kst then drainStores sc
  let s ← get
  let t := s.me.task.tid
  let k := s.myCore
  waitIf (keng && ((s.core k).items.any (fun i => i.openOf t) || s.recsOpen s.myCl t)) .items
  waitIf (klnk && (sc == .prt || sc == .sys) &&
    ((s.core k).items.any (fun i => i.openOf t && s.itemOutside k i sc) || (List.range 4).any fun ch => s.chanOutside k ch t sc)) .items
  if kld then fenceLoads

def execFence (h : Hdr) (sc : Scope) (kld kst keng klnk : Bool) (s : State) : Out :=
  runIsa h (do
    lateFirst
    fenceOn sc kld kst keng klnk
    return .next) s

/-! ## Waits (R279, R280) -/

/-- The read of WAITA: at the L2 or the bank. -/
def waitRead (sp : Space) (asid : BitVec 16) (va n : Nat) (acq : Option Scope) : M Nat := do
  match sp with
  | .paged => return bytesNat (← loadL2 (lineKey asid va) va n acq.isSome)
  | _ => return bytesNat (← readAt sp asid va n acq)

def execWaita (h : Hdr) (c : Cond) (dw acq : Bool) (sc : Scope) (d a b : GReg) (e : BitVec 32) (s : State) : Out :=
  runIsa h (do
    let x ← me
    let n := if dw then 8 else 4
    let va := effAddr x a e
    let (sp, asid) ← access va n n .load
    let v ← waitRead sp asid va n none
    if !Cond.test c (8 * n) v (x.rg b).toNat then
      modMe fun y => { y with parts := [] }
      throw (.wait .word)
    if acq then let _ ← waitRead sp asid va n (some sc)
    modMe fun y => y.wg d (BitVec.ofNat 64 v)
    return .next) s

def execWaitn (h : Hdr) (b : GI) (s : State) : Out :=
  runIsa h (do
    lateFirst
    let s ← get
    let n := (GI.uval b s.me).toNat
    let open_ := ((s.core s.myCore).items.filter fun i => i.openOf s.me.task.tid).length
    waitIf (decide (n < open_)) .items
    acquireAll
    return .next) s

/-! ## Barriers (R282, R283) -/

/-- The fields of a descriptor (Table 13-7). -/
def descX0 (d : Word) : Nat := bits d 0 3
def descY0 (d : Word) : Nat := bits d 3 3
def descX1 (d : Word) : Nat := bits d 6 3
def descY1 (d : Word) : Nat := bits d 9 3
def descMask (d : Word) : Nat := bits d 16 8

/-- A descriptor names a core of its field: cluster (cx, cy) is number cy × 8 + cx. -/
def descNames (d : Word) (core : Nat) : Bool :=
  let cl := core / 8
  decide (descX0 d ≤ cl % 8) && decide (cl % 8 ≤ descX1 d) && decide (descY0 d ≤ cl / 8) && decide (cl / 8 ≤ descY1 d)
    && (descMask d).testBit (core % 8)

/-- The checks of R282 at issue. -/
def descBad (d : Word) (core : Nat) : Bool :=
  decide (descX1 d < descX0 d) || decide (descY1 d < descY0 d) || decide (4 < descY1 d) || descMask d == 0
    || bits d 24 40 != 0 || bits d 12 4 != 0 || !descNames d core

/-- Slot n of a core. -/
def Core.bar (c : Core) (n : BitVec 2) : BarSlot := c.bars[n.toNat]
def Core.setBar (c : Core) (n : BitVec 2) (b : BarSlot) : Core := { c with bars := c.bars.set n.toNat b }

/-- A status in bits [63:56] with a low value. -/
def statusWord (code low : Nat) : Word := BitVec.ofNat 64 (code * 2 ^ 56 + low)

/-- BARSET: status, and the slot after it. -/
def barSet (b : BarSlot) (d : Word) (tid : Nat) : Nat × BarSlot :=
  if b.desc.isSome && b.setter != tid then (4, b)
  else if b.arrived || (b.desc.isSome && !b.arrivals.isEmpty) then (5, b)
  else (0, { b with desc := some d, setter := tid, episode := 0, arrived := false, mism := [], judge := none })

/-- The leader of a cluster (x, y) under a descriptor: its lowest-numbered named core (R353). -/
def leaderOf (f : Nat) (d : Word) (x y : Nat) : Nat :=
  f * 320 + (y * 8 + x) * 8 + ((List.range 8).find? fun j => (descMask d).testBit j).getD 0

/-- The corner of a descriptor: the leader of cluster (cx0, cy0) (R353). -/
def descCorner (f : Nat) (d : Word) : Nat := leaderOf f d (descX0 d) (descY0 d)

/-- The next core of an arrival's path: its cluster's leader, then westward along the row to cx0, then northward to cy0. -/
def nextHop (f : Nat) (d : Word) (k : Nat) : Nat :=
  let x := coreNum k / 8 % 8
  let y := coreNum k / 64
  if k != leaderOf f d x y then leaderOf f d x y
  else if descX0 d < x then leaderOf f d (x - 1) y
  else if descY0 d < y then leaderOf f d x (y - 1)
  else k

/-- The next core of a release's path to a core: along column cx0, then eastward along its row, then to the core. -/
def hopBack (f : Nat) (d : Word) (core k : Nat) : Nat :=
  let x := coreNum k / 8 % 8
  let y := coreNum k / 64
  if y < coreNum core / 64 then leaderOf f d x (y + 1)
  else if x < coreNum core / 8 % 8 then leaderOf f d (x + 1) y
  else core

/-- Every core that a descriptor names is among those that have arrived. DEDUCED: log entry 55. -/
def allArrived (d : Word) (as : List (Nat × Word)) : Bool :=
  (List.range 320).all fun c => !descNames d c || as.any fun a => coreNum a.1 == c

/-- The corner judges a slot: a complete episode is released to every core whose arrival it holds, with MISMATCH where
a check differs (R283). DEDUCED: log entry 55. -/
def State.barJudge (s : State) (k slot : Nat) : State :=
  let b := (s.core k).bar (BitVec.ofNat 2 slot)
  match b.desc.orElse fun _ => b.judge with
  | none => s
  | some d =>
    if b.arrivals.isEmpty || !allArrived d b.arrivals then s
    else
      let mism := b.arrivals.any fun a => a.2 != d
      let out := b.arrivals.zipIdx.map fun (a : (Nat × Word) × Nat) =>
        ({ id := s.fresh + a.2, slot := slot, core := a.1.1, desc := a.1.2, at_ := k, release := some mism } : BarMsg)
      let s := s.modCore k fun c => c.setBar (BitVec.ofNat 2 slot) { b with arrivals := [], judge := none }
      { s.modField (fieldOf k) fun f => { f with bars := f.bars ++ out } with fresh := s.fresh + out.length }

def execBarset (h : Hdr) (d a : GReg) (slot : BitVec 2) (s : State) : Out :=
  runIsa h (do
    let s ← get
    let w := s.me.rg a
    illopIf (.barset h d a slot) (descBad w (coreNum s.myCore))
    let (st, b) := barSet ((s.core s.myCore).bar slot) w s.me.task.tid
    modify fun s => (s.modCore s.myCore fun c => c.setBar slot b).barJudge s.myCore slot.toNat
    modMe fun c => c.wg d (statusWord st 0)
    return .next) s

/-- BARARR: a release at FLD, then this core's arrival for the current episode. -/
def execBararr (h : Hdr) (d : GReg) (slot : BitVec 2) (s : State) : Out :=
  runIsa h (do
    let s ← get
    let k := s.myCore
    let b := (s.core k).bar slot
    match b.desc with
    | none => modMe fun c => c.wg d (statusWord 2 0)
    | some w =>
      if b.setter != s.me.task.tid then modMe fun c => c.wg d (statusWord 4 0)
      else do
        waitIf b.arrived (.barrier slot.toNat)
        drainStores .fld
        let id ← freshId
        modify fun s => s.modCore k fun c => c.setBar slot { b with arrived := true }
        modify fun s => s.modField s.myField fun f =>
          { f with bars := f.bars ++ [{ id := id, slot := slot.toNat, core := k, desc := w, at_ := k }] }
        modMe fun c => c.wg d (statusWord 0 b.episode.toNat)
    return .next) s

/-- BARWAIT on an episode: none while it waits, else the status (R283). DEDUCED: log entry 53. -/
def barWait (b : BarSlot) (tid : Nat) (e : BitVec 32) : Option Nat :=
  if b.desc.isNone then some 2
  else if b.setter != tid then some 4
  else
    let dist := (e - b.episode).toInt
    if dist < 0 then some (if b.mism.contains e then 1 else 0)
    else if dist = 0 ∧ b.arrived then none
    else some 3

/-- DEDUCED: log entry 53. -/
def execBarwait (h : Hdr) (d a : GReg) (slot : BitVec 2) (s : State) : Out :=
  runIsa h (do
    let s ← get
    match barWait ((s.core s.myCore).bar slot) s.me.task.tid ((s.me.rg a).setWidth 32) with
    | none => throw (.wait (.barrier slot.toNat))
    | some st => do
      if st = 0 then acquireAll
      modMe fun c => c.wg d (statusWord st 0)
      return .next) s

/-! ## Yield points (R285) -/

/-- CHK: 0 without a pre-emption request or when the save cannot begin; else the save begins, and the restored context goes
on with 1. -/
def execChk (h : Hdr) (d : GReg) (s : State) : Out :=
  runIsa h (do
    lateFirst
    let s ← get
    if s.me.preq && s.canSave s.cur then
      modMe fun c => c.wg d 1
      modify fun s => s.beginSave s.cur 0 []
    else modMe fun c => c.wg d 0
    return .next) s

/-- YIELD gives up the context; contexts 14 and 15 hold no task to save. DEDUCED: log entry 43. -/
def execYield (h : Hdr) (s : State) : Out :=
  runIsa h (do
    lateFirst
    let s ← get
    if ctxNum s.cur < 14 && s.canSave s.cur then modify fun s => s.beginSave s.cur 0 []
    return .next) s

end Sys2Proof.Machine
end

