-- ==== Sys2Proof/Machine/Matrix.lean ====
section
/-! DEFINITION. Meanings of the matrix forms, OPC 0x20, at issue (R229 to R248). -/

namespace Sys2Proof.Machine

/-! ## Claims (R233, R246) -/

/-- The context holds an accumulator. -/
def State.holdsAcc (s : State) (n : Nat) : Bool := (s.core s.myCore).accHolder.toList.getD n none == some (ctxNum s.cur)

/-- The context holds the counter banks. -/
def State.holdsBanks (s : State) : Bool := (s.cluster s.myCl).bankHolder == some (s.cur, s.me.task.tid)

/-- Raises ILLOP when the context does not hold an accumulator. -/
def needAcc (i : Instr) (d : AReg) : M Unit := do illopIf i (!(← get).holdsAcc d.toNat)

def needBanks (i : Instr) : M Unit := do illopIf i (!(← get).holdsBanks)

/-! ## The queue (R229) -/

/-- Enters the core's command queue with the next number of the sequence ring. DEDUCED: log entry 60. -/
def mqPush (i : Instr) (dst : Option RegRef) (wa wb : Word) : M Unit := do
  let s ← get
  waitIf s.me.ringFull .items
  waitIf (decide (32 ≤ (s.core s.myCore).mq.length)) .queue
  let id ← freshId
  let c := s.me
  let e : MqEnt :=
    { ins := i, cx := s.cur, tid := c.task.tid, seq := c.nextSeq, wa := wa, wb := wb, mscl := c.mscl, extn := c.extn
      asid := c.asid, lvl := c.lvl, eid := id }
  modify fun s => s.modCore s.myCore fun k => { k with mq := k.mq ++ [e] }
  modMe fun c => c.pushSeq .pending dst

/-- Reserved bits of an operand word and of a scale word (Table 11-1). -/
def wordBad (w : Word) : Bool := bits w 18 6 != 0
def scaleBad (w : Word) : Bool := bits w 18 6 != 0 || w.getLsbD 63 || bits w 44 16 != 0

/-! ## Issue shadow (R240) -/

def Ctx.shadow (c : Ctx) (bank : Bool) : BankShadow := if bank then c.shadow1 else c.shadow0
def Ctx.setShadow (c : Ctx) (bank : Bool) (x : BankShadow) : Ctx :=
  if bank then { c with shadow1 := x } else { c with shadow0 := x }

/-- Elements per scale block (R239). -/
def blkOf (b : Bool) : Nat := if b then 64 else 32
def wordK0 (w : Word) : Nat := bits w 44 16

/-- The block index of a side: 0 where it is not scaled. DESIGN CHOICE: R72 does not say whether the one unbounded block of an unscaled
side and block 0 of a scaled one are one binding when MSCL changes between two MCNTs into one bank: here they are (log entry 131). -/
def blockIdx (en b : Bool) (w : Word) : Nat := if en then wordK0 w / blkOf b else 0

/-- The checks of R240 at issue. -/
def mcntBad (x : BankShadow) (m : Mscl) (wa wb : Word) (ta tb : ETy) (k : Nat) : Bool :=
  decide (127 < x.depth + k)
    || (m.aen && decide (blkOf m.ablk < wordK0 wa % blkOf m.ablk + k))
    || (m.ben && decide (blkOf m.bblk < wordK0 wb % blkOf m.bblk + k))
    || (x.depth != 0 && (x.ba != blockIdx m.aen m.ablk wa || x.bb != blockIdx m.ben m.bblk wb || x.ta != ta || x.tb != tb))

/-- The shadow after an MCNT. -/
def BankShadow.count (x : BankShadow) (m : Mscl) (wa wb : Word) (ta tb : ETy) (k : Nat) : BankShadow :=
  if x.depth = 0 then
    { depth := k, ba := blockIdx m.aen m.ablk wa, bb := blockIdx m.ben m.bblk wb, ta := ta, tb := tb }
  else { x with depth := x.depth + k }

/-- The shadow of bank 0 after an MMERGE (R74). -/
def mergeShadow (a b : BankShadow) : BankShadow :=
  if b.depth = 0 then a
  else if a.depth = 0 then { b with depth := Nat.min b.depth 127 }
  else { a with depth := Nat.min (a.depth + b.depth) 127 }

/-! ## Meanings of the queued forms -/

/-- The conditions on a scaled MMA (R238). -/
def mmaScaleBad (m : Mscl) (wa wb : Word) (ta tb : ETy) : Bool :=
  (m.aen || m.ben) &&
  (!(ta.isF8 && tb.isF8) || (m.aen && (wordK0 wa % 16 != 0 || m.ablk)) || (m.ben && (wordK0 wb % 16 != 0 || m.bblk))
    || (m.aen && m.ben && wordK0 wa % 32 != wordK0 wb % 32))

def execMma (h : Hdr) (ta tb : ETy) (d : AReg) (a b : GReg) (k : BitVec 16) (s : State) : Out :=
  runIsa h (do
    lateFirst
    let i : Instr := .mma h ta tb d a b k
    let c ← me
    needAcc i d
    illopIf i (wordBad (c.rg a) || wordBad (c.rg b) || mmaScaleBad c.mscl (c.rg a) (c.rg b) ta tb)
    storesDone
    mqPush i (some (.a d.toNat)) (c.rg a) (c.rg b)
    return .next) s

def execMcnt (h : Hdr) (ta tb : ETy) (a b : GReg) (k : BitVec 7) (bank : Bool) (s : State) : Out :=
  runIsa h (do
    lateFirst
    let i : Instr := .mcnt h ta tb a b k bank
    let c ← me
    needBanks i
    illopIf i (wordBad (c.rg a) || wordBad (c.rg b)
      || mcntBad (c.shadow bank) c.mscl (c.rg a) (c.rg b) ta tb k.toNat)
    storesDone
    mqPush i none (c.rg a) (c.rg b)
    modMe fun x => x.setShadow bank ((x.shadow bank).count c.mscl (c.rg a) (c.rg b) ta tb k.toNat)
    return .next) s

def execMdrain (h : Hdr) (d : AReg) (bank : Bool) (s : State) : Out :=
  runIsa h (do
    lateFirst
    let i : Instr := .mdrain h d bank
    needAcc i d
    needBanks i
    mqPush i (some (.a d.toNat)) 0 0
    modMe fun x => x.setShadow bank {}
    return .next) s

def execMmerge (h : Hdr) (s : State) : Out :=
  runIsa h (do
    lateFirst
    let i : Instr := .mmerge h
    let c ← me
    needBanks i
    illopIf i (c.shadow0.depth != 0 && c.shadow1.depth != 0
      && (c.shadow0.ta != c.shadow1.ta || c.shadow0.tb != c.shadow1.tb))
    mqPush i none 0 0
    modMe fun x => { x with shadow0 := mergeShadow x.shadow0 x.shadow1, shadow1 := {} }
    return .next) s

def execMzero (h : Hdr) (d : AReg) (s : State) : Out :=
  runIsa h (do
    lateFirst
    let i : Instr := .mzero h d
    needAcc i d
    mqPush i (some (.a d.toNat)) 0 0
    return .next) s

/-- A base or pitch that is not a multiple of the element size (R244). -/
def matAlign (t : ETy) (base pitch : Word) : M Unit := do
  let n := t.width / 8
  trapIf (base.toNat % n != 0) { cause := .align, tval := base }
  trapIf (pitch.toNat % n != 0) { cause := .align, tval := pitch }

def execMld (h : Hdr) (t : ETy) (d : AReg) (a b : GReg) (rows cols : BitVec 7) (s : State) : Out :=
  runIsa h (do
    lateFirst
    let i : Instr := .mld h t d a b rows cols
    let c ← me
    needAcc i d
    matAlign t (c.rg a) (c.rg b)
    storesDone
    mqPush i (some (.a d.toNat)) (c.rg a) (c.rg b)
    return .next) s

def execMst (h : Hdr) (t : ETy) (r : RMode) (sat : Bool) (d : AReg) (a b : GReg) (rows cols : BitVec 7) (s : State) :
    Out :=
  runIsa h (do
    lateFirst
    let i : Instr := .mst h t r sat d a b rows cols
    let c ← me
    needAcc i d
    matAlign t (c.rg a) (c.rg b)
    storesDone
    mqPush i none (c.rg a) (c.rg b)
    return .next) s

/-- MSCL sets the scale state for the instructions that follow in program order (R239). -/
def execMscl (h : Hdr) (a b : GReg) (aen ben ablk bblk : Bool) (s : State) : Out :=
  runIsa h (do
    lateFirst
    let i : Instr := .mscl h a b aen ben ablk bblk
    let c ← me
    illopIf i (scaleBad (c.rg a) || scaleBad (c.rg b))
    mqPush i none (c.rg a) (c.rg b)
    modMe fun x => { x with mscl := { wa := c.rg a, wb := c.rg b, aen := aen, ben := ben, ablk := ablk, bblk := bblk } }
    return .next) s

/-! ## Meanings of the others -/

/-- MWAIT (R245). -/
def execMwait (h : Hdr) (s : State) : Out :=
  runIsa h (do
    lateFirst
    let s ← get
    let k := s.core s.myCore
    let t := s.me.task.tid
    let bcast (i : Item) : Bool := i.tid == t && (match i.kind with
      | .mbcast .. => true
      | _ => false)
    waitIf (k.mq.any fun e => e.tid == t) .items
    waitIf (k.items.any bcast) .items
    return .next) s

def MqEnt.banks (e : MqEnt) : Bool :=
  match e.ins with
  | .mcnt .. | .mdrain .. | .mmerge .. => true
  | _ => false

/-- Accumulator n of core k is held by a context that p picks, or queued instructions of a task that q picks still use it
after its release, those that a save has withdrawn too (R91, R246). -/
def State.accUsed (s : State) (k n : Nat) (p q : Nat → Bool) : Bool :=
  ((s.core k).accHolder.toList.getD n none).any p || ((s.core k).mq.any fun e => q e.tid && e.acc? == some n) ||
    (s.core k).saved.any fun v => !v.accs.getLsbD n && v.mq.any fun e => q e.tid && e.acc? == some n

/-- The same of a cluster's banks. -/
def State.banksUsed (s : State) (cl : Nat) (p : Nat × Nat → Bool) (q : Nat → Bool) : Bool :=
  (s.cluster cl).bankHolder.any p ||
  (List.range 8).any fun j =>
    let c := s.core (clusterCore cl + j)
    (c.mq.any fun e => q e.tid && e.banks) || c.saved.any fun v => !v.banks && v.mq.any fun e => q e.tid && e.banks

/-- Requested items that other contexts hold, or have released and still use, in the layout of IMM[4:0].
DEDUCED: log entry 59. -/
def State.claimDenied (s : State) (claim : BitVec 5) : Nat :=
  let other (t : Nat) : Bool := t != s.me.task.tid
  (List.range 4).foldl (fun a n =>
    if claim.getLsbD n && s.accUsed s.myCore n (· != ctxNum s.cur) other then a + 2 ^ n else a)
    (if claim.getLsbD 4 && s.banksUsed s.myCl (· != (s.cur, s.me.task.tid)) other then 16 else 0)

/-- A claim of an item that the context has released and that its own queued instructions still use. -/
def State.claimEarly (s : State) (claim : BitVec 5) : Bool :=
  ((List.range 4).any fun n => claim.getLsbD n && !s.holdsAcc n && s.accUsed s.myCore n (fun _ => false) fun _ => true) ||
  (claim.getLsbD 4 && !s.holdsBanks && s.banksUsed s.myCl (fun _ => false) fun _ => true)

/-- Words of the accumulators that a test picks are dropped: they read 0. -/
def Core.clearAccs (c : Core) (p : Nat → Bool) : Core := { c with acc := c.acc.filter fun x => !p (x.1 / 16384) }

/-- Releases of MCFG. DEDUCED: log entry 59. -/
def State.mcfgRelease (s : State) (r : BitVec 5) : State :=
  let x := ctxNum s.cur
  let s1 := s.modCore s.myCore fun c =>
    { c with accHolder := (Vector.range 4).map fun n =>
        if r.getLsbD n && c.accHolder.toList.getD n none == some x then none else c.accHolder.toList.getD n none }
  if r.getLsbD 4 && s.holdsBanks then s1.modCluster s.myCl fun c => { c with bankHolder := none } else s1

/-- Claims of MCFG that are all granted: items not held before start at zero. -/
def State.mcfgClaim (s : State) (claim : BitVec 5) : State :=
  let new (n : Nat) : Bool := claim.getLsbD n && !s.holdsAcc n && decide (n < 4)
  let s1 := s.modCore s.myCore fun c =>
    let hold (n : Nat) : Option Nat :=
      if claim.getLsbD n then some (ctxNum s.cur) else c.accHolder.toList.getD n none
    { c.clearAccs new with accHolder := (Vector.range 4).map hold }
  if claim.getLsbD 4 && !s.holdsBanks then
    (s1.modCluster s.myCl fun c =>
      { c with bankHolder := some (s.cur, s.me.task.tid), banks := Vector.replicate 2 {} }).modCtx s.cur fun x =>
        { x with shadow0 := {}, shadow1 := {} }
  else s1

/-- MCFG (R246): a released item leaves at once and is free when the queued instructions that use it are done; a claim of
one by the context that released it waits until then. DEDUCED: log entry 59. -/
def execMcfg (h : Hdr) (d : GReg) (claim release : BitVec 5) (s : State) : Out :=
  runIsa h (do
    lateFirst
    let s ← get
    let s := s.mcfgRelease release
    let no := s.claimDenied claim
    waitIf (no == 0 && s.claimEarly claim) .queue
    set (if no = 0 then s.mcfgClaim claim else s)
    modMe fun c => c.wg d (BitVec.ofNat 64 no)
    return .next) s

/-- The checks of MBCAST at issue (R248). DEDUCED: log entry 68. -/
def mbcastBad (ga gb : Word) : Bool :=
  bits ga 18 46 != 0 || bits gb 32 32 != 0 || bits gb 18 6 != 0 || bits ga 0 2 != 0 || bits gb 0 2 != 0 || bits gb 24 8 == 0

/-- Words of a core memory from an offset. -/
def Core.words (c : Core) (off n : Nat) : List (BitVec 32) :=
  (List.range n).map fun i => BitVec.ofNat 32 (bytesNat (Mem.readBytes c.cmem (off + 4 * i) 4))

/-- MBCAST: the source is read at issue; a range beyond the core memory gives the status BOUNDS, and a poisoned source
word the status UE. -/
def execMbcast (h : Hdr) (d a b : GReg) (bus : Bool) (mask : BitVec 8) (len : BitVec 16) (s : State) : Out :=
  runIsa h (do
    lateFirst
    let s ← get
    let ga := s.me.rg a
    let gb := s.me.rg b
    illopIf (.mbcast h d a b bus mask len) (mbcastBad ga gb)
    drainStores .fld
    waitIf ((s.core s.myCore).mq.any fun e => e.tid == s.me.task.tid) .drain
    let n := 4 * len.toNat
    let src := bits ga 0 18
    let dst := bits gb 0 18
    let k := s.core s.myCore
    let cores : BitVec 8 := gb.extractLsb' 24 8
    let kind (ws : List (BitVec 32)) : ItemKind := .mbcast dst bus mask ws
    if decide (cmemSize < src + n) || decide (cmemSize < dst + n) then
      let _ ← newItem d .fld (kind []) (some (mbWord codeBounds))
    else if schedBad s.me.lvl none dst n then
      let _ ← newItem d .fld (kind []) (some (mbWord codePerm))
    else if (words8 src n).any (fun w => inList w k.poison) then
      let _ ← newItem d .fld (kind []) (some (mbWord codeUe))
    else
      let id ← newItem d .fld (kind (k.words src len.toNat)) none
      modify fun s => match s.item? s.myCore id with
        | some i => s.setItem s.myCore { i with at_ := cores.toNat }
        | none => s
    return .next) s

/-- MQW (R247). -/
def execMqw (h : Hdr) (b : GI) (s : State) : Out :=
  runIsa h (do
    let w := GI.uval b (← me)
    illopIf (.mqw h b) (w = 0 || decide (8 < w.toNat))
    modify fun s => s.modCore s.myCore fun c => c.setReg 0x080 w
    return .next) s

end Sys2Proof.Machine
end

