-- ==== Sys2Proof/Machine/MatrixUnit.lean ====
section
/-! DEFINITION. The matrix unit at work: tile steps of queued instructions, and broadcasts (R230 to R232, R235 to R244,
R248, R65 to R74). -/

namespace Sys2Proof.Machine

/-! ## Accumulators (R237) -/

/-- Word i of accumulator n. -/
def Core.accWord (c : Core) (n i : Nat) : BitVec 32 := SMap.get c.acc (n * 16384 + i) 0
def Core.setAccWord (c : Core) (n i : Nat) (x : BitVec 32) : Core :=
  { c with acc := SMap.set c.acc (n * 16384 + i) x 0 }

/-- Element e of accumulator n in a view of 4 or 8 bytes. -/
def Core.accElem (c : Core) (n : Nat) (wide : Bool) (e : Nat) : Nat :=
  if wide then (c.accWord n (2 * e)).toNat + 2 ^ 32 * (c.accWord n (2 * e + 1)).toNat else (c.accWord n e).toNat
def Core.setAccElem (c : Core) (n : Nat) (wide : Bool) (e x : Nat) : Core :=
  if wide then (c.setAccWord n (2 * e) (BitVec.ofNat 32 x)).setAccWord n (2 * e + 1) (BitVec.ofNat 32 (x / 2 ^ 32))
  else c.setAccWord n e (BitVec.ofNat 32 x)

/-! ## Operands (R235, R239) -/

/-- Nibbles of an element. -/
def nibsOf (t : ETy) : Nat := t.width / 4

/-- Nibble offset of element (r, k) of A, or (k, r) of B, in its core memory. -/
def opNib (isA : Bool) (w : Word) (u r k : Nat) : Nat :=
  let ld := 2 * bits w 24 20
  2 * bits w 0 18 + (if isA != w.getLsbD 63 then r * ld + k * u else k * ld + r * u)

/-- The core whose memory holds an array. -/
def opCore (cl : Nat) (w : Word) : Nat := clusterCore cl + bits w 60 3

/-- The code of an element. -/
def opCode (c : Core) (isA : Bool) (w : Word) (u r k : Nat) : Nat :=
  let n := opNib isA w u r k
  if u = 1 then (Mem.read c.cmem (n / 2)).toNat / 16 ^ (n % 2) % 16 else bytesNat (Mem.readBytes c.cmem (n / 2) (u / 2))

/-- The byte after the last one of an operand of R rows or columns over K steps. -/
def opEnd (isA : Bool) (w : Word) (u rr kk : Nat) : Nat := (opNib isA w u (rr - 1) (kk - 1) + u + 1) / 2

/-- The offset of a scale byte. -/
def scaleOff (w : Word) (r blk : Nat) : Nat := bits w 0 18 + r * bits w 24 20 + blk

/-- The scale code of a row or column for a K index. -/
def scaleCode (s : State) (cl : Nat) (en b : Bool) (sw ow : Word) (r k : Nat) : Nat :=
  if en then (Mem.read (s.core (opCore cl sw)).cmem (scaleOff sw r ((wordK0 ow + k) / blkOf b))).toNat else 127

/-- The cluster-window address of an offset of an operand's core memory. DEDUCED: log entry 57. -/
def opAddr (w : Word) (off : Nat) : Nat := clusterBase + bits w 60 3 * 0x40000 + off

/-- A poisoned 8-byte word that a test of byte offsets meets. -/
def poisonHit (c : Core) (p : Nat → Bool) : Option Nat := c.poison.find? fun w => (List.range 8).any fun i => p (8 * w + i)

/-- Whether rows [0, rr) over K-steps [k0, k1) of an operand hold a byte. -/
def opHas (isA : Bool) (w : Word) (u rr k0 k1 o : Nat) : Bool :=
  (List.range rr).any fun r => (List.range (k1 - k0)).any fun k =>
    let n := opNib isA w u r (k0 + k)
    decide (n / 2 ≤ o) && decide (o ≤ (n + u - 1) / 2)

/-! ## Outcomes of a tile step -/

inductive MxOut where
  | go (kc : Nat)
  | done
  | fault (c : Cause) (addr kc : Nat)
  deriving DecidableEq, Repr

/-- A tile step: it changes the state, and says how far the instruction is. -/
abbrev MxM := M MxOut

/-- Sets flags in the context that issued. -/
def flagTo (c : Nat) (fl : BitVec 5) : M Unit := modify fun s => s.modCtx c fun x => x.orFlags fl

/-! ## MMA (R65 to R68, R238) -/

/-- The exact sum of the products of a chunk (R68). DEDUCED: log entry 48. -/
def chunkSum (ps : List (FVal × Bool)) : FVal × BitVec 5 :=
  let nan := ps.any fun p => p.1.isNan
  let pos := ps.any fun p => p.1 == .inf false
  let neg := ps.any fun p => p.1 == .inf true
  let iv := (ps.any fun p => p.2 || p.1 == .nan true) || (pos && neg)
  let fl : BitVec 5 := if iv then ivFlag else 0
  if nan || (pos && neg) then (.nan false, fl)
  else if pos then (.inf false, fl)
  else if neg then (.inf true, fl)
  else
    let add (a : Option FVal) (p : FVal × Bool) : Option FVal :=
      match a, p.1 with
      | none, x => some x
      | some (.fin n1 m1 e1), .fin n2 m2 e2 =>
        let (n, m, e) := exactAdd .rne n1 m1 e1 n2 m2 e2
        some (.fin n m e)
      | a, _ => a
    ((ps.foldl add none).getD (.fin false 0 0), fl)

/-- K-steps of a chunk (R65 to R67). -/
def chunkLen (t : ETy) : Nat :=
  match t with
  | .f64 => 1
  | .f16 | .bf16 => 8
  | _ => 16

/-- The new value of one element after a chunk: codes of A and B over its K-steps, and the exponents of its scales, none
for a NaN scale. DEDUCED: log entry 48. -/
def mmaElem (ta tb : ETy) (ext : Bool) (acc : Nat) (ab : List (Nat × Nat)) (sc : Option Int) : Nat × BitVec 5 :=
  match ta with
  | .i8 => (truncTo 32 (signed 32 acc + ab.foldl (fun a x => a + signed 8 x.1 * signed 8 x.2) 0), 0)
  | .f64 =>
    ab.foldl (fun a x =>
      let r := Fmt.f64.fma .rne (Fmt.f64.val x.1) (Fmt.f64.val x.2) (Fmt.f64.val a.1)
      (r.1, a.2 ||| r.2)) (acc, 0)
  | _ =>
    let va (x : Nat) : FVal := (((ETy.fmt ta ext).map fun f => f.val x).getD (.nan false))
    let vb (x : Nat) : FVal := (((ETy.fmt tb ext).map fun f => f.val x).getD (.nan false))
    let (sum, fl) := chunkSum (ab.map fun x => (va x.1).mul (vb x.2))
    let sum := match sc with
      | none => .nan false
      | some e => sum.scale e
    let r := Fmt.f32.add .rne (Fmt.f32.val acc) sum
    (r.1, fl ||| r.2)

/-- Rows of A: 64 for F64, else 128 (R238). -/
def mmaRows (t : ETy) : Nat := if t = .f64 then 64 else 128

/-- One chunk of K-steps [k0, k1) on every element. -/
def mmaChunk (s : State) (cl : Nat) (e : MqEnt) (ta tb : ETy) (d k0 k1 : Nat) : State :=
  let ca := s.core (opCore cl e.wa)
  let cb := s.core (opCore cl e.wb)
  let m := mmaRows ta
  let wide := ta == .f64
  let ks := (List.range (k1 - k0)).map (k0 + ·)
  let one (a : Core × BitVec 5) (n : Nat) : Core × BitVec 5 :=
    let i := n / 128
    let j := n % 128
    let ab := ks.map fun k => (opCode ca true e.wa (nibsOf ta) i k, opCode cb false e.wb (nibsOf tb) j k)
    let xa := scaleExp (scaleCode s cl e.mscl.aen e.mscl.ablk e.mscl.wa e.wa i k0)
    let xb := scaleExp (scaleCode s cl e.mscl.ben e.mscl.bblk e.mscl.wb e.wb j k0)
    let sc := match xa, xb with
      | some x, some y => some (x + y)
      | _, _ => none
    let r := mmaElem ta tb e.extn (a.1.accElem d wide n) ab sc
    (a.1.setAccElem d wide n r.1, a.2 ||| r.2)
  let k := coreOf e.cx
  let (c, fl) := (List.range (m * 128)).foldl one (s.core k, 0)
  (s.setCore k c).modCtx e.cx fun x => x.orFlags fl

/-- Chunks of an MMA in turn, until the step or the extent ends; a poisoned operand byte stops it before its chunk. -/
def mmaChunks (cl : Nat) (e : MqEnt) (ta tb : ETy) (d total stop : Nat) : Nat → Nat → MxM
  | 0, kc => return .go kc
  | fuel + 1, kc => do
    if total ≤ kc then return .done
    if stop ≤ kc then return .go kc
    let k1 := Nat.min total (kc + chunkLen ta)
    let s ← get
    match poisonHit (s.core (opCore cl e.wa)) (opHas true e.wa (nibsOf ta) (mmaRows ta) kc k1) with
    | some w => return .fault .ue (opAddr e.wa (8 * w)) kc
    | none =>
      match poisonHit (s.core (opCore cl e.wb)) (opHas false e.wb (nibsOf tb) 128 kc k1) with
      | some w => return .fault .ue (opAddr e.wb (8 * w)) kc
      | none => do
        set (mmaChunk s cl e ta tb d kc k1)
        mmaChunks cl e ta tb d total stop fuel k1

/-- An operand or scale byte beyond 192 KiB: the address of the last one (R235, R239). -/
def extentBad (e : MqEnt) (ta tb : ETy) (rows total : Nat) (scales : Bool) : Option Nat :=
  let ea := opEnd true e.wa (nibsOf ta) rows total
  let eb := opEnd false e.wb (nibsOf tb) 128 total
  let m := e.mscl
  let sa := scaleOff m.wa (rows - 1) ((wordK0 e.wa + total - 1) / blkOf m.ablk)
  let sb := scaleOff m.wb 127 ((wordK0 e.wb + total - 1) / blkOf m.bblk)
  if cmemSize < ea then some (opAddr e.wa (ea - 1))
  else if cmemSize < eb then some (opAddr e.wb (eb - 1))
  else if scales && m.aen && decide (cmemSize ≤ sa) then some (opAddr m.wa sa)
  else if scales && m.ben && decide (cmemSize ≤ sb) then some (opAddr m.wb sb)
  else none

/-- A poisoned scale byte that an instruction reads. -/
def scalePoison (s : State) (cl : Nat) (e : MqEnt) (rows total : Nat) : Option Nat :=
  let hit (en b : Bool) (sw ow : Word) (r : Nat) : Option Nat :=
    if en then
      (poisonHit (s.core (opCore cl sw)) fun o => (List.range r).any fun i =>
        decide (scaleOff sw i (wordK0 ow / blkOf b) ≤ o) && decide (o ≤ scaleOff sw i ((wordK0 ow + total - 1) / blkOf b))).map
        fun w => opAddr sw (8 * w)
    else none
  (hit e.mscl.aen e.mscl.ablk e.mscl.wa e.wa rows).or (hit e.mscl.ben e.mscl.bblk e.mscl.wb e.wb 128)

def mmaStep (cl : Nat) (e : MqEnt) (ta tb : ETy) (d total : Nat) : MxM := do
  let s ← get
  if e.kc = 0 then
    match extentBad e ta tb (mmaRows ta) total true with
    | some a => return .fault .bounds a 0
    | none =>
      match scalePoison s cl e (mmaRows ta) total with
      | some a => return .fault .ue a 0
      | none => pure ()
  mmaChunks cl e ta tb d total (e.kc + 64) 65 e.kc

/-! ## Counting (R70 to R74) -/

/-- A bank after one K-step of one cell (R70). -/
def countOne (counts : SMap (BitVec 8)) (cell a b : Nat) : SMap (BitVec 8) :=
  let ma := a % 8
  let mb := b % 8
  if ma = 0 ∨ mb = 0 then counts
  else
    let i := cell * 64 + ma * 8 + mb
    let x : BitVec 8 := SMap.get counts i 0
    SMap.set counts i (if a / 8 % 2 = b / 8 % 2 then x + 1 else x - 1) 0

/-- The binding that the first K-step latches (R240). -/
def bindBank (s : State) (cl : Nat) (e : MqEnt) (ta tb : ETy) : Bank :=
  let m := e.mscl
  let code (en b : Bool) (sw ow : Word) (n : Nat) : SMap (BitVec 8) :=
    if en then (List.range n).foldl (fun a r => SMap.set a r (BitVec.ofNat 8 (scaleCode s cl en b sw ow r 0)) 127) [] else []
  { counts := [], depth := 0, ba := blockIdx m.aen m.ablk e.wa, bb := blockIdx m.ben m.bblk e.wb, ta := ta, tb := tb
    ea := code m.aen m.ablk m.wa e.wa 128, eb := code m.ben m.bblk m.wb e.wb 128 }

def Cluster.bank (c : Cluster) (b : Bool) : Bank := c.banks[if b then 1 else 0]'(by split <;> decide)
def Cluster.setBank (c : Cluster) (b : Bool) (x : Bank) : Cluster :=
  { c with banks := if b then c.banks.set 1 x else c.banks.set 0 x }

def mcntStep (cl : Nat) (e : MqEnt) (ta tb : ETy) (total : Nat) (bank : Bool) : MxM := do
  let s ← get
  let b := (s.cluster cl).bank bank
  let first := e.kc = 0 ∧ b.depth = 0
  let bad := if e.kc = 0 then extentBad e ta tb 128 total (decide first) else none
  match bad with
  | some a => return .fault .bounds a 0
  | none => do
    match (if first then scalePoison s cl e 128 1 else none) with
    | some a => return .fault .ue a 0
    | none => do
      let k1 := Nat.min total (e.kc + 64)
      let ca := s.core (opCore cl e.wa)
      let cb := s.core (opCore cl e.wb)
      match (poisonHit ca (opHas true e.wa 1 128 e.kc k1)).map (opAddr e.wa <| 8 * ·)
          |>.or ((poisonHit cb (opHas false e.wb 1 128 e.kc k1)).map (opAddr e.wb <| 8 * ·)) with
      | some a => return .fault .ue a e.kc
      | none => do
        let b := if first then bindBank s cl e ta tb else b
        let ks := (List.range (k1 - e.kc)).map (e.kc + ·)
        let cell (m : SMap (BitVec 8)) (n : Nat) : SMap (BitVec 8) :=
          ks.foldl (fun m k => countOne m n (opCode ca true e.wa 1 (n / 128) k) (opCode cb false e.wb 1 (n % 128) k)) m
        let b := { b with counts := (List.range 16384).foldl cell b.counts, depth := b.depth + (k1 - e.kc) }
        set (s.modCluster cl fun c => c.setBank bank b)
        return if total ≤ k1 then .done else .go k1

/-- Doubled magnitudes (Table 03-3). -/
def doubled (t : ETy) (m : Nat) : Nat :=
  if t = .f4 then [0, 1, 2, 3, 4, 6, 8, 12].getD m 0 else m

/-- The total of a cell (R71, R73). -/
def Bank.total (b : Bank) (cell : Nat) : Int :=
  (List.range 64).foldl (fun a i => a + (SMap.get b.counts (cell * 64 + i) 0).toInt *
    (doubled b.ta (i / 8) * doubled b.tb (i % 8) : Nat)) 0

/-- An accumulator element after the drain of its cell (R73). -/
def drainElem (acc : Nat) (d : Int) (ea eb : Nat) : Nat × BitVec 5 :=
  match scaleExp ea, scaleExp eb with
  | some x, some y =>
    if d = 0 then (acc, 0) else Fmt.f32.add .rne (Fmt.f32.val acc) (.fin (decide (d < 0)) d.natAbs (x + y - 2))
  | _, _ => (0x7FC00000, ivFlag)

def mdrainStep (cl : Nat) (e : MqEnt) (d : Nat) (bank : Bool) : MxM := do
  let s ← get
  let b := (s.cluster cl).bank bank
  if b.depth = 0 then return .done
  let k := coreOf e.cx
  let one (a : Core × BitVec 5) (n : Nat) : Core × BitVec 5 :=
    let r := drainElem (a.1.accElem d false n) (b.total n) (SMap.get b.ea (n / 128) 127).toNat (SMap.get b.eb (n % 128) 127).toNat
    (a.1.setAccElem d false n r.1, a.2 ||| r.2)
  let (c, fl) := (List.range 16384).foldl one (s.core k, 0)
  set ((s.setCore k c).modCluster cl fun c => c.setBank bank {})
  flagTo e.cx fl
  return .done

/-- The sum of two counters, outside [−127, 127] or not. -/
def mergeBad (a b : Bank) : Bool :=
  (b.counts.any fun x =>
    let t := (SMap.get a.counts x.1 0).toInt + x.2.toInt
    decide (t < -127) || decide (127 < t)) ||
  (a.counts.any fun x =>
    let t := (SMap.get b.counts x.1 0).toInt + x.2.toInt
    decide (t < -127) || decide (127 < t)) ||
  (List.range 128).any fun n => SMap.get a.ea n 127 != SMap.get b.ea n 127 || SMap.get a.eb n 127 != SMap.get b.eb n 127

def mergeCounts (a b : Bank) : Bank :=
  { a with counts := b.counts.foldl (fun m x => SMap.set m x.1 (SMap.get m x.1 0 + x.2) 0) a.counts
           depth := Nat.min (a.depth + b.depth) 127 }

def mmergeStep (cl : Nat) : MxM := do
  let c := (← get).cluster cl
  let a := c.bank false
  let b := c.bank true
  if b.depth = 0 then return .done
  if a.depth = 0 then
    modify fun s => s.modCluster cl fun c => (c.setBank false { b with depth := Nat.min b.depth 127 }).setBank true {}
    return .done
  if mergeBad a b then return .fault .cntov 0 0
  modify fun s => s.modCluster cl fun c => (c.setBank false (mergeCounts a b)).setBank true {}
  return .done

/-! ## Load and store (R244) -/

def MqEnt.eng (e : MqEnt) : Eng :=
  { k := coreOf e.cx, asid := e.asid, lvl := e.lvl, id := e.eid, rim := false, cx := some e.cx
    svc := e.cx == serviceCx (fieldOf (coreOf e.cx)) }

/-- The value that an accumulator element takes from memory: code and flags. -/
def mldVal (t : ETy) (x : Nat) : Nat × BitVec 5 :=
  match t with
  | .f16 => Fmt.f32.convert .rne false (Fmt.f16.val x)
  | .bf16 => Fmt.f32.convert .rne false (Fmt.bf16.val x)
  | _ => (x, 0)

/-- The value that MST writes: code and flags. -/
def mstVal (t : ETy) (r : RMode) (sat ext : Bool) (x : Nat) : Nat × BitVec 5 :=
  match t with
  | .f16 | .bf16 | .f8e4 | .f8e5 =>
    match ETy.fmt t ext with
    | some f => f.convert r sat (Fmt.f32.val x)
    | none => (x, 0)
  | .i8 => (intConv (-128) 127 8 sat (signed 32 x), 0)
  | _ => (x, 0)

/-- Address of element (i, j). -/
def matAddr (base pitch : Word) (n i j : Nat) : Nat := (base + BitVec.ofNat 64 i * pitch + BitVec.ofNat 64 (j * n)).toNat

/-- Reads the elements of a row. -/
def readRow (e : MqEnt) (n i : Nat) : List Nat → M (List Nat)
  | [] => return []
  | j :: t => do
    let x ← e.eng.read (matAddr e.wa e.wb n i j) n
    return bytesNat x :: (← readRow e n i t)

/-- Rows in ascending order; the rows done are kept in the queue entry when a row must wait. -/
def setKc (e : MqEnt) (kc : Nat) : M Unit :=
  modify fun s => s.modCore (coreOf e.cx) fun c =>
    { c with mq := c.mq.map fun x => if x.eid == e.eid then { x with kc := kc, col := 0 } else x }

/-- Elements done of the row. -/
def setCol (e : MqEnt) (col : Nat) : M Unit :=
  modify fun s => s.modCore (coreOf e.cx) fun c =>
    { c with mq := c.mq.map fun x => if x.eid == e.eid then { x with col := col } else x }

/-- One row of MLD. -/
def mldRow (e : MqEnt) (t : ETy) (d cols i : Nat) : M Unit := do
  let xs ← readRow e (t.width / 8) i (List.range cols)
  let wide := t == .f64
  let put (a : Core × BitVec 5) (x : Nat × Nat) : Core × BitVec 5 :=
    let r := mldVal t x.1
    (a.1.setAccElem d wide (i * 128 + x.2) r.1, a.2 ||| r.2)
  let s ← get
  let (c, fl) := xs.zipIdx.foldl put (s.core (coreOf e.cx), 0)
  set (s.setCore (coreOf e.cx) c)
  flagTo e.cx fl
  setKc e (i + 1)

/-- Elements of a row from j on that lie in the aligned 8-byte word of element j. -/
def wordCount (va n j cols : Nat) : Nat := Nat.min (cols - j) ((8 - va % 8) / n)

/-- The elements of a row of MST from j on, whole aligned 8-byte words in one write each (R253); those written are kept in
the queue entry when the rest must wait. -/
def mstWords (e : MqEnt) (t : ETy) (r : RMode) (sat : Bool) (d cols i : Nat) : Nat → Nat → M Unit
  | 0, _ => return
  | fuel + 1, j => do
    if cols ≤ j then return
    let n := t.width / 8
    let va := matAddr e.wa e.wb n i j
    let c := (← get).core (coreOf e.cx)
    let xs := (List.range (wordCount va n j cols)).map fun m =>
      mstVal t r sat e.extn (c.accElem d (t == .f64) (i * 128 + (j + m)))
    let _ ← e.eng.write va (xs.flatMap fun x => natBytes x.1 n) 0
    flagTo e.cx (xs.foldl (fun a x => a ||| x.2) 0)
    setCol e (j + xs.length)
    mstWords e t r sat d cols i fuel (j + xs.length)

/-- One row of MST: every element's place is checked before one is written. -/
def mstRow (e : MqEnt) (t : ETy) (r : RMode) (sat : Bool) (d cols i : Nat) : M Unit := do
  let from_ := if i = e.kc then e.col else 0
  for j in List.range (cols - from_) do
    let _ ← e.eng.place (matAddr e.wa e.wb (t.width / 8) i (from_ + j)) (t.width / 8) .store
  mstWords e t r sat d cols i 129 from_
  setKc e (i + 1)

/-- Rows from the first not done: done, or the failure of a row. -/
def rowsFrom (row : Nat → M Unit) (rows : Nat) : Nat → Nat → MxM
  | 0, _ => return .done
  | fuel + 1, i => do
    if rows ≤ i then return .done
    let bad ← onFail (do row i; return none) fun c a => return some (c, a)
    match bad with
    | some (c, a) => return .fault (lateCause c) a i
    | none => rowsFrom row rows fuel (i + 1)

/-! ## One tile step (R230) -/

/-- What a queued instruction does in a tile step. DEDUCED: log entry 61. -/
def tileStep (cl : Nat) (e : MqEnt) : MxM := do
  match e.ins with
  | .mma _ ta tb d _ _ k => mmaStep cl e ta tb d.toNat k.toNat
  | .mcnt _ ta tb _ _ k bank => mcntStep cl e ta tb k.toNat bank
  | .mdrain _ d bank => mdrainStep cl e d.toNat bank
  | .mmerge _ => mmergeStep cl
  | .mzero _ d => do
    modify fun s => s.modCore (coreOf e.cx) fun c => c.clearAccs (· == d.toNat)
    return .done
  | .mld _ t d _ _ rows cols =>
    rowsFrom (mldRow e t d.toNat (cols.toNat + 1)) (rows.toNat + 1) 129 e.kc
  | .mst _ t r sat d _ _ rows cols =>
    rowsFrom (mstRow e t r sat d.toNat (cols.toNat + 1)) (rows.toNat + 1) 129 e.kc
  | _ => return .done

/-- Entries of a sequence ring by number. -/
def Ctx.setRing (c : Ctx) (q : BitVec 16) (h : SeqEntry → SeqEntry) : Ctx :=
  { c with ring := c.ring.map fun e => if e.seq = q then h e else e }

/-- The issue shadow as the unit's banks stand (R240). -/
def Ctx.reload (c : Ctx) (cl : Cluster) : Ctx :=
  let sh (b : Bank) : BankShadow := { depth := b.depth, ba := b.ba, bb := b.bb, ta := b.ta, tb := b.tb }
  { c with shadow0 := sh (cl.bank false), shadow1 := sh (cl.bank true) }

/-- The end of a queued instruction. -/
def State.mqDone (s : State) (e : MqEnt) : State :=
  let k := coreOf e.cx
  let s := s.modCore k fun c => { c with mq := c.mq.filter fun x => x.eid != e.eid }
  let s := s.modField (fieldOf k) fun f => f.dropTags e.eid
  (s.modCtx e.cx fun c => c.setRing e.seq fun r => { r with st := .done }).wake e.cx

/-- A queued instruction faults: it is recorded, and the later queued instructions of its context are not executed
(R232): the scale state is that of the faulting instruction (R239). DEDUCED: log entries 57, 58. -/
def State.mqFault (s : State) (e : MqEnt) (cause : Cause) (addr kc : Nat) : State :=
  let k := coreOf e.cx
  let later := ((s.core k).mq.filter fun x => x.tid == e.tid && x.eid != e.eid).map (·.seq)
  let s := s.modCore k fun c => { c with mq := c.mq.filter fun x => x.tid != e.tid }
  let s := s.modField (fieldOf k) fun f => f.dropTags e.eid
  let held := ((s.cluster (clusterOf k)).bankHolder.map (·.2)) == some e.tid
  let s := s.modCtx e.cx fun c =>
    let c := c.setRing e.seq fun r =>
      { r with st := .faulted, code := cause.code, progress := BitVec.ofNat 16 kc, addr := BitVec.ofNat 64 addr, untaken := true }
    let c := { c with ring := c.ring.map fun r => if later.contains r.seq then { r with st := .notexec } else r
                      mscl := e.mscl }
    if held then c.reload (s.cluster (clusterOf k)) else c
  s.wake e.cx

/-- The core that the unit serves next: the one it serves while its weight lasts, else the next whose queue is not empty
(R230). -/
def State.mxCore (s : State) (cl : Nat) : Option Nat :=
  let c := s.cluster cl
  let has (j : Nat) : Bool := !(s.core (clusterCore cl + j)).mq.isEmpty
  if c.rrLeft ≠ 0 ∧ has (c.rrCore % 8) then some (c.rrCore % 8)
  else ((List.range 8).map fun j => (c.rrCore + 1 + j) % 8).find? has

/-- MATRIX_EXECUTE: the unit takes a tile step of the core whose turn it is; an instruction that must wait for memory
gives up the core's turn; one whose writes the host has not acknowledged is not done. DEDUCED: log entry 61. -/
def matrixStep (cl : Nat) (s : State) : State :=
  match s.mxCore cl with
  | none => s
  | some j =>
    let k := clusterCore cl + j
    match (s.core k).mq with
    | [] => s
    | e :: _ =>
      let c := s.cluster cl
      let left := if c.rrLeft ≠ 0 ∧ j = c.rrCore % 8 then c.rrLeft else bits ((s.core k).reg 0x080) 0 4
      let turn (n : Nat) (s : State) : State := s.modCluster cl fun c => { c with rrCore := j, rrLeft := n }
      match tileStep cl e s with
      | .ok (.go kc) s' => turn (left - 1) (s'.after (setKc e kc))
      | .ok .done s' => if (s'.field (fieldOf k)).hostAwaits e.eid then turn 0 s' else turn (left - 1) (s'.mqDone e)
      | .ok (.fault cause a kc) s' => turn (left - 1) (s'.mqFault e cause a kc)
      | .error _ s' => turn 0 s'
end Sys2Proof.Machine
end

