-- ==== Sys2Proof/Machine/ItemEvents.lean ====
section
/-! DEFINITION. Steps that end items: status writes, tile replies, broadcasts, puts, remote atomics, and flits that are
lost (R248, R249, R263, R295, R299 to R305, R387). -/

namespace Sys2Proof.Machine

/-- An item that an issue number names in a field, with its core. -/
def State.itemOf (s : State) (f id : Nat) : Option (Nat × Item) :=
  s.cores.findSome? fun x => if fieldOf x.1 = f then (x.2.items.find? fun i => i.id == id).map fun i => (x.1, i) else none

/-! ## STATUS_WRITEBACK and TILE_REPLY (R249, R295) -/

/-- DEDUCED: log entry 32. -/
def execStatusWriteback (k item : Nat) (s : State) : Out :=
  match s.item? k item with
  | none => .next s
  | some i =>
    match i.kind with
    | .ramo .. | .tile .. => .next s
    | _ => .next (s.giveStatus k item)

/-- The reply of a tile form; that of TFWD SHARE comes after every line it pushes has been installed or refused. -/
def execTileReply (k item : Nat) (s : State) : Out :=
  match s.item? k item with
  | none => .next s
  | some i =>
    match i.kind with
    | .tile cl lines =>
      if (s.cluster cl).pushes.any fun (p : Nat × LineData × Bool) => lines.contains p.1 then .next s
      else .next (s.giveStatus k item)
    | _ => .next s

/-! ## MATRIX_EXECUTE and MBCAST_COMPLETE (R230, R248) -/

def execMatrixExecute (cl : Nat) (s : State) : Out := .next (matrixStep cl s)

/-- Clusters of the other positions of a broadcast bus that its mask names: a row (bus false) or a column. -/
def busClusters (cl : Nat) (bus : Bool) (mask : BitVec 8) : List Nat :=
  let n := cl % 40
  let f := cl / 40
  if bus then ((List.range 5).filter fun y => mask.getLsbD y).map fun y => f * 40 + y * 8 + n % 8
  else ((List.range 8).filter fun x => mask.getLsbD x).map fun x => f * 40 + n / 8 * 8 + x

/-- The writes of a broadcast: in every named cluster, into every named core. DEDUCED: log entry 68. -/
def State.broadcast (s : State) (cls : List Nat) (cores off : Nat) (bs : List Byte) : State :=
  (cls.flatMap fun cl => ((List.range 8).filter fun j => cores.testBit j).map fun j => clusterCore cl + j).foldl
    (fun s k => s.engineStore k off bs) s

/-- An earlier broadcast is on its way on a bus of a core: its row or its column. -/
def State.busTaken (s : State) (k id : Nat) (bus : Bool) : Bool :=
  s.cores.any fun x => busClusters (clusterOf x.1) bus 0xFF == busClusters (clusterOf k) bus 0xFF &&
    x.2.items.any fun j => decide (j.id < id) && j.status.isNone && match j.kind with
      | .mbcast _ b .. => b == bus
      | _ => false

/-- DEDUCED: log entry 68. -/
def execMbcastComplete (k item : Nat) (s : State) : Out :=
  match s.item? k item with
  | none => .next s
  | some i =>
    match i.kind with
    | .mbcast off bus mask words =>
      if i.status.isSome || s.busTaken k item bus then .next s
      else
        let s := s.broadcast (busClusters (clusterOf k) bus mask) i.at_ off (words.flatMap fun w => natBytes w.toNat 4)
        .next (s.endItem k i (mbWord codeDone))
    | _ => .next s

/-! ## PUT_LAND and PUT_COMPLETE (R299 to R301, R305) -/

/-- The engine that works on an item. -/
def Item.eng (i : Item) (k : Nat) : Eng :=
  { k := k, asid := i.asid, lvl := i.lvl, id := i.id, svc := i.cx == serviceCx (fieldOf k) }

/-- The core memory that a DK = 1 put names, of a retired core too: core and offset of a range of n bytes.
DESIGN CHOICE: log entry 123. -/
def putCore (f dst n : Nat) : M (Nat × Nat) := do
  match ((← get).locCore (BitVec.ofNat 32 (dst / 2 ^ 32))).filter fun k => fieldOf k == f with
  | none => failAt codeBadloc dst
  | some k => do
    let off := dst % 2 ^ 18
    if cmemSize < off + n then failAt codeBounds dst
    return (k, off)

/-- The word of a put's number, from its source. -/
def putWord (e : Eng) (src : Option Nat) (words : List Word) (j : Nat) : M (List Byte) :=
  match src with
  | some a => e.read (a + 8 * j) 8
  | none => return word8 (words.getD j 0)

/-- Moves the next word of a put: the flits sent for it. DEDUCED: log entry 66. -/
def putMove (e : Eng) (i : Item) (dst vc len : Nat) (dk : Bool) (src : Option Nat) (words : List Word) : M Nat := do
  let bs ← putWord e src words i.at_
  if dk then
    let (k, off) ← putCore e.f dst len
    if schedBad e.lvl none (off + 8 * i.at_) 8 then failAt codePerm dst
    modify fun s => s.engineStore k (off + 8 * i.at_) bs
    return 0
  else e.write (dst + 8 * i.at_) bs vc

/-- The increment of a put's counter. DEDUCED: log entries 66, 67. -/
def putCount (e : Eng) (dst ctr vc : Nat) (dk : Bool) : M Nat := do
  if dk then
    let (k, _) ← putCore e.f dst 0
    let off := ctr % 2 ^ 18
    if cmemSize < off + 8 then failAt codeBounds ctr
    if schedBad e.lvl none off 8 then failAt codePerm ctr
    let x := bytesNat (← coreBytes k off 8 ctr)
    modify fun s => s.engineStore k off (natBytes (x + 1) 8)
    return 0
  else e.increment ctr vc

/-- n words of a put from one on, from its source. -/
def putWords (e : Eng) (src : Option Nat) (words : List Word) (j n : Nat) : M (List Byte) :=
  match src with
  | some a => e.readLong (a + 8 * j) (8 * n)
  | none => return ((words.drop j).take n).flatMap word8

/-- The counter of a put to another module: its handle and offset, in an import of the destination's field (R299). -/
def putCounter (e : Eng) (dst ctr : Nat) : M (Nat × Nat) := do
  match ← e.place ctr 8 .store with
  | .peer slot off => do
    let s ← get
    let (kind, _, handle) := s.pimAt e.f slot
    if kind != 1 || s.vaDest e.f ctr != s.vaDest e.f dst then failAt codeBounds ctr
    return (handle.toNat, off)
  | _ => failAt codeBounds ctr

/-- A put sends its next flit of up to 256 bytes to another module; its last one carries the counter, which the receiver counts
when that flit has landed after the others of the put (R300, R318, R448). The words that it holds. -/
def putFlit (e : Eng) (i : Item) (dst ctr vc len : Nat) (cen : Bool) (src : Option Nat) (words : List Word) (slot off : Nat) :
    M Nat := do
  let n := Nat.min 32 (len / 8 - i.at_)
  let _ ← e.place (dst + 8 * i.at_) (8 * n) .store
  let bs ← putWords e src words i.at_ n
  let last := decide (i.at_ + n = len / 8)
  let put ← if cen then do
      let (h, o) ← putCounter e dst ctr
      pure (some (h, o, last))
    else pure none
  let s ← get
  let (_, f, handle) := s.pimAt e.f slot
  let body := FlitBody.data f handle.toNat off (8 * n) (BitVec.ofNat 2048 (bytesNat bs)) 0 put
  set (s.pushFlit e.f (bits (s.pimSrc e.f slot) 48 16) vc (8 * n) e.id (dst + 8 * i.at_) body)
  return n

/-- The import slot and offset of an address that lies in an import of another module. -/
def State.abroad (s : State) (k va : Nat) : Option (Nat × Nat) :=
  match s.space k va with
  | .peer slot off => if pimKind (s.pimCtl (fieldOf k) slot) = 1 then some (slot, off) else none
  | _ => none

/-- The next step of a put: a flit to another module; else a word, or the increment once every word has landed. -/
def putStep (k : Nat) (i : Item) : M Item := do
  let s ← get
  match i.kind with
  | .put dst ctr dk cen vc src len words =>
    let e := i.eng k
    if i.at_ < len / 8 then do
      waitIf (!s.mayLeave k i) .items
      match if dk then none else s.abroad k (dst + 8 * i.at_) with
      | some (slot, off) => do
        let n ← putFlit e i dst ctr vc len cen src words slot off
        let at_ := i.at_ + n
        return { i with at_ := if cen && at_ == len / 8 then at_ + 1 else at_, unacked := i.unacked + 1, away := true }
      | none => do
        let n ← putMove e i dst vc len dk src words
        let host := ((← get).field (fieldOf k)).hostAwaits i.id
        return { i with at_ := i.at_ + 1, unacked := i.unacked + n, away := i.away || n != 0 || host }
    else do
      waitIf (!cen || decide (len / 8 < i.at_) || i.unacked != 0 || (s.field (fieldOf k)).hostAwaits i.id) .items
      let n ← putCount e dst ctr vc dk
      return { i with at_ := i.at_ + 1, unacked := i.unacked + n, away := i.away || n != 0 }
  | _ => throw (.wait .items)

/-- A put fails: its unsent flits go, and what has landed stands. -/
def State.putFail (s : State) (k : Nat) (i : Item) (code : BitVec 8) : State :=
  let n := ((s.field (fieldOf k)).unsent i.id).length
  (s.modField (fieldOf k) fun f => f.cutFlits i.id).setItem k { i.withoutFlits n with bad := code }

/-- DEDUCED: log entry 66. -/
def execPutLand (cl item : Nat) (s : State) : Out :=
  match s.itemIn cl item with
  | none => .next s
  | some (k, i) =>
    if i.status.isSome || i.killed || i.bad != 0 then .next s
    else
      match putStep k i s with
      | .ok j s => .next (s.setItem k j)
      | .error (.fail c _) s => .next (s.putFail k i c)
      | .error _ s => .next s

/-- The code that a put ends with, once every acknowledgement has come. -/
def Item.putCode (i : Item) : Option (BitVec 8) :=
  if !i.isPut || i.status.isSome || i.unacked != 0 then none
  else if i.killed && !(i.landed && i.bad == 0) then some codeKilled
  else if i.bad != 0 then some i.bad
  else if i.landed then some codeDone
  else none

def execPutComplete (cl item : Nat) (s : State) : Out :=
  match s.itemIn cl item with
  | none => .next s
  | some (k, i) =>
    match i.putCode with
    | none => .next s
    | some code => if (s.field (fieldOf k)).hostAwaits i.id then .next s else .next ((s.modField (fieldOf k) fun f => f.dropTags i.id).endItem k i (itemWord i.vc code false 0))

/-! ## RAMO_EXECUTE and RAMO_REPLY (R302, R303) -/

/-- The result of a RAMO is on its way back. -/
def Item.ended (i : Item) (res : Except (BitVec 8) (Nat × BitVec 5)) : Item :=
  match res with
  | .ok (old, fl) => { i with old := BitVec.ofNat 128 old, flags := fl, status := some 0 }
  | .error code => { i with bad := (lateCause code).code, status := some 0 }

/-- A RAMO in the cluster of the owner of the line's tile: it executes in that cluster's L2 (R112). -/
def ramoNear (k : Nat) (i : Item) (l va : Nat) (op : AtOp) (n b c : Nat) (sync : Bool) : M Item := do
  let _ ← engineLine (clusterOf k) l
  if sync then publishLine (clusterOf k) l (va % 64) n
  let x ← engineLine (clusterOf k) l
  if x.bad (beOf (va % 64) n) then failAt codeUe va
  let old := oldIn x.data (va % 64) n
  let (new, wr, fl) := AtOp.apply op n old b c
  if wr then engineWrite (clusterOf k) l (placeBytes (natBytes new n) (va % 64)) (beOf (va % 64) n)
  return i.ended (.ok (old, fl))

/-- A RAMO on a line of its own field: at the home, or at the rim where the line is absent. -/
def ramoHome (k : Nat) (i : Item) (asid : BitVec 16) (va : Nat) (op : AtOp) (dw : Bool) (b c : BitVec 128)
    (sync : Bool) : M Item := do
  let f := fieldOf k
  let l := lineKey asid va
  let n := AtOp.bytes op dw
  if (← get).tileNear f (clusterOf k) l then return ← ramoNear k i l va op n b.toNat c.toNat sync
  afterHome f l
  homeCollect f l (some (clusterOf k))
  let s ← get
  let h := s.hline f l
  if h.present then
    if h.poison then failAt codeUe va
    let (s, r) := s.homeApply f l (va % 64) op n b.toNat c.toNat
    set s
    return i.ended (.ok r)
  else
    if h.dirty != 0 then
      let _ ← homeLine f l va
    set (s.postRim f { id := 0, kind := .atomic, va := va, asid := asid, core := none, cx := none
                       op := some (op, dw, b, c), item := some (k, i.id) })
    return { i with away := true }

/-- A remote atomic that acquires or releases meets marks on its words of the field shared window: they are published
first, and go (R258 to R260). DEDUCED: log entry 19. -/
def publishOn (f off n tid : Nat) : M Unit := do
  let ms := marksOn ((← get).field f).shmMarks off n
  overMark ms off n tid
  modify fun s => ms.foldl (fun s m => s.raisePts m.core m.stamp) s
  modify fun s => s.modField f fun x => { x with shmMarks := unmark x.shmMarks off n }

/-- A RAMO arrives at the home of its target. -/
def ramoRun (k : Nat) (i : Item) (va : Nat) (op : AtOp) (dw : Bool) (b c : BitVec 128) (vc : Nat) (sync : Bool) :
    M Item := do
  let n := AtOp.bytes op dw
  waitIf (!(← get).mayLeave k i) .items
  match ← (i.eng k).place va n .atomic with
  | .paged asid => ramoHome k i asid va op dw b c sync
  | .shared off => do
    let f := fieldOf k
    if sync then publishOn f off n i.tid
    let old := bytesNat (Mem.readBytes ((← get).field f).shm off n)
    let (new, wr, fl) := AtOp.apply op n old b.toNat c.toNat
    if wr then
      modify fun s => s.modField f fun fd => { fd with shm := Mem.writeBytes fd.shm off (natBytes new n) }
    return i.ended (.ok (old, fl))
  | .peer slot off => do
    let s ← get
    let (kind, f, handle) := s.pimAt (fieldOf k) slot
    if kind = 1 then
      let x := FlitBody.ramo f handle.toNat off op dw b c i.id
      set (s.pushFlit (fieldOf k) (bits (s.pimSrc (fieldOf k) slot) 48 16) vc (2 * n) i.id va x)
      return { i with away := true }
    else do
      let (a, asid) ← exportAt f (some (fieldOf k)) handle off n va false true
      let r ← onFail (gateAtomic f asid a true op n b.toNat c.toNat) fun c _ => failAt c va
      return i.ended (.ok r)
  | _ => failAt codePerm va

def execRamoExecute (k item : Nat) (s : State) : Out :=
  match s.item? k item with
  | none => .next s
  | some i =>
    match i.kind with
    | .ramo va op dw b c _ vc acq rel =>
      if i.status.isSome || i.away then .next s
      else
        match ramoRun k i va op dw b c vc (acq || rel) s with
        | .ok j s => .next (s.setItem k j)
        | .error (.fail code _) s => .next (s.setItem k (i.ended (.error code)))
        | .error _ s => .next s
    | _ => .next s

/-- What a RAMO's reply leaves in its context: gd and the ring entry, or a late fault. -/
def Ctx.ramoDone (c : Ctx) (i : Item) (va : Nat) (op : AtOp) (dw : Bool) (seq : BitVec 16) : Ctx :=
  let mine := c.pend.any fun p => p.2 == i.id
  let d := BitVec.ofNat 6 i.gd
  let c := c.unpend i.id
  if i.bad != 0 then
    c.setRing seq fun e => { e with st := .faulted, code := i.bad, addr := BitVec.ofNat 64 va, untaken := true }
  else
    let n := AtOp.bytes op dw
    let c := (c.orFlags i.flags).setRing seq fun e => { e with st := .done }
    if !mine then c
    else if n = 16 then (c.wg d (i.old.setWidth 64)).wg (d + 1) (i.old.extractLsb' 64 64)
    else c.wg d (AtOp.result op n i.old.toNat)

def execRamoReply (k item : Nat) (s : State) : Out :=
  match s.item? k item with
  | none => .next s
  | some i =>
    match i.kind with
    | .ramo va op dw _ _ seq _ acq _ =>
      if i.status.isNone then .next s
      else
        match s.ctxOfTask k i.tid with
        | some c =>
          let s := s.setCtx c ((s.ctx c).ramoDone i va op dw seq).wake
          let s := if acq && i.bad == 0 then s.acquireAll k else s
          .next (s.dropItem k item)
        | none => if (s.core k).saved.any fun v => v.task.tid == i.tid then .next s else .next (s.dropItem k item)
    | _ => .next s

/-! ## ORPHAN_FLIT (R387) -/

/-- The record of a channel of a cluster that a number names: by its own number, or by its item. -/
def State.recNamed (s : State) (cl id : Nat) : Option (Nat × RunRec) :=
  (List.range 4).findSome? fun ch => match (s.chanOf cl ch).cur with
    | some r => if (r.id = id ∨ (r.ent.chain = false ∧ r.ent.item = id)) ∧ r.st = .move then some (ch, r) else none
    | none => none

/-- The link-tag entry of a discarded flit completes with an error: a message returns to its sender, an item or an
access ends with UE. DEDUCED: log entry 107. -/
def State.orphaned (s : State) (k id : Nat) : State :=
  let f := fieldOf k
  match s.recNamed (clusterOf k) id with
  | some (ch, r) => s.setCur (clusterOf k) ch (some { r with st := .finish, code := codeUe })
  | none =>
  match s.item? k id with
  | some i =>
    if i.status.isSome then s
    else
      match i.kind with
      | .ramo .. => s.setItem k (i.ended (.error codeUe))
      | .put .. => if i.over then s else s.putFail k i codeUe
      | .mbcast .. => s.endItem k i (mbWord codeUe)
      | _ => s
  | none =>
  match (s.field f).msgs.find? fun m => m.id == id && m.st == .flying with
  | some m =>
    let back (x : Msg) : Msg := if x.id = m.id then { x with st := .returning 6 } else x
    s.modField f fun fd => { fd with msgs := fd.msgs.map back }
  | none =>
  match s.hreq? f id with
  | some r => s.failHReq f r codeUe
  | none =>
  match s.peer? f id with
  | some p => s.endPeer f p (.error codeUe)
  | none => s

/-- A flit whose header cannot be corrected; id: the request, message or item that its link-tag entry names.
DEDUCED: log entry 107. -/
def execOrphanFlit (k item : Nat) (s : State) : Out :=
  .next ((s.orphaned k item).logErr (fieldOf k) .orphan { syn := 5, kind := 2, loc := locator k })

end Sys2Proof.Machine
end

