-- ==== Sys2Proof/Machine/BeyondEvents.lean ====
section
/-! DEFINITION. Exports and imports, the optical port groups and the time base (R315, R316, R318 to R322). -/

namespace Sys2Proof.Machine

/-! ## Exports (R315) -/

/-- RW fields of HEXCTL other than EN. -/
def hexMask : Word := 0x601FFFFFFFFFFFFF#64
def genOf (ctl : Word) : Nat := bits ctl 53 8

/-- A write of HEXCTL of an entry: ignored where it changes an enabled entry's other fields; clearing EN counts the
generation. -/
def Field.hexctl (f : Field) (x : Nat) (v : Word) : Field :=
  let n := bankReg 0xA0A x
  let old := f.reg n
  if old.getLsbD 63 then
    if v &&& hexMask != old &&& hexMask || v.getLsbD 63 then f
    else f.setReg n (setBits (setBits old 63 1 0) 53 8 ((genOf old + 1) % 256))
  else f.setReg n ((old &&& ~~~(hexMask ||| 0x8000000000000000#64)) ||| (v &&& (hexMask ||| 0x8000000000000000#64)))

/-- The handle of a flit that reaches memory. -/
def FlitBody.handle? : FlitBody → Option Nat
  | .data _ h .. | .inc _ h _ | .ramo _ h .. => some h
  | _ => none

/-- An access in flight under an older generation of an entry: of a field of this module, or accepted from another module.
DEDUCED: log entry 103. -/
def Field.oldPeers (f : Field) (x : Nat) : Bool :=
  let old (h : Nat) : Bool := h % 256 == x && h / 2 ^ 24 != genOf (f.reg (bankReg 0xA0A x))
  (f.peers.any fun p => p.tag.isNone && old p.handle.toNat) || f.optical.landing.any fun e => (FlitBody.handle? e.1.body).any old

/-- The entry that HEXSEL names takes the value. -/
def State.hexWrite (s : State) (f : Nat) (v : Word) : State := s.modField f fun fd => fd.hexctl (bits (fd.reg 0xA08) 0 8) v

/-- The key of a HEXCTL write of an entry that waits. -/
def hexKey (x : Nat) : Nat := 2 ^ 16 + x

/-- The write, made once; it completes when no access is in flight under an old handle of its entry. DEDUCED: log entry 103. -/
def hexctlWrite (f : Nat) (v : Word) : M Unit := do
  let x ← match (← me).sent with
    | some e => pure (e.key - hexKey 0)
    | none => do
      let x := bits (((← get).field f).reg 0xA08) 0 8
      let id ← freshId
      modify fun s => s.hexWrite f v
      modMe fun c => { c with sent := some { id := id, key := hexKey x } }
      pure x
  waitIf (((← get).field f).oldPeers x) .memory
  modMe fun c => { c with sent := none }

def execExportDisable (f : Nat) (v : Word) (s : State) : Out := if v.getLsbD 63 then .next s else .next (s.hexWrite f v)
def execExportEnable (f : Nat) (v : Word) (s : State) : Out := if v.getLsbD 63 then .next (s.hexWrite f v) else .next s

/-! ## Imports (R316, R317) -/

def hostMod : Nat := 0xFFFF

/-- PIMCTL of a slot refused: EN stays. DEDUCED: log entry 102. -/
def Field.importRefuse (f : Field) (slot ecode : Nat) : Field :=
  let n := bankReg 0xA0E slot
  f.setReg n (setBits (setBits (f.reg n) 62 1 1) 58 4 ecode)

/-- PIMCTL of a slot enabled: ERR and ECODE cleared; the import keeps the source that it was granted for, whatever is
written to PIMSRC while it lives. DESIGN CHOICE: log entry 124. -/
def Field.importOk (f : Field) (slot kind : Nat) (rd wr : Bool) (size : Nat) (src : Word) : Field :=
  { f with impSrc := SMap.put f.impSrc slot src }.setReg (bankReg 0xA0E slot) (BitVec.ofNat 64
    (2 ^ 63 + kind * 2 ^ 56 + (if rd then 2 ^ 55 else 0) + (if wr then 2 ^ 54 else 0) + size % 2 ^ 21))

/-- A write of EN = 0: the import ends; RD, WR and SIZE are written for a host import. -/
def Field.importOff (f : Field) (slot : Nat) (v : Word) : Field :=
  let n := bankReg 0xA0E slot
  let old := setBits (f.reg n) 63 1 0
  let rw : Word := 0xC00000001FFFFF#64
  let host := bits (SMap.get f.impSrc slot (f.reg (bankReg 0xA0D slot))) 48 16 == hostMod
  { f with impSrc := SMap.del f.impSrc slot }.setReg n (if host then (old &&& ~~~rw) ||| (v &&& rw) else old)

/-- Sends an import request: over the optical port group to another module. DEDUCED: log entry 102. -/
def State.askImport (s : State) (f slot : Nat) : State :=
  let src := (s.field f).reg (bankReg 0xA0D slot)
  let mod := bits src 48 16
  let r : Import := { id := s.fresh, slot := slot, ns := s.ns, src := src }
  let s := (s.modField f fun fd => { fd with imports := fd.imports ++ [r] }).bump
  if mod = 0 ∨ mod = s.modId then s
  else s.pushFlit f mod 4 0 0 0 (.importReq (bits src 44 4) (bits src 0 32) f slot r.id)

/-- A write of PIMCTL that needs no reply, or the sending of the request; false while a reply is awaited. -/
def State.pimctl (s : State) (f : Nat) (v : Word) : State × Bool :=
  let fd := s.field f
  let slot := bits (fd.reg 0xA0C) 0 10
  let src := fd.reg (bankReg 0xA0D slot)
  let on := (fd.reg (bankReg 0xA0E slot)).getLsbD 63
  if !v.getLsbD 63 then (s.modField f fun fd => fd.importOff slot v, true)
  else if on || (bits src 48 16 != hostMod && bits src 32 12 != 0) then (s.modField f fun fd => fd.importRefuse slot 5, true)
  else if bits src 48 16 = hostMod then
    (s.modField f fun fd => fd.importOk slot 2 (v.getLsbD 55) (v.getLsbD 54) (bits v 0 21) src, true)
  else (s.askImport f slot, false)

/-- A request of a slot is out. -/
def Field.asking (f : Field) (slot : Nat) : Bool := f.imports.any fun i => i.slot == slot

/-- SWR of PIMCTL by the issuing context: it completes when the request it has sent has ended.
DEDUCED: log entry 102. -/
def pimctlWrite (f : Nat) (v : Word) : M Unit := do
  match ← takeReply 0 with
  | some _ => pure ()
  | none => do
    let s ← get
    waitIf ((s.field f).asking (bits ((s.field f).reg 0xA0C) 0 10)) .memory
    let (s', done) := s.pimctl f v
    set s'
    if !done then
      modMe fun c => { c with sent := some { id := s.fresh } }
      throw (.wait .memory)

def execImportEnable (f : Nat) (v : Word) (s : State) : Out :=
  if v.getLsbD 63 && !(s.field f).asking (bits ((s.field f).reg 0xA0C) 0 10) then .next (s.pimctl f v).1 else .next s

/-- The exporter's answer to a request of a field of a module (Table 15-3): ECODE, RD, WR, SIZE. -/
def State.exportAnswer (s : State) (f handle mod fromField : Nat) : Nat × Bool × Bool × Nat :=
  let ctl := (s.field f).reg (bankReg 0xA0A (handle % 256))
  let em := bits ctl 37 16
  if handle / 256 % 65536 != 0 || !ctl.getLsbD 63 || genOf ctl != handle / 2 ^ 24 then (1, false, false, 0)
  else if !((em == 0 && mod == 0) || (em != 0 && em == (if mod = 0 then s.modId else mod))) || !ctl.getLsbD (21 + fromField % 16) then
    (2, false, false, 0)
  else if mod = 0 && (s.partOf f != s.partOf fromField || (s.partOf f).isNone) then (3, false, false, 0)
  else (0, ctl.getLsbD 62, ctl.getLsbD 61, bits ctl 0 21)

/-- Records the reply of the request of a number that is out. -/
def Field.importReplied (f : Field) (id : Nat) (r : Nat × Bool × Bool × Nat) : Field :=
  let one (i : Import) : Import := if i.id = id ∧ i.reply.isNone then { i with reply := some r } else i
  { f with imports := f.imports.map one }

/-- The exporter of a request on this module checks it and replies. -/
def execImportRequest (f fromField handle slot : Nat) (s : State) : Out :=
  match (s.field fromField).imports.find? fun i => i.slot == slot && i.reply.isNone with
  | none => .next s
  | some i =>
    let mod := bits i.src 48 16
    if (mod == 0 || mod == s.modId) && bits i.src 44 4 == f && bits i.src 0 32 == handle then
      .next (s.modField fromField fun fd => fd.importReplied i.id (s.exportAnswer f handle 0 fromField))
    else .next s

/-- A request ends: the slot is enabled or refused, and the SWR that sent it completes. -/
def State.endImport (s : State) (f : Nat) (i : Import) (r : Nat × Bool × Bool × Nat) : State :=
  let mod := bits i.src 48 16
  let kind := if mod = 0 ∨ mod = s.modId then 0 else 1
  let s := s.modField f fun fd =>
    let fd := { fd with imports := fd.imports.filter fun x => x.id != i.id }
    if r.1 = 0 then fd.importOk i.slot kind r.2.1 r.2.2.1 r.2.2.2 i.src else fd.importRefuse i.slot r.1
  match List.find? (fun (x : Nat × Ctx) => fieldOf (coreOf x.1) == f && (x.2.sent.map (·.id)) == some i.id) s.ctxs with
  | none => s
  | some x => s.replyTo x.1 i.id 0 0

def execImportReply (f slot : Nat) (s : State) : Out :=
  match (s.field f).imports.find? fun i => i.slot == slot && i.reply.isSome with
  | none => .next s
  | some i => .next (s.endImport f i (i.reply.getD (4, false, false, 0)))

def execImportTimeout (f slot : Nat) (s : State) : Out :=
  match (s.field f).imports.find? fun i => i.slot == slot && i.reply.isNone && decide (i.ns + 1000000 ≤ s.ns) with
  | none => .next s
  | some i => .next (s.endImport f i (4, false, false, 0))

/-! ## The slot tables (R318, R319) -/

def slotLen (w : Word) : Nat := bits w 37 10 * 1000
def slotGuard (w : Word) : Nat := bits w 30 7 * 100
def slotDest (w : Word) : Nat := bits w 47 16

/-- A write of OSLOTs is ignored. -/
def slotBad (w : Word) (modId : Nat) : Bool :=
  let l := bits w 37 10
  let g := bits w 30 7
  l == 0 || decide (1000 < l) || g == 0 || decide (100 < g) || decide (slotLen w ≤ slotGuard w) ||
    (w.getLsbD 63 && (slotDest w == 0 || slotDest w == 0xFFFF || slotDest w == modId))

/-- Slots 0 to NM1 as they stand, and their period in ns. -/
def Field.slots (f : Field) : List Word := (List.range (bits (f.reg 0xA10) 0 6 + 1)).map fun i => f.reg (0xA40 + i)
/-- DEDUCED: log entry 104. -/
def period (t : List Word) : Nat := t.foldl (fun a w => a + slotLen w) 0

/-- The rotations that have started by a time: the first at its start, every later one where the one before it ended, with
the slots as they stand then (R319). DEDUCED: log entry 104. -/
def Field.rotated (f : Field) (now : Nat) : Field :=
  let o := f.optical
  let at_ := o.rotStart + period o.table
  let p := period f.slots
  if o.running && decide (at_ ≤ now) && p != 0 then
    let more := (now - at_) / p
    { f with optical := { o with rotStart := at_ + more * p, table := f.slots, open_ := none
                                 rot := (if o.table.isEmpty then o.rot else o.rot + 1) + more } }
  else f

/-- A write of OSLOTs, in force from the next rotation that starts. -/
def Field.oslot (f : Field) (now modId n : Nat) (v : Word) : Field :=
  let f := f.rotated now
  if slotBad v modId then f.setReg 0xA12 (setBits (f.reg 0xA12) 63 1 1)
  else f.setReg (0xA40 + n) (v &&& ~~~0x3F000000#64)

def execOslotWrite (f n : Nat) (v : Word) (s : State) : Out :=
  if n < 64 then .next (s.modField f fun fd => fd.oslot s.ns s.modId n v) else .next s

/-- The first T0 + k × P that is not earlier than a time. -/
def firstStart (t0 p now : Nat) : Nat := if now ≤ t0 then t0 else t0 + (now - t0 + p - 1) / p * p

/-- A write of OCTL: the schedule starts, or stops. -/
def Field.octl (f : Field) (now : Nat) (v : Word) : Field :=
  let was := (f.reg 0xA10).getLsbD 63
  let f := (f.rotated now).setReg 0xA10 (v &&& 0x800000000000003F#64)
  let o := f.optical
  if v.getLsbD 63 then
    if was then f
    else { f with optical := { o with running := true, table := [], open_ := none
                                      rotStart := firstStart (f.reg 0xA11).toNat (period f.slots) now } }
  else { f with optical := { o with running := false, table := [], open_ := none } }

def execOpticalStart (f : Nat) (v : Word) (s : State) : Out :=
  if v.getLsbD 63 then .next (s.modField f fun fd => fd.octl s.ns v) else .next s

/-- The slot of a rotation at a time from its start: its number, its word, and its start. -/
def slotAt (t : List Word) (d : Nat) : Option (Nat × Word × Nat) := go t 0 0
where
  go : List Word → Nat → Nat → Option (Nat × Word × Nat)
    | [], _, _ => none
    | w :: t, n, b => if d < b + slotLen w then some (n, w, b) else go t (n + 1) (b + slotLen w)

/-- OSTAT (Table 15-4). -/
def Field.ostat (f : Field) (now : Nat) : Word :=
  let o := (f.rotated now).optical
  let cur := ((slotAt o.table (now - o.rotStart)).map (·.1)).getD 0
  BitVec.ofNat 64 (bits (f.reg 0xA12) 63 1 * 2 ^ 63 + cur * 2 ^ 32 + o.rot % 2 ^ 32)

/-! ## Transmit windows (R320, R321) -/

/-- A flit may be sent in an occurrence: a put's goes in the next one that starts after it was queued (R449, R450); the reply
class answers at once. DEDUCED: log entry 104. -/
def OFlit.due (x : OFlit) (start : Nat) : Bool := !x.sent && (x.vc == 4 || x.seq.isSome || decide (x.since < start))

/-- The head flit of a virtual channel that has not been sent in the occurrence that started at a time. -/
def headOf (q : List OFlit) (vc start : Nat) : Option OFlit := q.find? fun x => x.vc == vc && x.due start

def Flit.isAck (x : Flit) : Bool :=
  match x.body with
  | .ack .. => true
  | _ => false

/-- Marks the head flit of a VC as sent, with its sequence number. -/
def markSent (vc seq start : Nat) : List OFlit → List OFlit
  | [] => []
  | x :: t =>
    if x.vc == vc && x.due start then { x with sent := true, seq := some (x.seq.getD seq) } :: t else x :: markSent vc seq start t

/-- Sends the head flit of a VC to a module. An acknowledgement leaves the queue: it comes again with a duplicate of its flit
(R321). DEDUCED: log entries 105, 106. -/
def State.sendFlit (s : State) (f dest vc start : Nat) (x : OFlit) : State :=
  let o := (s.field f).optical
  let key := dest * 8 + vc
  let next := SMap.get o.sendSeq key 0
  let seq := x.seq.getD next
  let ack := Flit.isAck x.flit
  let y : OFlit := { x with sent := true, seq := some seq }
  let take (q : List OFlit) : List OFlit := (markSent vc seq start q).filter fun z => !(ack && z == y)
  let s := s.modField f fun fd =>
    { fd with optical := { fd.optical with
        queues := fd.optical.queues.map fun q => if q.1 = dest then (dest, take q.2) else q
        acks := fd.optical.acks ++ (if ack then [(dest, y)] else [])
        sendSeq := if x.seq.isNone then SMap.put fd.optical.sendSeq key (next + 1) else fd.optical.sendSeq } }
  s.emit (.flit f { x.flit with seq := seq })

def Field.queueTo (f : Field) (dest : Nat) : List OFlit := SMap.get f.optical.queues dest []

/-- The VC that sends next: the first, from the one whose turn it is, whose head flit fits the budget.
DEDUCED: log entry 104. -/
def nextVc (q : List OFlit) (rr budget start : Nat) : Option (Nat × OFlit) :=
  ((List.range 4).map fun i => (rr + i) % 4).findSome? fun vc =>
    match headOf q vc start with
    | some x => if x.bytes ≤ budget then some (vc, x) else none
    | none => none

/-- Serves the queue of a destination in an occurrence that started at a time, while flits fit: the reply class first. -/
def State.serveQueue (s : State) (f dest start : Nat) : Nat → State
  | 0 => s
  | n + 1 =>
    let fd := s.field f
    let q := fd.queueTo dest
    match headOf q 4 start with
    | some x => (s.sendFlit f dest 4 start x).serveQueue f dest start n
    | none =>
      match fd.optical.open_ with
      | none => s
      | some (slot, budget) =>
        match nextVc q fd.optical.rr budget start with
        | none => s
        | some (vc, x) =>
          ((s.sendFlit f dest vc start x).modField f fun fd =>
            { fd with optical := { fd.optical with rr := (vc + 1) % 4, open_ := some (slot, budget - x.bytes) } }).serveQueue f dest start n

/-- The window of an occurrence opens: what is unacknowledged is to be sent again. DEDUCED: log entry 104. -/
def Field.openWindow (f : Field) (slot budget dest : Nat) : Field :=
  let again (q : Nat × List OFlit) : Nat × List OFlit :=
    if q.1 = dest then (q.1, q.2.map fun x => { x with sent := false }) else q
  { f with optical := { f.optical with open_ := some (slot, budget), queues := f.optical.queues.map again } }

/-- The start of the slot that runs. -/
def Field.slotStart (f : Field) (now : Nat) : Nat :=
  let o := (f.rotated now).optical
  o.rotStart + ((slotAt o.table (now - o.rotStart)).map (·.2.2)).getD 0

/-- The transmit window of the slot that runs: slot, destination and budget in bytes; none outside it. -/
def Field.window (f : Field) (now : Nat) : Option (Nat × Nat × Nat) :=
  let o := (f.rotated now).optical
  if !o.running || decide (now < o.rotStart) || o.fibres == 0 then none
  else
    match slotAt o.table (now - o.rotStart) with
    | none => none
    | some (n, w, b) =>
      let d := now - o.rotStart - b
      if w.getLsbD 63 && decide (slotGuard w ≤ d) && decide (d + slotGuard w < slotLen w) then
        some (n, slotDest w, bits w 0 24 * 256)
      else none

def execSlotWindowOpen (f : Nat) (s : State) : Out :=
  let s := s.modField f fun fd => fd.rotated s.ns
  if !s.locked then .next s
  else
    match (s.field f).window s.ns with
    | none => .next s
    | some (n, dest, budget) =>
      let on := ((s.field f).optical.open_.map (·.1)) == some n
      let s := if on then s else s.modField f fun fd => fd.openWindow n budget dest
      .next (s.serveQueue f dest ((s.field f).slotStart s.ns) ((s.field f).queueTo dest).length)

def execSlotWindowClose (f : Nat) (s : State) : Out :=
  let s := s.modField f fun fd => fd.rotated s.ns
  let o := (s.field f).optical
  let now := ((s.field f).window s.ns).map (·.1)
  if o.open_.isSome && now != o.open_.map (·.1) then
    .next (s.modField f fun fd => { fd with optical := { fd.optical with open_ := none } })
  else .next s

/-! ## Flits that arrive (R318, R320, R321) -/

/-- A flit that has been accepted has landed so far. -/
def State.landedTo (s : State) (f : Nat) (x : Flit) (n : Nat) : State :=
  s.modField f fun fd => { fd with optical := { fd.optical with
    landing := fd.optical.landing.map fun e => if e.1 = x then (x, n) else e } }

/-- Writes bytes at a home from one on, line by line; mark: what is noted after each line, of the bytes written so far. -/
def gateBytes (f : Nat) (asid : BitVec 16) (va : Nat) (bs : List Byte) (edge : BitVec 2) (mark : Nat → M Unit) : Nat → Nat → M Unit
  | 0, _ => return ()
  | n + 1, d =>
    if bs.length ≤ d then return ()
    else do
      let k := Nat.min (64 - (va + d) % 64) (bs.length - d)
      let here : BitVec 2 := (if d = 0 then edge &&& 1 else 0) ||| (if d + k = bs.length then edge &&& 2 else 0)
      gateWrite f asid (va + d) ((bs.drop d).take k) here
      mark (d + k)
      gateBytes f asid va bs edge mark n (d + k)

/-- The acknowledgement of payload of a record: a refused element halts it, or is to be sent again too when the record has
halted elsewhere (R157). o: its ordinal. -/
def State.payloadAcked (s : State) (cl ch : Nat) (r : RunRec) (x : OFlit) (o : Nat) (code : BitVec 8) : State :=
  if code = codeDone then s.setCur cl ch (some r)
  else
    match r.st with
    | .halted .. => s.setCur cl ch (some (if r.code = 0 then r.goto (Nat.min o r.pos) else r))
    | _ => if r.open_ then s.recFail cl ch { r.goto o with code := 0 } code (x.va + 2 ^ 64) o
      else s.setCur cl ch (some r)

/-- The acknowledgement of a flit of an item or a record, with the code of what landed: of a record, payload, or its
completion word or increment (R157, R158). -/
def State.flitAcked (s : State) (f : Nat) (x : OFlit) (code : BitVec 8) : State :=
  match s.itemOf f x.flit.item with
  | some (k, i) =>
    if i.isPut then
      let i := { i with unacked := i.unacked - 1 }
      if code = codeDone ∨ i.bad ≠ 0 then s.setItem k i else s.putFail k i code
    else s
  | none =>
    let chans := (List.range 40).flatMap fun n => (List.range 4).map fun ch => (f * 40 + n, ch)
    match chans.findSome? fun c => ((s.chanOf c.1 c.2).cur.filter fun r => r.id == x.flit.item).map fun r => (c, r) with
    | none => s
    | some ((cl, ch), r) =>
      match takeFlit x.va r.unacked with
      | (some o, t) => s.payloadAcked cl ch { r with unacked := t } x o code
      | (none, _) =>
        let r' := { r with cwFlits := r.cwFlits - 1 }
        if code = codeDone then s.setCur cl ch (some r')
        else s.recFail cl ch { r' with wroteCw := false } code (x.va + 4 * 2 ^ 64) r.pos

/-- An acknowledgement retires its flit. -/
def State.opticalAck (s : State) (f dest vc seq : Nat) (code : BitVec 8) : State :=
  match ((s.field f).queueTo dest).find? fun x => x.vc == vc && x.seq == some seq with
  | none => s
  | some x =>
    let drop (q : Nat × List OFlit) : Nat × List OFlit :=
      if q.1 = dest then (dest, q.2.filter fun y => !(y.vc == vc && y.seq == some seq)) else q
    let old (e : Nat × OFlit) : Bool := e.1 == dest && vc == 4 && decide (e.2.seq.getD 0 < seq)
    (s.modField f fun fd => { fd with optical := { fd.optical with
      queues := fd.optical.queues.map drop, acks := fd.optical.acks.filter fun e => !old e } }).flitAcked f x code

def execOpticalAck (f dest vc seq code : Nat) (s : State) : Out :=
  if s.locked then .next (s.opticalAck f dest vc seq (BitVec.ofNat 8 code)) else .next s

/-- The reply of a RAMO that travelled to another module, from the field that it went to. -/
def State.ramoBack (s : State) (f : Nat) (x : Flit) (item code : Nat) (old : BitVec 128) (fl : BitVec 5) : State :=
  match s.itemOf f item with
  | none => s
  | some (k, i) =>
    if i.status.isSome || s.itemDest k i != (x.src, x.srcField) then s
    else s.setItem k (i.ended (if code = codeDone.toNat then .ok (old.toNat, fl) else .error (BitVec.ofNat 8 code)))

/-- Another module's import request is checked and answered. -/
def State.importAsked (s : State) (f src handle srcField slot id : Nat) : State :=
  let r := s.exportAnswer f handle src srcField
  s.pushFlit f src 4 0 0 0 (.importReply srcField slot r.1 r.2.1 r.2.2.1 r.2.2.2 id)

/-- The reply to an import request that travelled to another module: it answers that request only, and only where the field asked
sends it (R15, R316). -/
def State.importBack (s : State) (f : Nat) (x : Flit) (id : Nat) (r : Nat × Bool × Bool × Nat) : State :=
  let mine (i : Import) : Bool := i.id == id && bits i.src 48 16 == x.src && bits i.src 44 4 == x.srcField
  if (s.field f).imports.any mine then s.modField f fun fd => fd.importReplied id r else s

/-- A field that receives data, an increment or an atomic for another field refuses it: its port group is its own (R16).
DESIGN CHOICE: log entry 108. -/
def ownFlit (f g : Nat) : M Unit := if f = g then pure () else failAt codePerm 0

/-- The receiver's next sequence number for a source and VC. DEDUCED: log entry 106. -/
def recvKey (x : Flit) : Nat := (x.src * 16 + x.srcField % 16) * 8 + x.vc % 8

/-- Adds 1 to a counter of the field. -/
def incLands (f handle off : Nat) : M Unit := do
  let (a, asid) ← exportAt f none (BitVec.ofNat 32 handle) off 8 0 false true
  let _ ← gateAtomic f asid a false .add 8 1 0

/-- The last flit of a put counts, unless a flit of the put has failed here (R300). -/
def putCounts (f : Nat) (x : Flit) (put : Option (Nat × Nat × Bool)) : M Unit := do
  match put with
  | some (handle, off, true) =>
    match ((← get).field f).optical.failed.find? fun e => e.1 == recvKey x && e.2.1 == x.item with
    | some e => failAt e.2.2 0
    | none => incLands f handle off
  | _ => pure ()

/-- What a flit does where it lands; n: bytes of it that have landed before. -/
def flitLands (f : Nat) (x : Flit) (n : Nat) : M Unit := do
  match x.body with
  | .data g handle off len bs edge put => do
    ownFlit f g
    let (a, asid) ← exportAt f none (BitVec.ofNat 32 handle) off len 0 false true
    gateBytes f asid a (natBytes bs.toNat len) edge (fun d => modify fun s => s.landedTo f x d) 5 n
    putCounts f x put
  | .inc g handle off => do
    ownFlit f g
    incLands f handle off
  | .ramo g handle off op dw b c item =>
    let reply (code : BitVec 8) (old : Nat) (fl : BitVec 5) : M Unit := modify fun s =>
      s.pushFlit f x.src 4 0 0 0 (.ramoReply item code.toNat (BitVec.ofNat 128 old) fl)
    onFail (do
      let n := AtOp.bytes op dw
      ownFlit f g
      let (a, asid) ← exportAt f none (BitVec.ofNat 32 handle) off n 0 false true
      let (old, fl) ← gateAtomic f asid a true op n b.toNat c.toNat
      reply codeDone old fl) fun code _ => reply code 0 0
  | .ack g vc seq code => modify fun s => if f = g then s.opticalAck f x.src vc seq (BitVec.ofNat 8 code) else s
  | .ramoReply item code old fl => modify fun s => s.ramoBack f x item code old fl
  | .importReq g handle srcField slot id => modify fun s => if f = g then s.importAsked f x.src handle srcField slot id else s
  | .importReply g _ ecode rd wr size id => modify fun s => if f = g then s.importBack f x id (ecode, rd, wr, size) else s

/-- A flit accepted: the next number is awaited, and it is to land. DEDUCED: log entry 106. -/
def State.accepted (s : State) (f : Nat) (x : Flit) : State :=
  s.modField f fun fd => { fd with optical := { fd.optical with
    recvSeq := SMap.put fd.optical.recvSeq (recvKey x) (x.seq + 1), landing := fd.optical.landing ++ [(x, 0)] } }

/-- A flit has landed, or failed: its acknowledgement goes back. DEDUCED: log entry 106. -/
def State.landOver (s : State) (f : Nat) (x : Flit) (code : BitVec 8) : State :=
  let other (e : Nat × Nat × BitVec 8) : Bool := !(e.1 == recvKey x && e.2.1 == x.item)
  let failed (l : List (Nat × Nat × BitVec 8)) : List (Nat × Nat × BitVec 8) :=
    match x.body with
    | .data _ _ _ _ _ _ (some (_, _, true)) => l.filter other
    | .data _ _ _ _ _ _ (some _) => if code = codeDone then l else l ++ [(recvKey x, x.item, code)]
    | _ => l
  let s := s.modField f fun fd => { fd with optical := { fd.optical with
    landing := fd.optical.landing.filter fun e => e.1 != x, failed := failed fd.optical.failed } }
  if Flit.isAck x then s else s.pushFlit f x.src 4 0 0 0 (.ack x.srcField x.vc x.seq code.toNat)

/-- Lands flits that have been accepted, each after those before it of its source and channel. -/
def State.landFlits (s : State) (f : Nat) (held : List Nat) : List (Flit × Nat) → State
  | [] => s
  | (x, n) :: t =>
    if held.contains (recvKey x) then s.landFlits f held t
    else
      match flitLands f x n s with
      | .ok _ s => (s.landOver f x codeDone).landFlits f held t
      | .error (.fail code _) s => (s.landOver f x code).landFlits f held t
      | .error _ s => s.landFlits f (recvKey x :: held) t

/-- What a field has accepted lands as far as it can. -/
def State.landAll (s : State) (f : Nat) : State := s.landFlits f [] (s.field f).optical.landing

/-- Puts an acknowledgement that is to go again back among the flits of the reply class, in their order. -/
def requeue (x : OFlit) : List OFlit → List OFlit
  | [] => [x]
  | y :: t => if y.vc == 4 && y.seq.all (fun n => decide (x.seq.getD 0 < n)) then x :: y :: t else y :: requeue x t

/-- A flit that has landed comes again: its acknowledgement was lost, and is sent again with every later flit of the reply class
(R321). DEDUCED: log entry 106. -/
def State.ackAgain (s : State) (f : Nat) (x : Flit) : State :=
  let o := (s.field f).optical
  let mine (y : OFlit) : Bool := match y.flit.body with
    | .ack g vc seq _ => g == x.srcField && vc == x.vc && seq == x.seq
    | _ => false
  match o.acks.find? fun e => e.1 == x.src && mine e.2 with
  | none => s
  | some (_, a) =>
    let n := a.seq.getD 0
    let later (e : Nat × OFlit) : Bool := e.1 == x.src && decide (n ≤ e.2.seq.getD 0)
    let again (y : OFlit) : OFlit := if y.vc == 4 && y.seq.any (fun m => decide (n ≤ m)) then { y with sent := false } else y
    let back (q : List OFlit) : List OFlit :=
      ((o.acks.filter later).map fun e => { e.2 with sent := false }).foldl (fun q y => requeue y q) (q.map again)
    s.modField f fun fd => { fd with optical := { fd.optical with
      acks := fd.optical.acks.filter fun e => !later e
      queues := fd.optical.queues.map fun q => if q.1 = x.src then (q.1, back q.2) else q } }

/-- A field in reset receives nothing (R19). Every flit whose CRC and sequence pass is accepted, and lands when it can (R318).
DEDUCED: log entry 106; DESIGN CHOICE: log entry 108. -/
def execOpticalFlitReceive (f : Nat) (x : Flit) (crcOk : Bool) (s : State) : Out :=
  if !s.locked || !crcOk || (s.field f).inReset then .next s
  else if x.dest ≠ s.modId then .next (s.logErr f .optmis { kind := 2, detail := BitVec.ofNat 64 x.seq })
  else
    let next := SMap.get (s.field f).optical.recvSeq (recvKey x) 0
    if next < x.seq then .next s
    else if x.seq < next then .next ((s.ackAgain f x).landAll f)
    else .next ((s.accepted f x).landAll f)

/-- A rotation begins when its start has come; what waits to land tries again. -/
def execRotationStart (f : Nat) (s : State) : Out := .next ((s.modField f fun fd => fd.rotated s.ns).landAll f)

/-! ## Fibres and the time base (R321, R322) -/

def execFibreLoss (f fibre : Nat) (s : State) : Out :=
  if (s.field f).optical.fibres.getLsbD fibre then
    let left : BitVec 16 := (s.field f).optical.fibres &&& ~~~(1#16 <<< fibre)
    .next ((s.modField f fun fd => { fd with optical := { fd.optical with fibres := left } }).logErr f .link
      { kind := 2, detail := BitVec.ofNat 64 fibre })
  else .next s

def execTimeLockLoss (s : State) : Out :=
  if s.locked && !s.gm then .next ({ s with locked := false }.logErr 0 .link { kind := 2 }) else .next s

/-- A measurement of the offset: it locks within 100 ns; the first lock steps the time base, while there is no partition.
DEDUCED: log entry 109. -/
def execTimeLockRegain (offset : BitVec 32) (s : State) : Out :=
  let o := offset.toInt
  if s.gm then .next s
  else if !s.locked && !s.stepped && s.parts.isEmpty then
    .next { s with locked := true, stepped := true, ns := (((s.ns : Int) - o) % 2 ^ 64).toNat, toff := 0 }
  else if !s.locked && decide (-100 ≤ o) && decide (o ≤ 100) then .next { s with locked := true, stepped := true, toff := offset }
  else .next { s with toff := offset }

/-- TSYNC (Table 15-5). -/
def State.tsync (s : State) : Word :=
  bit s.locked ++ bit s.gm ++ 0#30 ++ (if s.gm then 0#32 else s.toff)

end Sys2Proof.Machine
end

