-- ==== Sys2Proof/Machine/LaunchEvents.lean ====
section
/-! DEFINITION. Steps of the dispatchers: launch records, placing and starting groups, pre-emption for a waiting group,
spanning launches, completion records and task graphs (R323 to R334, R354, R399). -/

namespace Sys2Proof.Machine

/-! ## Accesses of a dispatcher: served at the home -/

def readParts (f : Nat) (asid : BitVec 16) (va n : Nat) : Nat → M (List Byte)
  | 0 => return []
  | k + 1 => do
    if n = 0 then return []
    let m := Nat.min n (64 - va % 64)
    let bs ← gateRead f asid va m
    return bs ++ (← readParts f asid (va + m) (n - m) k)

/-- Reads n bytes. -/
def dispRead (f : Nat) (asid : BitVec 16) (va n : Nat) : M (List Byte) := do
  if 2 ^ 57 ≤ va + n ∨ localBase ≤ va + n then failAt codeBounds va
  readParts f asid va n (n / 64 + 2)

/-- Writes bytes. -/
def dispWrite (f : Nat) (asid : BitVec 16) (va : Nat) (bs : List Byte) : M Unit := do
  if localBase ≤ va + bs.length then failAt codeBounds va
  gateBytes f asid va bs 0 (fun _ => return ()) (bs.length / 64 + 2) 0

/-- What a read gives, or none where it fails. -/
def tryRead (f : Nat) (asid : BitVec 16) (va n : Nat) : M (Option (List Byte)) :=
  onFail (do return some (← dispRead f asid va n)) fun _ _ => return none

/-! ## Queues (R323) -/

def lqCtl (f : Field) (q : Nat) : Word := f.reg (bankReg 0x042 q)
def lqBase (f : Field) (q : Nat) : Nat := bits (f.reg (bankReg 0x041 q)) 8 49 * 256
def lqAsid (f : Field) (q : Nat) : BitVec 16 := (lqCtl f q).setWidth 16
def lqSize (f : Field) (q : Nat) : Nat := 2 ^ bits (lqCtl f q) 48 4

/-- A dispatcher that runs, of a field in a partition. -/
def State.dispatching (s : State) (f : Nat) : Bool :=
  (s.partOf f).isSome && !(s.field f).inReset && !s.stopped.getLsbD f && ((s.field f).reg 0x043).getLsbD 0

/-- A queue that is served. -/
def Field.served (f : Field) (q : Nat) : Bool := decide (q < 8) && (lqCtl f q).getLsbD 63 && !(lqCtl f q).getLsbD 62

/-- A queue stops: ERR, and a LAUNCH record with the cause. -/
def State.stopQueue (s : State) (f q cause : Nat) : State :=
  (s.modField f fun fd => fd.setReg (bankReg 0x042 q) (setBits (lqCtl fd q) 62 1 1)).logErr f .launch
    { detail := BitVec.ofNat 64 (q + 256 * cause) }

/-- The cause of R323 for a ring access that fails. DEDUCED: log entry 92. -/
def ringCause (code : BitVec 8) : Nat := if code = codeKeyrev then 3 else if code = codeUe then 4 else 2

/-! ## Launch records (R325, R326) -/

/-- Fields of a launch record. -/
def recNat (bs : List Byte) (o n : Nat) : Nat := fieldAt bs o n

def isSpan (bs : List Byte) : Bool := (byteAt bs 22).getLsbD 1
def isGraph (bs : List Byte) : Bool := (byteAt bs 22).getLsbD 2

/-- Reserved fields and bits, sizes and alignment of a record; mask: the fields of the partition.
DEDUCED: log entries 92, 93. -/
def launchBad (bs : List Byte) (mask : Nat) : Bool :=
  let w := recNat bs 20 1
  let h := recNat bs 21 1
  let flags := recNat bs 22 1
  let fm := recNat bs 24 2
  let graph := isGraph bs
  decide (8 ≤ flags) || decide (3 < recNat bs 23 1) || decide (4 ≤ recNat bs 26 1) || recNat bs 27 1 != 0
    || recNat bs 68 188 != 0 || (!isSpan bs && fm != 0) || (!graph && (recNat bs 56 8 != 0 || recNat bs 64 4 != 0))
    || !inList (w * h) [1, 2, 4, 8, 16, 32, 64] || decide (64 < w) || decide (5 < h) || recNat bs 16 4 == 0
    || recNat bs 0 8 % 4 != 0 || recNat bs 8 8 % 128 != 0 || recNat bs 40 8 % 64 != 0 || recNat bs 48 8 % 256 != 0 || recNat bs 56 8 % 32 != 0
    || (isSpan bs && (List.range 16).any fun i => fm.testBit i && !mask.testBit i)
    || (graph && (isSpan bs || flags.testBit 0 || recNat bs 64 4 == 0 || decide (65535 < recNat bs 64 4)))

/-- A shape template that R333 calls malformed. DEDUCED: log entry 93. -/
def shapeBad (t : List Byte) : Bool :=
  let nd := recNat t 18 1
  decide (6 < nd) || recNat t 20 4 != 0 || (List.range 6).any fun d =>
    let o := 32 + 16 * d
    if nd ≤ d then recNat t o 16 != 0
    else
      let mode := recNat t (o + 8) 1
      decide (2 < mode) || recNat t (o + 9) 1 != 0 || recNat t (o + 14) 2 != 0 ||
        (mode != 0 && (recNat t (o + 10) 2 == 0 || recNat t (o + 12) 2 == 0))

/-- Number of the fields of a partition as a mask. -/
def Part.mask (p : Part) : Nat := p.fields.foldl (fun a i => a ||| 2 ^ i) 0

/-- The latched generation and block (R327): one acquire at SYS. -/
def latch (f : Nat) (asid : BitVec 16) (param : Nat) : M (Option (Word × Word)) := do
  if param = 0 then return some (0, 0)
  match ← tryRead f asid param 64 with
  | none => return none
  | some h =>
    let gen := recNat h 0 8
    return some (BitVec.ofNat 64 gen, BitVec.ofNat 64 (recNat h (8 + 8 * (gen % 4)) 8))

/-- The nodes of a graph record. -/
def readNodes (f : Nat) (asid : BitVec 16) (va : Nat) : Nat → M (Option (List GNode))
  | 0 => return some []
  | n + 1 => do
    match ← tryRead f asid va 32 with
    | none => return none
    | some e =>
      let ns := recNat e 12 4
      match ← tryRead f asid (recNat e 16 8) (4 * ns) with
      | none => return none
      | some sb =>
        match ← readNodes f asid (va + 32) n with
        | none => return none
        | some t =>
          let x : GNode := { addr := recNat e 0 8, preds := recNat e 8 4, succs := (List.range ns).map fun i => recNat sb (4 * i) 4 }
          return some (x :: t)

/-- The launch of a record, rejected where R326 says so. given: the pair that a node takes from its graph. -/
def launchOf (f q : Nat) (bs : List Byte) (given : Option (Word × Word)) (parent : Option (Nat × Nat)) (index : Nat) :
    M Launch := do
  let s ← get
  let asid := lqAsid (s.field f) q
  let mask := match s.partOf f with
    | some p => ((SMap.find? s.parts p).map Part.mask).getD 0
    | none => 0
  let entry := recNat bs 0 8
  let base : Launch :=
    { field := f, queue := q, entry := BitVec.ofNat 64 entry, shape := [], groups := recNat bs 16 4, w := recNat bs 20 1
      h := recNat bs 21 1, flags := byteAt bs 22, cls := recNat bs 23 1, fmask := BitVec.ofNat 16 (recNat bs 24 2)
      fst := BitVec.ofNat 2 (recNat bs 26 1), tag := BitVec.ofNat 32 (recNat bs 28 4), energy := recNat bs 32 8
      compl := recNat bs 48 8, asid := asid, gen := 0, blk := 0, todo := [], index := index, parent := parent }
  let bad : Launch := { base with reject := true }
  if launchBad bs mask || (parent.isSome && isGraph bs) then return bad
  match ← tryRead f asid entry 4, ← tryRead f asid (recNat bs 8 8) 128 with
  | some _, some t => do
    if shapeBad t then return bad
    match ← (match given with
      | some g => pure (some g)
      | none => latch f asid (recNat bs 40 8)) with
    | none => return bad
    | some (gen, blk) => do
      let ok : Launch := { base with shape := t, gen := gen, blk := blk }
      if isGraph bs then
        match ← readNodes f asid (recNat bs 56 8) (recNat bs 64 4) with
        | none => return bad
        | some ns => return { ok with nodes := ns }
      else return { ok with todo := List.range ok.groups }
  | _, _ => return bad

/-- COMPL can be read. DEDUCED: log entry 92. -/
def complOk (f : Nat) (asid : BitVec 16) (compl : Nat) : M Bool := do
  return (← tryRead f asid compl 256).isSome

/-! ## LAUNCH_RECORD_READ (R323, R327, R354) -/

/-- A node that is to be dispatched. -/
def Launch.readyNode (l : Launch) : Option Nat := l.nodes.findIdx? fun n => !n.run && n.st.isNone && n.preds == 0

/-- The launches of a queue, oldest first. -/
def State.launchesOf (s : State) (f q : Nat) : List (Nat × Launch) := s.launches.filter fun x => x.2.field == f && x.2.queue == q

/-- Puts a new launch under a fresh number. -/
def addLaunch (l : Launch) : M Nat := do
  let id ← freshId
  modify fun s => { s with launches := SMap.put s.launches id l }
  return id

def setNode (lid i : Nat) (h : GNode → GNode) (s : State) : State :=
  match SMap.find? s.launches lid with
  | none => s
  | some l => { s with launches := SMap.put s.launches lid { l with nodes := l.nodes.modify i h } }

/-- A ready node of a graph is dispatched under the pair that the graph latched. -/
def dispatchNode (f q lid : Nat) (g : Launch) (i : Nat) : M Unit := do
  let n := g.nodes.getD i { addr := 0, preds := 0, succs := [] }
  match ← tryRead f g.asid n.addr 256 with
  | none => modify (setNode lid i fun n => { n with st := some 3 })
  | some bs => do
    if !(← complOk f g.asid (recNat bs 48 8)) then
      modify fun s => (setNode lid i (fun n => { n with st := some 3 }) s).stopQueue f q 5
    else
      let l ← launchOf f q bs (some (g.gen, g.blk)) (some (lid, i)) 0
      let _ ← addLaunch l
      modify (setNode lid i fun n => { n with run := true })

/-- The next record of the ring is taken, unless it is a graph behind a graph that runs. -/
def takeRecord (f q : Nat) : M Unit := do
  let fd := (← get).field f
  let asid := lqAsid fd q
  let base := lqBase fd q
  let n := lqSize fd q
  let tail := recNat (← dispRead f asid ((base + 2 ^ 64 - 64) % 2 ^ 64) 8) 0 8
  let head := recNat (← dispRead f asid ((base + 2 ^ 64 - 56) % 2 ^ 64) 8) 0 8
  let left := (tail + 2 ^ 64 - head) % 2 ^ 64
  if n < left then modify fun s => s.stopQueue f q 1
  else if left ≠ 0 then
    let bs ← dispRead f asid (base + head % n * 256) 256
    waitIf (isGraph bs && ((← get).launchesOf f q).any fun x => !x.2.nodes.isEmpty) .queue
    if !(← complOk f asid (recNat bs 48 8)) then modify fun s => s.stopQueue f q 5
    else
      let l ← launchOf f q bs none none head
      let _ ← addLaunch l

def execLaunchRecordRead (f q : Nat) (s : State) : Out :=
  if !s.dispatching f || !(s.field f).served q then .next s
  else
    let ls := s.launchesOf f q
    match ls.findSome? fun x => x.2.readyNode.map fun i => (x.1, x.2, i) with
    | some (lid, g, i) => runEvent (dispatchNode f q lid g i) s
    | none =>
      if ls.any fun x => x.2.parent.isNone && !x.2.headDone then .next s
      else
        match takeRecord f q s with
        | .ok _ s => .next s
        | .error (.fail c _) s => .next (s.stopQueue f q (ringCause c))
        | .error _ s => .next s

/-! ## Placing groups (R329, R330, R399) -/

/-- A context of a core that a launch may take: free, with no work of an earlier rank, or held for it (R330, R336). -/
def State.ctxFor (s : State) (k cls lid : Nat) (also : Nat → Bool) : Option Nat :=
  (List.range 14).find? fun x =>
    (s.core k).allows cls x && (((s.ctx (k * 16 + x)).st == .free && !(s.core k).awaits x) || (s.ctx (k * 16 + x)).st == .held lid || also (k * 16 + x))

/-- A core that takes new groups. -/
def State.inService (s : State) (k : Nat) : Bool :=
  !(s.core k).retired && (s.cluster (clusterOf k)).wear != .out && (s.cluster (clusterOf k)).wear != .retired

/-- Core keys of the rectangle at an origin, in the order of ranks. -/
def rectCores (f w h kx ky : Nat) : List Nat :=
  (List.range h).flatMap fun j => (List.range w).map fun i => f * 320 + (ky + j) * 64 + kx + i

/-- Every origin, in the order in which it is tried. -/
def origins (w h : Nat) : List (Nat × Nat) :=
  (List.range (6 - h)).flatMap fun ky => (List.range (65 - w)).map fun kx => (kx, ky)

/-- The members of a group at the first origin that fits. also: contexts counted as free. -/
def State.fit (s : State) (f w h cls lid : Nat) (also : Nat → Bool) : Option (List Nat) :=
  (origins w h).findSome? fun o =>
    let cs := (rectCores f w h o.1 o.2).map fun k => if s.inService k then (s.ctxFor k cls lid also).map (k * 16 + ·) else none
    if cs.all Option.isSome then some (cs.filterMap id) else none

/-- The groups of a launch to be placed in a field. -/
def Launch.todoIn (l : Launch) (f : Nat) : List Nat :=
  if l.flags.getLsbD 1 then SMap.get l.batches f [] else if l.field = f then l.todo else []

/-- The launch whose group is at the head of a queue of a field. -/
def State.headOf (s : State) (f q : Nat) : Option (Nat × Launch) :=
  List.find? (fun (x : Nat × Launch) => x.2.queue == q && !(x.2.todoIn f).isEmpty) s.launches

/-- A queue that places groups in a field: one that is served, or that of a spanning launch. -/
def State.places (s : State) (f q : Nat) : Bool :=
  s.dispatching f && ((s.field f).served q || match s.headOf f q with
    | some x => x.2.flags.getLsbD 1 && x.2.field != f
    | none => false)

/-- Admission of a group's energy: the partition after it, or none to hold the group. -/
def Part.takesIn (p : Part) (e : Nat) : Option Part :=
  if p.used + p.commit + e ≤ 1000 * p.allow then some { p with commit := p.commit + e }
  else if 1000 * p.allow < e ∧ p.commit = 0 ∧ p.used = 0 then some { p with commit := e }
  else none

/-- A head group has waited some µs. DEDUCED: log entries 95, 96. -/
def Launch.waited (l : Launch) (now us : Nat) : Bool :=
  match l.headNs with
  | some t => decide (t + us * 1000 ≤ now)
  | none => false

/-- Every group of a launch has been placed. -/
def Launch.allPlaced (l : Launch) : Bool :=
  l.reject || (l.todo.isEmpty && (l.batches.all fun (x : Nat × List Nat) => x.2.isEmpty) &&
    l.nodes.all fun n => n.st.isSome || n.run)

/-- The head word passes the oldest record whose groups have all been placed. DEDUCED: log entry 95. -/
def writeHead (f q : Nat) : M Unit := do
  let s ← get
  match (s.launchesOf f q).find? fun x => x.2.parent.isNone && !x.2.headDone && x.2.allPlaced &&
      (s.launches.all fun y => (y.2.parent.map (·.1)) != some x.1 || y.2.allPlaced) with
  | none => return ()
  | some (lid, l) => do
    onFail (dispWrite f l.asid (lqBase (s.field f) q - 56) (natBytes ((l.index + 1) % 2 ^ 64) 8)) fun c _ =>
      modify fun s => s.stopQueue f q (ringCause c)
    modify fun s => match SMap.find? s.launches lid with
      | some l => { s with launches := SMap.put s.launches lid { l with headDone := true } }
      | none => s

/-- A higher queue whose head group cannot be placed and has not starved lets a lower one place.
DEDUCED: log entry 95. -/
def State.mayPass (s : State) (f q : Nat) : Bool :=
  let fd := s.field f
  ((List.range 8).filter fun p => decide (q < p) && s.places f p).all fun p =>
    match s.headOf f p with
    | none => true
    | some (lid, l) =>
      !(l.starved || l.waited s.ns (bits (fd.reg 0x043) 16 16)) &&
      match s.partOf f with
      | none => true
      | some pn =>
        let part := (s.partNow pn).getD default
        (s.fit f l.w l.h l.cls lid fun _ => false).isNone || l.heldWin == some part.window || (part.takesIn l.energy).isNone
where
  default : Part := { fx0 := 0, fx1 := 0, fy0 := 0, fy1 := 0, fields := [], allow := 0, used := 0, commit := 0, window := 0, eovr := 0 }

/-- The group index leaves the list of those to be placed. -/
def Launch.placed (l : Launch) (f : Nat) : Launch :=
  let l := { l with headNs := none, starved := false, heldWin := none }
  if l.flags.getLsbD 1 then { l with batches := SMap.put l.batches f ((SMap.get l.batches f []).drop 1) }
  else { l with todo := l.todo.drop 1 }

/-- Contexts held for a launch in a field are free again. -/
def State.unhold (s : State) (f lid : Nat) : State :=
  { s with ctxs := s.ctxs.map fun x =>
      if fieldOf (coreOf x.1) = f ∧ x.2.st = .held lid then (x.1, { x.2 with st := .free }) else x }

/-- Reserves the contexts of a group, in one step. -/
def State.reserve (s : State) (f lid : Nat) (l : Launch) (i : Nat) (members : List Nat) : State :=
  let gid := s.fresh
  let g : Group :=
    { lid := lid, index := i, field := f, members := members, status := members.map fun _ => none, prio := l.queue
      started := false, startNs := s.ns }
  let s := s.unhold f lid
  let s := members.foldl (fun s c => s.modCtx c fun x => { x with st := .held gid }) s
  { s with groups := SMap.put s.groups gid g, launches := SMap.put s.launches lid (l.placed f) }.bump

/-- The head group of a queue is placed, or held. -/
def State.placeHead (s : State) (f q : Nat) : State :=
  match s.headOf f q, s.partOf f with
  | some (lid, l), some pn =>
    match s.partNow pn with
    | none => s
    | some part =>
      if !s.mayPass f q || l.heldWin = some part.window then s
      else
        let wait (l : Launch) : State :=
          { s with launches := SMap.put s.launches lid { l with headNs := some (l.headNs.getD s.ns) } }
        match s.fit f l.w l.h l.cls lid fun _ => false with
        | none => wait l
        | some members =>
          match part.takesIn l.energy with
          | none => wait { l with heldWin := some part.window }
          | some part' =>
            { s with parts := SMap.put s.parts pn part' }.reserve f lid l ((l.todoIn f).headD 0) members
  | _, _ => s

def execGroupPlace (f q : Nat) (s : State) : Out :=
  if !s.places f q then .next s
  else
    match writeHead f q s with
    | .ok _ s => runEvent (writeHead f q) (s.placeHead f q)
    | .error _ s => .next s

/-! ## GANG_START (R141, R331, R333) -/

/-- The shape record of a member. -/
def shapeRecord (l : Launch) (g : Group) (rank c : Nat) : List Byte :=
  let core := coreNum (coreOf c)
  natBytes l.blk.toNat 8 ++ natBytes g.index 4 ++ natBytes rank 2 ++ natBytes l.w 1 ++ natBytes l.h 1 ++ natBytes (core % 64) 1
    ++ natBytes (core / 64) 1 ++ [byteAt l.shape 18] ++ natBytes (ctxNum c) 1 ++ natBytes 0 4 ++ natBytes l.gen.toNat 8
    ++ (l.shape.drop 32).take 96

/-- Slot of the shape area of a context. -/
def shapeSlot (x : Nat) : Nat := 0x2F000 + 0x80 * x

/-- A member starts. -/
def State.startMember (s : State) (gid : Nat) (l : Launch) (g : Group) (rank c : Nat) : State :=
  let x := ctxNum c
  let t : Task := { tid := s.fresh, member := some { gid := gid, rank := rank }, prio := g.prio, cls := l.cls }
  ((s.modCtx c fun y => y.start l.entry (argRegs (BitVec.ofNat 64 (localBase + shapeSlot x))) l.fst l.asid t).bump).startAcquire
    (coreOf c)

/-- A member whose core has been retired since its group was placed ends FAILED_UE, and its group fails (R10, R385, R386).
DEDUCED: log entry 91. -/
def State.deadMembers (s : State) (gid : Nat) (ms : List (Nat × Nat)) : State :=
  ms.foldl (fun s m => (s.markMember { gid := gid, rank := m.2 } .failedUe (locator (coreOf m.1))).stopGroup gid) s

def execGangStart (f gid : Nat) (s : State) : Out :=
  match SMap.find? s.groups gid with
  | none => .next s
  | some g =>
    match SMap.find? s.launches g.lid with
    | none => .next s
    | some l =>
      if g.started || g.field != f then .next s
      else
        let ms := g.members.zipIdx.filter fun m => !(s.core (coreOf m.1)).retired
        let dead := g.members.zipIdx.filter fun m => (s.core (coreOf m.1)).retired
        let s := ms.foldl (fun s m => s.engineStore (coreOf m.1) (shapeSlot (ctxNum m.1)) (shapeRecord l g m.2 m.1)) s
        let s := ms.foldl (fun s m => s.startMember gid l g m.2 m.1) s
        let s := { s with groups := SMap.put s.groups gid { g with started := true, startNs := s.ns }
                          launches := SMap.put s.launches g.lid { l with tFirst := some (l.tFirst.getD s.ns) } }
        .next (s.deadMembers gid dead)

/-! ## STARVE_TIMEOUT and PREEMPT_REQUEST (R329) -/

/-- DEDUCED: log entry 96. -/
def execStarveTimeout (f q : Nat) (s : State) : Out :=
  match s.headOf f q with
  | none => .next s
  | some (lid, l) =>
    if l.waited s.ns (bits ((s.field f).reg 0x043) 16 16) then
      .next { s with launches := SMap.put s.launches lid { l with starved := true } }
    else .next s

/-- Running groups of a field below a priority: the lowest first, among equals the most recently started. -/
def State.victims (s : State) (f q : Nat) : List (Nat × Group) :=
  let gs := s.groups.filter fun g => g.2.field == f && g.2.started && decide (g.2.prio < q)
  gs.mergeSort fun a b => decide (a.2.prio < b.2.prio) || (a.2.prio == b.2.prio && decide (b.2.startNs ≤ a.2.startNs))

/-- The fewest victims, in their order, whose contexts would let a group be placed; with its contexts.
DEDUCED: log entry 81. -/
def State.preemptFor (s : State) (f lid : Nat) (l : Launch) (vs : List (Nat × Group)) : Option (List Nat × List (Nat × Group)) :=
  (List.range vs.length).findSome? fun n =>
    let take := vs.take (n + 1)
    (s.fit f l.w l.h l.cls lid fun c => take.any fun g => g.2.members.contains c).map fun ms => (ms, take)

/-- Raises PREQ on a member for a waiting launch. -/
def Ctx.preempt (c : Ctx) (clk lid : Nat) : Ctx :=
  match c.st with
  | .free | .held _ | .asleep => c
  | _ => { c with preq := true, preqClk := if c.preq then c.preqClk else clk, preqFor := some (c.preqFor.getD lid) }

def execPreemptRequest (f q : Nat) (s : State) : Out :=
  match s.headOf f q with
  | none => .next s
  | some (lid, l) =>
    let pwait := bits ((s.field f).reg 0x043) 32 16
    if pwait = 0 || !l.waited s.ns pwait || !s.dispatching f then .next s
    else
      match s.preemptFor f lid l (s.victims f q) with
      | none => .next s
      | some (ms, vs) =>
        let hit := vs.filter fun g => g.2.members.any fun c => ms.any fun m => coreOf m == coreOf c
        let cs := hit.flatMap fun g => g.2.members.filter fun c =>
          ((s.ctx c).task.member.map (·.gid)) == some g.1
        .next (cs.foldl (fun s c => s.modCtx c fun x => x.preempt s.clk lid) s)

/-! ## SPAN_REPORT (R332) -/

/-- How many groups of a shape fit in a field at once, up to a bound. -/
def State.placeable (s : State) (f lid : Nat) (l : Launch) : Nat → List Nat → Nat
  | 0, _ => 0
  | n + 1, gone =>
    let s' := gone.foldl (fun (s : State) c => s.modCtx c fun x => { x with st := .held 0 }) s
    match s'.fit f l.w l.h l.cls lid fun _ => false with
    | none => 0
    | some ms => 1 + s.placeable f lid l n (gone ++ ms)

/-- The field after one in a mask, in ascending order and round. -/
def nextField (mask : BitVec 16) (f : Nat) : Nat :=
  (((List.range 16).map fun i => (f + 1 + i) % 16).find? fun i => mask.getLsbD i).getD f

/-- The field that the module dispatcher visits next for a launch. -/
def Launch.visits (l : Launch) : Nat := if l.fmask.getLsbD l.turn then l.turn else nextField l.fmask l.turn

/-- A field reports, and takes a batch when it is its turn. -/
def execSpanReport (f : Nat) (s : State) : Out :=
  match List.find? (fun (x : Nat × Launch) => x.2.flags.getLsbD 1 && !x.2.reject && !x.2.todo.isEmpty && x.2.visits == f && x.2.fmask.getLsbD f) s.launches with
  | none => .next s
  | some (lid, l) =>
    let n := if s.dispatching f && (SMap.get l.batches f []).isEmpty then s.placeable f lid l (Nat.min 64 l.todo.length) [] else 0
    .next { s with launches := SMap.put s.launches lid
                     { l with todo := l.todo.drop n, turn := nextField l.fmask f
                              batches := if n = 0 then l.batches else SMap.put l.batches f (l.todo.take n) } }

/-! ## LAUNCH_COMPLETE (R328) -/

/-- A failure entry (Table 16-4). -/
def FailEnt.bytes (e : FailEnt) : List Byte :=
  natBytes e.group 4 ++ natBytes e.status 1 ++ natBytes e.rank 1 ++ natBytes 0 2 ++ natBytes e.loc.toNat 8
    ++ natBytes (e.members.zipIdx.foldl (fun a x => a + x.1 % 16 * 16 ^ x.2) 0) 32

/-- Launch status (Table 16-4). -/
def Launch.status (l : Launch) : Nat :=
  if l.reject then 3
  else if l.nodes.isEmpty then (if l.bad = 0 then 1 else 2)
  else if l.nodes.all fun n => n.st == some 1 then 1 else 2

/-- Bytes 8 to 255 of the completion record, with the energy that has been counted for the launch. DESIGN CHOICE: log entry 94. -/
def Launch.record (l : Launch) : List Byte :=
  let es := l.fails.map FailEnt.bytes
  natBytes l.done 4 ++ natBytes l.bad 4 ++ natBytes l.gen.toNat 8 ++ natBytes (l.tFirst.getD 0) 8 ++ natBytes l.tLast 8
    ++ natBytes l.used 8 ++ natBytes l.restarts 4 ++ natBytes 0 12 ++ padTo 192 es.flatten

/-- Every group of a launch, or every node of a graph, has ended. -/
def State.over (s : State) (lid : Nat) (l : Launch) : Bool :=
  l.ended.isNone && (l.reject || (if l.nodes.isEmpty
    then l.allPlaced && !s.groups.any fun g => g.2.lid == lid
    else l.nodes.all fun n => n.st.isSome))

/-- Writes the completion record: bytes 8 to 255, then bytes 0 to 7. -/
def writeCompl (f : Nat) (asid : BitVec 16) (compl st : Nat) (tag : BitVec 32) (rest : List Byte) : M Unit := do
  dispWrite f asid (compl + 8) rest
  dispWrite f asid compl (natBytes (st * 2 ^ 56 + tag.toNat) 8)

/-- A launch whose record is written leaves; a node waits for its graph; a rejected record is passed. -/
def State.endLaunch (s : State) (lid : Nat) (l : Launch) : State :=
  match l.parent with
  | some _ => { s with launches := SMap.put s.launches lid { l with ended := some l.status } }
  | none => if l.headDone then { s with launches := SMap.del s.launches lid } else s

def execLaunchComplete (f lid : Nat) (s : State) : Out :=
  match SMap.find? s.launches lid with
  | none => .next s
  | some l =>
    if l.field != f || !s.over lid l then .next s
    else
      let m : M Unit := do
        if l.parent.isNone then writeHead f l.queue
        let s ← get
        let now := SMap.get s.launches lid l
        waitIf (now.parent.isNone && !now.headDone) .queue
        onFail (writeCompl f l.asid l.compl l.status l.tag l.record)
          fun _ _ => modify fun s => s.stopQueue f l.queue 5
        modify fun s => (s.endLaunch lid now).bump
      runEvent m s

/-! ## GRAPH_NODE_END (R354) -/

/-- Every node that depends on some nodes, directly or through others. -/
def dependants (ns : List GNode) (from_ : List Nat) : Nat → List Nat
  | 0 => from_
  | n + 1 =>
    let more := (from_.flatMap fun i => (ns.getD i { addr := 0, preds := 0, succs := [] }).succs).filter fun j => !inList j from_
    if more.isEmpty then from_ else dependants ns (from_ ++ more.eraseDups) n

/-- The completion records of nodes that are skipped. -/
def writeSkipped (f : Nat) (g : Launch) : List Nat → M Unit
  | [] => return ()
  | i :: t => do
    let n := g.nodes.getD i { addr := 0, preds := 0, succs := [] }
    match ← tryRead f g.asid n.addr 256 with
    | none => pure ()
    | some bs =>
      onFail (writeCompl f g.asid (recNat bs 48 8) 5 (BitVec.ofNat 32 (recNat bs 28 4)) (List.replicate 248 0)) fun _ _ =>
        return ()
    writeSkipped f g t

/-- What a node counted is counted for its graph. -/
def Launch.addChild (g c : Launch) : Launch :=
  { g with
    done := g.done + c.done, bad := g.bad + c.bad, restarts := g.restarts + c.restarts, used := g.used + c.used
    fails := (g.fails ++ c.fails).take 4, tLast := Nat.max g.tLast c.tLast
    tFirst := match g.tFirst, c.tFirst with
      | some a, some b => some (Nat.min a b)
      | a, b => a.orElse fun _ => b }

/-- The end of a node. -/
def endNode (f lid : Nat) (g : Launch) (i st : Nat) (child : Option (Nat × Launch)) : M Unit := do
  let n := g.nodes.getD i { addr := 0, preds := 0, succs := [] }
  let skipped := if st = 1 then [] else
    ((dependants g.nodes [i] g.nodes.length).filter (· != i)).filter fun j =>
      ((g.nodes.getD j n).st).isNone && !(g.nodes.getD j n).run
  writeSkipped f g skipped
  let drop (x : GNode × Nat) : GNode :=
    let y := x.1
    if x.2 = i then { y with st := some st, run := true, succs := [] }
    else if inList x.2 skipped then { y with st := some 5 }
    else if st = 1 then { y with preds := y.preds - (n.succs.filter (· == x.2)).length }
    else y
  let g := { g with nodes := g.nodes.zipIdx.map drop }
  modify fun s => match child with
    | some (cid, c) => { s with launches := SMap.put (SMap.del s.launches cid) lid (g.addChild c) }
    | none => { s with launches := SMap.put s.launches lid g }

/-- A node's launch has ended, or its record could not be dispatched. -/
def execGraphNodeEnd (f lid node : Nat) (s : State) : Out :=
  match SMap.find? s.launches lid with
  | none => .next s
  | some g =>
    match List.find? (fun (x : Nat × Launch) => x.2.parent == some (lid, node) && x.2.ended.isSome) s.launches with
    | some (cid, c) => runEvent (endNode f lid g node (c.ended.getD 2) (some (cid, c))) s
    | none =>
      match g.nodes[node]? with
      | none => .next s
      | some n =>
        if n.st = some 3 ∧ n.run = false then runEvent (endNode f lid g node 3 none) s else .next s

end Sys2Proof.Machine
end

