-- ==== Sys2Proof/Machine/Message.lean ====
section
/-! DEFINITION. Meanings of the message and port forms, OPC 0x31 (R356 to R367). -/

namespace Sys2Proof.Machine

def trapVa {α : Type} (c : Cause) (va : Nat) : M α := throw (.trap { cause := c, tval := BitVec.ofNat 64 va })

/-- gd receives a status of Table 17-2 and a low value. -/
def giveCode (d : GReg) (code low : Nat) : M Flow := do
  modMe fun c => c.wg d (statusWord code low)
  return .next

/-- n words of 8 bytes, read as loads. -/
def loadWords (va : Nat) : Nat → Nat → M (List Word)
  | 0, _ => return []
  | n + 1, i => do
    let (sp, a) ← access va 8 8 .load
    let w := BitVec.ofNat 64 (bytesNat (← readAt sp a va 8 none i))
    return w :: (← loadWords (va + 8) n (i + 1))

/-! ## SEND and SENDV (R361) -/

/-- A pending PORTOV is raised, and cleared by its entry. -/
def portovFirst : M Unit := do
  match (← me).ppov with
  | some v => throw (.trap { cause := .portov, tval := v })
  | none => pure ()

/-- Counts a message towards the declared outputs of an actor (R346). -/
def Task.countSent (t : Task) (port : Nat) : Task :=
  { t with outs := t.outs.map fun o => if o.1 = port then (o.1, o.2.1, o.2.2 + 1) else o }

/-- Queues a message, after earlier writes are visible at FLD. The queue has 8 entries, whatever DEPTH says (R338). -/
def sendMsg (a : GReg) (m : MsgImm) (pay : List Byte) : M Flow := do
  let s ← get
  if Nat.min s.me.sqDepth 8 ≤ s.sqUsed s.myCore s.me.task.tid then throw (.trap { cause := .sendqf, tval := s.sqd s.cur })
  drainStores .fld
  let id ← freshId
  let s ← get
  let c := s.me
  let x : Msg :=
    { id := id, tid := c.task.tid, src := s.myCore, cx := s.cur, dloc := (c.rg a).setWidth 32, dport := m.dport.toNat
      rport := m.rport.toNat, rpy := m.rpy, extn := c.extn, len8 := m.len8.toNat, tag := m.tag, pay := pay }
  set (s.modField s.myField fun f => { f with msgs := f.msgs ++ [x] })
  modMe fun c => { c with task := c.task.countSent m.dport.toNat }
  return .next

def execSend (h : Hdr) (a b : GReg) (m : MsgImm) (s : State) : Out :=
  runIsa h (do
    portovFirst
    illopIf (.send h a b m) (decide (16 < m.len8.toNat))
    let ws ← loadWords ((← me).rg b).toNat m.len8.toNat 0
    sendMsg a m (ws.flatMap fun w => natBytes w.toNat 8)) s

def execSendv (h : Hdr) (a : GReg) (b : VReg) (m : MsgImm) (s : State) : Out :=
  runIsa h (do
    portovFirst
    illopIf (.sendv h a b m) (decide (16 < m.len8.toNat))
    sendMsg a m (natBytes ((← me).rv b).toNat (8 * m.len8.toNat))) s

/-! ## PCFG (R363) -/

/-- The port entry of Table 17-6 in two words. -/
def portOf (w hd : Word) : Port :=
  { direct := w.getLsbD 62, policy := bits w 60 2, limit := bits w 48 8, prio := bits w 45 3, cls := bits w 43 2
    strict := w.getLsbD 42, extn := w.getLsbD 41, asid := w.setWidth 16, handler := hd }

/-- A code address: canonical and a multiple of 4. -/
def codeAddr (w : Word) : Bool := decide (w.toNat < 2 ^ 57) && bits w 0 2 == 0

/-- The rules of R363 for an entry, whatever its EN. DEDUCED: log entry 71. -/
def portBad (w hd : Word) (lvl : Bool) (asid : BitVec 16) : Bool :=
  let p := portOf w hd
  p.policy == 3 ||
  if p.direct then
    p.policy != 0 || p.limit != 0 || !codeAddr hd || (!lvl && p.asid != asid)
  else
    p.limit == 0 || decide (64 < p.limit) || p.prio != 0 || p.cls != 0 || p.strict || p.extn || p.asid != 0 || hd != 0

/-- Reserved bits of a port entry. DEDUCED: log entry 71. -/
def portRsv (w : Word) : Bool := bits w 56 4 != 0 || bits w 16 25 != 0

/-- A configured pattern names a port. -/
def Core.portNamed (c : Core) (n : Nat) : Bool := c.pats.any fun p => p.2.ins.any fun i => i.1 == n

/-- DEDUCED: log entries 71, 72. -/
def execPcfg (h : Hdr) (d a : GReg) (port : BitVec 5) (s : State) : Out :=
  runIsa h (do
    let c ← me
    let va := (c.rg a).toNat
    let n := port.toNat
    if 30 ≤ n ∧ c.lvl = false then trapVa .perm va
    let ws ← loadWords va 2 0
    let w := ws.getD 0 0
    let hd := ws.getD 1 0
    let s ← get
    let k := s.core s.myCore
    if k.portLen n != 0 || k.portNamed n then giveCode d 1 0
    else if portRsv w || portBad w hd c.lvl c.asid then giveCode d 2 0
    else do
      modify fun s => s.modCore s.myCore fun k =>
        { k with ports := if w.getLsbD 63 then SMap.put k.ports n { portOf w hd with owner := c.task.member } else SMap.del k.ports n }
      giveCode d 0 0) s

/-! ## JCFG, JENA, JDIS (R364, R365) -/

/-- The used inputs or outputs of a pattern entry. -/
def patPorts (w : Word) : List (Nat × Nat) :=
  (List.range 4).filterMap fun j =>
    if bits w (16 * j + 15) 1 = 1 then some (bits w (16 * j) 5, bits w (16 * j + 8) 4) else none

def patRsv (w : Word) : Bool := (List.range 4).any fun j => bits w (16 * j + 12) 3 != 0 || bits w (16 * j + 5) 3 != 0

/-- The numbers of the used ones. -/
def patPos (w : Word) : List Nat := (List.range 4).filter fun j => bits w (16 * j + 15) 1 = 1

/-- The pattern of an entry of four words. -/
def patOf (w0 w1 w2 w3 : Word) : Pattern :=
  { ins := patPorts w0, pos := patPos w0, outs := patPorts w1, prio := bits w2 0 3, cls := bits w2 3 2, extn := w2.getLsbD 5
    strict := w2.getLsbD 6, actor := w2.getLsbD 7, asid := w2.extractLsb' 16 16, handler := w3 }

def countsBad (l : List (Nat × Nat)) : Bool := l.any fun i => i.2 == 0 || decide (8 < i.2)

/-- The rules of R364 for an entry, with or without a used input. DEDUCED: log entry 71. -/
def Core.patBad (c : Core) (p : Pattern) (lvl : Bool) (asid : BitVec 16) : Bool :=
  let ps := p.ins.map (·.1)
  let queued (n : Nat) : Bool := match SMap.find? c.ports n with
    | some x => !x.direct
    | none => false
  !decide ps.Nodup || countsBad p.ins || countsBad p.outs || !ps.all queued || (!lvl && ps.any (decide <| 30 ≤ ·))
    || (!p.actor && !p.outs.isEmpty) || !codeAddr p.handler || (!lvl && p.asid != asid)

/-- DEDUCED: log entry 71. -/
def execJcfg (h : Hdr) (d a : GReg) (pat : BitVec 4) (s : State) : Out :=
  runIsa h (do
    let c ← me
    let ws ← loadWords (c.rg a).toNat 4 0
    let w0 := ws.getD 0 0
    let w1 := ws.getD 1 0
    let w2 := ws.getD 2 0
    let n := pat.toNat
    let p := patOf w0 w1 w2 (ws.getD 3 0)
    let s ← get
    let k := s.core s.myCore
    if k.jen.testBit n || (k.joinOn n).isSome then giveCode d 1 0
    else if patRsv w0 || patRsv w1 || bits w2 8 8 != 0 || bits w2 32 32 != 0
        || k.patBad p c.lvl c.asid then giveCode d 2 0
    else do
      modify fun s => s.modCore s.myCore fun k =>
        { k with pats := if p.ins.isEmpty then SMap.del k.pats n else SMap.put k.pats n { p with owner := c.task.member } }
      giveCode d 0 0) s

/-- The mask of the patterns that are configured. -/
def Core.patMask (c : Core) : Nat := c.pats.foldl (fun a p => a ||| 2 ^ p.1) 0

def execJena (h : Hdr) (d : GReg) (b : GI) (s : State) : Out :=
  runIsa h (do
    let s ← get
    let m := GI.uval b s.me
    illopIf (.jena h d b) (bits m 16 48 != 0)
    let k := s.core s.myCore
    modify fun s => s.modCore s.myCore fun k => k.setJen (k.jen ||| (m.toNat &&& k.patMask))
    modMe fun c => c.wg d (BitVec.ofNat 64 k.jen)
    return .next) s

def execJdis (h : Hdr) (d : GReg) (b : GI) (s : State) : Out :=
  runIsa h (do
    let s ← get
    let m := GI.uval b s.me
    illopIf (.jdis h d b) (bits m 16 48 != 0)
    let k := s.core s.myCore
    modify fun s => s.modCore s.myCore fun k => k.setJen (k.jen - (k.jen &&& m.toNat))
    modMe fun c => c.wg d (BitVec.ofNat 64 k.jen)
    return .next) s

/-! ## MTAKE and MREPLAY (R342, R367) -/

/-- PERM outside contexts 14 and 15; an image lies in the own local window or in paged memory. -/
def imageCheck (va : Nat) : M Unit := do
  let s ← get
  if ctxNum s.cur < 14 then trapVa .perm va
  if 2 ^ 57 ≤ va then trapVa .bounds va
  if va % 16 ≠ 0 then trapVa .align va
  match s.space s.myCore va with
  | .paged => pure ()
  | .core .. => if clusterBase ≤ va then trapVa .bounds va
  | _ => trapVa .bounds va

/-- The places of n pieces of 16 bytes, all checked. -/
def piecePlaces (va : Nat) (k : AccKind) : Nat → M (List (Nat × Space × BitVec 16))
  | 0 => return []
  | n + 1 => do
    let (sp, a) ← access va 16 16 k
    return (va, sp, a) :: (← piecePlaces (va + 16) k n)

/-- Writes bytes at checked places, 16 bytes or what is left at each. -/
def writePieces : List (Nat × Space × BitVec 16) → List Byte → M Unit
  | [], _ => return ()
  | (va, sp, a) :: t, bs => do
    writeAt sp a va (bs.take 16) none
    writePieces t (bs.drop 16)

/-- The message that MTAKE removes: slot and the core without it. -/
def Core.takeOldest (c : Core) (port : Nat) (spl : Bool) : Option (Nat × Core) :=
  if spl then
    match c.spills with
    | [] => none
    | n :: t => some (n, { c with spills := t, slots := SMap.del c.slots n })
  else
    match SMap.find? c.ports port with
    | none => none
    | some p =>
      match p.queue with
      | [] => none
      | n :: t => some (n, { c with ports := SMap.put c.ports port { p with queue := t }, slots := SMap.del c.slots n })

/-- Header and payload of the message in a slot. -/
def Core.slotBytes (c : Core) (n : Nat) : List Byte :=
  let len := (Mem.read c.cmem (slotBase n + 6)).toNat % 32 * 8
  Mem.readBytes c.cmem (slotBase n) (16 + min len 128)

def execMtake (h : Hdr) (d a : GReg) (port : BitVec 5) (spl : Bool) (s : State) : Out :=
  runIsa h (do
    let va := ((← me).rg a).toNat
    imageCheck va
    let ps ← piecePlaces va .store 9
    let s ← get
    match (s.core s.myCore).takeOldest port.toNat spl with
    | none => giveCode d 4 0
    | some (n, c) => do
      let bs := (s.core s.myCore).slotBytes n
      set (s.setCore s.myCore c)
      writePieces (ps.take ((bs.length + 15) / 16)) bs
      giveCode d 0 n) s

/-- The port that an image goes back to, when its locator names this core. -/
def State.replayPort (s : State) (hd : List Byte) : Option Nat :=
  let ret := (byteAt hd 5).getLsbD 7
  let loc : BitVec 32 := BitVec.ofNat 32 (fieldAt hd (if ret then 8 else 0) 4)
  if s.locCore loc = some s.myCore then some ((byteAt hd (if ret then 5 else 4)).toNat % 32) else none

/-- A message goes to the head of its port, whatever the port's limit. -/
def Core.replay (c : Core) (port n : Nat) (p : Port) (bs : List Byte) : Core :=
  { c.fillSlot n bs (.port port) with ports := SMap.put c.ports port { p with queue := n :: p.queue } }

def execMreplay (h : Hdr) (d a : GReg) (s : State) : Out :=
  runIsa h (do
    let va := ((← me).rg a).toNat
    imageCheck va
    let ws ← loadWords va 18 0
    let bs := ws.flatMap fun w => natBytes w.toNat 8
    let s ← get
    let k := s.core s.myCore
    match s.replayPort bs with
    | none => giveCode d 10 0
    | some port =>
      match SMap.find? k.ports port with
      | none => giveCode d 5 0
      | some p =>
        if p.direct then giveCode d 5 0
        else match k.freeSlot with
          | none => giveCode d 3 0
          | some n => do
            let len := (byteAt bs 6).toNat % 32 * 8
            modify fun s => s.modCore s.myCore fun k => k.replay port n p (bs.take (16 + min len 128))
            giveCode d 0 0) s

end Sys2Proof.Machine
end

