-- ==== Sys2Proof/Machine/Task.lean ====
section
/-! DEFINITION. Meanings of the task forms, OPC 0x32 (R346 to R349, R366, R368 to R373). -/

namespace Sys2Proof.Machine

/-! ## SPAWN (R348, R371) -/

/-- Places of the deque: 64 in hardware and 32 in the spill space. -/
def dequeSize : Nat := 96

/-- The entry that a SPAWN pushes. -/
def Ctx.spawned (c : Ctx) (pc arg : Word) (cls : Nat) : Spawned :=
  { pc := pc, arg := arg, asid := c.asid, cls := cls, prio := c.task.prio, fst := c.fstat.extractLsb' 8 2 }

/-- Pushes onto the bottom of a deque. -/
def Core.pushDeque (c : Core) (e : Spawned) : Core := { c with deque := c.deque ++ [e] }

/-- DEDUCED: log entry 73. -/
def execSpawn (h : Hdr) (d a b : GReg) (cls : BitVec 2) (s : State) : Out :=
  runIsa h (do
    let c ← me
    let pc := c.rg a
    if 2 ^ 57 ≤ pc.toNat then trapVa .bounds pc.toNat
    if bits pc 0 2 ≠ 0 then trapVa .align pc.toNat
    let s ← get
    if dequeSize ≤ (s.core s.myCore).deque.length then giveCode d 3 0
    else do
      drainStores .fld
      modify fun s => s.modCore s.myCore fun k => k.pushDeque (c.spawned pc (c.rg b) cls.toNat)
      giveCode d 0 0) s

/-! ## JOINW (R366) -/

/-- Every slot a context's task owns returns to the pool. -/
def State.freeOwned (s : State) (c : Nat) : State :=
  let ns := (s.ctx c).task.slots.map (·.slot)
  (s.modCore (coreOf c) fun k => ns.foldl (fun k n => k.dropSlot n) k).modCtx c fun x =>
    { x with task := { x.task with slots := [] } }

/-- The context is in the order of those that wait on a pattern. -/
def Core.joinWait (c : Core) (cx n : Nat) : Core :=
  if c.joins.any fun j => j.1 == cx then c else { c with joins := c.joins ++ [(cx, n)] }

/-- A class has a context free. -/
def State.classFree (s : State) (k cls : Nat) : Bool := (s.freeCtx k cls).isSome

/-- The JOINW of a context is the next choice of R344 on its core. DEDUCED: log entry 76. -/
def State.joinWins (s : State) (k cx : Nat) : Bool :=
  match bestCand ((s.core k).cands fun cls => s.classFree k cls) with
  | some x => x.join == some cx
  | none => false

/-- Consumes a pattern's messages for a task: the core, and the take lists; waits: direct ports at which an arrival waits.
DEDUCED: log entry 76. -/
def Core.consume (c : Core) (cx n tid : Nat) (p : Pattern) (waits : List Nat) : Core × List (List Nat) :=
  let c := (c.countFiring (some n) none waits).takeInputs tid p.ins
  ({ c.1 with joins := c.1.joins.filter fun j => j.1 != cx }, c.2)

/-- Take lists written to the registers of their inputs, from register d on. -/
def Ctx.putTakes (c : Ctx) (d : Nat) (ts : List (Nat × List Nat)) : Ctx :=
  ts.foldl (fun c t => c.wg (BitVec.ofNat 6 (d + t.1)) (takeList t.2)) c

/-- DEDUCED: log entry 76. -/
def execJoinw (h : Hdr) (d : GReg) (pat : BitVec 4) (free : Bool) (s : State) : Out :=
  runIsa h (do
    let n := pat.toNat
    let s ← get
    let k := s.myCore
    match SMap.find? (s.core k).pats n with
    | none => throw (.trap { cause := .illop, tval := (Instr.joinw h d pat free).tvalBits })
    | some p => do
      if free then modify fun s => s.freeOwned s.cur
      modify fun s => s.modCore k fun c => c.joinWait s.cur n
      let s ← get
      waitIf (!s.joinWins k s.cur) (.pattern n)
      let (c, ts) := (s.core k).consume s.cur n s.me.task.tid p (s.waitPorts k)
      set (s.setCore k c)
      modMe fun x => ({ x with task := x.task.own ts.flatten }).putTakes d.toNat (p.pos.zip ts)
      acquireAll
      return .next) s

/-! ## CARM and CDEC (R347, R368 to R370) -/

/-- The descriptor that CARM names: the own core memory, by either window. -/
def State.ownOffset (s : State) (k va : Nat) : Option Nat :=
  if 2 ^ 57 ≤ va then none
  else match s.space k va with
    | .core c o => if c = k then some o else none
    | _ => none

/-- COUNT and STATE of a descriptor. -/
def Core.codeletCount (c : Core) (o : Nat) : Nat := bytesNat (Mem.readBytes c.cmem o 4)
def Core.codeletState (c : Core) (o : Nat) : Byte := Mem.read c.cmem (o + 4)

/-- STATE of a codelet armed by a context (Table 17-8). -/
def Ctx.codeletState (c : Ctx) (cls : BitVec 2) : Nat :=
  1 + cls.toNat * 2 + c.task.prio % 8 * 8 + (c.fstat.extractLsb' 8 2).toNat * 64

/-- The descriptors of the list that are armed: STATE.ARMED counts, whatever wrote it (R368, R369). -/
def Core.armedNow (c : Core) : List Nat := c.armed.filter fun o => (c.codeletState o).getLsbD 0

/-- Arms a codelet. -/
def Core.arm (c : Core) (o n st asid : Nat) : Core :=
  { ((c.writeMem o (natBytes n 4)).writeMem (o + 4) (natBytes st 1)).writeMem (o + 6) (natBytes asid 2) with
    armed := addShare c.armedNow o }

/-- DEDUCED: log entry 74. -/
def execCarm (h : Hdr) (d a b : GReg) (cls : BitVec 2) (s : State) : Out :=
  runIsa h (do
    let s ← get
    let c := s.me
    let va := (c.rg a).toNat
    let k := s.myCore
    match s.ownOffset k va with
    | none => trapVa .bounds va
    | some o => do
      if va % 32 ≠ 0 then trapVa .align va
      if schedBase ≤ o then trapVa .perm va
      let n := (c.rg b).toNat
      illopIf (.carm h d a b cls) (decide (2 ^ 32 ≤ n) || n == 0)
      let _ ← cmemRead k o 8 va
      let co := s.core k
      if (co.codeletState o).getLsbD 0 then giveCode d 6 0
      else if 256 ≤ co.armedNow.length + co.ring.length then giveCode d 3 0
      else do
        drainStores .fld
        modify fun s => (s.serveFe k).modCore k fun co => co.arm o n (c.codeletState cls) c.asid.toNat
        giveCode d 0 0) s

/-- A place of the ready ring: the descriptor at an offset of a core's memory. -/
def ringRef (k o : Nat) : Nat := k * 2 ^ 18 + o

/-- Subtracts n from COUNT; at 0 the codelet is no longer armed and goes onto the ready ring. -/
def Core.decrement (c : Core) (k o n : Nat) : Core :=
  let x := c.codeletCount o - n
  let st := c.codeletState o
  let c := c.writeMem o (natBytes x 4)
  if x = 0 then
    { c.writeMem (o + 4) [st &&& 0xFE] with armed := c.armed.filter (· != o), ring := c.ring ++ [ringRef k o] }
  else { c with armed := addShare c.armed o }

/-- DEDUCED: log entry 75. -/
def execCdec (h : Hdr) (d a : GReg) (b : GI) (s : State) : Out :=
  runIsa h (do
    let s ← get
    let c := s.me
    let i : Instr := .cdec h d a b
    let w := c.rg a
    let o := bits w 0 18
    illopIf i (bits w 18 14 != 0)
    if o % 32 ≠ 0 then trapVa .align w.toNat
    let n := (GI.uval b c).toNat
    illopIf i (decide (2 ^ 32 ≤ n) || n == 0)
    drainStores .fld
    match (s.locCore (w.extractLsb' 32 32)).filter fun k => fieldOf k == s.myField with
    | none => giveCode d 9 0
    | some k => do
      if cmemSize ≤ o then trapVa .bounds w.toNat
      let _ ← cmemRead k o 8 w.toNat
      let s ← get
      let co := s.core k
      let old := co.codeletCount o
      if !(co.codeletState o).getLsbD 0 then giveCode d 7 old
      else if old < n then giveCode d 8 old
      else do
        modify fun s => (s.serveFe k).modCore k fun co => co.decrement k o n
        giveCode d 0 old) s

/-! ## TEXIT (R373) -/

/-- Logs RATE for each declared output whose count differs (R346). -/
def State.rateCheck (s : State) (c : Nat) : State :=
  (s.ctx c).task.outs.foldl (fun s o =>
    if o.2.2 = o.2.1 then s
    else s.logErr (fieldOf (coreOf c)) .rate { loc := locator (coreOf c), detail := BitVec.ofNat 64 o.1 }) s

/-- What TEXIT waits for: the send queue, items and queued matrix instructions, its late faults, and its stores at SYS, with those that
its marks follow; then the marks are published (R258, R260, R373). -/
def exitDrain : M Unit := do
  let s ← get
  let k := s.myCore
  let t := s.me.task.tid
  waitIf (s.sqUsed k t != 0) .queue
  waitIf ((s.core k).items.any fun i => i.tid == t && i.status.isNone) .items
  waitIf (s.recsOpen s.myCl t) .items
  waitIf ((s.core k).mq.any fun e => e.tid == t) .items
  lateFirst
  drainStores .sys
  waitIf ((← get).marksOpen k t) .drain
  modify fun s => s.publishMarks k t

/-- The end of a task by TEXIT; after it a context 15 goes on at the next instruction. DEDUCED: log entry 77. -/
def State.taskExit (s : State) : State :=
  let nest := s.me.nest
  let s := s.rateCheck s.cur
  let s := (s.setMe s.me.advance).freeOwned s.cur
  s.endTask s.cur (if nest then .failedTrap else .done)

/-- Runs what ends a context's activity: the state that the end leaves, or a trap or a wait. -/
def runEnd (h : Hdr) (m : M Unit) (fin : State → State) (s : State) : Out :=
  if Hdr.holds h s.me then
    match m s with
    | .ok _ s' => .next (fin s')
    | .error (.trap t) _ => .next (s.takeTrap s.cur t)
    | .error (.wait w) s' => .next (s'.setMe { s'.me with st := .waiting w })
    | .error .late _ => .next (s.takeLate s.cur)
    | .error (.fail ..) _ => .next s
  else .next (yldAfter h s.skip)

/-- DEDUCED: log entry 77. -/
def execTexit (h : Hdr) (s : State) : Out :=
  runEnd h (do
    portovFirst
    exitDrain) State.taskExit s

/-! ## SQCFG and STLCFG (R372) -/

def execSqcfg (h : Hdr) (b : GI) (s : State) : Out :=
  runIsa h (do
    let n := (GI.uval b (← me)).toNat
    illopIf (.sqcfg h b) (n == 0 || decide (8 < n))
    modMe fun c => { c with sqDepth := n }
    return .next) s

def execStlcfg (h : Hdr) (b : GI) (s : State) : Out :=
  runIsa h (do
    let n := (GI.uval b (← me)).toNat
    illopIf (.stlcfg h b) (decide (2 < n))
    modify fun s => s.modCore s.myCore fun c => c.setReg 0x051 (BitVec.ofNat 64 n)
    return .next) s

end Sys2Proof.Machine
end

