-- ==== Sys2Proof/Machine/SchedEvents.lean ====
section
/-! DEFINITION. Steps of the core schedulers and of the field balancers: choosing work, messages, the saddlebag, the
rein, the panel, barriers, and the energy windows (R335 to R355, R398, R399). -/

namespace Sys2Proof.Machine

/-! ## CONTEXT_RESTORE (R382 to R384) -/

/-- The saved task of a frame-list entry. -/
def Core.savedAt (c : Core) (entry : Nat) : Option Saved := c.saved.find? fun v => v.entry == some entry

/-- Restores the task of a READY entry into a context; a task that cannot be restored is lost. -/
def restoreEntry (k x entry : Nat) (sv : Saved) : M Unit := do
  let s ← get
  let co := s.core k
  let a : FrameAt := { f := fieldOf k, cl := clusterOf k, asid := co.frameAsid, key := co.frameKey, addr := co.frameAddr entry }
  let ok ← restoreInto k x a (some (co.frameNum entry)) sv
  if !ok then modify fun s => s.loseSaved k sv
  modify fun s => s.modCore k fun co => co.writeMem (0x2F80C + 32 * entry) [1]
  modify fun s => if ok then s.takeLate (k * 16 + x) else s

/-! ## CONTEXT_SELECT (R336, R344 to R349) -/

/-- Work that a context may be given, in the order of Table 16-7. -/
inductive Work where
  | restore (entry : Nat) (v : Saved)
  | fire (n : Nat) (p : Pattern)
  | joined (cx : Nat)
  | codelet (r : Nat)
  | pop (i : Nat) (e : Spawned)
  | steal (k i : Nat) (e : Spawned)
  deriving DecidableEq, Repr

/-- The choice of R344 for one context. -/
def Core.firing (c : Core) (x : Nat) : Option Work :=
  match bestCand (c.cands fun cls => c.allows cls x) with
  | none => none
  | some b => match b.join with
    | some j => some (.joined j)
    | none => (SMap.find? c.pats b.num).map fun p => .fire b.num p

/-- Class of a codelet of the ready ring. -/
def State.codeletCls (s : State) (r : Nat) : Nat := ((s.core (r / 2 ^ 18)).codeletState (r % 2 ^ 18)).toNat / 2 % 4

/-- The oldest codelet of the ready ring, when its class allows. -/
def State.ringWork (s : State) (k x : Nat) : Option Work :=
  match (s.core k).ring with
  | [] => none
  | r :: _ => if (s.core k).allows (s.codeletCls r) x then some (.codelet r) else none

/-- The newest entry of the deque that a class allows, by its place. DEDUCED: log entry 79. -/
def Core.popWork (c : Core) (x : Nat) : Option Work :=
  (c.deque.zipIdx.reverse.find? fun e => c.allows e.1.cls x).map fun e => .pop e.2 e.1

/-- The oldest entry of a victim that the thief's class allows. DEDUCED: log entry 79. -/
def Core.stolen (v c : Core) (x : Nat) : Option (Nat × Spawned) :=
  (v.deque.zipIdx.find? fun e => c.allows e.1.cls x).map fun e => (e.2, e.1)

def Core.domain (c : Core) : Nat := bits (c.reg 0x051) 0 2

/-- Manhattan distance of two clusters of a field. -/
def clDist (a b : Nat) : Nat :=
  let d (x y : Nat) : Nat := (x - y) + (y - x)
  d (a % 8) (b % 8) + d (a / 8) (b / 8)

/-- Victims in the order of R349: the own cluster, then, with FIELD, the others by distance. -/
def victimsOf (k : Nat) (field : Bool) : List Nat :=
  let f := fieldOf k
  let cl := coreNum k / 8
  let own := (List.range 7).map fun i => f * 320 + cl * 8 + (k % 8 + 1 + i) % 8
  let far := (List.range 13).flatMap fun d => (List.range 40).filter fun j => j != cl && clDist cl j == d
  own ++ if field then far.flatMap fun j => (List.range 8).map fun i => f * 320 + j * 8 + i else []

/-- A core may steal from another: its domain contains the victim, and the victim's the thief. -/
def State.maySteal (s : State) (k v : Nat) : Bool :=
  let near := clusterOf k == clusterOf v
  decide ((if near then 1 else 2) ≤ (s.core k).domain) && decide ((if near then 1 else 2) ≤ (s.core v).domain)
    && !(s.core v).retired

def State.stealWork (s : State) (k x : Nat) : Option Work :=
  let c := s.core k
  if c.domain = 0 then none
  else (victimsOf k (c.domain == 2)).findSome? fun v =>
    if s.maySteal k v then ((s.core v).stolen c x).map fun e => .steal v e.1 e.2 else none

/-- The first work that a context's class allows. -/
def State.workFor (s : State) (k x : Nat) : Option Work :=
  let c := s.core k
  let res (own : Bool) : Option Work := (c.restorable x own).map fun r => .restore r.1 r.2
  ([res false, c.firing x, s.ringWork k x, c.popWork x, res true].findSome? id).orElse fun _ => s.stealWork k x

/-- Starts the handler of a pattern that fires. -/
def State.fire (s : State) (k x n : Nat) (p : Pattern) : State :=
  let c := k * 16 + x
  let tid := s.fresh
  let (co, ts) := (s.core k).consume c n tid p (s.waitPorts k)
  let t : Task :=
    { tid := tid, prio := p.prio, cls := p.cls, slots := ts.flatten.map fun n => { slot := n }
      outs := if p.actor then p.outs.map fun o => (o.1, o.2, 0) else [], owner := p.owner }
  let fst : BitVec 2 := bit p.strict ++ bit p.extn
  let s := (s.setCore k co).modCtx c fun y =>
    (y.start p.handler (Vector.replicate 64 0) fst p.asid t).putTakes 1 (p.pos.zip ts)
  (s.bump).startAcquire k

/-- Starts a spawned task. -/
def State.startSpawned (s : State) (k x : Nat) (e : Spawned) : State :=
  let t : Task := { tid := s.fresh, prio := e.prio, cls := e.cls }
  ((s.modCtx (k * 16 + x) fun y => y.start e.pc (argRegs e.arg) e.fst e.asid t).bump).startAcquire k

/-- Starts the codelet at the head of the ready ring. -/
def State.startCodelet (s : State) (k x r : Nat) : State :=
  let c := s.core (r / 2 ^ 18)
  let o := r % 2 ^ 18
  let w (d n : Nat) : Nat := bytesNat (Mem.readBytes c.cmem (o + d) n)
  let st := (c.codeletState o).toNat
  let e : Spawned :=
    { pc := BitVec.ofNat 64 (w 8 8), arg := BitVec.ofNat 64 (w 16 8), asid := BitVec.ofNat 16 (w 6 2), cls := st / 2 % 4
      prio := st / 8 % 8, fst := BitVec.ofNat 2 (st / 64 % 4) }
  (s.modCore k fun co => { co with ring := co.ring.drop 1 }).startSpawned k x e

/-- Takes an entry out of a deque. -/
def State.takeDeque (s : State) (k i : Nat) : State := s.modCore k fun c => { c with deque := c.deque.eraseIdx i }

/-- Gives work to a context of a core. -/
def giveWork (k x : Nat) (w : Work) : M Unit :=
  match w with
  | .restore e v => restoreEntry k x e v
  | .fire n p => modify fun s => s.fire k x n p
  | .joined c => modify fun s => s.wake c
  | .codelet r => modify fun s => s.startCodelet k x r
  | .pop i e => modify fun s => (s.takeDeque k i).startSpawned k x e
  | .steal v i e => modify fun s => (s.takeDeque v i).startSpawned k x e

/-- A context of 0 to 13 that is free, of a core that works. -/
def State.canTake (s : State) (c : Nat) : Bool :=
  (s.ctx c).st == .free && decide (ctxNum c < 14) && !(s.core (coreOf c)).retired && !(s.field (fieldOf (coreOf c))).inReset

def execContextSelect (c : Nat) (s : State) : Out :=
  if s.canTake c then
    match s.workFor (coreOf c) (ctxNum c) with
    | none => .next s
    | some w => runEvent (giveWork (coreOf c) (ctxNum c) w) s
  else .next s

/-- A restore, when it is the first work of the context. -/
def execContextRestore (k entry x : Nat) (s : State) : Out :=
  if s.canTake (k * 16 + x) && decide (x < 14) then
    match s.workFor k x with
    | some (.restore e v) => if e = entry then runEvent (restoreEntry k x e v) s else .next s
    | _ => .next s
  else .next s

/-! ## MESSAGE_ARRIVE and its retries (R337 to R341) -/

/-- What a message meets at its destination; held: a return whose port is not configured while the saddlebag is off (R362). -/
inductive Arrival where
  | back (status : Nat)
  | refused
  | held
  | placed (s : State)

/-- A message leaves the send queue. -/
def State.dropMsg (s : State) (f id : Nat) : State := s.modField f fun fd => { fd with msgs := fd.msgs.filter fun m => m.id != id }
def State.setMsg (s : State) (f id : Nat) (st : MsgSt) : State :=
  s.modField f fun fd => { fd with msgs := fd.msgs.map fun m => if m.id = id then { m with st := st } else m }

/-- The context that starts a direct port's handler. -/
def State.directCtx (s : State) (k n : Nat) (p : Port) : Option Nat :=
  if 30 ≤ n then (if (s.ctx (k * 16 + 15)).idle then some 15 else none) else s.arrivalCtx k n p

/-- Context 15 wakes at an arrival at ports 30 and 31 (R390). -/
def State.wakeService (s : State) (k n : Nat) : State := if 30 ≤ n then s.modCtx (k * 16 + 15) Ctx.wakeUp else s

/-- A message with its header comes to a port. limit: the port's limit and policy apply. DEDUCED: log entry 80. -/
def State.toPort (s : State) (k port : Nat) (bs : List Byte) (limit : Bool) : Arrival :=
  let c := s.core k
  match SMap.find? c.ports port with
  | none => .back 3
  | some p =>
    match c.freeSlot with
    | none => .refused
    | some n =>
      if p.direct then
        match s.directCtx k port p with
        | none => .refused
        | some x => .placed (s.startDirect k x n port p bs)
      else if !limit || p.queue.length < p.limit then .placed ((s.modCore k fun c => c.placeMsg port n bs).wakeService k port)
      else if p.policy = 0 then .placed (s.modCore k fun c => c.spillMsg port n bs)
      else .back (if p.policy = 1 then 1 else 2)

/-- The core of this field that a message goes to. -/
def State.destOf (s : State) (f : Nat) (m : Msg) : Option Nat := (s.locCore m.dloc).filter fun k => fieldOf k == f

def State.arrive (s : State) (f : Nat) (m : Msg) : Arrival :=
  match s.destOf f m with
  | none => .back 4
  | some k => if (s.core k).retired then .back 5 else s.toPort k m.dport (m.header none ++ m.pay) true

def State.msg? (s : State) (f id : Nat) : Option Msg := (s.field f).msgs.find? fun m => m.id == id

/-- A message whose sender is on a refusal list. -/
def Msg.listed (m : Msg) : Bool :=
  match m.st with
  | .refused l _ | .retRefused _ l _ => l
  | _ => false

/-- A message goes onto the refusal list of a core while the list has room for its 32 entries (R339). -/
def State.listAt (s : State) (k id : Nat) : State × Bool :=
  let live := (s.core k).refused.filter fun i => (s.msg? (fieldOf k) i).any Msg.listed
  if live.length < 32 then (s.modCore k fun c => { c with refused := live ++ [id] }, true) else (s, false)

/-- A refusal: listed while the refused core's list has room. -/
def State.refuse (s : State) (f : Nat) (m : Msg) : State :=
  match s.destOf f m with
  | none => s
  | some k =>
    let (s, l) := s.listAt k m.id
    s.setMsg f m.id (.refused l s.ns)

/-- A PORTOV return is pending for the sender, while it runs (R340). DEDUCED: log entry 78. -/
def State.portov (s : State) (m : Msg) : State :=
  let word : Word := BitVec.ofNat 64 (m.dloc.toNat * 2 ^ 32 + m.tag.toNat)
  match s.ctxOfTask m.src m.tid with
  | some c => s.modCtx c fun x => { x with ppov := some (x.ppov.getD word) }
  | none => s.modCore m.src fun k =>
      { k with saved := k.saved.map fun v => if v.task.tid = m.tid then { v with ppov := some (v.ppov.getD word) } else v }

/-- A message tries its destination. -/
def State.tryArrive (s : State) (f : Nat) (m : Msg) : State :=
  match s.arrive f m with
  | .placed s' => (s'.dropMsg f m.id).wakeMem fun c => coreOf c == m.src || some (coreOf c) == s.destOf f m
  | .refused => s.refuse f m
  | .held => s
  | .back st => let s := s.setMsg f m.id (.returning st); if st = 2 then s.portov m else s

/-- No earlier entry of the context for the same core is still here (R338, R362). -/
def State.msgFirst (s : State) (f : Nat) (m : Msg) : Bool :=
  match (s.field f).msgs.find? fun x => x.tid == m.tid && (x.dloc == m.dloc || (s.destOf f x).isSome && s.destOf f x == s.destOf f m) with
  | some x => x.id == m.id
  | none => false

def execMessageArrive (f id : Nat) (s : State) : Out :=
  match s.msg? f id with
  | none => .next s
  | some m => if m.st = .flying && s.msgFirst f m then .next (s.tryArrive f m) else .next s

/-! ## MESSAGE_RETURN (R341, R362) -/

/-- A return enters its return port, ignoring the limit; where that port is not configured it is spilled, or held while the
saddlebag is off. One whose sender's core is retired is lost (R10). DEDUCED: log entry 91. -/
def State.returnMsg (s : State) (m : Msg) (status : Nat) : Arrival :=
  let c := s.core m.src
  let bs := m.header (some status) ++ m.pay
  if c.retired then .placed (s.logErr (fieldOf m.src) .msglost { kind := 2, loc := locator m.src, detail := m.tag.setWidth 64 })
  else match SMap.find? c.ports m.rport with
  | some _ => s.toPort m.src m.rport bs false
  | none =>
    if (c.reg 0x045).getLsbD 63 then
      match c.freeSlot with
      | some n => .placed (s.modCore m.src fun c => c.spillMsg m.rport n bs)
      | none => .refused
    else .held

/-- A return is accepted, or waits, refused as an arrival is (R339, R341); of a task that has been ended by force it is accepted or discarded (R374, R388).
DEDUCED: log entry 80. -/
def State.tryReturn (s : State) (f : Nat) (m : Msg) (status : Nat) : State :=
  match s.returnMsg m status with
  | .placed s' => (s'.dropMsg f m.id).wakeMem fun c => coreOf c == m.src
  | r =>
    if m.ended then (s.dropMsg f m.id).logErr f .msglost { kind := 2, loc := locator m.src, detail := m.tag.setWidth 64 }
    else match r with
      | .refused =>
        let (s, l) := s.listAt m.src m.id
        s.setMsg f m.id (.retRefused status l s.ns)
      | _ => s

def execMessageReturn (f id : Nat) (s : State) : Out :=
  match s.msg? f id with
  | none => .next s
  | some m =>
    match m.st with
    | .returning st => .next (s.tryReturn f m st)
    | _ => .next s

/-- A message of a core's refusal list meets no refusal now. -/
def State.retries (s : State) (k : Nat) (m : Msg) : Bool :=
  match m.st with
  | .refused .. => s.destOf (fieldOf k) m == some k && match s.arrive (fieldOf k) m with
    | .refused => false
    | _ => true
  | .retRefused st .. => m.src == k && match s.returnMsg m st with
    | .placed _ => true
    | _ => false
  | _ => false

/-- The oldest listed sender that a freed context or slot concerns. -/
def State.freeMsg (s : State) (k : Nat) : Option Msg :=
  (s.core k).refused.findSome? fun id => (s.msg? (fieldOf k) id).filter fun m => s.retries k m

/-- That sender retries, and leaves the list. -/
def State.cfreeRetry (s : State) (k : Nat) : State :=
  match s.freeMsg k with
  | none => s
  | some m =>
    let s := s.modCore k fun c => { c with refused := c.refused.filter (· != m.id), cfree := none }
    match m.st with
    | .retRefused st .. => s.tryReturn (fieldOf k) m st
    | _ => s.tryArrive (fieldOf k) m

def execCfreeRetry (k : Nat) (s : State) : Out := .next (s.cfreeRetry k)

/-- An unlisted sender retries every 2 µs. DEDUCED: log entry 80. -/
def State.timerRetry (s : State) (f id : Nat) : State :=
  match s.msg? f id with
  | none => s
  | some m =>
    match m.st with
    | .refused false t => if t + 2000 ≤ s.ns then s.tryArrive f m else s
    | .retRefused st false t => if t + 2000 ≤ s.ns then s.tryReturn f m st else s
    | _ => s

def execRefusalRetryTimer (f id : Nat) (s : State) : Out := .next (s.timerRetry f id)

/-! ## SADDLEBAG_WAKE (R342) -/

def execSaddlebagWake (k : Nat) (s : State) : Out :=
  let c := s.core k
  let w := c.reg 0x045
  let x := k * 16 + 14
  if w.getLsbD 63 && !c.retired && (s.ctx x).idle && (decide (bits w 57 6 + 1 ≤ c.poolUsed) || !c.spills.isEmpty) then
    let t : Task := { tid := s.fresh }
    if (s.ctx x).st = .asleep then .next (s.modCtx x Ctx.wakeUp)
    else .next ((s.modCtx x fun y => y.startService (w &&& 0x01FFFFFFFFFFFFFC#64) (Vector.replicate 64 0) t).bump.startAcquire k)
  else .next s

/-! ## REIN_EVALUATE (R350) -/

def rnReg (f : Field) (num rule : Nat) : Word := f.reg (bankReg num rule)

/-- Cores of a rule's rectangle. -/
def rnCores (f : Nat) (w : Word) : List Nat :=
  let kx0 := bits w 0 6
  let ky0 := bits w 8 3
  (List.range (Nat.min 4 (bits w 24 3) + 1 - ky0)).flatMap fun j =>
    (List.range (bits w 16 6 + 1 - kx0)).map fun i => f * 320 + (ky0 + j) * 64 + kx0 + i

/-- The rein writes a core's enable mask and role. DEDUCED: log entry 83. -/
def State.rnWrite (s : State) (k mask rule : Nat) (b : Bool) : State :=
  s.modCore k fun c => { c.setJen (mask &&& c.patMask) with role := some (rule, b) }

/-- A rule becomes active. -/
def State.reinOn (s : State) (f rule : Nat) : State :=
  let fd := s.field f
  let s := (rnCores f (rnReg fd 0x04A rule)).foldl (fun s k => s.rnWrite k (bits (rnReg fd 0x04B rule) 0 16) rule false) s
  s.modField f fun fd => { fd with rein := SMap.put fd.rein rule s.ns }

/-- A rule is no longer active: no core has a role under it. -/
def State.reinOff (s : State) (f rule : Nat) : State :=
  { s with cores := s.cores.map fun x =>
      if fieldOf x.1 = f ∧ (x.2.role.map (·.1)) = some rule then (x.1, { x.2 with role := none }) else x }

/-- The move of a rule for an occupancy. -/
def State.reinMove (s : State) (f rule occ : Nat) : State :=
  let fd := s.field f
  let ks := rnCores f (rnReg fd 0x04A rule)
  let thr := rnReg fd 0x049 rule
  let mk := rnReg fd 0x04B rule
  if bits thr 16 16 < occ then
    match ks.find? fun k => (s.core k).role == some (rule, false) with
    | some k => s.rnWrite k (bits mk 16 16) rule true
    | none => s
  else if occ < bits thr 0 16 then
    match ks.reverse.find? fun k => (s.core k).role == some (rule, true) with
    | some k => s.rnWrite k (bits mk 0 16) rule false
    | none => s
  else s

def execReinEvaluate (f rule : Nat) (s : State) : Out :=
  let fd := s.field f
  let ring := rnReg fd 0x048 rule
  let due := SMap.get fd.rein rule 0 + bits (rnReg fd 0x04B rule) 32 16 * 1000
  if rule < 8 && ring.getLsbD 63 && !fd.inReset && decide (due ≤ s.ns) then
    match dispRead f ((rnReg fd 0x049 rule).extractLsb' 48 16) (bits ring 4 53 * 16) 16 s with
    | .ok bs s =>
      let occ := (recNat bs 0 8 + 2 ^ 64 - recNat bs 8 8) % 2 ^ 64
      .next ((s.reinMove f rule occ).modField f fun fd => { fd with rein := SMap.put fd.rein rule s.ns })
    | .error _ s => .next s
  else .next s

/-! ## PANEL_SNAPSHOT and PANEL_MOVE (R351) -/

/-- The commands of a snapshot: (source, destination, entries). o: occupancies, with the deque depths. -/
def panelCmds (thresh : Nat) : Nat → List (Nat × Nat × Nat) → List (Nat × Nat × Nat)
  | 0, _ => []
  | n + 1, o =>
    let pick (better : Nat → Nat → Bool) : Option (Nat × Nat × Nat) :=
      o.foldl (fun a x => match a with
        | none => some x
        | some y => if better x.2.1 y.2.1 then some x else some y) none
    match pick (fun a b => decide (b < a)), pick (fun a b => decide (a < b)) with
    | some s, some d =>
      if s.2.1 ≤ d.2.1 + 2 * thresh then []
      else
        let m := Nat.min (Nat.min 16 ((s.2.1 - d.2.1) / 2)) s.2.2
        if m = 0 then panelCmds thresh n (o.filter fun x => x.1 != s.1)
        else
          let step (x : Nat × Nat × Nat) : Nat × Nat × Nat :=
            if x.1 = s.1 then (x.1, x.2.1 - m, x.2.2) else if x.1 = d.1 then (x.1, x.2.1 + m, x.2.2) else x
          (s.1, d.1, m) :: panelCmds thresh n (o.map step)
    | _, _ => []

def execPanelSnapshot (f : Nat) (s : State) : Out :=
  let fd := s.field f
  let w := fd.reg 0x04C
  if w.getLsbD 63 && !fd.inReset && decide (fd.panel + bits w 32 16 * 1000 ≤ s.ns) then
    let ks := ((List.range 320).map (f * 320 + ·)).filter fun k => (s.core k).domain == 2 && !(s.core k).retired
    let o := ks.map fun k => (k, (s.core k).ring.length + (s.core k).deque.length, (s.core k).deque.length)
    let cmds := panelCmds (bits w 0 8) (bits w 8 8) o
    let ms := cmds.zipIdx.map fun (c : (Nat × Nat × Nat) × Nat) =>
      ({ id := s.fresh + c.2, src := c.1.1, dst := c.1.2.1, n := c.1.2.2 } : Move)
    .next { s.modField f fun fd => { fd with panel := s.ns, moves := fd.moves ++ ms } with fresh := s.fresh + ms.length }
  else .next s

/-- Some context of a core can run a class. -/
def Core.runs (c : Core) (cls : Nat) : Bool := (List.range 14).any fun x => c.allows cls x

/-- Splits off up to n entries that a test admits, oldest first: those moved, and those left.
DEDUCED: log entry 82. -/
def takeTop (ok : Spawned → Bool) : Nat → List Spawned → List Spawned × List Spawned
  | 0, l => ([], l)
  | _ + 1, [] => ([], [])
  | n + 1, e :: t =>
    if ok e then let r := takeTop ok n t; (e :: r.1, r.2) else let r := takeTop ok (n + 1) t; (r.1, e :: r.2)

/-- DEDUCED: log entry 82. -/
def execPanelMove (f id : Nat) (s : State) : Out :=
  match (s.field f).moves.find? fun m => m.id == id with
  | none => .next s
  | some m =>
    let s := s.modField f fun fd => { fd with moves := fd.moves.filter fun x => x.id != id }
    let d := s.core m.dst
    let room := if d.retired then 0 else dequeSize - d.deque.length
    let (go, left) := takeTop (fun e => d.runs e.cls) (Nat.min m.n room) (s.core m.src).deque
    .next ((s.modCore m.src fun c => { c with deque := left }).modCore m.dst fun c => { c with deque := go ++ c.deque })

/-! ## BARRIER_ARRIVAL and BARRIER_RELEASE (R283, R353) -/

def State.dropBar (s : State) (f id : Nat) : State := s.modField f fun fd => { fd with bars := fd.bars.filter fun b => b.id != id }

/-- The arrivals that a message carries: their number is its count. -/
def BarMsg.arrivals (m : BarMsg) : List (Nat × Word) := (m.core, m.desc) :: m.others

/-- A message takes up the arrivals that have been gathered where it stands, for the same slot and with the same descriptor. -/
def BarMsg.gather (m : BarMsg) (bs : List BarMsg) : List BarMsg :=
  bs.filter fun b => b.id != m.id && b.release.isNone && b.slot == m.slot && b.desc == m.desc && b.at_ == m.at_

/-- The arrivals at one leader take the next hop together: to the leader of the next cluster of the path of their descriptor
(R353). -/
def State.hopArrivals (s : State) (f : Nat) (m : BarMsg) : State :=
  let got := m.gather (s.field f).bars
  let m' : BarMsg := { m with at_ := nextHop f m.desc m.at_, others := m.others ++ got.flatMap BarMsg.arrivals }
  let go (b : BarMsg) : BarMsg := if b.id = m.id then m' else b
  s.modField f fun fd => { fd with bars := (fd.bars.filter fun b => !got.contains b).map go }

/-- An arrival takes one hop of its path; at the corner of its own descriptor it is judged. DEDUCED: log entry 55. -/
def execBarrierArrival (f id : Nat) (s : State) : Out :=
  match (s.field f).bars.find? fun b => b.id == id with
  | none => .next s
  | some m =>
    if m.release.isSome then .next s
    else if m.at_ != descCorner f m.desc then .next (s.hopArrivals f m)
    else
      let k := m.at_
      let n : BitVec 2 := BitVec.ofNat 2 m.slot
      let s := (s.dropBar f id).modCore k fun c =>
        let b := c.bar n
        c.setBar n { b with arrivals := b.arrivals ++ m.arrivals
                            judge := if b.desc.isNone then some (b.judge.getD m.desc) else b.judge }
      .next (s.barJudge k m.slot)

/-- A slot after its episode has been released. -/
def BarSlot.released (b : BarSlot) (mism : Bool) : BarSlot :=
  { b with arrived := false, episode := b.episode + 1, mism := if mism then b.mism ++ [b.episode] else b.mism }

/-- A release takes one hop of the reverse path; at its core it ends the episode there (R353). -/
def execBarrierRelease (f id : Nat) (s : State) : Out :=
  match (s.field f).bars.find? fun b => b.id == id with
  | none => .next s
  | some m =>
    match m.release with
    | none => .next s
    | some mism =>
      if m.at_ != m.core then
        let m' : BarMsg := { m with at_ := hopBack f m.desc m.core m.at_ }
        .next (s.modField f fun fd => { fd with bars := fd.bars.map fun b => if b.id = m.id then m' else b })
      else
      let n : BitVec 2 := BitVec.ofNat 2 m.slot
      let s := s.dropBar f id
      if ((s.core m.core).bar n).arrived then
        .next ((s.modCore m.core fun c => c.setBar n ((c.bar n).released mism)).wakeMem fun c => coreOf c == m.core)
      else .next s

/-! ## ENERGY_WINDOW and ENERGY_COUNT (R398) -/

def execEnergyWindow (part : Nat) (s : State) : Out :=
  match s.partNow part with
  | none => .next s
  | some p => .next { s with parts := SMap.put s.parts part p }

/-- A launch has groups that run in a partition. -/
def State.launchRuns (s : State) (p : Part) (lid : Nat) (l : Launch) : Bool :=
  inList l.field p.fields && l.ended.isNone && (decide (0 < l.done + l.bad) || s.groups.any fun g => g.2.lid == lid && g.2.started)

/-- Launches take their shares of energy counted: what their cores have used with a part of the rest of their fields. The counters of
the single cores are not in the model, so each share is a free value within what is left (R399). DESIGN CHOICE: log entry 94. -/
def shareEnergy (runs : Nat → Launch → Bool) (n : Nat) : SMap Launch → Nat → SMap Launch
  | [], _ => []
  | (lid, l) :: t, left =>
    if runs lid l then
      let u := (Config.freeWord (n + lid)).toNat % (left + 1)
      (lid, { l with used := l.used + u }) :: shareEnergy runs n t (left - u)
    else (lid, l) :: shareEnergy runs n t left

/-- DESIGN CHOICE: log entry 94. -/
def execEnergyCount (part uj : Nat) (s : State) : Out :=
  match s.partNow part with
  | none => .next s
  | some p =>
    .next { s with parts := SMap.put s.parts part { p with used := p.used + uj }
                   launches := shareEnergy (s.launchRuns p) s.fresh s.launches uj }

end Sys2Proof.Machine
end

