-- ==== Sys2Proof/Machine/FaultEvents.lean ====
section
/-! DEFINITION. Late faults, forced saves, core failures, kills and revocations (R160, R304, R305, R374, R379 to R386,
R392, R393). -/

namespace Sys2Proof.Machine

/-! ## LATE_FAULT_TAKE and FORCED_SAVE (R379, R380) -/

/-- DEDUCED: log entry 46. -/
def execLateFaultTake (c : Nat) (s : State) : Out :=
  if (s.ctx c).st = .ready ∧ (s.ctx c).issues ∧ (s.ctx c).sent.isNone ∧ !s.unresolved c then .next (s.takeLate c) else .next s

/-- A context that holds a task which runs or waits, and whose save has not begun. -/
def Ctx.busy (c : Ctx) : Bool :=
  match c.st with
  | .ready | .waiting _ => c.saving.isNone
  | _ => false

/-- The deadline of a pre-emption request has passed, the context stands at an instruction boundary, and its save can begin
(R380). -/
def State.saveDue (s : State) (c : Nat) : Bool :=
  let x := s.ctx c
  ctxNum c < 14 && x.preq && x.busy && decide (x.preqClk + x.pdl.toNat ≤ s.clk) && s.canSave c && !((s.unsend c).midway c)

/-- A forced save begins, or one that has begun goes on (R381). -/
def execForcedSave (c : Nat) (s : State) : Out :=
  if (s.ctx c).saving.isSome then runEvent (saveOn c) s else if s.saveDue c then .next (s.leave c 1) else .next s

/-! ## CORE_FAILURE (R385, R386) -/

/-- The message in a slot of a port, to be returned with a status: none where it is itself a return. -/
def State.msgOfSlot (s : State) (k n status id : Nat) : Option Msg :=
  let bs := (s.core k).slotBytes n
  let b5 := (byteAt bs 5).toNat
  if 128 ≤ b5 then none
  else
    (s.locCore (BitVec.ofNat 32 (fieldAt bs 8 4))).map fun src =>
      { id := id, tid := id, src := src, cx := src * 16 + (byteAt bs 14).toNat % 16, dloc := BitVec.ofNat 32 (fieldAt bs 0 4)
        dport := (byteAt bs 4).toNat % 32, rport := b5 % 32, rpy := b5.testBit 5, extn := b5.testBit 6
        len8 := (byteAt bs 6).toNat % 32, tag := BitVec.ofNat 16 (fieldAt bs 12 2), pay := bs.drop 16, st := .returning status }

/-- Messages in the ports of a core go back with DEAD. DEDUCED: log entry 91. -/
def State.returnPorts (s : State) (k : Nat) : State :=
  let owned (u : Nat × SlotUse) : Bool := match u.2 with
    | .owned _ => true
    | _ => false
  let held := (s.core k).slots.filter fun u => !owned u
  let ms := held.zipIdx.filterMap fun (u : (Nat × SlotUse) × Nat) => s.msgOfSlot k u.1.1 5 (s.fresh + u.2)
  let s := s.modField (fieldOf k) fun f => { f with msgs := f.msgs ++ ms }
  let clear (p : Nat × Port) : Nat × Port := (p.1, { p.2 with queue := [] })
  { s.modCore k fun c => { c with ports := c.ports.map clear, slots := c.slots.filter owned, spills := [] } with fresh := s.fresh + held.length }

/-- Working cores in the victim order of a core with domain FIELD. DEDUCED: log entry 91. -/
def State.heirs (s : State) (k : Nat) : List Nat := (victimsOf k true).filter fun v => !(s.core v).retired

/-- Entries moved to other cores, in their order, each core taking what it has room for. DEDUCED: log entry 91. -/
def spread {α : Type} (room : Nat → Nat) : List α → List Nat → List (Nat × List α)
  | [], _ => []
  | _, [] => []
  | es, k :: t => (k, es.take (room k)) :: spread room (es.drop (room k)) t

/-- Ready-ring and deque entries of a core move to working cores, as far as these have room; the others wait (R355). -/
def State.moveWork (s : State) (k : Nat) : State :=
  let c := s.core k
  let rings := spread (fun v => 256 - (s.core v).armedNow.length - (s.core v).ring.length) c.ring (s.heirs k)
  let deques := spread (fun v => dequeSize - (s.core v).deque.length) c.deque (s.heirs k)
  let s := rings.foldl (fun s x => if x.2.isEmpty then s else s.modCore x.1 fun v => { v with ring := v.ring ++ x.2 }) s
  let s := deques.foldl (fun s x => if x.2.isEmpty then s else s.modCore x.1 fun v => { v with deque := v.deque ++ x.2 }) s
  let sent {α : Type} (l : List (Nat × List α)) : Nat := (l.map fun x => x.2.length).sum
  s.modCore k fun v => { v with ring := v.ring.drop (sent rings), deque := v.deque.drop (sent deques) }

/-- Entries of retired cores that have found no room move when there is some. -/
def State.moveRest (s : State) : State :=
  (s.cores.filter fun x => x.2.retired && !(x.2.ring.isEmpty && x.2.deque.isEmpty)).foldl (fun s x => s.moveWork x.1) s

/-- A core whose list holds a sender that a freed context or slot concerns sends it CFREE (R339). -/
def State.noteFree (s : State) : State :=
  let note (x : Nat × Core) : Nat × Core :=
    if x.2.refused.isEmpty && x.2.cfree.isNone then x
    else (x.1, { x.2 with cfree := if (s.freeMsg x.1).isSome then some (x.2.cfree.getD s.ns) else none })
  { s with cores := s.cores.map note }

/-- The retries whose 2 µs are over are made: of senders that CFREE has reached, and of unlisted ones (R339, R355). -/
def State.retryDue (s : State) : State :=
  let due (x : Nat × Core) : Bool := match x.2.cfree with
    | some t => decide (t + 2000 ≤ s.ns)
    | none => false
  let late (m : Msg) : Bool := match m.st with
    | .refused false t | .retRefused _ false t => decide (t + 2000 ≤ s.ns)
    | _ => false
  let s' := (s.cores.filter due).foldl (fun s x => s.cfreeRetry x.1) s
  (s.fields.flatMap fun f => (f.2.msgs.filter late).map fun m => (f.1, m.id)).foldl (fun s x => s.timerRetry x.1 x.2) s'

/-- What comes next (R175), after the moves and retries that are due. -/
def State.planNext (s : State) (c : Nat) : State := s.moveRest.noteFree.retryDue.plan c

/-- A saved task of a core ends with a member status. -/
def State.endSaved (s : State) (k : Nat) (v : Saved) (st : MemSt) : State :=
  let s := s.modCore k fun co =>
    { co.releaseTask 99 v.task.tid with saved := co.saved.filter fun w => w.task.tid != v.task.tid }
  let s := s.modCluster (clusterOf k) fun cl => cl.releaseTask v.task.tid
  let s := s.endForced k v.task.tid none v.reqs
  match v.task.member with
  | none => s
  | some m => (s.markMember m st (locator k)).stopGroup m.gid

/-- A context of a failed core ends, and never runs again. -/
def State.failCtx (s : State) (c : Nat) : State :=
  let x := s.ctx c
  let s := match x.st with
    | .free => s
    | .held _ => s
    | _ => ((s.endForced (coreOf c) x.task.tid (some c) []).orphanReqs c).endTask c .failedUe
  s.modCtx c fun y => { y.freed with st := .free }

/-- A cluster changes its wear state, with a WEAR record (R401). -/
def State.setWear (s : State) (cl : Nat) (w : Wear) : State :=
  if (s.cluster cl).wear = w then s
  else (s.modCluster cl fun c => { c with wear := w }).logErr (fieldOfCl cl) .wear { kind := 2, loc := locator (clusterCore cl) }

/-- DEDUCED: log entry 91. -/
def execCoreFailure (k : Nat) (s : State) : Out :=
  if (s.core k).retired then .next s
  else
    let s := s.modCore k fun c => { c with retired := true }
    let s := (s.core k).saved.foldl (fun s v => s.endSaved k v .failedUe) s
    let s := (List.range 16).foldl (fun s x => s.failCtx (k * 16 + x)) s
    let s := (s.returnPorts k).moveWork k
    let s := (s.setWear (clusterOf k) .retired).logErr (fieldOf k) .core { syn := 2, kind := 2, loc := locator k }
    .next s

/-! ## KILL (R160, R304, R374, R392) -/

/-- Ends the send-queue entries of a task: returned with DEAD where a slot accepts it, else discarded with MSGLOST.
The numbers of each. -/
def State.killMsgs (s : State) (f tid : Nat) : State × Nat × Nat :=
  ((s.field f).msgs.filter fun m => m.tid == tid).foldl (fun a m =>
    let (s, dead, lost) := a
    let st := match m.endedBy.st with
      | .returning n => n
      | _ => 5
    match s.returnMsg m st with
    | .placed s' => (s'.dropMsg f m.id, if st = 5 then dead + 1 else dead, lost)
    | _ => ((s.dropMsg f m.id).logErr f .msglost { kind := 2, loc := locator m.src, detail := m.tag.setWidth 64 }, dead, lost + 1))
    (s, 0, 0)

/-- Puts and RAMOs of a task that have not ended. -/
def State.openItems (s : State) (k tid : Nat) : Nat :=
  ((s.core k).items.filter fun i => i.tid == tid && i.status.isNone && match i.kind with
    | .put .. | .ramo .. => true
    | _ => false).length

/-- Ends a task by KILL; its context, or its frame-list entry, is kept until the kill has completed. -/
def State.killTask (s : State) (x : Kill) : State :=
  let f := fieldOf x.core
  let s := s.modField f fun fd => { fd with kills := fd.kills.filter fun y => y.id != x.id }
  let n := s.openItems x.core x.tid
  let reqs := (((s.core x.core).saved.find? fun v => v.task.tid == x.tid).map (·.reqs)).getD []
  let (s, dead, lost) := (s.withdraw x.core x.tid x.cx reqs).killMsgs f x.tid
  let x := { x with items := n, dead := dead, lost := lost, begun := true }
  let s := s.modField f fun fd => { fd with kills := fd.kills ++ [x] }
  match x.cx with
  | some c => ((s.killItems x.core x.tid).endTask c .killed).modCtx c fun y => { y with st := RunSt.held x.id }
  | none =>
    match (s.core x.core).saved.find? fun v => v.task.tid == x.tid with
    | some v => s.endSaved x.core v .killed
    | none => s

/-- A KILL begins, unless a save of its task is in progress or its instruction is committed, which it waits for (R276,
Table 18-4); a task that has been saved meanwhile is ended in its frame. -/
def State.beginKill (s : State) (x : Kill) : State :=
  let hold : State := s.modField (fieldOf x.core) fun fd =>
    { fd with kills := fd.kills.filter (fun y => y.id != x.id) ++ [{ x with begun := false }] }
  match x.cx.filter fun c => (s.ctx c).task.tid == x.tid && !(s.ctx c).vacant with
  | some c => if (s.ctx c).saving.isSome || (s.ctx c).committed then hold else s.killTask x
  | none =>
    match (s.core x.core).saved.find? fun v => v.task.tid == x.tid with
    | some v => s.killTask { x with cx := none, frame := v.entry }
    | none => s.killTask { x with cx := none, frame := none }

/-- A KILL that waits, of a context that has come to an instruction boundary. -/
def State.killDue (s : State) (c : Nat) : Option Kill :=
  if (s.ctx c).saving.isSome || (s.ctx c).committed then none
  else (s.field (fieldOf (coreOf c))).kills.find? fun x => !x.begun && x.cx == some c && x.tid == (s.ctx c).task.tid

/-- A request of a killed context is still out. -/
def State.requestsOut (s : State) (f : Nat) (c : Option Nat) : Bool :=
  match c with
  | none => false
  | some c => (s.field f).hreqs.any (fun r => r.cx == some c) || (s.field f).rreqs.any (fun r => r.cx == some c)

/-- No write of a killed task can land any more. -/
def State.killDone (s : State) (x : Kill) : Bool :=
  !(s.recsOpen (clusterOf x.core) x.tid) && !s.undone x.core x.tid && !s.peersOpen x.tid && !s.hostOpen x.tid &&
    !s.marksOpen x.core x.tid && !s.requestsOut (fieldOf x.core) x.cx && (s.core x.core).items.all fun i => i.tid != x.tid || i.status.isSome

/-- A record of Table 18-8: bytes 8 to 63, then bytes 0 to 7. DEDUCED: log entries 40, 89. -/
def writeRecord (k : Nat) (asid : BitVec 16) (va id : Nat) (ws : List Nat) (now : Nat) : M Unit := do
  let e : Eng := { k := k, asid := asid, lvl := true, id := id }
  let body := ws.flatMap fun w => natBytes (w % 2 ^ 32) 4
  let _ ← e.write (va + 8) (body ++ natBytes now 8 ++ natBytes 0 32) 0
  let _ ← e.write va (natBytes (2 ^ 56) 8) 0

/-- The end of a kill: the frame entry and the context are free. DEDUCED: log entry 89. -/
def State.endKill (s : State) (f : Nat) (x : Kill) : State :=
  let s := (s.publishMarks x.core x.tid).modCore x.core fun c =>
    let c := { c with items := c.items.filter fun i => i.tid != x.tid }
    match x.frame with
    | some n => c.writeMem (0x2F80C + 32 * n) [1]
    | none => c
  let s := match x.cx with
    | some c => s.modCtx c fun y => if y.st = RunSt.held x.id then { y with st := .free } else y
    | none => s
  s.modField f fun fd => { fd with kills := fd.kills.filter fun y => y.id != x.id }

def execKillComplete (f id : Nat) (s : State) : Out :=
  match (s.field f).kills.find? fun x => x.id == id with
  | none => .next s
  | some x =>
    if !x.begun then .next (s.beginKill x)
    else
    let s := s.withdraw x.core x.tid x.cx []
    if !s.killDone x then .next s
    else runEvent (do
      onFail (writeRecord x.by_ x.asid x.record x.id [x.recs, x.items, x.dead, x.lost] s.ns) fun _ _ => pure ()
      modify fun s => s.endKill f x) s

/-! ## Revocation (R305, R393) -/

/-- The pages of a range that an engine names lie on a frame of a key, in the own field or behind its peer window. -/
def State.touches (s : State) (e : Eng) (key : BitVec 8) (va n : Nat) : Bool :=
  (List.range ((va + n - 1) / 65536 + 1 - va / 65536)).any fun j => inList key.toNat (s.keysAt e (Nat.max va ((va / 65536 + j) * 65536)))

/-- A put or RAMO that touches a frame of a key. -/
def State.itemTouches (s : State) (k : Nat) (i : Item) (key : BitVec 8) : Bool :=
  let t := s.touches (i.eng k) key
  i.status.isNone && !i.over && match i.kind with
  | .put dst _ dk _ _ src len _ => (!dk && t dst len) || ((src.map fun a => t a len).getD false)
  | .ramo va op dw .. => t va (AtOp.bytes op dw)
  | _ => false

/-- A put or RAMO is failed by a revocation. -/
def State.revokeItem (s : State) (k : Nat) (i : Item) : State :=
  if i.isPut then s.putFail k i codeKeyrev
  else if i.away then s.cutItem k (lateCause codeKeyrev).code i
  else s.setItem k (i.ended (.error codeKeyrev))

/-- Puts and RAMOs of a field fail: their number. -/
def State.revokeItems (s : State) (f : Nat) (key : BitVec 8) : State × Nat :=
  let hit := s.cores.flatMap fun x =>
    if fieldOf x.1 = f then (x.2.items.filter fun i => s.itemTouches x.1 i key).map fun i => (x.1, i) else []
  (hit.foldl (fun s x => s.revokeItem x.1 x.2) s, hit.length)

/-- A record that has touched a frame of the key ends KEYREV. -/
def State.revokeRec (s : State) (key : BitVec 8) (cl ch : Nat) : State × Nat :=
  match (s.chanOf cl ch).cur with
  | none => (s, 0)
  | some r =>
    if inList key.toNat r.keys && r.open_ && !r.wroteSt then
      let out := (s.field (cl / 40)).unsent r.id
      let s := s.setCur cl ch (some { r with st := .finish, code := codeKeyrev
                                             unacked := out.foldl (fun l va => (takeFlit va l).2) r.unacked })
      ((s.modField (cl / 40) fun f => f.cutFlits r.id).modField (cl / 40) fun f =>
        { f with contribs := f.contribs.filter fun x => x.rid != r.id }, 1)
    else (s, 0)

def State.revokeRecs (s : State) (f : Nat) (key : BitVec 8) : State × Nat :=
  ((List.range 40).flatMap fun n => (List.range 4).map fun ch => (f * 40 + n, ch)).foldl
    (fun a x => let b := a.1.revokeRec key x.1 x.2; (b.1, a.2 + b.2)) (s, 0)

/-- Lines that a home lists on frames of a key. DEDUCED: log entry 90. -/
def Field.keyLines (f : Field) (key : BitVec 8) : List Nat :=
  f.rmap.flatMap fun (x : Nat × RMapEnt) => if x.2.key = key then f.linesOf x.2.vpage x.2.asid else []

/-- A cluster loses a line, with what is on its way to it. -/
def Cluster.forget (c : Cluster) (l : Nat) : Cluster :=
  { c with l2 := SMap.del c.l2 l, fills := c.fills.filter fun y => y.1 != l, merges := c.merges.filter fun y => y.1 != l
           pushes := c.pushes.filter fun y => y.1 != l }

/-- The key of the frame that a line lies on. -/
def State.keyOfLine (s : State) (f l : Nat) : Option (BitVec 8) := (s.frameOf f l).map (·.2.key)

/-- The L1I copies of lines on frames of a key go, of those listed and of those that only an L1I holds (R393). -/
def State.revokeL1i (s : State) (f : Nat) (key : BitVec 8) (ls : List Nat) : State :=
  let stay (x : Nat × ILine) : Bool := !ls.contains x.1 && s.keyOfLine f x.1 != some key
  { s with cores := s.cores.map fun x => if fieldOf x.1 = f ∧ !x.2.l1i.isEmpty then (x.1, { x.2 with l1i := x.2.l1i.filter stay }) else x }

/-- A cached line is invalidated and its dirty bytes discarded, with those of an eviction on its way to the home.
DEDUCED: log entry 90. -/
def State.revokeLine (s : State) (f l : Nat) : State :=
  let s := match (s.hline f l).tile with
    | some t => s.demote f t
    | none => s
  let h := (s.hline f l).h
  let evict (r : HReq) : Bool := match r.kind with
    | .evict .. => r.line == l
    | _ => false
  let s := s.modField f fun fd => { fd with hreqs := fd.hreqs.filter fun r => !evict r }
  let s := (List.range 40).foldl (fun s n =>
    if (s.l2 (f * 40 + n) l).isSome || (s.cluster (f * 40 + n)).incoming l then
      (s.breakLeases (f * 40 + n) l).modCluster (f * 40 + n) fun c => c.forget l
    else s) s
  if h = .none then s.modField f fun fd => { fd with home := SMap.del fd.home l } else s.setHline f l { h := h }

/-- Migrations of frames of the key end with KEYREV. -/
def State.revokeMigs (s : State) (f : Nat) (key : BitVec 8) : State :=
  (s.field f).migs.foldl (fun s (m : Nat × Mig) => if m.2.key = key then s.endMig f m.1 m.2 5 else s) s

def Field.setKey (f : Field) (key : BitVec 8) (st : KeySt) : Field :=
  { f with keys := SMap.put f.keys key.toNat { f.slot key with st := st } }

/-- The revocation of a key in one field: records, items and lines. -/
def State.revokeIn (s : State) (key : BitVec 8) (f : Nat) : State × Nat × Nat × Nat :=
  let ls := (s.field f).keyLines key
  let (s, items) := s.revokeItems f key
  let (s, recs) := s.revokeRecs f key
  let s := ((ls.foldl (fun s l => s.revokeLine f l) s).revokeL1i f key ls).revokeMigs f key
  (s.modField f fun fd => if fd.keyOk key then fd.setKey key .revoking else fd, recs, items, ls.length)

/-- Revokes a key ID in every field of a partition. record: where a KREVOKE wants its record. -/
def State.revoke (s : State) (part : Nat) (p : Part) (key : BitVec 8) (record : Option (Nat × BitVec 16 × Nat)) : State :=
  let (s, recs, items, lines) := p.fields.foldl (fun a f =>
    let b := a.1.revokeIn key f
    (b.1, a.2.1 + b.2.1, a.2.2.1 + b.2.2.1, a.2.2.2 + b.2.2.2)) (s, 0, 0, 0)
  let r : Revoke := { id := s.fresh, part := part, key := key, record := record, recs := recs, items := items, lines := lines }
  State.bump { s with revokes := s.revokes ++ [r] }

/-- Nothing that the revocation has failed is still on its way to its end. -/
def State.revokeDone (s : State) (p : Part) : Bool :=
  p.fields.all fun f =>
    ((List.range 40).all fun n => (List.range 4).all fun ch =>
      match (s.chanOf (f * 40 + n) ch).cur with
      | some r => r.code != codeKeyrev
      | none => true) &&
    s.cores.all fun x => fieldOf x.1 != f || x.2.items.all fun i => i.bad != codeKeyrev || i.status.isSome || !i.isPut

def execRevokeComplete (part id : Nat) (s : State) : Out :=
  match s.revokes.find? fun r => r.id == id && r.part == part, SMap.find? s.parts part with
  | some r, some p =>
    if !s.revokeDone p then .next s
    else runEvent (do
      match r.record with
      | some (va, asid, k) =>
        onFail (writeRecord k asid va id [r.recs, r.items, r.lines, 0] s.ns) fun _ _ => pure ()
      | none => pure ()
      modify fun s =>
        let s := p.fields.foldl (fun s f => s.modField f fun fd =>
          if (fd.slot r.key).st = .revoking then fd.setKey r.key .revoked else fd) s
        { s with revokes := s.revokes.filter fun x => x.id != id }) s
  | _, _ => .next s

end Sys2Proof.Machine
end

