-- ==== Sys2Proof/Machine/Predicate.lean ====
section
/-! DEFINITION. Meanings of the compare and predicate forms, OPC 0x02, and of control transfer, OPC 0x03 (R200 to
R205). -/

namespace Sys2Proof.Machine

/-! ## Compare and predicates -/

def execCmp (h : Hdr) (c : Cond) (w32 : Bool) (d : PReg) (a : GReg) (b : GI) (s : State) : Out :=
  runReg h (fun x => x.wp d (Cond.test c (if w32 then 32 else 64) (x.rg a).toNat (GI.sval b x).toNat)) s
def execPand (h : Hdr) (d : PReg) (a : PSrc) (b : PB) (s : State) : Out :=
  runReg h (fun c => c.wp d (PSrc.val a c && PB.val b c)) s
def execPor (h : Hdr) (d : PReg) (a : PSrc) (b : PB) (s : State) : Out :=
  runReg h (fun c => c.wp d (PSrc.val a c || PB.val b c)) s
def execPxor (h : Hdr) (d : PReg) (a : PSrc) (b : PB) (s : State) : Out :=
  runReg h (fun c => c.wp d (PSrc.val a c != PB.val b c)) s
def execPnot (h : Hdr) (d : PReg) (a : PSrc) (s : State) : Out := runReg h (fun c => c.wp d (!PSrc.val a c)) s

/-- The source of PMOV: a g source is 1 when it is not 0. -/
def pmovVal (a : PMovSrc) (c : Ctx) : Bool :=
  match a with
  | .pred x => PSrc.val x c
  | .g r neg => (c.rg r != 0) != neg

def execPmov (h : Hdr) (d : PReg) (a : PMovSrc) (s : State) : Out := runReg h (fun c => c.wp d (pmovVal a c)) s

/-- p7 to p0 as a number, p0 in bit 0. -/
def predBits (c : Ctx) : Nat := (List.range 8).foldl (fun r i => if c.rp (BitVec.ofNat 3 i) then r + 2 ^ i else r) 0

def execPget (h : Hdr) (d : GReg) (s : State) : Out := runReg h (fun c => c.wg d (BitVec.ofNat 64 (predBits c))) s

/-! ## Control transfer -/

/-- pc + 4 × off (R202). -/
def relTarget (c : Ctx) (off : BitVec 32) : Word := c.pc + off.signExtend 64 <<< 2

/-- A target that is not a multiple of 4 raises ALIGN with the target as value (R203). -/
def alignTarget (t : Word) : M Unit := trapIf (t.setWidth 2 != 0) { cause := .align, tval := t }

def execBr (h : Hdr) (off : BitVec 32) (s : State) : Out := runIsa h (do return .goto (relTarget (← me) off)) s

def execBrl (h : Hdr) (d : GReg) (off : BitVec 32) (s : State) : Out :=
  runIsa h (do
    let c ← me
    modMe fun x => x.wg d (c.pc + 12)
    return .goto (relTarget c off)) s

def execJmp (h : Hdr) (a : GReg) (e : BitVec 32) (s : State) : Out :=
  runIsa h (do
    let t := (← me).rg a + e.signExtend 64
    alignTarget t
    return .goto t) s

def execJmpl (h : Hdr) (d a : GReg) (e : BitVec 32) (s : State) : Out :=
  runIsa h (do
    let c ← me
    let t := c.rg a + e.signExtend 64
    alignTarget t
    modMe fun x => x.wg d (c.pc + 12)
    return .goto t) s

def execRet (h : Hdr) (a : GReg) (s : State) : Out :=
  runIsa h (do
    let t := (← me).rg a
    alignTarget t
    return .goto t) s

/-- LOOP cannot be guarded; naming g0 raises ILLOP (R202, R204). -/
def execLoop (h : Hdr) (d : GReg) (off : BitVec 32) (s : State) : Out :=
  runFree h (do
    illopIf (.loop h d off) (d == 0)
    let c ← me
    let n := c.rg d - 1
    modMe fun x => x.wg d n
    return if n = 0 then .next else .goto (relTarget c off)) s

def execBrt (h : Hdr) (a b : GReg) (off : BitVec 32) (s : State) : Out :=
  runIsa h (do
    let c ← me
    return if (c.rg a).toNat < (c.rg b).toNat then .goto (relTarget c off + 12 * c.rg a) else .next) s

def execNop (h : Hdr) (s : State) : Out := runReg h id s

end Sys2Proof.Machine
end

