-- ==== Sys2Proof/Machine/SlaganEvents.lean ====
section
/-! DEFINITION. Slagan: its commands, wear, heat and bring-up (R19 to R21, R307, R312, R322, R394 to R404). -/

namespace Sys2Proof.Machine

/-- The answer to a command. DESIGN CHOICE: log entry 114. -/
def State.answer (s : State) (via : Via) (st : SlStatus) (info : List Nat := []) : State := s.emit (.slagan via st info)

/-- The path may issue a command for a partition: Ethernet for every one, a mailbox for its own (Table 19-1).
DEDUCED: log entry 111. -/
def State.mayCommand (s : State) (via : Via) (part : Nat) : Bool :=
  match via with
  | .ethernet => true
  | .mailbox f => s.partOf f == some part

/-- A command only for Ethernet. -/
def State.ethernetOnly (s : State) (via : Via) (act : State → State) : State :=
  match via with
  | .ethernet => act s
  | .mailbox _ => s.answer via .denied

/-- A command that a mailbox may issue for its own partition. -/
def State.ownCommand (s : State) (via : Via) (part : Nat) (act : State → Part → State) : State :=
  if !s.mayCommand via part then s.answer via .denied
  else match SMap.find? s.parts part with
    | none => s.answer via .rejected
    | some p => act s p

/-! ## MOD_SET (R307, R322) -/

def State.modSet (s : State) (via : Via) (num : BitVec 16) (gm : Bool) : State :=
  if num = 0 ∨ num = 0xFFFF then s.answer via .rejected
  else
    let s := s.modField 0 fun f => f.setReg 0xA00 (num.setWidth 64)
    { s with gm := gm, locked := gm || (s.locked && !s.gm) }.answer via .done

/-! ## PART_CREATE and PART_DISSOLVE (R19, R20, R395) -/

/-- Field numbers of a rectangle. -/
def rectFields (fx0 fx1 fy0 fy1 : Nat) : List Nat :=
  (List.range 16).filter fun f => decide (fx0 ≤ f % 8) && decide (f % 8 ≤ fx1) && decide (fy0 ≤ f / 8) && decide (f / 8 ≤ fy1)

def fieldMask (fs : List Nat) : BitVec 16 := fs.foldl (fun m f => m ||| (1#16 <<< f)) 0

/-- A field carries a host port: port h sits on field (h, h mod 2) (R13). -/
def hasHostPort (f : Nat) : Bool := f / 8 == (f % 8) % 2

/-- Slagan accepts a partition request (R20). -/
def State.partOk (s : State) (fx0 fx1 fy0 fy1 : Nat) (mask : BitVec 16) : Bool :=
  let fs := rectFields fx0 fx1 fy0 fy1
  decide (fx0 ≤ fx1) && decide (fx1 ≤ 7) && decide (fy0 ≤ fy1) && decide (fy1 ≤ 1) && mask == fieldMask fs &&
    fs.all (fun f => (s.partOf f).isNone) && fs.any hasHostPort && decide (s.parts.length < 8)

/-- The field kernel starts in context 15 of a supervisor core (R404), unless that core is retired (R10). -/
def State.startKernel (s : State) (f : Nat) : State :=
  let t : Task := { tid := s.fresh }
  if (s.core (supervisor f)).retired then s
  else State.bump (s.modCtx (supervisor f * 16 + 15) fun c => c.startService s.kernelPc (Vector.replicate 64 0) t)

/-- The field kernels of a partition start, in its fields that are out of reset, once its keys have been loaded (R404): with its first
KEY_LOAD. DESIGN CHOICE: log entry 97. -/
def State.startKernels (s : State) (part : Nat) (p : Part) : State :=
  if p.begun then s
  else (p.fields.filter fun f => !(s.field f).inReset).foldl (fun s f => s.startKernel f)
    { s with parts := SMap.put s.parts part { p with begun := true } }

/-- A field leaves reset where its self-test passes; else it stays in reset, with a CORE record. -/
def State.bringUp (s : State) (passed : BitVec 16) (f : Nat) : State :=
  if passed.getLsbD f then s.modField f fun x => { x with inReset := false, clk0 := s.clk }
  else s.logErr f .core { kind := 2, loc := locator (supervisor f) }

/-- The new partition takes the lowest free number. DESIGN CHOICE: log entries 97, 125; DEDUCED: log entry 110. -/
def State.createPart (s : State) (via : Via) (fx0 fx1 fy0 fy1 : Nat) (mask passed : BitVec 16) : State :=
  match (List.range 8).find? fun n => (SMap.find? s.parts n).isNone with
  | none => s.answer via .rejected
  | some n =>
    if !s.partOk fx0 fx1 fy0 fy1 mask then s.answer via .rejected
    else
      let fs := rectFields fx0 fx1 fy0 fy1
      let p : Part := { fx0 := fx0, fx1 := fx1, fy0 := fy0, fy1 := fy1, fields := fs, allow := 0, used := 0, commit := 0
                        window := s.ns / 1000000, eovr := 0 }
      (fs.foldl (fun (s : State) f => s.bringUp passed f) { s with parts := SMap.put s.parts n p }).answer via .done [n]

/-- A core after its field's reset: it stays retired. -/
def Core.wiped (c : Core) : Core := { retired := c.retired }
/-- A cluster after its field's reset: its wear stays. -/
def Cluster.wiped (c : Cluster) : Cluster := { wear := c.wear, months := c.months }
/-- A field after its reset: the module number, the links, the fibres and the clock stay. DEDUCED: log entry 110. -/
def Field.wiped (f : Field) : Field :=
  let o : Optical := { fibres := f.optical.fibres }
  let g : Field := { ucie := f.ucie, optical := o, mhz := f.mhz, hot := f.hot, rimMonths := f.rimMonths }
  g.setReg 0xA00 (f.reg 0xA00)

/-- Fields are held in reset with their memories zeroed and their key slots empty. -/
def State.wipe (s : State) (fs : List Nat) : State :=
  let core (x : Nat × Core) : Nat × Core := if inList (fieldOf x.1) fs then (x.1, x.2.wiped) else x
  let cluster (x : Nat × Cluster) : Nat × Cluster := if inList (fieldOfCl x.1) fs then (x.1, x.2.wiped) else x
  let field (x : Nat × Field) : Nat × Field := if inList x.1 fs then (x.1, { x.2.wiped with clk0 := s.clk }) else x
  { s with
    ctxs := s.ctxs.filter fun x => !inList (fieldOf (coreOf x.1)) fs
    cores := s.cores.map core
    clusters := s.clusters.map cluster
    fields := s.fields.map field
    launches := s.launches.filter fun x => !inList x.2.field fs
    groups := s.groups.filter fun x => !inList x.2.field fs }

/-- DEDUCED: log entry 110. -/
def State.dissolve (s : State) (via : Via) (part : Nat) : State :=
  match SMap.find? s.parts part with
  | none => s.answer via .rejected
  | some p =>
    let s := s.wipe p.fields
    { s with parts := SMap.del s.parts part, revokes := s.revokes.filter fun r => r.part != part }.answer via .done

/-! ## Keys (R396, R393) -/

/-- A slot of a field takes new material. DESIGN CHOICE: log entry 114. -/
def Field.loadKey (f : Field) (key : Nat) (data tweak tag : BitVec 256) : Field :=
  let n : KeySlot := { st := .valid, data := data, tweak := tweak, tag := tag }
  { f with keys := SMap.put f.keys key n }

/-- DESIGN CHOICE: log entry 114. -/
def State.keyLoad (s : State) (via : Via) (part : Nat) (p : Part) (key : Nat) (data tweak tag : BitVec 256) : State :=
  if 256 ≤ key ∨ data = tweak then s.answer via .rejected
  else if p.fields.any fun f =>
      (SMap.get (s.field f).keys key {}).st == .valid || (SMap.get (s.field f).keys key {}).st == .revoking then
    s.answer via .busy
  else ((p.fields.foldl (fun s f => s.modField f fun x => x.loadKey key data tweak tag) s).startKernels part p).answer via .done

/-- A key ID is VALID in a partition. -/
def State.keyValid (s : State) (p : Part) (key : Nat) : Bool :=
  p.fields.any fun f => (SMap.get (s.field f).keys key {}).st == .valid

def State.keyRevoke (s : State) (via : Via) (part : Nat) (p : Part) (key : Nat) : State :=
  if s.keyValid p key then (s.revoke part p (BitVec.ofNat 8 key) none).answer via .done else s.answer via .notValid

/-! ## ENERGY_SET, FN_ENABLE, RETIRE, LOG_READ (R312, R397, R398, R401) -/

def State.energySet (s : State) (via : Via) (part mj : Nat) : State :=
  match s.partNow part with
  | none => s.answer via .rejected
  | some p =>
    let ps := SMap.put s.parts part { p with allow := mj }
    if 16000 < (ps.map fun (x : Nat × Part) => x.2.allow).sum then s.answer via .refused
    else { s with parts := ps }.answer via .done

/-- DEDUCED: log entry 100. -/
def State.fnEnable (s : State) (via : Via) (f : Nat) : State :=
  match s.partOf f, via with
  | none, .ethernet => s.answer via .rejected
  | none, .mailbox _ => s.answer via .denied
  | some part, _ => s.ownCommand via part fun s _ => (s.modField f fun x => { x with contained := false }).answer via .done

/-- The cores of a cluster take no more work: their messages come back with DEAD and their work moves, as after a core
failure; what runs goes on (R10, R385, R401). DEDUCED: log entry 91. -/
def State.retireCores (s : State) (cl : Nat) : State :=
  (coresOf cl).foldl (fun s k =>
    if (s.core k).retired then s else ((s.modCore k fun c => { c with retired := true }).returnPorts k).moveWork k) s

def State.retire (s : State) (via : Via) (cl : Nat) : State :=
  if cl < 640 then ((s.retireCores cl).setWear cl .retired).answer via .done else s.answer via .rejected

/-- Error records that a LOG_READ of a partition returns: its own, and over Ethernet those of fields in no partition too, which Slagan
alone is given. DESIGN CHOICE: log entry 114. -/
def State.recordsOf (s : State) (via : Via) (part : Nat) : List ErrRec :=
  s.slog.filter fun r => r.part == some part || (via == .ethernet && r.part.isNone)

def State.logRead (s : State) (via : Via) (part : Nat) : State := (s.emit (.records via (s.recordsOf via part))).answer via .done

/-! ## REMARGIN (R402) -/

/-- The fields named are whole partitions, or in none. DEDUCED: log entry 111. -/
def State.marginOk (s : State) (mask : BitVec 16) : Bool :=
  s.parts.all fun x => x.2.fields.all (fun f => mask.getLsbD f) || x.2.fields.all (fun f => !mask.getLsbD f)

/-- No task runs in the fields named, nor is one saved there. DEDUCED: log entry 111. -/
def State.quiet (s : State) (mask : BitVec 16) : Bool :=
  (s.ctxs.all fun x => !mask.getLsbD (fieldOf (coreOf x.1)) || decide (14 ≤ ctxNum x.1) || !x.2.busy) &&
    s.cores.all fun x => !mask.getLsbD (fieldOf x.1) || x.2.saved.isEmpty

/-- The state a cluster enters by its prediction; OUT only at a re-margin. -/
def Wear.predicted (w : Wear) (months : Nat) (sweep : Bool) : Wear :=
  match w with
  | .retired => .retired
  | .out => .out
  | w => if sweep && decide (months < 1) then .out else if months < 6 then .derated else w

/-- A new prediction of a cluster's life. DEDUCED: log entry 112. -/
def State.setLife (s : State) (cl months : Nat) (sweep : Bool) : State :=
  let s := s.modCluster cl fun c => { c with months := BitVec.ofNat 16 (min months 0xFFFF) }
  s.setWear cl (Wear.predicted (s.cluster cl).wear months sweep)

/-- The sweep of a field: every cluster's state by its latest prediction, and the self-test.
DEDUCED: log entry 112. -/
def State.sweep (s : State) (passed : BitVec 16) (f : Nat) : State :=
  let s := (List.range 40).foldl (fun s n => s.setLife (f * 40 + n) ((s.cluster (f * 40 + n)).months).toNat true) s
  if passed.getLsbD f then s
  else (s.wipe [f]).logErr f .core { kind := 2, loc := locator (supervisor f) }

def maskFields (mask : BitVec 16) : List Nat := (List.range 16).filter fun f => mask.getLsbD f

/-- The end of the command: predictions, sweep, self-test; the status names the clusters whose state has changed.
DEDUCED: log entry 110. -/
def State.remargin (s : State) (via : Via) (mask passed : BitVec 16) (lives : List (Nat × Nat)) : State :=
  let lives := lives.filter fun x => decide (x.1 < 640) && mask.getLsbD (fieldOfCl x.1)
  let t := lives.foldl (fun s x => s.modCluster x.1 fun c => { c with months := BitVec.ofNat 16 (min x.2 0xFFFF) }) s
  let t := (maskFields mask).foldl (fun s f => s.sweep passed f) t
  let changed := (List.range 640).filter fun cl => (t.cluster cl).wear != (s.cluster cl).wear
  { t with stopped := 0 }.answer via .done changed

/-- REMARGIN begins, or goes on: dispatch in its fields is stopped until nothing runs there. -/
def State.remarginOn (s : State) (via : Via) (fields passed : BitVec 16) (lives : List (Nat × Nat)) : State :=
  if fields = 0 ∨ s.marginOk fields = false then s.answer via .rejected
  else if s.quiet fields then s.remargin via fields passed lives
  else { s with stopped := fields }

/-! ## Commands (R394) -/

/-- What a command does. -/
def State.obey (s : State) : SlCmd → State
  | .modSet via num gm => s.ethernetOnly via fun s => s.modSet via num gm
  | .partCreate via fx0 fx1 fy0 fy1 mask passed => s.ethernetOnly via fun s => s.createPart via fx0 fx1 fy0 fy1 mask passed
  | .partDissolve via part => s.ethernetOnly via fun s => s.dissolve via part
  | .keyLoad via part key data tweak tag => s.ownCommand via part fun s p => s.keyLoad via part p key data tweak tag
  | .keyRevoke via part key => s.ownCommand via part fun s p => s.keyRevoke via part p key
  | .energySet via part mj => s.ethernetOnly via fun s => s.energySet via part mj
  | .fnEnable via f => s.fnEnable via f
  | .remargin via fields passed lives => s.ethernetOnly via fun s => s.remarginOn via fields passed lives
  | .retire via cl => s.ethernetOnly via fun s => s.retire via cl
  | .logRead via part => s.ownCommand via part fun s _ => s.logRead via part

/-- Commands that wait are executed in the order of their receipt, until a REMARGIN waits again. -/
def State.obeyAll (s : State) : List SlCmd → State
  | [] => { s with cmds := [] }
  | c :: t => if s.stopped ≠ 0 then { s with cmds := c :: t } else (s.obey c).obeyAll t

/-- A command is received: commands run one at a time, and none while a REMARGIN waits (R394). DEDUCED: log entry 111. -/
def State.command (s : State) (c : SlCmd) : Out :=
  .next (if s.stopped ≠ 0 then { s with cmds := s.cmds ++ [c] } else s.obey c)

def execModSet (via : Via) (num : BitVec 16) (gm : Bool) (s : State) : Out := s.command (.modSet via num gm)
def execPartCreate (via : Via) (fx0 fx1 fy0 fy1 : Nat) (mask passed : BitVec 16) (s : State) : Out :=
  s.command (.partCreate via fx0 fx1 fy0 fy1 mask passed)
def execPartDissolve (via : Via) (part : Nat) (s : State) : Out := s.command (.partDissolve via part)
def execKeyLoad (via : Via) (part key : Nat) (data tweak tag : BitVec 256) (s : State) : Out :=
  s.command (.keyLoad via part key data tweak tag)
def execKeyRevoke (via : Via) (part key : Nat) (s : State) : Out := s.command (.keyRevoke via part key)
def execEnergySet (via : Via) (part mj : Nat) (s : State) : Out := s.command (.energySet via part mj)
def execFnEnable (via : Via) (f : Nat) (s : State) : Out := s.command (.fnEnable via f)
def execRetire (via : Via) (cl : Nat) (s : State) : Out := s.command (.retire via cl)
def execLogRead (via : Via) (part : Nat) (s : State) : Out := s.command (.logRead via part)

/-- REMARGIN over Ethernet for the fields that one has stopped is that one going on; what waits behind it follows its end.
DEDUCED: log entry 111. -/
def execRemargin (via : Via) (fields passed : BitVec 16) (lives : List (Nat × Nat)) (s : State) : Out :=
  if s.stopped = fields ∧ via = .ethernet then
    let t := s.remarginOn via fields passed lives
    .next (if t.stopped = 0 then t.obeyAll t.cmds else t)
  else s.command (.remargin via fields passed lives)

/-! ## Wear, heat and bring-up (R401, R403, R404) -/

/-- The hourly sample of a cluster, or of a field's rim chiplet, numbered from 640. -/
def execWearSample (cl months : Nat) (s : State) : Out :=
  if cl < 640 then .next (s.setLife cl months false)
  else if cl < 656 then .next (s.modField (cl - 640) fun f => { f with rimMonths := BitVec.ofNat 16 (min months 0xFFFF) })
  else .next s

/-- clk is lowered from above 100 °C until the sensor reads 95 °C. DEDUCED: log entry 113. -/
def execThermalStep (f : Nat) (celsius : Int) (s : State) : Out :=
  let x := s.field f
  let hot := decide (100 < celsius) || (x.hot && decide (95 < celsius))
  if 16 ≤ f then .next s
  else if hot && decide (650 ≤ x.mhz) then
    .next ((s.modField f fun y => { y with hot := true, mhz := y.mhz - 50 }).logErr f .wear
      { kind := 2, loc := locator (supervisor f) })
  else .next (s.modField f fun y => { y with hot := hot })

/-- The module from reset: the links are trained, and a training that fails degrades its link (UCIE_LINK_DEGRADE); the wear of its parts
and its retired cores stay; the kernel's address is given; a field that fails its self-test stays in reset with a CORE record.
DEDUCED: log entry 112. -/
def execModuleReset (passed : BitVec 16) (kernelPc : Word) (s : State) : Out :=
  let s := s.wipe (List.range 16)
  let s := { State.reset with
    cores := s.cores, clusters := s.clusters
    fields := s.fields.map fun x => (x.1, { x.2 with sys := [], clk0 := 0, ucie := Vector.replicate 2 12 })
    kernelPc := kernelPc, fresh := s.fresh, agenda := s.agenda, out := s.out }
  .next ((List.range 16).foldl (fun s f =>
    if passed.getLsbD f then s else s.logErr f .core { kind := 2, loc := locator (supervisor f) }) s)

end Sys2Proof.Machine
end

