-- ==== Sys2Proof/Machine/Regs.lean ====
section
/-! DEFINITION. System registers: which numbers are defined, who may read and write them, what a read gives and what a
write does (R7, R8, R86, R126, R164 to R166, R308, R324, R358, R375, R400). -/

namespace Sys2Proof.Machine

/-! ## RW fields -/

/-- RW fields of a field or core register whose write has no other effect; banked registers under their first number. -/
def rwMask (n : Nat) : Word :=
  match n with
  | 0x040 => 0x7
  | 0x041 => 0x01FFFFFFFFFFFF00
  | 0x043 => 0x0000FFFFFFFF0001
  | 0x044 => 0x00FFFFFFFFFFFFFF
  | 0x045 => 0xFFFFFFFFFFFFFFFC
  | 0x046 => 0x3F
  | 0x047 => 0x7
  | 0x048 => 0x81FFFFFFFFFFFFF0
  | 0x049 => 0xFFFF0000FFFFFFFF
  | 0x04A => 0x073F073F
  | 0x04B => 0x0000FFFFFFFFFFFF
  | 0x04C => 0x8000FFFF0000FFFF
  | 0x050 => 0xFFFF
  | 0x051 => 0x3
  | 0x080 => 0xF
  | 0x940 => 0x3FF
  | 0x960 => 0xFF0FFFFFFFF80001
  | 0x963 => 0xFFFF
  | 0x9A4 => 0xFFFFFF
  | 0xA01 => 0x3
  | 0xA02 => 0x01FFFFFFFFFFFFFF
  | 0xA03 => 0xC000000000FFFFFF
  | 0xA04 => 0xFFFF
  | 0xA08 => 0xFF
  | 0xA09 => 0x01FFFFFFFFFFFFFF
  | 0xA0C => 0x3FF
  | 0xA0D => 0xFFFFFFFFFFFFFFFF
  | 0xA11 => 0xFFFFFFFFFFFFFFFF
  | 0xA89 => 0xFF
  | 0xA99 => 0x3F
  | n =>
    if within 0x900 0x93F n then
      match n % 4 with
      | 0 => 0x000FFFFFFFFF0000
      | 1 => 0x1FFFFF
      | 2 => 0x000FFFFFFFFFFFC0
      | _ => 0
    else 0

/-- Where a field keeps a register: of a bank, under its selector (Tables 15-2, 16-2). -/
def Field.homeOf (f : Field) (n : Nat) : Nat :=
  if n = 0x041 ∨ n = 0x042 then bankReg n (bits (f.reg 0x040) 0 3)
  else if within 0x048 0x04B n then bankReg n (bits (f.reg 0x047) 0 3)
  else if n = 0xA02 ∨ n = 0xA03 then bankReg n (bits (f.reg 0xA01) 0 2)
  else if n = 0xA09 ∨ n = 0xA0A then bankReg n (bits (f.reg 0xA08) 0 8)
  else if n = 0xA0D ∨ n = 0xA0E then bankReg n (bits (f.reg 0xA0C) 0 10)
  else n

/-! ## Reads -/

/-- A register of a context as SRD reads it. -/
def State.readCtx (s : State) (c n : Nat) : Word :=
  let x := s.ctx c
  let k := coreOf c
  match n with
  | 0x000 => x.fstat
  | 0x001 => BitVec.ofNat 64 (ctxNum c * 65536 + ((s.core k).heldAccs (ctxNum c)).toNat * 256 + (if x.preq then 2 else 0)
      + (if x.lvl then 1 else 0))
  | 0x002 => x.asidr
  | 0x003 => 0x4810B010#32 ++ locator k
  | 0x004 => BitVec.ofNat 64 s.ns
  | 0x052 => s.sqd c
  | 0x0C0 => x.ftvec
  | 0x0C1 => x.utvec
  | 0x0C2 => x.tcause
  | 0x0C3 => x.tpc
  | 0x0C4 => x.tval
  | 0x0C5 => x.tsave
  | 0x0C6 => x.utcause
  | 0x0C7 => x.utpc
  | 0x0C8 => x.utval
  | 0x0C9 => x.pdl
  | _ => 0

/-- MBST of a cluster (Table 11-4). -/
def Cluster.mbst (c : Cluster) : Word :=
  let d (i : Nat) : Nat := (c.banks.toList.getD i {}).depth % 128
  let h := match c.bankHolder with
    | some (x, _) => 2 ^ 29 + coreInCl (coreOf x) * 2 ^ 20 + ctxNum x * 2 ^ 16
    | none => 0
  BitVec.ofNat 64 (h + d 1 * 256 + d 0)

/-- The partition of a field as its registers show it (Table 19-4). -/
def State.partRegs (s : State) (f n : Nat) : Word :=
  match (s.partOf f).bind fun p => (s.partNow p).map fun x => (p, x) with
  | none => 0
  | some (p, x) =>
    match n with
    | 0xA80 => BitVec.ofNat 64 (2 ^ 63 + p * 65536) ||| (fieldMask x.fields).setWidth 64
    | 0xA81 => BitVec.ofNat 64 x.allow
    | 0xA82 => BitVec.ofNat 64 x.used
    | 0xA83 => BitVec.ofNat 64 x.commit
    | _ => x.eovr.setWidth 64

/-- The bytes of an error record (Table 19-2); the partition number of one of no partition is free. DESIGN CHOICE: log entry 114. -/
def ErrRec.bytes (r : ErrRec) : List Byte :=
  [r.cls, r.syn, r.kind] ++ natBytes r.field 1 ++ natBytes r.loc.toNat 4 ++ natBytes r.addr.toNat 8 ++ natBytes r.asid.toNat 2
    ++ [r.key] ++ natBytes (r.part.getD ((Config.freeWord r.first).toNat % 256)) 1 ++ natBytes r.count.toNat 4 ++ natBytes r.first 8 ++ natBytes r.last 8
    ++ natBytes r.detail.toNat 8 ++ natBytes 0 16

/-- ELDATA: 8 bytes of the selected record; a record not logged reads as 0. -/
def Field.eldata (f : Field) (i : Nat) : Word :=
  match f.log[bits (f.reg 0xA89) 0 8]? with
  | none => 0
  | some r => BitVec.ofNat 64 (fieldAt r.bytes (8 * i) 8)

/-- The least predicted life of a field's clusters and rim chiplet. -/
def State.weol (s : State) (f : Nat) : Nat :=
  (List.range 40).foldl (fun m n => min m ((s.cluster (f * 40 + n)).months).toNat) ((s.field f).rimMonths).toNat

def Wear.code : Wear → Nat
  | .normal => 0 | .derated => 1 | .out => 2 | .retired => 3

/-- WCL: the wear state of the selected cluster. -/
def State.wcl (s : State) (f : Nat) : Word :=
  let c := s.cluster (f * 40 + bits ((s.field f).reg 0xA99) 0 6)
  BitVec.ofNat 64 (c.wear.code * 65536 + c.months.toNat)

/-- A field register as SRD reads it: what hardware derives, else what it holds; WO fields read 0. -/
def State.readField (s : State) (f n : Nat) : Word :=
  let fd := s.field f
  match n with
  | 0x941 => fd.cbRead
  | 0x961 => 0
  | 0x962 => (fd.reg 0x962 &&& 2#64) ||| (bit fd.inval.isSome).setWidth 64
  | 0x964 => 0
  | 0x965 => 0
  | 0x966 => (fd.reg 0x966 &&& 16#64) ||| BitVec.ofNat 64 (8 - fd.migs.length)
  | 0x982 => BitVec.ofNat 64 fd.tiles.length
  | 0x9C0 => 0
  | 0xA00 => BitVec.ofNat 64 s.modId
  | 0xA12 => fd.ostat s.ns
  | 0xA13 => s.tsync
  | 0xA88 => BitVec.ofNat 64 fd.logCount
  | 0xA98 => BitVec.ofNat 64 (s.weol f)
  | 0xA9A => s.wcl f
  | _ =>
    if within 0xA80 0xA84 n then s.partRegs f n
    else if within 0xA8A 0xA91 n then fd.eldata (n - 0xA8A)
    else fd.reg (fd.homeOf n)

/-- A register as a context reads it. -/
def State.readReg (s : State) (c n : Nat) : Word :=
  if ctxReg n then s.readCtx c n
  else if coreReg n then (s.core (coreOf c)).reg n
  else if n = 0x081 then (s.cluster (clusterOf (coreOf c))).mbst
  else s.readField (fieldOf (coreOf c)) n

/-! ## Writes -/

/-- A write of a register of a context: RW fields; RO registers keep their value. -/
def Ctx.writeReg (x : Ctx) (n : Nat) (v : Word) : Ctx :=
  match n with
  | 0x000 => { x with fstat := v &&& fstatMask }
  | 0x002 => { x with asidr := v &&& 0xFFFF#64 }
  | 0x052 => { x with sqDepth := bits v 0 4 }
  | 0x0C0 => { x with ftvec := v &&& vecMask }
  | 0x0C1 => { x with utvec := v &&& vecMask }
  | 0x0C2 => { x with tcause := v &&& causeMask }
  | 0x0C3 => { x with tpc := pcField v }
  | 0x0C4 => { x with tval := v }
  | 0x0C5 => { x with tsave := v &&& 3#64 }
  | 0x0C6 => { x with utcause := v &&& causeMask }
  | 0x0C7 => { x with utpc := pcField v }
  | 0x0C8 => { x with utval := v }
  | 0x0C9 => if bits v 0 32 < 1000 then x else { x with pdl := v &&& 0xFFFFFFFF#64 }
  | _ => x

/-- A write of a register of a core. -/
def Core.writeReg (c : Core) (n : Nat) (v : Word) : Core :=
  if within 0x9A0 0x9A3 n then c.cmlay (n - 0x9A0) v
  else
    let bad := match n with
      | 0x046 => bits v 0 6 == 0
      | 0x051 => bits v 0 2 == 3
      | 0x080 => bits v 0 4 == 0 || decide (8 < bits v 0 4)
      | _ => false
    if bad then c else c.setReg n (v &&& rwMask n)

/-- A write whose value a rule ignores, or that a rule ignores while an enable is set. -/
def Field.ignores (f : Field) (n : Nat) (v : Word) : Bool :=
  if within 0x900 0x93F n then decide (n % 4 < 3) && (f.reg (n / 4 * 4 + 3)).getLsbD 63
  else match n with
    | 0x042 => v.getLsbD 63 && bits v 48 4 == 0
    | 0xA04 => bits v 0 16 == 0
    | 0xA09 => (f.reg (f.homeOf 0xA0A)).getLsbD 63
    | 0xA99 => decide (40 ≤ bits v 0 6)
    | _ => false

/-! ### SHMCF (R101, R102) -/

/-- An address lies in the field shared window. -/
def inShared (va : Nat) : Bool := decide (sharedBase ≤ va) && decide (va < peerBase)

/-- A queued matrix instruction that reads or writes the field shared window. -/
def MqEnt.namesShared (e : MqEnt) : Bool :=
  let rect (t : ETy) (rows cols : BitVec 7) : Bool := (List.range (rows.toNat + 1)).any fun i =>
    (List.range (cols.toNat + 1)).any fun j => inShared (matAddr e.wa e.wb (t.width / 8) i j)
  match e.ins with
  | .mld _ t _ _ _ rows cols | .mst _ t _ _ _ _ _ rows cols => rect t rows cols
  | _ => false

/-- Shared-window accesses issued earlier that have still to perform: those of RAMOs, of queued matrix instructions, and of vector
atomics that have performed a part. -/
def State.sharedOpen (s : State) (f : Nat) : Bool :=
  let ramo (i : Item) : Bool := i.status.isNone && (match i.kind with
    | .ramo va .. => inShared va
    | _ => false)
  (s.cores.any fun k => fieldOf k.1 == f && (k.2.items.any ramo || k.2.mq.any MqEnt.namesShared)) ||
    s.ctxs.any fun x => fieldOf (coreOf x.1) == f && x.1 != s.cur && !x.2.vacant && !x.2.parts.isEmpty

/-- A put that names the shared window and has not landed whole. -/
def Item.sharedPut (i : Item) : Bool :=
  i.status.isNone && !i.over && (match i.kind with
    | .put dst ctr dk cen _ src .. => (!dk && (inShared dst || (cen && inShared ctr))) || src.any inShared
    | _ => false)

def ChanEnt.old (e : ChanEnt) : ChanEnt := { e with stale := true }
def Channel.old (c : Channel) : Channel :=
  { queue := c.queue.map ChanEnt.old, cur := c.cur.map fun r => { r with ent := r.ent.old } }

/-- Transfers that name the shared window and are in flight end with BOUNDS: puts and contributions now, records when they
next go on. DEDUCED: log entry 36. -/
def State.cutShared (s : State) (f : Nat) : State :=
  let puts := s.cores.flatMap fun k =>
    if fieldOf k.1 = f then (k.2.items.filter Item.sharedPut).map fun i => (k.1, i) else []
  let s := puts.foldl (fun s x => s.putFail x.1 x.2 codeBounds) s
  let s := (List.range 40).foldl (fun s n => s.modCluster (f * 40 + n) fun c => { c with chans := c.chans.map Channel.old }) s
  ((s.field f).contribs.filter fun x => x.asid.isNone).foldl
    (fun s x => (s.reduceFail f x codeBounds x.va).dropContrib f x.id) s

/-- A change of SHMCF.WAYS: the cache lines go and their bytes are written back, the earlier shared accesses complete, and
every byte of the new layout is 0. DEDUCED: log entry 36. -/
def shmcfWrite (f : Nat) (v : Word) : M Unit := do
  let w := bits v 0 4
  let s ← get
  if 8 < w ∨ w = bits ((s.field f).reg 0x980) 0 4 then return
  let s := ((s.field f).home.map (·.1)).foldl (fun s l => s.homeDrop f l) s
  set s
  waitIf ((s.field f).rreqs.any fun r => r.kind == .wb && r.core.isNone) .memory
  waitIf (s.sharedOpen f) .memory
  set ((s.cutShared f).modField f fun fd => { fd.setReg 0x980 (BitVec.ofNat 64 w) with shm := [], shmMarks := [] })

def execShmcfWrite (f : Nat) (v : Word) (s : State) : Out := runEvent (shmcfWrite f v) s

/-- A field register whose write only stores its RW fields (R165). -/
def plainReg (n : Nat) : Bool := fieldReg n && rwMask n != 0 && n != 0x048

/-- A write that stores RW fields and clears W1C fields. -/
def Field.store (f : Field) (n : Nat) (rw w1c v : Word) : Field :=
  let r := f.homeOf n
  f.setReg r ((v &&& rw) ||| (f.reg r &&& ~~~rw &&& ~~~(v &&& w1c)))

/-- RNRING of the selected rule: EN starts and ends the rule (R350). -/
def State.writeRnring (s : State) (f : Nat) (v : Word) : State :=
  let fd := s.field f
  let rule := bits (fd.reg 0x047) 0 3
  let was := (fd.reg (fd.homeOf 0x048)).getLsbD 63
  let s := s.modField f fun fd => fd.store 0x048 (rwMask 0x048) 0 v
  if v.getLsbD 63 && !was then s.reinOn f rule
  else if was && !v.getLsbD 63 then s.reinOff f rule
  else s

/-- A write of a field register. It may have to wait for its completion (R165). -/
def writeField (f n : Nat) (v : Word) : M Unit := do
  let s ← get
  if (s.field f).ignores n v then return ()
  match n with
  | 0x042 => set (s.modField f fun fd => fd.store n 0x800F00000000FFFF#64 0x4000000000000000#64 v)
  | 0x048 => set (s.writeRnring f v)
  | 0x941 => set (s.modField f fun fd => fd.cbWrite v)
  | 0x942 => set (s.modField f fun fd => fd.scrubcf v)
  | 0x961 => xinvWrite f v
  | 0x962 => set (s.modField f fun fd => fd.store n 0 2#64 v)
  | 0x964 => set (s.xres f v)
  | 0x965 => set (s.migStart f v)
  | 0x966 => set (s.modField f fun fd => fd.store n 0 16#64 v)
  | 0x980 => shmcfWrite f v
  | 0x981 => set (s.modField f fun fd => fd.apcf v)
  | 0x9C0 => set (s.ceres f v)
  | 0xA0A => hexctlWrite f v
  | 0xA0E => pimctlWrite f v
  | 0xA10 => set (s.modField f fun fd => fd.octl s.ns v)
  | 0xA12 => set (s.modField f fun fd => fd.store n 0 0x8000000000000000#64 v)
  | n =>
    if within 0xA40 0xA7F n then set (s.modField f fun fd => fd.oslot s.ns s.modId (n - 0xA40) v)
    else if within 0x900 0x93F n && n % 4 == 3 then
      let w := (n - 0x900) / 4
      set (s.modField f fun fd => if v.getLsbD 63 then fd.windowOn w v else fd.windowOff w v)
    else if plainReg n then set (s.modField f fun fd => fd.store n (rwMask n) 0 v)

/-- A write of a register by a context (R165). -/
def writeReg (c n : Nat) (v : Word) : M Unit :=
  if ctxReg n then modify fun s => s.modCtx c fun x => x.writeReg n v
  else if coreReg n then modify fun s => s.modCore (coreOf c) fun k => k.writeReg n v
  else writeField (fieldOf (coreOf c)) n v

/-! ## REGISTER_WRITE and HOST_BAR_WRITE (R165, R308) -/

/-- The arrival of a write at a register without a behaviour of its own. -/
def execRegisterWrite (c num : Nat) (v : Word) (s : State) : Out :=
  if numCtxs ≤ c then .next s
  else if ctxReg num || coreReg num || plainReg num then runEvent (writeReg c num v) s
  else .next s

/-- The register that lies at a byte offset of BAR0 (R308). -/
def barReg (off : Nat) : Option Nat :=
  let num := 0xA00 + off / 8
  if off % 8 = 0 && within 0xA00 0xA7F num && fieldReg num then some num else none

/-- What a host read of 8 bytes of a function's BAR0 returns: the register (R308); a read changes nothing. -/
def State.barRead (s : State) (fn off : Nat) : Option Word :=
  (s.hostFun fn).bind fun f => (barReg off).map fun n => s.readField f n

/-- A host write to BAR0 of a function: an SWR from field level. One that asks for an import sends the request. -/
def execHostBarWrite (fn num : Nat) (v : Word) (s : State) : Out :=
  match s.hostFun fn, barReg (8 * (num - 0xA00)) with
  | some f, some n =>
    if num < 0xA00 then .next s
    else if n = 0xA0E then
      if (s.field f).asking (bits ((s.field f).reg 0xA0C) 0 10) then .next s else .next (s.pimctl f v).1
    else runEvent (writeField f n v) s
  | _, _ => .next s

end Sys2Proof.Machine
end

