-- ==== Sys2Proof/Machine/Scalar.lean ====
section
/-! DEFINITION. Meanings of the integer forms, OPC 0x01 (R188 to R199). -/

namespace Sys2Proof.Machine

/-! ## Shared operations -/

/-- The width that W32 selects (R189). -/
def wof (w32 : Bool) : Nat := if w32 then 32 else 64

/-- A result of w bits, sign-extended to a register (R191). -/
def sextW (w x : Nat) : Word := BitVec.ofInt 64 (signed w x)

/-- D = sext(op(w, trunc(A, w), trunc(B, w)), w) (R191). -/
def alu (op : Nat → Nat → Nat → Nat) (w32 : Bool) (d a : GReg) (b : GI) (c : Ctx) : Ctx :=
  let w := wof w32
  c.wg d (sextW w (op w ((c.rg a).toNat % 2 ^ w) ((GI.sval b c).toNat % 2 ^ w)))

/-- A form of one source (R193). -/
def alu1 (op : Nat → Nat → Nat) (w32 : Bool) (d a : GReg) (c : Ctx) : Ctx :=
  let w := wof w32
  c.wg d (sextW w (op w ((c.rg a).toNat % 2 ^ w)))

/-- A signed result as a pattern of w bits. -/
def onSigned (f : Int → Int → Int) (w a b : Nat) : Nat := truncTo w (f (signed w a) (signed w b))

/-- Bit i of the result is chosen by a function of the position. -/
def gatherBits (w : Nat) (f : Nat → Bool) : Nat := (List.range w).foldl (fun r i => if f i then r + 2 ^ i else r) 0

/-- Bits counted while a test holds, from position 0. -/
def countWhile (f : Nat → Bool) (w : Nat) : Nat := ((List.range w).takeWhile f).length

def opMulh (w a b : Nat) : Nat := truncTo w (signed w a * signed w b / (2 ^ w : Nat))
def opShl (w a b : Nat) : Nat := a * 2 ^ (b % w) % 2 ^ w
def opShr (w a b : Nat) : Nat := a / 2 ^ (b % w)
def opSar (w a b : Nat) : Nat := truncTo w (signed w a / (2 ^ (b % w) : Nat))
def opRol (w a b : Nat) : Nat := (a * 2 ^ (b % w) + a * 2 ^ (b % w) / 2 ^ w) % 2 ^ w
def opRor (w a b : Nat) : Nat := opRol w a (w - b % w)
def opNot (w a : Nat) : Nat := 2 ^ w - 1 - a % 2 ^ w
def opClz (w a : Nat) : Nat := countWhile (fun i => !a.testBit (w - 1 - i)) w
def opCtz (w a : Nat) : Nat := countWhile (fun i => !a.testBit i) w
def opPopc (w a : Nat) : Nat := ((List.range w).filter fun i => a.testBit i).length
def opBrev (w a : Nat) : Nat := gatherBits w fun i => a.testBit (w - 1 - i)
def opBswap (w a : Nat) : Nat := gatherBits w fun i => a.testBit (8 * (w / 8 - 1 - i / 8) + i % 8)

/-- Quotient and remainder of R194 on w-bit patterns. -/
def divide (sgn : Bool) (w a b : Nat) : Nat × Nat :=
  if b = 0 then (2 ^ w - 1, a)
  else if sgn then
    if a = 2 ^ (w - 1) ∧ b = 2 ^ w - 1 then (a, 0)
    else (truncTo w ((signed w a).tdiv (signed w b)), truncTo w ((signed w a).tmod (signed w b)))
  else (a / b, a % b)

/-! ## Arithmetic and logic -/

def execAdd (h : Hdr) (w32 : Bool) (d a : GReg) (b : GI) (s : State) : Out :=
  runReg h (alu (fun _ x y => x + y) w32 d a b) s
def execSub (h : Hdr) (w32 : Bool) (d a : GReg) (b : GI) (s : State) : Out :=
  runReg h (alu (fun w x y => x + 2 ^ w - y) w32 d a b) s
def execMul (h : Hdr) (w32 : Bool) (d a : GReg) (b : GI) (s : State) : Out :=
  runReg h (alu (fun _ x y => x * y) w32 d a b) s
def execMulh (h : Hdr) (w32 : Bool) (d a : GReg) (b : GI) (s : State) : Out := runReg h (alu opMulh w32 d a b) s
def execMulhu (h : Hdr) (w32 : Bool) (d a : GReg) (b : GI) (s : State) : Out :=
  runReg h (alu (fun w x y => x * y / 2 ^ w) w32 d a b) s
def execDiv (h : Hdr) (w32 : Bool) (d a : GReg) (b : GI) (s : State) : Out :=
  runReg h (alu (fun w x y => (divide true w x y).1) w32 d a b) s
def execDivu (h : Hdr) (w32 : Bool) (d a : GReg) (b : GI) (s : State) : Out :=
  runReg h (alu (fun w x y => (divide false w x y).1) w32 d a b) s
def execRem (h : Hdr) (w32 : Bool) (d a : GReg) (b : GI) (s : State) : Out :=
  runReg h (alu (fun w x y => (divide true w x y).2) w32 d a b) s
def execRemu (h : Hdr) (w32 : Bool) (d a : GReg) (b : GI) (s : State) : Out :=
  runReg h (alu (fun w x y => (divide false w x y).2) w32 d a b) s
def execAnd (h : Hdr) (w32 : Bool) (d a : GReg) (b : GI) (s : State) : Out :=
  runReg h (alu (fun _ x y => x &&& y) w32 d a b) s
def execOr (h : Hdr) (w32 : Bool) (d a : GReg) (b : GI) (s : State) : Out :=
  runReg h (alu (fun _ x y => x ||| y) w32 d a b) s
def execXor (h : Hdr) (w32 : Bool) (d a : GReg) (b : GI) (s : State) : Out :=
  runReg h (alu (fun _ x y => x ^^^ y) w32 d a b) s
def execAndn (h : Hdr) (w32 : Bool) (d a : GReg) (b : GI) (s : State) : Out :=
  runReg h (alu (fun w x y => x &&& opNot w y) w32 d a b) s
def execOrn (h : Hdr) (w32 : Bool) (d a : GReg) (b : GI) (s : State) : Out :=
  runReg h (alu (fun w x y => x ||| opNot w y) w32 d a b) s

/-! ## Shifts and rotates (R192) -/

def execShl (h : Hdr) (w32 : Bool) (d a : GReg) (b : GI) (s : State) : Out := runReg h (alu opShl w32 d a b) s
def execShr (h : Hdr) (w32 : Bool) (d a : GReg) (b : GI) (s : State) : Out := runReg h (alu opShr w32 d a b) s
def execSar (h : Hdr) (w32 : Bool) (d a : GReg) (b : GI) (s : State) : Out := runReg h (alu opSar w32 d a b) s
def execRol (h : Hdr) (w32 : Bool) (d a : GReg) (b : GI) (s : State) : Out := runReg h (alu opRol w32 d a b) s
def execRor (h : Hdr) (w32 : Bool) (d a : GReg) (b : GI) (s : State) : Out := runReg h (alu opRor w32 d a b) s

/-! ## Smaller and larger -/

def execMin (h : Hdr) (w32 : Bool) (d a : GReg) (b : GI) (s : State) : Out := runReg h (alu (onSigned min) w32 d a b) s
def execMax (h : Hdr) (w32 : Bool) (d a : GReg) (b : GI) (s : State) : Out := runReg h (alu (onSigned max) w32 d a b) s
def execMinu (h : Hdr) (w32 : Bool) (d a : GReg) (b : GI) (s : State) : Out :=
  runReg h (alu (fun _ x y => min x y) w32 d a b) s
def execMaxu (h : Hdr) (w32 : Bool) (d a : GReg) (b : GI) (s : State) : Out :=
  runReg h (alu (fun _ x y => max x y) w32 d a b) s

/-! ## Bit counts and reversals (R193) -/

def execClz (h : Hdr) (w32 : Bool) (d a : GReg) (s : State) : Out := runReg h (alu1 opClz w32 d a) s
def execCtz (h : Hdr) (w32 : Bool) (d a : GReg) (s : State) : Out := runReg h (alu1 opCtz w32 d a) s
def execPopc (h : Hdr) (w32 : Bool) (d a : GReg) (s : State) : Out := runReg h (alu1 opPopc w32 d a) s
def execBrev (h : Hdr) (w32 : Bool) (d a : GReg) (s : State) : Out := runReg h (alu1 opBrev w32 d a) s
def execBswap (h : Hdr) (w32 : Bool) (d a : GReg) (s : State) : Out := runReg h (alu1 opBswap w32 d a) s

/-! ## Extension and bit fields (R195, R196) -/

/-- The width of SEXT and ZEXT: B in [1, 64], else 64. -/
def extWidth (b : Word) : Nat := if 1 ≤ b.toNat ∧ b.toNat ≤ 64 then b.toNat else 64

/-- An immediate width outside [1, 64] raises ILLOP as an operand-value check. -/
def extBad : GI → Bool
  | .imm v => v.toNat == 0 || decide (64 < v.toNat)
  | .reg _ => false

def execSext (h : Hdr) (d a : GReg) (b : GI) (s : State) : Out :=
  runIsa h (do
    illopIf (.sext h d a b) (extBad b)
    modMe fun c => c.wg d (sextW (extWidth (GI.sval b c)) (c.rg a).toNat)
    return .next) s

def execZext (h : Hdr) (d a : GReg) (b : GI) (s : State) : Out :=
  runIsa h (do
    illopIf (.zext h d a b) (extBad b)
    modMe fun c => c.wg d (BitVec.ofNat 64 ((c.rg a).toNat % 2 ^ extWidth (GI.sval b c)))
    return .next) s

/-- Position and length of the control value (R196). -/
def fieldPos (c : Word) : Nat := bits c 0 6
def fieldLen (c : Word) : Nat := min (bits c 8 7) 64

/-- An immediate length above 64 raises ILLOP as an operand-value check. -/
def fieldBad : GI → Bool
  | .imm v => decide (64 < (v.extractLsb' 8 7).toNat)
  | .reg _ => false

def bfxOf (x c : Word) : Word := BitVec.ofNat 64 (x.toNat / 2 ^ fieldPos c % 2 ^ fieldLen c)

def bfiOf (old x c : Word) : Word :=
  let k : Word := BitVec.ofNat 64 ((2 ^ fieldLen c - 1) * 2 ^ fieldPos c)
  (old &&& ~~~k) ||| (BitVec.ofNat 64 (x.toNat * 2 ^ fieldPos c) &&& k)

def execBfx (h : Hdr) (d a : GReg) (b : GI) (s : State) : Out :=
  runIsa h (do
    illopIf (.bfx h d a b) (fieldBad b)
    modMe fun c => c.wg d (bfxOf (c.rg a) (GI.sval b c))
    return .next) s

def execBfi (h : Hdr) (d a : GReg) (b : GI) (s : State) : Out :=
  runIsa h (do
    illopIf (.bfi h d a b) (fieldBad b)
    modMe fun c => c.wg d (bfiOf (c.rg d) (c.rg a) (GI.sval b c))
    return .next) s

/-! ## Address, select and move (R197 to R199) -/

def execLea (h : Hdr) (d a : GReg) (b : GI) (k : BitVec 2) (s : State) : Out :=
  runReg h (fun c => c.wg d (c.rg a + GI.sval b c <<< k.toNat)) s
def execSel (h : Hdr) (d a b : GReg) (p : PSrc) (s : State) : Out :=
  runReg h (fun c => c.wg d (if PSrc.val p c then c.rg a else c.rg b)) s
def execMov (h : Hdr) (d a : GReg) (s : State) : Out := runReg h (fun c => c.wg d (c.rg a)) s
def execMovi (h : Hdr) (d : GReg) (imm : BitVec 32) (s : State) : Out := runReg h (fun c => c.wg d (imm.signExtend 64)) s
def execMovhi (h : Hdr) (d : GReg) (imm : BitVec 32) (s : State) : Out :=
  runReg h (fun c => c.wg d (imm ++ (c.rg d).setWidth 32)) s

end Sys2Proof.Machine
end

