-- ==== Sys2Proof/Machine/System.lean ====
section
/-! DEFINITION. Meanings of the system forms, OPC 0x3F (R164, R165, R389 to R393). -/

namespace Sys2Proof.Machine

/-! ## TRAP, BRK, ILL, RETT (R376, R377, R390) -/

def execTrap (h : Hdr) (n : BitVec 32) (s : State) : Out :=
  runIsa h (throw (.trap { cause := .swtrap, tval := n.setWidth 64, skip := true })) s

def execBrk (h : Hdr) (n : BitVec 16) (s : State) : Out :=
  runIsa h (throw (.trap { cause := .brk, tval := n.setWidth 64 })) s

def execIll (h : Hdr) (s : State) : Out :=
  .next (s.takeTrap s.cur { cause := .illop, tval := Instr.tvalBits (.ill h) })

/-- RETT at field level, reflecting with U; a late fault that remains is taken at the boundary that follows (R379); at task
level U = 0 goes to UTPC. -/
def rettBody (i : Instr) (u : Bool) : M Flow := do
  let c ← me
  if c.lvl then
    if u then
      illopIf i (!c.utvec.getLsbD 0)
      modMe Ctx.rettU
    else modMe Ctx.rett
    lateFirst
    return .stay
  else
    illopIf i u
    modMe fun c => { c with windows := [] }
    return .goto c.utpc

def execRett (h : Hdr) (u : Bool) (s : State) : Out := runFree h (rettBody (.rett h u) u) s

/-! ## SRD, SWR, RDTIME, ENRG, SEQRD (R164, R165, R390) -/

/-- DEDUCED: log entry 41. -/
def execSrd (h : Hdr) (d : GReg) (num : BitVec 12) (s : State) : Out :=
  let n := num.toNat
  match regTrap (.srd h d num) n (taskRead n) s.me with
  | some t => .next (s.takeTrap s.cur t)
  | none =>
    runIsa h (do
      let s ← get
      let v := s.readReg s.cur n
      if n = 0x941 then modify fun s => s.modField s.myField Field.cbNext
      modMe fun c => c.wg d v
      return .next) s

/-- DEDUCED: log entry 41. -/
def execSwr (h : Hdr) (num : BitVec 12) (b : GReg) (s : State) : Out :=
  let n := num.toNat
  match regTrap (.swr h num b) n (taskWrite n) s.me with
  | some t => .next (s.takeTrap s.cur t)
  | none =>
    runIsa h (do
      let s ← get
      writeReg s.cur n (s.me.rg b)
      return .next) s

def execRdtime (h : Hdr) (d : GReg) (pts : Bool) (s : State) : Out :=
  runReg h (fun c => c.wg d (BitVec.ofNat 64 (if pts then s.pts s.myCore else s.ns))) s

/-- What is left of a partition's allowance in this window, in µJ. -/
def Part.left (p : Part) : Nat := 1000 * p.allow - p.used

def State.energyLeft (s : State) (f : Nat) : Nat :=
  (((s.partOf f).bind fun n => s.partNow n).map Part.left).getD 0

def execEnrg (h : Hdr) (d : GReg) (s : State) : Out :=
  runReg h (fun c => c.wg d (BitVec.ofNat 64 (s.energyLeft s.myField))) s

/-- What SEQRD returns: 5 ABSENT where the number is not in the ring. -/
def Ctx.seqPart (c : Ctx) (q : BitVec 16) (part : Nat) : Word :=
  match c.ring.find? fun e => e.seq == q with
  | some e => e.part part
  | none => if part = 0 then BitVec.ofNat 64 (5 * 2 ^ 61 + q.toNat) else 0

def execSeqrd (h : Hdr) (d a : GReg) (part : BitVec 2) (s : State) : Out :=
  runIsa h (do
    let c ← me
    let x := c.rg a
    illopIf (.seqrd h d a part) (part == 3 || decide (65536 ≤ x.toNat))
    modMe fun c => c.wg d (c.seqPart (x.setWidth 16) part.toNat)
    return .next) s

/-! ## HALT (R390) -/

/-- A service context sleeps, and goes on at the next instruction. -/
def execHalt (h : Hdr) (s : State) : Out :=
  if !s.me.lvl then .next (s.takeTrap s.cur (privTrap (.halt h)))
  else if ctxNum s.cur < 14 then .next (s.takeTrap s.cur { cause := .illop, tval := Instr.tvalBits (.halt h) })
  else .next (s.setMe { s.me.advance with st := .asleep })

/-! ## CXSAVE and CXLOAD (R391) -/

/-- A status in bits [63:56]. -/
def topStatus (n : Nat) : Word := BitVec.ofNat 64 (n * 2 ^ 56)

/-- The operand checks that CXSAVE and CXLOAD share. DEDUCED: log entry 85. -/
def cxChecks (i : Instr) (va x : Nat) : M Unit := do
  illopIf i (decide (14 ≤ x) || x == ctxNum (← get).cur)
  trapIf (va % 4096 != 0) { cause := .align, tval := BitVec.ofNat 64 va }

/-- The frame of the issuing core at an address. DEDUCED: log entry 87. -/
def State.frameHere (s : State) (va : Nat) : FrameAt :=
  let co := s.core s.myCore
  { f := s.myField, cl := s.myCl, asid := co.frameAsid, key := co.frameKey, addr := va }

/-- Every page that the parts of a frame touch can be reached: in paged memory, and mapped. -/
def FrameAt.reach (a : FrameAt) (accs : BitVec 4) (store : Bool) : M Bool :=
  if localBase < a.addr + frameLen accs then return false else a.probeAll accs store

/-- A task exists, in a context or in a frame. -/
def State.alive (s : State) (tid : Nat) : Bool :=
  (s.ctxs.any fun x => x.2.task.tid == tid && !x.2.vacant) || s.cores.any fun x => x.2.saved.any fun v => v.task.tid == tid

/-- The save that a CXSAVE has begun goes on to its end: the status. -/
def cxsaveOn (c tid : Nat) : M Nat := do
  if ((← get).ctx c).task.tid = tid then saveOn c
  return if (← get).alive tid then 0 else 5

/-- Saves a context of the issuing core into a frame, at its next instruction boundary: the status. The issuer waits for the end
of the save, which part 0 of its instruction stands for. DEDUCED: log entries 85, 86, 87. -/
def cxsaveBody (va x : Nat) : M Nat := do
  let s ← get
  let c := s.myCore * 16 + x
  match s.me.parts.find? fun p => p.1 == 0 with
  | some p => cxsaveOn c p.2.1.toNat
  | none => do
    let a := s.frameHere va
    if !(← a.reach ((s.core s.myCore).heldAccs x) true) then return 4
    if (s.ctx c).vacant then return 1
    let u := s.unsend c
    waitIf ((s.ctx c).saving.isSome || u.midway c) .drain
    if (s.ctx c).task.stop then
      modify fun s => s.discard c
      return 1
    let v : Saving := { reason := 3, entry := none, asid := a.asid, key := a.key, addr := va, reqs := s.reqsOf c }
    set (u.modCtx c fun y => { y with saving := some v })
    modMe fun y => { y with parts := [(0, BitVec.ofNat 128 (s.ctx c).task.tid, 0)] }
    cxsaveOn c (s.ctx c).task.tid

def execCxsave (h : Hdr) (d a : GReg) (ctx : BitVec 4) (s : State) : Out :=
  runPriv (.cxsave h d a ctx) h (do
    let va := ((← me).rg a).toNat
    cxChecks (.cxsave h d a ctx) va ctx.toNat
    let st ← cxsaveBody va ctx.toNat
    modMe fun c => c.wg d (topStatus st)
    return .next) s

/-- The record of a frame: the core that saved it, and what it holds. The header of the frame names it, by the core and the time of
the save (R383); else its address does, where a frame of this core comes first. -/
def State.savedAt (s : State) (k va : Nat) (hd : List Byte) : Option (Nat × Saved) :=
  let at_ (j : Nat) (p : Saved → Bool) : Option (Nat × Saved) := ((s.core j).saved.find? p).map fun v => (j, v)
  let named : Option (Nat × Saved) := (s.locCore (BitVec.ofNat 32 (fieldAt hd 8 4))).bind fun j =>
    if fieldOf j = fieldOf k && !hd.isEmpty then at_ j fun v => v.ns == fieldAt hd 16 8 else none
  let here (v : Saved) : Bool := v.addr == va
  match named.orElse fun _ => at_ k here with
  | some r => some r
  | none =>
    (s.cores.filter fun x => fieldOf x.1 == fieldOf k && x.2.frameAsid == (s.core k).frameAsid).findSome? fun x => at_ x.1 here

/-- A frame of core j holds banks of another cluster than core k's, by its header; or its task has barrier slots of core j, or was
saved with send-queue entries or a waiting JOINW there (R234, R284, R374). DEDUCED: log entry 88. -/
def State.tiedTo (s : State) (j k : Nat) (v : Saved) (bs : List Byte) : Bool :=
  (byteAt bs 26 == 1 && clusterOf j != clusterOf k) || ((s.core j).bars.toList.any fun b => b.desc.isSome && b.setter == v.task.tid) ||
    fieldAt bs 0x350 8 / 2 ^ 20 != 0 || (match v.wait with
      | some (.pattern _) => true
      | _ => false)

/-- Items of a task come to another core, with their status; one that is still open is waited for.
DEDUCED: log entry 88. -/
def moveItems (j k tid : Nat) (c : Nat) : M Unit := do
  let mine := ((← get).core j).items.filter fun i => i.tid == tid
  waitIf (j != k && mine.any fun i => i.status.isNone) .drain
  if j != k then
    let here := mine.map fun i => { i with cx := c }
    modify fun s => s.modCore j fun co =>
      { co with items := co.items.filter fun i => i.tid != tid, saved := co.saved.filter fun v => v.task.tid != tid }
    modify fun s => s.modCore k fun co => { co with items := co.items ++ here }

/-- What a frame without a record is restored with: a task of its own, nothing in its private blocks.
DEDUCED: log entry 88. -/
def bareSaved (va x tid : Nat) : Saved :=
  { addr := va, entry := none, cx := x, task := { tid := tid }, mscl := {}, shadow0 := {}, shadow1 := {}, wait := none
    pend := [], ppov := none, nextSeq := 0, ring := [], reqs := [], rim := [], banks := false, accs := 0, ready := false
    own := false, since := 0 }

/-- Restores a frame into a context; 5 where the task is lost. DEDUCED: log entry 88. -/
def cxloadInto (k x : Nat) (a : FrameAt) (own : Option (Nat × Saved)) : M Nat := do
  match own with
  | some (j, v) =>
    moveItems j k v.task.tid (k * 16 + x)
    if ← restoreInto k x a none v then
      modify fun s => s.takeLate (k * 16 + x)
      return 0
    modify fun s => s.loseSaved k v
    return 5
  | none =>
    let tid ← freshId
    if ← restoreInto k x a none (bareSaved a.addr x tid) then return 0
    return 5

/-- Restores the frame at an address into a context of the issuing core: the status. The header of the frame tells which
accumulators, banks and send-queue entries it holds. DEDUCED: log entry 85. -/
def cxloadBody (va x : Nat) : M Nat := do
  let s ← get
  let k := s.myCore
  let a := s.frameHere va
  if !(← a.reach 0 false) then return 4
  let bs := (← a.read 0 16).getD []
  if !(← a.reach (BitVec.ofNat 4 (fieldAt bs 25 1)) false) then return 4
  if (s.ctx (k * 16 + x)).st != .free then return 2
  let own := s.savedAt k va bs
  if own.any fun v => v.1 != k && s.tiedTo v.1 k v.2 bs then return 3
  cxloadInto k x a own

def execCxload (h : Hdr) (d a : GReg) (ctx : BitVec 4) (s : State) : Out :=
  runPriv (.cxload h d a ctx) h (do
    let va := ((← me).rg a).toNat
    cxChecks (.cxload h d a ctx) va ctx.toNat
    let st ← cxloadBody va ctx.toNat
    modMe fun c => c.wg d (topStatus st)
    return .next) s

/-! ## KILL and KREVOKE (R392, R393) -/

/-- A KILL in progress will report the target. -/
def Field.killing (f : Field) (k : Nat) (cx : Option Nat) (frame : Option Nat) : Bool :=
  f.kills.any fun x => x.core == k && x.cx == cx && x.frame == frame

/-- The context of a core whose save in progress has taken an entry of the frame list. -/
def State.savingTo (s : State) (k entry : Nat) : Option Nat :=
  ((List.range 16).map (k * 16 + ·)).find? fun c => (s.ctx c).saving.any fun v => v.entry == some entry

/-- The target of a KILL: its task, or none. DEDUCED: log entry 89. -/
def State.killTarget (s : State) (k x : Nat) (frame : Bool) : Option Nat :=
  if frame then
    let st := (s.core k).frameState x
    if st = 2 ∨ st = 3 then
      match s.savingTo k x with
      | some c => some (s.ctx c).task.tid
      | none => ((s.core k).saved.find? fun v => v.entry == some x).map fun v => v.task.tid
    else none
  else if (s.ctx (k * 16 + x)).vacant then none else some (s.ctx (k * 16 + x)).task.tid

/-- Checks the target and accepts the KILL: the status. DEDUCED: log entry 89. -/
def killBody (target : Word) (va : Nat) : M Nat := do
  let s ← get
  let frame := target.getLsbD 63
  let x := bits target 32 4
  match s.locCore (target.setWidth 32) with
  | none => return 1
  | some k =>
    if fieldOf k != s.myField then return 1
    let cx := if frame then none else some (k * 16 + x)
    let fr := if frame then some x else none
    if (s.field s.myField).killing k cx fr then return 3
    match s.killTarget k x frame with
    | none => return 2
    | some tid => do
      if (s.field s.myField).kills.any fun y => y.tid == tid then return 3
      let cx := if frame then s.savingTo k x else cx
      let id ← freshId
      modify fun s => s.beginKill
        { id := id, tid := tid, record := va, asid := s.me.asid, by_ := s.myCore, core := k, cx := cx, frame := fr }
      return 0

/-- Bits that must be 0, and targets that a KILL may not name: context 14, 15 or the issuer. -/
def State.killBad (s : State) (t : Word) : Bool :=
  bits t 36 27 != 0 || (!t.getLsbD 63 &&
    (decide (14 ≤ bits t 32 4) || s.locCore (t.setWidth 32) == some s.myCore && bits t 32 4 == ctxNum s.cur))

/-- A record address is a multiple of 64. -/
def recordAlign (va : Word) : M Unit := trapIf (va.toNat % 64 != 0) { cause := .align, tval := va }

def execKill (h : Hdr) (d a b : GReg) (s : State) : Out :=
  runPriv (.kill h d a b) h (do
    let s ← get
    illopIf (.kill h d a b) (s.killBad (s.me.rg a))
    recordAlign (s.me.rg b)
    let st ← killBody (s.me.rg a) (s.me.rg b).toNat
    modMe fun c => c.wg d (topStatus st)
    return .next) s

/-- Revokes a key ID of the issuer's partition: 0 ACCEPTED, 2 NOTVALID. DEDUCED: log entry 90. -/
def krevokeBody (key : BitVec 8) (va : Nat) : M Nat := do
  let s ← get
  match (s.partOf s.myField).bind fun n => (SMap.find? s.parts n).map fun p => (n, p) with
  | none => return 2
  | some (n, p) =>
    if !s.keyValid p key.toNat then return 2
    set (s.revoke n p key (some (va, s.me.asid, s.myCore)))
    return 0

def execKrevoke (h : Hdr) (d a b : GReg) (s : State) : Out :=
  runPriv (.krevoke h d a b) h (do
    let c ← me
    illopIf (.krevoke h d a b) (decide (256 ≤ (c.rg a).toNat))
    recordAlign (c.rg b)
    let st ← krevokeBody ((c.rg a).setWidth 8) (c.rg b).toNat
    modMe fun c => c.wg d (BitVec.ofNat 64 st)
    return .next) s

end Sys2Proof.Machine
end

