-- ==== Sys2Proof/Machine/Tile.lean ====
section
/-! DEFINITION. Meanings of the tile-directory forms, OPC 0x21 (R108 to R114, R249 to R251). -/

namespace Sys2Proof.Machine

/-! ## Handles and replies (R250) -/

/-- The tile-table key that a handle names: slice and entry, where the generation is current. -/
def State.tileOf (s : State) (f : Nat) (w : Word) : Option (Nat × Tile) :=
  if bits w 32 32 != 0 || bits w 14 10 != 0 then none
  else
    let key := bits w 0 14
    match SMap.find? (s.field f).tiles key with
    | none => none
    | some t => if t.gen.toNat = bits w 24 8 then some (key, t) else none

def tileHandle (key : Nat) (gen : BitVec 8) : Nat := gen.toNat * 2 ^ 24 + key

/-- The home's reply becomes an item whose status TILE_REPLY writes to gd. -/
def tilePushTo (d : GReg) (w : Word) (cl : Nat) (lines : List Nat) : M Flow := do
  let _ ← newItem d .fld (.tile cl lines) (some w)
  return .next

def tileReplyTo (d : GReg) (w : Word) : M Flow := tilePushTo d w 0 []

/-- Tiles that a core owns. -/
def Field.tilesOwned (f : Field) (core : Nat) : Nat := (f.tiles.filter fun t => t.2.owner == core).length

/-! ## TDECL (R108, R111, R112) -/

/-- R108. -/
def shapeOk (base pitch rows cols size : Nat) : Bool :=
  let area := rows * cols * size
  decide (64 ≤ area) && decide (area ≤ 262144) && decide (cols * size ≤ pitch) && decide (pitch % size = 0)
    && decide (base % size = 0) && decide (base + (rows - 1) * pitch + cols * size ≤ localBase)
    && decide ((footprint base pitch rows cols size).length ≤ 8192)

/-- The pages of a footprint, ascending. -/
def pagesOf (lines : List Nat) : List Nat :=
  (lines.foldl (fun a x => if a.contains (x / 1024) then a else x / 1024 :: a) []).reverse

/-- RD and WR on every page of the footprint (R250); the ASID that the first one carries. -/
def checkPages : List Nat → BitVec 16 → M (BitVec 16)
  | [], a => return a
  | p :: t, _ => do
    let (_, a) ← access (p * 65536) 1 1 .atomic
    let _ ← checkPages t a
    return a

/-- The lowest free entry of a slice's tile table. -/
def Field.freeTile (f : Field) (slice : Nat) : Option Nat :=
  ((List.range 512).map (slice * 512 + ·)).find? fun k => (SMap.find? f.tiles k).isNone

/-- A set of the directory has too few entries for the footprint's lines beside those that tiles mark, which are never
replaced (R100, R111); which lines share a set is open. DESIGN CHOICE: log entry 117. -/
def Field.dirFull (f : Field) (lines : List Nat) : Bool :=
  let marked := (f.home.filter fun x => x.2.tile.isSome).map (·.1)
  decide (16 < marked.length + lines.length) && lines.any fun l =>
    let same (k : Nat) : Bool := sliceOf k == sliceOf l && dirSet k == dirSet l
    decide (16 < (marked.filter same).length + (lines.filter same).length)

/-- The first status of the tile home that applies to a TDECL, or 0. DEDUCED: log entry 62. -/
def State.tdeclStatus (s : State) (f core : Nat) (lines : List Nat) (slice : Nat) : Nat :=
  let fd := s.field f
  let marks := lines.filterMap fun l => (s.hline f l).tile
  let owner (t : Nat) : Option Nat := (SMap.find? fd.tiles t).map fun x => x.ownerCl f
  let mine := clusterOf (f * 320 + core)
  if marks.any fun t => owner t != some mine then 1
  else if !marks.isEmpty then 7
  else if 64 ≤ fd.tilesOwned core ∨ 8192 ≤ fd.tiles.length ∨ (fd.freeTile slice).isNone then 4
  else if fd.dirFull lines then 6
  else 0

/-- Nothing holds back the Own of any footprint line. -/
def ownReadyAll (f cl : Nat) : List Nat → M Unit
  | [] => return ()
  | l :: t => do
    ownReady f cl l
    ownReadyAll f cl t

/-- Every footprint line goes to the owner's cluster by Own; one for which its set of the L2 has no way leaves it at once
(R127). -/
def ownAll (f cl : Nat) : List Nat → M Unit
  | [] => return ()
  | l :: t => do
    let s ← get
    if !((s.hline f l).dir == .m cl && (s.hline f l).h == .none && (s.l2 cl l).isSome) then
      homeOwn f cl l
      if !(s.cluster cl).room l then modify fun s => s.giveBack f cl l
    ownAll f cl t

/-- Marks the lines of a tile. -/
def State.markTile (s : State) (f key : Nat) (lines : List Nat) : State :=
  lines.foldl (fun s l => s.setHline f l { s.hline f l with tile := some key }) s

/-- DEDUCED: log entry 62. -/
def execTdecl (h : Hdr) (d a b : GReg) (lgs : BitVec 2) (s : State) : Out :=
  runIsa h (do
    let s ← get
    let base := (s.me.rg a).toNat
    let w := s.me.rg b
    let pitch := bits w 32 32
    let cols := bits w 14 18 + 1
    let rows := bits w 0 14 + 1
    let size := 2 ^ lgs.toNat
    if !shapeOk base pitch rows cols size then tileReplyTo d (statusWord 5 0)
    else do
      let fp := footprint base pitch rows cols size
      asAgent (.cx s.cur)
      let asid ← checkPages (pagesOf fp) s.me.asid
      let f := s.myField
      let lines := fp.map fun x => lineKey asid (x * 64)
      let slice := sliceOf (lineKey asid base)
      let core := coreNum s.myCore
      match (← get).tdeclStatus f core lines slice with
      | 0 => do
        ownReadyAll f s.myCl lines
        ownAll f s.myCl lines
        let fd := (← get).field f
        match fd.freeTile slice with
        | none => tileReplyTo d (statusWord 4 0)
        | some key => do
          let gen : BitVec 8 := SMap.get fd.tileGens key 0
          let t : Tile :=
            { owner := core, base := base, pitch := pitch, rows := rows, cols := cols, size := size, asid := asid
              gen := gen, dem := false, sh := [] }
          modify fun s => (s.markTile f key lines).modField f fun fd => { fd with tiles := SMap.put fd.tiles key t }
          tileReplyTo d (statusWord 0 (tileHandle key gen))
      | st => tileReplyTo d (statusWord st 0)) s
where
  statusWord (code low : Nat) : Word := BitVec.ofNat 64 (code * 2 ^ 56 + low)

/-! ## TREL, TFWD, TOWN (R112, R113, R251) -/

def tileStatus (code : Nat) : Word := BitVec.ofNat 64 (code * 2 ^ 56)

/-- An operation from another cluster than the owner's. -/
def State.notOwner (s : State) (t : Tile) : Bool := t.ownerCl s.myField != s.myCl

/-- TREL: the lines take their own states, and the entry is freed. -/
def State.freeTileEntry (s : State) (f key : Nat) : State :=
  let s := match SMap.find? (s.field f).tiles key with
    | some t => if t.dem then s else s.demote f key
    | none => s
  s.modField f fun fd =>
    { fd with tiles := SMap.del fd.tiles key, tileGens := SMap.put fd.tileGens key (SMap.get fd.tileGens key 0 + 1) }

def execTrel (h : Hdr) (d a : GReg) (s : State) : Out :=
  runIsa h (do
    drainStores .fld
    let s ← get
    match s.tileOf s.myField (s.me.rg a) with
    | none => tileReplyTo d (tileStatus 3)
    | some (key, t) =>
      if s.notOwner t then tileReplyTo d (tileStatus 9)
      else do
        set (s.freeTileEntry s.myField key)
        tileReplyTo d (tileStatus 0)) s

/-- The home's whole copy of a footprint line; a fill that fails is a precise trap of the tile operation (R89). -/
def tileData (f l : Nat) : M HLine := do
  match ← takeFail f l with
  | some c => throw (.trap { cause := lateCause c, tval := BitVec.ofNat 64 (keyVa l) })
  | none => homeData f l

/-- The owner writes back a line's dirty bytes and keeps a clean copy; the whole line is at the home.
DEDUCED: log entry 69. -/
def shareLine (f oc l : Nat) : M HLine := do
  let s ← get
  if !s.recallable oc l then throw (.wait .memory)
  modify fun s => s.recall f oc l (some .s)
  tileData f l

/-- TFWD SHARE: every line is pushed into cluster cc; the directory counts cc among the sharers, what cc has sent of the line
coming before.
DEDUCED: log entry 69. -/
def shareTile (f oc cc : Nat) : List Nat → M Unit
  | [] => return ()
  | l :: t => do
    let h ← shareLine f oc l
    shareTile f oc cc t
    modify fun s =>
      let s := s.landEvicts f cc l
      let held := (s.hline f l).dir.holders
      let s := s.setHline f l { s.hline f l with dir := .s (addShare held cc) }
      s.modCluster cc fun c =>
        { c with pushes := (c.pushes.filter fun p => p.1 != l) ++ [(l, h.data, h.poison)] }

/-- Every line can leave its holders, and the home can supply it whole. -/
def gatherTile (f : Nat) : List Nat → M Unit
  | [] => return ()
  | l :: t => do
    let s ← get
    if !s.allRecallable l (s.hline f l).dir.holders then throw (.wait .memory)
    gatherTile f t

/-- The lines of a tile move with their data to a cluster that becomes their only holder; one for which its set of that L2
has no way stays at the home (R127). DEDUCED: log entry 63. -/
def moveTile (f cc : Nat) : List Nat → M Unit
  | [] => return ()
  | l :: t => do
    let s ← get
    set (s.recallAll f l (s.hline f l).dir.holders)
    modify fun s => s.setHline f l { s.hline f l with dir := .i }
    let h ← tileData f l
    moveTile f cc t
    modify fun s =>
      if (s.cluster cc).room l then
        (s.install cc l (freshLine h.data h.poison .e)).setHline f l { s.hline f l with dir := .e cc }
      else s

/-- DEDUCED: log entry 63. -/
def execTfwd (h : Hdr) (d a b : GReg) (give : Bool) (s : State) : Out :=
  runIsa h (do
    drainStores .fld
    let s ← get
    let f := s.myField
    match s.tileOf f (s.me.rg a) with
    | none => tileReplyTo d (tileStatus 3)
    | some (key, t) =>
      if s.notOwner t then tileReplyTo d (tileStatus 9)
      else
        let w := s.me.rg b
        match (if bits w 32 32 = 0 then s.locCore (w.setWidth 32) else none) with
        | none => tileReplyTo d (tileStatus 8)
        | some k =>
          if fieldOf k != f then tileReplyTo d (tileStatus 8)
          else if t.dem then tileReplyTo d (tileStatus 2)
          else if clusterOf k = t.ownerCl f then tileReplyTo d (tileStatus 0)
          else if give && decide (64 ≤ (s.field f).tilesOwned (coreNum k)) then tileReplyTo d (tileStatus 4)
          else do
            let cc := clusterOf k
            asAgent (.cx s.cur)
            let put (t : Tile) : M Unit := modify fun s => s.modField f fun fd => { fd with tiles := SMap.put fd.tiles key t }
            if give then
              gatherTile f t.lines
              moveTile f cc t.lines
              put { t with owner := coreNum k, sh := [] }
              tileReplyTo d (tileStatus 0)
            else
              shareTile f (t.ownerCl f) cc t.lines
              put { t with sh := addShare t.sh cc }
              tilePushTo d (tileStatus 0) cc t.lines) s

/-- DEDUCED: log entry 63. -/
def execTown (h : Hdr) (d a : GReg) (s : State) : Out :=
  runIsa h (do
    drainStores .fld
    let s ← get
    let f := s.myField
    let core := coreNum s.myCore
    match s.tileOf f (s.me.rg a) with
    | none => tileReplyTo d (tileStatus 3)
    | some (key, t) =>
      if t.dem then tileReplyTo d (tileStatus 2)
      else if t.owner != core && decide (64 ≤ (s.field f).tilesOwned core) then tileReplyTo d (tileStatus 4)
      else do
        asAgent (.cx s.cur)
        gatherTile f t.lines
        moveTile f s.myCl t.lines
        modify fun s => s.modField f fun fd => { fd with tiles := SMap.put fd.tiles key { t with owner := core, sh := [] } }
        tileReplyTo d (tileStatus 0)) s

/-! ## TQRY (Table 11-6) -/

def tqryWord (t : Tile) : Word :=
  let st := if t.dem then 2 else if t.sh.isEmpty then 0 else 1
  BitVec.ofNat 64 (st * 2 ^ 54 + t.owner * 2 ^ 45 + (if t.dem then 0 else t.sh.foldl (fun a c => a + 2 ^ (c % 40)) 0))

def execTqry (h : Hdr) (d a : GReg) (s : State) : Out :=
  runIsa h (do
    let s ← get
    match s.tileOf s.myField (s.me.rg a) with
    | none => tileReplyTo d (tileStatus 3)
    | some (_, t) => tileReplyTo d (tqryWord t)) s

end Sys2Proof.Machine
end

