-- ==== Sys2Proof/Machine/VecFp.lean ====
section
/-! DEFINITION. Meanings of the floating-point vector forms, OPC 0x11 (R218 to R223). -/

namespace Sys2Proof.Machine

def execVfadd (h : Hdr) (t : ETy) (r : RMode) (m : VMask) (d : VReg) (x : VSrc) (y : VG) (s : State) : Out :=
  runVec h (.vfadd h t r m d x y) false (vr d) (vfp (fun f a b _ => f.add r a b) t m d x y) s
def execVfsub (h : Hdr) (t : ETy) (r : RMode) (m : VMask) (d : VReg) (x : VSrc) (y : VG) (s : State) : Out :=
  runVec h (.vfsub h t r m d x y) false (vr d) (vfp (fun f a b _ => f.add r a b.negate) t m d x y) s
def execVfmul (h : Hdr) (t : ETy) (r : RMode) (m : VMask) (d : VReg) (x : VSrc) (y : VG) (s : State) : Out :=
  runVec h (.vfmul h t r m d x y) false (vr d) (vfp (fun f a b _ => f.mul r a b) t m d x y) s
def execVfma (h : Hdr) (t : ETy) (r : RMode) (m : VMask) (d : VReg) (x : VSrc) (y : VG) (s : State) : Out :=
  runVec h (.vfma h t r m d x y) false (vr d) (vfp (fun f a b c => f.fma r a b c) t m d x y) s
def execVfms (h : Hdr) (t : ETy) (r : RMode) (m : VMask) (d : VReg) (x : VSrc) (y : VG) (s : State) : Out :=
  runVec h (.vfms h t r m d x y) false (vr d) (vfp (fun f a b c => f.fma r a b c.negate) t m d x y) s
def execVfnma (h : Hdr) (t : ETy) (r : RMode) (m : VMask) (d : VReg) (x : VSrc) (y : VG) (s : State) : Out :=
  runVec h (.vfnma h t r m d x y) false (vr d) (vfp (fun f a b c => f.fma r a.negate b c) t m d x y) s
def execVfdiv (h : Hdr) (t : ETy) (r : RMode) (m : VMask) (d : VReg) (x : VSrc) (y : VG) (s : State) : Out :=
  runVec h (.vfdiv h t r m d x y) false (vr d) (vfp (fun f a b _ => f.div r a b) t m d x y) s
def execVfsqrt (h : Hdr) (t : ETy) (r : RMode) (m : VMask) (d : VReg) (x : VSrc) (s : State) : Out :=
  runVec h (.vfsqrt h t r m d x) false (vr d) (vfp1 (fun f a => f.sqrt r a) t m d x) s
def execVfrcp (h : Hdr) (t : ETy) (r : RMode) (m : VMask) (d : VReg) (x : VSrc) (s : State) : Out :=
  runVec h (.vfrcp h t r m d x) false (vr d) (vfp1 (fun f a => estRcp f r a) t m d x) s
def execVfrsq (h : Hdr) (t : ETy) (r : RMode) (m : VMask) (d : VReg) (x : VSrc) (s : State) : Out :=
  runVec h (.vfrsq h t r m d x) false (vr d) (vfp1 (fun f a => estRsq f r a) t m d x) s
def execVfexp2 (h : Hdr) (t : ETy) (r : RMode) (m : VMask) (d : VReg) (x : VSrc) (s : State) : Out :=
  runVec h (.vfexp2 h t r m d x) false (vr d) (vfp1 (fun f a => estExp2 f r a) t m d x) s
def execVflog2 (h : Hdr) (t : ETy) (r : RMode) (m : VMask) (d : VReg) (x : VSrc) (s : State) : Out :=
  runVec h (.vflog2 h t r m d x) false (vr d) (vfp1 (fun f a => estLog2 f r a) t m d x) s

/-- Minimum or maximum of the codes of each lane (R62). -/
def vfminmax (mx : Bool) (t : ETy) (m : VMask) (d : VReg) (x : VSrc) (y : VG) (c : Ctx) : Ctx :=
  let w := t.width
  putLanes c w m d fun e => (fmtOf t c).minmax mx (VSrc.elem x c w e) (VG.elem y c w e)

def execVfmin (h : Hdr) (t : ETy) (m : VMask) (d : VReg) (x : VSrc) (y : VG) (s : State) : Out :=
  runVec h (.vfmin h t m d x y) false (vr d) (vfminmax false t m d x y) s
def execVfmax (h : Hdr) (t : ETy) (m : VMask) (d : VReg) (x : VSrc) (y : VG) (s : State) : Out :=
  runVec h (.vfmax h t m d x y) false (vr d) (vfminmax true t m d x y) s

/-- Mask bits and IV of the active lanes (R219). -/
def vfcmpLanes (cnd : Cond) (t : ETy) (m : VMask) (d : QReg) (x : VSrc) (y : VG) (c : Ctx) : Ctx :=
  let w := t.width
  let f := fmtOf t c
  let a (e : Nat) : FVal := f.val (VSrc.elem x c w e)
  let b (e : Nat) : FVal := f.val (VG.elem y c w e)
  let sig := (activeLanes c m.msk w).any fun e => sig2 (a e) (b e)
  (putMask c w m d fun e => fpCond cnd (a e) (b e)).orFlags (if sig then ivFlag else 0)

def execVfcmp (h : Hdr) (cnd : Cond) (t : ETy) (m : VMask) (d : QReg) (x : VSrc) (y : VG) (s : State) : Out :=
  runVec h (.vfcmp h cnd t m d x y) false (qr d) (vfcmpLanes cnd t m d x y) s

/-- Class bits of the active lanes (R219). -/
def vfclassLanes (t : ETy) (m : VMask) (d : VReg) (x : VSrc) (c : Ctx) : Ctx :=
  putInts c t.width m d fun e => 2 ^ fpClass (fmtOf t c) (VSrc.elem x c t.width e)

def execVfclass (h : Hdr) (t : ETy) (m : VMask) (d : VReg) (x : VSrc) (s : State) : Out :=
  runVec h (.vfclass h t m d x) false (vr d) (vfclassLanes t m d x) s
def execVfcvt (h : Hdr) (t : ETy) (r : RMode) (m : VMask) (sat : Bool) (st : ETy) (part : BitVec 4) (d : VReg) (x : VSrc)
    (s : State) : Out :=
  runVec h (.vfcvt h t r m sat st part d x) false (vr d) (vfcvtLanes t st r m sat part.toNat d x) s

/-- Scaling by the E8M0 bytes of a register (R223). -/
def vfsclLanes (t : ETy) (r : RMode) (m : VMask) (blk : BitVec 2) (inv : Bool) (d : VReg) (x : VSrc) (y : VReg) (c : Ctx) :
    Ctx :=
  let w := t.width
  let f := fmtOf t c
  putLanes c w m d fun e =>
    vfsclLane f r inv (f.val (VSrc.elem x c w e)) (elem (c.rv y) (e / sclBlock blk) 8)

def execVfscl (h : Hdr) (t : ETy) (r : RMode) (m : VMask) (blk : BitVec 2) (inv : Bool) (d : VReg) (x : VSrc) (y : VReg)
    (s : State) : Out :=
  runVec h (.vfscl h t r m blk inv d x y) false (vr d) (vfsclLanes t r m blk inv d x y) s

end Sys2Proof.Machine
end

