-- ==== Sys2Proof/Machine/VecInt.lean ====
section
/-! DEFINITION. Meanings of the integer vector forms, OPC 0x10 (R213 to R217). -/

namespace Sys2Proof.Machine

def execVadd (h : Hdr) (t : ETy) (m : VMask) (sat : Bool) (d : VReg) (x : VSrc) (y : VB) (s : State) : Out :=
  runVec h (.vadd h t m sat d x y) false (vr d) (vint (laneAdd sat) t m d x y) s
def execVsub (h : Hdr) (t : ETy) (m : VMask) (sat : Bool) (d : VReg) (x : VSrc) (y : VB) (s : State) : Out :=
  runVec h (.vsub h t m sat d x y) false (vr d) (vint (laneSub sat) t m d x y) s
def execVmul (h : Hdr) (t : ETy) (m : VMask) (d : VReg) (x : VSrc) (y : VB) (s : State) : Out :=
  runVec h (.vmul h t m d x y) false (vr d) (vint (fun _ a b => a * b) t m d x y) s
def execVmulh (h : Hdr) (t : ETy) (m : VMask) (d : VReg) (x : VSrc) (y : VB) (s : State) : Out :=
  runVec h (.vmulh h t m d x y) false (vr d) (vint laneMulh t m d x y) s
def execVmin (h : Hdr) (t : ETy) (m : VMask) (d : VReg) (x : VSrc) (y : VB) (s : State) : Out :=
  runVec h (.vmin h t m d x y) false (vr d) (vint laneMin t m d x y) s
def execVmax (h : Hdr) (t : ETy) (m : VMask) (d : VReg) (x : VSrc) (y : VB) (s : State) : Out :=
  runVec h (.vmax h t m d x y) false (vr d) (vint laneMax t m d x y) s
def execVminu (h : Hdr) (t : ETy) (m : VMask) (d : VReg) (x : VSrc) (y : VB) (s : State) : Out :=
  runVec h (.vminu h t m d x y) false (vr d) (vint (fun _ a b => min a b) t m d x y) s
def execVmaxu (h : Hdr) (t : ETy) (m : VMask) (d : VReg) (x : VSrc) (y : VB) (s : State) : Out :=
  runVec h (.vmaxu h t m d x y) false (vr d) (vint (fun _ a b => max a b) t m d x y) s
def execVand (h : Hdr) (t : ETy) (m : VMask) (d : VReg) (x : VSrc) (y : VB) (s : State) : Out :=
  runVec h (.vand h t m d x y) false (vr d) (vint (fun _ a b => a &&& b) t m d x y) s
def execVor (h : Hdr) (t : ETy) (m : VMask) (d : VReg) (x : VSrc) (y : VB) (s : State) : Out :=
  runVec h (.vor h t m d x y) false (vr d) (vint (fun _ a b => a ||| b) t m d x y) s
def execVxor (h : Hdr) (t : ETy) (m : VMask) (d : VReg) (x : VSrc) (y : VB) (s : State) : Out :=
  runVec h (.vxor h t m d x y) false (vr d) (vint (fun _ a b => a ^^^ b) t m d x y) s
def execVshl (h : Hdr) (t : ETy) (m : VMask) (d : VReg) (x : VSrc) (y : VB) (s : State) : Out :=
  runVec h (.vshl h t m d x y) (shiftBad t y) (vr d) (vint laneShl t m d x y) s
def execVshr (h : Hdr) (t : ETy) (m : VMask) (d : VReg) (x : VSrc) (y : VB) (s : State) : Out :=
  runVec h (.vshr h t m d x y) (shiftBad t y) (vr d) (vint laneShr t m d x y) s
def execVsar (h : Hdr) (t : ETy) (m : VMask) (d : VReg) (x : VSrc) (y : VB) (s : State) : Out :=
  runVec h (.vsar h t m d x y) (shiftBad t y) (vr d) (vint laneSar t m d x y) s

def execVabs (h : Hdr) (t : ETy) (m : VMask) (sat : Bool) (d : VReg) (x : VSrc) (s : State) : Out :=
  runVec h (.vabs h t m sat d x) false (vr d) (vint1 (fun w a => satOr sat w (signed w a).natAbs) t m d x) s
def execVneg (h : Hdr) (t : ETy) (m : VMask) (sat : Bool) (d : VReg) (x : VSrc) (s : State) : Out :=
  runVec h (.vneg h t m sat d x) false (vr d) (vint1 (fun w a => satOr sat w (-signed w a)) t m d x) s

/-- Mask bits of the active lanes (R216). -/
def vcmpLanes (cnd : Cond) (t : ETy) (m : VMask) (d : QReg) (x : VSrc) (y : VB) (c : Ctx) : Ctx :=
  putMask c t.width m d fun e => Cond.test cnd t.width (VSrc.elem x c t.width e) (VB.elem y c t.width e)

def execVcmp (h : Hdr) (cnd : Cond) (t : ETy) (m : VMask) (d : QReg) (x : VSrc) (y : VB) (s : State) : Out :=
  runVec h (.vcmp h cnd t m d x y) false (qr d) (vcmpLanes cnd t m d x y) s

/-- Every lane is written: the mask selects (R217). -/
def vselLanes (t : ETy) (m : VMask) (d : VReg) (x : VSrc) (y : VB) (c : Ctx) : Ctx :=
  let w := t.width
  c.wv d (packVec w ((List.range (lanesOf w)).map fun e =>
    if active (c.rq m.msk) e w then VSrc.elem x c w e else VB.elem y c w e))

def execVsel (h : Hdr) (t : ETy) (m : VMask) (d : VReg) (x : VSrc) (y : VB) (s : State) : Out :=
  runVec h (.vsel h t m d x y) false (vr d) (vselLanes t m d x y) s
def execVpopc (h : Hdr) (t : ETy) (m : VMask) (d : VReg) (x : VSrc) (s : State) : Out :=
  runVec h (.vpopc h t m d x) false (vr d) (vint1 lanePopc t m d x) s

end Sys2Proof.Machine
end

