-- ==== Sys2Proof/Machine/VecMem.lean ====
section
/-! DEFINITION. Meanings of the vector memory forms, OPC 0x13 (R286 to R289). -/

namespace Sys2Proof.Machine

/-! ## Elements and late faults -/

/-- An element to be accessed: number, address. -/
abbrev Elem := Nat × Nat

/-- What an attempt meets: a trap becomes a value. -/
def attempt {α : Type} (m : M α) : M (Except Trap α) :=
  tryCatch (do return Except.ok (← m)) fun e =>
    match e with
    | .trap t => return Except.error t
    | e => throw e

/-- Element width in memory: four-bit elements go by bytes (R287). -/
def memWidth (t : ETy) : Nat := max 8 t.width

/-- g[OPA] + sext(IMM[31:16]). -/
def vecBase (c : Ctx) (a : GReg) (e : BitVec 16) : Word := c.rg a + e.signExtend 64

/-- Contiguous, strided and indexed addresses (R287). -/
def unitAddr (c : Ctx) (w : Nat) (a : GReg) (o : BitVec 16) (e : Nat) : Nat :=
  (vecBase c a o + BitVec.ofNat 64 (e * (w / 8))).toNat
def strideAddr (c : Ctx) (a b : GReg) (o : BitVec 16) (e : Nat) : Nat :=
  (vecBase c a o + BitVec.ofNat 64 e * c.rg b).toNat
def indexAddr (c : Ctx) (w : Nat) (a : GReg) (x : VReg) (k : BitVec 2) (o : BitVec 16) (e : Nat) : Nat :=
  (vecBase c a o + BitVec.ofInt 64 (signed w (elem (c.rv x) e w)) <<< k.toNat).toNat

/-- The active elements with their addresses, ascending. -/
def elems (c : Ctx) (q : QReg) (w : Nat) (addr : Nat → Nat) : List Elem := (activeLanes c q w).map fun e => (e, addr e)

/-- Checks every element (R267, R289): the first failure with its element, or the places. -/
def checkElems (n : Nat) (k : AccKind) (fe : Bool) : List Elem → M (Except (Nat × Trap) (List (Elem × Space × BitVec 16)))
  | [] => return .ok []
  | x :: t => do
    let r ← attempt (do
      if fe then
        let (c, o) ← feAccess x.2 n k .bounds
        return (Space.core c o, (0 : BitVec 16))
      else place x.2 n n k)
    match r with
    | .error tr => return .error (x.1, tr)
    | .ok (sp, a) => do
      match ← checkElems n k fe t with
      | .error e => return .error e
      | .ok l => return .ok ((x, sp, a) :: l)

/-- The outcome of the rim for this instruction, at the lowest element it concerns (R268, R289). -/
def rimElem (c : Ctx) (es : List Elem) : Option (Nat × Trap) :=
  es.findSome? fun x => (c.rimTrap x.2).map fun t => (x.1, t)

/-- Ends a form with a late fault: no register and no byte changes. -/
def lateEnd (dst : Option RegRef) (e : Nat) (t : Trap) : M Flow := do
  modMe fun c => { c.pushLate dst t e with rim := [] }
  return .next

/-- Dispatch waits while the ring is full (R378). -/
def ringWait : M Unit := do waitIf (← me).ringFull .items

/-! ## Loads -/

/-- The elements of a vector that lie in the aligned 8-byte word of one of them: the lowest, and the bytes from the first to the
last of them. -/
def wordSpan (n : Nat) (es : List Elem) (x : Elem) : Nat × Nat × Nat :=
  (es.filter fun y => y.2 / 8 == x.2 / 8).foldl
    (fun a y => (Nat.min a.1 y.1, Nat.min a.2.1 y.2, Nat.max a.2.2 (y.2 + n))) (x.1, x.2, x.2 + n)

/-- The bytes of an element: through an import slot, those of a whole word are read at once (R253, R254). -/
def readOne (n : Nat) (es : List Elem) (x : Elem) (sp : Space) (a : BitVec 16) : M (List Byte) := do
  match sp with
  | .peer slot off => do
    let (key, lo, hi) := wordSpan n es x
    let bs ← readAt (.peer slot (off + lo - x.2)) a lo (hi - lo) none key
    return (bs.drop (x.2 - lo)).take n
  | sp => readAt sp a x.2 n none x.1

/-- Reads elements: the first failure, or the values by element. es: the elements of the vector. -/
def readElems (n : Nat) (es : List Elem) : List (Elem × Space × BitVec 16) → M (Except (Nat × Trap) (List (Nat × Nat)))
  | [] => return .ok []
  | (x, sp, a) :: t => do
    match ← attempt (readOne n es x sp a) with
    | .error tr => return .error (x.1, tr)
    | .ok bs => do
      match ← readElems n es t with
      | .error e => return .error e
      | .ok l => return .ok ((x.1, bytesNat bs) :: l)

/-- The first element in core memory that has an empty word (R271). -/
def State.emptyElem (s : State) (n : Nat) (ps : List (Elem × Space × BitVec 16)) : Option (Nat × Nat) :=
  ps.findSome? fun p =>
    match p.2.1 with
    | .core k o => if (s.core k).allFull o n then none else some (k, o)
    | _ => none

/-- A vector load of elements at given addresses. fe: VLDF, which waits for full words. -/
def vecLoad (t : ETy) (m : VMask) (d : VReg) (addr : Ctx → Nat → Nat) (fe : Bool) : M Flow := do
  ringWait
  modMe fun c => { c with vec := true }
  let c ← me
  let w := memWidth t
  let es := elems c m.msk w (addr c)
  match rimElem c es with
  | some (e, tr) => lateEnd (some (.v d.toNat)) e tr
  | none => do
    match ← checkElems (w / 8) .load fe es with
    | .error (e, tr) => lateEnd (some (.v d.toNat)) e tr
    | .ok ps => do
      if fe then
        match (← get).emptyElem (w / 8) ps with
        | some (k, o) => throw (.wait (.fullEmpty k o (w / 8)))
        | none => pure ()
      match ← readElems (w / 8) es ps with
      | .error (e, tr) => lateEnd (some (.v d.toNat)) e tr
      | .ok vs => do
        modMe fun c => (putInts c w m d fun e => ((vs.find? fun v => v.1 == e).map (·.2)).getD 0).pushSeq .done
          (some (.v d.toNat))
        return .next

def execVld (h : Hdr) (t : ETy) (m : VMask) (d : VReg) (a : GReg) (e : BitVec 16) (s : State) : Out :=
  runIsa h (vecLoad t m d (fun c i => unitAddr c (memWidth t) a e i) false) s
def execVlds (h : Hdr) (t : ETy) (m : VMask) (d : VReg) (a b : GReg) (e : BitVec 16) (s : State) : Out :=
  runIsa h (vecLoad t m d (fun c i => strideAddr c a b e i) false) s
def execVgath (h : Hdr) (t : ETy) (m : VMask) (k : BitVec 2) (d : VReg) (a : GReg) (x : VReg) (e : BitVec 16) (s : State) :
    Out :=
  runIsa h (vecLoad t m d (fun c i => indexAddr c t.width a x k e i) false) s
def execVldf (h : Hdr) (t : ETy) (m : VMask) (d : VReg) (a : GReg) (e : BitVec 16) (s : State) : Out :=
  runIsa h (vecLoad t m d (fun c i => unitAddr c (memWidth t) a e i) true) s

/-! ## Stores -/

/-- Adds bytes to the 8-byte word of a store that holds their address: later bytes win. -/
def addWord (asid : BitVec 16) (va : Nat) (bs : List Byte) :
    List (BitVec 16 × StoreWord) → List (BitVec 16 × StoreWord)
  | [] => [(asid, (va / 8 * 8, placeBytes bs (va % 64), beOf (va % 64) bs.length))]
  | (a, w) :: t =>
    if a = asid ∧ w.1 = va / 8 * 8 then
      let be := beOf (va % 64) bs.length
      (a, (w.1, mergeLine w.2.1 (placeBytes bs (va % 64)) be, w.2.2 ||| be)) :: t
    else (a, w) :: addWord asid va bs t

/-- The elements that lie in paged memory, as whole 8-byte words (R253, R254). -/
def pagedWords (val : Nat → List Byte) (ps : List (Elem × Space × BitVec 16)) : List (BitVec 16 × StoreWord) :=
  ps.foldl (fun ws p => if p.2.1 == .paged then addWord p.2.2 p.1.2 (val p.1.1) ws else ws) []

/-- Writes the elements in core memories and field shared memory one by one. -/
def writeFar (val : Nat → List Byte) : List (Elem × Space × BitVec 16) → M Unit
  | [] => return ()
  | (x, sp, a) :: t => do
    match sp with
    | .paged | .peer .. => pure ()
    | sp => writeAt sp a x.2 (val x.1) none
    writeFar val t

/-- The elements that lie behind import slots, as whole 8-byte words of the peer window (R253, R254). -/
def peerWords (val : Nat → List Byte) (ps : List (Elem × Space × BitVec 16)) : List (BitVec 16 × StoreWord) :=
  ps.foldl (fun ws p => match p.2.1 with
    | .peer .. => addWord 0 p.1.2 (val p.1.1) ws
    | _ => ws) []

/-- Posts words of the peer window. -/
def writePeers : List (BitVec 16 × StoreWord) → M Unit
  | [] => return ()
  | (_, va, d, be) :: t => do
    let o := va - peerBase
    peerStoreWord (o / 2 ^ 45) (o % 2 ^ 45) (lineBytes d (va % 64) 8) (be.extractLsb' (va % 64) 8)
    writePeers t

/-- Queues words of paged memory. -/
def writeWords : List (BitVec 16 × StoreWord) → M Unit
  | [] => return ()
  | (a, w) :: t => do
    pushAll a none [w]
    writeWords t

/-- Writes elements in ascending order: those of one 8-byte word of paged memory, or behind an import slot, together.
DEDUCED: log entries 26, 49. -/
def writeElems (val : Nat → List Byte) (ps : List (Elem × Space × BitVec 16)) : M Unit := do
  writeFar val ps
  writePeers (peerWords val ps)
  let ws := pagedWords val ps
  writeWords (if ws.length ≤ 1 || Config.choice (← get).fresh then ws else ws.reverse)

/-- An outcome of the rim leaves any subset of the other elements written, each whole (R289): of those that can be written
now, where none fails its checks. DEDUCED: log entry 49. -/
def writeSome (n : Nat) (val : Nat → List Byte) (es : List Elem) : M Unit := do
  let s ← get
  let at_ (x : Elem) : Chk := s.check s.acc x.2 n n .store
  let fails (x : Elem) : Bool := match at_ x with
    | .bad _ => true
    | _ => false
  let now (x : Elem) : Option (Elem × Space × BitVec 16) := match at_ x with
    | .ok sp a => if (s.me.rimTrap x.2).isNone && Config.choice (s.fresh + x.1) then some (x, sp, a) else none
    | _ => none
  if es.any fails then pure () else writeElems val (es.filterMap now)

/-- A vector store: every element is checked, then the elements are written in ascending order. -/
def vecStore (t : ETy) (q : QReg) (v : VReg) (addr : Ctx → Nat → Nat) : M Flow := do
  ringWait
  let c ← me
  let w := memWidth t
  let es := elems c q w (addr c)
  let val (i : Nat) : List Byte := natBytes (elem (c.rv v) i w) (w / 8)
  match rimElem c es with
  | some (e, tr) => do
    writeSome (w / 8) val es
    lateEnd none e tr
  | none => do
    match ← checkElems (w / 8) .store false es with
    | .error (e, tr) => lateEnd none e tr
    | .ok ps => do
      writeElems val ps
      modMe fun c => c.pushSeq .done none
      return .next

def execVst (h : Hdr) (t : ETy) (q : QReg) (v : VReg) (a : GReg) (e : BitVec 16) (s : State) : Out :=
  runIsa h (vecStore t q v (fun c i => unitAddr c (memWidth t) a e i)) s
def execVsts (h : Hdr) (t : ETy) (q : QReg) (v : VReg) (a b : GReg) (e : BitVec 16) (s : State) : Out :=
  runIsa h (vecStore t q v (fun c i => strideAddr c a b e i)) s
def execVscat (h : Hdr) (t : ETy) (q : QReg) (k : BitVec 2) (v : VReg) (a : GReg) (x : VReg) (e : BitVec 16) (s : State) :
    Out :=
  runIsa h (vecStore t q v (fun c i => indexAddr c t.width a x k e i)) s

/-! ## VAMO (R288, R289) -/

/-- The check of each element that has not been performed and that no outcome of the rim concerns (R289): the first
failure. -/
def vamoCheck (n : Nat) : List Elem → M (Option (Nat × Trap))
  | [] => return none
  | x :: t => do
    let c ← me
    if (c.parts.any fun p => p.1 == x.1) || (c.rimTrap x.2).isSome then return ← vamoCheck n t
    match ← attempt (place x.2 n n .atomic) with
    | .ok _ => vamoCheck n t
    | .error tr => if ((← me).rimTrap x.2).isSome then vamoCheck n t else return some (x.1, tr)

/-- The outcome of an element that has not been performed stands for it until the instruction ends. -/
def Ctx.keepTrap (c : Ctx) (va : Nat) (t : Trap) : Ctx :=
  if (c.rimTrap va).isSome || t.cause != .ue then c else { c with rim := c.rim ++ [.ueWord va] }

/-- Performs one element at its place, once (R275, R276, R288): its old value and flags, or the outcome it meets.
DEDUCED: log entry 50. -/
def vamoElem (op : AtOp) (dw : Bool) (n v : Nat) (pl : Place) (ord : Order) (sc : Scope) (x : Elem) :
    M (Except Trap (Nat × BitVec 5)) := do
  let c ← me
  match c.parts.find? fun p => p.1 == x.1 with
  | some p => return .ok (p.2.1.toNat, p.2.2)
  | none => do
    match c.rimTrap x.2 with
    | some t => return .error t
    | none => do
      match ← attempt (do
        let (sp, a) ← place x.2 n n .atomic
        atomicAt sp a x.2 op dw v 0 pl ord sc x.1) with
      | .ok r => do
        modMe fun c => c.keepPart x.1 r
        return .ok (r.1.toNat, r.2)
      | .error t => do
        modMe fun c => c.keepTrap x.2 t
        return .error t

/-- Performs the elements in ascending order: old values with flags, and the outcomes met. DEDUCED: log entry 50. -/
def vamoAll (op : AtOp) (dw : Bool) (n : Nat) (val : Nat → Nat) (pl : Place) (ord : Order) (sc : Scope) :
    List Elem → M (List (Nat × Nat × BitVec 5) × List (Nat × Trap))
  | [] => return ([], [])
  | x :: t => do
    let r ← vamoElem op dw n (val x.1) pl ord sc x
    let (l, bad) ← vamoAll op dw n val pl ord sc t
    match r with
    | .ok (old, fl) => return ((x.1, old, fl) :: l, bad)
    | .error tr => return (l, (x.1, tr) :: bad)

/-- The registers and the ring after a VAMO: each performed element of vd holds its old value, the lowest element that met an
outcome is recorded (R288, R289). -/
def Ctx.vamoEnd (c : Ctx) (w : Nat) (m : VMask) (d : VReg) (l : List (Nat × Nat × BitVec 5)) (bad : List (Nat × Trap)) :
    Ctx :=
  let val (i : Nat) : Nat := elem (c.rv d) i w
  let c := (putInts c w m d fun i => ((l.find? fun v => v.1 == i).map (·.2.1)).getD (val i)).orFlags
    (l.foldl (fun a v => a ||| v.2.2) 0)
  let c := { c with rim := [] }
  match bad with
  | [] => c.pushSeq .done (some (.v d.toNat))
  | b :: _ => c.pushLate (some (.v d.toNat)) b.2 b.1

def execVamo (h : Hdr) (t : ETy) (m : VMask) (op : AtOp) (ord : Order) (pl : Place) (sc : Scope) (k : BitVec 2) (d : VReg)
    (a : GReg) (x : VReg) (e : BitVec 16) (s : State) : Out :=
  runIsa h (do
    ringWait
    let c ← me
    let w := t.width
    let n := w / 8
    let es := elems c m.msk w (fun i => indexAddr c w a x k e i)
    match ← vamoCheck n es with
    | some (i, tr) =>
      if (← me).parts.isEmpty then lateEnd (some (.v d.toNat)) i tr else vamoFinish t m op ord pl sc d n es
    | none => vamoFinish t m op ord pl sc d n es) s
where
  vamoFinish (t : ETy) (m : VMask) (op : AtOp) (ord : Order) (pl : Place) (sc : Scope) (d : VReg) (n : Nat)
      (es : List Elem) : M Flow := do
    let c ← me
    let (l, bad) ← vamoAll op (n == 8) n (fun i => elem (c.rv d) i t.width) pl ord sc es
    modMe fun c => c.vamoEnd t.width m d l bad
    return .next

end Sys2Proof.Machine
end

