-- ==== Sys2Proof/Machine/VecPerm.lean ====
section
/-! DEFINITION. Meanings of the reduce, permute and mask forms, OPC 0x12 (R75, R224 to R227). -/

namespace Sys2Proof.Machine

/-! ## Reductions (R75, R225) -/

/-- The active elements of a source, ascending. -/
def activeElems (c : Ctx) (q : QReg) (w : Nat) (x : VSrc) : List Nat :=
  (activeLanes c q w).map fun e => VSrc.elem x c w e

def vraddOf (t : ETy) (q : QReg) (d : GReg) (x : VSrc) (c : Ctx) : Ctx :=
  c.wg d (BitVec.ofInt 64 (signed t.width ((activeElems c q t.width x).foldl (· + ·) 0)))

def execVradd (h : Hdr) (t : ETy) (q : QReg) (d : GReg) (x : VSrc) (s : State) : Out :=
  runVec h (.vradd h t q d x) false (gr d) (vraddOf t q d x) s

/-- Minimum or maximum of the active lanes; the identity of the operation when there is none. -/
def vrminmaxOf (mx : Bool) (t : ETy) (q : QReg) (uns : Bool) (d : GReg) (x : VSrc) (c : Ctx) : Ctx :=
  let w := t.width
  let l := activeElems c q w x
  if uns then
    let z := if mx then 0 else 2 ^ w - 1
    c.wg d (BitVec.ofNat 64 (l.foldl (fun a b => if mx then max a b else min a b) z))
  else
    let z : Int := if mx then -(2 ^ (w - 1) : Nat) else (2 ^ (w - 1) : Nat) - 1
    c.wg d (BitVec.ofInt 64 (l.foldl (fun a b => if mx then max a (signed w b) else min a (signed w b)) z))

def execVrmin (h : Hdr) (t : ETy) (q : QReg) (uns : Bool) (d : GReg) (x : VSrc) (s : State) : Out :=
  runVec h (.vrmin h t q uns d x) false (gr d) (vrminmaxOf false t q uns d x) s
def execVrmax (h : Hdr) (t : ETy) (q : QReg) (uns : Bool) (d : GReg) (x : VSrc) (s : State) : Out :=
  runVec h (.vrmax h t q uns d x) false (gr d) (vrminmaxOf true t q uns d x) s

/-- The result of a reduction over one lane: its value, a NaN in canonical form (R58, R59). -/
def Fmt.lone (f : Fmt) (x : Nat) : Nat × BitVec 5 :=
  match f.val x with
  | .nan sig => f.nanOut sig
  | _ => (x, 0)

/-- The ordered sum: from the lowest active lane, one rounding per addition (R75). -/
def orderedSum (f : Fmt) (r : RMode) : List Nat → Nat × BitVec 5
  | [] => (0, 0)
  | [x] => f.lone x
  | x :: l => l.foldl (fun a y => let z := f.add r (f.val a.1) (f.val y); (z.1, a.2 ||| z.2)) (x, 0)

def vfraddOf (t : ETy) (r : RMode) (q : QReg) (d : GReg) (x : VSrc) (c : Ctx) : Ctx :=
  let z := orderedSum (fmtOf t c) r (activeElems c q t.width x)
  (c.wg d (BitVec.ofNat 64 z.1)).orFlags z.2

def execVfradd (h : Hdr) (t : ETy) (r : RMode) (q : QReg) (d : GReg) (x : VSrc) (s : State) : Out :=
  runVec h (.vfradd h t r q d x) false (gr d) (vfraddOf t r q d x) s

/-- The maximum of R62 in lane order; −infinity when no lane is active. -/
def orderedMax (f : Fmt) : List Nat → Nat × BitVec 5
  | [] => (f.infOut true, 0)
  | [x] => f.lone x
  | x :: l => l.foldl (fun a y => let z := f.minmax true a.1 y; (z.1, a.2 ||| z.2)) (x, 0)

def vfrmaxOf (t : ETy) (q : QReg) (d : GReg) (x : VSrc) (c : Ctx) : Ctx :=
  let z := orderedMax (fmtOf t c) (activeElems c q t.width x)
  (c.wg d (BitVec.ofNat 64 z.1)).orFlags z.2

def execVfrmax (h : Hdr) (t : ETy) (q : QReg) (d : GReg) (x : VSrc) (s : State) : Out :=
  runVec h (.vfrmax h t q d x) false (gr d) (vfrmaxOf t q d x) s

/-! ## Permutes (R226) -/

def vpermLanes (t : ETy) (m : VMask) (d : VReg) (x y : VSrc) (c : Ctx) : Ctx :=
  let w := t.width
  putInts c w m d fun e =>
    let j := VSrc.elem y c w e
    if j < lanesOf w then VSrc.elem x c w j else 0

/-- DEDUCED: log entry 47. -/
def execVperm (h : Hdr) (t : ETy) (m : VMask) (d : VReg) (x y : VSrc) (s : State) : Out :=
  runVec h (.vperm h t m d x y) false (vr d) (vpermLanes t m d x y) s

/-- The slide amount: sext(g, 64) or sext(IMMB, 16). -/
def GI16.slide (k : GI16) (c : Ctx) : Int :=
  match k with
  | .reg r => (c.rg r).toInt
  | .imm i => i.toInt

/-- An element index: zext(g, 64) or zext(IMMB, 16). -/
def GI16.index (k : GI16) (c : Ctx) : Nat :=
  match k with
  | .reg r => (c.rg r).toNat
  | .imm i => i.toNat

def vslideLanes (t : ETy) (m : VMask) (d : VReg) (x : VSrc) (k : GI16) (c : Ctx) : Ctx :=
  let w := t.width
  putInts c w m d fun e =>
    let j : Int := e - GI16.slide k c
    if 0 ≤ j ∧ j < lanesOf w then VSrc.elem x c w j.toNat else 0

/-- DEDUCED: log entry 47. -/
def execVslide (h : Hdr) (t : ETy) (m : VMask) (d : VReg) (x : VSrc) (k : GI16) (s : State) : Out :=
  runVec h (.vslide h t m d x k) false (vr d) (vslideLanes t m d x k) s

def vbcastLanes (t : ETy) (m : VMask) (d : VReg) (a : GReg) (c : Ctx) : Ctx :=
  putInts c t.width m d fun _ => (c.rg a).toNat % 2 ^ t.width

def execVbcast (h : Hdr) (t : ETy) (m : VMask) (d : VReg) (a : GReg) (s : State) : Out :=
  runVec h (.vbcast h t m d a) false (vr d) (vbcastLanes t m d a) s

def vextOf (t : ETy) (d : GReg) (x : VSrc) (k : GI16) (c : Ctx) : Ctx :=
  let j := GI16.index k c
  c.wg d (if j < lanesOf t.width then BitVec.ofNat 64 (VSrc.elem x c t.width j) else 0)

def execVext (h : Hdr) (t : ETy) (d : GReg) (x : VSrc) (k : GI16) (s : State) : Out :=
  runVec h (.vext h t d x k) false (gr d) (vextOf t d x k) s

def vinsOf (t : ETy) (d : VReg) (a : GReg) (k : GI16) (c : Ctx) : Ctx :=
  let w := t.width
  let j := GI16.index k c
  if j < lanesOf w then
    c.wv d (packVec w ((List.range (lanesOf w)).map fun e => if e = j then (c.rg a).toNat else elem (c.rv d) e w))
  else c

def execVins (h : Hdr) (t : ETy) (d : VReg) (a : GReg) (k : GI16) (s : State) : Out :=
  runVec h (.vins h t d a k) false (vr d) (vinsOf t d a k) s

/-- Active lanes packed low; the elements above their count are kept or zeroed. -/
def vcmprLanes (t : ETy) (m : VMask) (d : VReg) (x : VSrc) (c : Ctx) : Ctx :=
  let w := t.width
  let l := activeElems c m.msk w x
  c.wv d (packVec w ((List.range (lanesOf w)).map fun e =>
    if e < l.length then l.getD e 0 else if m.z then 0 else elem (c.rv d) e w))

def execVcmpr (h : Hdr) (t : ETy) (m : VMask) (d : VReg) (x : VSrc) (s : State) : Out :=
  runVec h (.vcmpr h t m d x) false (vr d) (vcmprLanes t m d x) s

/-- Number of active lanes below e. -/
def activeBelow (c : Ctx) (q : QReg) (w e : Nat) : Nat := ((List.range e).filter fun j => active (c.rq q) j w).length

def vexpdLanes (t : ETy) (m : VMask) (d : VReg) (x : VSrc) (c : Ctx) : Ctx :=
  putInts c t.width m d fun e => VSrc.elem x c t.width (activeBelow c m.msk t.width e)

def execVexpd (h : Hdr) (t : ETy) (m : VMask) (d : VReg) (x : VSrc) (s : State) : Out :=
  runVec h (.vexpd h t m d x) false (vr d) (vexpdLanes t m d x) s

def vzipLanes (t : ETy) (m : VMask) (hi : Bool) (d : VReg) (x y : VSrc) (c : Ctx) : Ctx :=
  let w := t.width
  putInts c w m d fun e =>
    let j := e / 2 + (if hi then lanesOf w / 2 else 0)
    if e % 2 = 0 then VSrc.elem x c w j else VSrc.elem y c w j

def execVzip (h : Hdr) (t : ETy) (m : VMask) (hi : Bool) (d : VReg) (x y : VSrc) (s : State) : Out :=
  runVec h (.vzip h t m hi d x y) false (vr d) (vzipLanes t m hi d x y) s

def vunzipLanes (t : ETy) (m : VMask) (odd : Bool) (d : VReg) (x y : VSrc) (c : Ctx) : Ctx :=
  let w := t.width
  let o := if odd then 1 else 0
  putInts c w m d fun e =>
    if e < lanesOf w / 2 then VSrc.elem x c w (2 * e + o) else VSrc.elem y c w (2 * (e - lanesOf w / 2) + o)

def execVunzip (h : Hdr) (t : ETy) (m : VMask) (odd : Bool) (d : VReg) (x y : VSrc) (s : State) : Out :=
  runVec h (.vunzip h t m odd d x y) false (vr d) (vunzipLanes t m odd d x y) s

def viotaLanes (t : ETy) (m : VMask) (d : VReg) (c : Ctx) : Ctx :=
  putInts c t.width m d fun e => activeBelow c m.msk t.width e

def execViota (h : Hdr) (t : ETy) (m : VMask) (d : VReg) (s : State) : Out :=
  runVec h (.viota h t m d) false (vr d) (viotaLanes t m d) s

/-! ## Mask registers (R227) -/

def execQand (h : Hdr) (d a b : QReg) (s : State) : Out :=
  runVec h (.qand h d a b) false (qr d) (fun c => c.wq d (c.rq a &&& c.rq b)) s
def execQor (h : Hdr) (d a b : QReg) (s : State) : Out :=
  runVec h (.qor h d a b) false (qr d) (fun c => c.wq d (c.rq a ||| c.rq b)) s
def execQxor (h : Hdr) (d a b : QReg) (s : State) : Out :=
  runVec h (.qxor h d a b) false (qr d) (fun c => c.wq d (c.rq a ^^^ c.rq b)) s
def execQnot (h : Hdr) (d a : QReg) (s : State) : Out :=
  runVec h (.qnot h d a) false (qr d) (fun c => c.wq d (~~~c.rq a)) s

def qcntOf (t : ETy) (d : GReg) (a : QReg) (c : Ctx) : Ctx :=
  c.wg d (BitVec.ofNat 64 (activeLanes c a t.width).length)

def execQcnt (h : Hdr) (t : ETy) (d : GReg) (a : QReg) (s : State) : Out :=
  runVec h (.qcnt h t d a) false (gr d) (qcntOf t d a) s

end Sys2Proof.Machine
end

