-- ==== Sys2Proof/Machine/Dispatch.lean ====
section
/-! DEFINITION. One arm per constructor of Instr: the meaning of each instruction and of each step of another agent. -/

namespace Sys2Proof.Machine

def exec (i : Instr) (s : State) : Host.Outcome State Fault Refusal :=
  match i with
  | .add h w32 d a b => Sys2Proof.Machine.execAdd h w32 d a b s
  | .sub h w32 d a b => Sys2Proof.Machine.execSub h w32 d a b s
  | .mul h w32 d a b => Sys2Proof.Machine.execMul h w32 d a b s
  | .mulh h w32 d a b => Sys2Proof.Machine.execMulh h w32 d a b s
  | .mulhu h w32 d a b => Sys2Proof.Machine.execMulhu h w32 d a b s
  | .div h w32 d a b => Sys2Proof.Machine.execDiv h w32 d a b s
  | .divu h w32 d a b => Sys2Proof.Machine.execDivu h w32 d a b s
  | .rem h w32 d a b => Sys2Proof.Machine.execRem h w32 d a b s
  | .remu h w32 d a b => Sys2Proof.Machine.execRemu h w32 d a b s
  | .and h w32 d a b => Sys2Proof.Machine.execAnd h w32 d a b s
  | .or h w32 d a b => Sys2Proof.Machine.execOr h w32 d a b s
  | .xor h w32 d a b => Sys2Proof.Machine.execXor h w32 d a b s
  | .andn h w32 d a b => Sys2Proof.Machine.execAndn h w32 d a b s
  | .orn h w32 d a b => Sys2Proof.Machine.execOrn h w32 d a b s
  | .shl h w32 d a b => Sys2Proof.Machine.execShl h w32 d a b s
  | .shr h w32 d a b => Sys2Proof.Machine.execShr h w32 d a b s
  | .sar h w32 d a b => Sys2Proof.Machine.execSar h w32 d a b s
  | .rol h w32 d a b => Sys2Proof.Machine.execRol h w32 d a b s
  | .ror h w32 d a b => Sys2Proof.Machine.execRor h w32 d a b s
  | .min h w32 d a b => Sys2Proof.Machine.execMin h w32 d a b s
  | .max h w32 d a b => Sys2Proof.Machine.execMax h w32 d a b s
  | .minu h w32 d a b => Sys2Proof.Machine.execMinu h w32 d a b s
  | .maxu h w32 d a b => Sys2Proof.Machine.execMaxu h w32 d a b s
  | .clz h w32 d a => Sys2Proof.Machine.execClz h w32 d a s
  | .ctz h w32 d a => Sys2Proof.Machine.execCtz h w32 d a s
  | .popc h w32 d a => Sys2Proof.Machine.execPopc h w32 d a s
  | .brev h w32 d a => Sys2Proof.Machine.execBrev h w32 d a s
  | .bswap h w32 d a => Sys2Proof.Machine.execBswap h w32 d a s
  | .sext h d a b => Sys2Proof.Machine.execSext h d a b s
  | .zext h d a b => Sys2Proof.Machine.execZext h d a b s
  | .bfx h d a b => Sys2Proof.Machine.execBfx h d a b s
  | .bfi h d a b => Sys2Proof.Machine.execBfi h d a b s
  | .lea h d a b k => Sys2Proof.Machine.execLea h d a b k s
  | .sel h d a b c => Sys2Proof.Machine.execSel h d a b c s
  | .mov h d a => Sys2Proof.Machine.execMov h d a s
  | .movi h d imm => Sys2Proof.Machine.execMovi h d imm s
  | .movhi h d imm => Sys2Proof.Machine.execMovhi h d imm s
  | .cmp h c w32 d a b => Sys2Proof.Machine.execCmp h c w32 d a b s
  | .pand h d a b => Sys2Proof.Machine.execPand h d a b s
  | .por h d a b => Sys2Proof.Machine.execPor h d a b s
  | .pxor h d a b => Sys2Proof.Machine.execPxor h d a b s
  | .pnot h d a => Sys2Proof.Machine.execPnot h d a s
  | .pmov h d a => Sys2Proof.Machine.execPmov h d a s
  | .pget h d => Sys2Proof.Machine.execPget h d s
  | .br h off => Sys2Proof.Machine.execBr h off s
  | .brl h d off => Sys2Proof.Machine.execBrl h d off s
  | .jmp h a e => Sys2Proof.Machine.execJmp h a e s
  | .jmpl h d a e => Sys2Proof.Machine.execJmpl h d a e s
  | .ret h a => Sys2Proof.Machine.execRet h a s
  | .loop h d off => Sys2Proof.Machine.execLoop h d off s
  | .brt h a b off => Sys2Proof.Machine.execBrt h a b off s
  | .nop h => Sys2Proof.Machine.execNop h s
  | .ld h sz sx acq d a e => Sys2Proof.Machine.execLd h sz sx acq d a e s
  | .st h sz rel src a e => Sys2Proof.Machine.execSt h sz rel src a e s
  | .ldp h acq d a e => Sys2Proof.Machine.execLdp h acq d a e s
  | .stp h rel src a e => Sys2Proof.Machine.execStp h rel src a e s
  | .ldf h dw d a e => Sys2Proof.Machine.execLdf h dw d a e s
  | .lde h dw d a e => Sys2Proof.Machine.execLde h dw d a e s
  | .stf h dw src a e => Sys2Proof.Machine.execStf h dw src a e s
  | .sete h dw a e => Sys2Proof.Machine.execSete h dw a e s
  | .pref h a e => Sys2Proof.Machine.execPref h a e s
  | .cflush h a e => Sys2Proof.Machine.execCflush h a e s
  | .cinv h icache a e => Sys2Proof.Machine.execCinv h icache a e s
  | .czero h a e => Sys2Proof.Machine.execCzero h a e s
  | .aadd h m d a b e => Sys2Proof.Machine.execAadd h m d a b e s
  | .amin h m d a b e => Sys2Proof.Machine.execAmin h m d a b e s
  | .amax h m d a b e => Sys2Proof.Machine.execAmax h m d a b e s
  | .aminu h m d a b e => Sys2Proof.Machine.execAminu h m d a b e s
  | .amaxu h m d a b e => Sys2Proof.Machine.execAmaxu h m d a b e s
  | .aand h m d a b e => Sys2Proof.Machine.execAand h m d a b e s
  | .aor h m d a b e => Sys2Proof.Machine.execAor h m d a b e s
  | .axor h m d a b e => Sys2Proof.Machine.execAxor h m d a b e s
  | .aswp h m d a b e => Sys2Proof.Machine.execAswp h m d a b e s
  | .acas h m d a b e => Sys2Proof.Machine.execAcas h m d a b e s
  | .acas2 h m d a b e => Sys2Proof.Machine.execAcas2 h m d a b e s
  | .afadd h m d a b e => Sys2Proof.Machine.execAfadd h m d a b e s
  | .ainc h m d a b e => Sys2Proof.Machine.execAinc h m d a b e s
  | .fence h sc kld kst keng klnk => Sys2Proof.Machine.execFence h sc kld kst keng klnk s
  | .waita h c dw acq sc d a b e => Sys2Proof.Machine.execWaita h c dw acq sc d a b e s
  | .waitn h b => Sys2Proof.Machine.execWaitn h b s
  | .barset h d a slot => Sys2Proof.Machine.execBarset h d a slot s
  | .bararr h d slot => Sys2Proof.Machine.execBararr h d slot s
  | .barwait h d a slot => Sys2Proof.Machine.execBarwait h d a slot s
  | .chk h d => Sys2Proof.Machine.execChk h d s
  | .yield h => Sys2Proof.Machine.execYield h s
  | .vadd h t m sat d x y => Sys2Proof.Machine.execVadd h t m sat d x y s
  | .vsub h t m sat d x y => Sys2Proof.Machine.execVsub h t m sat d x y s
  | .vmul h t m d x y => Sys2Proof.Machine.execVmul h t m d x y s
  | .vmulh h t m d x y => Sys2Proof.Machine.execVmulh h t m d x y s
  | .vmin h t m d x y => Sys2Proof.Machine.execVmin h t m d x y s
  | .vmax h t m d x y => Sys2Proof.Machine.execVmax h t m d x y s
  | .vminu h t m d x y => Sys2Proof.Machine.execVminu h t m d x y s
  | .vmaxu h t m d x y => Sys2Proof.Machine.execVmaxu h t m d x y s
  | .vand h t m d x y => Sys2Proof.Machine.execVand h t m d x y s
  | .vor h t m d x y => Sys2Proof.Machine.execVor h t m d x y s
  | .vxor h t m d x y => Sys2Proof.Machine.execVxor h t m d x y s
  | .vshl h t m d x y => Sys2Proof.Machine.execVshl h t m d x y s
  | .vshr h t m d x y => Sys2Proof.Machine.execVshr h t m d x y s
  | .vsar h t m d x y => Sys2Proof.Machine.execVsar h t m d x y s
  | .vabs h t m sat d x => Sys2Proof.Machine.execVabs h t m sat d x s
  | .vneg h t m sat d x => Sys2Proof.Machine.execVneg h t m sat d x s
  | .vcmp h c t m d x y => Sys2Proof.Machine.execVcmp h c t m d x y s
  | .vsel h t m d x y => Sys2Proof.Machine.execVsel h t m d x y s
  | .vpopc h t m d x => Sys2Proof.Machine.execVpopc h t m d x s
  | .vfadd h t r m d x y => Sys2Proof.Machine.execVfadd h t r m d x y s
  | .vfsub h t r m d x y => Sys2Proof.Machine.execVfsub h t r m d x y s
  | .vfmul h t r m d x y => Sys2Proof.Machine.execVfmul h t r m d x y s
  | .vfma h t r m d x y => Sys2Proof.Machine.execVfma h t r m d x y s
  | .vfms h t r m d x y => Sys2Proof.Machine.execVfms h t r m d x y s
  | .vfnma h t r m d x y => Sys2Proof.Machine.execVfnma h t r m d x y s
  | .vfdiv h t r m d x y => Sys2Proof.Machine.execVfdiv h t r m d x y s
  | .vfsqrt h t r m d x => Sys2Proof.Machine.execVfsqrt h t r m d x s
  | .vfrcp h t r m d x => Sys2Proof.Machine.execVfrcp h t r m d x s
  | .vfrsq h t r m d x => Sys2Proof.Machine.execVfrsq h t r m d x s
  | .vfexp2 h t r m d x => Sys2Proof.Machine.execVfexp2 h t r m d x s
  | .vflog2 h t r m d x => Sys2Proof.Machine.execVflog2 h t r m d x s
  | .vfmin h t m d x y => Sys2Proof.Machine.execVfmin h t m d x y s
  | .vfmax h t m d x y => Sys2Proof.Machine.execVfmax h t m d x y s
  | .vfcmp h c t m d x y => Sys2Proof.Machine.execVfcmp h c t m d x y s
  | .vfclass h t m d x => Sys2Proof.Machine.execVfclass h t m d x s
  | .vfcvt h t r m sat st part d x => Sys2Proof.Machine.execVfcvt h t r m sat st part d x s
  | .vfscl h t r m blk inv d x y => Sys2Proof.Machine.execVfscl h t r m blk inv d x y s
  | .vradd h t msk d x => Sys2Proof.Machine.execVradd h t msk d x s
  | .vrmin h t msk uns d x => Sys2Proof.Machine.execVrmin h t msk uns d x s
  | .vrmax h t msk uns d x => Sys2Proof.Machine.execVrmax h t msk uns d x s
  | .vfradd h t r msk d x => Sys2Proof.Machine.execVfradd h t r msk d x s
  | .vfrmax h t msk d x => Sys2Proof.Machine.execVfrmax h t msk d x s
  | .vperm h t m d x y => Sys2Proof.Machine.execVperm h t m d x y s
  | .vslide h t m d x k => Sys2Proof.Machine.execVslide h t m d x k s
  | .vbcast h t m d a => Sys2Proof.Machine.execVbcast h t m d a s
  | .vext h t d x k => Sys2Proof.Machine.execVext h t d x k s
  | .vins h t d a k => Sys2Proof.Machine.execVins h t d a k s
  | .vcmpr h t m d x => Sys2Proof.Machine.execVcmpr h t m d x s
  | .vexpd h t m d x => Sys2Proof.Machine.execVexpd h t m d x s
  | .vzip h t m hi d x y => Sys2Proof.Machine.execVzip h t m hi d x y s
  | .vunzip h t m odd d x y => Sys2Proof.Machine.execVunzip h t m odd d x y s
  | .viota h t m d => Sys2Proof.Machine.execViota h t m d s
  | .qand h d a b => Sys2Proof.Machine.execQand h d a b s
  | .qor h d a b => Sys2Proof.Machine.execQor h d a b s
  | .qxor h d a b => Sys2Proof.Machine.execQxor h d a b s
  | .qnot h d a => Sys2Proof.Machine.execQnot h d a s
  | .qcnt h t d a => Sys2Proof.Machine.execQcnt h t d a s
  | .vld h t m d a e => Sys2Proof.Machine.execVld h t m d a e s
  | .vst h t msk s0 a e => Sys2Proof.Machine.execVst h t msk s0 a e s
  | .vlds h t m d a b e => Sys2Proof.Machine.execVlds h t m d a b e s
  | .vsts h t msk s0 a b e => Sys2Proof.Machine.execVsts h t msk s0 a b e s
  | .vgath h t m k d a x e => Sys2Proof.Machine.execVgath h t m k d a x e s
  | .vscat h t msk k s0 a x e => Sys2Proof.Machine.execVscat h t msk k s0 a x e s
  | .vldf h t m d a e => Sys2Proof.Machine.execVldf h t m d a e s
  | .vamo h t m op ord pl sc k d a x e => Sys2Proof.Machine.execVamo h t m op ord pl sc k d a x e s
  | .mma h ta tb d a b k => Sys2Proof.Machine.execMma h ta tb d a b k s
  | .mcnt h ta tb a b k bank => Sys2Proof.Machine.execMcnt h ta tb a b k bank s
  | .mdrain h d bank => Sys2Proof.Machine.execMdrain h d bank s
  | .mmerge h => Sys2Proof.Machine.execMmerge h s
  | .mzero h d => Sys2Proof.Machine.execMzero h d s
  | .mld h t d a b rows cols => Sys2Proof.Machine.execMld h t d a b rows cols s
  | .mst h t r sat d a b rows cols => Sys2Proof.Machine.execMst h t r sat d a b rows cols s
  | .mscl h a b aen ben ablk bblk => Sys2Proof.Machine.execMscl h a b aen ben ablk bblk s
  | .mwait h => Sys2Proof.Machine.execMwait h s
  | .mcfg h d claim release => Sys2Proof.Machine.execMcfg h d claim release s
  | .mbcast h d a b bus mask len => Sys2Proof.Machine.execMbcast h d a b bus mask len s
  | .mqw h b => Sys2Proof.Machine.execMqw h b s
  | .tdecl h d a b lgs => Sys2Proof.Machine.execTdecl h d a b lgs s
  | .trel h d a => Sys2Proof.Machine.execTrel h d a s
  | .tfwd h d a b give => Sys2Proof.Machine.execTfwd h d a b give s
  | .town h d a => Sys2Proof.Machine.execTown h d a s
  | .tqry h d a => Sys2Proof.Machine.execTqry h d a s
  | .cpy h d a ch => Sys2Proof.Machine.execCpy h d a ch s
  | .cchain h a ch => Sys2Proof.Machine.execCchain h a ch s
  | .ccancel h d ch all => Sys2Proof.Machine.execCcancel h d ch all s
  | .cqry h d ch => Sys2Proof.Machine.execCqry h d ch s
  | .put h sc dk d a b len vc cen => Sys2Proof.Machine.execPut h sc dk d a b len vc cen s
  | .putv h sc dk d a b len vc cen => Sys2Proof.Machine.execPutv h sc dk d a b len vc cen s
  | .ramo h op dw ord sc d a b vc => Sys2Proof.Machine.execRamo h op dw ord sc d a b vc s
  | .send h a b m => Sys2Proof.Machine.execSend h a b m s
  | .sendv h a b m => Sys2Proof.Machine.execSendv h a b m s
  | .pcfg h d a port => Sys2Proof.Machine.execPcfg h d a port s
  | .jcfg h d a pat => Sys2Proof.Machine.execJcfg h d a pat s
  | .jena h d b => Sys2Proof.Machine.execJena h d b s
  | .jdis h d b => Sys2Proof.Machine.execJdis h d b s
  | .mtake h d a port spl => Sys2Proof.Machine.execMtake h d a port spl s
  | .mreplay h d a => Sys2Proof.Machine.execMreplay h d a s
  | .spawn h d a b cls => Sys2Proof.Machine.execSpawn h d a b cls s
  | .joinw h d pat free => Sys2Proof.Machine.execJoinw h d pat free s
  | .carm h d a b cls => Sys2Proof.Machine.execCarm h d a b cls s
  | .cdec h d a b => Sys2Proof.Machine.execCdec h d a b s
  | .texit h => Sys2Proof.Machine.execTexit h s
  | .sqcfg h b => Sys2Proof.Machine.execSqcfg h b s
  | .stlcfg h b => Sys2Proof.Machine.execStlcfg h b s
  | .trap h n => Sys2Proof.Machine.execTrap h n s
  | .rett h u => Sys2Proof.Machine.execRett h u s
  | .srd h d num => Sys2Proof.Machine.execSrd h d num s
  | .swr h num b => Sys2Proof.Machine.execSwr h num b s
  | .rdtime h d pts => Sys2Proof.Machine.execRdtime h d pts s
  | .brk h n => Sys2Proof.Machine.execBrk h n s
  | .cxsave h d a ctx => Sys2Proof.Machine.execCxsave h d a ctx s
  | .cxload h d a ctx => Sys2Proof.Machine.execCxload h d a ctx s
  | .kill h d a b => Sys2Proof.Machine.execKill h d a b s
  | .krevoke h d a b => Sys2Proof.Machine.execKrevoke h d a b s
  | .enrg h d => Sys2Proof.Machine.execEnrg h d s
  | .halt h => Sys2Proof.Machine.execHalt h s
  | .seqrd h d a part => Sys2Proof.Machine.execSeqrd h d a part s
  | .ill h => Sys2Proof.Machine.execIll h s
  | .registerWrite c num v => Sys2Proof.Machine.execRegisterWrite c num v s
  | .hostBarWrite f num v => Sys2Proof.Machine.execHostBarWrite f num v s
  | .windowEnable f w v => Sys2Proof.Machine.execWindowEnable f w v s
  | .windowDisable f w v => Sys2Proof.Machine.execWindowDisable f w v s
  | .cbdataWrite f v => Sys2Proof.Machine.execCbdataWrite f v s
  | .cbdataRead f => Sys2Proof.Machine.execCbdataRead f s
  | .scrubcfWrite f v => Sys2Proof.Machine.execScrubcfWrite f v s
  | .scrubLine f ctl e => Sys2Proof.Machine.execScrubLine f ctl e s
  | .ucieFlitReplay f ctl => Sys2Proof.Machine.execUcieFlitReplay f ctl s
  | .ucieLinkDegrade f ctl failed => Sys2Proof.Machine.execUcieLinkDegrade f ctl failed s
  | .rimRequest f id => Sys2Proof.Machine.execRimRequest f id s
  | .pageWalkDone f id => Sys2Proof.Machine.execPageWalkDone f id s
  | .faultMessageDeliver f => Sys2Proof.Machine.execFaultMessageDeliver f s
  | .hbmReadComplete f id e => Sys2Proof.Machine.execHbmReadComplete f id e s
  | .xinvPage f v => Sys2Proof.Machine.execXinvPage f v s
  | .xinvAsid f v => Sys2Proof.Machine.execXinvAsid f v s
  | .xinvAll f v => Sys2Proof.Machine.execXinvAll f v s
  | .xinvReserved f v => Sys2Proof.Machine.execXinvReserved f v s
  | .xinvComplete f => Sys2Proof.Machine.execXinvComplete f s
  | .parkRetry f v => Sys2Proof.Machine.execParkRetry f v s
  | .parkFail f v => Sys2Proof.Machine.execParkFail f v s
  | .parkTimeoutSave c => Sys2Proof.Machine.execParkTimeoutSave c s
  | .migrationStart f v => Sys2Proof.Machine.execMigrationStart f v s
  | .migrationRoundEnd f slot => Sys2Proof.Machine.execMigrationRoundEnd f slot s
  | .migrationComplete f slot => Sys2Proof.Machine.execMigrationComplete f slot s
  | .homeRds f id => Sys2Proof.Machine.execHomeRds f id s
  | .homeOwn f id => Sys2Proof.Machine.execHomeOwn f id s
  | .homeMergeFill f id => Sys2Proof.Machine.execHomeMergeFill f id s
  | .homeEviction f id => Sys2Proof.Machine.execHomeEviction f id s
  | .homeAtomic f id => Sys2Proof.Machine.execHomeAtomic f id s
  | .tilePushInstall cl id => Sys2Proof.Machine.execTilePushInstall cl id s
  | .hostMemrd f tag off mv => Sys2Proof.Machine.execHostMemrd f tag off mv s
  | .hostMemrddata f tag off => Sys2Proof.Machine.execHostMemrddata f tag off s
  | .hostMeminv f tag off mv => Sys2Proof.Machine.execHostMeminv f tag off mv s
  | .hostMemwr f tag off data => Sys2Proof.Machine.execHostMemwr f tag off data s
  | .hostMemwrptl f tag off data be => Sys2Proof.Machine.execHostMemwrptl f tag off data be s
  | .birsp f line r => Sys2Proof.Machine.execBirsp f line r s
  | .biTimeout f line => Sys2Proof.Machine.execBiTimeout f line s
  | .h2dSnoop f addr => Sys2Proof.Machine.execH2dSnoop f addr s
  | .gatewayLoad f id => Sys2Proof.Machine.execGatewayLoad f id s
  | .gatewayStore f id => Sys2Proof.Machine.execGatewayStore f id s
  | .gatewayAtomic f id => Sys2Proof.Machine.execGatewayAtomic f id s
  | .shmcfWrite f v => Sys2Proof.Machine.execShmcfWrite f v s
  | .apcfClear f v => Sys2Proof.Machine.execApcfClear f v s
  | .clusterRecall cl line => Sys2Proof.Machine.execClusterRecall cl line s
  | .l2StorePerform k idx => Sys2Proof.Machine.execL2StorePerform k idx s
  | .mergeFillArrive cl line => Sys2Proof.Machine.execMergeFillArrive cl line s
  | .l2Eviction cl line => Sys2Proof.Machine.execL2Eviction cl line s
  | .l1ParityError k icache line => Sys2Proof.Machine.execL1ParityError k icache line s
  | .sramEccError unit l2 addr e => Sys2Proof.Machine.execSramEccError unit l2 addr e s
  | .cmlayWrite k n v => Sys2Proof.Machine.execCmlayWrite k n v s
  | .feWaitSatisfied k off => Sys2Proof.Machine.execFeWaitSatisfied k off s
  | .waitaWake c => Sys2Proof.Machine.execWaitaWake c s
  | .recordStart cl ch => Sys2Proof.Machine.execRecordStart cl ch s
  | .recordElement cl ch => Sys2Proof.Machine.execRecordElement cl ch s
  | .copyErrorMessage f => Sys2Proof.Machine.execCopyErrorMessage f s
  | .recordComplete cl ch => Sys2Proof.Machine.execRecordComplete cl ch s
  | .chainNextRecord cl ch => Sys2Proof.Machine.execChainNextRecord cl ch s
  | .ceresRetry f v => Sys2Proof.Machine.execCeresRetry f v s
  | .ceresFail f v => Sys2Proof.Machine.execCeresFail f v s
  | .bankReduce f id => Sys2Proof.Machine.execBankReduce f id s
  | .statusWriteback k item => Sys2Proof.Machine.execStatusWriteback k item s
  | .tileReply k item => Sys2Proof.Machine.execTileReply k item s
  | .matrixExecute cl => Sys2Proof.Machine.execMatrixExecute cl s
  | .mbcastComplete k item => Sys2Proof.Machine.execMbcastComplete k item s
  | .putLand cl item => Sys2Proof.Machine.execPutLand cl item s
  | .putComplete cl item => Sys2Proof.Machine.execPutComplete cl item s
  | .ramoExecute k item => Sys2Proof.Machine.execRamoExecute k item s
  | .ramoReply k item => Sys2Proof.Machine.execRamoReply k item s
  | .exportDisable f v => Sys2Proof.Machine.execExportDisable f v s
  | .exportEnable f v => Sys2Proof.Machine.execExportEnable f v s
  | .importEnable f v => Sys2Proof.Machine.execImportEnable f v s
  | .importRequest f fromField handle slot => Sys2Proof.Machine.execImportRequest f fromField handle slot s
  | .importReply f slot => Sys2Proof.Machine.execImportReply f slot s
  | .importTimeout f slot => Sys2Proof.Machine.execImportTimeout f slot s
  | .peerAccess f id => Sys2Proof.Machine.execPeerAccess f id s
  | .oslotWrite f n v => Sys2Proof.Machine.execOslotWrite f n v s
  | .opticalStart f v => Sys2Proof.Machine.execOpticalStart f v s
  | .rotationStart f => Sys2Proof.Machine.execRotationStart f s
  | .slotWindowOpen f => Sys2Proof.Machine.execSlotWindowOpen f s
  | .slotWindowClose f => Sys2Proof.Machine.execSlotWindowClose f s
  | .opticalFlitReceive f x crcOk => Sys2Proof.Machine.execOpticalFlitReceive f x crcOk s
  | .opticalAck f dest vc seq code => Sys2Proof.Machine.execOpticalAck f dest vc seq code s
  | .fibreLoss f fibre => Sys2Proof.Machine.execFibreLoss f fibre s
  | .timeLockLoss => Sys2Proof.Machine.execTimeLockLoss s
  | .timeLockRegain offset => Sys2Proof.Machine.execTimeLockRegain offset s
  | .launchRecordRead f q => Sys2Proof.Machine.execLaunchRecordRead f q s
  | .groupPlace f q => Sys2Proof.Machine.execGroupPlace f q s
  | .gangStart f gid => Sys2Proof.Machine.execGangStart f gid s
  | .starveTimeout f q => Sys2Proof.Machine.execStarveTimeout f q s
  | .preemptRequest f q => Sys2Proof.Machine.execPreemptRequest f q s
  | .spanReport f => Sys2Proof.Machine.execSpanReport f s
  | .launchComplete f lid => Sys2Proof.Machine.execLaunchComplete f lid s
  | .graphNodeEnd f lid node => Sys2Proof.Machine.execGraphNodeEnd f lid node s
  | .contextSelect c => Sys2Proof.Machine.execContextSelect c s
  | .messageArrive f id => Sys2Proof.Machine.execMessageArrive f id s
  | .messageReturn f id => Sys2Proof.Machine.execMessageReturn f id s
  | .cfreeRetry k => Sys2Proof.Machine.execCfreeRetry k s
  | .refusalRetryTimer f id => Sys2Proof.Machine.execRefusalRetryTimer f id s
  | .saddlebagWake k => Sys2Proof.Machine.execSaddlebagWake k s
  | .reinEvaluate f rule => Sys2Proof.Machine.execReinEvaluate f rule s
  | .panelSnapshot f => Sys2Proof.Machine.execPanelSnapshot f s
  | .panelMove f id => Sys2Proof.Machine.execPanelMove f id s
  | .barrierArrival f id => Sys2Proof.Machine.execBarrierArrival f id s
  | .barrierRelease f id => Sys2Proof.Machine.execBarrierRelease f id s
  | .energyWindow part => Sys2Proof.Machine.execEnergyWindow part s
  | .energyCount part uj => Sys2Proof.Machine.execEnergyCount part uj s
  | .lateFaultTake c => Sys2Proof.Machine.execLateFaultTake c s
  | .forcedSave c => Sys2Proof.Machine.execForcedSave c s
  | .contextRestore k entry x => Sys2Proof.Machine.execContextRestore k entry x s
  | .coreFailure k => Sys2Proof.Machine.execCoreFailure k s
  | .orphanFlit k item => Sys2Proof.Machine.execOrphanFlit k item s
  | .killComplete f id => Sys2Proof.Machine.execKillComplete f id s
  | .revokeComplete part id => Sys2Proof.Machine.execRevokeComplete part id s
  | .modSet via num gm => Sys2Proof.Machine.execModSet via num gm s
  | .partCreate via fx0 fx1 fy0 fy1 mask passed => Sys2Proof.Machine.execPartCreate via fx0 fx1 fy0 fy1 mask passed s
  | .partDissolve via part => Sys2Proof.Machine.execPartDissolve via part s
  | .keyLoad via part key data tweak tag => Sys2Proof.Machine.execKeyLoad via part key data tweak tag s
  | .keyRevoke via part key => Sys2Proof.Machine.execKeyRevoke via part key s
  | .energySet via part mj => Sys2Proof.Machine.execEnergySet via part mj s
  | .fnEnable via f => Sys2Proof.Machine.execFnEnable via f s
  | .remargin via fields passed lives => Sys2Proof.Machine.execRemargin via fields passed lives s
  | .retire via cl => Sys2Proof.Machine.execRetire via cl s
  | .logRead via part => Sys2Proof.Machine.execLogRead via part s
  | .wearSample cl months => Sys2Proof.Machine.execWearSample cl months s
  | .thermalStep f celsius => Sys2Proof.Machine.execThermalStep f celsius s
  | .moduleReset passed kernelPc => Sys2Proof.Machine.execModuleReset passed kernelPc s
  | .readFillReply cl line => Sys2Proof.Machine.execReadFillReply cl line s
  | .cxlCacheResponse f id data => Sys2Proof.Machine.execCxlCacheResponse f id data s

end Sys2Proof.Machine
end

