-- ==== Sys2Proof/Machine/Step.lean ====
section
/-! DEFINITION. One step of the module: time passes; then the next event of the agenda, or the save of a context that
yields or whose deadline has passed, or the next instruction of the current context (R3, R175; DESIGN CHOICE: log entry 3). -/

namespace Sys2Proof.Machine

/-- What follows an instruction of context c: the events before the next one, and the context that issues it. -/
def andPlan (c : Nat) (o : Out) : Out :=
  match o with
  | .next s => .next (s.planNext c)
  | r => r

/-- An event does not choose the context that issues next. -/
def keepCur (c : Nat) (o : Out) : Out :=
  match o with
  | .next s => .next { s with cur := c }
  | r => r

/-- One step. DEDUCED: log entry 115. -/
def step (s : State) : Host.Outcome State Fault Refusal :=
  if numCtxs ≤ s.cur then .fault .noSuchContext
  else
    match s.agenda with
    | e :: rest => keepCur s.cur (exec e { s.tick with agenda := rest })
    | [] =>
      if s.me.saving.isSome then andPlan s.cur (runEvent (saveOn s.cur) s.tick)
      else if s.me.issues then
        match s.killDue s.cur with
        | some x => .next ((s.tick.beginKill x).planNext s.cur)
        | none =>
        if s.me.yieldDue then andPlan s.cur (s.tick.yieldNow s.cur)
        else if s.saveDue s.cur then andPlan s.cur (execForcedSave s.cur s.tick)
        else andPlan s.cur (runNext exec s.tick)
      else .next (s.tick.planNext s.cur)

/-- The state with an instruction of nbits bits placed where the next step fetches it. -/
def State.withFetchWord (s : State) (nbits w : Nat) : State := placeInstr s (w % 2 ^ nbits)

end Sys2Proof.Machine
end

