-- ==== Sys2Proof/Safety.lean ====
section
/-! DEFINITION. The terms in which claims are stated: the guard, the states in which instructions of each shape complete,
and the invariant of every step. -/

namespace Sys2Proof.Machine

/-- A step, or an instruction, goes on: neither a fault nor a refusal. -/
def Safe (o : Out) : Prop := ∃ t, o = .next t

/-- The guard of an instruction holds in the context that issues it (R170). -/
abbrev On (h : Hdr) (s : State) : Prop := Hdr.holds h s.me = true

/-- An instruction that changed only the registers of its context has completed: pc is that of the next instruction, and
then the :yld hint acts. -/
def regNext (h : Hdr) (s : State) (c : Ctx) : State := yldAfter h (s.setMe { c.advance with st := .ready })

/-- An instruction has completed in a state that its effect has left, with pc as it says. -/
def bodyNext (h : Hdr) (s : State) (f : Flow) : State := yldAfter h (s.setMe (f.pc { s.me with st := .ready, parts := [], vec := false }))

/-- The context that issues, with the entry of a vector instruction in its ring (R378). -/
def State.seq (s : State) (dst : RegRef) : Ctx := s.me.pushSeq .done (some dst)

/-- A matrix instruction has entered the core's command queue, with its operand words and the next number of the ring
(R229). -/
def Queued (s t : State) (i : Instr) (wa wb : Word) : Prop :=
  ∃ e : MqEnt, (t.core s.myCore).mq = (s.core s.myCore).mq ++ [e] ∧ e.ins = i ∧ e.cx = s.cur ∧ e.tid = s.me.task.tid ∧
    e.seq = s.me.nextSeq ∧ e.wa = wa ∧ e.wb = wb

/-- The context has one more item, whose status gd awaits (R292). -/
def NewItem (s t : State) (d : GReg) (sc : Scope) (kind : ItemKind) (status : Option Word) : Prop :=
  ∃ it : Item, (t.core s.myCore).items = (s.core s.myCore).items ++ [it] ∧ it.cx = s.cur ∧ it.tid = s.me.task.tid ∧
    it.gd = d.toNat ∧ it.sc = sc ∧ it.kind = kind ∧ it.status = status ∧ (d.toNat, it.id) ∈ t.me.pend

/-- The context that issues is one of the module's 81,920 (Table 01-1): the invariant of every step. -/
def State.Inv (s : State) : Prop := s.cur < numCtxs

/-- Every earlier write of the context that issues is visible at a scope, and every store of its core that it has seen:
nothing holds a release there back (R255 to R257). -/
def State.Settled (s : State) (sc : Scope) : Prop :=
  s.undone s.myCore s.me.task.tid = false ∧ s.seenOpen = false ∧
    (sc = .prt ∨ sc = .sys → s.peersOpen s.me.task.tid = false) ∧ (sc = .sys → s.hostOpen s.me.task.tid = false)

/-! ## What a frame leaves as it was -/

/-- Every memory, cache, queue and register outside the contexts is the same: those of cores, clusters and fields. -/
def SameMemory (s t : State) : Prop := t.cores = s.cores ∧ t.clusters = s.clusters ∧ t.fields = s.fields

/-- Every other context is the same. -/
def SameOthers (s t : State) : Prop := ∀ c, c ≠ s.cur → t.ctx c = s.ctx c

/-- The level, and every system and exception register of a context but FSTAT, are the same, and the matrix scales too. -/
def SameSystem (c d : Ctx) : Prop :=
  d.lvl = c.lvl ∧ d.preq = c.preq ∧ d.asidr = c.asidr ∧ d.ftvec = c.ftvec ∧ d.utvec = c.utvec ∧ d.tcause = c.tcause ∧
  d.tpc = c.tpc ∧ d.tval = c.tval ∧ d.tsave = c.tsave ∧ d.utcause = c.utcause ∧ d.utpc = c.utpc ∧ d.utval = c.utval ∧
  d.pdl = c.pdl ∧ d.sqDepth = c.sqDepth ∧ d.ppov = c.ppov ∧ d.mscl = c.mscl ∧ d.shadow0 = c.shadow0 ∧
  d.shadow1 = c.shadow1 ∧ d.task = c.task

/-- Registers of a context that a list does not name read as before; predicates too, but for one. -/
def SameRegs (ws : List RegRef) (pd : Option PReg) (c d : Ctx) : Prop :=
  (∀ r : GReg, RegRef.g r.toNat ∉ ws → d.rg r = c.rg r) ∧ (∀ r : VReg, RegRef.v r.toNat ∉ ws → d.rv r = c.rv r) ∧
  (∀ r : QReg, RegRef.q r.toNat ∉ ws → d.rq r = c.rq r) ∧ ∀ p : PReg, pd ≠ some p → d.rp p = c.rp p

/-- The scalar register forms: OPC 0x01, 0x02 and 0x03. -/
def Instr.scalar : Instr → Bool
  | .add .. | .sub .. | .mul .. | .mulh .. | .mulhu .. | .div .. | .divu .. | .rem .. | .remu .. | .and .. | .or ..
  | .xor .. | .andn .. | .orn .. | .shl .. | .shr .. | .sar .. | .rol .. | .ror .. | .min .. | .max .. | .minu ..
  | .maxu .. | .clz .. | .ctz .. | .popc .. | .brev .. | .bswap .. | .sext .. | .zext .. | .bfx .. | .bfi .. | .lea ..
  | .sel .. | .mov .. | .movi .. | .movhi .. | .cmp .. | .pand .. | .por .. | .pxor .. | .pnot .. | .pmov .. | .pget ..
  | .br .. | .brl .. | .jmp .. | .jmpl .. | .ret .. | .loop .. | .brt .. | .nop .. => true
  | _ => false

/-- The predicate that a form of OPC 0x02 writes. -/
def Instr.predDest : Instr → Option PReg
  | .cmp _ _ _ d _ _ | .pand _ d _ _ | .por _ d _ _ | .pxor _ d _ _ | .pnot _ d _ | .pmov _ d _ => some d
  | _ => none

/-- The vector register forms that set no flag: OPC 0x10, and the permutes, integer reductions and mask forms of OPC 0x12. -/
def Instr.vecInt : Instr → Bool
  | .vadd .. | .vsub .. | .vmul .. | .vmulh .. | .vmin .. | .vmax .. | .vminu .. | .vmaxu .. | .vand .. | .vor ..
  | .vxor .. | .vshl .. | .vshr .. | .vsar .. | .vabs .. | .vneg .. | .vcmp .. | .vsel .. | .vpopc .. | .vradd ..
  | .vrmin .. | .vrmax .. | .vperm .. | .vslide .. | .vbcast .. | .vext .. | .vins .. | .vcmpr .. | .vexpd .. | .vzip ..
  | .vunzip .. | .viota .. | .qand .. | .qor .. | .qxor .. | .qnot .. | .qcnt .. => true
  | _ => false

/-- The vector register forms that may set flags: OPC 0x11 and the floating-point reductions. -/
def Instr.vecFp : Instr → Bool
  | .vfadd .. | .vfsub .. | .vfmul .. | .vfma .. | .vfms .. | .vfnma .. | .vfdiv .. | .vfsqrt .. | .vfrcp .. | .vfrsq ..
  | .vfexp2 .. | .vflog2 .. | .vfmin .. | .vfmax .. | .vfcmp .. | .vfclass .. | .vfcvt .. | .vfscl .. | .vfradd ..
  | .vfrmax .. => true
  | _ => false

end Sys2Proof.Machine
end

