-- ==== Sys2Proof/Certificates/Slice0/Obligations.lean ====
section
/-! DEFINITION. The statements for the provers: what each instruction form and each step of another agent does where it
completes, what it leaves unchanged, the encodings, and what every step keeps. -/

open Sys2Proof Sys2Proof.Machine

/-- R188, R191 to R194, Table 09-1: D of every two-operand integer form, at 64 bits and at 32 bits, with every
operand form; the context is otherwise as before, and pc advances. R194: quotient and remainder, by 0 and of the
most negative number by −1 too. -/
def Obligations.IntegerResults : Prop :=
  (∀ (h : Hdr) (w32 : Bool) (d a : GReg) (b : GI) (s : State), On h s →
     let w := if w32 then 32 else 64
     let x := (s.me.rg a).toNat % 2 ^ w
     let y := (GI.sval b s.me).toNat % 2 ^ w
     let sx := signed w x
     let sy := signed w y
     let is (o : Out) (r : Int) : Prop := o = .next (regNext h s (s.me.wg d (BitVec.ofInt 64 (signed w (truncTo w r)))))
     is (exec (.add h w32 d a b) s) (x + y) ∧
     is (exec (.sub h w32 d a b) s) (x - y) ∧
     is (exec (.mul h w32 d a b) s) (x * y) ∧
     is (exec (.mulh h w32 d a b) s) (sx * sy / 2 ^ w) ∧
     is (exec (.mulhu h w32 d a b) s) (x * y / 2 ^ w) ∧
     is (exec (.and h w32 d a b) s) (x &&& y : Nat) ∧
     is (exec (.or h w32 d a b) s) (x ||| y : Nat) ∧
     is (exec (.xor h w32 d a b) s) (x ^^^ y : Nat) ∧
     is (exec (.andn h w32 d a b) s) (x &&& (2 ^ w - 1 - y) : Nat) ∧
     is (exec (.orn h w32 d a b) s) (x ||| (2 ^ w - 1 - y) : Nat) ∧
     is (exec (.min h w32 d a b) s) (min sx sy) ∧
     is (exec (.max h w32 d a b) s) (max sx sy) ∧
     is (exec (.minu h w32 d a b) s) (min x y) ∧
     is (exec (.maxu h w32 d a b) s) (max x y)) ∧
  (∀ (h : Hdr) (w32 : Bool) (d a : GReg) (b : GI) (s : State), On h s →
     let w := if w32 then 32 else 64
     let x := (s.me.rg a).toNat % 2 ^ w
     let y := (GI.sval b s.me).toNat % 2 ^ w
     let sx := signed w x
     let sy := signed w y
     let is (o : Out) (r : Int) : Prop := o = .next (regNext h s (s.me.wg d (BitVec.ofInt 64 (signed w (truncTo w r)))))
     is (exec (.div h w32 d a b) s) (if y = 0 then -1 else sx.tdiv sy) ∧
     is (exec (.divu h w32 d a b) s) (if y = 0 then -1 else x / y) ∧
     is (exec (.rem h w32 d a b) s) (if y = 0 then x else sx.tmod sy) ∧
     is (exec (.remu h w32 d a b) s) (if y = 0 then x else x % y))

/-- R192, R193: shifts and rotates by an amount modulo the width, bit counts and reversals. -/
def Obligations.ShiftAndCountResults : Prop :=
  ∀ (h : Hdr) (w32 : Bool) (d a : GReg) (b : GI) (s : State), On h s →
    let w := if w32 then 32 else 64
    let x := (s.me.rg a).toNat % 2 ^ w
    let n := (GI.sval b s.me).toNat % w
    let is (o : Out) (r : Int) : Prop := o = .next (regNext h s (s.me.wg d (BitVec.ofInt 64 (signed w (truncTo w r)))))
    is (exec (.shl h w32 d a b) s) (x * 2 ^ n) ∧
    is (exec (.shr h w32 d a b) s) (x / 2 ^ n) ∧
    is (exec (.sar h w32 d a b) s) (signed w x / 2 ^ n) ∧
    is (exec (.rol h w32 d a b) s) (x * 2 ^ n + x * 2 ^ n / 2 ^ w) ∧
    is (exec (.ror h w32 d a b) s) (x / 2 ^ n + x * 2 ^ (w - n)) ∧
    is (exec (.clz h w32 d a) s) (if x = 0 then w else w - 1 - Nat.log2 x : Nat) ∧
    (∃ z, is (exec (.ctz h w32 d a) s) (z : Nat) ∧ z ≤ w ∧ (∀ i, i < z → x.testBit i = false) ∧ (z < w → x.testBit z)) ∧
    is (exec (.popc h w32 d a) s) ((List.range w).countP fun i => x.testBit i) ∧
    (∃ z, is (exec (.brev h w32 d a) s) (z : Nat) ∧ z < 2 ^ w ∧ ∀ i, i < w → z.testBit i = x.testBit (w - 1 - i)) ∧
    (∃ z, is (exec (.bswap h w32 d a) s) (z : Nat) ∧ z < 2 ^ w ∧
      ∀ i, i < w → z.testBit i = x.testBit (8 * (w / 8 - 1 - i / 8) + i % 8))

/-- R195: SEXT and ZEXT by a register width, and by an immediate width in [1, 64]; any other immediate width raises
ILLOP at issue, with the instruction's bits in TVAL. -/
def Obligations.ExtensionResults : Prop :=
  ∀ (h : Hdr) (d a : GReg) (s : State), On h s →
    (∀ (b : GI) (n : Nat),
      (match b with
        | .reg r => n = (if 1 ≤ (s.me.rg r).toNat ∧ (s.me.rg r).toNat ≤ 64 then (s.me.rg r).toNat else 64)
        | .imm v => n = v.toNat ∧ 1 ≤ n ∧ n ≤ 64) →
      exec (.sext h d a b) s =
        .next (bodyNext h (s.setMe (s.me.wg d (BitVec.ofInt 64 (signed n (s.me.rg a).toNat)))) .next) ∧
      exec (.zext h d a b) s =
        .next (bodyNext h (s.setMe (s.me.wg d (BitVec.ofNat 64 ((s.me.rg a).toNat % 2 ^ n)))) .next)) ∧
    ∀ v : BitVec 32, v.toNat = 0 ∨ 64 < v.toNat →
      exec (.sext h d a (.imm v)) s =
        .next (s.takeTrap s.cur { cause := .illop, tval := (Instr.sext h d a (.imm v)).tvalBits }) ∧
      exec (.zext h d a (.imm v)) s =
        .next (s.takeTrap s.cur { cause := .illop, tval := (Instr.zext h d a (.imm v)).tvalBits })

/-- R196: BFX and BFI take position [5:0] and length [14:8] of their control; a length above 64 acts as 64 in a
register, and raises ILLOP in an immediate. BFI reads gd before it writes it. R197, R199: LEA, MOV, MOVI and MOVHI.
-/
def Obligations.BitFieldAndMoveResults : Prop :=
  (∀ (h : Hdr) (d a : GReg) (s : State), On h s →
     (∀ (b : GI), (match b with
         | .reg _ => True
         | .imm v => (v.extractLsb' 8 7).toNat ≤ 64) →
       let c := (GI.sval b s.me).toNat
       let pos := c % 64
       let len := min (c / 256 % 128) 64
       let mask : Word := BitVec.ofNat 64 ((2 ^ len - 1) * 2 ^ pos)
       exec (.bfx h d a b) s =
         .next (bodyNext h (s.setMe (s.me.wg d (BitVec.ofNat 64 ((s.me.rg a).toNat / 2 ^ pos % 2 ^ len)))) .next) ∧
       exec (.bfi h d a b) s =
         .next (bodyNext h (s.setMe (s.me.wg d ((s.me.rg d &&& ~~~mask) ||| (s.me.rg a <<< pos &&& mask)))) .next)) ∧
     ∀ v : BitVec 32, 64 < (v.extractLsb' 8 7).toNat →
       exec (.bfx h d a (.imm v)) s =
         .next (s.takeTrap s.cur { cause := .illop, tval := (Instr.bfx h d a (.imm v)).tvalBits }) ∧
       exec (.bfi h d a (.imm v)) s =
         .next (s.takeTrap s.cur { cause := .illop, tval := (Instr.bfi h d a (.imm v)).tvalBits })) ∧
  (∀ (h : Hdr) (d a : GReg) (b : GI) (k : BitVec 2) (imm : BitVec 32) (s : State), On h s →
     exec (.lea h d a b k) s = .next (regNext h s (s.me.wg d (s.me.rg a + GI.sval b s.me * 2 ^ k.toNat))) ∧
     exec (.mov h d a) s = .next (regNext h s (s.me.wg d (s.me.rg a))) ∧
     exec (.movi h d imm) s = .next (regNext h s (s.me.wg d (BitVec.ofInt 64 imm.toInt))) ∧
     exec (.movhi h d imm) s = .next (regNext h s (s.me.wg d (imm ++ (s.me.rg d).setWidth 32))))

/-- R198: SEL chooses by a predicate of its own, apart from the guard; with the guard false, nothing but pc changes.
A word of SEL whose OPB is no g register, or that sets a bit of IMM[31:4], is no instruction, and a step that
fetches it raises ILLOP.
Where the specification leaves a point open, the model's choices are in log entry 43. -/
def Obligations.SelectResult : Prop :=
  (∀ w : InstrWord, w.extractLsb' 80 16 = 0x0121 → (w.extractLsb' 42 2 ≠ 0 ∨ w.extractLsb' 4 28 ≠ 0) → decode w = none ∧
    ∀ s s' : State, s.cur < numCtxs → s.agenda = [] → s.me.issues = true → s.killDue s.cur = none →
      s.me.yieldDue = false → s.saveDue s.cur = false → fetch s.tick = .ok w s' → s'.unresolved s'.cur = false →
      step s = .next ((s'.takeTrap s'.cur { cause := .illop, tval := w.extractLsb' 32 64 }).planNext s.cur)) ∧
  ∀ (h : Hdr) (d a b : GReg) (p : PSrc) (s : State),
    (On h s → exec (.sel h d a b p) s =
      .next (regNext h s (s.me.wg d (if (s.me.rp p.p ^^ p.neg) = true then s.me.rg a else s.me.rg b)))) ∧
    (¬ On h s → exec (.sel h d a b p) s = .next (yldAfter h (s.setMe { s.me with pc := s.me.pc + 12, st := .ready })))

/-- R200, R201: CMP by each of its eight conditions at 64 and 32 bits, and the predicate forms; p0 reads 1 and
discards writes. -/
def Obligations.PredicateResults : Prop :=
  ∀ (h : Hdr) (s : State), On h s →
    let is (o : Out) (d : PReg) (v : Bool) : Prop := o = .next (regNext h s (if d = 0 then s.me else { s.me with p := s.me.p.set d.toNat v }))
    (∀ (w32 : Bool) (d : PReg) (a : GReg) (b : GI),
      let w := if w32 then 32 else 64
      let x := (s.me.rg a).toNat % 2 ^ w
      let y := (GI.sval b s.me).toNat % 2 ^ w
      is (exec (.cmp h .eq w32 d a b) s) d (decide (x = y)) ∧
      is (exec (.cmp h .ne w32 d a b) s) d (decide (x ≠ y)) ∧
      is (exec (.cmp h .lt w32 d a b) s) d (decide (signed w x < signed w y)) ∧
      is (exec (.cmp h .ge w32 d a b) s) d (decide (signed w y ≤ signed w x)) ∧
      is (exec (.cmp h .ltu w32 d a b) s) d (decide (x < y)) ∧
      is (exec (.cmp h .geu w32 d a b) s) d (decide (y ≤ x)) ∧
      is (exec (.cmp h .bits w32 d a b) s) d (decide (x &&& y ≠ 0)) ∧
      is (exec (.cmp h .nbits w32 d a b) s) d (decide (x &&& y = 0))) ∧
    (∀ (d : PReg) (a : PSrc) (b : PB),
      let x := s.me.rp a.p ^^ a.neg
      is (exec (.pand h d a b) s) d (x && PB.val b s.me) ∧
      is (exec (.por h d a b) s) d (x || PB.val b s.me) ∧
      is (exec (.pxor h d a b) s) d (x ^^ PB.val b s.me) ∧
      is (exec (.pnot h d a) s) d (!x) ∧
      is (exec (.pmov h d (.pred a)) s) d x) ∧
    (∀ (d : PReg) (r : GReg) (neg : Bool), is (exec (.pmov h d (.g r neg)) s) d (decide (s.me.rg r ≠ 0) ^^ neg)) ∧
    ∀ d : GReg, ∃ x : Word, exec (.pget h d) s = .next (regNext h s (s.me.wg d x)) ∧
      ∀ i, x.getLsbD i = (decide (i < 8) && s.me.rp (BitVec.ofNat 3 i))

/-- R202 to R204: where each control form leaves pc, and the link it writes; JMP, JMPL and RET to a target that is
not a multiple of 4 raise ALIGN with the target in TVAL, and LOOP of g0 raises ILLOP. LOOP has no guard. -/
def Obligations.ControlTransferResults : Prop :=
  ∀ (h : Hdr) (s : State),
    let c := s.me
    let rel (off : BitVec 32) : Word := c.pc + BitVec.ofInt 64 (4 * off.toInt)
    (On h s → ∀ (d a b : GReg) (off e : BitVec 32),
      let t := c.rg a + BitVec.ofInt 64 e.toInt
      exec (.br h off) s = .next (bodyNext h s (.goto (rel off))) ∧
      exec (.brl h d off) s = .next (bodyNext h (s.setMe (c.wg d (c.pc + 12))) (.goto (rel off))) ∧
      exec (.brt h a b off) s = .next (bodyNext h s
        (if (c.rg a).toNat < (c.rg b).toNat then .goto (rel off + 12 * c.rg a) else .next)) ∧
      (t.toNat % 4 = 0 →
        exec (.jmp h a e) s = .next (bodyNext h s (.goto t)) ∧
        exec (.jmpl h d a e) s = .next (bodyNext h (s.setMe (c.wg d (c.pc + 12))) (.goto t))) ∧
      (t.toNat % 4 ≠ 0 →
        exec (.jmp h a e) s = .next (s.takeTrap s.cur { cause := .align, tval := t }) ∧
        exec (.jmpl h d a e) s = .next (s.takeTrap s.cur { cause := .align, tval := t }))) ∧
    (∀ (d : GReg) (off : BitVec 32), d ≠ 0 →
      exec (.loop h d off) s = .next (bodyNext h (s.setMe (c.wg d (c.rg d - 1)))
        (if c.rg d - 1 = 0 then .next else .goto (rel off)))) ∧
    ∀ off : BitVec 32,
      exec (.loop h 0 off) s = .next (s.takeTrap s.cur { cause := .illop, tval := (Instr.loop h 0 off).tvalBits })

/-- R205: RET has the effect of JMP with e = 0, and NOP changes no register, predicate, flag or memory byte.
Where the specification leaves a point open, the model's choices are in log entry 43. -/
def Obligations.ReturnAndNop : Prop :=
  ∀ (h : Hdr) (a : GReg) (s : State),
    exec (.ret h a) s = exec (.jmp h a 0) s ∧
    (On h s → (s.me.rg a).toNat % 4 = 0 → exec (.ret h a) s = .next (bodyNext h s (.goto (s.me.rg a)))) ∧
    (On h s → exec (.nop h) s = .next (yldAfter h (s.setMe { s.me with pc := s.me.pc + 12, st := .ready }))) ∧
    (¬ On h s → exec (.nop h) s = .next (yldAfter h (s.setMe { s.me with pc := s.me.pc + 12, st := .ready })))

/-- R267, R270: a load whose operand can be read writes gd, sign- or zero-extended, or the pair of LDP; a store
whose operand can be written has the effect of that write; no register but the destination changes.
Where the specification leaves a point open, the model's choices are in log entry 26. -/
def Obligations.LoadStoreResults : Prop :=
  ∀ (h : Hdr) (s t : State), On h s → ∀ (a d : GReg) (e : BitVec 32) (o : Option Scope),
    let va := effAddr s.me a e
    (∀ (sz : Sz) (sx : Bool) (v : Nat), memRd va (Sz.bytes sz) o s = .ok v t →
      exec (.ld h sz sx o d a e) s = .next (bodyNext h
        (t.setMe (t.me.wg d (if sx then BitVec.ofInt 64 (signed (8 * Sz.bytes sz) v) else BitVec.ofNat 64 v))) .next)) ∧
    (∀ (sp : Space) (asid : BitVec 16) (u : State) (v : Nat), access va 16 16 .load s = .ok (sp, asid) u →
      readPair sp asid va o u = .ok v t →
      exec (.ldp h o d a e) s = .next (bodyNext h
        (t.setMe ((t.me.wg d (BitVec.ofNat 64 v)).wg (d + 1) (BitVec.ofNat 64 (v / 2 ^ 64)))) .next)) ∧
    (∀ (sz : Sz), memWr va (Sz.bytes sz) (s.me.rg d).toNat o s = .ok () t →
      exec (.st h sz o d a e) s = .next (bodyNext h t .next)) ∧
    (memWr va 16 ((s.me.rg d).toNat + 2 ^ 64 * (s.me.rg (d + 1)).toNat) o s = .ok () t →
      exec (.stp h o d a e) s = .next (bodyNext h t .next))

/-- R6, R134, R267, R270: a plain load of core memory, or of field shared memory, is the little-endian value of its
bytes and changes nothing; so is the second word of a pair, with the first word that has been read, and where none has
been read the pair is either read whole or its first word is kept while others access the memory (R254); a plain store there writes its bytes little-endian, the lowest first, and every other
byte of that memory reads as before. R120, R270: a plain store to paged memory stands at the end of the core's store
queue, with its bytes and its byte enables, a pair as two words in either order (R254); no byte of any memory changes by it.
Where the specification leaves a point open, the model's choices are in log entry 26. -/
def Obligations.PlainLoadsAndStores : Prop :=
  (∀ (s : State) (va n x : Nat) (asid : BitVec 16) (k off : Nat), s.me.rim = [] →
     (s.check s.acc va n n .load = .ok (.core k off) asid → (s.core k).poison = [] → (s.core k).fe = [] →
       s.me.task.slots = [] →
       memRd va n none s = .ok (bytesNat (Mem.readBytes (s.core k).cmem off n)) s) ∧
     (let lo := bytesNat (Mem.readBytes (s.core k).cmem off 8)
      let hi := bytesNat (Mem.readBytes (s.core k).cmem (off + 8) 8)
      (s.core k).poison = [] → (s.core k).fe = [] → s.me.task.slots = [] →
       (s.me.parts = [] →
         readPair (.core k off) asid va none s = .ok (lo + 2 ^ 64 * hi) s ∨
         readPair (.core k off) asid va none s = .error (.wait .memory) (s.setMe { s.me with parts := [(0, BitVec.ofNat 128 lo, 0)] })) ∧
       ∀ (x : BitVec 128) (fl : BitVec 5), s.me.parts = [(0, x, fl)] →
         readPair (.core k off) asid va none s = .ok (x.toNat + 2 ^ 64 * hi) s) ∧
     (s.check s.acc va n n .load = .ok (.shared off) asid →
       memRd va n none s = .ok (bytesNat (Mem.readBytes (s.field s.myField).shm off n)) s) ∧
     (s.check s.acc va n n .store = .ok (.core k off) asid → (s.core k).fe = [] →
       ∃ t, memWr va n x none s = .ok () t ∧
         (∀ i, i < n → Mem.read (t.core k).cmem (off + i) = BitVec.ofNat 8 (x / 256 ^ i)) ∧
         ∀ b, b < off ∨ off + n ≤ b → Mem.read (t.core k).cmem b = Mem.read (s.core k).cmem b) ∧
     (s.check s.acc va n n .store = .ok (.shared off) asid →
       ∃ t, memWr va n x none s = .ok () t ∧
         (∀ i, i < n → Mem.read (t.field s.myField).shm (off + i) = BitVec.ofNat 8 (x / 256 ^ i)) ∧
         ∀ b, b < off ∨ off + n ≤ b → Mem.read (t.field s.myField).shm b = Mem.read (s.field s.myField).shm b)) ∧
  (∀ (s : State) (va n x : Nat) (asid : BitVec 16), s.me.rim = [] → s.check s.acc va n n .store = .ok .paged asid →
     let queued (e : SqEnt) (a : Nat) (bs : List Byte) : Prop := e.cx = s.cur ∧ e.tid = s.me.task.tid ∧ e.va = a ∧
       e.asid = asid ∧ e.rel = none ∧ e.data = placeBytes bs (a % 64) ∧ e.be = beOf (a % 64) bs.length
     let kept (t : State) : Prop := t.fields = s.fields ∧ t.clusters = s.clusters ∧ ∀ j, (t.core j).cmem = (s.core j).cmem
     (n ≤ 8 → ∃ t e, memWr va n x none s = .ok () t ∧ kept t ∧
       (t.core s.myCore).sq = (s.core s.myCore).sq ++ [e] ∧ queued e va (natBytes x n)) ∧
     (n = 16 → ∃ t e1 e2, memWr va n x none s = .ok () t ∧ kept t ∧
       ((t.core s.myCore).sq = (s.core s.myCore).sq ++ [e1, e2] ∨ (t.core s.myCore).sq = (s.core s.myCore).sq ++ [e2, e1]) ∧
       queued e1 va (natBytes x 8) ∧ queued e2 (va + 8) (natBytes (x / 2 ^ 64) 8)))

/-- R76, R267: the order of the checks of an access: canonical form, then alignment, then the place. -/
def Obligations.AccessChecks : Prop :=
  ∀ (s : State) (va n : Nat) (x : Nat) (o : Option Scope), s.me.rim = [] →
    (2 ^ 57 ≤ va →
      memRd va n o s = .error (.trap { cause := .bounds, tval := BitVec.ofNat 64 va }) s ∧
      memWr va n x o s = .error (.trap { cause := .bounds, tval := BitVec.ofNat 64 va }) s) ∧
    (va < 2 ^ 57 → va % n ≠ 0 →
      memRd va n o s = .error (.trap { cause := .align, tval := BitVec.ofNat 64 va }) s ∧
      memWr va n x o s = .error (.trap { cause := .align, tval := BitVec.ofNat 64 va }) s)

/-- R139, R140, R271: LDF and LDE of full words of core memory give the value, and LDE leaves the words empty; STF
writes the bytes and sets the words full; SETE sets them empty. -/
def Obligations.FullEmptyResults : Prop :=
  ∀ (h : Hdr) (dw : Bool) (d a : GReg) (e : BitVec 32) (s : State) (k off : Nat), On h s →
    let va := effAddr s.me a e
    let n := if dw then 8 else 4
    s.me.sent = none → s.me.parts = [] → s.me.task.slots = [] → (s.core k).fe = [] →
    (feAccess va n .load .perm s = .ok (k, off) s → (s.core k).poison = [] → (s.core k).allFull off n = true →
      (∃ t, exec (.ldf h dw d a e) s = .next (bodyNext h t .next) ∧
        t.me = s.me.wg d (BitVec.ofNat 64 (bytesNat (Mem.readBytes (s.core k).cmem off n) % 2 ^ (8 * n))) ∧
        (t.core k).cmem = (s.core k).cmem ∧ (t.core k).empties = (s.core k).empties) ∧
      (∃ t, exec (.lde h dw d a e) s = .next (bodyNext h t .next) ∧
        t.me = s.me.wg d (BitVec.ofNat 64 (bytesNat (Mem.readBytes (s.core k).cmem off n) % 2 ^ (8 * n))) ∧
        (t.core k).cmem = (s.core k).cmem ∧ ∀ w, w ∈ words4 off n → w ∈ (t.core k).empties)) ∧
    (feAccess va n .store .perm s = .ok (k, off) s → s.Settled .clu →
      ((s.core k).cmarks = [] → ∃ t, exec (.stf h dw d a e) s = .next (bodyNext h t .next) ∧
        (t.core k).cmem = Mem.writeBytes (s.core k).cmem off (natBytes (s.me.rg d).toNat n) ∧
        ∀ w, w ∈ words4 off n → w ∉ (t.core k).empties) ∧
      (∃ t, exec (.sete h dw a e) s = .next (bodyNext h t .next) ∧
        (t.core k).cmem = (s.core k).cmem ∧ ∀ w, w ∈ words4 off n → w ∈ (t.core k).empties))

/-- R272, R273: the maintenance forms complete: PREF at once; CINV drops the core's copy of a line; CFLUSH gives a
line that no store of the context and no mark holds back to its home; CZERO has the effect of a store of 64 zero
bytes; off paged memory, CFLUSH and CINV have no effect.
Where the specification leaves a point open, the model's choices are in log entries 16, 21, 56. -/
def Obligations.MaintenanceResults : Prop :=
  ∀ (h : Hdr) (a : GReg) (e : BitVec 32) (s : State), On h s →
    let va := effAddr s.me a e
    exec (.pref h a e) s = .next (bodyNext h (s.prefetch { s.acc with cx := none } va h.str) .next) ∧
    (∀ l, maintLine va s = .ok (some l) s →
      (∀ ic, exec (.cinv h ic a e) s = .next (bodyNext h (s.modCore s.myCore fun c =>
        if ic then { c with l1i := SMap.del c.l1i l } else { c with l1d := SMap.del c.l1d l }) .next)) ∧
      (((s.core s.myCore).sq.all fun x => x.tid != s.me.task.tid || lineKey x.asid x.va != l) = true →
        s.recallable s.myCl l = true →
        exec (.cflush h a e) s = .next (bodyNext h ((s.breakLeases s.myCl l).giveBack s.myField s.myCl l) .next))) ∧
    (localBase ≤ va → va < 2 ^ 57 →
      exec (.cflush h a e) s = .next (bodyNext h s .next) ∧ ∀ ic, exec (.cinv h ic a e) s = .next (bodyNext h s .next)) ∧
    ∀ sp asid, access va 64 64 .store s = .ok (sp, asid) s →
      (sp ≠ .paged → ∀ t, writeAt sp asid va (List.replicate 64 0) none s = .ok () t →
        exec (.czero h a e) s = .next (bodyNext h t .next)) ∧
      (sp = .paged → ∃ t x, exec (.czero h a e) s = .next (bodyNext h t .next) ∧ t.me = s.me ∧
        (t.core s.myCore).sq = (s.core s.myCore).sq ++ [x] ∧ x.cx = s.cur ∧ x.va = va ∧ x.asid = asid ∧ x.rel = none ∧
        x.data = 0 ∧ x.be = BitVec.allOnes 64)

/-- Table 13-4, R275: what each atomic operation writes, on words of n bytes, from the old value, the value b and
the comparand c; CAS writes only where the old value is the comparand. R274, R275: every atomic whose operand can be
accessed, and whose indivisible step is performed, writes the old value to gd, or to the pair of ACAS2, and sets the
flags of that step; nothing else of its context changes by it. R57, R58: AFADD writes the sum in F32 or F64, rounded to
nearest even, with the flags of that addition. -/
def Obligations.AtomicResults : Prop :=
  (∀ (n old b c : Nat), (n = 4 ∨ n = 8) → old < 2 ^ (8 * n) → b < 2 ^ (8 * n) →
     let w := 8 * n
     let gives (op : AtOp) (r : Int) : Prop := AtOp.apply op n old b c = (truncTo w r, true, 0)
     gives .add (old + b) ∧ gives .min (min (signed w old) (signed w b)) ∧ gives .max (max (signed w old) (signed w b)) ∧
     gives .minu (min old b) ∧ gives .maxu (max old b) ∧
     gives .and (old &&& b : Nat) ∧ gives .or (old ||| b : Nat) ∧ gives .xor (old ^^^ b : Nat) ∧ gives .swp b ∧
     gives .inc (if b ≤ old then 0 else old + 1) ∧
     AtOp.apply .cas n old b c = (b, old == c, 0) ∧
     (let f : Fmt := if n = 4 then .f32 else .f64;
      AtOp.apply .fadd n old b c = ((f.add .rne (f.val old) (f.val b)).1, true, (f.add .rne (f.val old) (f.val b)).2)) ∧
     ∀ o v k : Nat, AtOp.apply .cas2 16 o v k = (v, o == k, 0)) ∧
  (∀ (h : Hdr) (m : AtMode) (d a b : GReg) (e : BitVec 32) (s : State), On h s →
     let does (op : AtOp) (i : Instr) : Prop :=
       ∀ (n va : Nat) (sp : Space) (asid : BitVec 16) (s1 s2 : State) (old : BitVec 128) (fl : BitVec 5),
         n = AtOp.bytes op m.dw → va = effAddr s.me a e → access va n n .atomic s = .ok (sp, asid) s1 →
         atomicAt sp asid va op m.dw (atomicArgs op n s.me d b).1 (atomicArgs op n s.me d b).2 m.pl m.ord m.sc 0 s1 =
           .ok (old, fl) s2 →
         exec i s = .next (bodyNext h (s2.setMe ((s2.me.putOld op n d old).orFlags fl)) .next)
     does .add (.aadd h m d a b e) ∧ does .min (.amin h m d a b e) ∧ does .max (.amax h m d a b e) ∧
     does .minu (.aminu h m d a b e) ∧ does .maxu (.amaxu h m d a b e) ∧ does .and (.aand h m d a b e) ∧
     does .or (.aor h m d a b e) ∧ does .xor (.axor h m d a b e) ∧ does .swp (.aswp h m d a b e) ∧
     does .cas (.acas h m d a b e) ∧ does .cas2 (.acas2 h m d a b e) ∧ does .fadd (.afadd h m d a b e) ∧
     does .inc (.ainc h m d a b e))

/-- R122, R275: a relaxed atomic on a word of core memory returns the old value, writes the operation's result over
exactly its bytes, and leaves the full/empty bits as they are; so, but for those bits, on field shared memory. -/
def Obligations.AtomicOnBanks : Prop :=
  ∀ (s : State) (asid : BitVec 16) (k off va : Nat) (op : AtOp) (dw : Bool) (b c : Nat) (pl : Place) (sc : Scope),
    let n := AtOp.bytes op dw
    ((s.core k).fe = [] → (s.core k).poison = [] →
      let old := bytesNat (Mem.readBytes (s.core k).cmem off n)
      let r := AtOp.apply op n old b c
      ∃ t, atomicAt (.core k off) asid va op dw b c pl .rlx sc 0 s = .ok (BitVec.ofNat 128 old, r.2.2) t ∧
        t.ctxs = s.ctxs ∧ (t.core k).empties = (s.core k).empties ∧
        (t.core k).cmem = if r.2.1 then Mem.writeBytes (s.core k).cmem off (natBytes r.1 n) else (s.core k).cmem) ∧
    (let old := bytesNat (Mem.readBytes (s.field s.myField).shm off n)
      let r := AtOp.apply op n old b c
      ∃ t, atomicAt (.shared off) asid va op dw b c pl .rlx sc 0 s = .ok (BitVec.ofNat 128 old, r.2.2) t ∧
        t.ctxs = s.ctxs ∧
        (t.field s.myField).shm =
          if r.2.1 then Mem.writeBytes (s.field s.myField).shm off (natBytes r.1 n) else (s.field s.myField).shm)

/-- R262, R279, R280, R285: FENCE and WAITN complete once what they wait for has ended; WAITA writes the word that
meets its condition, and otherwise waits; CHK and YIELD complete, and where a save can begin it begins. R282, R283:
BARSET writes its slot and answers 0, 4 or 5, and raises ILLOP on a bad descriptor; BARARR arrives and answers the
episode; BARWAIT answers by the distance of its episode from the slot's, and waits for the current episode of a slot
that has arrived.
Where the specification leaves a point open, the model's choices are in log entries 18, 43, 51, 52, 53. -/
def Obligations.SynchronisationResults : Prop :=
  (∀ (h : Hdr) (s : State), On h s → s.me.lates = [] →
     let t := s.me.task.tid
     let core := s.core s.myCore
     (∀ (sc : Scope) (kst keng klnk : Bool), (kst = true → s.Settled sc) →
       (core.items.all fun i => !i.openOf t) = true → s.recsOpen s.myCl t = false →
       exec (.fence h sc false kst keng klnk) s = .next (bodyNext h s .next) ∧
       ∀ u, fenceLoads s = .ok () u → exec (.fence h sc true kst keng klnk) s = .next (bodyNext h u .next)) ∧
     (∀ b : GI, (core.items.filter fun i => i.openOf t).length ≤ (GI.uval b s.me).toNat →
       exec (.waitn h b) s = .next (bodyNext h (s.acquireAll s.myCore) .next)) ∧
     (∀ d : GReg,
       exec (.chk h d) s = .next (bodyNext h
         (if s.me.preq ∧ s.canSave s.cur then (s.setMe (s.me.wg d 1)).beginSave s.cur 0 [] else s.setMe (s.me.wg d 0)) .next)) ∧
     exec (.yield h) s = .next (bodyNext h
       (if ctxNum s.cur < 14 ∧ s.canSave s.cur then s.beginSave s.cur 0 [] else s) .next) ∧
     ∀ (c : Cond) (dw : Bool) (sc : Scope) (d a b : GReg) (e : BitVec 32) (sp : Space) (asid : BitVec 16) (s1 s2 s3 : State)
       (v u : Nat),
       let n := if dw then 8 else 4
       let va := effAddr s.me a e
       access va n n .load s = .ok (sp, asid) s1 → waitRead sp asid va n none s1 = .ok v s2 →
       (Cond.test c (8 * n) v (s.me.rg b).toNat = true →
         exec (.waita h c dw false sc d a b e) s = .next (bodyNext h (s2.setMe (s2.me.wg d (BitVec.ofNat 64 v))) .next) ∧
         (waitRead sp asid va n (some sc) s2 = .ok u s3 →
           exec (.waita h c dw true sc d a b e) s =
             .next (bodyNext h (s3.setMe (s3.me.wg d (BitVec.ofNat 64 v))) .next))) ∧
       (Cond.test c (8 * n) v (s.me.rg b).toNat = false → ∀ acq,
         exec (.waita h c dw acq sc d a b e) s = .next (s2.setMe { s2.me with parts := [], st := .waiting .word }))) ∧
  (∀ (h : Hdr) (d a : GReg) (slot : BitVec 2) (s : State), On h s →
     let k := s.myCore
     let tid := s.me.task.tid
     let b := (s.core k).bar slot
     let answer (t : State) (code low : Nat) : State :=
       bodyNext h (t.setMe (t.me.wg d (BitVec.ofNat 64 (code * 2 ^ 56 + low)))) .next
     (descBad (s.me.rg a) (coreNum k) = true →
       exec (.barset h d a slot) s = .next (s.takeTrap s.cur { cause := .illop, tval := (Instr.barset h d a slot).tvalBits })) ∧
     (descBad (s.me.rg a) (coreNum k) = false →
       (b.desc.isSome = true → b.setter ≠ tid →
         ∃ t, exec (.barset h d a slot) s = .next (answer t 4 0) ∧
           ((t.core k).bar slot).desc = b.desc ∧ ((t.core k).bar slot).setter = b.setter) ∧
       (b.desc = none → b.arrived = false →
         ∃ t, exec (.barset h d a slot) s = .next (answer t 0 0) ∧
           ((t.core k).bar slot).desc = some (s.me.rg a) ∧ ((t.core k).bar slot).setter = tid ∧
           ((t.core k).bar slot).episode = 0)) ∧
     (b.desc = none → exec (.bararr h d slot) s = .next (answer s 2 0)) ∧
     (∀ w, b.desc = some w → b.setter = tid → b.arrived = false → s.Settled .fld →
       ∃ t, exec (.bararr h d slot) s = .next (answer t 0 b.episode.toNat) ∧ ((t.core k).bar slot).arrived = true ∧
         ∃ m, (t.field s.myField).bars = (s.field s.myField).bars ++ [m] ∧
           m.core = k ∧ m.at_ = k ∧ m.slot = slot.toNat ∧ m.desc = w) ∧
     (let e := (s.me.rg a).setWidth 32;
       b.desc.isSome = true → b.setter = tid →
       ((e - b.episode).toInt < 0 → e ∉ b.mism →
         exec (.barwait h d a slot) s = .next (answer (s.acquireAll k) 0 0)) ∧
       ((e - b.episode).toInt < 0 → e ∈ b.mism → exec (.barwait h d a slot) s = .next (answer s 1 0)) ∧
       (e = b.episode → b.arrived = true →
         exec (.barwait h d a slot) s = .next (s.setMe { s.me with st := .waiting (.barrier slot.toNat) })) ∧
       (0 < (e - b.episode).toInt → exec (.barwait h d a slot) s = .next (answer s 3 0))))

/-- R213 to R217: what each integer vector form does in a lane, from the elements a and b of its operands: exact
results modulo 2^w or clamped, shift amounts modulo w, and immediate amounts outside the width raising ILLOP. -/
def Obligations.VectorIntegerResults : Prop :=
  ∀ (h : Hdr) (t : ETy) (m : VMask) (d : VReg) (x : VSrc) (y : VB) (s : State), On h s → s.me.ringFull = false →
    let w := t.width
    let a (e : Nat) : Nat := VSrc.elem x s.me w e
    let b (e : Nat) : Nat := VB.elem y s.me w e
    let sa (e : Nat) : Int := signed w (a e)
    let sb (e : Nat) : Int := signed w (b e)
    let is (i : Instr) (r : Nat → Int) : Prop :=
      exec i s = .next (regNext h s (putInts (s.seq (vr d)) w m d fun e => truncTo w (r e)))
    let clamp (sat : Bool) (z : Int) : Int := if sat then max (-2 ^ (w - 1)) (min (2 ^ (w - 1) - 1) z) else z
    (∀ sat, is (.vadd h t m sat d x y) (fun e => clamp sat (sa e + sb e)) ∧
      is (.vsub h t m sat d x y) (fun e => clamp sat (sa e - sb e)) ∧
      is (.vabs h t m sat d x) (fun e => clamp sat (sa e).natAbs) ∧ is (.vneg h t m sat d x) (fun e => clamp sat (-sa e))) ∧
    is (.vmul h t m d x y) (fun e => a e * b e) ∧ is (.vmulh h t m d x y) (fun e => sa e * sb e / 2 ^ w) ∧
    is (.vmin h t m d x y) (fun e => min (sa e) (sb e)) ∧ is (.vmax h t m d x y) (fun e => max (sa e) (sb e)) ∧
    is (.vminu h t m d x y) (fun e => min (a e) (b e)) ∧ is (.vmaxu h t m d x y) (fun e => max (a e) (b e)) ∧
    is (.vand h t m d x y) (fun e => (a e &&& b e : Nat)) ∧ is (.vor h t m d x y) (fun e => (a e ||| b e : Nat)) ∧
    is (.vxor h t m d x y) (fun e => (a e ^^^ b e : Nat)) ∧
    is (.vpopc h t m d x) (fun e => (List.range w).countP fun i => (a e).testBit i) ∧
    (shiftBad t y = false →
      is (.vshl h t m d x y) (fun e => a e * 2 ^ (b e % w)) ∧ is (.vshr h t m d x y) (fun e => a e / 2 ^ (b e % w)) ∧
      is (.vsar h t m d x y) (fun e => sa e / 2 ^ (b e % w))) ∧
    (shiftBad t y = true → ∀ i ∈ [Instr.vshl h t m d x y, .vshr h t m d x y, .vsar h t m d x y],
      exec i s = .next (s.takeTrap s.cur { cause := .illop, tval := i.tvalBits }))

/-- R211: the common lane loop. An element of the destination is the lane's result where the lane is active, 0 where
it is inactive under zeroing, and its old value where it is inactive under merging; the flags of active lanes become
sticky; no other register, and no flag besides, changes. -/
def Obligations.LaneLoop : Prop :=
  ∀ (c : Ctx) (w : Nat) (m : VMask) (d : VReg) (f : Nat → Nat × BitVec 5), w ∈ [4, 8, 16, 32, 64] →
    let on (e : Nat) : Bool := active (c.rq m.msk) e w
    let c' := putLanes c w m d f
    (∀ e, e < lanesOf w →
      elem (c'.rv d) e w = (if on e then (f e).1 % 2 ^ w else if m.z then 0 else elem (c.rv d) e w)) ∧
    (∀ i : Nat, i < 5 → (c'.fstat.getLsbD i =
      (c.fstat.getLsbD i || (List.range (lanesOf w)).any fun e => on e && (f e).2.getLsbD i))) ∧
    (∀ i : Nat, 5 ≤ i → c'.fstat.getLsbD i = c.fstat.getLsbD i) ∧
    (∀ r, r ≠ d → c'.rv r = c.rv r) ∧ c' = { c with v := c'.v, fstat := c'.fstat } ∧
    putInts c w m d (fun e => (f e).1) = { c with v := c'.v }

/-- R216, R217, R219: VCMP and VFCMP write the mask bits of active lanes; VSEL takes each lane from one of its
operands. -/
def Obligations.MaskAndSelectResults : Prop :=
  ∀ (h : Hdr) (t : ETy) (m : VMask) (x : VSrc) (s : State), On h s → s.me.ringFull = false →
    let w := t.width
    let a (e : Nat) : Nat := VSrc.elem x s.me w e
    let on (e : Nat) : Bool := active (s.me.rq m.msk) e w
    (∀ (cnd : Cond) (d : QReg) (y : VB), exec (.vcmp h cnd t m d x y) s = .next (regNext h s (putMask (s.seq (qr d)) w m d fun e => Cond.test cnd w (a e) (VB.elem y s.me w e)))) ∧
    (∀ (cnd : Cond) (d : QReg) (y : VG),
      let p (e : Nat) : FVal := (fmtOf t s.me).val (a e)
      let q (e : Nat) : FVal := (fmtOf t s.me).val (VG.elem y s.me w e)
      ∃ fl : BitVec 5, exec (.vfcmp h cnd t m d x y) s = .next (regNext h s ((putMask (s.seq (qr d)) w m d fun e => fpCond cnd (p e) (q e)).orFlags fl)) ∧
        (fl = ivFlag ↔ ∃ e, e < lanesOf w ∧ on e = true ∧ sig2 (p e) (q e) = true) ∧ (fl = ivFlag ∨ fl = 0)) ∧
    (∀ (d : VReg) (y : VB), ∃ v : VWord, exec (.vsel h t m d x y) s = .next (regNext h s ((s.seq (vr d)).wv d v)) ∧
      v = packVec w ((List.range (lanesOf w)).map fun e => if on e then a e else VB.elem y s.me w e)) ∧
    ∀ (c : Ctx) (d : QReg) (f : Nat → Bool) (b : Nat), d ≠ 0 → b < 128 →
      ((putMask c w m d f).rq d).getLsbD b =
        (if active (c.rq m.msk) (b * 8 / w) w then f (b * 8 / w) else !m.z && (c.rq d).getLsbD b)

/-- R218 to R223: what each floating-point vector form does in a lane, in the operations of the number formats: the
sum, the difference as the sum with the second operand's sign inverted, the fused forms with one rounding, and so
on. -/
def Obligations.VectorFloatResults : Prop :=
  ∀ (h : Hdr) (t : ETy) (r : RMode) (m : VMask) (d : VReg) (x : VSrc) (y : VG) (s : State), On h s →
    s.me.ringFull = false →
    let w := t.width
    let f := fmtOf t s.me
    let ca (e : Nat) : Nat := VSrc.elem x s.me w e
    let cb (e : Nat) : Nat := VG.elem y s.me w e
    let a (e : Nat) : FVal := f.val (ca e)
    let b (e : Nat) : FVal := f.val (cb e)
    let o (e : Nat) : FVal := f.val (elem (s.me.rv d) e w)
    let is (i : Instr) (z : Nat → Nat × BitVec 5) : Prop := exec i s = .next (regNext h s (putLanes (s.seq (vr d)) w m d z))
    is (.vfadd h t r m d x y) (fun e => f.add r (a e) (b e)) ∧
    is (.vfsub h t r m d x y) (fun e => f.add r (a e) (b e).negate) ∧
    is (.vfmul h t r m d x y) (fun e => f.mul r (a e) (b e)) ∧
    is (.vfma h t r m d x y) (fun e => f.fma r (a e) (b e) (o e)) ∧
    is (.vfms h t r m d x y) (fun e => f.fma r (a e) (b e) (o e).negate) ∧
    is (.vfnma h t r m d x y) (fun e => f.fma r (a e).negate (b e) (o e)) ∧
    is (.vfdiv h t r m d x y) (fun e => f.div r (a e) (b e)) ∧
    is (.vfsqrt h t r m d x) (fun e => f.sqrt r (a e)) ∧
    is (.vfrcp h t r m d x) (fun e => estRcp f r (a e)) ∧ is (.vfrsq h t r m d x) (fun e => estRsq f r (a e)) ∧
    is (.vfexp2 h t r m d x) (fun e => estExp2 f r (a e)) ∧ is (.vflog2 h t r m d x) (fun e => estLog2 f r (a e)) ∧
    is (.vfmin h t m d x y) (fun e => f.minmax false (ca e) (cb e)) ∧
    is (.vfmax h t m d x y) (fun e => f.minmax true (ca e) (cb e)) ∧
    exec (.vfclass h t m d x) s =
      .next (regNext h s (putInts (s.seq (vr d)) w m d fun e => 2 ^ fpClass f (ca e))) ∧
    (∀ (sat : Bool) (st : ETy) (part : BitVec 4),
      let n := 1024 / max st.width w
      let i (e : Nat) : Nat := if w < st.width then e - part.toNat * n else if st.width < w then part.toNat * n + e else e
      let mine (e : Nat) : Prop := st.width ≤ w ∨ (part.toNat * n ≤ e ∧ e < part.toNat * n + n)
      ∃ c' : Ctx, exec (.vfcvt h t r m sat st part d x) s = .next (regNext h s c') ∧
        ∀ e, e < lanesOf w → elem (c'.rv d) e w =
          if active (s.me.rq m.msk) e w ∧ mine e then
            (convElem t st r sat s.me.extn (VSrc.elem x s.me st.width (i e))).1 % 2 ^ w
          else if m.z ∧ mine e then 0 else elem (s.me.rv d) e w) ∧
    ∀ (blk : BitVec 2) (inv : Bool) (sc : VReg), is (.vfscl h t r m blk inv d x sc)
      (fun e => vfsclLane f r inv (a e) (elem (s.me.rv sc) (e / (if blk = 0 then 1 else if blk = 1 then 32 else 64)) 8))

/-- R75, R225: the reductions write gd from the active lanes in ascending order, and their identity when none is
active. R227: the mask forms act on all 128 bits, and a write to q0 is discarded. -/
def Obligations.ReductionAndMaskResults : Prop :=
  (∀ (h : Hdr) (t : ETy) (q : QReg) (d : GReg) (x : VSrc) (s : State), On h s → s.me.ringFull = false →
     let w := t.width
     let l := ((List.range (lanesOf w)).filter fun e => active (s.me.rq q) e w).map fun e => VSrc.elem x s.me w e
     let is (i : Instr) (v : Int) : Prop := exec i s = .next (regNext h s ((s.seq (gr d)).wg d (BitVec.ofInt 64 v)))
     is (.vradd h t q d x) (signed w l.sum) ∧
     is (.vrmin h t q false d x) ((l.map (signed w ·)).foldl min (2 ^ (w - 1) - 1)) ∧
     is (.vrmax h t q false d x) ((l.map (signed w ·)).foldl max (-2 ^ (w - 1))) ∧
     is (.vrmin h t q true d x) ((l.foldl min (2 ^ w - 1) : Nat)) ∧ is (.vrmax h t q true d x) ((l.foldl max 0 : Nat)) ∧
     (∀ r, exec (.vfradd h t r q d x) s = .next (regNext h s (((s.seq (gr d)).wg d (BitVec.ofNat 64 (orderedSum (fmtOf t s.me) r l).1)).orFlags (orderedSum (fmtOf t s.me) r l).2))) ∧
     exec (.vfrmax h t q d x) s = .next (regNext h s (((s.seq (gr d)).wg d (BitVec.ofNat 64 (orderedMax (fmtOf t s.me) l).1)).orFlags (orderedMax (fmtOf t s.me) l).2)) ∧
     exec (.qcnt h t d q) s = .next (regNext h s ((s.seq (gr d)).wg d (BitVec.ofNat 64 l.length)))) ∧
  (∀ (h : Hdr) (d a b : QReg) (s : State), On h s → s.me.ringFull = false →
     let is (i : Instr) (v : QWord) : Prop := exec i s = .next (regNext h s (if d = 0 then (s.seq (qr d)) else { (s.seq (qr d)) with q := (s.seq (qr d)).q.set d.toNat v }))
     is (.qand h d a b) (s.me.rq a &&& s.me.rq b) ∧ is (.qor h d a b) (s.me.rq a ||| s.me.rq b) ∧
     is (.qxor h d a b) (s.me.rq a ^^^ s.me.rq b) ∧ is (.qnot h d a) (~~~ s.me.rq a))

/-- R226: where each element of a permute form comes from.
Where the specification leaves a point open, the model's choices are in log entry 47 (VPERM and VSLIDE with BC = 1). -/
def Obligations.PermuteResults : Prop :=
  ∀ (h : Hdr) (t : ETy) (m : VMask) (d : VReg) (x y : VSrc) (g : GReg) (k : GI16) (s : State), On h s →
    s.me.ringFull = false →
    let w := t.width
    let n := lanesOf w
    let a (e : Nat) : Nat := VSrc.elem x s.me w e
    let b (e : Nat) : Nat := VSrc.elem y s.me w e
    let on (e : Nat) : Bool := active (s.me.rq m.msk) e w
    let below (e : Nat) : Nat := ((List.range e).filter on).length
    let is (i : Instr) (z : Nat → Nat) : Prop := exec i s = .next (regNext h s (putInts (s.seq (vr d)) w m d z))
    is (.vperm h t m d x y) (fun e => if b e < n then a (b e) else 0) ∧
    is (.vslide h t m d x k)
      (fun e => let j : Int := e - GI16.slide k s.me; if 0 ≤ j ∧ j < n then a j.toNat else 0) ∧
    is (.vbcast h t m d g) (fun _ => (s.me.rg g).toNat % 2 ^ w) ∧
    is (.vexpd h t m d x) (fun e => a (below e)) ∧ is (.viota h t m d) below ∧
    (∀ hi, is (.vzip h t m hi d x y)
      (fun e => let j := e / 2 + (if hi then n / 2 else 0); if e % 2 = 0 then a j else b j)) ∧
    (∀ odd, is (.vunzip h t m odd d x y)
      (fun e => let o := if odd then 1 else 0; if e < n / 2 then a (2 * e + o) else b (2 * (e - n / 2) + o))) ∧
    (let l := ((List.range n).filter on).map a;
      exec (.vcmpr h t m d x) s = .next (regNext h s ((s.seq (vr d)).wv d (packVec w ((List.range n).map fun e =>
        if e < l.length then l.getD e 0 else if m.z then 0 else elem ((s.seq (vr d)).rv d) e w))))) ∧
    (∀ gd : GReg, exec (.vext h t gd x k) s = .next (regNext h s ((s.seq (gr gd)).wg gd (if GI16.index k s.me < n then BitVec.ofNat 64 (a (GI16.index k s.me)) else 0)))) ∧
    exec (.vins h t d g k) s = .next (regNext h s (if GI16.index k s.me < n then
      (s.seq (vr d)).wv d (packVec w ((List.range n).map fun e =>
        if e = GI16.index k s.me then (s.me.rg g).toNat else elem ((s.seq (vr d)).rv d) e w)) else (s.seq (vr d))))

/-- R286, R287, R289: a vector load whose elements pass their checks and can be read writes the lane loop of their
values; a vector store writes its elements; VAMO writes the old values of the elements it performed and gathers their
flags. R289: a vector memory form whose checks meet a failing element records a late fault of that element, and changes
no register and no byte; a VAMO that meets an outcome of an element after performing others records it.
Where the specification leaves a point open, the model's choices are in log entries 49, 50. -/
def Obligations.VectorMemoryResults : Prop :=
  (∀ (h : Hdr) (t : ETy) (m : VMask) (d : VReg) (a b : GReg) (x : VReg) (k : BitVec 2) (e : BitVec 16) (s s1 s2 : State),
     On h s → s.me.ringFull = false → s.me.rim = [] →
     let w := memWidth t
     let base : Word := s.me.rg a + e.signExtend 64
     let unit (i : Nat) : Nat := (base + BitVec.ofNat 64 (i * (w / 8))).toNat
     let stride (i : Nat) : Nat := (base + BitVec.ofNat 64 i * s.me.rg b).toNat
     let index (i : Nat) : Nat := (base + BitVec.ofInt 64 (signed t.width (elem (s.me.rv x) i t.width)) <<< k.toNat).toNat
     let loads (i : Instr) (addr : Nat → Nat) (fe : Bool) : Prop := ∀ ps vs,
       checkElems (w / 8) .load fe (elems s.me m.msk w addr) (s.setMe { s.me with vec := true }) = .ok (.ok ps) s1 →
       (fe = true → s1.emptyElem (w / 8) ps = none) →
       readElems (w / 8) (elems s.me m.msk w addr) ps s1 = .ok (.ok vs) s2 →
       exec i s = .next (bodyNext h (s2.setMe ((putInts s2.me w m d fun e =>
         ((vs.find? fun v => v.1 == e).map (·.2)).getD 0).pushSeq .done (some (vr d)))) .next)
     let stores (i : Instr) (addr : Nat → Nat) : Prop := ∀ ps,
       checkElems (w / 8) .store false (elems s.me m.msk w addr) s = .ok (.ok ps) s1 →
       writeElems (fun i => natBytes (elem (s.me.rv d) i w) (w / 8)) ps s1 = .ok () s2 →
       exec i s = .next (bodyNext h (s2.setMe (s2.me.pushSeq .done none)) .next)
     loads (.vld h t m d a e) unit false ∧ loads (.vlds h t m d a b e) stride false ∧
     loads (.vgath h t m k d a x e) index false ∧ loads (.vldf h t m d a e) unit true ∧
     stores (.vst h t m.msk d a e) unit ∧ stores (.vsts h t m.msk d a b e) stride ∧
     stores (.vscat h t m.msk k d a x e) index ∧
     ∀ (op : AtOp) (ord : Order) (pl : Place) (sc : Scope) (l : List (Nat × Nat × BitVec 5)) (bad : List (Nat × Trap)),
       let n := t.width / 8
       let es := elems s.me m.msk t.width index
       vamoCheck n es s = .ok none s1 →
       vamoAll op (n == 8) n (fun i => elem (s1.me.rv d) i t.width) pl ord sc es s1 = .ok (l, bad) s2 →
       let done : Ctx := (putInts s2.me t.width m d fun i =>
         ((l.find? fun v => v.1 == i).map (·.2.1)).getD (elem (s2.me.rv d) i t.width)).orFlags (l.foldl (fun a v => a ||| v.2.2) 0)
       let after (c : Ctx) : Prop := exec (.vamo h t m op ord pl sc k d a x e) s = .next (bodyNext h (s2.setMe c) .next)
       (bad = [] → after ({ done with rim := [] }.pushSeq .done (some (vr d)))) ∧
       ∀ j tr rest, bad = (j, tr) :: rest → after ({ done with rim := [] }.pushLate (some (vr d)) tr j)) ∧
  (∀ (h : Hdr) (t : ETy) (m : VMask) (d : VReg) (a b : GReg) (x : VReg) (k : BitVec 2) (e : BitVec 16) (s s1 : State),
     On h s → s.me.ringFull = false → s.me.rim = [] →
     let w := memWidth t
     let base : Word := s.me.rg a + e.signExtend 64
     let unit (i : Nat) : Nat := (base + BitVec.ofNat 64 (i * (w / 8))).toNat
     let stride (i : Nat) : Nat := (base + BitVec.ofNat 64 i * s.me.rg b).toNat
     let index (i : Nat) : Nat := (base + BitVec.ofInt 64 (signed t.width (elem (s.me.rv x) i t.width)) <<< k.toNat).toNat
     let fails (i : Instr) (n : Nat) (kind : AccKind) (fe : Bool) (es : List Elem) (dst : Option RegRef) : Prop :=
       ∀ j tr, checkElems n kind fe es (if kind = .load then s.setMe { s.me with vec := true } else s) =
           .ok (.error (j, tr)) s1 →
         exec i s = .next (bodyNext h (s1.setMe { s1.me.pushLate dst tr j with rim := [] }) .next)
     fails (.vld h t m d a e) (w / 8) .load false (elems s.me m.msk w unit) (some (vr d)) ∧
     fails (.vlds h t m d a b e) (w / 8) .load false (elems s.me m.msk w stride) (some (vr d)) ∧
     fails (.vgath h t m k d a x e) (w / 8) .load false (elems s.me m.msk w index) (some (vr d)) ∧
     fails (.vldf h t m d a e) (w / 8) .load true (elems s.me m.msk w unit) (some (vr d)) ∧
     fails (.vst h t m.msk d a e) (w / 8) .store false (elems s.me m.msk w unit) none ∧
     fails (.vsts h t m.msk d a b e) (w / 8) .store false (elems s.me m.msk w stride) none ∧
     fails (.vscat h t m.msk k d a x e) (w / 8) .store false (elems s.me m.msk w index) none ∧
     ∀ op ord pl sc j tr, vamoCheck (t.width / 8) (elems s.me m.msk t.width index) s = .ok (some (j, tr)) s1 → s1.me.parts = [] →
       exec (.vamo h t m op ord pl sc k d a x e) s =
         .next (bodyNext h (s1.setMe { s1.me.pushLate (some (vr d)) tr j with rim := [] }) .next))

/-- R229, R234 to R245: a queued matrix form whose operands pass the checks at issue enters the command queue with
the context's next sequence number, and moves the issue shadow of its bank or the scale state. R245 to R248: MWAIT
with nothing of its task queued, MCFG, MQW and MBCAST complete, each with its result; a claim that another context's holding
denies changes no holding, and one of an item that the context has released and still uses waits.
Where the specification leaves a point open, the model's choices are in log entries 59, 68. -/
def Obligations.MatrixResults : Prop :=
  (∀ (h : Hdr) (s : State), On h s → s.me.lates = [] → s.me.ringFull = false → (s.core s.myCore).mq.length < 32 →
     let enters (i : Instr) (wa wb : Word) (after : Ctx → Prop) : Prop :=
       ∃ t, exec i s = .next (bodyNext h t .next) ∧ Queued s t i wa wb ∧ after t.me ∧
         t.me.g = s.me.g ∧ t.me.v = s.me.v ∧ t.me.q = s.me.q ∧ t.me.p = s.me.p ∧ t.me.fstat = s.me.fstat
     (∀ (d : AReg), s.holdsAcc d.toNat = true →
       enters (.mzero h d) 0 0 (fun _ => True) ∧
       (∀ bank, s.holdsBanks = true → enters (.mdrain h d bank) 0 0 (fun c => c.shadow bank = {})) ∧
       (∀ ta tb a b k, wordBad (s.me.rg a) = false → wordBad (s.me.rg b) = false →
         mmaScaleBad s.me.mscl (s.me.rg a) (s.me.rg b) ta tb = false → s.Settled .sys →
         enters (.mma h ta tb d a b k) (s.me.rg a) (s.me.rg b) (fun _ => True)) ∧
       (∀ ty a b rows cols, (s.me.rg a).toNat % (ty.width / 8) = 0 → (s.me.rg b).toNat % (ty.width / 8) = 0 →
         s.Settled .sys →
         enters (.mld h ty d a b rows cols) (s.me.rg a) (s.me.rg b) (fun _ => True) ∧
         ∀ r sat, enters (.mst h ty r sat d a b rows cols) (s.me.rg a) (s.me.rg b) (fun _ => True))) ∧
     (s.holdsBanks = true →
       (∀ ta tb a b (k : BitVec 7) bank, wordBad (s.me.rg a) = false → wordBad (s.me.rg b) = false →
         mcntBad (s.me.shadow bank) s.me.mscl (s.me.rg a) (s.me.rg b) ta tb k.toNat = false → s.Settled .sys →
         enters (.mcnt h ta tb a b k bank) (s.me.rg a) (s.me.rg b) (fun c =>
           (c.shadow bank).depth = (s.me.shadow bank).depth + k.toNat ∧ c.shadow (!bank) = s.me.shadow (!bank))) ∧
       (s.me.shadow0.depth = 0 ∨ s.me.shadow1.depth = 0 ∨
           (s.me.shadow0.ta = s.me.shadow1.ta ∧ s.me.shadow0.tb = s.me.shadow1.tb) →
         enters (.mmerge h) 0 0 (fun c =>
           c.shadow1 = {} ∧ c.shadow0.depth ≤ s.me.shadow0.depth + s.me.shadow1.depth))) ∧
     ∀ a b aen ben ablk bblk, scaleBad (s.me.rg a) = false → scaleBad (s.me.rg b) = false →
       enters (.mscl h a b aen ben ablk bblk) (s.me.rg a) (s.me.rg b) (fun c =>
         c.mscl = { wa := s.me.rg a, wb := s.me.rg b, aen := aen, ben := ben, ablk := ablk, bblk := bblk })) ∧
  (∀ (h : Hdr) (s : State), On h s → s.me.lates = [] →
     let idle : Prop := ∀ e ∈ (s.core s.myCore).mq, e.tid ≠ s.me.task.tid
     (idle → (∀ i ∈ (s.core s.myCore).items, i.tid ≠ s.me.task.tid) → exec (.mwait h) s = .next (bodyNext h s .next)) ∧
     (∀ b : GI, (GI.uval b s.me).toNat ≠ 0 → (GI.uval b s.me).toNat ≤ 8 →
       ∃ t, exec (.mqw h b) s = .next (bodyNext h t .next) ∧ (t.core s.myCore).reg 0x080 = GI.uval b s.me ∧
         t.ctxs = s.ctxs) ∧
     (∀ (d : GReg) (claim release : BitVec 5),
       let r := s.mcfgRelease release
       let no := r.claimDenied claim
       (¬ (no = 0 ∧ r.claimEarly claim = true) → exec (.mcfg h d claim release) s = .next (bodyNext h
         ((if no = 0 then r.mcfgClaim claim else r).setMe
           ((if no = 0 then r.mcfgClaim claim else r).me.wg d (BitVec.ofNat 64 no))) .next)) ∧
       (no = 0 → r.claimEarly claim = true →
         exec (.mcfg h d claim release) s = .next (s.setMe { s.me with st := .waiting .queue })) ∧
       ((s.core s.myCore).mq = [] → (s.core s.myCore).saved = [] → claim &&& 0xF#5 = 0 ∨ (∀ n : Fin 4, (s.core s.myCore).accHolder[n] = none) → claim.getLsbD 4 = false → no = 0)) ∧
     ∀ (d a b : GReg) (bus : Bool) (mask : BitVec 8) (len : BitVec 16),
       let ga := s.me.rg a
       let gb := s.me.rg b
       let src := bits ga 0 18
       let dst := bits gb 0 18
       idle → mbcastBad ga gb = false → src + 4 * len.toNat ≤ cmemSize → dst + 4 * len.toNat ≤ cmemSize →
       schedBad s.me.lvl none dst (4 * len.toNat) = false → (s.core s.myCore).poison = [] → s.Settled .fld →
       (∀ i ∈ (s.core s.myCore).items, i.id < s.fresh) →
       ∃ t it, exec (.mbcast h d a b bus mask len) s = .next (bodyNext h t .next) ∧
         (t.core s.myCore).items = (s.core s.myCore).items ++ [it] ∧ it.gd = d.toNat ∧ it.status = none ∧ it.at_ = bits gb 24 8 ∧
         it.kind = .mbcast dst bus mask ((List.range len.toNat).map fun i =>
           BitVec.ofNat 32 (bytesNat (Mem.readBytes (s.core s.myCore).cmem (src + 4 * i) 4))))

/-- R249 to R251: TQRY, TREL, TFWD, TOWN and TDECL perform their operation at the tile's home and issue an item that
carries its status; after TREL the handle names no tile.
Where the specification leaves a point open, the model's choices are in log entries 62, 63, 69. -/
def Obligations.TileResults : Prop :=
  ∀ (h : Hdr) (d a b : GReg) (s s1 s2 : State), On h s →
    let f := s.myField
    let mine : State := { s with agent := .cx s.cur }
    let ok (i : Instr) (w : Word) (after : State → Prop) : Prop :=
      ∃ t cl ls, exec i s = .next (bodyNext h t .next) ∧ after t ∧
        ∃ it, it ∈ (t.core s.myCore).items ∧ it.gd = d.toNat ∧ it.tid = s.me.task.tid ∧ it.kind = .tile cl ls ∧ it.status = some w
    (∀ key tile, s.tileOf f (s.me.rg a) = some (key, tile) →
      ok (.tqry h d a) (tqryWord tile) (fun t => t.fields = s.fields) ∧
      (s.Settled .fld → s.notOwner tile = false → ok (.trel h d a) 0 (fun t =>
        SMap.find? (t.field f).tiles key = none ∧
        SMap.get (t.field f).tileGens key 0 = SMap.get (s.field f).tileGens key 0 + 1)) ∧
      (s.Settled .fld → tile.dem = false → (tile.owner = coreNum s.myCore ∨ (s.field f).tilesOwned (coreNum s.myCore) < 64) →
        gatherTile f tile.lines mine = .ok () s1 → moveTile f s.myCl tile.lines s1 = .ok () s2 →
        ok (.town h d a) 0 (fun t => SMap.find? (t.field f).tiles key = some { tile with owner := coreNum s.myCore, sh := [] })) ∧
      (∀ k, s.Settled .fld → bits (s.me.rg b) 32 32 = 0 → s.locCore ((s.me.rg b).setWidth 32) = some k → fieldOf k = f →
        s.notOwner tile = false → tile.dem = false →
        (clusterOf k = tile.ownerCl f → ∀ give, ok (.tfwd h d a b give) 0 (fun t => t.fields = s.fields)) ∧
        (clusterOf k ≠ tile.ownerCl f → shareTile f (tile.ownerCl f) (clusterOf k) tile.lines mine = .ok () s1 →
          ok (.tfwd h d a b false) 0 (fun t =>
            SMap.find? (t.field f).tiles key = some { tile with sh := addShare tile.sh (clusterOf k) })) ∧
        (clusterOf k ≠ tile.ownerCl f → (s.field f).tilesOwned (coreNum k) < 64 → gatherTile f tile.lines mine = .ok () s1 →
          moveTile f (clusterOf k) tile.lines s1 = .ok () s2 →
          ok (.tfwd h d a b true) 0 (fun t =>
            SMap.find? (t.field f).tiles key = some { tile with owner := coreNum k, sh := [] })))) ∧
    ∀ (lgs : BitVec 2) (asid : BitVec 16) (key : Nat) (s0 : State),
      let base := (s.me.rg a).toNat
      let pitch := bits (s.me.rg b) 32 32
      let cols := bits (s.me.rg b) 14 18 + 1
      let rows := bits (s.me.rg b) 0 14 + 1
      let size := 2 ^ lgs.toNat
      let fp := footprint base pitch rows cols size
      let lines := fp.map fun x => lineKey asid (x * 64)
      shapeOk base pitch rows cols size = true → checkPages (pagesOf fp) s.me.asid mine = .ok asid s0 →
      s0.tdeclStatus f (coreNum s.myCore) lines (sliceOf (lineKey asid base)) = 0 →
      ownReadyAll f s.myCl lines s0 = .ok () s1 → ownAll f s.myCl lines s1 = .ok () s2 → 
      (s2.field f).freeTile (sliceOf (lineKey asid base)) = some key →
      ok (.tdecl h d a b lgs) (BitVec.ofNat 64 ((SMap.get (s2.field f).tileGens key 0).toNat * 2 ^ 24 + key)) (fun t =>
        ∃ tile, SMap.find? (t.field f).tiles key = some tile ∧ tile.owner = coreNum s.myCore ∧ tile.base = base ∧
          tile.pitch = pitch ∧ tile.rows = rows ∧ tile.cols = cols ∧ tile.size = size ∧ tile.asid = asid ∧
          tile.dem = false ∧ tile.sh = [])

/-- R294 to R302: a record, a chain, a put or a remote atomic that passes its checks is queued with its item;
CCANCEL answers the number of records it has ended, CQRY the state of the channel.
Where the specification leaves a point open, the model's choices are in log entries 29, 64. -/
def Obligations.TransferResults : Prop :=
  ∀ (h : Hdr) (d a b : GReg) (ch : BitVec 2) (s : State), On h s →
    let va := (s.me.rg a).toNat
    let chan (t : State) : Channel := (t.cluster s.myCl).chan ch
    let room (t : State) : Prop := ((t.core s.myCore).items.filter fun i => i.kind.transfer && i.status.isNone).length < 32
    let queues (t : State) (chain : Bool) : Prop := ∃ e : ChanEnt, (chan t).queue = (chan s).queue ++ [e] ∧ e.addr = va ∧
      e.chain = chain ∧ e.cx = s.cur ∧ e.tid = s.me.task.tid ∧ e.asid = s.me.asid ∧ e.lvl = s.me.lvl
    exec (.cqry h d ch) s = .next (regNext h s (s.me.wg d (cqryWord (chan s) s.me.task.tid))) ∧
    (s.Settled .sys → recordCheck va s = .ok () s → (chan s).queue.length < 16 →
      (room s → ∃ t, exec (.cpy h d a ch) s = .next (bodyNext h t .next) ∧ NewItem s t d .fld (.cpy ch.toNat) none ∧
        queues t false) ∧
      (va ≠ 0 → ∃ t, exec (.cchain h a ch) s = .next (bodyNext h t .next) ∧ queues t true ∧ t.ctxs = s.ctxs)) ∧
    (s.Settled .sys → va = 0 → ∃ t, exec (.cchain h a ch) s = .next (bodyNext h t .next) ∧
      chan t = (chan s).reread s.me.task.tid ∧ t.ctxs = s.ctxs) ∧
    (∀ (all : Bool) (n : Nat), s.me.cancelled = some n →
      ((List.range 4).all fun j => !((all || j == ch.toNat) &&
        ((s.cluster s.myCl).chan (BitVec.ofNat 2 j)).cancelling s.me.task.tid)) = true →
      exec (.ccancel h d ch all) s = .next (bodyNext h
        (s.setMe ({ s.me with cancelled := none }.wg d (BitVec.ofNat 64 (n % 65536)))) .next)) ∧
    (∀ (sc : Scope) (dk : Bool) (len : BitVec 16) (vc : BitVec 2) (cen : Bool),
      let src := (s.me.rg b).toNat
      let n := (len.toNat + 1) * 8
      src < peerBase → src % 8 = 0 → putRange src n .load s = .ok () s →
      putDest (s.me.rg a) (s.me.rg (a + 1)) n dk cen s = .ok () s → s.Settled .fld → room s →
      ∃ t, exec (.put h sc dk d a b len vc cen) s = .next (bodyNext h t .next) ∧
        NewItem s t d sc (.put va (s.me.rg (a + 1)).toNat dk cen vc.toNat (some src) n []) none) ∧
    (∀ (sc : Scope) (dk : Bool) (v : VReg) (len : BitVec 4) (vc : BitVec 2) (cen : Bool),
      let n := (len.toNat + 1) * 8
      putDest (s.me.rg a) (s.me.rg (a + 1)) n dk cen s = .ok () s → s.Settled .fld → room s →
      ∃ t, exec (.putv h sc dk d a v len vc cen) s = .next (bodyNext h t .next) ∧
        NewItem s t d sc (.put va (s.me.rg (a + 1)).toNat dk cen vc.toNat none n
          ((List.range (len.toNat + 1)).map fun i => (s.me.rv v).extractLsb' (64 * i) 64)) none) ∧
    ∀ (op : AtOp) (dw : Bool) (ord : Order) (sc : Scope) (vc : BitVec 2),
      let n := AtOp.bytes op dw
      let xy := atomicArgs op n s.me d b
      ramoCheck va n s = .ok () s → s.me.ringFull = false → room s → (Order.releases ord = true → s.Settled sc) →
      let beyond : Prop := ord ≠ .rlx ∧ ∃ i o, s.space s.myCore va = .peer i o ∧ scopeHolds sc (pimKind (s.pimCtl s.myField i)) = false
      ∃ t acq rel, exec (.ramo h op dw ord sc d a b vc) s = .next (bodyNext h t .next) ∧
        NewItem s t d sc (.ramo va op dw (BitVec.ofNat 128 xy.1) (BitVec.ofNat 128 xy.2) s.me.nextSeq vc.toNat acq rel) none ∧
        t.me.g = s.me.g ∧ (beyond → acq = false ∧ rel = false ∧ t.me.fstat = s.me.fstat ||| 0x400#64) ∧
        (¬ beyond → acq = Order.acquires ord ∧ rel = Order.releases ord ∧ t.me.fstat = s.me.fstat)

/-- R356, R361, R363 to R367: SEND and SENDV queue a message with the context's header fields; PCFG and JCFG
configure an idle port and pattern; JENA and JDIS move the enable bits and answer the old ones; MTAKE and MREPLAY
answer as the pool allows.
Where the specification leaves a point open, the model's choices are in log entries 71, 72. -/
def Obligations.MessageResults : Prop :=
  ∀ (h : Hdr) (d a b : GReg) (s s1 s2 : State), On h s →
    let va := (s.me.rg a).toNat
    let code (t : State) (st low : Nat) : State := bodyNext h (t.setMe (t.me.wg d (BitVec.ofNat 64 (st * 2 ^ 56 + low)))) .next
    let sent (i : Instr) (m : MsgImm) (from_ : State) (pay : List Byte) : Prop := ∃ t x, exec i s = .next (bodyNext h t .next) ∧
      (t.field from_.myField).msgs = (from_.field from_.myField).msgs ++ [x] ∧ x.src = from_.myCore ∧
      x.tid = from_.me.task.tid ∧ x.dloc = (from_.me.rg a).setWidth 32 ∧ x.dport = m.dport.toNat ∧
      x.rport = m.rport.toNat ∧ x.rpy = m.rpy ∧ x.extn = from_.me.extn ∧ x.len8 = m.len8.toNat ∧ x.tag = m.tag ∧ x.pay = pay ∧
      t.me.g = from_.me.g
    let free (t : State) : Prop := t.sqUsed t.myCore t.me.task.tid < min t.me.sqDepth 8 ∧ t.Settled .fld
    (∀ m : MsgImm, s.me.ppov = none → m.len8.toNat ≤ 16 →
      (∀ ws, loadWords (s.me.rg b).toNat m.len8.toNat 0 s = .ok ws s1 → free s1 →
        sent (.send h a b m) m s1 (ws.flatMap fun w => natBytes w.toNat 8)) ∧
      ∀ v : VReg, free s → sent (.sendv h a v m) m s (natBytes (s.me.rv v).toNat (8 * m.len8.toNat))) ∧
    (∀ (port : BitVec 5) (w hd : Word), (port.toNat < 30 ∨ s.me.lvl = true) → loadWords va 2 0 s = .ok [w, hd] s1 →
      (s1.core s1.myCore).portLen port.toNat = 0 → (s1.core s1.myCore).portNamed port.toNat = false →
      portRsv w = false → portBad w hd s.me.lvl s.me.asid = false →
      ∃ t, exec (.pcfg h d a port) s = .next (code t 0 0) ∧
        SMap.find? (t.core s1.myCore).ports port.toNat = if w.getLsbD 63 then some { portOf w hd with owner := s.me.task.member } else none) ∧
    (∀ (pat : BitVec 4) (w0 w1 w2 w3 : Word), loadWords va 4 0 s = .ok [w0, w1, w2, w3] s1 →
      let p := patOf w0 w1 w2 w3
      (s1.core s1.myCore).jen.testBit pat.toNat = false → (s1.core s1.myCore).joinOn pat.toNat = none →
      patRsv w0 = false → patRsv w1 = false → bits w2 8 8 = 0 → bits w2 32 32 = 0 →
      (s1.core s1.myCore).patBad p s.me.lvl s.me.asid = false →
      ∃ t, exec (.jcfg h d a pat) s = .next (code t 0 0) ∧
        SMap.find? (t.core s1.myCore).pats pat.toNat = if p.ins = [] then none else some { p with owner := s.me.task.member }) ∧
    (∀ m : GI, let old := (s.core s.myCore).jen;
      (GI.uval m s.me).toNat < 65536 →
      (∃ t : State, exec (.jena h d m) s = .next (bodyNext h (t.setMe (s.me.wg d (BitVec.ofNat 64 old))) .next) ∧
        (t.core s.myCore).jen = old ||| ((GI.uval m s.me).toNat &&& (s.core s.myCore).patMask) % 65536) ∧
      ∃ t : State, exec (.jdis h d m) s = .next (bodyNext h (t.setMe (s.me.wg d (BitVec.ofNat 64 old))) .next) ∧
        ∀ i, (t.core s.myCore).jen.testBit i = (old.testBit i && !(GI.uval m s.me).toNat.testBit i)) ∧
    (∀ (port : BitVec 5) (spl : Bool) ps n c, imageCheck va s = .ok () s → piecePlaces va .store 9 s = .ok ps s1 →
      (s1.core s1.myCore).takeOldest port.toNat spl = some (n, c) →
      (let bs := (s1.core s1.myCore).slotBytes n;
        writePieces (ps.take ((bs.length + 15) / 16)) bs (s1.setCore s1.myCore c) = .ok () s2) →
      exec (.mtake h d a port spl) s = .next (code s2 0 n)) ∧
    ∀ ws port p n, imageCheck va s = .ok () s → loadWords va 18 0 s = .ok ws s1 →
      let bs := ws.flatMap fun w => natBytes w.toNat 8
      s1.replayPort bs = some port → SMap.find? (s1.core s1.myCore).ports port = some p → p.direct = false →
      (s1.core s1.myCore).freeSlot = some n →
      ∃ t, exec (.mreplay h d a) s = .next (code t 0 0) ∧
        (SMap.find? (t.core s1.myCore).ports port).map (·.queue) = some (n :: p.queue)

/-- R346 to R348, R366, R368 to R373: SPAWN pushes onto the deque; JOINW takes its pattern's messages; CARM arms a
codelet and CDEC subtracts from its count, moving it to the ready ring at 0; TEXIT ends the task; SQCFG and STLCFG
set their depth.
Where the specification leaves a point open, the model's choices are in log entries 18, 19, 52, 73, 74, 75, 76,
77, 123. -/
def Obligations.TaskResults : Prop :=
  ∀ (h : Hdr) (d a b : GReg) (s : State), On h s →
    let k := s.myCore
    let code (t : State) (st low : Nat) : State := bodyNext h (t.setMe (s.me.wg d (BitVec.ofNat 64 (st * 2 ^ 56 + low)))) .next
    let r := s.me.rg a
    (∀ cls : BitVec 2, s.Settled .fld → r.toNat < 2 ^ 57 → r.toNat % 4 = 0 → (s.core k).deque.length < 96 →
      ∃ t e, exec (.spawn h d a b cls) s = .next (code t 0 0) ∧ (t.core k).deque = (s.core k).deque ++ [e] ∧
        e.pc = r ∧ e.arg = s.me.rg b ∧ e.asid = s.me.asid ∧ e.cls = cls.toNat) ∧
    (∀ (pat : BitVec 4) (free : Bool) (p : Pattern), SMap.find? (s.core k).pats pat.toNat = some p →
      let s0 := if free then s.freeOwned s.cur else s
      let s1 := s0.modCore k fun c => c.joinWait s.cur pat.toNat
      let took := (s1.core k).consume s.cur pat.toNat s1.me.task.tid p (s1.waitPorts k)
      s1.joinWins k s.cur = true →
      ∃ t : State, exec (.joinw h d pat free) s = .next (bodyNext h (t.acquireAll k) .next) ∧ t.core k = took.1 ∧
        t.me = ({ s1.me with task := s1.me.task.own took.2.flatten }).putTakes d.toNat (p.pos.zip took.2)) ∧
    (∀ (cls : BitVec 2) (o : Nat), s.Settled .fld → s.ownOffset k r.toNat = some o → r.toNat % 32 = 0 → o < schedBase →
      (s.me.rg b).toNat ≠ 0 → (s.me.rg b).toNat < 2 ^ 32 → (s.core k).poison = [] → (s.core k).fe = [] →
      ((s.core k).codeletState o).getLsbD 0 = false → (s.core k).armedNow.length + (s.core k).ring.length < 256 →
      ∃ t, exec (.carm h d a b cls) s = .next (code t 0 0) ∧ (t.core k).codeletCount o = (s.me.rg b).toNat ∧
        ((t.core k).codeletState o).getLsbD 0 = true ∧ o ∈ (t.core k).armedNow) ∧
    (∀ (g : GI) (j : Nat), s.Settled .fld → bits r 18 14 = 0 → bits r 0 18 % 32 = 0 → bits r 0 18 < cmemSize →
      s.locCore (r.extractLsb' 32 32) = some j → fieldOf j = s.myField → (s.core j).poison = [] → (s.core j).fe = [] →
      let o := bits r 0 18
      let n := (GI.uval g s.me).toNat
      let old := (s.core j).codeletCount o
      n ≠ 0 → n < 2 ^ 32 → n ≤ old → ((s.core j).codeletState o).getLsbD 0 = true →
      ∃ t, exec (.cdec h d a g) s = .next (code t 0 old) ∧ (t.core j).codeletCount o = old - n ∧
        (old = n → (t.core j).ring = (s.core j).ring ++ [j * 2 ^ 18 + o] ∧ ((t.core j).codeletState o).getLsbD 0 = false) ∧
        (n < old → (t.core j).ring = (s.core j).ring ∧ (t.core j).codeletState o = (s.core j).codeletState o)) ∧
    (s.me.ppov = none → s.sqUsed k s.me.task.tid = 0 → s.me.lates = [] → (s.core k).mq = [] →
      (∀ i ∈ (s.core k).items, i.tid ≠ s.me.task.tid) → s.recsOpen s.myCl s.me.task.tid = false → s.Settled .sys →
      s.marksOpen k s.me.task.tid = false →
      exec (.texit h) s = .next (s.publishMarks k s.me.task.tid).taskExit ∧
        (s.me.nest = false →
          ((s.publishMarks k s.me.task.tid).taskExit.ctx s.cur).st = (if ctxNum s.cur = 15 then .asleep else .free))) ∧
    ∀ g : GI,
      ((GI.uval g s.me).toNat ≠ 0 → (GI.uval g s.me).toNat ≤ 8 →
        exec (.sqcfg h g) s = .next (bodyNext h (s.setMe { s.me with sqDepth := (GI.uval g s.me).toNat }) .next)) ∧
      ((GI.uval g s.me).toNat ≤ 2 → ∃ t, exec (.stlcfg h g) s = .next (bodyNext h t .next) ∧ t.ctxs = s.ctxs ∧
        (t.core k).reg 0x051 = GI.uval g s.me)

/-- R85, R89 to R93, R97: a request at the rim is held by a frozen migration, shares or takes a walker, or is served
from the translation cache; a walk that ends fills the PLB or the cache, or parks its requests; the oldest fault message
is delivered; a read of the stacks ends the request that asked for it.
Where the specification leaves a point open, the model's choices are in log entries 8, 10, 117, 119, 121. -/
def Obligations.RimRequestSteps : Prop :=
  ∀ (f id : Nat) (r : RReq) (s : State), s.rreq? f id = some r →
    let fd := s.field f
    let known := if r.kind.plbFill && r.core.isSome then none else fd.translate r.asid r.va
    (r.stage.atRim = true → fd.behind r = false →
      (∀ slot, fd.frozenFor r.asid r.page = some slot →
        ∃ t, exec (.rimRequest f id) s = .next t ∧ t.rreq? f id = some { r with stage := .frozen slot }) ∧
      (fd.frozenFor r.asid r.page = none →
        (known = none → fd.walks.contains (r.page, r.asid) = true →
          ∃ t, exec (.rimRequest f id) s = .next t ∧ t.rreq? f id = some { r with stage := .walk }) ∧
        (known = none → fd.walks.contains (r.page, r.asid) = false → (∀ x ∈ fd.rreqs, x.stage ≠ .wait) →
          fd.rreqs.length < 1024 → ∃ t, exec (.rimRequest f id) s = .next t ∧
            t.rreq? f id = some { r with stage := .walk, order := s.fresh }) ∧
        ∀ x, known = some x → fd.unlisted r.asid r.page (x.paOf r.va) = none →
          let pa := x.paOf r.va
          (r.kind = .copy → exec (.rimRequest f id) s = .next (s.reqServed f r)) ∧
          (r.kind = .wb → exec (.rimRequest f id) s =
            .next ((s.writeLine f pa x.key x.i r.data r.be r.poison r.asid r.va).reqServed f r)) ∧
          (r.kind = .atomic → ∃ t, exec (.rimRequest f id) s = .next t ∧
            t.rreq? f id = some { r with stage := .mem pa x.key x.i }) ∧
          (r.kind = .fill → r.stage = .new → (∀ y ∈ fd.rreqs, y.stage ≠ .held (pa / 65536)) →
            ∀ s1, s.claimFrame f (pa / 65536) r.page r.asid x = some s1 → exec (.rimRequest f id) s = .next (s1.setReq f
              { r with stage := .mem pa x.key x.i, win := if backedEnd ≤ pa then some ((s1.field f).winOf pa) else none })))) ∧
    (r.stage = .walk → (fd.rreqs.filter fun x => x.stage = .walk ∧ x.asid = r.asid ∧ x.page = r.page) = [r] →
      let s1 := s.noteWalk f r.asid r.va
      (s1.field f).frozenFor r.asid r.page = none →
        (∀ l, s1.walk f r.asid r.va r.kind.plbFill = .leaf l →
          exec (.pageWalkDone f id) s = .next ((s1.walkLeaf f r l).freeWalkers f)) ∧
        ∀ cause level, s1.walk f r.asid r.va r.kind.plbFill = .missing cause level →
          exec (.pageWalkDone f id) s = .next ((s1.walkMissing f r cause level).freeWalkers f)) ∧
    (∀ pa key i e, r.stage = .mem pa key i → (r.kind = .fill → fd.room (lineKey r.asid r.va) = true) →
      let x := s.stackRead f pa key i r.win e
      exec (.hbmReadComplete f id e) s =
        .next (if r.kind = .atomic then x.1.rimAtomic f r pa key i x.2 else x.1.fillDone f r x.2)) ∧
    ∀ g pay rest t, fd.faultMsgs = (g, pay) :: rest →
      s.toService f 31 (pay.take 24 ++ natBytes (fd.parkedIn g).length 8) = some t →
      exec (.faultMessageDeliver f) s = .next (t.modField f fun fd => { fd with faultMsgs := rest })

/-- R87, R89, R91, R119: an invalidation of each scope removes what it matches from every PLB and every L1I of the field
and from the translation cache, and completes; one that meets another queues; a reserved scope only sets ERR; RETRY and FAIL end a park group, and the save
of a task whose request has waited PKTO.LIMIT begins.
Where the specification leaves a point open, the model's choices are in log entry 13. -/
def Obligations.InvalidationAndParkSteps : Prop :=
  ∀ (f : Nat) (v : Word) (s : State),
    let fd := s.field f
    (fd.inval = none →
      let clears (i : Instr) : Prop := ∃ t, exec i s = .next t ∧ (t.field f).inval = some v ∧
        (∀ k, fieldOf k = f → (∀ e ∈ (t.core k).plb, xMatch v e.vpage e.size.pages e.asid e.g = false) ∧
          ∀ x ∈ (t.core k).l1i, iMatch v x = false) ∧
        ∀ e ∈ (t.field f).xlat, xMatch v e.vpage e.size.pages e.asid e.g = false
      (bits v 62 2 = 0 → clears (.xinvPage f v)) ∧ (bits v 62 2 = 1 → clears (.xinvAsid f v)) ∧
      (bits v 62 2 = 2 → clears (.xinvAll f v))) ∧
    (bits v 62 2 = 3 → ∃ t, exec (.xinvReserved f v) s = .next t ∧ (t.field f).reg 0x962 = fd.reg 0x962 ||| 2 ∧
      t.cores = s.cores) ∧
    (∀ w, fd.inval = some w → fd.invQueue.length < 16 →
      let queues (i : Instr) : Prop := ∃ t, exec i s = .next t ∧ (t.field f).invQueue = fd.invQueue ++ [v] ∧ t.cores = s.cores
      (bits v 62 2 = 0 → queues (.xinvPage f v)) ∧ (bits v 62 2 = 1 → queues (.xinvAsid f v)) ∧
      (bits v 62 2 = 2 → queues (.xinvAll f v))) ∧
    (∀ w, fd.inval = some w → fd.migWait w = false → (fd.invFrames w).all (s.purgeable f) = true → fd.invQueue = [] →
      ∃ t, exec (.xinvComplete f) s = .next t ∧ (t.field f).inval = none) ∧
    (v.getLsbD 63 = false → exec (.parkRetry f v) s = .next (s.parkRetry f v) ∧
      ∀ p l, SMap.find? fd.parks (bits v 0 12) = some p →
        s.walk f p.asid p.va ((fd.parkedIn (bits v 0 12)).any fun r => r.kind.plbFill) = .leaf l → SMap.find? ((s.parkRetry f v).field f).parks (bits v 0 12) = none) ∧
    (v.getLsbD 63 = true → exec (.parkFail f v) s = .next (s.parkFail f v) ∧
      SMap.find? ((s.parkFail f v).field f).parks (bits v 0 12) = none) ∧
    ∀ (c since : Nat), let limit := bits ((s.field (fieldOf (coreOf c))).reg 0x963) 0 16
      s.parkedSince c = some since → limit ≠ 0 → since + limit * 1000 ≤ s.ns → ctxNum c < 14 → (s.ctx c).issues = true →
      s.canSave c = true → (s.ctx c).task.stop = false → exec (.parkTimeoutSave c) s = .next (s.takeOut c 2)

/-- R94 to R97: a migration whose record passes its checks takes a free slot, copies in rounds, freezes, and ends
with its source's mappings moved; and R27, R28, R30, R37, R39: scrubbing, the links, windows and codebooks.
Where the specification leaves a point open, the model's choices are in log entries 12, 38, 118, 119, 122, 126. -/
def Obligations.MigrationAndStackSteps : Prop :=
  ∀ (f slot : Nat) (m : Mig) (v : Word) (s : State),
    let fd := s.field f
    ((List.range 8).find? (fun n => (SMap.find? fd.migs n).isNone) = some slot → s.migCheck f (bits v 6 46 * 64) = .ok m →
      ∃ t, exec (.migrationStart f v) s = .next t ∧ SMap.find? (t.field f).migs slot = some m) ∧
    (SMap.find? fd.migs slot = some m → m.frozen = false → m.start + 2 * m.todo.length ≤ s.clk →
      ∃ t, exec (.migrationRoundEnd f slot) s = .next t ∧ SMap.find? (t.field f).migs slot = some
        { m with used := m.used + 1, start := s.clk, todo := m.dirty, dirty := []
                 frozen := (decide (0 < m.used) && decide (m.todo.length ≤ 8)) || decide (m.limit ≤ m.used + 1) }) ∧
    (SMap.find? fd.migs slot = some m → m.frozen = true → m.start + 2 * m.todo.length ≤ s.clk →
      ∃ t, exec (.migrationComplete f slot) s = .next t ∧ SMap.find? (t.field f).migs slot = none) ∧
    (∃ t, exec (.scrubcfWrite f v) s = .next t ∧
      (t.field f).reg 0x942 = setBits (fd.reg 0x942) 0 16 (bits v 0 16)) ∧
    (∀ ctl e, ctl < 2 → bits (fd.reg 0x942) 0 16 ≠ 0 → fd.inReset = false →
      let n := fd.scrub.toList.getD ctl 0
      ∃ t, exec (.scrubLine f ctl e) s = .next t ∧ (t.field f).scrub.toList.getD ctl 0 = if stackLines ≤ n + 1 then 0 else n + 1) ∧
    (∀ ctl, ctl < 2 → ∃ t, exec (.ucieFlitReplay f ctl) s = .next t ∧ (t.field f).replays = fd.replays + 1 ∧
      (t.field f).mem = fd.mem) ∧
    (∀ ctl failed, ctl < 2 → fd.ucie.toList.getD ctl 0 ≠ 0 →
      ∃ t, exec (.ucieLinkDegrade f ctl failed) s = .next t ∧
        (t.field f).ucie.toList.getD ctl 0 = if failed then 0 else fd.ucie.toList.getD ctl 0 - 1) ∧
    (∀ w, w < 16 →
      (v.getLsbD 63 = true → (fd.win w).en = false → fd.winCheck w (v &&& 0x8000000000000F37#64) = none →
        ∃ t, exec (.windowEnable f w v) s = .next t ∧ (t.field f).reg (0x903 + 4 * w) = v &&& 0x8000000000000F37#64) ∧
      (∀ code, v.getLsbD 63 = true → (fd.win w).en = false → fd.winCheck w (v &&& 0x8000000000000F37#64) = some code →
        ∃ t, exec (.windowEnable f w v) s = .next t ∧
          let x := (t.field f).reg (0x903 + 4 * w);
          x.getLsbD 63 = false ∧ x.getLsbD 62 = true ∧ bits x 52 4 = code % 16 ∧ x &&& 0xF37#64 = v &&& 0xF37#64) ∧
      (v.getLsbD 63 = false → ∃ t, exec (.windowDisable f w v) s = .next t ∧
        ((t.field f).reg (0x903 + 4 * w)).getLsbD 63 = false)) ∧
    (∃ t, exec (.cbdataWrite f v) s = .next t ∧
      (t.field f).reg 0x940 = setBits (fd.reg 0x940) 0 8 (bits (fd.reg 0x940) 0 8 + 1) ∧
      (fd.cbLocked (bits (fd.reg 0x940) 8 2) = false →
        SMap.find? (t.field f).code (bits (fd.reg 0x940) 8 2 * 256 + bits (fd.reg 0x940) 0 8) = some (v.setWidth 24))) ∧
    ∃ t, exec (.cbdataRead f) s = .next t ∧
      (t.field f).reg 0x940 = setBits (fd.reg 0x940) 0 8 (bits (fd.reg 0x940) 0 8 + 1)

/-- R100, R103 to R116, R130: the steps of a home slice. A request that is first at its line, and whose data the
home can gather, is served and leaves; an atomic of a line of which the home has nothing goes to the memory controller
when it is placed at the home; a merging fill sends the home's copy; an eviction gives its bytes up; a
recall and an eviction take a line out of its cluster's L2.
Where the specification leaves a point open, the model's choices are in log entries 23, 25. -/
def Obligations.HomeSteps : Prop :=
  ∀ (f id : Nat) (r : HReq) (s : State), s.hreq? f id = some r → (s.field f).firstAt r = true →
    (s.field f).failOf r.line (.work r.id r.svc) = none → s.heldFor f r.line (.work r.id r.svc) = false →
    let s0 : State := { s with agent := .work r.id r.svc }
    (r.kind = .rds → s.holdsNow f r.cl r.line = false → r.pref = false →
      ∀ x s1, homeRds f r.cl r.line s0 = .ok x s1 →
        exec (.homeRds f id) s = .next ((s1.dropHReq f r.id).sendFill r.cl r.line x)) ∧
    (r.kind = .own → ∀ s1, homeGrant f r.cl r.line s0 = .ok () s1 →
      let t := (s1.dropHReq f r.id).sendFill r.cl r.line ((s1.cluster r.cl).grant r.line);
      exec (.homeOwn f id) s = .next (match r.cx with
        | none => t
        | some c => t.modCtx c fun x => { x with sent := x.sent.filter fun y => y.id != r.id })) ∧
    (r.kind = .merge → inList r.cl (s.hline f r.line).dir.holders = true →
      ∀ h s1, homeData f r.line (s0.triggerTile f r.line (some r.cl)) = .ok h s1 →
        ∃ t, exec (.homeMergeFill f id) s = .next t ∧
          (r.line, h.data, h.poison) ∈ (t.cluster r.cl).merges) ∧
    (∀ data be poison, r.kind = .evict data be poison →
      exec (.homeEviction f id) s = .next (((s.homeEvict f r.cl r.line data be poison).dropHReq f id).wakeMem
        fun c => fieldOf (coreOf c) == f)) ∧
    ∀ op dw b c adaptive s1, r.kind = .atomic op dw b c false adaptive → r.placed = true → s.tileNear f r.cl r.line = false →
      homeCollect f r.line (some r.cl) s0 = .ok () s1 →
      let rim : Prop := adaptive = false ∧ (s1.hline f r.line).present = false ∧ (s1.hline f r.line).dirty = 0 ∧
        (s1.hline f r.line).poison = false
      (rim → exec (.homeAtomic f id) s = .next ((s1.dropHReq f r.id).postRim f
        { id := 0, kind := .atomic, va := keyVa r.line + r.off, asid := keyAsid r.line, core := none, cx := r.cx
          op := some (op, dw, b, c) })) ∧
      (¬ rim → ∀ x s2 h, r.cx = some x → homeData f r.line s1 = .ok h s2 → h.poison = false →
        let d := s2.homeApply f r.line r.off op (AtOp.bytes op dw) b.toNat c.toNat
        exec (.homeAtomic f id) s = .next ((d.1.dropHReq f r.id).replyTo x r.id d.2.1 d.2.2))

/-- R114, R120 to R132: what arrives at a cluster's L2 and what leaves it; a store that performs writes its bytes;
an error of a memory near the core is logged, and, when it is uncorrectable, poisons its word, outside the scheduler area,
of which there are two copies (R385). What one slice has sent arrives in the order sent (R104). The data of a fill for a line
that the L2 holds are not taken, only its state: log entry 23.
Where the specification leaves a point open, the model's choices are in log entries 16, 17, 22, 23, 25, 27, 28, 129. -/
def Obligations.ClusterSteps : Prop :=
  ∀ (cl line : Nat) (s : State),
    let c := s.cluster cl
    let f := fieldOfCl cl
    (∀ y : Nat × L2Line, List.find? (fun (y : Nat × L2Line) => sliceOf y.1 == sliceOf line && c.room y.1) c.fills = some y →
      y.1 = line →
      let got (t : State) : Option (LineData × BitVec 16 × L2St) := (t.l2 cl line).map fun x => (x.data, x.valid, x.st)
      (s.l2 cl line = none → ∃ t, exec (.readFillReply cl line) s = .next t ∧
        got t = some (y.2.data, y.2.valid, y.2.st)) ∧
      ∀ x, s.l2 cl line = some x → ∃ t, exec (.readFillReply cl line) s = .next t ∧
        got t = some (x.data, x.valid, y.2.st)) ∧
    (∀ (y : Nat × LineData × Bool) x, List.find? (fun (y : Nat × LineData × Bool) => sliceOf y.1 == sliceOf line) c.merges = some y →
      y.1 = line → s.l2 cl line = some x → ∃ t, exec (.mergeFillArrive cl line) s = .next t ∧
        t.l2 cl line = some { x with data := mergeLine y.2.1 x.data (wordBe x.valid), valid := BitVec.allOnes 16
                                     poison := x.poison || y.2.2, foreign := x.foreign ||| ~~~x.valid }) ∧
    (∀ y : Nat × LineData × Bool, List.find? (fun (y : Nat × LineData × Bool) => sliceOf y.1 == sliceOf line) c.pushes = some y →
      y.1 = line → s.l2 cl line = none → c.room line = true →
      ∃ t, exec (.tilePushInstall cl line) s = .next t ∧ ((t.l2 cl line).map fun x => (x.data, x.st)) = some (y.2.1, .s)) ∧
    (inList cl (s.hline f line).dir.holders = true → (s.hline f line).tile = none → s.recallable cl line = true →
      exec (.clusterRecall cl line) s = .next (s.giveBack f cl line)) ∧
    (∀ x, s.l2 cl line = some x → x.hold = false → x.marks = [] → c.incoming line = false →
      (∀ y ∈ c.pushes, y.1 ≠ line) → exec (.l2Eviction cl line) s = .next (s.evictL2 cl line x)) ∧
    (∀ k idx e x w, (s.core k).sq[idx]? = some e → sqMayGo (s.core k).sq idx e = true → clusterOf k = cl →
      lineKey e.asid e.va = line → c.incoming line = false → s.l2 cl line = some x → (x.st = .m ∨ x.st = .e) →
      (wordsTouched e.be &&& ~~~(wordsCovered e.be) &&& ~~~x.valid) = 0 →
      (e.stamp = some w → w ≤ s.pts k →
        exec (.l2StorePerform k idx) s = .next (s.performStore k idx e x w)) ∧
      (e.stamp = none → e.rel = none → x.hold = false → w = max (s.pts k) (x.rts + 1) →
        (w = s.pts k ∨ bits ((s.core k).reg 0x9A4) 16 8 < w - s.pts k) →
        exec (.l2StorePerform k idx) s = .next ((s.raisePts k w).performStore k idx e x w))) ∧
    (∀ k, (SMap.find? (s.core k).l1i line).isSome = true →
      ∃ t, exec (.l1ParityError k true line) s = .next t ∧ SMap.find? (t.core k).l1i line = none) ∧
    (∀ k, (SMap.find? (s.core k).l1d line).isSome = true →
      ∃ t, exec (.l1ParityError k false line) s = .next t ∧ SMap.find? (t.core k).l1d line = none) ∧
    (∀ x w, s.l2 cl line = some x → w < 8 →
      ∃ t, exec (.sramEccError cl true (8 * line + w) .double) s = .next t ∧
        t.l2 cl line = some { x with pw := x.pw ||| BitVec.ofNat 8 (2 ^ w) }) ∧
    ∀ k w, w < 24576 → ∃ t, exec (.sramEccError k false w .double) s = .next t ∧
      (8 * w < schedBase → w ∈ (t.core k).poison) ∧ (schedBase ≤ 8 * w → (t.core k).poison = (s.core k).poison)

/-- R101, R102, R137, R139, R140, R279, R165, R308: writes of core and field registers arrive; a region of core
memory is accepted or refused with ERR; waiting loads of full words are served; a WAITA looks again; SHMCF, once the
write-backs it causes and the earlier accesses are done, empties shared memory, and APCF the predictor. A host reads and
writes the registers of its function.
Where the specification leaves a point open, the model's choices are in log entries 36, 41, 100. -/
def Obligations.RegisterSteps : Prop :=
  ∀ (v : Word) (s : State),
    (∀ c num, c < numCtxs →
      (ctxReg num = true → ∃ t, exec (.registerWrite c num v) s = .next t ∧ t.ctx c = (s.ctx c).writeReg num v) ∧
      (ctxReg num = false → coreReg num = true → ∃ t, exec (.registerWrite c num v) s = .next t ∧
        t.core (coreOf c) = (s.core (coreOf c)).writeReg num v) ∧
      (ctxReg num = false → coreReg num = false → plainReg num = true →
        (s.field (fieldOf (coreOf c))).ignores num v = false →
        let fd := s.field (fieldOf (coreOf c))
        ∃ t, exec (.registerWrite c num v) s = .next t ∧ (t.field (fieldOf (coreOf c))).reg (fd.homeOf num) =
          ((v &&& rwMask num) ||| (fd.reg (fd.homeOf num) &&& ~~~rwMask num)))) ∧
    (∀ fn f num, s.hostFun fn = some f → within 0xA00 0xA7F num = true → fieldReg num = true →
      s.barRead fn (8 * (num - 0xA00)) = some (s.readField f num) ∧
      (num ≠ 0xA0E → ∀ t, writeField f num v s = .ok () t → exec (.hostBarWrite fn num v) s = .next t) ∧
      (num = 0xA0E → (s.field f).asking (bits ((s.field f).reg 0xA0C) 0 10) = false →
        exec (.hostBarWrite fn num v) s = .next (s.pimctl f v).1)) ∧
    (∀ k n, n < 4 →
      let c := s.core k
      let bad : Prop := bits v 32 12 < 32 ∨ 1536 < bits v 32 12 ∨ bits v 24 8 = 0 ∨ 196608 < layBase v + layLen v ∨
        (v.getLsbD 63 = true ∧ ∃ m, m < 4 ∧ m ≠ n ∧ (c.reg (0x9A0 + m)).getLsbD 63 = true ∧
          overlap (layBase v) (layLen v) (layBase (c.reg (0x9A0 + m))) (layLen (c.reg (0x9A0 + m))) = true)
      ∃ t, exec (.cmlayWrite k n v) s = .next t ∧
        (bad → (t.core k).reg (0x9A0 + n) = c.reg (0x9A0 + n) ||| 0x4000000000000000#64) ∧
        (¬ bad → (t.core k).reg (0x9A0 + n) = v &&& 0x80000FFFFF03FF80#64)) ∧
    (∀ k off w, w ∈ (s.core k).fe → w.2.1 ≤ off / 4 → off / 4 < w.2.1 + w.2.2.1 →
      exec (.feWaitSatisfied k off) s = .next (s.serveFe k)) ∧
    (∀ c, (s.ctx c).st = .waiting .word → ∃ t, exec (.waitaWake c) s = .next t ∧ (t.ctx c).st = .ready) ∧
    (∀ f, bits v 0 4 ≤ 8 → bits v 0 4 ≠ bits ((s.field f).reg 0x980) 0 4 →
      let s1 := ((s.field f).home.map (·.1)).foldl (fun s l => s.homeDrop f l) s
      (∀ r ∈ (s1.field f).rreqs, r.kind = .wb → r.core.isSome = true) → s1.sharedOpen f = false →
      ∃ t, exec (.shmcfWrite f v) s = .next t ∧ bits ((t.field f).reg 0x980) 0 4 = bits v 0 4 ∧
        ∀ a, Mem.read (t.field f).shm a = 0) ∧
    ∀ f, v.getLsbD 2 = true → ∃ t, exec (.apcfClear f v) s = .next t ∧ (t.field f).reg 0x981 = v &&& 0xB#64 ∧
      (t.field f).pred = [] ∧ (t.field f).predInit = v.setWidth 2

/-- R40, R107, R311, R312, R314: a host request to a line of an enabled aperture is served at its home and answered;
the answer to a snoop, or its time-out, sets H; a device snoop is answered at once; host data completes the read
that asked for it. R118, R315, R317: a request through the peer window is admitted by its handle's entry, and served
through the gateway when it is the first of its task at its block.
Where the specification leaves a point open, the model's choices are in log entries 39, 65, 99, 101. -/
def Obligations.HostAndGatewaySteps : Prop :=
  (∀ (fn f tag off : Nat) (va : Nat) (asid : BitVec 16) (wr : Bool) (s s1 s2 : State), s.hostFun fn = some f →
     (s.field f).contained = false → (s.field f).hostVa off = some (va, asid, wr) →
     let l := lineKey asid va
     let s0 : State := { s with agent := .host tag }
     (hostXlat f asid va false s0 = .ok () s1 →
       (∀ mv d p, hostRd f l mv true s1 = .ok (d, p) s2 →
         exec (.hostMemrd fn tag off mv) s = .next { s2 with out := s2.out ++ [.hostData fn tag d p] }) ∧
       (∀ d p, hostRd f l .s true s1 = .ok (d, p) s2 →
         exec (.hostMemrddata fn tag off) s = .next { s2 with out := s2.out ++ [.hostData fn tag d p] }) ∧
       ∀ mv d p, hostRd f l mv false s1 = .ok (d, p) s2 →
         exec (.hostMeminv fn tag off mv) s = .next { s2 with out := s2.out ++ [.hostDone fn tag (!p)] }) ∧
     (wr = true → hostXlat f asid va true s0 = .ok () s1 → ∀ data be,
       let done (i : Instr) : Prop := ∃ t, exec i s = .next t ∧ t.out = s2.out ++ [.hostDone fn tag true] ∧ t.fields = s2.fields
       (hostWr f l data (BitVec.allOnes 64) s1 = .ok () s2 → done (.hostMemwr fn tag off data)) ∧
       (hostWr f l data be s1 = .ok () s2 → done (.hostMemwrptl fn tag off data be))) ∧
     (∀ r x h, SMap.find? (s.field f).snoops l = some x → x.done = false → BiRsp.after r x.inv = some h →
       ∃ t, exec (.birsp f l r) s = .next t ∧ (t.hline f l).h = h) ∧
     (∀ x, SMap.find? (s.field f).snoops l = some x → x.done = false →
       x.ns + bits ((s.field f).reg 0xA04) 0 16 * 1000 ≤ s.ns →
       ∃ t, exec (.biTimeout f l) s = .next t ∧ (t.hline f l).h = .none ∧ (t.field f).contained = true) ∧
     exec (.h2dSnoop f off) s = .next { s with out := s.out ++ [.rspIHitI f off] } ∧
     ∀ c a n data, s.out = [.cxlRead f tag a n] → (s.ctxs.map (·.1)).Nodup → c ∈ s.ctxs → fieldOf (coreOf c.1) = f →
       (∀ y ∈ s.ctxs, (y.2.sent.map (·.id)) = some tag → y = c) → (c.2.sent.map (·.id)) = some tag →
       ∃ t, exec (.cxlCacheResponse f tag data) s = .next t ∧ t.out = [] ∧
         ((t.ctx c.1).sent.bind (·.reply)) = some (BitVec.ofNat 128 (bytesNat (lineBytes data (a % 64) n)), 0)) ∧
  (∀ (f id : Nat) (p : Peer) (s : State), s.peer? f id = some p →
     (p.at_ = none → ∀ x s1, exportAt f (some p.srcField) p.handle p.off p.op.bytes p.va p.op.reads (!p.op.reads) s = .ok x s1 →
       exec (.peerAccess f id) s = .next (s1.modField f fun fd =>
         { fd with peers := fd.peers.map fun y => if y.id = id then { y with at_ := some x } else y })) ∧
     ∀ va asid, p.at_ = some (va, asid) → (s.field f).peerFirst p = true →
       let s0 : State := { s with agent := .work p.id (s.peerService p) }
       let served (t : State) (v : Nat) (fl : BitVec 5) : State :=
         (t.endPeer f p (.ok (v, fl))).wakeMem fun c => fieldOf (coreOf c) == f
       (∀ n bs s1, p.op = .load n → gateRead f asid va n s0 = .ok bs s1 →
         exec (.gatewayLoad f id) s = .next (served s1 (bytesNat bs) 0)) ∧
       (∀ bs s1, p.op = .store bs → (gateWrite f asid va bs) s0 = .ok () s1 →
         exec (.gatewayStore f id) s = .next (served s1 0 0)) ∧
       (∀ be bs s1, p.op = .storeWord be bs → (gateWrite f asid va bs 0 (be.setWidth 64 <<< (va % 64))) s0 = .ok () s1 →
         exec (.gatewayStore f id) s = .next (served s1 0 0)) ∧
       ∀ op dw b c old fl s1, p.op = .atomic op dw b c →
         gateAtomic f asid va true op (AtOp.bytes op dw) b.toNat c.toNat s0 = .ok (old, fl) s1 →
         exec (.gatewayAtomic f id) s = .next (served s1 old fl))

/-- R143 to R160: a channel takes its next entry, reads the record, moves its elements, applies its contributions,
and ends it with its status and completion words; a chain's next record is taken when it is OWN; a halted record
goes on, or is given up, by CERES.
Where the specification leaves a point open, the model's choices are in log entries 30, 31, 33. -/
def Obligations.CopyEngineSteps : Prop :=
  ∀ (cl ch : Nat) (r : RunRec) (s : State), ch < 4 →
    let cur (t : State) : Option RunRec := (t.chanOf cl ch).cur
    ((s.chanOf cl ch).cur = none → ∀ e q s1 r', (s.chanOf cl ch).queue = e :: q → e.chain = false →
      startRecord cl ch (newRec s.fresh e e.addr .start) (s.takeEntry cl ch) = .ok r' s1 →
      exec (.recordStart cl ch) s = .next (s1.setCur cl ch r')) ∧
    ((s.chanOf cl ch).cur = none → ∀ e q, (s.chanOf cl ch).queue = e :: q → e.chain = true →
      ∃ t, exec (.recordStart cl ch) s = .next t ∧ cur t = some (newRec s.fresh e e.addr .next)) ∧
    ((s.chanOf cl ch).cur = some r →
      (r.st = .next → ∀ r' s1, nextRecord r s = .ok r' s1 →
        ∃ t, exec (.chainNextRecord cl ch) s = .next t ∧ cur t = r') ∧
      (r.st = .move → ∀ r' s1, elemStep cl ch r s = .ok r' s1 →
        ∃ t, exec (.recordElement cl ch) s = .next t ∧ cur t = r') ∧
      (r.st = .finish → ∀ s1, finishRecord cl ch r s = .ok () s1 →
        exec (.recordComplete cl ch) s = .next (s1.recordOver cl ch r))) ∧
    (∀ f x fl s1, (s.field f).contribs.find? (fun y => y.id == x.id) = some x → reduceAt f x s = .ok fl s1 →
      ∃ t, exec (.bankReduce f x.id) s = .next t ∧ (∀ y ∈ (t.field f).contribs, y.id ≠ x.id)) ∧
    (∀ f a b pay rest t, (s.field f).copyMsgs = (a, b, pay) :: rest → s.toService f 30 pay = some t →
      exec (.copyErrorMessage f) s = .next (t.modField f fun fd => { fd with copyMsgs := rest })) ∧
    ∀ f v code x side, bits v 8 6 < 40 → cl = f * 40 + bits v 8 6 → ch = bits v 0 2 → (s.chanOf cl ch).cur = some r →
      r.st = .halted code x side →
      (v.getLsbD 63 = false → ∃ t, exec (.ceresRetry f v) s = .next t ∧ cur t = some r.retry) ∧
      (v.getLsbD 63 = true → ∃ t, exec (.ceresFail f v) s = .next t ∧ cur t = some (r.giveUp code))

/-- R230, R248, R249, R263, R295 to R305, R387: the steps that move and end items: a status reaches gd, a broadcast
is written, a put moves a word or ends, a remote atomic executes and replies.
Where the specification leaves a point open, the model's choices are in log entries 32, 61, 66, 68, 70, 107, 123. -/
def Obligations.ItemSteps : Prop :=
  ∀ (k id : Nat) (i : Item) (s : State), s.item? k id = some i →
    (i.status.isSome = true →
      ((∃ n, i.kind = .cpy n) ∨ (∃ a b c d e f g h, i.kind = .put a b c d e f g h) ∨ (∃ a b c d, i.kind = .mbcast a b c d) →
        exec (.statusWriteback k id) s = .next (s.giveStatus k id) ∧
        ∀ c w, i.status = some w → s.ctxOfTask k i.tid = some c → (i.gd, id) ∈ (s.ctx c).pend → 0 < i.gd → i.gd < 64 →
          ((s.giveStatus k id).ctx c).rg (BitVec.ofNat 6 i.gd) = w) ∧
      (∀ cl ls, i.kind = .tile cl ls → (∀ p ∈ (s.cluster cl).pushes, p.1 ∉ ls) →
        exec (.tileReply k id) s = .next (s.giveStatus k id)) ∧
      ∀ va op dw b c seq vc acq rel cx, i.kind = .ramo va op dw b c seq vc acq rel → s.ctxOfTask k i.tid = some cx →
        ∃ t, exec (.ramoReply k id) s = .next t ∧ t.ctx cx = ((s.ctx cx).ramoDone i va op dw seq).wake) ∧
    (i.status = none →
      (∀ off bus mask ws, i.kind = .mbcast off bus mask ws → s.busTaken k id bus = false →
        exec (.mbcastComplete k id) s = .next ((s.broadcast (busClusters (clusterOf k) bus mask) i.at_ off
          (ws.flatMap fun w => natBytes w.toNat 4)).endItem k i (mbWord codeDone))) ∧
      (∀ va op dw b c seq vc acq rel j s1, i.kind = .ramo va op dw b c seq vc acq rel → i.away = false →
        ramoRun k i va op dw b c vc (acq || rel) s = .ok j s1 → exec (.ramoExecute k id) s = .next (s1.setItem k j)) ∧
      ∀ cl, s.itemIn cl id = some (k, i) → i.killed = false →
        (i.bad = 0 → ∀ j s1, putStep k i s = .ok j s1 → exec (.putLand cl id) s = .next (s1.setItem k j)) ∧
        (i.bad = 0 → i.isPut = true → i.unacked = 0 → i.landed = true →
          (s.field (fieldOf k)).hostAwaits i.id = false → exec (.putComplete cl id) s =
          .next ((s.modField (fieldOf k) fun f => f.dropTags i.id).endItem k i (itemWord i.vc codeDone false 0)))) ∧
    (∃ t, exec (.orphanFlit k id) s = .next t ∧ t = (s.orphaned k id).logErr (fieldOf k) .orphan
      { syn := 5, kind := 2, loc := locator k }) ∧
    ∀ cl j e rest s1, s.mxCore cl = some j → (s.core (clusterCore cl + j)).mq = e :: rest → tileStep cl e s = .ok .done s1 →
      (s1.field (fieldOf (clusterCore cl + j))).hostAwaits e.eid = false →
      let c := s.cluster cl
      let left := if c.rrLeft ≠ 0 ∧ j = c.rrCore % 8 then c.rrLeft else bits ((s.core (clusterCore cl + j)).reg 0x080) 0 4
      exec (.matrixExecute cl) s = .next ((s1.mqDone e).modCluster cl fun c => { c with rrCore := j, rrLeft := left - 1 })

/-- R315, R316: clearing EN of an export entry counts its generation and setting it stores the entry; an import
request is sent, answered from the exporter's entry, and ended by its reply or after 1 ms; a granted import keeps the
source it was granted for.
Where the specification leaves a point open, the model's choices are in log entries 102, 103, 124. -/
def Obligations.ExportImportSteps : Prop :=
  ∀ (f : Nat) (v : Word) (s : State),
    let fd := s.field f
    let x := bits (fd.reg 0xA08) 0 8
    let old := fd.reg (bankReg 0xA0A x)
    (v.getLsbD 63 = false → old.getLsbD 63 = true → v &&& hexMask = old &&& hexMask →
      ∃ t, exec (.exportDisable f v) s = .next t ∧ ((t.field f).reg (bankReg 0xA0A x)).getLsbD 63 = false ∧
        bits ((t.field f).reg (bankReg 0xA0A x)) 53 8 = (bits old 53 8 + 1) % 256) ∧
    (v.getLsbD 63 = true → old.getLsbD 63 = false →
      ∃ t, exec (.exportEnable f v) s = .next t ∧ ((t.field f).reg (bankReg 0xA0A x)).getLsbD 63 = true ∧
        (t.field f).reg (bankReg 0xA0A x) &&& hexMask = v &&& hexMask) ∧
    (let slot := bits (fd.reg 0xA0C) 0 10;
      v.getLsbD 63 = true → fd.imports = [] → ((fd.reg (bankReg 0xA0E slot)).getLsbD 63 = false) →
      bits (fd.reg (bankReg 0xA0D slot)) 48 16 = 0 → bits (fd.reg (bankReg 0xA0D slot)) 32 12 = 0 →
      ∃ t, exec (.importEnable f v) s = .next t ∧
        (t.field f).imports = [{ id := s.fresh, slot := slot, ns := s.ns, src := fd.reg (bankReg 0xA0D slot) }]) ∧
    (∀ g handle slot i, (s.field g).imports.find? (fun i => i.slot == slot && i.reply.isNone) = some i →
      bits i.src 48 16 = 0 → bits i.src 44 4 = f → bits i.src 0 32 = handle →
      exec (.importRequest f g handle slot) s =
        .next (s.modField g fun fd => fd.importReplied i.id (s.exportAnswer f handle 0 g))) ∧
    (∀ slot i r, fd.imports.find? (fun i => i.slot == slot && i.reply.isSome) = some i → i.reply = some r →
      let t := s.endImport f i r
      exec (.importReply f slot) s = .next t ∧
      (r.1 = 0 → ((t.field f).reg (bankReg 0xA0E slot)).getLsbD 63 = true ∧ t.pimSrc f slot = i.src)) ∧
    ∀ slot i, fd.imports.find? (fun i => i.slot == slot && i.reply.isNone && decide (i.ns + 1000000 ≤ s.ns)) = some i →
      exec (.importTimeout f slot) s = .next (s.endImport f i (4, false, false, 0))

/-- R318 to R322: the slot table, the rotation and its windows; a flit that is received in sequence lands and is
acknowledged, one that comes again has its acknowledgement sent again, and one that comes early is dropped; the loss of a fibre, and
the loss and return of the time lock, with the offset measured last.
Where the specification leaves a point open, the model's choices are in log entries 104, 106, 108, 109. -/
def Obligations.OpticalSteps : Prop :=
  ∀ (f : Nat) (v : Word) (s : State),
    let fd := s.field f
    let o := fd.optical
    (∀ n, n < 64 →
      (slotBad v s.modId = true → ∃ t, exec (.oslotWrite f n v) s = .next t ∧ ((t.field f).reg 0xA12).getLsbD 63 = true ∧
        (t.field f).reg (0xA40 + n) = fd.reg (0xA40 + n)) ∧
      (slotBad v s.modId = false → ∃ t, exec (.oslotWrite f n v) s = .next t ∧
        (t.field f).reg (0xA40 + n) = v &&& ~~~0x3F000000#64)) ∧
    (v.getLsbD 63 = true → (fd.reg 0xA10).getLsbD 63 = false →
      ∃ t, exec (.opticalStart f v) s = .next t ∧ (t.field f).optical.running = true ∧
        (t.field f).reg 0xA10 = v &&& 0x800000000000003F#64) ∧
    (o.running = true → o.landing = [] → o.rotStart + period o.table ≤ s.ns → period fd.slots ≠ 0 →
      ∃ t, exec (.rotationStart f) s = .next t ∧ (t.field f).optical.table = fd.slots ∧
        let at_ := o.rotStart + period o.table;
        let more := (s.ns - at_) / period fd.slots;
        (t.field f).optical.rotStart = at_ + more * period fd.slots ∧
        (t.field f).optical.rot = o.rot + (if o.table = [] then 0 else 1) + more) ∧
    (let g := fd.rotated s.ns;
      ∀ n dest budget, s.locked = true → g.window s.ns = some (n, dest, budget) → g.optical.open_ = none → fd.queueTo dest = [] →
      ∃ t, exec (.slotWindowOpen f) s = .next t ∧ (t.field f).optical.open_ = some (n, budget)) ∧
    (let g := fd.rotated s.ns;
      ∀ w, g.optical.open_ = some w → g.window s.ns = none →
      ∃ t, exec (.slotWindowClose f) s = .next t ∧ (t.field f).optical.open_ = none) ∧
    (∀ x : Flit, s.locked = true → x.dest = s.modId → fd.inReset = false → o.landing = [] →
      let next := SMap.get o.recvSeq (recvKey x) 0
      (x.seq = next → ∀ s1, flitLands f x 0 (s.accepted f x) = .ok () s1 →
        exec (.opticalFlitReceive f x true) s = .next (s1.landOver f x codeDone)) ∧
      (x.seq < next → exec (.opticalFlitReceive f x true) s = .next (s.ackAgain f x)) ∧
      (next < x.seq → exec (.opticalFlitReceive f x true) s = .next s)) ∧
    (∀ dest vc seq code, s.locked = true →
      exec (.opticalAck f dest vc seq code) s = .next (s.opticalAck f dest vc seq (BitVec.ofNat 8 code))) ∧
    (∀ n, o.fibres.getLsbD n = true → ∃ t, exec (.fibreLoss f n) s = .next t ∧
      ∀ m, (t.field f).optical.fibres.getLsbD m = (o.fibres.getLsbD m && decide (m ≠ n))) ∧
    (s.locked = true → s.gm = false → ∃ t, exec .timeLockLoss s = .next t ∧ t.locked = false) ∧
    ∀ off : BitVec 32, s.gm = false → s.stepped = true →
      (s.locked = false → -100 ≤ off.toInt → off.toInt ≤ 100 →
        exec (.timeLockRegain off) s = .next { s with locked := true, stepped := true, toff := off }) ∧
      (s.locked = true ∨ off.toInt < -100 ∨ 100 < off.toInt → exec (.timeLockRegain off) s = .next { s with toff := off })

/-- R164, R376, R377, R390: TRAP, BRK and ILL enter the handler; RETT returns to TPC or reflects to UTVEC, and at
task level goes to UTPC; HALT of a service context sleeps. R164 to R167, R378, R390, R398: SRD reads what the
register holds, and the codebook word of CBDATA moves the pointer; SWR writes RW fields; RDTIME reads ns or the
core's pts, ENRG what is left of the allowance, SEQRD an entry of the ring. A late fault that waits is taken at the boundary after RETT (R379).
Where the specification leaves a point open, the model's choices are in log entries 41, 42 (RETT closes the windows of R171), 46. -/
def Obligations.SystemFormResults : Prop :=
  (∀ (h : Hdr) (s : State),
     (On h s → ∀ n, exec (.trap h n) s = .next (s.takeTrap s.cur { cause := .swtrap, tval := n.setWidth 64, skip := true })) ∧
     (On h s → ∀ n, exec (.brk h n) s = .next (s.takeTrap s.cur { cause := .brk, tval := n.setWidth 64 })) ∧
     exec (.ill h) s = .next (s.takeTrap s.cur { cause := .illop, tval := (Instr.ill h).tvalBits }) ∧
     (s.me.lvl = true →
       let back : Ctx := { s.me with
         pc := s.me.tpc, lvl := s.me.tsave.getLsbD 0, tsave := s.me.tsave &&& ~~~2#64, windows := [] }
       let refl : Ctx := { s.me with
         utcause := s.me.tcause, utpc := s.me.tpc, utval := s.me.tval, tsave := s.me.tsave &&& ~~~2#64, lvl := false
         pc := pcField s.me.utvec, windows := [] }
       let gone (x : Ctx) : Out := if x.lates = [] then .next (bodyNext h (s.setMe x) .stay) else .next ((s.setMe x).takeLate s.cur)
       exec (.rett h false) s = gone back ∧
       (s.me.utvec.getLsbD 0 = true → exec (.rett h true) s = gone refl) ∧
       (s.me.utvec.getLsbD 0 = false →
         exec (.rett h true) s = .next (s.takeTrap s.cur { cause := .illop, tval := (Instr.rett h true).tvalBits }))) ∧
     (s.me.lvl = false →
       exec (.rett h false) s = .next (bodyNext h (s.setMe { s.me with windows := [] }) (.goto s.me.utpc)) ∧
       exec (.rett h true) s = .next (s.takeTrap s.cur { cause := .illop, tval := (Instr.rett h true).tvalBits })) ∧
     (s.me.lvl = true → 14 ≤ ctxNum s.cur →
       exec (.halt h) s = .next (s.setMe { s.me with pc := s.me.pc + 12, st := .asleep })) ∧
     (s.me.lvl = true → ctxNum s.cur < 14 →
       exec (.halt h) s = .next (s.takeTrap s.cur { cause := .illop, tval := (Instr.halt h).tvalBits }))) ∧
  (∀ (h : Hdr) (d a : GReg) (num : BitVec 12) (s : State), On h s →
     let n := num.toNat
     let c := s.me
     let f := s.field s.myField
     (regDefined n = true → (c.lvl = true ∨ taskRead n = true) →
       let s' := if n = 0x941 then s.modField s.myField Field.cbNext else s
       exec (.srd h d num) s = .next (bodyNext h (s'.setMe (s'.me.wg d (s.readReg s.cur n))) .next)) ∧
     (regDefined n = true → (c.lvl = true ∨ taskWrite n = true) →
       (ctxReg n = true → exec (.swr h num a) s =
         .next (bodyNext h (s.modCtx s.cur fun x => x.writeReg n (c.rg a)) .next)) ∧
       (coreReg n = true → exec (.swr h num a) s =
         .next (bodyNext h (s.modCore s.myCore fun x => x.writeReg n (c.rg a)) .next)) ∧
       (plainReg n = true → f.ignores n (c.rg a) = false → exec (.swr h num a) s =
         .next (bodyNext h (s.modField s.myField fun x => x.store n (rwMask n) 0 (c.rg a)) .next)) ∧
       (fieldReg n = true → f.ignores n (c.rg a) = true → exec (.swr h num a) s = .next (bodyNext h s .next)) ∧
       ∀ t, writeReg s.cur n (c.rg a) s = .ok () t → exec (.swr h num a) s = .next (bodyNext h t .next)) ∧
     (∀ p : Bool, exec (.rdtime h d p) s = .next (regNext h s (c.wg d (BitVec.ofNat 64 (if p then s.pts s.myCore else s.ns))))) ∧
     (∀ n p, s.partOf s.myField = some n → s.partNow n = some p →
       exec (.enrg h d) s = .next (regNext h s (c.wg d (BitVec.ofNat 64 (1000 * p.allow - p.used))))) ∧
     ((c.rg a).toNat < 65536 → ∀ (part : BitVec 2), part.toNat < 3 →
       (∀ e, (c.ring.find? fun e => e.seq == (c.rg a).setWidth 16) = some e →
         exec (.seqrd h d a part) s = .next (bodyNext h (s.setMe (c.wg d
           (if part = 0 then BitVec.ofNat 64 (e.st.code * 2 ^ 61 + e.code.toNat * 2 ^ 48 + e.progress.toNat * 2 ^ 32 + e.seq.toNat)
            else if part = 1 then e.pc else e.addr))) .next)) ∧
       ((∀ e ∈ c.ring, e.seq ≠ (c.rg a).setWidth 16) →
         exec (.seqrd h d a part) s = .next (bodyNext h (s.setMe (c.wg d
           (if part = 0 then BitVec.ofNat 64 (5 * 2 ^ 61 + (c.rg a).toNat) else 0))) .next))))

/-- R391 to R393: CXSAVE and CXLOAD of another context of the core through a frame that can be reached, and what they answer
where there is nothing to save, no free context, or no such frame; KILL of a task, which ends it at once unless a save of it or
a committed instruction is awaited, and KREVOKE of a valid key are accepted. Each at field level, and each with its status in gd.
Where the specification leaves a point open, the model's choices are in log entries 46, 85 to 89. -/
def Obligations.SaveAndKillResults : Prop :=
  ∀ (h : Hdr) (d a b : GReg) (s s1 s2 s3 t : State), On h s → s.me.lvl = true →
    let va := (s.me.rg a).toNat
    let k := s.myCore
    let fr := s.frameHere va
    let reports (u : State) (st : Nat) : Out := .next (bodyNext h (u.setMe (u.me.wg d (topStatus st))) .next)
    (∀ ctx : BitVec 4, let x := ctx.toNat
      let c := k * 16 + x
      let accs := (s.core k).heldAccs x
      let u := s.unsend c
      va % 4096 = 0 → x < 14 → x ≠ ctxNum s.cur → (∀ p ∈ s.me.parts, p.1 ≠ 0) →
      (fr.reach accs true s = .ok false s1 → exec (.cxsave h d a ctx) s = reports s1 4) ∧
      (fr.reach accs true s = .ok true s → (s.ctx c).vacant = true → exec (.cxsave h d a ctx) s = reports s 1) ∧
      (fr.reach accs true s = .ok true s → (s.ctx c).vacant = false → (s.ctx c).saving = none → u.midway c = false →
        (s.ctx c).task.stop = false →
        let v : Saving := { reason := 3, entry := none, asid := fr.asid, key := fr.key, addr := va, reqs := s.reqsOf c }
        let s0 := u.modCtx c fun y => { y with saving := some v }
        saveOn c (s0.setMe { s0.me with parts := [(0, BitVec.ofNat 128 (s.ctx c).task.tid, 0)] }) = .ok () t →
        exec (.cxsave h d a ctx) s = reports t (if t.alive (s.ctx c).task.tid = true then 0 else 5))) ∧
    (∀ (ctx : BitVec 4) sv bs, let x := ctx.toNat
      va % 4096 = 0 → x < 14 → x ≠ ctxNum s.cur →
      (fr.reach 0 false s = .ok false s1 → exec (.cxload h d a ctx) s = reports s1 4) ∧
      (fr.reach 0 false s = .ok true s1 → fr.read 0 16 s1 = .ok (some bs) s2 →
        fr.reach (BitVec.ofNat 4 (fieldAt bs 25 1)) false s2 = .ok true s3 →
        ((s.ctx (k * 16 + x)).st ≠ .free → exec (.cxload h d a ctx) s = reports s3 2) ∧
        ((s.ctx (k * 16 + x)).st = .free → s.savedAt k va bs = some (k, sv) →
          (restoreInto k x fr none sv s3 = .ok true t → exec (.cxload h d a ctx) s = reports (t.takeLate (k * 16 + x)) 0) ∧
          (restoreInto k x fr none sv s3 = .ok false t → exec (.cxload h d a ctx) s = reports (t.loseSaved k sv) 5)))) ∧
    (∀ j tid, let target := s.me.rg a
      let frame := target.getLsbD 63
      let x := bits target 32 4
      s.killBad target = false → (s.me.rg b).toNat % 64 = 0 → s.locCore (target.setWidth 32) = some j → fieldOf j = s.myField →
      (s.field s.myField).killing j (if frame then none else some (j * 16 + x)) (if frame then some x else none) = false →
      s.killTarget j x frame = some tid → (∀ y ∈ (s.field s.myField).kills, y.tid ≠ tid) →
      let w : Kill := { id := s.fresh, tid := tid, record := (s.me.rg b).toNat, asid := s.me.asid, by_ := k, core := j
                        cx := if frame then s.savingTo j x else some (j * 16 + x)
                        frame := if frame then some x else none }
      exec (.kill h d a b) s = reports ((State.bump s).beginKill w) 0 ∧
      (frame = false → (s.ctx (j * 16 + x)).saving = none → (s.ctx (j * 16 + x)).committed = false →
        exec (.kill h d a b) s = reports ((State.bump s).killTask w) 0) ∧
      (frame = false → ((s.ctx (j * 16 + x)).saving ≠ none ∨ (s.ctx (j * 16 + x)).committed = true) →
        ∃ u, exec (.kill h d a b) s = .next u ∧ { w with begun := false } ∈ (u.field s.myField).kills)) ∧
    ∀ n p, (s.me.rg a).toNat < 256 → (s.me.rg b).toNat % 64 = 0 → s.partOf s.myField = some n → SMap.find? s.parts n = some p →
      s.keyValid p (s.me.rg a).toNat = true →
      let s' := s.revoke n p ((s.me.rg a).setWidth 8) (some ((s.me.rg b).toNat, s.me.asid, k))
      exec (.krevoke h d a b) s = .next (bodyNext h (s'.setMe (s'.me.wg d 0)) .next)

/-- R323 to R334, R354: a dispatcher dispatches a ready graph node or takes the next record; places a head group
that fits and whose energy is admitted; starts a gang; marks a head group starved; pre-empts for one that has
waited; gives a field its batch of a spanning launch; writes a completion record; and ends a graph node.
Where the specification leaves a point open, the model's choices are in log entries 81, 92 (the causes of a queue that stops), 94
(the energy that a launch has used), 95, 96. -/
def Obligations.LaunchSteps : Prop :=
  ∀ (f q lid gid node : Nat) (l : Launch) (s s1 s2 t : State),
    (s.dispatching f = true → (s.field f).served q = true →
      (∀ g i, (s.launchesOf f q).findSome? (fun x => x.2.readyNode.map fun i => (x.1, x.2, i)) = some (lid, g, i) →
        dispatchNode f q lid g i s = .ok () t → exec (.launchRecordRead f q) s = .next t) ∧
      ((s.launchesOf f q).findSome? (fun x => x.2.readyNode.map fun i => (x.1, x.2, i)) = none →
        (∀ x ∈ s.launchesOf f q, x.2.parent = none → x.2.headDone = true) →
        (takeRecord f q s = .ok () t → exec (.launchRecordRead f q) s = .next t) ∧
        ∀ c a, takeRecord f q s = .error (.fail c a) t → exec (.launchRecordRead f q) s =
          .next (t.stopQueue f q (if c = codeKeyrev then 3 else if c = codeUe then 4 else 2)))) ∧
    (s.places f q = true → writeHead f q s = .ok () s1 → writeHead f q (s1.placeHead f q) = .ok () t →
      exec (.groupPlace f q) s = .next t) ∧
    (∀ pn part part' ms, s.headOf f q = some (lid, l) → s.partOf f = some pn → s.partNow pn = some part →
      s.mayPass f q = true → l.heldWin ≠ some part.window → s.fit f l.w l.h l.cls lid (fun _ => false) = some ms →
      part.takesIn l.energy = some part' → SMap.find? (s.placeHead f q).groups s.fresh =
        some { lid := lid, index := (l.todoIn f).headD 0, field := f, members := ms, status := ms.map (fun _ => none),
               prio := l.queue, started := false, startNs := s.ns }) ∧
    (∀ g, SMap.find? s.groups gid = some g → SMap.find? s.launches g.lid = some l → g.started = false → g.field = f →
      (∀ c ∈ g.members, (s.core (coreOf c)).retired = false) →
      ∃ u : State, exec (.gangStart f gid) s = .next u ∧
        SMap.find? u.groups gid = some { g with started := true, startNs := u.ns } ∧
        SMap.find? u.launches g.lid = some { l with tFirst := some (l.tFirst.getD u.ns) }) ∧
    (s.headOf f q = some (lid, l) → l.waited s.ns (bits ((s.field f).reg 0x043) 16 16) = true →
      exec (.starveTimeout f q) s = .next { s with launches := SMap.put s.launches lid { l with starved := true } }) ∧
    (∀ ms vs, s.headOf f q = some (lid, l) → bits ((s.field f).reg 0x043) 32 16 ≠ 0 →
      l.waited s.ns (bits ((s.field f).reg 0x043) 32 16) = true → s.dispatching f = true →
      s.preemptFor f lid l (s.victims f q) = some (ms, vs) →
      ∃ u, exec (.preemptRequest f q) s = .next u ∧ ∀ g ∈ vs, (∃ a ∈ g.2.members, ∃ m ∈ ms, coreOf m = coreOf a) →
        ∀ c ∈ g.2.members, (s.ctx c).task.member.map (·.gid) = some g.1 → (s.ctx c).st = .ready → (u.ctx c).preq = true) ∧
    (List.find? (fun (x : Nat × Launch) => x.2.flags.getLsbD 1 && !x.2.reject && !x.2.todo.isEmpty && x.2.visits == f &&
        x.2.fmask.getLsbD f) s.launches = some (lid, l) →
      let n := if s.dispatching f = true ∧ SMap.get l.batches f [] = [] then s.placeable f lid l (Nat.min 64 l.todo.length) [] else 0
      let l' : Launch := { l with todo := l.todo.drop n, turn := nextField l.fmask f,
                                  batches := if n = 0 then l.batches else SMap.put l.batches f (l.todo.take n) }
      exec (.spanReport f) s = .next { s with launches := SMap.put s.launches lid l' }) ∧
    (SMap.find? s.launches lid = some l → l.field = f → s.over lid l = true → l.parent = none →
      writeHead f l.queue s = .ok () s1 → (SMap.get s1.launches lid l).headDone = true →
      writeCompl f l.asid l.compl l.status l.tag l.record s1 = .ok () s2 →
      exec (.launchComplete f lid) s = .next (State.bump (s2.endLaunch lid (SMap.get s1.launches lid l)))) ∧
    ∀ cid c, SMap.find? s.launches lid = some l →
      List.find? (fun (x : Nat × Launch) => x.2.parent == some (lid, node) && x.2.ended.isSome) s.launches = some (cid, c) →
      endNode f lid l node (c.ended.getD 2) (some (cid, c)) s = .ok () t → exec (.graphNodeEnd f lid node) s = .next t

/-- R336, R344 to R349, R382: a free context takes its first work: a saved task, a pattern that fires, a JOINW that
wins, a codelet, a spawned task of its core or of another. R337 to R342, R362: a message arrives at its port, is
refused, or is to be returned; a return enters its port, is refused as an arrival is, or, of a task ended by force, is lost;
refused senders retry when a slot or a context is free, or after 2 µs; the saddlebag's context wakes at its threshold.
Where the specification leaves a point open, the model's choices are in log entries 15, 18, 80. -/
def Obligations.SchedulerSteps : Prop :=
  (∀ (c : Nat) (s : State), s.canTake c = true →
     let k := coreOf c
     let x := ctxNum c
     let gives (w : Work) (t : State) : Prop := s.workFor k x = some w → exec (.contextSelect c) s = .next t
     (∀ n p, gives (.fire n p) (s.fire k x n p)) ∧ (∀ j, gives (.joined j) (s.wake j)) ∧
     (∀ r, gives (.codelet r) (s.startCodelet k x r)) ∧
     (∀ i e, gives (.pop i e) ((s.takeDeque k i).startSpawned k x e)) ∧
     (∀ v i e, gives (.steal v i e) ((s.takeDeque v i).startSpawned k x e)) ∧
     (∀ e v t, restoreEntry k x e v s = .ok () t → gives (.restore e v) t ∧
       (s.workFor k x = some (.restore e v) → exec (.contextRestore k e x) s = .next t))) ∧
  (∀ (f id k : Nat) (m : Msg) (s s' : State), (s.msg? f id = some m →
       let own (t : State) : State := (t.dropMsg f m.id).wakeMem fun c => coreOf c == m.src || some (coreOf c) == s.destOf f m
       (m.st = .flying → s.msgFirst f m = true →
         (s.arrive f m = .placed s' → exec (.messageArrive f id) s = .next (own s')) ∧
         (s.arrive f m = .refused → exec (.messageArrive f id) s = .next (s.refuse f m)) ∧
         ∀ st, s.arrive f m = .back st → exec (.messageArrive f id) s =
           .next (if st = 2 then (s.setMsg f m.id (.returning st)).portov m else s.setMsg f m.id (.returning st))) ∧
       (∀ st, m.st = .returning st →
         (s.returnMsg m st = .placed s' →
           exec (.messageReturn f id) s = .next ((s'.dropMsg f m.id).wakeMem fun c => coreOf c == m.src)) ∧
         (s.returnMsg m st = .refused → m.ended = false →
           exec (.messageReturn f id) s = .next ((s.listAt m.src m.id).1.setMsg f m.id (.retRefused st (s.listAt m.src m.id).2 s.ns))) ∧
         (s.returnMsg m st = .held → m.ended = false → exec (.messageReturn f id) s = .next s) ∧
         (m.ended = true → (∀ u, s.returnMsg m st ≠ .placed u) →
           exec (.messageReturn f id) s = .next ((s.dropMsg f m.id).logErr f .msglost
             { kind := 2, loc := locator m.src, detail := m.tag.setWidth 64 }))) ∧
       ∀ t, m.st = .refused false t → t + 2000 ≤ s.ns → s.arrive f m = .placed s' →
         exec (.refusalRetryTimer f id) s = .next (own s')) ∧
     (∀ r, (s.core k).refused = id :: r → fieldOf k = f → s.msg? f id = some m → s.retries k m = true →
       let u := s.modCore k fun c => { c with refused := c.refused.filter (· != m.id), cfree := none }
       (∀ l t, m.st = .refused l t → exec (.cfreeRetry k) s = .next (u.tryArrive f m)) ∧
       ∀ st l t, m.st = .retRefused st l t → exec (.cfreeRetry k) s = .next (u.tryReturn f m st)) ∧
     (let w := (s.core k).reg 0x045;
       w.getLsbD 63 = true → (s.core k).retired = false → (s.ctx (k * 16 + 14)).idle = true →
       (bits w 57 6 + 1 ≤ (s.core k).poolUsed ∨ (s.core k).spills ≠ []) →
       exec (.saddlebagWake k) s = .next (if (s.ctx (k * 16 + 14)).st = .asleep then s.modCtx (k * 16 + 14) Ctx.wakeUp
         else (s.modCtx (k * 16 + 14) fun y => y.startService (w &&& 0x01FFFFFFFFFFFFFC#64) (Vector.replicate 64 0) { tid := s.fresh }).bump.startAcquire k)))

/-- R350 to R353, R398: an evaluation of the rein moves a core between roles; the panel takes a snapshot and moves
deque entries; a barrier arrival is gathered hop by hop and judged at the corner, and a release goes back and ends an episode;
energy windows turn over and count what is used, of which the launches that run take their shares.
Where the specification leaves a point open, the model's choices are in log entries 55, 82, 94. -/
def Obligations.BalancerSteps : Prop :=
  ∀ (f n : Nat) (s s1 : State),
    let fd := s.field f
    (∀ bs, n < 8 → (rnReg fd 0x048 n).getLsbD 63 = true → fd.inReset = false →
      SMap.get fd.rein n 0 + bits (rnReg fd 0x04B n) 32 16 * 1000 ≤ s.ns →
      dispRead f ((rnReg fd 0x049 n).extractLsb' 48 16) (bits (rnReg fd 0x048 n) 4 53 * 16) 16 s = .ok bs s1 →
      let occ := (recNat bs 0 8 + 2 ^ 64 - recNat bs 8 8) % 2 ^ 64
      exec (.reinEvaluate f n) s =
        .next ((s1.reinMove f n occ).modField f fun fd => { fd with rein := SMap.put fd.rein n s1.ns })) ∧
    (let w := fd.reg 0x04C;
      w.getLsbD 63 = true → fd.inReset = false → fd.panel + bits w 32 16 * 1000 ≤ s.ns →
      let ks := ((List.range 320).map (f * 320 + ·)).filter fun k => (s.core k).domain == 2 && !(s.core k).retired
      let o := ks.map fun k => (k, (s.core k).ring.length + (s.core k).deque.length, (s.core k).deque.length)
      ∃ t, exec (.panelSnapshot f) s = .next t ∧ (t.field f).panel = s.ns ∧
        (t.field f).moves.map (fun m => (m.src, m.dst, m.n)) =
          fd.moves.map (fun m => (m.src, m.dst, m.n)) ++ panelCmds (bits w 0 8) (bits w 8 8) o) ∧
    (∀ m, fd.moves.find? (fun m => m.id == n) = some m → m.src ≠ m.dst → (s.core m.dst).retired = false →
      let room := dequeSize - (s.core m.dst).deque.length
      let go := takeTop (fun e => (s.core m.dst).runs e.cls) (Nat.min m.n room) (s.core m.src).deque
      ∃ t, exec (.panelMove f n) s = .next t ∧ (t.core m.src).deque = go.2 ∧
        (t.core m.dst).deque = go.1 ++ (s.core m.dst).deque) ∧
    (∀ m, fd.bars.find? (fun b => b.id == n) = some m →
      let i : BitVec 2 := BitVec.ofNat 2 m.slot
      (m.release = none → m.at_ ≠ descCorner f m.desc → ∃ t, exec (.barrierArrival f n) s = .next t ∧
        (t.field f).bars.find? (fun b => b.id == n) = some { m with
          at_ := nextHop f m.desc m.at_, others := m.others ++ (m.gather fd.bars).flatMap BarMsg.arrivals } ∧
        ∀ b ∈ m.gather fd.bars, b ∉ (t.field f).bars) ∧
      (m.release = none → m.at_ = descCorner f m.desc → exec (.barrierArrival f n) s =
        .next (((s.dropBar f n).modCore m.at_ fun c =>
          let b := c.bar i
          c.setBar i { b with arrivals := b.arrivals ++ (m.core, m.desc) :: m.others
                              judge := if b.desc.isNone then some (b.judge.getD m.desc) else b.judge }).barJudge
            m.at_ m.slot)) ∧
      ∀ mism, m.release = some mism →
        (m.at_ ≠ m.core → ∃ t, exec (.barrierRelease f n) s = .next t ∧
          (t.field f).bars.find? (fun b => b.id == n) = some { m with at_ := hopBack f m.desc m.core m.at_ }) ∧
        (m.at_ = m.core → ((s.core m.core).bar i).arrived = true →
          ∃ t, exec (.barrierRelease f n) s = .next t ∧ ((t.core m.core).bar i).arrived = false ∧
            ((t.core m.core).bar i).episode = ((s.core m.core).bar i).episode + 1)) ∧
    ∀ p, SMap.find? s.parts n = some p →
      let p' : Part := if p.window < s.ns / 1000000
        then { p with used := 0, commit := 0, window := s.ns / 1000000,
                      eovr := if 1000 * p.allow < p.used then p.eovr + 1 else p.eovr }
        else p
      exec (.energyWindow n) s = .next { s with parts := SMap.put s.parts n p' } ∧
      ∀ uj, ∃ t, exec (.energyCount n uj) s = .next t ∧ t = { s with
          parts := SMap.put s.parts n { p' with used := p'.used + uj }, launches := t.launches } ∧
        (t.launches.map fun x => x.2.used).sum ≤ (s.launches.map fun x => x.2.used).sum + uj ∧
        ∀ lid l, SMap.find? s.launches lid = some l → ∃ u, SMap.find? t.launches lid = some { l with used := l.used + u } ∧
          (s.launchRuns p lid l = false → u = 0)

/-- R379, R380, R385, R386, R392, R393: a context that runs takes its late faults; PREQ that has waited its limit
begins a save, or a stopped member is discarded, and a save that has begun goes on; a core that fails is retired; a kill and a
revocation that have nothing left to wait for write their records and end.
Where the specification leaves a point open, the model's choices are in log entries 40, 46, 89, 91. -/
def Obligations.FaultSteps : Prop :=
  ∀ (f id k : Nat) (s s1 : State),
    (∀ c, (s.ctx c).st = .ready → (s.ctx c).saving = none → (s.ctx c).sent = none → s.unresolved c = false → exec (.lateFaultTake c) s = .next (s.takeLate c)) ∧
    (∀ c, ctxNum c < 14 → (s.ctx c).preq = true → ((s.ctx c).st = .ready ∨ ∃ w, (s.ctx c).st = .waiting w) →
      (s.ctx c).saving = none → (s.ctx c).preqClk + (s.ctx c).pdl.toNat ≤ s.clk → s.canSave c = true →
      (s.unsend c).midway c = false →
      exec (.forcedSave c) s = .next (if (s.ctx c).task.stop = true then s.discard c
        else (s.unsend c).beginSave c 1 (s.reqsOf c))) ∧
    (∀ c v, (s.ctx c).saving = some v → saveOn c s = .ok () s1 → exec (.forcedSave c) s = .next s1) ∧
    ((s.core k).retired = false →
      let a := s.modCore k fun c => { c with retired := true }
      let b := (a.core k).saved.foldl (fun s v => s.endSaved k v .failedUe) a
      let d := (List.range 16).foldl (fun s x => s.failCtx (k * 16 + x)) b
      exec (.coreFailure k) s = .next ((((d.returnPorts k).moveWork k).setWear (clusterOf k) .retired).logErr (fieldOf k) .core
        { syn := 2, kind := 2, loc := locator k })) ∧
    (∀ x, (s.field f).kills.find? (fun x => x.id == id) = some x → x.begun = false →
      exec (.killComplete f id) s = .next (s.beginKill x)) ∧
    (∀ x, (s.field f).kills.find? (fun x => x.id == id) = some x → x.begun = true →
      let u := s.withdraw x.core x.tid x.cx []
      u.killDone x = true →
      writeRecord x.by_ x.asid x.record x.id [x.recs, x.items, x.dead, x.lost] u.ns u = .ok () s1 →
      exec (.killComplete f id) s = .next (s1.endKill f x)) ∧
    ∀ part p r va asid j, s.revokes.find? (fun r => r.id == id && r.part == part) = some r →
      SMap.find? s.parts part = some p → s.revokeDone p = true → r.record = some (va, asid, j) →
      writeRecord j asid va id [r.recs, r.items, r.lines, 0] s.ns s = .ok () s1 →
      ∃ t, exec (.revokeComplete part id) s = .next t ∧ (∀ x ∈ t.revokes, x.id ≠ id) ∧
        ∀ g ∈ p.fields, ((s1.field g).slot r.key).st = .revoking → ((t.field g).slot r.key).st = .revoked

/-- R19 to R21, R312, R322, R394 to R404: what each command of Slagan does when it is accepted, and its other steps. A command
that comes while REMARGIN waits for its tasks is kept, and the kept ones follow it in their order. REMARGIN at a quiet set of
fields marks OUT the clusters whose life is below one month and DERATED those below six, holds a field that fails its self-test
in reset, and names the clusters whose state has changed.
Where the specification leaves a point open, the model's choices are in log entries 97 (an allowance of 0 at PART_CREATE, and when
the field kernels start), 100, 110 to 114, 125. -/
def Obligations.SlaganSteps : Prop :=
  ∀ (via : Via) (part f : Nat) (mask passed : BitVec 16) (p : Part) (s : State), s.stopped = 0 →
    let said (t : State) (info : List Nat) : Prop := t.out = s.out ++ [.slagan via .done info]
    (via = .ethernet →
      (∀ (num : BitVec 16) (gm : Bool), num ≠ 0 → num ≠ 0xFFFF → ∃ t, exec (.modSet via num gm) s = .next t ∧
        t.modId = num.toNat ∧ t.gm = gm ∧ said t []) ∧
      (∀ fx0 fx1 fy0 fy1 n, s.partOk fx0 fx1 fy0 fy1 mask = true →
        ((List.range 8).find? fun n => (SMap.find? s.parts n).isNone) = some n →
        ∃ t, exec (.partCreate via fx0 fx1 fy0 fy1 mask passed) s = .next t ∧ said t [n] ∧ SMap.find? t.parts n =
          some { fx0 := fx0, fx1 := fx1, fy0 := fy0, fy1 := fy1, fields := rectFields fx0 fx1 fy0 fy1, allow := 0, used := 0,
                 commit := 0, window := s.ns / 1000000, eovr := 0 } ∧
          ∀ g ∈ rectFields fx0 fx1 fy0 fy1, passed.getLsbD g = true → (t.field g).inReset = false) ∧
      (SMap.find? s.parts part = some p → ∃ t, exec (.partDissolve via part) s = .next t ∧ said t [] ∧
        SMap.find? t.parts part = none ∧ ∀ g ∈ p.fields, (t.field g).inReset = true ∧ (t.field g).keys = []) ∧
      (∀ mj p, s.partNow part = some p → let ps := SMap.put s.parts part { p with allow := mj }
        (ps.map fun x => x.2.allow).sum ≤ 16000 →
        exec (.energySet via part mj) s = .next ({ s with parts := ps }.answer via .done)) ∧
      (mask ≠ 0 → s.marginOk mask = true → s.quiet mask = true → ∀ lives, ∃ t info,
        exec (.remargin via mask passed lives) s = .next t ∧ t.stopped = 0 ∧ said t info ∧
        (∀ cl, cl < 640 → (cl ∈ info ↔ (t.cluster cl).wear ≠ (s.cluster cl).wear)) ∧
        (∀ cl, cl < 640 → mask.getLsbD (fieldOfCl cl) = true → let was := (s.cluster cl).wear
          let m := (t.cluster cl).months.toNat
          (∀ mo, lives = [(cl, mo)] → m = min mo 0xFFFF) ∧
          (t.cluster cl).wear = if was = .retired then .retired else if was = .out ∨ m < 1 then .out
            else if m < 6 then .derated else was) ∧
        (∀ g, g < 16 → mask.getLsbD g = true → passed.getLsbD g = false → (t.field g).inReset = true) ∧
        ∀ cl, cl < 640 → mask.getLsbD (fieldOfCl cl) = false → t.cluster cl = s.cluster cl) ∧
      (mask ≠ 0 → s.marginOk mask = true → s.quiet mask = false → ∀ lives, ∃ t,
        exec (.remargin via mask passed lives) s = .next t ∧ t = { s with stopped := mask } ∧
        (∀ cl, exec (.retire via cl) t = .next { t with cmds := t.cmds ++ [.retire via cl] }) ∧
        ∀ cs, let u : State := { t with cmds := cs }
          exec (.remargin via mask passed lives) u = .next u) ∧
      (mask ≠ 0 → s.marginOk mask = true → s.quiet mask = true → ∀ lives cs, let u : State := { s with stopped := mask, cmds := cs }
        exec (.remargin via mask passed lives) u = .next ((u.remargin via mask passed lives).obeyAll cs)) ∧
      ∀ cl, cl < 640 → ∃ t, exec (.retire via cl) s = .next t ∧ (t.cluster cl).wear = .retired ∧
        ∀ k ∈ coresOf cl, (t.core k).retired = true) ∧
    (s.mayCommand via part = true → SMap.find? s.parts part = some p →
      (∀ key data tweak tag, key < 256 → data ≠ tweak →
        (∀ g ∈ p.fields, (SMap.get (s.field g).keys key {}).st ≠ .valid ∧ (SMap.get (s.field g).keys key {}).st ≠ .revoking) →
        ∃ t, exec (.keyLoad via part key data tweak tag) s = .next t ∧ said t [] ∧ ∀ g ∈ p.fields,
          let n := SMap.get (t.field g).keys key {}
          n.st = .valid ∧ n.data = data ∧ n.tweak = tweak ∧ n.tag = tag ∧
          (p.begun = false → (s.field g).inReset = false → (s.core (supervisor g)).retired = false →
            let y := t.ctx (supervisor g * 16 + 15)
            y.st = .ready ∧ y.lvl = true ∧ y.pc = pcField s.kernelPc)) ∧
      (∀ key, s.keyValid p key = true →
        exec (.keyRevoke via part key) s = .next ((s.revoke part p (BitVec.ofNat 8 key) none).answer via .done)) ∧
      (s.partOf f = some part → ∃ t, exec (.fnEnable via f) s = .next t ∧ (t.field f).contained = false ∧ said t []) ∧
      exec (.logRead via part) s = .next ((s.emit (.records via (s.slog.filter fun r =>
        r.part == some part || (via == .ethernet && r.part.isNone)))).answer via .done)) ∧
    (∀ cl months, cl < 640 → ∃ t, exec (.wearSample cl months) s = .next t ∧
      ((t.cluster cl).months).toNat = min months 0xFFFF) ∧
    (∀ celsius : Int, f < 16 → ∃ t, exec (.thermalStep f celsius) s = .next t ∧
      ((100 < celsius ∨ (s.field f).hot = true ∧ 95 < celsius) → 650 ≤ (s.field f).mhz →
        (t.field f).mhz = (s.field f).mhz - 50 ∧ (t.field f).hot = true) ∧
      (celsius ≤ 95 → (t.field f).mhz = (s.field f).mhz ∧ (t.field f).hot = false)) ∧
    ∀ pc : Word, ∃ t, exec (.moduleReset passed pc) s = .next t ∧ t.ctxs = [] ∧ t.parts = [] ∧ t.kernelPc = pc ∧
      t.locked = false ∧ t.stopped = 0

/-- R164, R170, R176: with a false guard an instruction only advances pc by 12; a privileged form at task level
raises PRIV before its guard counts, and SRD and SWR raise ILLOP of an undefined register, and PRIV of one that task
level may not use.
Where the specification leaves a point open, the model's choices are in log entries 41 (the checks of SRD and SWR come
before the guard), 43. -/
def Obligations.GuardAndPrivilege : Prop :=
  ∀ (h : Hdr) (s : State),
    (∀ i, Instr.hdr? i = some h → Instr.unguarded i = false → (Instr.privileged i = true → s.me.lvl = true) →
      (∀ d n, i = .srd h d n → regDefined n.toNat = true ∧ (s.me.lvl = true ∨ taskRead n.toNat = true)) →
      (∀ n b, i = .swr h n b → regDefined n.toNat = true ∧ (s.me.lvl = true ∨ taskWrite n.toNat = true)) →
      Hdr.holds h s.me = false → exec i s = .next (yldAfter h (s.setMe { s.me with pc := s.me.pc + 12, st := .ready }))) ∧
    (∀ i, Instr.privileged i = true → Instr.hdr? i = some h → s.me.lvl = false →
      exec i s = .next (s.takeTrap s.cur { cause := .priv, tval := i.tvalBits })) ∧
    (∀ (d : GReg) (n : BitVec 12), let i := Instr.srd h d n
      (regDefined n.toNat = false → exec i s = .next (s.takeTrap s.cur { cause := .illop, tval := i.tvalBits })) ∧
      (regDefined n.toNat = true → s.me.lvl = false → taskRead n.toNat = false →
        exec i s = .next (s.takeTrap s.cur { cause := .priv, tval := i.tvalBits }))) ∧
    ∀ (n : BitVec 12) (b : GReg), let i := Instr.swr h n b
      (regDefined n.toNat = false → exec i s = .next (s.takeTrap s.cur { cause := .illop, tval := i.tvalBits })) ∧
      (regDefined n.toNat = true → s.me.lvl = false → taskWrite n.toNat = false →
        exec i s = .next (s.takeTrap s.cur { cause := .priv, tval := i.tvalBits }))

/-- R376, R377, R379, R390: taking a trap writes TCAUSE, TPC, TVAL and TSAVE, raises the level and goes to
FTVEC.VEC, and changes no other register and no memory; with NEST set, or FTVEC.EN clear, the task ends FAILED_TRAP
and an error record is logged. TPC is the address of the instruction, for TRAP the next one; a late fault takes the
oldest record. RETT undoes the entry.
Where the specification leaves a point open, the model's choices are in log entry 46. -/
def Obligations.TrapEntry : Prop :=
  ∀ (c : Nat) (tr : Trap) (s : State),
    let x := s.ctx c
    let t := s.takeTrap c tr
    let y := t.ctx c
    (x.tsave.getLsbD 1 = false → x.ftvec.getLsbD 0 = true →
      y.tcause = bit tr.more ++ 0#23 ++ tr.seq ++ 0#8 ++ tr.sub ++ tr.cause.code ∧
      y.tpc = (if tr.skip then x.pc + 12 else x.pc) &&& 0x01FFFFFFFFFFFFFC#64 ∧ y.tval = tr.tval ∧
      y.tsave = (if x.lvl then 3 else 2) ∧ y.lvl = true ∧ y.pc = x.ftvec &&& 0x01FFFFFFFFFFFFFC#64 ∧
      y.g = x.g ∧ y.p = x.p ∧ y.v = x.v ∧ y.q = x.q ∧ y.fstat = x.fstat ∧ y.ftvec = x.ftvec ∧ y.utvec = x.utvec ∧
      y.utcause = x.utcause ∧ y.utpc = x.utpc ∧ y.utval = x.utval ∧ y.asidr = x.asidr ∧ y.pdl = x.pdl ∧ y.preq = x.preq ∧
      y.sqDepth = x.sqDepth ∧ y.task = x.task ∧ y.mscl = x.mscl ∧ y.shadow0 = x.shadow0 ∧ y.shadow1 = x.shadow1 ∧
      SameMemory s t ∧ (∀ d, d ≠ c → t.ctx d = s.ctx d) ∧
      ∀ h : Hdr, h.yld = false → c = s.cur → x.lates = [] → ∃ u, exec (.rett h false) t = .next u ∧
        u.me.pc = y.tpc ∧ u.me.lvl = x.lvl ∧ u.me.tsave.getLsbD 1 = false ∧ u.me.g = x.g ∧ SameMemory s u) ∧
    (x.tsave.getLsbD 1 = true → t = (s.logErr (fieldOf (coreOf c)) .dbltrap { loc := locator (coreOf c) }).endTask c .failedTrap) ∧
    (x.tsave.getLsbD 1 = false → x.ftvec.getLsbD 0 = false →
      t = (s.logErr (fieldOf (coreOf c)) .trap { loc := locator (coreOf c) }).endTask c .failedTrap) ∧
    (∀ (h : Hdr) (n : BitVec 32), On h s → ∃ tr : Trap, exec (.trap h n) s = .next (s.takeTrap s.cur tr) ∧ tr.cause = .swtrap ∧
      tr.tval = n.setWidth 64 ∧ tr.skip = true) ∧
    ∀ e es, x.lates = e :: es → x.tsave.getLsbD 1 = false → ∃ (u : State) (tr : Trap), s.takeLate c = u.takeTrap c tr ∧ (u.ctx c).pc = x.pc ∧ tr.cause = .late ∧
      tr.tval = e.addr ∧ tr.sub = e.code ∧ tr.seq = e.seq ∧ tr.more = !es.isEmpty ∧ tr.skip = false

/-- R176, R177: a step with no event due runs the instruction that the bytes at pc decode to: it is exec of it, with
what the windows of R171, items and late faults add; a word that decodes to none raises ILLOP with bits [95:32] in
TVAL; a fetch that traps takes that trap, in both cases once no open window awaits a result; an event that is due is exec
of it; a context whose deadline has passed begins its save before its next instruction, a save that has begun goes on, and a
KILL that awaits the boundary ends the task there. After an instruction the next context is planned.
Where the specification leaves a point open, the model's choices are in log entries 3 (events come before instructions, and what
comes after one is planned by the hardware), 42. -/
def Obligations.StepRunsDecoded : Prop :=
  ∀ (s : State), s.cur < numCtxs →
    (∀ e rest, s.agenda = e :: rest → step s = keepCur s.cur (exec e { s.tick with agenda := rest })) ∧
    (s.agenda = [] → s.me.saving ≠ none → step s = andPlan s.cur (runEvent (saveOn s.cur) s.tick)) ∧
    (∀ x, s.agenda = [] → s.me.issues = true → s.killDue s.cur = some x →
      step s = .next ((s.tick.beginKill x).planNext s.cur)) ∧
    (s.agenda = [] → s.me.issues = true → s.killDue s.cur = none → s.me.yieldDue = false → s.saveDue s.cur = true →
      step s = andPlan s.cur (execForcedSave s.cur s.tick)) ∧
    (s.agenda = [] → s.me.issues = true → s.killDue s.cur = none → s.me.yieldDue = false → s.saveDue s.cur = false →
      (∀ w s', fetch s.tick = .ok w s' →
        (∀ i, decode w = some i → step s = andPlan s.cur (issue exec i s') ∧
          (s'.me.windows = [] → s'.me.pend = [] → s'.me.lates = [] → (∀ h, Instr.hdr? i = some h → h.la = 0) →
            step s = andPlan s.cur (exec i s'))) ∧
        (decode w = none → s'.unresolved s'.cur = false →
          step s = .next ((s'.takeTrap s'.cur { cause := .illop, tval := w.extractLsb' 32 64 }).planNext s.cur))) ∧
      ∀ tr s', fetch s.tick = .error (.trap tr) s' → s.tick.unresolved s.tick.cur = false →
        step s = .next ((s.tick.takeTrap s.tick.cur tr).planNext s.cur))

/-- R6, R119, R167: a fetch whose pages give EX and whose lines are in the L1I reads the twelve bytes at pc,
little-endian, from one line or across two, and changes nothing; one outside paged memory raises BOUNDS. -/
def Obligations.FetchReadsBytes : Prop :=
  ∀ (s : State) (a b : BitVec 16) (x y : ILine), s.me.rim = [] →
    let va := s.me.pc.toNat
    (localBase ≤ va → ∃ s', fetch s = .error (.trap { cause := .bounds, tval := s.me.pc }) s') ∧
    (va + 11 < localBase → s.checkPaged s.acc va .fetch = .ok .paged a →
      s.checkPaged s.acc (va + 11) .fetch = .ok .paged b →
      SMap.find? (s.core s.myCore).l1i (lineKey a va) = some x →
      SMap.find? (s.core s.myCore).l1i (lineKey b (va + 11)) = some y →
      ∃ w : InstrWord, fetch s = .ok w s ∧ ∀ i, i < 96 →
        w.getLsbD i = if 8 * (va % 64) + i < 512 then x.data.getLsbD (8 * (va % 64) + i) else y.data.getLsbD (8 * (va % 64) + i - 512))

/-- Every step answers a next state, and keeps the context that issues one of the module's 81,920 (Table 01-1): no
reachable state stops the machine. -/
def Obligations.StepKeepsInv : Prop :=
  ∀ s : State, s.Inv → ∃ t, step s = .next t ∧ t.Inv

/-- R161, R394, R404: State.reset has no partition, no launch, every field in reset, and every register of every context at its
reset value: Table 08-1 gives 0 for g, p, v and q; and g0, p0 and q0 read 0, 1 and all ones, and discard writes, in every state.
The model's own choices: every byte of rim, core and shared memory reads 0 (log entry 2), no event is due before the first
instruction (log entry 4), and the values of registers for which the specification gives none (log entry 1). -/
def Obligations.ResetAndHardwired : Prop :=
  State.reset.Inv ∧ State.reset.parts = [] ∧ State.reset.launches = [] ∧ State.reset.agenda = [] ∧
  (∀ c, State.reset.ctx c = ({} : Ctx) ∧ (State.reset.ctx c).pdl = 20000 ∧ (State.reset.ctx c).fstat = 0 ∧
    (State.reset.ctx c).lvl = false ∧ (State.reset.ctx c).sqDepth = 8 ∧ (∀ r, (State.reset.ctx c).rg r = 0) ∧
    (∀ r, (State.reset.ctx c).rv r = 0) ∧ (∀ r, r ≠ 0 → (State.reset.ctx c).rq r = 0) ∧
    ∀ r, r ≠ 0 → (State.reset.ctx c).rp r = false) ∧
  (∀ f, (State.reset.field f).inReset = true ∧ Memory.wf (State.reset.field f).shm = true ∧
    Memory.wf (State.reset.field f).mem = true ∧ (∀ a, Mem.read (State.reset.field f).mem a = 0) ∧
    ∀ a, Mem.read (State.reset.field f).shm a = 0) ∧
  (∀ k, Memory.wf (State.reset.core k).cmem = true ∧ ∀ a, Mem.read (State.reset.core k).cmem a = 0) ∧
  ∀ (c : Ctx) (x : Word) (b : Bool) (y : QWord),
    c.rg 0 = 0 ∧ c.wg 0 x = c ∧ c.rp 0 = true ∧ c.wp 0 b = c ∧ c.rq 0 = BitVec.allOnes 128 ∧ c.wq 0 y = c

/-- Decoding the word of a well-formed instruction gives it back: no operand bit is dropped. -/
def Obligations.DecodeOfEncode : Prop :=
  ∀ (i : Instr) (w : InstrWord), encode i = some w → decode w = some i

/-- A word that is an instruction is the word of that instruction: each instruction has one word, and every
instruction of Table 08-9 that is well-formed has a word. -/
def Obligations.EncodeOfDecode : Prop :=
  (∀ (w : InstrWord) (i : Instr), decode w = some i → encode i = some w) ∧
  ∀ i : Instr, Instr.wf i = true → ∃ w, encode i = some w

/-- Worked encodings of the chapters: the guarded ADD and the LD.W of chapter 08, CMP.LT.W, VFMA, MMA, ACAS2, PUT,
SEND and KILL; and ADD with LA = 2, a word of OPC 0x00 and the all-zero word, which are no instructions. -/
def Obligations.DecodedWords : Prop :=
  let h : Hdr := ⟨false, 0, 0, false, false, false⟩
  decode 0x010020005005_0C0000000001#96 = some (.add { h with p := 2 } false 5 5 (.imm 1)) ∧
  decode 0x0402022060040C0000000010#96 = some (.ld { h with la := 2, str := true } .w false none 6 4 16) ∧
  decode 0x0202000C31070C00FFFFFFFB#96 = some (.cmp h .lt true 3 7 (.imm 0xFFFFFFFB)) ∧
  decode 0x11430004354104240000000A#96 =
    some (.vfma h .f32 .rup ⟨2, true⟩ 3 ⟨1, false, false⟩ (.v ⟨2, false, true⟩)) ∧
  decode 0x200000081708009000070040#96 = some (.mma h .bf16 .bf16 1 8 9 64) ∧
  decode 0x05AC0000A31420C000000020#96 = some (.acas2 h ⟨true, .ar, .adaptive, .fld⟩ 10 20 12 32) ∧
  decode 0x30040000600A4140000501FF#96 = some (.put h .sys false 6 10 20 511 1 true) ∧
  decode 0x31000000000A00C0002A1CE5#96 = some (.send h 10 12 ⟨5, 7, true, 3, 42⟩) ∧
  decode 0x3F0800004006008000000000#96 = some (.kill h 4 6 8) ∧
  decode 0x010022005005_0C0000000001#96 = none ∧ decode 0#96 = none ∧ decode 0x00010000000000000000_0000#96 = none

/-- A byte written reads back and every other address reads as before, for one byte and for a run; a write keeps the
canonical form, so that equal memories are equal data; and multi-byte values are little-endian (R6). -/
def Obligations.MemoryOperations : Prop :=
  (∀ (m : Mem) (a b : Nat) (v : Byte), Mem.read (Mem.write m a v) b = if b = a then v else Mem.read m b) ∧
  (∀ (m : Mem) (a b : Nat) (vs : List Byte), Mem.read (Mem.writeBytes m a vs) b =
    if a ≤ b ∧ b < a + vs.length then vs.getD (b - a) 0 else Mem.read m b) ∧
  (∀ (m : Mem) (a : Nat) (v : Byte), Memory.wf m = true → Memory.wf (Mem.write m a v) = true) ∧
  (∀ (m : Mem) (a : Nat) (vs : List Byte), Memory.wf m = true → Memory.wf (Mem.writeBytes m a vs) = true) ∧
  (∀ m n : Mem, Memory.wf m = true → Memory.wf n = true → (∀ a, Mem.read m a = Mem.read n a) → m = n) ∧
  ∀ (m : Mem) (a n x : Nat), bytesNat (Mem.readBytes (Mem.writeBytes m a (natBytes x n)) a n) = x % 256 ^ n

/-- The frame of the scalar register forms (OPC 0x01 to 0x03): either the instruction takes a trap, or no memory, no
other context, no system register, no flag and no register changes but its destination, and the pc. -/
def Obligations.ScalarFrame : Prop :=
  ∀ (i : Instr) (h : Hdr) (s t : State), Instr.scalar i = true → Instr.hdr? i = some h → (h.yld = true → s.me.preq = false) →
    exec i s = .next t → (∃ tr, t = s.takeTrap s.cur tr) ∨
      (SameMemory s t ∧ SameOthers s t ∧ SameSystem s.me t.me ∧ t.me.fstat = s.me.fstat ∧
        SameRegs (Instr.writes i) (Instr.predDest i) s.me t.me)

/-- The frame of the vector register forms (OPC 0x10 to 0x12): either a trap, or only the destination, the sequence
ring, the pc and, for a floating-point form, the flags [4:0], which are only set; R212. -/
def Obligations.VectorFrame : Prop :=
  ∀ (i : Instr) (h : Hdr) (s t : State), Instr.vecInt i = true ∨ Instr.vecFp i = true → Instr.hdr? i = some h →
    (h.yld = true → s.me.preq = false) → exec i s = .next t → (∃ tr, t = s.takeTrap s.cur tr) ∨
      (SameMemory s t ∧ SameOthers s t ∧ SameSystem s.me t.me ∧ SameRegs (Instr.writes i) none s.me t.me ∧
        (Instr.vecInt i = true → t.me.fstat = s.me.fstat) ∧
        ∀ n, (s.me.fstat.getLsbD n = true → t.me.fstat.getLsbD n = true) ∧ (5 ≤ n → t.me.fstat.getLsbD n = s.me.fstat.getLsbD n))

/-- The frame of plain ST and STP: no register changes; a store to core memory or field shared memory changes no
byte outside the stored bytes, and one to paged memory changes no byte of any memory, since it waits in the store
queue. -/
def Obligations.StoreFrame : Prop :=
  ∀ (h : Hdr) (sz : Sz) (d a : GReg) (e : BitVec 32) (i : Instr) (n : Nat) (asid : BitVec 16) (s t : State),
    (i = .st h sz none d a e ∧ n = Sz.bytes sz) ∨ (i = .stp h none d a e ∧ n = 16) →
    On h s → (h.yld = true → s.me.preq = false) → s.me.rim = [] → exec i s = .next t →
    let same : Prop := SameSystem s.me t.me ∧ SameRegs [] none s.me t.me ∧ t.me.fstat = s.me.fstat ∧ SameOthers s t ∧
      t.clusters = s.clusters
    let va := effAddr s.me a e
    (∀ k off, s.check s.acc va n n .store = .ok (.core k off) asid → (s.core k).fe = [] → same ∧ t.fields = s.fields ∧
      ∀ j b, (j = k → b < off ∨ off + n ≤ b) → Mem.read (t.core j).cmem b = Mem.read (s.core j).cmem b) ∧
    (∀ off, s.check s.acc va n n .store = .ok (.shared off) asid → same ∧ t.cores = s.cores ∧
      ∀ f b, (f = s.myField → b < off ∨ off + n ≤ b) → Mem.read (t.field f).shm b = Mem.read (s.field f).shm b ∧
        (t.field f).mem = (s.field f).mem) ∧
    (s.check s.acc va n n .store = .ok .paged asid → same ∧ t.fields = s.fields ∧
      ∀ j, (t.core j).cmem = (s.core j).cmem)
end

