-- ==== Sys2Proof/Laws/Dispatch.lean ====
section
/-! SUPPORT. What exec answers for each instruction and each event, by its meaning's name: one lemma per constructor. -/

namespace Sys2Proof.Machine

@[simp] theorem exec_add (h : Hdr) (w32 : Bool) (d a : GReg) (b : GI) (σ : State) :
    exec (.add h w32 d a b) σ = execAdd h w32 d a b σ := rfl
@[simp] theorem exec_sub (h : Hdr) (w32 : Bool) (d a : GReg) (b : GI) (σ : State) :
    exec (.sub h w32 d a b) σ = execSub h w32 d a b σ := rfl
@[simp] theorem exec_mul (h : Hdr) (w32 : Bool) (d a : GReg) (b : GI) (σ : State) :
    exec (.mul h w32 d a b) σ = execMul h w32 d a b σ := rfl
@[simp] theorem exec_mulh (h : Hdr) (w32 : Bool) (d a : GReg) (b : GI) (σ : State) :
    exec (.mulh h w32 d a b) σ = execMulh h w32 d a b σ := rfl
@[simp] theorem exec_mulhu (h : Hdr) (w32 : Bool) (d a : GReg) (b : GI) (σ : State) :
    exec (.mulhu h w32 d a b) σ = execMulhu h w32 d a b σ := rfl
@[simp] theorem exec_div (h : Hdr) (w32 : Bool) (d a : GReg) (b : GI) (σ : State) :
    exec (.div h w32 d a b) σ = execDiv h w32 d a b σ := rfl
@[simp] theorem exec_divu (h : Hdr) (w32 : Bool) (d a : GReg) (b : GI) (σ : State) :
    exec (.divu h w32 d a b) σ = execDivu h w32 d a b σ := rfl
@[simp] theorem exec_rem (h : Hdr) (w32 : Bool) (d a : GReg) (b : GI) (σ : State) :
    exec (.rem h w32 d a b) σ = execRem h w32 d a b σ := rfl
@[simp] theorem exec_remu (h : Hdr) (w32 : Bool) (d a : GReg) (b : GI) (σ : State) :
    exec (.remu h w32 d a b) σ = execRemu h w32 d a b σ := rfl
@[simp] theorem exec_and (h : Hdr) (w32 : Bool) (d a : GReg) (b : GI) (σ : State) :
    exec (.and h w32 d a b) σ = execAnd h w32 d a b σ := rfl
@[simp] theorem exec_or (h : Hdr) (w32 : Bool) (d a : GReg) (b : GI) (σ : State) :
    exec (.or h w32 d a b) σ = execOr h w32 d a b σ := rfl
@[simp] theorem exec_xor (h : Hdr) (w32 : Bool) (d a : GReg) (b : GI) (σ : State) :
    exec (.xor h w32 d a b) σ = execXor h w32 d a b σ := rfl
@[simp] theorem exec_andn (h : Hdr) (w32 : Bool) (d a : GReg) (b : GI) (σ : State) :
    exec (.andn h w32 d a b) σ = execAndn h w32 d a b σ := rfl
@[simp] theorem exec_orn (h : Hdr) (w32 : Bool) (d a : GReg) (b : GI) (σ : State) :
    exec (.orn h w32 d a b) σ = execOrn h w32 d a b σ := rfl
@[simp] theorem exec_shl (h : Hdr) (w32 : Bool) (d a : GReg) (b : GI) (σ : State) :
    exec (.shl h w32 d a b) σ = execShl h w32 d a b σ := rfl
@[simp] theorem exec_shr (h : Hdr) (w32 : Bool) (d a : GReg) (b : GI) (σ : State) :
    exec (.shr h w32 d a b) σ = execShr h w32 d a b σ := rfl
@[simp] theorem exec_sar (h : Hdr) (w32 : Bool) (d a : GReg) (b : GI) (σ : State) :
    exec (.sar h w32 d a b) σ = execSar h w32 d a b σ := rfl
@[simp] theorem exec_rol (h : Hdr) (w32 : Bool) (d a : GReg) (b : GI) (σ : State) :
    exec (.rol h w32 d a b) σ = execRol h w32 d a b σ := rfl
@[simp] theorem exec_ror (h : Hdr) (w32 : Bool) (d a : GReg) (b : GI) (σ : State) :
    exec (.ror h w32 d a b) σ = execRor h w32 d a b σ := rfl
@[simp] theorem exec_min (h : Hdr) (w32 : Bool) (d a : GReg) (b : GI) (σ : State) :
    exec (.min h w32 d a b) σ = execMin h w32 d a b σ := rfl
@[simp] theorem exec_max (h : Hdr) (w32 : Bool) (d a : GReg) (b : GI) (σ : State) :
    exec (.max h w32 d a b) σ = execMax h w32 d a b σ := rfl
@[simp] theorem exec_minu (h : Hdr) (w32 : Bool) (d a : GReg) (b : GI) (σ : State) :
    exec (.minu h w32 d a b) σ = execMinu h w32 d a b σ := rfl
@[simp] theorem exec_maxu (h : Hdr) (w32 : Bool) (d a : GReg) (b : GI) (σ : State) :
    exec (.maxu h w32 d a b) σ = execMaxu h w32 d a b σ := rfl
@[simp] theorem exec_clz (h : Hdr) (w32 : Bool) (d a : GReg) (σ : State) :
    exec (.clz h w32 d a) σ = execClz h w32 d a σ := rfl
@[simp] theorem exec_ctz (h : Hdr) (w32 : Bool) (d a : GReg) (σ : State) :
    exec (.ctz h w32 d a) σ = execCtz h w32 d a σ := rfl
@[simp] theorem exec_popc (h : Hdr) (w32 : Bool) (d a : GReg) (σ : State) :
    exec (.popc h w32 d a) σ = execPopc h w32 d a σ := rfl
@[simp] theorem exec_brev (h : Hdr) (w32 : Bool) (d a : GReg) (σ : State) :
    exec (.brev h w32 d a) σ = execBrev h w32 d a σ := rfl
@[simp] theorem exec_bswap (h : Hdr) (w32 : Bool) (d a : GReg) (σ : State) :
    exec (.bswap h w32 d a) σ = execBswap h w32 d a σ := rfl
@[simp] theorem exec_sext (h : Hdr) (d a : GReg) (b : GI) (σ : State) :
    exec (.sext h d a b) σ = execSext h d a b σ := rfl
@[simp] theorem exec_zext (h : Hdr) (d a : GReg) (b : GI) (σ : State) :
    exec (.zext h d a b) σ = execZext h d a b σ := rfl
@[simp] theorem exec_bfx (h : Hdr) (d a : GReg) (b : GI) (σ : State) :
    exec (.bfx h d a b) σ = execBfx h d a b σ := rfl
@[simp] theorem exec_bfi (h : Hdr) (d a : GReg) (b : GI) (σ : State) :
    exec (.bfi h d a b) σ = execBfi h d a b σ := rfl
@[simp] theorem exec_lea (h : Hdr) (d a : GReg) (b : GI) (k : BitVec 2) (σ : State) :
    exec (.lea h d a b k) σ = execLea h d a b k σ := rfl
@[simp] theorem exec_sel (h : Hdr) (d a b : GReg) (c : PSrc) (σ : State) :
    exec (.sel h d a b c) σ = execSel h d a b c σ := rfl
@[simp] theorem exec_mov (h : Hdr) (d a : GReg) (σ : State) :
    exec (.mov h d a) σ = execMov h d a σ := rfl
@[simp] theorem exec_movi (h : Hdr) (d : GReg) (imm : BitVec 32) (σ : State) :
    exec (.movi h d imm) σ = execMovi h d imm σ := rfl
@[simp] theorem exec_movhi (h : Hdr) (d : GReg) (imm : BitVec 32) (σ : State) :
    exec (.movhi h d imm) σ = execMovhi h d imm σ := rfl
@[simp] theorem exec_cmp (h : Hdr) (c : Cond) (w32 : Bool) (d : PReg) (a : GReg) (b : GI) (σ : State) :
    exec (.cmp h c w32 d a b) σ = execCmp h c w32 d a b σ := rfl
@[simp] theorem exec_pand (h : Hdr) (d : PReg) (a : PSrc) (b : PB) (σ : State) :
    exec (.pand h d a b) σ = execPand h d a b σ := rfl
@[simp] theorem exec_por (h : Hdr) (d : PReg) (a : PSrc) (b : PB) (σ : State) :
    exec (.por h d a b) σ = execPor h d a b σ := rfl
@[simp] theorem exec_pxor (h : Hdr) (d : PReg) (a : PSrc) (b : PB) (σ : State) :
    exec (.pxor h d a b) σ = execPxor h d a b σ := rfl
@[simp] theorem exec_pnot (h : Hdr) (d : PReg) (a : PSrc) (σ : State) :
    exec (.pnot h d a) σ = execPnot h d a σ := rfl
@[simp] theorem exec_pmov (h : Hdr) (d : PReg) (a : PMovSrc) (σ : State) :
    exec (.pmov h d a) σ = execPmov h d a σ := rfl
@[simp] theorem exec_pget (h : Hdr) (d : GReg) (σ : State) :
    exec (.pget h d) σ = execPget h d σ := rfl
@[simp] theorem exec_br (h : Hdr) (off : BitVec 32) (σ : State) :
    exec (.br h off) σ = execBr h off σ := rfl
@[simp] theorem exec_brl (h : Hdr) (d : GReg) (off : BitVec 32) (σ : State) :
    exec (.brl h d off) σ = execBrl h d off σ := rfl
@[simp] theorem exec_jmp (h : Hdr) (a : GReg) (e : BitVec 32) (σ : State) :
    exec (.jmp h a e) σ = execJmp h a e σ := rfl
@[simp] theorem exec_jmpl (h : Hdr) (d a : GReg) (e : BitVec 32) (σ : State) :
    exec (.jmpl h d a e) σ = execJmpl h d a e σ := rfl
@[simp] theorem exec_ret (h : Hdr) (a : GReg) (σ : State) :
    exec (.ret h a) σ = execRet h a σ := rfl
@[simp] theorem exec_loop (h : Hdr) (d : GReg) (off : BitVec 32) (σ : State) :
    exec (.loop h d off) σ = execLoop h d off σ := rfl
@[simp] theorem exec_brt (h : Hdr) (a b : GReg) (off : BitVec 32) (σ : State) :
    exec (.brt h a b off) σ = execBrt h a b off σ := rfl
@[simp] theorem exec_nop (h : Hdr) (σ : State) :
    exec (.nop h) σ = execNop h σ := rfl
@[simp] theorem exec_ld (h : Hdr) (sz : Sz) (sx : Bool) (acq : Option Scope) (d a : GReg) (e : BitVec 32) (σ : State) :
    exec (.ld h sz sx acq d a e) σ = execLd h sz sx acq d a e σ := rfl
@[simp] theorem exec_st (h : Hdr) (sz : Sz) (rel : Option Scope) (src a : GReg) (e : BitVec 32) (σ : State) :
    exec (.st h sz rel src a e) σ = execSt h sz rel src a e σ := rfl
@[simp] theorem exec_ldp (h : Hdr) (acq : Option Scope) (d a : GReg) (e : BitVec 32) (σ : State) :
    exec (.ldp h acq d a e) σ = execLdp h acq d a e σ := rfl
@[simp] theorem exec_stp (h : Hdr) (rel : Option Scope) (src a : GReg) (e : BitVec 32) (σ : State) :
    exec (.stp h rel src a e) σ = execStp h rel src a e σ := rfl
@[simp] theorem exec_ldf (h : Hdr) (dw : Bool) (d a : GReg) (e : BitVec 32) (σ : State) :
    exec (.ldf h dw d a e) σ = execLdf h dw d a e σ := rfl
@[simp] theorem exec_lde (h : Hdr) (dw : Bool) (d a : GReg) (e : BitVec 32) (σ : State) :
    exec (.lde h dw d a e) σ = execLde h dw d a e σ := rfl
@[simp] theorem exec_stf (h : Hdr) (dw : Bool) (src a : GReg) (e : BitVec 32) (σ : State) :
    exec (.stf h dw src a e) σ = execStf h dw src a e σ := rfl
@[simp] theorem exec_sete (h : Hdr) (dw : Bool) (a : GReg) (e : BitVec 32) (σ : State) :
    exec (.sete h dw a e) σ = execSete h dw a e σ := rfl
@[simp] theorem exec_pref (h : Hdr) (a : GReg) (e : BitVec 32) (σ : State) :
    exec (.pref h a e) σ = execPref h a e σ := rfl
@[simp] theorem exec_cflush (h : Hdr) (a : GReg) (e : BitVec 32) (σ : State) :
    exec (.cflush h a e) σ = execCflush h a e σ := rfl
@[simp] theorem exec_cinv (h : Hdr) (icache : Bool) (a : GReg) (e : BitVec 32) (σ : State) :
    exec (.cinv h icache a e) σ = execCinv h icache a e σ := rfl
@[simp] theorem exec_czero (h : Hdr) (a : GReg) (e : BitVec 32) (σ : State) :
    exec (.czero h a e) σ = execCzero h a e σ := rfl
@[simp] theorem exec_aadd (h : Hdr) (m : AtMode) (d a b : GReg) (e : BitVec 32) (σ : State) :
    exec (.aadd h m d a b e) σ = execAadd h m d a b e σ := rfl
@[simp] theorem exec_amin (h : Hdr) (m : AtMode) (d a b : GReg) (e : BitVec 32) (σ : State) :
    exec (.amin h m d a b e) σ = execAmin h m d a b e σ := rfl
@[simp] theorem exec_amax (h : Hdr) (m : AtMode) (d a b : GReg) (e : BitVec 32) (σ : State) :
    exec (.amax h m d a b e) σ = execAmax h m d a b e σ := rfl
@[simp] theorem exec_aminu (h : Hdr) (m : AtMode) (d a b : GReg) (e : BitVec 32) (σ : State) :
    exec (.aminu h m d a b e) σ = execAminu h m d a b e σ := rfl
@[simp] theorem exec_amaxu (h : Hdr) (m : AtMode) (d a b : GReg) (e : BitVec 32) (σ : State) :
    exec (.amaxu h m d a b e) σ = execAmaxu h m d a b e σ := rfl
@[simp] theorem exec_aand (h : Hdr) (m : AtMode) (d a b : GReg) (e : BitVec 32) (σ : State) :
    exec (.aand h m d a b e) σ = execAand h m d a b e σ := rfl
@[simp] theorem exec_aor (h : Hdr) (m : AtMode) (d a b : GReg) (e : BitVec 32) (σ : State) :
    exec (.aor h m d a b e) σ = execAor h m d a b e σ := rfl
@[simp] theorem exec_axor (h : Hdr) (m : AtMode) (d a b : GReg) (e : BitVec 32) (σ : State) :
    exec (.axor h m d a b e) σ = execAxor h m d a b e σ := rfl
@[simp] theorem exec_aswp (h : Hdr) (m : AtMode) (d a b : GReg) (e : BitVec 32) (σ : State) :
    exec (.aswp h m d a b e) σ = execAswp h m d a b e σ := rfl
@[simp] theorem exec_acas (h : Hdr) (m : AtMode) (d a b : GReg) (e : BitVec 32) (σ : State) :
    exec (.acas h m d a b e) σ = execAcas h m d a b e σ := rfl
@[simp] theorem exec_acas2 (h : Hdr) (m : AtMode) (d a b : GReg) (e : BitVec 32) (σ : State) :
    exec (.acas2 h m d a b e) σ = execAcas2 h m d a b e σ := rfl
@[simp] theorem exec_afadd (h : Hdr) (m : AtMode) (d a b : GReg) (e : BitVec 32) (σ : State) :
    exec (.afadd h m d a b e) σ = execAfadd h m d a b e σ := rfl
@[simp] theorem exec_ainc (h : Hdr) (m : AtMode) (d a b : GReg) (e : BitVec 32) (σ : State) :
    exec (.ainc h m d a b e) σ = execAinc h m d a b e σ := rfl
@[simp] theorem exec_fence (h : Hdr) (sc : Scope) (kld kst keng klnk : Bool) (σ : State) :
    exec (.fence h sc kld kst keng klnk) σ = execFence h sc kld kst keng klnk σ := rfl
@[simp] theorem exec_waita (h : Hdr) (c : Cond) (dw acq : Bool) (sc : Scope) (d a b : GReg) (e : BitVec 32) (σ : State) :
    exec (.waita h c dw acq sc d a b e) σ = execWaita h c dw acq sc d a b e σ := rfl
@[simp] theorem exec_waitn (h : Hdr) (b : GI) (σ : State) :
    exec (.waitn h b) σ = execWaitn h b σ := rfl
@[simp] theorem exec_barset (h : Hdr) (d a : GReg) (slot : BitVec 2) (σ : State) :
    exec (.barset h d a slot) σ = execBarset h d a slot σ := rfl
@[simp] theorem exec_bararr (h : Hdr) (d : GReg) (slot : BitVec 2) (σ : State) :
    exec (.bararr h d slot) σ = execBararr h d slot σ := rfl
@[simp] theorem exec_barwait (h : Hdr) (d a : GReg) (slot : BitVec 2) (σ : State) :
    exec (.barwait h d a slot) σ = execBarwait h d a slot σ := rfl
@[simp] theorem exec_chk (h : Hdr) (d : GReg) (σ : State) :
    exec (.chk h d) σ = execChk h d σ := rfl
@[simp] theorem exec_yield (h : Hdr) (σ : State) :
    exec (.yield h) σ = execYield h σ := rfl
@[simp] theorem exec_vadd (h : Hdr) (t : ETy) (m : VMask) (sat : Bool) (d : VReg) (x : VSrc) (y : VB) (σ : State) :
    exec (.vadd h t m sat d x y) σ = execVadd h t m sat d x y σ := rfl
@[simp] theorem exec_vsub (h : Hdr) (t : ETy) (m : VMask) (sat : Bool) (d : VReg) (x : VSrc) (y : VB) (σ : State) :
    exec (.vsub h t m sat d x y) σ = execVsub h t m sat d x y σ := rfl
@[simp] theorem exec_vmul (h : Hdr) (t : ETy) (m : VMask) (d : VReg) (x : VSrc) (y : VB) (σ : State) :
    exec (.vmul h t m d x y) σ = execVmul h t m d x y σ := rfl
@[simp] theorem exec_vmulh (h : Hdr) (t : ETy) (m : VMask) (d : VReg) (x : VSrc) (y : VB) (σ : State) :
    exec (.vmulh h t m d x y) σ = execVmulh h t m d x y σ := rfl
@[simp] theorem exec_vmin (h : Hdr) (t : ETy) (m : VMask) (d : VReg) (x : VSrc) (y : VB) (σ : State) :
    exec (.vmin h t m d x y) σ = execVmin h t m d x y σ := rfl
@[simp] theorem exec_vmax (h : Hdr) (t : ETy) (m : VMask) (d : VReg) (x : VSrc) (y : VB) (σ : State) :
    exec (.vmax h t m d x y) σ = execVmax h t m d x y σ := rfl
@[simp] theorem exec_vminu (h : Hdr) (t : ETy) (m : VMask) (d : VReg) (x : VSrc) (y : VB) (σ : State) :
    exec (.vminu h t m d x y) σ = execVminu h t m d x y σ := rfl
@[simp] theorem exec_vmaxu (h : Hdr) (t : ETy) (m : VMask) (d : VReg) (x : VSrc) (y : VB) (σ : State) :
    exec (.vmaxu h t m d x y) σ = execVmaxu h t m d x y σ := rfl
@[simp] theorem exec_vand (h : Hdr) (t : ETy) (m : VMask) (d : VReg) (x : VSrc) (y : VB) (σ : State) :
    exec (.vand h t m d x y) σ = execVand h t m d x y σ := rfl
@[simp] theorem exec_vor (h : Hdr) (t : ETy) (m : VMask) (d : VReg) (x : VSrc) (y : VB) (σ : State) :
    exec (.vor h t m d x y) σ = execVor h t m d x y σ := rfl
@[simp] theorem exec_vxor (h : Hdr) (t : ETy) (m : VMask) (d : VReg) (x : VSrc) (y : VB) (σ : State) :
    exec (.vxor h t m d x y) σ = execVxor h t m d x y σ := rfl
@[simp] theorem exec_vshl (h : Hdr) (t : ETy) (m : VMask) (d : VReg) (x : VSrc) (y : VB) (σ : State) :
    exec (.vshl h t m d x y) σ = execVshl h t m d x y σ := rfl
@[simp] theorem exec_vshr (h : Hdr) (t : ETy) (m : VMask) (d : VReg) (x : VSrc) (y : VB) (σ : State) :
    exec (.vshr h t m d x y) σ = execVshr h t m d x y σ := rfl
@[simp] theorem exec_vsar (h : Hdr) (t : ETy) (m : VMask) (d : VReg) (x : VSrc) (y : VB) (σ : State) :
    exec (.vsar h t m d x y) σ = execVsar h t m d x y σ := rfl
@[simp] theorem exec_vabs (h : Hdr) (t : ETy) (m : VMask) (sat : Bool) (d : VReg) (x : VSrc) (σ : State) :
    exec (.vabs h t m sat d x) σ = execVabs h t m sat d x σ := rfl
@[simp] theorem exec_vneg (h : Hdr) (t : ETy) (m : VMask) (sat : Bool) (d : VReg) (x : VSrc) (σ : State) :
    exec (.vneg h t m sat d x) σ = execVneg h t m sat d x σ := rfl
@[simp] theorem exec_vcmp (h : Hdr) (c : Cond) (t : ETy) (m : VMask) (d : QReg) (x : VSrc) (y : VB) (σ : State) :
    exec (.vcmp h c t m d x y) σ = execVcmp h c t m d x y σ := rfl
@[simp] theorem exec_vsel (h : Hdr) (t : ETy) (m : VMask) (d : VReg) (x : VSrc) (y : VB) (σ : State) :
    exec (.vsel h t m d x y) σ = execVsel h t m d x y σ := rfl
@[simp] theorem exec_vpopc (h : Hdr) (t : ETy) (m : VMask) (d : VReg) (x : VSrc) (σ : State) :
    exec (.vpopc h t m d x) σ = execVpopc h t m d x σ := rfl
@[simp] theorem exec_vfadd (h : Hdr) (t : ETy) (r : RMode) (m : VMask) (d : VReg) (x : VSrc) (y : VG) (σ : State) :
    exec (.vfadd h t r m d x y) σ = execVfadd h t r m d x y σ := rfl
@[simp] theorem exec_vfsub (h : Hdr) (t : ETy) (r : RMode) (m : VMask) (d : VReg) (x : VSrc) (y : VG) (σ : State) :
    exec (.vfsub h t r m d x y) σ = execVfsub h t r m d x y σ := rfl
@[simp] theorem exec_vfmul (h : Hdr) (t : ETy) (r : RMode) (m : VMask) (d : VReg) (x : VSrc) (y : VG) (σ : State) :
    exec (.vfmul h t r m d x y) σ = execVfmul h t r m d x y σ := rfl
@[simp] theorem exec_vfma (h : Hdr) (t : ETy) (r : RMode) (m : VMask) (d : VReg) (x : VSrc) (y : VG) (σ : State) :
    exec (.vfma h t r m d x y) σ = execVfma h t r m d x y σ := rfl
@[simp] theorem exec_vfms (h : Hdr) (t : ETy) (r : RMode) (m : VMask) (d : VReg) (x : VSrc) (y : VG) (σ : State) :
    exec (.vfms h t r m d x y) σ = execVfms h t r m d x y σ := rfl
@[simp] theorem exec_vfnma (h : Hdr) (t : ETy) (r : RMode) (m : VMask) (d : VReg) (x : VSrc) (y : VG) (σ : State) :
    exec (.vfnma h t r m d x y) σ = execVfnma h t r m d x y σ := rfl
@[simp] theorem exec_vfdiv (h : Hdr) (t : ETy) (r : RMode) (m : VMask) (d : VReg) (x : VSrc) (y : VG) (σ : State) :
    exec (.vfdiv h t r m d x y) σ = execVfdiv h t r m d x y σ := rfl
@[simp] theorem exec_vfsqrt (h : Hdr) (t : ETy) (r : RMode) (m : VMask) (d : VReg) (x : VSrc) (σ : State) :
    exec (.vfsqrt h t r m d x) σ = execVfsqrt h t r m d x σ := rfl
@[simp] theorem exec_vfrcp (h : Hdr) (t : ETy) (r : RMode) (m : VMask) (d : VReg) (x : VSrc) (σ : State) :
    exec (.vfrcp h t r m d x) σ = execVfrcp h t r m d x σ := rfl
@[simp] theorem exec_vfrsq (h : Hdr) (t : ETy) (r : RMode) (m : VMask) (d : VReg) (x : VSrc) (σ : State) :
    exec (.vfrsq h t r m d x) σ = execVfrsq h t r m d x σ := rfl
@[simp] theorem exec_vfexp2 (h : Hdr) (t : ETy) (r : RMode) (m : VMask) (d : VReg) (x : VSrc) (σ : State) :
    exec (.vfexp2 h t r m d x) σ = execVfexp2 h t r m d x σ := rfl
@[simp] theorem exec_vflog2 (h : Hdr) (t : ETy) (r : RMode) (m : VMask) (d : VReg) (x : VSrc) (σ : State) :
    exec (.vflog2 h t r m d x) σ = execVflog2 h t r m d x σ := rfl
@[simp] theorem exec_vfmin (h : Hdr) (t : ETy) (m : VMask) (d : VReg) (x : VSrc) (y : VG) (σ : State) :
    exec (.vfmin h t m d x y) σ = execVfmin h t m d x y σ := rfl
@[simp] theorem exec_vfmax (h : Hdr) (t : ETy) (m : VMask) (d : VReg) (x : VSrc) (y : VG) (σ : State) :
    exec (.vfmax h t m d x y) σ = execVfmax h t m d x y σ := rfl
@[simp] theorem exec_vfcmp (h : Hdr) (c : Cond) (t : ETy) (m : VMask) (d : QReg) (x : VSrc) (y : VG) (σ : State) :
    exec (.vfcmp h c t m d x y) σ = execVfcmp h c t m d x y σ := rfl
@[simp] theorem exec_vfclass (h : Hdr) (t : ETy) (m : VMask) (d : VReg) (x : VSrc) (σ : State) :
    exec (.vfclass h t m d x) σ = execVfclass h t m d x σ := rfl
@[simp] theorem exec_vfcvt (h : Hdr) (t : ETy) (r : RMode) (m : VMask) (sat : Bool) (st : ETy) (part : BitVec 4) (d : VReg) (x : VSrc) (σ : State) :
    exec (.vfcvt h t r m sat st part d x) σ = execVfcvt h t r m sat st part d x σ := rfl
@[simp] theorem exec_vfscl (h : Hdr) (t : ETy) (r : RMode) (m : VMask) (blk : BitVec 2) (inv : Bool) (d : VReg) (x : VSrc) (y : VReg) (σ : State) :
    exec (.vfscl h t r m blk inv d x y) σ = execVfscl h t r m blk inv d x y σ := rfl
@[simp] theorem exec_vradd (h : Hdr) (t : ETy) (msk : QReg) (d : GReg) (x : VSrc) (σ : State) :
    exec (.vradd h t msk d x) σ = execVradd h t msk d x σ := rfl
@[simp] theorem exec_vrmin (h : Hdr) (t : ETy) (msk : QReg) (uns : Bool) (d : GReg) (x : VSrc) (σ : State) :
    exec (.vrmin h t msk uns d x) σ = execVrmin h t msk uns d x σ := rfl
@[simp] theorem exec_vrmax (h : Hdr) (t : ETy) (msk : QReg) (uns : Bool) (d : GReg) (x : VSrc) (σ : State) :
    exec (.vrmax h t msk uns d x) σ = execVrmax h t msk uns d x σ := rfl
@[simp] theorem exec_vfradd (h : Hdr) (t : ETy) (r : RMode) (msk : QReg) (d : GReg) (x : VSrc) (σ : State) :
    exec (.vfradd h t r msk d x) σ = execVfradd h t r msk d x σ := rfl
@[simp] theorem exec_vfrmax (h : Hdr) (t : ETy) (msk : QReg) (d : GReg) (x : VSrc) (σ : State) :
    exec (.vfrmax h t msk d x) σ = execVfrmax h t msk d x σ := rfl
@[simp] theorem exec_vperm (h : Hdr) (t : ETy) (m : VMask) (d : VReg) (x y : VSrc) (σ : State) :
    exec (.vperm h t m d x y) σ = execVperm h t m d x y σ := rfl
@[simp] theorem exec_vslide (h : Hdr) (t : ETy) (m : VMask) (d : VReg) (x : VSrc) (k : GI16) (σ : State) :
    exec (.vslide h t m d x k) σ = execVslide h t m d x k σ := rfl
@[simp] theorem exec_vbcast (h : Hdr) (t : ETy) (m : VMask) (d : VReg) (a : GReg) (σ : State) :
    exec (.vbcast h t m d a) σ = execVbcast h t m d a σ := rfl
@[simp] theorem exec_vext (h : Hdr) (t : ETy) (d : GReg) (x : VSrc) (k : GI16) (σ : State) :
    exec (.vext h t d x k) σ = execVext h t d x k σ := rfl
@[simp] theorem exec_vins (h : Hdr) (t : ETy) (d : VReg) (a : GReg) (k : GI16) (σ : State) :
    exec (.vins h t d a k) σ = execVins h t d a k σ := rfl
@[simp] theorem exec_vcmpr (h : Hdr) (t : ETy) (m : VMask) (d : VReg) (x : VSrc) (σ : State) :
    exec (.vcmpr h t m d x) σ = execVcmpr h t m d x σ := rfl
@[simp] theorem exec_vexpd (h : Hdr) (t : ETy) (m : VMask) (d : VReg) (x : VSrc) (σ : State) :
    exec (.vexpd h t m d x) σ = execVexpd h t m d x σ := rfl
@[simp] theorem exec_vzip (h : Hdr) (t : ETy) (m : VMask) (hi : Bool) (d : VReg) (x y : VSrc) (σ : State) :
    exec (.vzip h t m hi d x y) σ = execVzip h t m hi d x y σ := rfl
@[simp] theorem exec_vunzip (h : Hdr) (t : ETy) (m : VMask) (odd : Bool) (d : VReg) (x y : VSrc) (σ : State) :
    exec (.vunzip h t m odd d x y) σ = execVunzip h t m odd d x y σ := rfl
@[simp] theorem exec_viota (h : Hdr) (t : ETy) (m : VMask) (d : VReg) (σ : State) :
    exec (.viota h t m d) σ = execViota h t m d σ := rfl
@[simp] theorem exec_qand (h : Hdr) (d a b : QReg) (σ : State) :
    exec (.qand h d a b) σ = execQand h d a b σ := rfl
@[simp] theorem exec_qor (h : Hdr) (d a b : QReg) (σ : State) :
    exec (.qor h d a b) σ = execQor h d a b σ := rfl
@[simp] theorem exec_qxor (h : Hdr) (d a b : QReg) (σ : State) :
    exec (.qxor h d a b) σ = execQxor h d a b σ := rfl
@[simp] theorem exec_qnot (h : Hdr) (d a : QReg) (σ : State) :
    exec (.qnot h d a) σ = execQnot h d a σ := rfl
@[simp] theorem exec_qcnt (h : Hdr) (t : ETy) (d : GReg) (a : QReg) (σ : State) :
    exec (.qcnt h t d a) σ = execQcnt h t d a σ := rfl
@[simp] theorem exec_vld (h : Hdr) (t : ETy) (m : VMask) (d : VReg) (a : GReg) (e : BitVec 16) (σ : State) :
    exec (.vld h t m d a e) σ = execVld h t m d a e σ := rfl
@[simp] theorem exec_vst (h : Hdr) (t : ETy) (msk : QReg) (s : VReg) (a : GReg) (e : BitVec 16) (σ : State) :
    exec (.vst h t msk s a e) σ = execVst h t msk s a e σ := rfl
@[simp] theorem exec_vlds (h : Hdr) (t : ETy) (m : VMask) (d : VReg) (a b : GReg) (e : BitVec 16) (σ : State) :
    exec (.vlds h t m d a b e) σ = execVlds h t m d a b e σ := rfl
@[simp] theorem exec_vsts (h : Hdr) (t : ETy) (msk : QReg) (s : VReg) (a b : GReg) (e : BitVec 16) (σ : State) :
    exec (.vsts h t msk s a b e) σ = execVsts h t msk s a b e σ := rfl
@[simp] theorem exec_vgath (h : Hdr) (t : ETy) (m : VMask) (k : BitVec 2) (d : VReg) (a : GReg) (x : VReg) (e : BitVec 16) (σ : State) :
    exec (.vgath h t m k d a x e) σ = execVgath h t m k d a x e σ := rfl
@[simp] theorem exec_vscat (h : Hdr) (t : ETy) (msk : QReg) (k : BitVec 2) (s : VReg) (a : GReg) (x : VReg) (e : BitVec 16) (σ : State) :
    exec (.vscat h t msk k s a x e) σ = execVscat h t msk k s a x e σ := rfl
@[simp] theorem exec_vldf (h : Hdr) (t : ETy) (m : VMask) (d : VReg) (a : GReg) (e : BitVec 16) (σ : State) :
    exec (.vldf h t m d a e) σ = execVldf h t m d a e σ := rfl
@[simp] theorem exec_vamo (h : Hdr) (t : ETy) (m : VMask) (op : AtOp) (ord : Order) (pl : Place) (sc : Scope) (k : BitVec 2) (d : VReg) (a : GReg) (x : VReg) (e : BitVec 16) (σ : State) :
    exec (.vamo h t m op ord pl sc k d a x e) σ = execVamo h t m op ord pl sc k d a x e σ := rfl
@[simp] theorem exec_mma (h : Hdr) (ta tb : ETy) (d : AReg) (a b : GReg) (k : BitVec 16) (σ : State) :
    exec (.mma h ta tb d a b k) σ = execMma h ta tb d a b k σ := rfl
@[simp] theorem exec_mcnt (h : Hdr) (ta tb : ETy) (a b : GReg) (k : BitVec 7) (bank : Bool) (σ : State) :
    exec (.mcnt h ta tb a b k bank) σ = execMcnt h ta tb a b k bank σ := rfl
@[simp] theorem exec_mdrain (h : Hdr) (d : AReg) (bank : Bool) (σ : State) :
    exec (.mdrain h d bank) σ = execMdrain h d bank σ := rfl
@[simp] theorem exec_mmerge (h : Hdr) (σ : State) :
    exec (.mmerge h) σ = execMmerge h σ := rfl
@[simp] theorem exec_mzero (h : Hdr) (d : AReg) (σ : State) :
    exec (.mzero h d) σ = execMzero h d σ := rfl
@[simp] theorem exec_mld (h : Hdr) (t : ETy) (d : AReg) (a b : GReg) (rows cols : BitVec 7) (σ : State) :
    exec (.mld h t d a b rows cols) σ = execMld h t d a b rows cols σ := rfl
@[simp] theorem exec_mst (h : Hdr) (t : ETy) (r : RMode) (sat : Bool) (d : AReg) (a b : GReg) (rows cols : BitVec 7) (σ : State) :
    exec (.mst h t r sat d a b rows cols) σ = execMst h t r sat d a b rows cols σ := rfl
@[simp] theorem exec_mscl (h : Hdr) (a b : GReg) (aen ben ablk bblk : Bool) (σ : State) :
    exec (.mscl h a b aen ben ablk bblk) σ = execMscl h a b aen ben ablk bblk σ := rfl
@[simp] theorem exec_mwait (h : Hdr) (σ : State) :
    exec (.mwait h) σ = execMwait h σ := rfl
@[simp] theorem exec_mcfg (h : Hdr) (d : GReg) (claim release : BitVec 5) (σ : State) :
    exec (.mcfg h d claim release) σ = execMcfg h d claim release σ := rfl
@[simp] theorem exec_mbcast (h : Hdr) (d a b : GReg) (bus : Bool) (mask : BitVec 8) (len : BitVec 16) (σ : State) :
    exec (.mbcast h d a b bus mask len) σ = execMbcast h d a b bus mask len σ := rfl
@[simp] theorem exec_mqw (h : Hdr) (b : GI) (σ : State) :
    exec (.mqw h b) σ = execMqw h b σ := rfl
@[simp] theorem exec_tdecl (h : Hdr) (d a b : GReg) (lgs : BitVec 2) (σ : State) :
    exec (.tdecl h d a b lgs) σ = execTdecl h d a b lgs σ := rfl
@[simp] theorem exec_trel (h : Hdr) (d a : GReg) (σ : State) :
    exec (.trel h d a) σ = execTrel h d a σ := rfl
@[simp] theorem exec_tfwd (h : Hdr) (d a b : GReg) (give : Bool) (σ : State) :
    exec (.tfwd h d a b give) σ = execTfwd h d a b give σ := rfl
@[simp] theorem exec_town (h : Hdr) (d a : GReg) (σ : State) :
    exec (.town h d a) σ = execTown h d a σ := rfl
@[simp] theorem exec_tqry (h : Hdr) (d a : GReg) (σ : State) :
    exec (.tqry h d a) σ = execTqry h d a σ := rfl
@[simp] theorem exec_cpy (h : Hdr) (d a : GReg) (ch : BitVec 2) (σ : State) :
    exec (.cpy h d a ch) σ = execCpy h d a ch σ := rfl
@[simp] theorem exec_cchain (h : Hdr) (a : GReg) (ch : BitVec 2) (σ : State) :
    exec (.cchain h a ch) σ = execCchain h a ch σ := rfl
@[simp] theorem exec_ccancel (h : Hdr) (d : GReg) (ch : BitVec 2) (all : Bool) (σ : State) :
    exec (.ccancel h d ch all) σ = execCcancel h d ch all σ := rfl
@[simp] theorem exec_cqry (h : Hdr) (d : GReg) (ch : BitVec 2) (σ : State) :
    exec (.cqry h d ch) σ = execCqry h d ch σ := rfl
@[simp] theorem exec_put (h : Hdr) (sc : Scope) (dk : Bool) (d a b : GReg) (len : BitVec 16) (vc : BitVec 2) (cen : Bool) (σ : State) :
    exec (.put h sc dk d a b len vc cen) σ = execPut h sc dk d a b len vc cen σ := rfl
@[simp] theorem exec_putv (h : Hdr) (sc : Scope) (dk : Bool) (d a : GReg) (b : VReg) (len : BitVec 4) (vc : BitVec 2) (cen : Bool) (σ : State) :
    exec (.putv h sc dk d a b len vc cen) σ = execPutv h sc dk d a b len vc cen σ := rfl
@[simp] theorem exec_ramo (h : Hdr) (op : AtOp) (dw : Bool) (ord : Order) (sc : Scope) (d a b : GReg) (vc : BitVec 2) (σ : State) :
    exec (.ramo h op dw ord sc d a b vc) σ = execRamo h op dw ord sc d a b vc σ := rfl
@[simp] theorem exec_send (h : Hdr) (a b : GReg) (m : MsgImm) (σ : State) :
    exec (.send h a b m) σ = execSend h a b m σ := rfl
@[simp] theorem exec_sendv (h : Hdr) (a : GReg) (b : VReg) (m : MsgImm) (σ : State) :
    exec (.sendv h a b m) σ = execSendv h a b m σ := rfl
@[simp] theorem exec_pcfg (h : Hdr) (d a : GReg) (port : BitVec 5) (σ : State) :
    exec (.pcfg h d a port) σ = execPcfg h d a port σ := rfl
@[simp] theorem exec_jcfg (h : Hdr) (d a : GReg) (pat : BitVec 4) (σ : State) :
    exec (.jcfg h d a pat) σ = execJcfg h d a pat σ := rfl
@[simp] theorem exec_jena (h : Hdr) (d : GReg) (b : GI) (σ : State) :
    exec (.jena h d b) σ = execJena h d b σ := rfl
@[simp] theorem exec_jdis (h : Hdr) (d : GReg) (b : GI) (σ : State) :
    exec (.jdis h d b) σ = execJdis h d b σ := rfl
@[simp] theorem exec_mtake (h : Hdr) (d a : GReg) (port : BitVec 5) (spl : Bool) (σ : State) :
    exec (.mtake h d a port spl) σ = execMtake h d a port spl σ := rfl
@[simp] theorem exec_mreplay (h : Hdr) (d a : GReg) (σ : State) :
    exec (.mreplay h d a) σ = execMreplay h d a σ := rfl
@[simp] theorem exec_spawn (h : Hdr) (d a b : GReg) (cls : BitVec 2) (σ : State) :
    exec (.spawn h d a b cls) σ = execSpawn h d a b cls σ := rfl
@[simp] theorem exec_joinw (h : Hdr) (d : GReg) (pat : BitVec 4) (free : Bool) (σ : State) :
    exec (.joinw h d pat free) σ = execJoinw h d pat free σ := rfl
@[simp] theorem exec_carm (h : Hdr) (d a b : GReg) (cls : BitVec 2) (σ : State) :
    exec (.carm h d a b cls) σ = execCarm h d a b cls σ := rfl
@[simp] theorem exec_cdec (h : Hdr) (d a : GReg) (b : GI) (σ : State) :
    exec (.cdec h d a b) σ = execCdec h d a b σ := rfl
@[simp] theorem exec_texit (h : Hdr) (σ : State) :
    exec (.texit h) σ = execTexit h σ := rfl
@[simp] theorem exec_sqcfg (h : Hdr) (b : GI) (σ : State) :
    exec (.sqcfg h b) σ = execSqcfg h b σ := rfl
@[simp] theorem exec_stlcfg (h : Hdr) (b : GI) (σ : State) :
    exec (.stlcfg h b) σ = execStlcfg h b σ := rfl
@[simp] theorem exec_trap (h : Hdr) (n : BitVec 32) (σ : State) :
    exec (.trap h n) σ = execTrap h n σ := rfl
@[simp] theorem exec_rett (h : Hdr) (u : Bool) (σ : State) :
    exec (.rett h u) σ = execRett h u σ := rfl
@[simp] theorem exec_srd (h : Hdr) (d : GReg) (num : BitVec 12) (σ : State) :
    exec (.srd h d num) σ = execSrd h d num σ := rfl
@[simp] theorem exec_swr (h : Hdr) (num : BitVec 12) (b : GReg) (σ : State) :
    exec (.swr h num b) σ = execSwr h num b σ := rfl
@[simp] theorem exec_rdtime (h : Hdr) (d : GReg) (pts : Bool) (σ : State) :
    exec (.rdtime h d pts) σ = execRdtime h d pts σ := rfl
@[simp] theorem exec_brk (h : Hdr) (n : BitVec 16) (σ : State) :
    exec (.brk h n) σ = execBrk h n σ := rfl
@[simp] theorem exec_cxsave (h : Hdr) (d a : GReg) (ctx : BitVec 4) (σ : State) :
    exec (.cxsave h d a ctx) σ = execCxsave h d a ctx σ := rfl
@[simp] theorem exec_cxload (h : Hdr) (d a : GReg) (ctx : BitVec 4) (σ : State) :
    exec (.cxload h d a ctx) σ = execCxload h d a ctx σ := rfl
@[simp] theorem exec_kill (h : Hdr) (d a b : GReg) (σ : State) :
    exec (.kill h d a b) σ = execKill h d a b σ := rfl
@[simp] theorem exec_krevoke (h : Hdr) (d a b : GReg) (σ : State) :
    exec (.krevoke h d a b) σ = execKrevoke h d a b σ := rfl
@[simp] theorem exec_enrg (h : Hdr) (d : GReg) (σ : State) :
    exec (.enrg h d) σ = execEnrg h d σ := rfl
@[simp] theorem exec_halt (h : Hdr) (σ : State) :
    exec (.halt h) σ = execHalt h σ := rfl
@[simp] theorem exec_seqrd (h : Hdr) (d a : GReg) (part : BitVec 2) (σ : State) :
    exec (.seqrd h d a part) σ = execSeqrd h d a part σ := rfl
@[simp] theorem exec_ill (h : Hdr) (σ : State) :
    exec (.ill h) σ = execIll h σ := rfl
@[simp] theorem exec_registerWrite (c : Nat) (num : Nat) (v : Word) (σ : State) :
    exec (.registerWrite c num v) σ = execRegisterWrite c num v σ := rfl
@[simp] theorem exec_hostBarWrite (f : Nat) (num : Nat) (v : Word) (σ : State) :
    exec (.hostBarWrite f num v) σ = execHostBarWrite f num v σ := rfl
@[simp] theorem exec_windowEnable (f w : Nat) (v : Word) (σ : State) :
    exec (.windowEnable f w v) σ = execWindowEnable f w v σ := rfl
@[simp] theorem exec_windowDisable (f w : Nat) (v : Word) (σ : State) :
    exec (.windowDisable f w v) σ = execWindowDisable f w v σ := rfl
@[simp] theorem exec_cbdataWrite (f : Nat) (v : Word) (σ : State) :
    exec (.cbdataWrite f v) σ = execCbdataWrite f v σ := rfl
@[simp] theorem exec_cbdataRead (f : Nat) (σ : State) :
    exec (.cbdataRead f) σ = execCbdataRead f σ := rfl
@[simp] theorem exec_scrubcfWrite (f : Nat) (v : Word) (σ : State) :
    exec (.scrubcfWrite f v) σ = execScrubcfWrite f v σ := rfl
@[simp] theorem exec_scrubLine (f ctl : Nat) (e : LineErr) (σ : State) :
    exec (.scrubLine f ctl e) σ = execScrubLine f ctl e σ := rfl
@[simp] theorem exec_ucieFlitReplay (f ctl : Nat) (σ : State) :
    exec (.ucieFlitReplay f ctl) σ = execUcieFlitReplay f ctl σ := rfl
@[simp] theorem exec_ucieLinkDegrade (f ctl : Nat) (failed : Bool) (σ : State) :
    exec (.ucieLinkDegrade f ctl failed) σ = execUcieLinkDegrade f ctl failed σ := rfl
@[simp] theorem exec_rimRequest (f id : Nat) (σ : State) :
    exec (.rimRequest f id) σ = execRimRequest f id σ := rfl
@[simp] theorem exec_pageWalkDone (f id : Nat) (σ : State) :
    exec (.pageWalkDone f id) σ = execPageWalkDone f id σ := rfl
@[simp] theorem exec_faultMessageDeliver (f : Nat) (σ : State) :
    exec (.faultMessageDeliver f) σ = execFaultMessageDeliver f σ := rfl
@[simp] theorem exec_hbmReadComplete (f id : Nat) (e : LineErr) (σ : State) :
    exec (.hbmReadComplete f id e) σ = execHbmReadComplete f id e σ := rfl
@[simp] theorem exec_xinvPage (f : Nat) (v : Word) (σ : State) :
    exec (.xinvPage f v) σ = execXinvPage f v σ := rfl
@[simp] theorem exec_xinvAsid (f : Nat) (v : Word) (σ : State) :
    exec (.xinvAsid f v) σ = execXinvAsid f v σ := rfl
@[simp] theorem exec_xinvAll (f : Nat) (v : Word) (σ : State) :
    exec (.xinvAll f v) σ = execXinvAll f v σ := rfl
@[simp] theorem exec_xinvReserved (f : Nat) (v : Word) (σ : State) :
    exec (.xinvReserved f v) σ = execXinvReserved f v σ := rfl
@[simp] theorem exec_xinvComplete (f : Nat) (σ : State) :
    exec (.xinvComplete f) σ = execXinvComplete f σ := rfl
@[simp] theorem exec_parkRetry (f : Nat) (v : Word) (σ : State) :
    exec (.parkRetry f v) σ = execParkRetry f v σ := rfl
@[simp] theorem exec_parkFail (f : Nat) (v : Word) (σ : State) :
    exec (.parkFail f v) σ = execParkFail f v σ := rfl
@[simp] theorem exec_parkTimeoutSave (c : Nat) (σ : State) :
    exec (.parkTimeoutSave c) σ = execParkTimeoutSave c σ := rfl
@[simp] theorem exec_migrationStart (f : Nat) (v : Word) (σ : State) :
    exec (.migrationStart f v) σ = execMigrationStart f v σ := rfl
@[simp] theorem exec_migrationRoundEnd (f slot : Nat) (σ : State) :
    exec (.migrationRoundEnd f slot) σ = execMigrationRoundEnd f slot σ := rfl
@[simp] theorem exec_migrationComplete (f slot : Nat) (σ : State) :
    exec (.migrationComplete f slot) σ = execMigrationComplete f slot σ := rfl
@[simp] theorem exec_homeRds (f id : Nat) (σ : State) :
    exec (.homeRds f id) σ = execHomeRds f id σ := rfl
@[simp] theorem exec_homeOwn (f id : Nat) (σ : State) :
    exec (.homeOwn f id) σ = execHomeOwn f id σ := rfl
@[simp] theorem exec_homeMergeFill (f id : Nat) (σ : State) :
    exec (.homeMergeFill f id) σ = execHomeMergeFill f id σ := rfl
@[simp] theorem exec_homeEviction (f id : Nat) (σ : State) :
    exec (.homeEviction f id) σ = execHomeEviction f id σ := rfl
@[simp] theorem exec_homeAtomic (f id : Nat) (σ : State) :
    exec (.homeAtomic f id) σ = execHomeAtomic f id σ := rfl
@[simp] theorem exec_tilePushInstall (cl id : Nat) (σ : State) :
    exec (.tilePushInstall cl id) σ = execTilePushInstall cl id σ := rfl
@[simp] theorem exec_hostMemrd (f tag : Nat) (off : Nat) (mv : Meta) (σ : State) :
    exec (.hostMemrd f tag off mv) σ = execHostMemrd f tag off mv σ := rfl
@[simp] theorem exec_hostMemrddata (f tag : Nat) (off : Nat) (σ : State) :
    exec (.hostMemrddata f tag off) σ = execHostMemrddata f tag off σ := rfl
@[simp] theorem exec_hostMeminv (f tag : Nat) (off : Nat) (mv : Meta) (σ : State) :
    exec (.hostMeminv f tag off mv) σ = execHostMeminv f tag off mv σ := rfl
@[simp] theorem exec_hostMemwr (f tag : Nat) (off : Nat) (data : LineData) (σ : State) :
    exec (.hostMemwr f tag off data) σ = execHostMemwr f tag off data σ := rfl
@[simp] theorem exec_hostMemwrptl (f tag : Nat) (off : Nat) (data : LineData) (be : BitVec 64) (σ : State) :
    exec (.hostMemwrptl f tag off data be) σ = execHostMemwrptl f tag off data be σ := rfl
@[simp] theorem exec_birsp (f : Nat) (line : Nat) (r : BiRsp) (σ : State) :
    exec (.birsp f line r) σ = execBirsp f line r σ := rfl
@[simp] theorem exec_biTimeout (f : Nat) (line : Nat) (σ : State) :
    exec (.biTimeout f line) σ = execBiTimeout f line σ := rfl
@[simp] theorem exec_h2dSnoop (f : Nat) (addr : Nat) (σ : State) :
    exec (.h2dSnoop f addr) σ = execH2dSnoop f addr σ := rfl
@[simp] theorem exec_gatewayLoad (f id : Nat) (σ : State) :
    exec (.gatewayLoad f id) σ = execGatewayLoad f id σ := rfl
@[simp] theorem exec_gatewayStore (f id : Nat) (σ : State) :
    exec (.gatewayStore f id) σ = execGatewayStore f id σ := rfl
@[simp] theorem exec_gatewayAtomic (f id : Nat) (σ : State) :
    exec (.gatewayAtomic f id) σ = execGatewayAtomic f id σ := rfl
@[simp] theorem exec_shmcfWrite (f : Nat) (v : Word) (σ : State) :
    exec (.shmcfWrite f v) σ = execShmcfWrite f v σ := rfl
@[simp] theorem exec_apcfClear (f : Nat) (v : Word) (σ : State) :
    exec (.apcfClear f v) σ = execApcfClear f v σ := rfl
@[simp] theorem exec_clusterRecall (cl : Nat) (line : Nat) (σ : State) :
    exec (.clusterRecall cl line) σ = execClusterRecall cl line σ := rfl
@[simp] theorem exec_l2StorePerform (k idx : Nat) (σ : State) :
    exec (.l2StorePerform k idx) σ = execL2StorePerform k idx σ := rfl
@[simp] theorem exec_mergeFillArrive (cl : Nat) (line : Nat) (σ : State) :
    exec (.mergeFillArrive cl line) σ = execMergeFillArrive cl line σ := rfl
@[simp] theorem exec_l2Eviction (cl : Nat) (line : Nat) (σ : State) :
    exec (.l2Eviction cl line) σ = execL2Eviction cl line σ := rfl
@[simp] theorem exec_l1ParityError (k : Nat) (icache : Bool) (line : Nat) (σ : State) :
    exec (.l1ParityError k icache line) σ = execL1ParityError k icache line σ := rfl
@[simp] theorem exec_sramEccError (unit : Nat) (l2 : Bool) (addr : Nat) (e : LineErr) (σ : State) :
    exec (.sramEccError unit l2 addr e) σ = execSramEccError unit l2 addr e σ := rfl
@[simp] theorem exec_cmlayWrite (k n : Nat) (v : Word) (σ : State) :
    exec (.cmlayWrite k n v) σ = execCmlayWrite k n v σ := rfl
@[simp] theorem exec_feWaitSatisfied (k off : Nat) (σ : State) :
    exec (.feWaitSatisfied k off) σ = execFeWaitSatisfied k off σ := rfl
@[simp] theorem exec_waitaWake (c : Nat) (σ : State) :
    exec (.waitaWake c) σ = execWaitaWake c σ := rfl
@[simp] theorem exec_recordStart (cl ch : Nat) (σ : State) :
    exec (.recordStart cl ch) σ = execRecordStart cl ch σ := rfl
@[simp] theorem exec_recordElement (cl ch : Nat) (σ : State) :
    exec (.recordElement cl ch) σ = execRecordElement cl ch σ := rfl
@[simp] theorem exec_copyErrorMessage (f : Nat) (σ : State) :
    exec (.copyErrorMessage f) σ = execCopyErrorMessage f σ := rfl
@[simp] theorem exec_recordComplete (cl ch : Nat) (σ : State) :
    exec (.recordComplete cl ch) σ = execRecordComplete cl ch σ := rfl
@[simp] theorem exec_chainNextRecord (cl ch : Nat) (σ : State) :
    exec (.chainNextRecord cl ch) σ = execChainNextRecord cl ch σ := rfl
@[simp] theorem exec_ceresRetry (f : Nat) (v : Word) (σ : State) :
    exec (.ceresRetry f v) σ = execCeresRetry f v σ := rfl
@[simp] theorem exec_ceresFail (f : Nat) (v : Word) (σ : State) :
    exec (.ceresFail f v) σ = execCeresFail f v σ := rfl
@[simp] theorem exec_bankReduce (f id : Nat) (σ : State) :
    exec (.bankReduce f id) σ = execBankReduce f id σ := rfl
@[simp] theorem exec_statusWriteback (k item : Nat) (σ : State) :
    exec (.statusWriteback k item) σ = execStatusWriteback k item σ := rfl
@[simp] theorem exec_tileReply (k item : Nat) (σ : State) :
    exec (.tileReply k item) σ = execTileReply k item σ := rfl
@[simp] theorem exec_matrixExecute (cl : Nat) (σ : State) :
    exec (.matrixExecute cl) σ = execMatrixExecute cl σ := rfl
@[simp] theorem exec_mbcastComplete (k item : Nat) (σ : State) :
    exec (.mbcastComplete k item) σ = execMbcastComplete k item σ := rfl
@[simp] theorem exec_putLand (cl item : Nat) (σ : State) :
    exec (.putLand cl item) σ = execPutLand cl item σ := rfl
@[simp] theorem exec_putComplete (cl item : Nat) (σ : State) :
    exec (.putComplete cl item) σ = execPutComplete cl item σ := rfl
@[simp] theorem exec_ramoExecute (k item : Nat) (σ : State) :
    exec (.ramoExecute k item) σ = execRamoExecute k item σ := rfl
@[simp] theorem exec_ramoReply (k item : Nat) (σ : State) :
    exec (.ramoReply k item) σ = execRamoReply k item σ := rfl
@[simp] theorem exec_exportDisable (f : Nat) (v : Word) (σ : State) :
    exec (.exportDisable f v) σ = execExportDisable f v σ := rfl
@[simp] theorem exec_exportEnable (f : Nat) (v : Word) (σ : State) :
    exec (.exportEnable f v) σ = execExportEnable f v σ := rfl
@[simp] theorem exec_importEnable (f : Nat) (v : Word) (σ : State) :
    exec (.importEnable f v) σ = execImportEnable f v σ := rfl
@[simp] theorem exec_importRequest (f : Nat) (fromField : Nat) (handle : Nat) (slot : Nat) (σ : State) :
    exec (.importRequest f fromField handle slot) σ = execImportRequest f fromField handle slot σ := rfl
@[simp] theorem exec_importReply (f slot : Nat) (σ : State) :
    exec (.importReply f slot) σ = execImportReply f slot σ := rfl
@[simp] theorem exec_importTimeout (f slot : Nat) (σ : State) :
    exec (.importTimeout f slot) σ = execImportTimeout f slot σ := rfl
@[simp] theorem exec_peerAccess (f id : Nat) (σ : State) :
    exec (.peerAccess f id) σ = execPeerAccess f id σ := rfl
@[simp] theorem exec_oslotWrite (f n : Nat) (v : Word) (σ : State) :
    exec (.oslotWrite f n v) σ = execOslotWrite f n v σ := rfl
@[simp] theorem exec_opticalStart (f : Nat) (v : Word) (σ : State) :
    exec (.opticalStart f v) σ = execOpticalStart f v σ := rfl
@[simp] theorem exec_rotationStart (f : Nat) (σ : State) :
    exec (.rotationStart f) σ = execRotationStart f σ := rfl
@[simp] theorem exec_slotWindowOpen (f : Nat) (σ : State) :
    exec (.slotWindowOpen f) σ = execSlotWindowOpen f σ := rfl
@[simp] theorem exec_slotWindowClose (f : Nat) (σ : State) :
    exec (.slotWindowClose f) σ = execSlotWindowClose f σ := rfl
@[simp] theorem exec_opticalFlitReceive (f : Nat) (x : Flit) (crcOk : Bool) (σ : State) :
    exec (.opticalFlitReceive f x crcOk) σ = execOpticalFlitReceive f x crcOk σ := rfl
@[simp] theorem exec_opticalAck (f : Nat) (dest vc seq : Nat) (code : Nat) (σ : State) :
    exec (.opticalAck f dest vc seq code) σ = execOpticalAck f dest vc seq code σ := rfl
@[simp] theorem exec_fibreLoss (f fibre : Nat) (σ : State) :
    exec (.fibreLoss f fibre) σ = execFibreLoss f fibre σ := rfl
@[simp] theorem exec_timeLockLoss (σ : State) : exec .timeLockLoss σ = execTimeLockLoss σ := rfl
@[simp] theorem exec_timeLockRegain (offset : BitVec 32) (σ : State) :
    exec (.timeLockRegain offset) σ = execTimeLockRegain offset σ := rfl
@[simp] theorem exec_launchRecordRead (f q : Nat) (σ : State) :
    exec (.launchRecordRead f q) σ = execLaunchRecordRead f q σ := rfl
@[simp] theorem exec_groupPlace (f q : Nat) (σ : State) :
    exec (.groupPlace f q) σ = execGroupPlace f q σ := rfl
@[simp] theorem exec_gangStart (f gid : Nat) (σ : State) :
    exec (.gangStart f gid) σ = execGangStart f gid σ := rfl
@[simp] theorem exec_starveTimeout (f q : Nat) (σ : State) :
    exec (.starveTimeout f q) σ = execStarveTimeout f q σ := rfl
@[simp] theorem exec_preemptRequest (f q : Nat) (σ : State) :
    exec (.preemptRequest f q) σ = execPreemptRequest f q σ := rfl
@[simp] theorem exec_spanReport (f : Nat) (σ : State) :
    exec (.spanReport f) σ = execSpanReport f σ := rfl
@[simp] theorem exec_launchComplete (f lid : Nat) (σ : State) :
    exec (.launchComplete f lid) σ = execLaunchComplete f lid σ := rfl
@[simp] theorem exec_graphNodeEnd (f lid node : Nat) (σ : State) :
    exec (.graphNodeEnd f lid node) σ = execGraphNodeEnd f lid node σ := rfl
@[simp] theorem exec_contextSelect (c : Nat) (σ : State) :
    exec (.contextSelect c) σ = execContextSelect c σ := rfl
@[simp] theorem exec_messageArrive (f id : Nat) (σ : State) :
    exec (.messageArrive f id) σ = execMessageArrive f id σ := rfl
@[simp] theorem exec_messageReturn (f id : Nat) (σ : State) :
    exec (.messageReturn f id) σ = execMessageReturn f id σ := rfl
@[simp] theorem exec_cfreeRetry (k : Nat) (σ : State) :
    exec (.cfreeRetry k) σ = execCfreeRetry k σ := rfl
@[simp] theorem exec_refusalRetryTimer (f id : Nat) (σ : State) :
    exec (.refusalRetryTimer f id) σ = execRefusalRetryTimer f id σ := rfl
@[simp] theorem exec_saddlebagWake (k : Nat) (σ : State) :
    exec (.saddlebagWake k) σ = execSaddlebagWake k σ := rfl
@[simp] theorem exec_reinEvaluate (f rule : Nat) (σ : State) :
    exec (.reinEvaluate f rule) σ = execReinEvaluate f rule σ := rfl
@[simp] theorem exec_panelSnapshot (f : Nat) (σ : State) :
    exec (.panelSnapshot f) σ = execPanelSnapshot f σ := rfl
@[simp] theorem exec_panelMove (f id : Nat) (σ : State) :
    exec (.panelMove f id) σ = execPanelMove f id σ := rfl
@[simp] theorem exec_barrierArrival (f id : Nat) (σ : State) :
    exec (.barrierArrival f id) σ = execBarrierArrival f id σ := rfl
@[simp] theorem exec_barrierRelease (f id : Nat) (σ : State) :
    exec (.barrierRelease f id) σ = execBarrierRelease f id σ := rfl
@[simp] theorem exec_energyWindow (part : Nat) (σ : State) :
    exec (.energyWindow part) σ = execEnergyWindow part σ := rfl
@[simp] theorem exec_energyCount (part uj : Nat) (σ : State) :
    exec (.energyCount part uj) σ = execEnergyCount part uj σ := rfl
@[simp] theorem exec_lateFaultTake (c : Nat) (σ : State) :
    exec (.lateFaultTake c) σ = execLateFaultTake c σ := rfl
@[simp] theorem exec_forcedSave (c : Nat) (σ : State) :
    exec (.forcedSave c) σ = execForcedSave c σ := rfl
@[simp] theorem exec_contextRestore (k entry x : Nat) (σ : State) :
    exec (.contextRestore k entry x) σ = execContextRestore k entry x σ := rfl
@[simp] theorem exec_coreFailure (k : Nat) (σ : State) :
    exec (.coreFailure k) σ = execCoreFailure k σ := rfl
@[simp] theorem exec_orphanFlit (k item : Nat) (σ : State) :
    exec (.orphanFlit k item) σ = execOrphanFlit k item σ := rfl
@[simp] theorem exec_killComplete (f id : Nat) (σ : State) :
    exec (.killComplete f id) σ = execKillComplete f id σ := rfl
@[simp] theorem exec_revokeComplete (part id : Nat) (σ : State) :
    exec (.revokeComplete part id) σ = execRevokeComplete part id σ := rfl
@[simp] theorem exec_modSet (via : Via) (num : BitVec 16) (gm : Bool) (σ : State) :
    exec (.modSet via num gm) σ = execModSet via num gm σ := rfl
@[simp] theorem exec_partCreate (via : Via) (fx0 fx1 fy0 fy1 : Nat) (mask passed : BitVec 16) (σ : State) :
    exec (.partCreate via fx0 fx1 fy0 fy1 mask passed) σ = execPartCreate via fx0 fx1 fy0 fy1 mask passed σ := rfl
@[simp] theorem exec_partDissolve (via : Via) (part : Nat) (σ : State) :
    exec (.partDissolve via part) σ = execPartDissolve via part σ := rfl
@[simp] theorem exec_keyLoad (via : Via) (part key : Nat) (data tweak tag : BitVec 256) (σ : State) :
    exec (.keyLoad via part key data tweak tag) σ = execKeyLoad via part key data tweak tag σ := rfl
@[simp] theorem exec_keyRevoke (via : Via) (part key : Nat) (σ : State) :
    exec (.keyRevoke via part key) σ = execKeyRevoke via part key σ := rfl
@[simp] theorem exec_energySet (via : Via) (part mj : Nat) (σ : State) :
    exec (.energySet via part mj) σ = execEnergySet via part mj σ := rfl
@[simp] theorem exec_fnEnable (via : Via) (f : Nat) (σ : State) :
    exec (.fnEnable via f) σ = execFnEnable via f σ := rfl
@[simp] theorem exec_remargin (via : Via) (fields passed : BitVec 16) (lives : List (Nat × Nat)) (σ : State) :
    exec (.remargin via fields passed lives) σ = execRemargin via fields passed lives σ := rfl
@[simp] theorem exec_retire (via : Via) (cl : Nat) (σ : State) :
    exec (.retire via cl) σ = execRetire via cl σ := rfl
@[simp] theorem exec_logRead (via : Via) (part : Nat) (σ : State) :
    exec (.logRead via part) σ = execLogRead via part σ := rfl
@[simp] theorem exec_wearSample (cl months : Nat) (σ : State) :
    exec (.wearSample cl months) σ = execWearSample cl months σ := rfl
@[simp] theorem exec_thermalStep (f : Nat) (celsius : Int) (σ : State) :
    exec (.thermalStep f celsius) σ = execThermalStep f celsius σ := rfl
@[simp] theorem exec_moduleReset (passed : BitVec 16) (kernelPc : Word) (σ : State) :
    exec (.moduleReset passed kernelPc) σ = execModuleReset passed kernelPc σ := rfl
@[simp] theorem exec_readFillReply (cl : Nat) (line : Nat) (σ : State) :
    exec (.readFillReply cl line) σ = execReadFillReply cl line σ := rfl
@[simp] theorem exec_cxlCacheResponse (f id : Nat) (data : LineData) (σ : State) :
    exec (.cxlCacheResponse f id data) σ = execCxlCacheResponse f id data σ := rfl

end Sys2Proof.Machine
end

