-- ==== Sys2Proof/Laws/Issue.lean ====
section
/-! SUPPORT. What the frames of Machine/Issue.lean answer, once each: with the guard false, and with it true for every
way an effect can end. -/

namespace Sys2Proof.Machine

theorem runReg_on {h : Hdr} {s : State} (f : Ctx → Ctx) (on : On h s) : runReg h f s = .next (regNext h s (f s.me)) := by
  have g : Hdr.holds h s.me = true := on
  simp only [runReg, g, if_true, regNext]

theorem runReg_off {h : Hdr} {s : State} (f : Ctx → Ctx) (off : Hdr.holds h s.me = false) :
    runReg h f s = .next (yldAfter h s.skip) := by
  simp only [runReg, off, Bool.false_eq_true, if_false]

theorem runIsa_ok {h : Hdr} {s s' : State} {m : M Flow} {f : Flow} (on : On h s) (e : m s = .ok f s') :
    runIsa h m s = .next (bodyNext h s' f) := by
  have g : Hdr.holds h s.me = true := on
  simp only [runIsa, g, if_true, execute, e, bodyNext]

theorem runIsa_trap {h : Hdr} {s s' : State} {m : M Flow} {t : Trap} (on : On h s) (e : m s = .error (.trap t) s') :
    runIsa h m s = .next (s.takeTrap s.cur t) := by
  have g : Hdr.holds h s.me = true := on
  simp only [runIsa, g, if_true, execute, e]

theorem runIsa_wait {h : Hdr} {s s' : State} {m : M Flow} {w : WaitFor} (on : On h s) (e : m s = .error (.wait w) s') :
    runIsa h m s = .next (s'.setMe { s'.me with st := .waiting w }) := by
  have g : Hdr.holds h s.me = true := on
  simp only [runIsa, g, if_true, execute, e]

theorem runIsa_late {h : Hdr} {s s' : State} {m : M Flow} (on : On h s) (e : m s = .error .late s') :
    runIsa h m s = .next (s'.takeLate s'.cur) := by
  have g : Hdr.holds h s.me = true := on
  simp only [runIsa, g, if_true, execute, e]

theorem runIsa_off {h : Hdr} {s : State} {m : M Flow} (off : Hdr.holds h s.me = false) :
    runIsa h m s = .next (yldAfter h s.skip) := by
  simp only [runIsa, off, Bool.false_eq_true, if_false]

theorem runFree_ok {h : Hdr} {s s' : State} {m : M Flow} {f : Flow} (e : m s = .ok f s') :
    runFree h m s = .next (bodyNext h s' f) := by
  simp only [runFree, execute, e, bodyNext]

theorem runPriv_field {i : Instr} {h : Hdr} {s : State} {m : M Flow} (l : s.me.lvl = true) :
    runPriv i h m s = runIsa h m s := by
  simp only [runPriv, l, if_true]

theorem runPriv_task {i : Instr} {h : Hdr} {s : State} {m : M Flow} (l : s.me.lvl = false) :
    runPriv i h m s = .next (s.takeTrap s.cur (privTrap i)) := by
  simp only [runPriv, l, Bool.false_eq_true, if_false]

theorem runVec_on {h : Hdr} {i : Instr} {s : State} {dst : RegRef} {f : Ctx → Ctx} (on : On h s)
    (room : s.me.ringFull = false) : runVec h i false dst f s = .next (regNext h s (f (s.seq dst))) := by
  have g : Hdr.holds h s.me = true := on
  simp only [runVec, g, if_true, room, Bool.false_eq_true, if_false, State.seq, regNext]

theorem runVec_bad {h : Hdr} {i : Instr} {s : State} {dst : RegRef} {f : Ctx → Ctx} (on : On h s) :
    runVec h i true dst f s = .next (s.takeTrap s.cur { cause := .illop, tval := i.tvalBits }) := by
  have g : Hdr.holds h s.me = true := on
  simp only [runVec, g, if_true]

theorem runVec_off {h : Hdr} {i : Instr} {s : State} {bad : Bool} {dst : RegRef} {f : Ctx → Ctx}
    (off : Hdr.holds h s.me = false) : runVec h i bad dst f s = .next (yldAfter h s.skip) := by
  simp only [runVec, off, Bool.false_eq_true, if_false]

/-! An entry of the ring changes no register. -/

theorem pushEntry_g (c : Ctx) (e : SeqEntry) : (c.pushEntry e).g = c.g := by unfold Ctx.pushEntry; rfl
theorem pushEntry_v (c : Ctx) (e : SeqEntry) : (c.pushEntry e).v = c.v := by unfold Ctx.pushEntry; rfl
theorem pushEntry_q (c : Ctx) (e : SeqEntry) : (c.pushEntry e).q = c.q := by unfold Ctx.pushEntry; rfl
theorem pushEntry_f (c : Ctx) (e : SeqEntry) : (c.pushEntry e).fstat = c.fstat := by unfold Ctx.pushEntry; rfl
theorem seq_rg (s : State) (r : RegRef) (x : GReg) : (s.seq r).rg x = s.me.rg x := by
  simp only [Ctx.rg, State.seq, Ctx.pushSeq, pushEntry_g]
theorem seq_rv (s : State) (r : RegRef) (x : VReg) : (s.seq r).rv x = s.me.rv x := by
  simp only [Ctx.rv, State.seq, Ctx.pushSeq, pushEntry_v]
theorem seq_rq (s : State) (r : RegRef) (x : QReg) : (s.seq r).rq x = s.me.rq x := by
  simp only [Ctx.rq, State.seq, Ctx.pushSeq, pushEntry_q]
theorem seq_extn (s : State) (r : RegRef) : (s.seq r).extn = s.me.extn := by
  simp only [Ctx.extn, State.seq, Ctx.pushSeq, pushEntry_f]
theorem seq_vsrc (s : State) (r : RegRef) (x : VSrc) (w e : Nat) : VSrc.elem x (s.seq r) w e = VSrc.elem x s.me w e := by
  simp only [VSrc.elem, seq_rv]
theorem seq_vb (s : State) (r : RegRef) (y : VB) (w e : Nat) : VB.elem y (s.seq r) w e = VB.elem y s.me w e := by
  cases y <;> simp only [VB.elem, seq_vsrc, seq_rg]
theorem seq_vg (s : State) (r : RegRef) (y : VG) (w e : Nat) : VG.elem y (s.seq r) w e = VG.elem y s.me w e := by
  cases y <;> simp only [VG.elem, seq_vsrc, seq_rg]
theorem seq_fmt (s : State) (r : RegRef) (t : ETy) : fmtOf t (s.seq r) = fmtOf t s.me := by
  simp only [fmtOf, seq_extn]

/-! Whatever an effect does, the frames of instructions and events go on. -/

theorem execute_safe (h : Hdr) (m : M Flow) (s : State) : Safe (execute h m s) := by
  unfold execute
  split <;> exact ⟨_, rfl⟩

theorem runReg_safe (h : Hdr) (f : Ctx → Ctx) (s : State) : Safe (runReg h f s) := by
  unfold runReg
  split <;> exact ⟨_, rfl⟩

theorem runIsa_safe (h : Hdr) (m : M Flow) (s : State) : Safe (runIsa h m s) := by
  unfold runIsa
  split
  · exact execute_safe h m s
  · exact ⟨_, rfl⟩

theorem runFree_safe (h : Hdr) (m : M Flow) (s : State) : Safe (runFree h m s) := execute_safe h m s

theorem runPriv_safe (i : Instr) (h : Hdr) (m : M Flow) (s : State) : Safe (runPriv i h m s) := by
  unfold runPriv
  split
  · exact runIsa_safe h m s
  · exact ⟨_, rfl⟩

theorem runVec_safe (h : Hdr) (i : Instr) (bad : Bool) (dst : RegRef) (f : Ctx → Ctx) (s : State) :
    Safe (runVec h i bad dst f s) := by
  unfold runVec
  split
  · split
    · exact ⟨_, rfl⟩
    · split <;> exact ⟨_, rfl⟩
  · exact ⟨_, rfl⟩

theorem runEvent_safe (m : M Unit) (s : State) : Safe (runEvent m s) := by
  unfold runEvent
  split <;> exact ⟨_, rfl⟩

theorem runEvent_ok {m : M Unit} {s s' : State} {u : Unit} (e : m s = .ok u s') : runEvent m s = .next s' := by
  simp only [runEvent, e]

end Sys2Proof.Machine
end

