-- ==== Sys2Proof/Laws/Memory.lean ====
section
/-! SUPPORT. Byte memories: what a read gives after a write, and that every operation keeps the canonical form. -/

namespace Sys2Proof.Machine

theorem Mem.read_insert (m : Mem) (a b : Nat) (v : Byte) :
    Mem.read (Mem.insert m a v) b = if b = a then v else Mem.read m b := by
  induction m with
  | nil => by_cases h : b = a <;> simp [Mem.insert, Mem.read, h, Ne.symm]
  | cons x t ih =>
    obtain ⟨j, w⟩ := x
    unfold Mem.insert
    split
    · rename_i lt
      by_cases h : b = a
      · simp [Mem.read, h]
      · simp [Mem.read, h, Ne.symm h]
    · split
      · rename_i e
        subst e
        by_cases h : b = j
        · simp [Mem.read, h]
        · simp [Mem.read, h, Ne.symm h]
      · rename_i ge ne
        by_cases h : b = a
        · subst h
          simp [Mem.read, ne, ih]
        · simp only [Mem.read, ih, h, if_false]

theorem Mem.read_filter (m : Mem) (a b : Nat) :
    Mem.read (m.filter fun x => x.1 != a) b = if b = a then 0 else Mem.read m b := by
  induction m with
  | nil => simp [Mem.read]
  | cons x t ih =>
    obtain ⟨j, w⟩ := x
    by_cases e : j = a
    · subst e
      rw [List.filter_cons_of_neg (by simp), ih]
      by_cases h : b = j
      · rw [if_pos h, if_pos h]
      · simp [Mem.read, h, Ne.symm h]
    · by_cases h : b = a
      · subst h
        simp [e, Mem.read, ih]
      · simp [e, Mem.read, ih, h]

/-- A byte written reads back, and every other address reads as before. -/
theorem Mem.read_write (m : Mem) (a b : Nat) (v : Byte) :
    Mem.read (Mem.write m a v) b = if b = a then v else Mem.read m b := by
  unfold Mem.write
  split
  · rename_i z
    rw [Mem.read_filter, z]
  · exact Mem.read_insert m a b v

/-! ## The canonical form -/

/-- Every listed address is above a bound. -/
def Mem.above (a : Nat) (m : Mem) : Prop := ∀ x ∈ m, a < x.1

theorem wf_cons {j : Nat} {w : Byte} {t : Mem} : Memory.wf ((j, w) :: t) = true ↔ w ≠ 0 ∧ Mem.above j t ∧ Memory.wf t = true := by
  induction t generalizing j w with
  | nil => simp [Memory.wf, Mem.above]
  | cons y r ih =>
    obtain ⟨k, u⟩ := y
    have step : Memory.wf ((j, w) :: (k, u) :: r) = (w != 0 && decide (j < k) && Memory.wf ((k, u) :: r)) := rfl
    rw [step]
    constructor
    · intro h
      simp only [Bool.and_eq_true, bne_iff_ne, ne_eq, decide_eq_true_eq] at h
      refine ⟨h.1.1, ?_, h.2⟩
      intro x mem
      rcases List.mem_cons.1 mem with e | mem
      · rw [e]
        exact h.1.2
      · exact Nat.lt_trans h.1.2 ((ih.1 h.2).2.1 x mem)
    · intro h
      simp only [Bool.and_eq_true, bne_iff_ne, ne_eq, decide_eq_true_eq]
      exact ⟨⟨h.1, h.2.1 (k, u) (List.mem_cons_self ..)⟩, h.2.2⟩

theorem wf_filter (m : Mem) (a : Nat) (h : Memory.wf m = true) : Memory.wf (m.filter fun x => x.1 != a) = true := by
  induction m with
  | nil => rfl
  | cons x t ih =>
    obtain ⟨j, w⟩ := x
    obtain ⟨nz, up, ok⟩ := wf_cons.1 h
    by_cases e : j = a
    · simp [e, ih ok]
    · rw [List.filter_cons_of_pos (by simpa using e)]
      exact wf_cons.2 ⟨nz, fun x mem => up x (List.mem_filter.1 mem).1, ih ok⟩

theorem mem_insert {m : Mem} {a : Nat} {v : Byte} {x : Host.Cell} (h : x ∈ Mem.insert m a v) : x = (a, v) ∨ x ∈ m := by
  induction m with
  | nil => simpa [Mem.insert] using h
  | cons y t ih =>
    obtain ⟨j, w⟩ := y
    unfold Mem.insert at h
    split at h
    · simpa using h
    · split at h
      · rcases List.mem_cons.1 h with e | mem
        · exact .inl e
        · exact .inr (List.mem_cons_of_mem _ mem)
      · rcases List.mem_cons.1 h with e | mem
        · exact .inr (e ▸ List.mem_cons_self ..)
        · rcases ih mem with e | mem
          · exact .inl e
          · exact .inr (List.mem_cons_of_mem _ mem)

theorem wf_insert (m : Mem) (a : Nat) (v : Byte) (nz : v ≠ 0) (h : Memory.wf m = true) :
    Memory.wf (Mem.insert m a v) = true := by
  induction m with
  | nil => simpa [Mem.insert, Memory.wf] using nz
  | cons x t ih =>
    obtain ⟨j, w⟩ := x
    obtain ⟨nw, up, ok⟩ := wf_cons.1 h
    unfold Mem.insert
    split
    · rename_i lt
      refine wf_cons.2 ⟨nz, fun x mem => ?_, h⟩
      rcases List.mem_cons.1 mem with e | mem
      · rw [e]
        exact lt
      · exact Nat.lt_trans lt (up x mem)
    · split
      · rename_i e
        subst e
        exact wf_cons.2 ⟨nz, up, ok⟩
      · rename_i ge ne
        refine wf_cons.2 ⟨nw, fun x mem => ?_, ih ok⟩
        rcases mem_insert mem with e | mem
        · rw [e]
          show j < a
          omega
        · exact up x mem

/-- A write keeps the canonical form. -/
theorem wf_write (m : Mem) (a : Nat) (v : Byte) (h : Memory.wf m = true) : Memory.wf (Mem.write m a v) = true := by
  unfold Mem.write
  split
  · exact wf_filter m a h
  · rename_i nz
    exact wf_insert m a v nz h

/-- So does a run of writes. -/
theorem wf_writeBytes (m : Mem) (a : Nat) (vs : List Byte) (h : Memory.wf m = true) :
    Memory.wf (Mem.writeBytes m a vs) = true := by
  induction vs generalizing m a with
  | nil => exact h
  | cons v t ih => exact ih _ _ (wf_write m a v h)

/-- Every memory of the machine after reset has the canonical form. -/
theorem wf_reset (f k : Nat) : Memory.wf (State.reset.field f).shm = true ∧ Memory.wf (State.reset.field f).mem = true ∧
    Memory.wf (State.reset.core k).cmem = true := ⟨rfl, rfl, rfl⟩

end Sys2Proof.Machine
end

