-- ==== Sys2Proof/Laws/State.lean ====
section
/-! SUPPORT. The small lemmas of the sparse maps, of the updates of State and of the updates of a context: one lemma per
field per update, so that no proof unfolds a record update. -/

namespace Sys2Proof.Machine

/-! ## Sparse maps -/

theorem SMap.find_put_self {α : Type} (m : SMap α) (k : Nat) (x : α) : SMap.find? (SMap.put m k x) k = some x := by
  induction m with
  | nil => simp [SMap.put, SMap.find?]
  | cons y t ih =>
    unfold SMap.put
    split
    · simp [SMap.find?]
    · split
      · simp [SMap.find?]
      · rename_i h1 h2
        simp [SMap.find?, h2, ih]

theorem SMap.find_put_ne {α : Type} (m : SMap α) (k j : Nat) (x : α) (h : j ≠ k) :
    SMap.find? (SMap.put m k x) j = SMap.find? m j := by
  induction m with
  | nil => simp [SMap.put, SMap.find?, Ne.symm h]
  | cons y t ih =>
    unfold SMap.put
    split
    · simp [SMap.find?, Ne.symm h]
    · split
      · rename_i h1 h2
        simp [SMap.find?, h2, Ne.symm h]
      · simp only [SMap.find?]
        split
        · rfl
        · exact ih

theorem SMap.get_put_self {α : Type} (m : SMap α) (k : Nat) (x d : α) : SMap.get (SMap.put m k x) k d = x := by
  simp only [SMap.get, SMap.find_put_self, Option.getD_some]

theorem SMap.get_put_ne {α : Type} (m : SMap α) (k j : Nat) (x d : α) (h : j ≠ k) :
    SMap.get (SMap.put m k x) j d = SMap.get m j d := by
  simp only [SMap.get, SMap.find_put_ne m k j x h]

/-! ## Lookups after an update of the same table -/

@[simp] theorem State.setCtx_ctx (s : State) (c : Nat) (x : Ctx) : (s.setCtx c x).ctx c = x := SMap.get_put_self ..
@[simp] theorem State.setCore_core (s : State) (k : Nat) (x : Core) : (s.setCore k x).core k = x := SMap.get_put_self ..
@[simp] theorem State.setCluster_cluster (s : State) (n : Nat) (x : Cluster) : (s.setCluster n x).cluster n = x :=
  SMap.get_put_self ..
@[simp] theorem State.setField_field (s : State) (f : Nat) (x : Field) : (s.setField f x).field f = x :=
  SMap.get_put_self ..
@[simp] theorem State.setMe_me (s : State) (x : Ctx) : (s.setMe x).me = x := SMap.get_put_self ..
@[simp] theorem State.modCtx_ctx (s : State) (c : Nat) (g : Ctx → Ctx) : (s.modCtx c g).ctx c = g (s.ctx c) :=
  SMap.get_put_self ..
@[simp] theorem State.modCore_core (s : State) (k : Nat) (g : Core → Core) : (s.modCore k g).core k = g (s.core k) :=
  SMap.get_put_self ..
@[simp] theorem State.modCluster_cluster (s : State) (n : Nat) (g : Cluster → Cluster) :
    (s.modCluster n g).cluster n = g (s.cluster n) := SMap.get_put_self ..
@[simp] theorem State.modField_field (s : State) (f : Nat) (g : Field → Field) : (s.modField f g).field f = g (s.field f) :=
  SMap.get_put_self ..

theorem State.setCtx_ctx_ne (s : State) (c j : Nat) (x : Ctx) (h : j ≠ c) : (s.setCtx c x).ctx j = s.ctx j :=
  SMap.get_put_ne _ _ _ _ _ h
theorem State.setCore_core_ne (s : State) (k j : Nat) (x : Core) (h : j ≠ k) : (s.setCore k x).core j = s.core j :=
  SMap.get_put_ne _ _ _ _ _ h
theorem State.setCluster_cluster_ne (s : State) (n j : Nat) (x : Cluster) (h : j ≠ n) :
    (s.setCluster n x).cluster j = s.cluster j := SMap.get_put_ne _ _ _ _ _ h
theorem State.setField_field_ne (s : State) (f j : Nat) (x : Field) (h : j ≠ f) : (s.setField f x).field j = s.field j :=
  SMap.get_put_ne _ _ _ _ _ h
theorem State.setMe_ctx_ne (s : State) (j : Nat) (x : Ctx) (h : j ≠ s.cur) : (s.setMe x).ctx j = s.ctx j :=
  SMap.get_put_ne _ _ _ _ _ h

/-! ## setCtx -/

@[simp] theorem State.setCtx_cores (s : State) (c : Nat) (x : Ctx) : (s.setCtx c x).cores = s.cores := rfl
@[simp] theorem State.setCtx_clusters (s : State) (c : Nat) (x : Ctx) : (s.setCtx c x).clusters = s.clusters := rfl
@[simp] theorem State.setCtx_fields (s : State) (c : Nat) (x : Ctx) : (s.setCtx c x).fields = s.fields := rfl
@[simp] theorem State.setCtx_parts (s : State) (c : Nat) (x : Ctx) : (s.setCtx c x).parts = s.parts := rfl
@[simp] theorem State.setCtx_launches (s : State) (c : Nat) (x : Ctx) : (s.setCtx c x).launches = s.launches := rfl
@[simp] theorem State.setCtx_groups (s : State) (c : Nat) (x : Ctx) : (s.setCtx c x).groups = s.groups := rfl
@[simp] theorem State.setCtx_revokes (s : State) (c : Nat) (x : Ctx) : (s.setCtx c x).revokes = s.revokes := rfl
@[simp] theorem State.setCtx_ns (s : State) (c : Nat) (x : Ctx) : (s.setCtx c x).ns = s.ns := rfl
@[simp] theorem State.setCtx_clk (s : State) (c : Nat) (x : Ctx) : (s.setCtx c x).clk = s.clk := rfl
@[simp] theorem State.setCtx_locked (s : State) (c : Nat) (x : Ctx) : (s.setCtx c x).locked = s.locked := rfl
@[simp] theorem State.setCtx_gm (s : State) (c : Nat) (x : Ctx) : (s.setCtx c x).gm = s.gm := rfl
@[simp] theorem State.setCtx_toff (s : State) (c : Nat) (x : Ctx) : (s.setCtx c x).toff = s.toff := rfl
@[simp] theorem State.setCtx_stepped (s : State) (c : Nat) (x : Ctx) : (s.setCtx c x).stepped = s.stepped := rfl
@[simp] theorem State.setCtx_kernelPc (s : State) (c : Nat) (x : Ctx) : (s.setCtx c x).kernelPc = s.kernelPc := rfl
@[simp] theorem State.setCtx_stopped (s : State) (c : Nat) (x : Ctx) : (s.setCtx c x).stopped = s.stopped := rfl
@[simp] theorem State.setCtx_cmds (s : State) (c : Nat) (x : Ctx) : (s.setCtx c x).cmds = s.cmds := rfl
@[simp] theorem State.setCtx_slog (s : State) (c : Nat) (x : Ctx) : (s.setCtx c x).slog = s.slog := rfl
@[simp] theorem State.setCtx_fresh (s : State) (c : Nat) (x : Ctx) : (s.setCtx c x).fresh = s.fresh := rfl
@[simp] theorem State.setCtx_cur (s : State) (c : Nat) (x : Ctx) : (s.setCtx c x).cur = s.cur := rfl
@[simp] theorem State.setCtx_agenda (s : State) (c : Nat) (x : Ctx) : (s.setCtx c x).agenda = s.agenda := rfl
@[simp] theorem State.setCtx_agent (s : State) (c : Nat) (x : Ctx) : (s.setCtx c x).agent = s.agent := rfl
@[simp] theorem State.setCtx_out (s : State) (c : Nat) (x : Ctx) : (s.setCtx c x).out = s.out := rfl
@[simp] theorem State.setCtx_core (s : State) (c : Nat) (x : Ctx) (j : Nat) : (s.setCtx c x).core j = s.core j := rfl
@[simp] theorem State.setCtx_cluster (s : State) (c : Nat) (x : Ctx) (j : Nat) : (s.setCtx c x).cluster j = s.cluster j := rfl
@[simp] theorem State.setCtx_field (s : State) (c : Nat) (x : Ctx) (j : Nat) : (s.setCtx c x).field j = s.field j := rfl

/-! ## setCore -/

@[simp] theorem State.setCore_ctxs (s : State) (k : Nat) (x : Core) : (s.setCore k x).ctxs = s.ctxs := rfl
@[simp] theorem State.setCore_clusters (s : State) (k : Nat) (x : Core) : (s.setCore k x).clusters = s.clusters := rfl
@[simp] theorem State.setCore_fields (s : State) (k : Nat) (x : Core) : (s.setCore k x).fields = s.fields := rfl
@[simp] theorem State.setCore_parts (s : State) (k : Nat) (x : Core) : (s.setCore k x).parts = s.parts := rfl
@[simp] theorem State.setCore_launches (s : State) (k : Nat) (x : Core) : (s.setCore k x).launches = s.launches := rfl
@[simp] theorem State.setCore_groups (s : State) (k : Nat) (x : Core) : (s.setCore k x).groups = s.groups := rfl
@[simp] theorem State.setCore_revokes (s : State) (k : Nat) (x : Core) : (s.setCore k x).revokes = s.revokes := rfl
@[simp] theorem State.setCore_ns (s : State) (k : Nat) (x : Core) : (s.setCore k x).ns = s.ns := rfl
@[simp] theorem State.setCore_clk (s : State) (k : Nat) (x : Core) : (s.setCore k x).clk = s.clk := rfl
@[simp] theorem State.setCore_locked (s : State) (k : Nat) (x : Core) : (s.setCore k x).locked = s.locked := rfl
@[simp] theorem State.setCore_gm (s : State) (k : Nat) (x : Core) : (s.setCore k x).gm = s.gm := rfl
@[simp] theorem State.setCore_toff (s : State) (k : Nat) (x : Core) : (s.setCore k x).toff = s.toff := rfl
@[simp] theorem State.setCore_stepped (s : State) (k : Nat) (x : Core) : (s.setCore k x).stepped = s.stepped := rfl
@[simp] theorem State.setCore_kernelPc (s : State) (k : Nat) (x : Core) : (s.setCore k x).kernelPc = s.kernelPc := rfl
@[simp] theorem State.setCore_stopped (s : State) (k : Nat) (x : Core) : (s.setCore k x).stopped = s.stopped := rfl
@[simp] theorem State.setCore_cmds (s : State) (k : Nat) (x : Core) : (s.setCore k x).cmds = s.cmds := rfl
@[simp] theorem State.setCore_slog (s : State) (k : Nat) (x : Core) : (s.setCore k x).slog = s.slog := rfl
@[simp] theorem State.setCore_fresh (s : State) (k : Nat) (x : Core) : (s.setCore k x).fresh = s.fresh := rfl
@[simp] theorem State.setCore_cur (s : State) (k : Nat) (x : Core) : (s.setCore k x).cur = s.cur := rfl
@[simp] theorem State.setCore_agenda (s : State) (k : Nat) (x : Core) : (s.setCore k x).agenda = s.agenda := rfl
@[simp] theorem State.setCore_agent (s : State) (k : Nat) (x : Core) : (s.setCore k x).agent = s.agent := rfl
@[simp] theorem State.setCore_out (s : State) (k : Nat) (x : Core) : (s.setCore k x).out = s.out := rfl
@[simp] theorem State.setCore_ctx (s : State) (k : Nat) (x : Core) (j : Nat) : (s.setCore k x).ctx j = s.ctx j := rfl
@[simp] theorem State.setCore_cluster (s : State) (k : Nat) (x : Core) (j : Nat) : (s.setCore k x).cluster j = s.cluster j := rfl
@[simp] theorem State.setCore_field (s : State) (k : Nat) (x : Core) (j : Nat) : (s.setCore k x).field j = s.field j := rfl
@[simp] theorem State.setCore_me (s : State) (k : Nat) (x : Core) : (s.setCore k x).me = s.me := rfl

/-! ## setCluster -/

@[simp] theorem State.setCluster_ctxs (s : State) (n : Nat) (x : Cluster) : (s.setCluster n x).ctxs = s.ctxs := rfl
@[simp] theorem State.setCluster_cores (s : State) (n : Nat) (x : Cluster) : (s.setCluster n x).cores = s.cores := rfl
@[simp] theorem State.setCluster_fields (s : State) (n : Nat) (x : Cluster) : (s.setCluster n x).fields = s.fields := rfl
@[simp] theorem State.setCluster_parts (s : State) (n : Nat) (x : Cluster) : (s.setCluster n x).parts = s.parts := rfl
@[simp] theorem State.setCluster_launches (s : State) (n : Nat) (x : Cluster) : (s.setCluster n x).launches = s.launches := rfl
@[simp] theorem State.setCluster_groups (s : State) (n : Nat) (x : Cluster) : (s.setCluster n x).groups = s.groups := rfl
@[simp] theorem State.setCluster_revokes (s : State) (n : Nat) (x : Cluster) : (s.setCluster n x).revokes = s.revokes := rfl
@[simp] theorem State.setCluster_ns (s : State) (n : Nat) (x : Cluster) : (s.setCluster n x).ns = s.ns := rfl
@[simp] theorem State.setCluster_clk (s : State) (n : Nat) (x : Cluster) : (s.setCluster n x).clk = s.clk := rfl
@[simp] theorem State.setCluster_locked (s : State) (n : Nat) (x : Cluster) : (s.setCluster n x).locked = s.locked := rfl
@[simp] theorem State.setCluster_gm (s : State) (n : Nat) (x : Cluster) : (s.setCluster n x).gm = s.gm := rfl
@[simp] theorem State.setCluster_toff (s : State) (n : Nat) (x : Cluster) : (s.setCluster n x).toff = s.toff := rfl
@[simp] theorem State.setCluster_stepped (s : State) (n : Nat) (x : Cluster) : (s.setCluster n x).stepped = s.stepped := rfl
@[simp] theorem State.setCluster_kernelPc (s : State) (n : Nat) (x : Cluster) : (s.setCluster n x).kernelPc = s.kernelPc := rfl
@[simp] theorem State.setCluster_stopped (s : State) (n : Nat) (x : Cluster) : (s.setCluster n x).stopped = s.stopped := rfl
@[simp] theorem State.setCluster_cmds (s : State) (n : Nat) (x : Cluster) : (s.setCluster n x).cmds = s.cmds := rfl
@[simp] theorem State.setCluster_slog (s : State) (n : Nat) (x : Cluster) : (s.setCluster n x).slog = s.slog := rfl
@[simp] theorem State.setCluster_fresh (s : State) (n : Nat) (x : Cluster) : (s.setCluster n x).fresh = s.fresh := rfl
@[simp] theorem State.setCluster_cur (s : State) (n : Nat) (x : Cluster) : (s.setCluster n x).cur = s.cur := rfl
@[simp] theorem State.setCluster_agenda (s : State) (n : Nat) (x : Cluster) : (s.setCluster n x).agenda = s.agenda := rfl
@[simp] theorem State.setCluster_agent (s : State) (n : Nat) (x : Cluster) : (s.setCluster n x).agent = s.agent := rfl
@[simp] theorem State.setCluster_out (s : State) (n : Nat) (x : Cluster) : (s.setCluster n x).out = s.out := rfl
@[simp] theorem State.setCluster_ctx (s : State) (n : Nat) (x : Cluster) (j : Nat) : (s.setCluster n x).ctx j = s.ctx j := rfl
@[simp] theorem State.setCluster_core (s : State) (n : Nat) (x : Cluster) (j : Nat) : (s.setCluster n x).core j = s.core j := rfl
@[simp] theorem State.setCluster_field (s : State) (n : Nat) (x : Cluster) (j : Nat) : (s.setCluster n x).field j = s.field j := rfl
@[simp] theorem State.setCluster_me (s : State) (n : Nat) (x : Cluster) : (s.setCluster n x).me = s.me := rfl

/-! ## setField -/

@[simp] theorem State.setField_ctxs (s : State) (f : Nat) (x : Field) : (s.setField f x).ctxs = s.ctxs := rfl
@[simp] theorem State.setField_cores (s : State) (f : Nat) (x : Field) : (s.setField f x).cores = s.cores := rfl
@[simp] theorem State.setField_clusters (s : State) (f : Nat) (x : Field) : (s.setField f x).clusters = s.clusters := rfl
@[simp] theorem State.setField_parts (s : State) (f : Nat) (x : Field) : (s.setField f x).parts = s.parts := rfl
@[simp] theorem State.setField_launches (s : State) (f : Nat) (x : Field) : (s.setField f x).launches = s.launches := rfl
@[simp] theorem State.setField_groups (s : State) (f : Nat) (x : Field) : (s.setField f x).groups = s.groups := rfl
@[simp] theorem State.setField_revokes (s : State) (f : Nat) (x : Field) : (s.setField f x).revokes = s.revokes := rfl
@[simp] theorem State.setField_ns (s : State) (f : Nat) (x : Field) : (s.setField f x).ns = s.ns := rfl
@[simp] theorem State.setField_clk (s : State) (f : Nat) (x : Field) : (s.setField f x).clk = s.clk := rfl
@[simp] theorem State.setField_locked (s : State) (f : Nat) (x : Field) : (s.setField f x).locked = s.locked := rfl
@[simp] theorem State.setField_gm (s : State) (f : Nat) (x : Field) : (s.setField f x).gm = s.gm := rfl
@[simp] theorem State.setField_toff (s : State) (f : Nat) (x : Field) : (s.setField f x).toff = s.toff := rfl
@[simp] theorem State.setField_stepped (s : State) (f : Nat) (x : Field) : (s.setField f x).stepped = s.stepped := rfl
@[simp] theorem State.setField_kernelPc (s : State) (f : Nat) (x : Field) : (s.setField f x).kernelPc = s.kernelPc := rfl
@[simp] theorem State.setField_stopped (s : State) (f : Nat) (x : Field) : (s.setField f x).stopped = s.stopped := rfl
@[simp] theorem State.setField_cmds (s : State) (f : Nat) (x : Field) : (s.setField f x).cmds = s.cmds := rfl
@[simp] theorem State.setField_slog (s : State) (f : Nat) (x : Field) : (s.setField f x).slog = s.slog := rfl
@[simp] theorem State.setField_fresh (s : State) (f : Nat) (x : Field) : (s.setField f x).fresh = s.fresh := rfl
@[simp] theorem State.setField_cur (s : State) (f : Nat) (x : Field) : (s.setField f x).cur = s.cur := rfl
@[simp] theorem State.setField_agenda (s : State) (f : Nat) (x : Field) : (s.setField f x).agenda = s.agenda := rfl
@[simp] theorem State.setField_agent (s : State) (f : Nat) (x : Field) : (s.setField f x).agent = s.agent := rfl
@[simp] theorem State.setField_out (s : State) (f : Nat) (x : Field) : (s.setField f x).out = s.out := rfl
@[simp] theorem State.setField_ctx (s : State) (f : Nat) (x : Field) (j : Nat) : (s.setField f x).ctx j = s.ctx j := rfl
@[simp] theorem State.setField_core (s : State) (f : Nat) (x : Field) (j : Nat) : (s.setField f x).core j = s.core j := rfl
@[simp] theorem State.setField_cluster (s : State) (f : Nat) (x : Field) (j : Nat) : (s.setField f x).cluster j = s.cluster j := rfl
@[simp] theorem State.setField_me (s : State) (f : Nat) (x : Field) : (s.setField f x).me = s.me := rfl

/-! ## setMe -/

@[simp] theorem State.setMe_cores (s : State) (x : Ctx) : (s.setMe x).cores = s.cores := rfl
@[simp] theorem State.setMe_clusters (s : State) (x : Ctx) : (s.setMe x).clusters = s.clusters := rfl
@[simp] theorem State.setMe_fields (s : State) (x : Ctx) : (s.setMe x).fields = s.fields := rfl
@[simp] theorem State.setMe_parts (s : State) (x : Ctx) : (s.setMe x).parts = s.parts := rfl
@[simp] theorem State.setMe_launches (s : State) (x : Ctx) : (s.setMe x).launches = s.launches := rfl
@[simp] theorem State.setMe_groups (s : State) (x : Ctx) : (s.setMe x).groups = s.groups := rfl
@[simp] theorem State.setMe_revokes (s : State) (x : Ctx) : (s.setMe x).revokes = s.revokes := rfl
@[simp] theorem State.setMe_ns (s : State) (x : Ctx) : (s.setMe x).ns = s.ns := rfl
@[simp] theorem State.setMe_clk (s : State) (x : Ctx) : (s.setMe x).clk = s.clk := rfl
@[simp] theorem State.setMe_locked (s : State) (x : Ctx) : (s.setMe x).locked = s.locked := rfl
@[simp] theorem State.setMe_gm (s : State) (x : Ctx) : (s.setMe x).gm = s.gm := rfl
@[simp] theorem State.setMe_toff (s : State) (x : Ctx) : (s.setMe x).toff = s.toff := rfl
@[simp] theorem State.setMe_stepped (s : State) (x : Ctx) : (s.setMe x).stepped = s.stepped := rfl
@[simp] theorem State.setMe_kernelPc (s : State) (x : Ctx) : (s.setMe x).kernelPc = s.kernelPc := rfl
@[simp] theorem State.setMe_stopped (s : State) (x : Ctx) : (s.setMe x).stopped = s.stopped := rfl
@[simp] theorem State.setMe_cmds (s : State) (x : Ctx) : (s.setMe x).cmds = s.cmds := rfl
@[simp] theorem State.setMe_slog (s : State) (x : Ctx) : (s.setMe x).slog = s.slog := rfl
@[simp] theorem State.setMe_fresh (s : State) (x : Ctx) : (s.setMe x).fresh = s.fresh := rfl
@[simp] theorem State.setMe_cur (s : State) (x : Ctx) : (s.setMe x).cur = s.cur := rfl
@[simp] theorem State.setMe_agenda (s : State) (x : Ctx) : (s.setMe x).agenda = s.agenda := rfl
@[simp] theorem State.setMe_agent (s : State) (x : Ctx) : (s.setMe x).agent = s.agent := rfl
@[simp] theorem State.setMe_out (s : State) (x : Ctx) : (s.setMe x).out = s.out := rfl
@[simp] theorem State.setMe_core (s : State) (x : Ctx) (j : Nat) : (s.setMe x).core j = s.core j := rfl
@[simp] theorem State.setMe_cluster (s : State) (x : Ctx) (j : Nat) : (s.setMe x).cluster j = s.cluster j := rfl
@[simp] theorem State.setMe_field (s : State) (x : Ctx) (j : Nat) : (s.setMe x).field j = s.field j := rfl

/-! ## modCtx -/

@[simp] theorem State.modCtx_cores (s : State) (c : Nat) (g : Ctx → Ctx) : (s.modCtx c g).cores = s.cores := rfl
@[simp] theorem State.modCtx_clusters (s : State) (c : Nat) (g : Ctx → Ctx) : (s.modCtx c g).clusters = s.clusters := rfl
@[simp] theorem State.modCtx_fields (s : State) (c : Nat) (g : Ctx → Ctx) : (s.modCtx c g).fields = s.fields := rfl
@[simp] theorem State.modCtx_parts (s : State) (c : Nat) (g : Ctx → Ctx) : (s.modCtx c g).parts = s.parts := rfl
@[simp] theorem State.modCtx_launches (s : State) (c : Nat) (g : Ctx → Ctx) : (s.modCtx c g).launches = s.launches := rfl
@[simp] theorem State.modCtx_groups (s : State) (c : Nat) (g : Ctx → Ctx) : (s.modCtx c g).groups = s.groups := rfl
@[simp] theorem State.modCtx_revokes (s : State) (c : Nat) (g : Ctx → Ctx) : (s.modCtx c g).revokes = s.revokes := rfl
@[simp] theorem State.modCtx_ns (s : State) (c : Nat) (g : Ctx → Ctx) : (s.modCtx c g).ns = s.ns := rfl
@[simp] theorem State.modCtx_clk (s : State) (c : Nat) (g : Ctx → Ctx) : (s.modCtx c g).clk = s.clk := rfl
@[simp] theorem State.modCtx_locked (s : State) (c : Nat) (g : Ctx → Ctx) : (s.modCtx c g).locked = s.locked := rfl
@[simp] theorem State.modCtx_gm (s : State) (c : Nat) (g : Ctx → Ctx) : (s.modCtx c g).gm = s.gm := rfl
@[simp] theorem State.modCtx_toff (s : State) (c : Nat) (g : Ctx → Ctx) : (s.modCtx c g).toff = s.toff := rfl
@[simp] theorem State.modCtx_stepped (s : State) (c : Nat) (g : Ctx → Ctx) : (s.modCtx c g).stepped = s.stepped := rfl
@[simp] theorem State.modCtx_kernelPc (s : State) (c : Nat) (g : Ctx → Ctx) : (s.modCtx c g).kernelPc = s.kernelPc := rfl
@[simp] theorem State.modCtx_stopped (s : State) (c : Nat) (g : Ctx → Ctx) : (s.modCtx c g).stopped = s.stopped := rfl
@[simp] theorem State.modCtx_cmds (s : State) (c : Nat) (g : Ctx → Ctx) : (s.modCtx c g).cmds = s.cmds := rfl
@[simp] theorem State.modCtx_slog (s : State) (c : Nat) (g : Ctx → Ctx) : (s.modCtx c g).slog = s.slog := rfl
@[simp] theorem State.modCtx_fresh (s : State) (c : Nat) (g : Ctx → Ctx) : (s.modCtx c g).fresh = s.fresh := rfl
@[simp] theorem State.modCtx_cur (s : State) (c : Nat) (g : Ctx → Ctx) : (s.modCtx c g).cur = s.cur := rfl
@[simp] theorem State.modCtx_agenda (s : State) (c : Nat) (g : Ctx → Ctx) : (s.modCtx c g).agenda = s.agenda := rfl
@[simp] theorem State.modCtx_agent (s : State) (c : Nat) (g : Ctx → Ctx) : (s.modCtx c g).agent = s.agent := rfl
@[simp] theorem State.modCtx_out (s : State) (c : Nat) (g : Ctx → Ctx) : (s.modCtx c g).out = s.out := rfl
@[simp] theorem State.modCtx_core (s : State) (c : Nat) (g : Ctx → Ctx) (j : Nat) : (s.modCtx c g).core j = s.core j := rfl
@[simp] theorem State.modCtx_cluster (s : State) (c : Nat) (g : Ctx → Ctx) (j : Nat) : (s.modCtx c g).cluster j = s.cluster j := rfl
@[simp] theorem State.modCtx_field (s : State) (c : Nat) (g : Ctx → Ctx) (j : Nat) : (s.modCtx c g).field j = s.field j := rfl

/-! ## modCore -/

@[simp] theorem State.modCore_ctxs (s : State) (k : Nat) (g : Core → Core) : (s.modCore k g).ctxs = s.ctxs := rfl
@[simp] theorem State.modCore_clusters (s : State) (k : Nat) (g : Core → Core) : (s.modCore k g).clusters = s.clusters := rfl
@[simp] theorem State.modCore_fields (s : State) (k : Nat) (g : Core → Core) : (s.modCore k g).fields = s.fields := rfl
@[simp] theorem State.modCore_parts (s : State) (k : Nat) (g : Core → Core) : (s.modCore k g).parts = s.parts := rfl
@[simp] theorem State.modCore_launches (s : State) (k : Nat) (g : Core → Core) : (s.modCore k g).launches = s.launches := rfl
@[simp] theorem State.modCore_groups (s : State) (k : Nat) (g : Core → Core) : (s.modCore k g).groups = s.groups := rfl
@[simp] theorem State.modCore_revokes (s : State) (k : Nat) (g : Core → Core) : (s.modCore k g).revokes = s.revokes := rfl
@[simp] theorem State.modCore_ns (s : State) (k : Nat) (g : Core → Core) : (s.modCore k g).ns = s.ns := rfl
@[simp] theorem State.modCore_clk (s : State) (k : Nat) (g : Core → Core) : (s.modCore k g).clk = s.clk := rfl
@[simp] theorem State.modCore_locked (s : State) (k : Nat) (g : Core → Core) : (s.modCore k g).locked = s.locked := rfl
@[simp] theorem State.modCore_gm (s : State) (k : Nat) (g : Core → Core) : (s.modCore k g).gm = s.gm := rfl
@[simp] theorem State.modCore_toff (s : State) (k : Nat) (g : Core → Core) : (s.modCore k g).toff = s.toff := rfl
@[simp] theorem State.modCore_stepped (s : State) (k : Nat) (g : Core → Core) : (s.modCore k g).stepped = s.stepped := rfl
@[simp] theorem State.modCore_kernelPc (s : State) (k : Nat) (g : Core → Core) : (s.modCore k g).kernelPc = s.kernelPc := rfl
@[simp] theorem State.modCore_stopped (s : State) (k : Nat) (g : Core → Core) : (s.modCore k g).stopped = s.stopped := rfl
@[simp] theorem State.modCore_cmds (s : State) (k : Nat) (g : Core → Core) : (s.modCore k g).cmds = s.cmds := rfl
@[simp] theorem State.modCore_slog (s : State) (k : Nat) (g : Core → Core) : (s.modCore k g).slog = s.slog := rfl
@[simp] theorem State.modCore_fresh (s : State) (k : Nat) (g : Core → Core) : (s.modCore k g).fresh = s.fresh := rfl
@[simp] theorem State.modCore_cur (s : State) (k : Nat) (g : Core → Core) : (s.modCore k g).cur = s.cur := rfl
@[simp] theorem State.modCore_agenda (s : State) (k : Nat) (g : Core → Core) : (s.modCore k g).agenda = s.agenda := rfl
@[simp] theorem State.modCore_agent (s : State) (k : Nat) (g : Core → Core) : (s.modCore k g).agent = s.agent := rfl
@[simp] theorem State.modCore_out (s : State) (k : Nat) (g : Core → Core) : (s.modCore k g).out = s.out := rfl
@[simp] theorem State.modCore_ctx (s : State) (k : Nat) (g : Core → Core) (j : Nat) : (s.modCore k g).ctx j = s.ctx j := rfl
@[simp] theorem State.modCore_cluster (s : State) (k : Nat) (g : Core → Core) (j : Nat) : (s.modCore k g).cluster j = s.cluster j := rfl
@[simp] theorem State.modCore_field (s : State) (k : Nat) (g : Core → Core) (j : Nat) : (s.modCore k g).field j = s.field j := rfl
@[simp] theorem State.modCore_me (s : State) (k : Nat) (g : Core → Core) : (s.modCore k g).me = s.me := rfl

/-! ## modCluster -/

@[simp] theorem State.modCluster_ctxs (s : State) (n : Nat) (g : Cluster → Cluster) : (s.modCluster n g).ctxs = s.ctxs := rfl
@[simp] theorem State.modCluster_cores (s : State) (n : Nat) (g : Cluster → Cluster) : (s.modCluster n g).cores = s.cores := rfl
@[simp] theorem State.modCluster_fields (s : State) (n : Nat) (g : Cluster → Cluster) : (s.modCluster n g).fields = s.fields := rfl
@[simp] theorem State.modCluster_parts (s : State) (n : Nat) (g : Cluster → Cluster) : (s.modCluster n g).parts = s.parts := rfl
@[simp] theorem State.modCluster_launches (s : State) (n : Nat) (g : Cluster → Cluster) : (s.modCluster n g).launches = s.launches := rfl
@[simp] theorem State.modCluster_groups (s : State) (n : Nat) (g : Cluster → Cluster) : (s.modCluster n g).groups = s.groups := rfl
@[simp] theorem State.modCluster_revokes (s : State) (n : Nat) (g : Cluster → Cluster) : (s.modCluster n g).revokes = s.revokes := rfl
@[simp] theorem State.modCluster_ns (s : State) (n : Nat) (g : Cluster → Cluster) : (s.modCluster n g).ns = s.ns := rfl
@[simp] theorem State.modCluster_clk (s : State) (n : Nat) (g : Cluster → Cluster) : (s.modCluster n g).clk = s.clk := rfl
@[simp] theorem State.modCluster_locked (s : State) (n : Nat) (g : Cluster → Cluster) : (s.modCluster n g).locked = s.locked := rfl
@[simp] theorem State.modCluster_gm (s : State) (n : Nat) (g : Cluster → Cluster) : (s.modCluster n g).gm = s.gm := rfl
@[simp] theorem State.modCluster_toff (s : State) (n : Nat) (g : Cluster → Cluster) : (s.modCluster n g).toff = s.toff := rfl
@[simp] theorem State.modCluster_stepped (s : State) (n : Nat) (g : Cluster → Cluster) : (s.modCluster n g).stepped = s.stepped := rfl
@[simp] theorem State.modCluster_kernelPc (s : State) (n : Nat) (g : Cluster → Cluster) : (s.modCluster n g).kernelPc = s.kernelPc := rfl
@[simp] theorem State.modCluster_stopped (s : State) (n : Nat) (g : Cluster → Cluster) : (s.modCluster n g).stopped = s.stopped := rfl
@[simp] theorem State.modCluster_cmds (s : State) (n : Nat) (g : Cluster → Cluster) : (s.modCluster n g).cmds = s.cmds := rfl
@[simp] theorem State.modCluster_slog (s : State) (n : Nat) (g : Cluster → Cluster) : (s.modCluster n g).slog = s.slog := rfl
@[simp] theorem State.modCluster_fresh (s : State) (n : Nat) (g : Cluster → Cluster) : (s.modCluster n g).fresh = s.fresh := rfl
@[simp] theorem State.modCluster_cur (s : State) (n : Nat) (g : Cluster → Cluster) : (s.modCluster n g).cur = s.cur := rfl
@[simp] theorem State.modCluster_agenda (s : State) (n : Nat) (g : Cluster → Cluster) : (s.modCluster n g).agenda = s.agenda := rfl
@[simp] theorem State.modCluster_agent (s : State) (n : Nat) (g : Cluster → Cluster) : (s.modCluster n g).agent = s.agent := rfl
@[simp] theorem State.modCluster_out (s : State) (n : Nat) (g : Cluster → Cluster) : (s.modCluster n g).out = s.out := rfl
@[simp] theorem State.modCluster_ctx (s : State) (n : Nat) (g : Cluster → Cluster) (j : Nat) : (s.modCluster n g).ctx j = s.ctx j := rfl
@[simp] theorem State.modCluster_core (s : State) (n : Nat) (g : Cluster → Cluster) (j : Nat) : (s.modCluster n g).core j = s.core j := rfl
@[simp] theorem State.modCluster_field (s : State) (n : Nat) (g : Cluster → Cluster) (j : Nat) : (s.modCluster n g).field j = s.field j := rfl
@[simp] theorem State.modCluster_me (s : State) (n : Nat) (g : Cluster → Cluster) : (s.modCluster n g).me = s.me := rfl

/-! ## modField -/

@[simp] theorem State.modField_ctxs (s : State) (f : Nat) (g : Field → Field) : (s.modField f g).ctxs = s.ctxs := rfl
@[simp] theorem State.modField_cores (s : State) (f : Nat) (g : Field → Field) : (s.modField f g).cores = s.cores := rfl
@[simp] theorem State.modField_clusters (s : State) (f : Nat) (g : Field → Field) : (s.modField f g).clusters = s.clusters := rfl
@[simp] theorem State.modField_parts (s : State) (f : Nat) (g : Field → Field) : (s.modField f g).parts = s.parts := rfl
@[simp] theorem State.modField_launches (s : State) (f : Nat) (g : Field → Field) : (s.modField f g).launches = s.launches := rfl
@[simp] theorem State.modField_groups (s : State) (f : Nat) (g : Field → Field) : (s.modField f g).groups = s.groups := rfl
@[simp] theorem State.modField_revokes (s : State) (f : Nat) (g : Field → Field) : (s.modField f g).revokes = s.revokes := rfl
@[simp] theorem State.modField_ns (s : State) (f : Nat) (g : Field → Field) : (s.modField f g).ns = s.ns := rfl
@[simp] theorem State.modField_clk (s : State) (f : Nat) (g : Field → Field) : (s.modField f g).clk = s.clk := rfl
@[simp] theorem State.modField_locked (s : State) (f : Nat) (g : Field → Field) : (s.modField f g).locked = s.locked := rfl
@[simp] theorem State.modField_gm (s : State) (f : Nat) (g : Field → Field) : (s.modField f g).gm = s.gm := rfl
@[simp] theorem State.modField_toff (s : State) (f : Nat) (g : Field → Field) : (s.modField f g).toff = s.toff := rfl
@[simp] theorem State.modField_stepped (s : State) (f : Nat) (g : Field → Field) : (s.modField f g).stepped = s.stepped := rfl
@[simp] theorem State.modField_kernelPc (s : State) (f : Nat) (g : Field → Field) : (s.modField f g).kernelPc = s.kernelPc := rfl
@[simp] theorem State.modField_stopped (s : State) (f : Nat) (g : Field → Field) : (s.modField f g).stopped = s.stopped := rfl
@[simp] theorem State.modField_cmds (s : State) (f : Nat) (g : Field → Field) : (s.modField f g).cmds = s.cmds := rfl
@[simp] theorem State.modField_slog (s : State) (f : Nat) (g : Field → Field) : (s.modField f g).slog = s.slog := rfl
@[simp] theorem State.modField_fresh (s : State) (f : Nat) (g : Field → Field) : (s.modField f g).fresh = s.fresh := rfl
@[simp] theorem State.modField_cur (s : State) (f : Nat) (g : Field → Field) : (s.modField f g).cur = s.cur := rfl
@[simp] theorem State.modField_agenda (s : State) (f : Nat) (g : Field → Field) : (s.modField f g).agenda = s.agenda := rfl
@[simp] theorem State.modField_agent (s : State) (f : Nat) (g : Field → Field) : (s.modField f g).agent = s.agent := rfl
@[simp] theorem State.modField_out (s : State) (f : Nat) (g : Field → Field) : (s.modField f g).out = s.out := rfl
@[simp] theorem State.modField_ctx (s : State) (f : Nat) (g : Field → Field) (j : Nat) : (s.modField f g).ctx j = s.ctx j := rfl
@[simp] theorem State.modField_core (s : State) (f : Nat) (g : Field → Field) (j : Nat) : (s.modField f g).core j = s.core j := rfl
@[simp] theorem State.modField_cluster (s : State) (f : Nat) (g : Field → Field) (j : Nat) : (s.modField f g).cluster j = s.cluster j := rfl
@[simp] theorem State.modField_me (s : State) (f : Nat) (g : Field → Field) : (s.modField f g).me = s.me := rfl

/-! ## bump -/

@[simp] theorem State.bump_ctxs (s : State) : s.bump.ctxs = s.ctxs := rfl
@[simp] theorem State.bump_cores (s : State) : s.bump.cores = s.cores := rfl
@[simp] theorem State.bump_clusters (s : State) : s.bump.clusters = s.clusters := rfl
@[simp] theorem State.bump_fields (s : State) : s.bump.fields = s.fields := rfl
@[simp] theorem State.bump_parts (s : State) : s.bump.parts = s.parts := rfl
@[simp] theorem State.bump_launches (s : State) : s.bump.launches = s.launches := rfl
@[simp] theorem State.bump_groups (s : State) : s.bump.groups = s.groups := rfl
@[simp] theorem State.bump_revokes (s : State) : s.bump.revokes = s.revokes := rfl
@[simp] theorem State.bump_ns (s : State) : s.bump.ns = s.ns := rfl
@[simp] theorem State.bump_clk (s : State) : s.bump.clk = s.clk := rfl
@[simp] theorem State.bump_locked (s : State) : s.bump.locked = s.locked := rfl
@[simp] theorem State.bump_gm (s : State) : s.bump.gm = s.gm := rfl
@[simp] theorem State.bump_toff (s : State) : s.bump.toff = s.toff := rfl
@[simp] theorem State.bump_stepped (s : State) : s.bump.stepped = s.stepped := rfl
@[simp] theorem State.bump_kernelPc (s : State) : s.bump.kernelPc = s.kernelPc := rfl
@[simp] theorem State.bump_stopped (s : State) : s.bump.stopped = s.stopped := rfl
@[simp] theorem State.bump_cmds (s : State) : s.bump.cmds = s.cmds := rfl
@[simp] theorem State.bump_slog (s : State) : s.bump.slog = s.slog := rfl
@[simp] theorem State.bump_cur (s : State) : s.bump.cur = s.cur := rfl
@[simp] theorem State.bump_agenda (s : State) : s.bump.agenda = s.agenda := rfl
@[simp] theorem State.bump_agent (s : State) : s.bump.agent = s.agent := rfl
@[simp] theorem State.bump_out (s : State) : s.bump.out = s.out := rfl
@[simp] theorem State.bump_ctx (s : State) (j : Nat) : s.bump.ctx j = s.ctx j := rfl
@[simp] theorem State.bump_core (s : State) (j : Nat) : s.bump.core j = s.core j := rfl
@[simp] theorem State.bump_cluster (s : State) (j : Nat) : s.bump.cluster j = s.cluster j := rfl
@[simp] theorem State.bump_field (s : State) (j : Nat) : s.bump.field j = s.field j := rfl
@[simp] theorem State.bump_me (s : State) : s.bump.me = s.me := rfl

/-! ## Register writes and advance of a context -/

@[simp] theorem Ctx.wg_pc (c : Ctx) (r : GReg) (x : Word) : (c.wg r x).pc = c.pc := by unfold Ctx.wg; split <;> rfl
@[simp] theorem Ctx.wg_p (c : Ctx) (r : GReg) (x : Word) : (c.wg r x).p = c.p := by unfold Ctx.wg; split <;> rfl
@[simp] theorem Ctx.wg_v (c : Ctx) (r : GReg) (x : Word) : (c.wg r x).v = c.v := by unfold Ctx.wg; split <;> rfl
@[simp] theorem Ctx.wg_q (c : Ctx) (r : GReg) (x : Word) : (c.wg r x).q = c.q := by unfold Ctx.wg; split <;> rfl
@[simp] theorem Ctx.wg_fstat (c : Ctx) (r : GReg) (x : Word) : (c.wg r x).fstat = c.fstat := by unfold Ctx.wg; split <;> rfl
@[simp] theorem Ctx.wg_lvl (c : Ctx) (r : GReg) (x : Word) : (c.wg r x).lvl = c.lvl := by unfold Ctx.wg; split <;> rfl
@[simp] theorem Ctx.wg_preq (c : Ctx) (r : GReg) (x : Word) : (c.wg r x).preq = c.preq := by unfold Ctx.wg; split <;> rfl
@[simp] theorem Ctx.wg_asidr (c : Ctx) (r : GReg) (x : Word) : (c.wg r x).asidr = c.asidr := by unfold Ctx.wg; split <;> rfl
@[simp] theorem Ctx.wg_ftvec (c : Ctx) (r : GReg) (x : Word) : (c.wg r x).ftvec = c.ftvec := by unfold Ctx.wg; split <;> rfl
@[simp] theorem Ctx.wg_utvec (c : Ctx) (r : GReg) (x : Word) : (c.wg r x).utvec = c.utvec := by unfold Ctx.wg; split <;> rfl
@[simp] theorem Ctx.wg_tcause (c : Ctx) (r : GReg) (x : Word) : (c.wg r x).tcause = c.tcause := by unfold Ctx.wg; split <;> rfl
@[simp] theorem Ctx.wg_tpc (c : Ctx) (r : GReg) (x : Word) : (c.wg r x).tpc = c.tpc := by unfold Ctx.wg; split <;> rfl
@[simp] theorem Ctx.wg_tval (c : Ctx) (r : GReg) (x : Word) : (c.wg r x).tval = c.tval := by unfold Ctx.wg; split <;> rfl
@[simp] theorem Ctx.wg_tsave (c : Ctx) (r : GReg) (x : Word) : (c.wg r x).tsave = c.tsave := by unfold Ctx.wg; split <;> rfl
@[simp] theorem Ctx.wg_utcause (c : Ctx) (r : GReg) (x : Word) : (c.wg r x).utcause = c.utcause := by unfold Ctx.wg; split <;> rfl
@[simp] theorem Ctx.wg_utpc (c : Ctx) (r : GReg) (x : Word) : (c.wg r x).utpc = c.utpc := by unfold Ctx.wg; split <;> rfl
@[simp] theorem Ctx.wg_utval (c : Ctx) (r : GReg) (x : Word) : (c.wg r x).utval = c.utval := by unfold Ctx.wg; split <;> rfl
@[simp] theorem Ctx.wg_pdl (c : Ctx) (r : GReg) (x : Word) : (c.wg r x).pdl = c.pdl := by unfold Ctx.wg; split <;> rfl
@[simp] theorem Ctx.wg_sqDepth (c : Ctx) (r : GReg) (x : Word) : (c.wg r x).sqDepth = c.sqDepth := by unfold Ctx.wg; split <;> rfl
@[simp] theorem Ctx.wg_ppov (c : Ctx) (r : GReg) (x : Word) : (c.wg r x).ppov = c.ppov := by unfold Ctx.wg; split <;> rfl
@[simp] theorem Ctx.wg_ring (c : Ctx) (r : GReg) (x : Word) : (c.wg r x).ring = c.ring := by unfold Ctx.wg; split <;> rfl
@[simp] theorem Ctx.wg_nextSeq (c : Ctx) (r : GReg) (x : Word) : (c.wg r x).nextSeq = c.nextSeq := by unfold Ctx.wg; split <;> rfl
@[simp] theorem Ctx.wg_windows (c : Ctx) (r : GReg) (x : Word) : (c.wg r x).windows = c.windows := by unfold Ctx.wg; split <;> rfl
@[simp] theorem Ctx.wg_pend (c : Ctx) (r : GReg) (x : Word) : (c.wg r x).pend = c.pend := by unfold Ctx.wg; split <;> rfl
@[simp] theorem Ctx.wg_mscl (c : Ctx) (r : GReg) (x : Word) : (c.wg r x).mscl = c.mscl := by unfold Ctx.wg; split <;> rfl
@[simp] theorem Ctx.wg_shadow0 (c : Ctx) (r : GReg) (x : Word) : (c.wg r x).shadow0 = c.shadow0 := by unfold Ctx.wg; split <;> rfl
@[simp] theorem Ctx.wg_shadow1 (c : Ctx) (r : GReg) (x : Word) : (c.wg r x).shadow1 = c.shadow1 := by unfold Ctx.wg; split <;> rfl
@[simp] theorem Ctx.wg_st (c : Ctx) (r : GReg) (x : Word) : (c.wg r x).st = c.st := by unfold Ctx.wg; split <;> rfl
@[simp] theorem Ctx.wg_task (c : Ctx) (r : GReg) (x : Word) : (c.wg r x).task = c.task := by unfold Ctx.wg; split <;> rfl
@[simp] theorem Ctx.wg_sent (c : Ctx) (r : GReg) (x : Word) : (c.wg r x).sent = c.sent := by unfold Ctx.wg; split <;> rfl
@[simp] theorem Ctx.wg_parts (c : Ctx) (r : GReg) (x : Word) : (c.wg r x).parts = c.parts := by unfold Ctx.wg; split <;> rfl
@[simp] theorem Ctx.wg_rim (c : Ctx) (r : GReg) (x : Word) : (c.wg r x).rim = c.rim := by unfold Ctx.wg; split <;> rfl
@[simp] theorem Ctx.wg_yieldDue (c : Ctx) (r : GReg) (x : Word) : (c.wg r x).yieldDue = c.yieldDue := by unfold Ctx.wg; split <;> rfl
@[simp] theorem Ctx.wg_saving (c : Ctx) (r : GReg) (x : Word) : (c.wg r x).saving = c.saving := by unfold Ctx.wg; split <;> rfl
@[simp] theorem Ctx.wg_vec (c : Ctx) (r : GReg) (x : Word) : (c.wg r x).vec = c.vec := by unfold Ctx.wg; split <;> rfl
@[simp] theorem Ctx.wg_cancelled (c : Ctx) (r : GReg) (x : Word) : (c.wg r x).cancelled = c.cancelled := by unfold Ctx.wg; split <;> rfl
@[simp] theorem Ctx.wg_preqClk (c : Ctx) (r : GReg) (x : Word) : (c.wg r x).preqClk = c.preqClk := by unfold Ctx.wg; split <;> rfl
@[simp] theorem Ctx.wg_preqFor (c : Ctx) (r : GReg) (x : Word) : (c.wg r x).preqFor = c.preqFor := by unfold Ctx.wg; split <;> rfl
@[simp] theorem Ctx.wg_seen (c : Ctx) (r : GReg) (x : Word) : (c.wg r x).seen = c.seen := by unfold Ctx.wg; split <;> rfl

@[simp] theorem Ctx.wp_pc (c : Ctx) (r : PReg) (x : Bool) : (c.wp r x).pc = c.pc := by unfold Ctx.wp; split <;> rfl
@[simp] theorem Ctx.wp_g (c : Ctx) (r : PReg) (x : Bool) : (c.wp r x).g = c.g := by unfold Ctx.wp; split <;> rfl
@[simp] theorem Ctx.wp_v (c : Ctx) (r : PReg) (x : Bool) : (c.wp r x).v = c.v := by unfold Ctx.wp; split <;> rfl
@[simp] theorem Ctx.wp_q (c : Ctx) (r : PReg) (x : Bool) : (c.wp r x).q = c.q := by unfold Ctx.wp; split <;> rfl
@[simp] theorem Ctx.wp_fstat (c : Ctx) (r : PReg) (x : Bool) : (c.wp r x).fstat = c.fstat := by unfold Ctx.wp; split <;> rfl
@[simp] theorem Ctx.wp_lvl (c : Ctx) (r : PReg) (x : Bool) : (c.wp r x).lvl = c.lvl := by unfold Ctx.wp; split <;> rfl
@[simp] theorem Ctx.wp_preq (c : Ctx) (r : PReg) (x : Bool) : (c.wp r x).preq = c.preq := by unfold Ctx.wp; split <;> rfl
@[simp] theorem Ctx.wp_asidr (c : Ctx) (r : PReg) (x : Bool) : (c.wp r x).asidr = c.asidr := by unfold Ctx.wp; split <;> rfl
@[simp] theorem Ctx.wp_ftvec (c : Ctx) (r : PReg) (x : Bool) : (c.wp r x).ftvec = c.ftvec := by unfold Ctx.wp; split <;> rfl
@[simp] theorem Ctx.wp_utvec (c : Ctx) (r : PReg) (x : Bool) : (c.wp r x).utvec = c.utvec := by unfold Ctx.wp; split <;> rfl
@[simp] theorem Ctx.wp_tcause (c : Ctx) (r : PReg) (x : Bool) : (c.wp r x).tcause = c.tcause := by unfold Ctx.wp; split <;> rfl
@[simp] theorem Ctx.wp_tpc (c : Ctx) (r : PReg) (x : Bool) : (c.wp r x).tpc = c.tpc := by unfold Ctx.wp; split <;> rfl
@[simp] theorem Ctx.wp_tval (c : Ctx) (r : PReg) (x : Bool) : (c.wp r x).tval = c.tval := by unfold Ctx.wp; split <;> rfl
@[simp] theorem Ctx.wp_tsave (c : Ctx) (r : PReg) (x : Bool) : (c.wp r x).tsave = c.tsave := by unfold Ctx.wp; split <;> rfl
@[simp] theorem Ctx.wp_utcause (c : Ctx) (r : PReg) (x : Bool) : (c.wp r x).utcause = c.utcause := by unfold Ctx.wp; split <;> rfl
@[simp] theorem Ctx.wp_utpc (c : Ctx) (r : PReg) (x : Bool) : (c.wp r x).utpc = c.utpc := by unfold Ctx.wp; split <;> rfl
@[simp] theorem Ctx.wp_utval (c : Ctx) (r : PReg) (x : Bool) : (c.wp r x).utval = c.utval := by unfold Ctx.wp; split <;> rfl
@[simp] theorem Ctx.wp_pdl (c : Ctx) (r : PReg) (x : Bool) : (c.wp r x).pdl = c.pdl := by unfold Ctx.wp; split <;> rfl
@[simp] theorem Ctx.wp_sqDepth (c : Ctx) (r : PReg) (x : Bool) : (c.wp r x).sqDepth = c.sqDepth := by unfold Ctx.wp; split <;> rfl
@[simp] theorem Ctx.wp_ppov (c : Ctx) (r : PReg) (x : Bool) : (c.wp r x).ppov = c.ppov := by unfold Ctx.wp; split <;> rfl
@[simp] theorem Ctx.wp_ring (c : Ctx) (r : PReg) (x : Bool) : (c.wp r x).ring = c.ring := by unfold Ctx.wp; split <;> rfl
@[simp] theorem Ctx.wp_nextSeq (c : Ctx) (r : PReg) (x : Bool) : (c.wp r x).nextSeq = c.nextSeq := by unfold Ctx.wp; split <;> rfl
@[simp] theorem Ctx.wp_windows (c : Ctx) (r : PReg) (x : Bool) : (c.wp r x).windows = c.windows := by unfold Ctx.wp; split <;> rfl
@[simp] theorem Ctx.wp_pend (c : Ctx) (r : PReg) (x : Bool) : (c.wp r x).pend = c.pend := by unfold Ctx.wp; split <;> rfl
@[simp] theorem Ctx.wp_mscl (c : Ctx) (r : PReg) (x : Bool) : (c.wp r x).mscl = c.mscl := by unfold Ctx.wp; split <;> rfl
@[simp] theorem Ctx.wp_shadow0 (c : Ctx) (r : PReg) (x : Bool) : (c.wp r x).shadow0 = c.shadow0 := by unfold Ctx.wp; split <;> rfl
@[simp] theorem Ctx.wp_shadow1 (c : Ctx) (r : PReg) (x : Bool) : (c.wp r x).shadow1 = c.shadow1 := by unfold Ctx.wp; split <;> rfl
@[simp] theorem Ctx.wp_st (c : Ctx) (r : PReg) (x : Bool) : (c.wp r x).st = c.st := by unfold Ctx.wp; split <;> rfl
@[simp] theorem Ctx.wp_task (c : Ctx) (r : PReg) (x : Bool) : (c.wp r x).task = c.task := by unfold Ctx.wp; split <;> rfl
@[simp] theorem Ctx.wp_sent (c : Ctx) (r : PReg) (x : Bool) : (c.wp r x).sent = c.sent := by unfold Ctx.wp; split <;> rfl
@[simp] theorem Ctx.wp_parts (c : Ctx) (r : PReg) (x : Bool) : (c.wp r x).parts = c.parts := by unfold Ctx.wp; split <;> rfl
@[simp] theorem Ctx.wp_rim (c : Ctx) (r : PReg) (x : Bool) : (c.wp r x).rim = c.rim := by unfold Ctx.wp; split <;> rfl
@[simp] theorem Ctx.wp_yieldDue (c : Ctx) (r : PReg) (x : Bool) : (c.wp r x).yieldDue = c.yieldDue := by unfold Ctx.wp; split <;> rfl
@[simp] theorem Ctx.wp_saving (c : Ctx) (r : PReg) (x : Bool) : (c.wp r x).saving = c.saving := by unfold Ctx.wp; split <;> rfl
@[simp] theorem Ctx.wp_vec (c : Ctx) (r : PReg) (x : Bool) : (c.wp r x).vec = c.vec := by unfold Ctx.wp; split <;> rfl
@[simp] theorem Ctx.wp_cancelled (c : Ctx) (r : PReg) (x : Bool) : (c.wp r x).cancelled = c.cancelled := by unfold Ctx.wp; split <;> rfl
@[simp] theorem Ctx.wp_preqClk (c : Ctx) (r : PReg) (x : Bool) : (c.wp r x).preqClk = c.preqClk := by unfold Ctx.wp; split <;> rfl
@[simp] theorem Ctx.wp_preqFor (c : Ctx) (r : PReg) (x : Bool) : (c.wp r x).preqFor = c.preqFor := by unfold Ctx.wp; split <;> rfl
@[simp] theorem Ctx.wp_seen (c : Ctx) (r : PReg) (x : Bool) : (c.wp r x).seen = c.seen := by unfold Ctx.wp; split <;> rfl

@[simp] theorem Ctx.wq_pc (c : Ctx) (r : QReg) (x : QWord) : (c.wq r x).pc = c.pc := by unfold Ctx.wq; split <;> rfl
@[simp] theorem Ctx.wq_g (c : Ctx) (r : QReg) (x : QWord) : (c.wq r x).g = c.g := by unfold Ctx.wq; split <;> rfl
@[simp] theorem Ctx.wq_p (c : Ctx) (r : QReg) (x : QWord) : (c.wq r x).p = c.p := by unfold Ctx.wq; split <;> rfl
@[simp] theorem Ctx.wq_v (c : Ctx) (r : QReg) (x : QWord) : (c.wq r x).v = c.v := by unfold Ctx.wq; split <;> rfl
@[simp] theorem Ctx.wq_fstat (c : Ctx) (r : QReg) (x : QWord) : (c.wq r x).fstat = c.fstat := by unfold Ctx.wq; split <;> rfl
@[simp] theorem Ctx.wq_lvl (c : Ctx) (r : QReg) (x : QWord) : (c.wq r x).lvl = c.lvl := by unfold Ctx.wq; split <;> rfl
@[simp] theorem Ctx.wq_preq (c : Ctx) (r : QReg) (x : QWord) : (c.wq r x).preq = c.preq := by unfold Ctx.wq; split <;> rfl
@[simp] theorem Ctx.wq_asidr (c : Ctx) (r : QReg) (x : QWord) : (c.wq r x).asidr = c.asidr := by unfold Ctx.wq; split <;> rfl
@[simp] theorem Ctx.wq_ftvec (c : Ctx) (r : QReg) (x : QWord) : (c.wq r x).ftvec = c.ftvec := by unfold Ctx.wq; split <;> rfl
@[simp] theorem Ctx.wq_utvec (c : Ctx) (r : QReg) (x : QWord) : (c.wq r x).utvec = c.utvec := by unfold Ctx.wq; split <;> rfl
@[simp] theorem Ctx.wq_tcause (c : Ctx) (r : QReg) (x : QWord) : (c.wq r x).tcause = c.tcause := by unfold Ctx.wq; split <;> rfl
@[simp] theorem Ctx.wq_tpc (c : Ctx) (r : QReg) (x : QWord) : (c.wq r x).tpc = c.tpc := by unfold Ctx.wq; split <;> rfl
@[simp] theorem Ctx.wq_tval (c : Ctx) (r : QReg) (x : QWord) : (c.wq r x).tval = c.tval := by unfold Ctx.wq; split <;> rfl
@[simp] theorem Ctx.wq_tsave (c : Ctx) (r : QReg) (x : QWord) : (c.wq r x).tsave = c.tsave := by unfold Ctx.wq; split <;> rfl
@[simp] theorem Ctx.wq_utcause (c : Ctx) (r : QReg) (x : QWord) : (c.wq r x).utcause = c.utcause := by unfold Ctx.wq; split <;> rfl
@[simp] theorem Ctx.wq_utpc (c : Ctx) (r : QReg) (x : QWord) : (c.wq r x).utpc = c.utpc := by unfold Ctx.wq; split <;> rfl
@[simp] theorem Ctx.wq_utval (c : Ctx) (r : QReg) (x : QWord) : (c.wq r x).utval = c.utval := by unfold Ctx.wq; split <;> rfl
@[simp] theorem Ctx.wq_pdl (c : Ctx) (r : QReg) (x : QWord) : (c.wq r x).pdl = c.pdl := by unfold Ctx.wq; split <;> rfl
@[simp] theorem Ctx.wq_sqDepth (c : Ctx) (r : QReg) (x : QWord) : (c.wq r x).sqDepth = c.sqDepth := by unfold Ctx.wq; split <;> rfl
@[simp] theorem Ctx.wq_ppov (c : Ctx) (r : QReg) (x : QWord) : (c.wq r x).ppov = c.ppov := by unfold Ctx.wq; split <;> rfl
@[simp] theorem Ctx.wq_ring (c : Ctx) (r : QReg) (x : QWord) : (c.wq r x).ring = c.ring := by unfold Ctx.wq; split <;> rfl
@[simp] theorem Ctx.wq_nextSeq (c : Ctx) (r : QReg) (x : QWord) : (c.wq r x).nextSeq = c.nextSeq := by unfold Ctx.wq; split <;> rfl
@[simp] theorem Ctx.wq_windows (c : Ctx) (r : QReg) (x : QWord) : (c.wq r x).windows = c.windows := by unfold Ctx.wq; split <;> rfl
@[simp] theorem Ctx.wq_pend (c : Ctx) (r : QReg) (x : QWord) : (c.wq r x).pend = c.pend := by unfold Ctx.wq; split <;> rfl
@[simp] theorem Ctx.wq_mscl (c : Ctx) (r : QReg) (x : QWord) : (c.wq r x).mscl = c.mscl := by unfold Ctx.wq; split <;> rfl
@[simp] theorem Ctx.wq_shadow0 (c : Ctx) (r : QReg) (x : QWord) : (c.wq r x).shadow0 = c.shadow0 := by unfold Ctx.wq; split <;> rfl
@[simp] theorem Ctx.wq_shadow1 (c : Ctx) (r : QReg) (x : QWord) : (c.wq r x).shadow1 = c.shadow1 := by unfold Ctx.wq; split <;> rfl
@[simp] theorem Ctx.wq_st (c : Ctx) (r : QReg) (x : QWord) : (c.wq r x).st = c.st := by unfold Ctx.wq; split <;> rfl
@[simp] theorem Ctx.wq_task (c : Ctx) (r : QReg) (x : QWord) : (c.wq r x).task = c.task := by unfold Ctx.wq; split <;> rfl
@[simp] theorem Ctx.wq_sent (c : Ctx) (r : QReg) (x : QWord) : (c.wq r x).sent = c.sent := by unfold Ctx.wq; split <;> rfl
@[simp] theorem Ctx.wq_parts (c : Ctx) (r : QReg) (x : QWord) : (c.wq r x).parts = c.parts := by unfold Ctx.wq; split <;> rfl
@[simp] theorem Ctx.wq_rim (c : Ctx) (r : QReg) (x : QWord) : (c.wq r x).rim = c.rim := by unfold Ctx.wq; split <;> rfl
@[simp] theorem Ctx.wq_yieldDue (c : Ctx) (r : QReg) (x : QWord) : (c.wq r x).yieldDue = c.yieldDue := by unfold Ctx.wq; split <;> rfl
@[simp] theorem Ctx.wq_saving (c : Ctx) (r : QReg) (x : QWord) : (c.wq r x).saving = c.saving := by unfold Ctx.wq; split <;> rfl
@[simp] theorem Ctx.wq_vec (c : Ctx) (r : QReg) (x : QWord) : (c.wq r x).vec = c.vec := by unfold Ctx.wq; split <;> rfl
@[simp] theorem Ctx.wq_cancelled (c : Ctx) (r : QReg) (x : QWord) : (c.wq r x).cancelled = c.cancelled := by unfold Ctx.wq; split <;> rfl
@[simp] theorem Ctx.wq_preqClk (c : Ctx) (r : QReg) (x : QWord) : (c.wq r x).preqClk = c.preqClk := by unfold Ctx.wq; split <;> rfl
@[simp] theorem Ctx.wq_preqFor (c : Ctx) (r : QReg) (x : QWord) : (c.wq r x).preqFor = c.preqFor := by unfold Ctx.wq; split <;> rfl
@[simp] theorem Ctx.wq_seen (c : Ctx) (r : QReg) (x : QWord) : (c.wq r x).seen = c.seen := by unfold Ctx.wq; split <;> rfl

@[simp] theorem Ctx.wv_pc (c : Ctx) (r : VReg) (x : VWord) : (c.wv r x).pc = c.pc := rfl
@[simp] theorem Ctx.wv_g (c : Ctx) (r : VReg) (x : VWord) : (c.wv r x).g = c.g := rfl
@[simp] theorem Ctx.wv_p (c : Ctx) (r : VReg) (x : VWord) : (c.wv r x).p = c.p := rfl
@[simp] theorem Ctx.wv_q (c : Ctx) (r : VReg) (x : VWord) : (c.wv r x).q = c.q := rfl
@[simp] theorem Ctx.wv_fstat (c : Ctx) (r : VReg) (x : VWord) : (c.wv r x).fstat = c.fstat := rfl
@[simp] theorem Ctx.wv_lvl (c : Ctx) (r : VReg) (x : VWord) : (c.wv r x).lvl = c.lvl := rfl
@[simp] theorem Ctx.wv_preq (c : Ctx) (r : VReg) (x : VWord) : (c.wv r x).preq = c.preq := rfl
@[simp] theorem Ctx.wv_asidr (c : Ctx) (r : VReg) (x : VWord) : (c.wv r x).asidr = c.asidr := rfl
@[simp] theorem Ctx.wv_ftvec (c : Ctx) (r : VReg) (x : VWord) : (c.wv r x).ftvec = c.ftvec := rfl
@[simp] theorem Ctx.wv_utvec (c : Ctx) (r : VReg) (x : VWord) : (c.wv r x).utvec = c.utvec := rfl
@[simp] theorem Ctx.wv_tcause (c : Ctx) (r : VReg) (x : VWord) : (c.wv r x).tcause = c.tcause := rfl
@[simp] theorem Ctx.wv_tpc (c : Ctx) (r : VReg) (x : VWord) : (c.wv r x).tpc = c.tpc := rfl
@[simp] theorem Ctx.wv_tval (c : Ctx) (r : VReg) (x : VWord) : (c.wv r x).tval = c.tval := rfl
@[simp] theorem Ctx.wv_tsave (c : Ctx) (r : VReg) (x : VWord) : (c.wv r x).tsave = c.tsave := rfl
@[simp] theorem Ctx.wv_utcause (c : Ctx) (r : VReg) (x : VWord) : (c.wv r x).utcause = c.utcause := rfl
@[simp] theorem Ctx.wv_utpc (c : Ctx) (r : VReg) (x : VWord) : (c.wv r x).utpc = c.utpc := rfl
@[simp] theorem Ctx.wv_utval (c : Ctx) (r : VReg) (x : VWord) : (c.wv r x).utval = c.utval := rfl
@[simp] theorem Ctx.wv_pdl (c : Ctx) (r : VReg) (x : VWord) : (c.wv r x).pdl = c.pdl := rfl
@[simp] theorem Ctx.wv_sqDepth (c : Ctx) (r : VReg) (x : VWord) : (c.wv r x).sqDepth = c.sqDepth := rfl
@[simp] theorem Ctx.wv_ppov (c : Ctx) (r : VReg) (x : VWord) : (c.wv r x).ppov = c.ppov := rfl
@[simp] theorem Ctx.wv_ring (c : Ctx) (r : VReg) (x : VWord) : (c.wv r x).ring = c.ring := rfl
@[simp] theorem Ctx.wv_nextSeq (c : Ctx) (r : VReg) (x : VWord) : (c.wv r x).nextSeq = c.nextSeq := rfl
@[simp] theorem Ctx.wv_windows (c : Ctx) (r : VReg) (x : VWord) : (c.wv r x).windows = c.windows := rfl
@[simp] theorem Ctx.wv_pend (c : Ctx) (r : VReg) (x : VWord) : (c.wv r x).pend = c.pend := rfl
@[simp] theorem Ctx.wv_mscl (c : Ctx) (r : VReg) (x : VWord) : (c.wv r x).mscl = c.mscl := rfl
@[simp] theorem Ctx.wv_shadow0 (c : Ctx) (r : VReg) (x : VWord) : (c.wv r x).shadow0 = c.shadow0 := rfl
@[simp] theorem Ctx.wv_shadow1 (c : Ctx) (r : VReg) (x : VWord) : (c.wv r x).shadow1 = c.shadow1 := rfl
@[simp] theorem Ctx.wv_st (c : Ctx) (r : VReg) (x : VWord) : (c.wv r x).st = c.st := rfl
@[simp] theorem Ctx.wv_task (c : Ctx) (r : VReg) (x : VWord) : (c.wv r x).task = c.task := rfl
@[simp] theorem Ctx.wv_sent (c : Ctx) (r : VReg) (x : VWord) : (c.wv r x).sent = c.sent := rfl
@[simp] theorem Ctx.wv_parts (c : Ctx) (r : VReg) (x : VWord) : (c.wv r x).parts = c.parts := rfl
@[simp] theorem Ctx.wv_rim (c : Ctx) (r : VReg) (x : VWord) : (c.wv r x).rim = c.rim := rfl
@[simp] theorem Ctx.wv_yieldDue (c : Ctx) (r : VReg) (x : VWord) : (c.wv r x).yieldDue = c.yieldDue := rfl
@[simp] theorem Ctx.wv_saving (c : Ctx) (r : VReg) (x : VWord) : (c.wv r x).saving = c.saving := rfl
@[simp] theorem Ctx.wv_vec (c : Ctx) (r : VReg) (x : VWord) : (c.wv r x).vec = c.vec := rfl
@[simp] theorem Ctx.wv_cancelled (c : Ctx) (r : VReg) (x : VWord) : (c.wv r x).cancelled = c.cancelled := rfl
@[simp] theorem Ctx.wv_preqClk (c : Ctx) (r : VReg) (x : VWord) : (c.wv r x).preqClk = c.preqClk := rfl
@[simp] theorem Ctx.wv_preqFor (c : Ctx) (r : VReg) (x : VWord) : (c.wv r x).preqFor = c.preqFor := rfl
@[simp] theorem Ctx.wv_seen (c : Ctx) (r : VReg) (x : VWord) : (c.wv r x).seen = c.seen := rfl

@[simp] theorem Ctx.advance_g (c : Ctx) : c.advance.g = c.g := rfl
@[simp] theorem Ctx.advance_p (c : Ctx) : c.advance.p = c.p := rfl
@[simp] theorem Ctx.advance_v (c : Ctx) : c.advance.v = c.v := rfl
@[simp] theorem Ctx.advance_q (c : Ctx) : c.advance.q = c.q := rfl
@[simp] theorem Ctx.advance_fstat (c : Ctx) : c.advance.fstat = c.fstat := rfl
@[simp] theorem Ctx.advance_lvl (c : Ctx) : c.advance.lvl = c.lvl := rfl
@[simp] theorem Ctx.advance_preq (c : Ctx) : c.advance.preq = c.preq := rfl
@[simp] theorem Ctx.advance_asidr (c : Ctx) : c.advance.asidr = c.asidr := rfl
@[simp] theorem Ctx.advance_ftvec (c : Ctx) : c.advance.ftvec = c.ftvec := rfl
@[simp] theorem Ctx.advance_utvec (c : Ctx) : c.advance.utvec = c.utvec := rfl
@[simp] theorem Ctx.advance_tcause (c : Ctx) : c.advance.tcause = c.tcause := rfl
@[simp] theorem Ctx.advance_tpc (c : Ctx) : c.advance.tpc = c.tpc := rfl
@[simp] theorem Ctx.advance_tval (c : Ctx) : c.advance.tval = c.tval := rfl
@[simp] theorem Ctx.advance_tsave (c : Ctx) : c.advance.tsave = c.tsave := rfl
@[simp] theorem Ctx.advance_utcause (c : Ctx) : c.advance.utcause = c.utcause := rfl
@[simp] theorem Ctx.advance_utpc (c : Ctx) : c.advance.utpc = c.utpc := rfl
@[simp] theorem Ctx.advance_utval (c : Ctx) : c.advance.utval = c.utval := rfl
@[simp] theorem Ctx.advance_pdl (c : Ctx) : c.advance.pdl = c.pdl := rfl
@[simp] theorem Ctx.advance_sqDepth (c : Ctx) : c.advance.sqDepth = c.sqDepth := rfl
@[simp] theorem Ctx.advance_ppov (c : Ctx) : c.advance.ppov = c.ppov := rfl
@[simp] theorem Ctx.advance_ring (c : Ctx) : c.advance.ring = c.ring := rfl
@[simp] theorem Ctx.advance_nextSeq (c : Ctx) : c.advance.nextSeq = c.nextSeq := rfl
@[simp] theorem Ctx.advance_windows (c : Ctx) : c.advance.windows = c.windows := rfl
@[simp] theorem Ctx.advance_pend (c : Ctx) : c.advance.pend = c.pend := rfl
@[simp] theorem Ctx.advance_mscl (c : Ctx) : c.advance.mscl = c.mscl := rfl
@[simp] theorem Ctx.advance_shadow0 (c : Ctx) : c.advance.shadow0 = c.shadow0 := rfl
@[simp] theorem Ctx.advance_shadow1 (c : Ctx) : c.advance.shadow1 = c.shadow1 := rfl
@[simp] theorem Ctx.advance_st (c : Ctx) : c.advance.st = c.st := rfl
@[simp] theorem Ctx.advance_task (c : Ctx) : c.advance.task = c.task := rfl
@[simp] theorem Ctx.advance_sent (c : Ctx) : c.advance.sent = c.sent := rfl
@[simp] theorem Ctx.advance_parts (c : Ctx) : c.advance.parts = c.parts := rfl
@[simp] theorem Ctx.advance_rim (c : Ctx) : c.advance.rim = c.rim := rfl
@[simp] theorem Ctx.advance_yieldDue (c : Ctx) : c.advance.yieldDue = c.yieldDue := rfl
@[simp] theorem Ctx.advance_saving (c : Ctx) : c.advance.saving = c.saving := rfl
@[simp] theorem Ctx.advance_vec (c : Ctx) : c.advance.vec = c.vec := rfl
@[simp] theorem Ctx.advance_cancelled (c : Ctx) : c.advance.cancelled = c.cancelled := rfl
@[simp] theorem Ctx.advance_preqClk (c : Ctx) : c.advance.preqClk = c.preqClk := rfl
@[simp] theorem Ctx.advance_preqFor (c : Ctx) : c.advance.preqFor = c.preqFor := rfl
@[simp] theorem Ctx.advance_seen (c : Ctx) : c.advance.seen = c.seen := rfl
@[simp] theorem Ctx.advance_pc (c : Ctx) : c.advance.pc = c.pc + 12 := rfl

@[simp] theorem Ctx.orFlags_pc (c : Ctx) (x : BitVec 5) : (c.orFlags x).pc = c.pc := rfl
@[simp] theorem Ctx.orFlags_g (c : Ctx) (x : BitVec 5) : (c.orFlags x).g = c.g := rfl
@[simp] theorem Ctx.orFlags_p (c : Ctx) (x : BitVec 5) : (c.orFlags x).p = c.p := rfl
@[simp] theorem Ctx.orFlags_v (c : Ctx) (x : BitVec 5) : (c.orFlags x).v = c.v := rfl
@[simp] theorem Ctx.orFlags_q (c : Ctx) (x : BitVec 5) : (c.orFlags x).q = c.q := rfl
@[simp] theorem Ctx.orFlags_lvl (c : Ctx) (x : BitVec 5) : (c.orFlags x).lvl = c.lvl := rfl
@[simp] theorem Ctx.orFlags_preq (c : Ctx) (x : BitVec 5) : (c.orFlags x).preq = c.preq := rfl
@[simp] theorem Ctx.orFlags_asidr (c : Ctx) (x : BitVec 5) : (c.orFlags x).asidr = c.asidr := rfl
@[simp] theorem Ctx.orFlags_ftvec (c : Ctx) (x : BitVec 5) : (c.orFlags x).ftvec = c.ftvec := rfl
@[simp] theorem Ctx.orFlags_utvec (c : Ctx) (x : BitVec 5) : (c.orFlags x).utvec = c.utvec := rfl
@[simp] theorem Ctx.orFlags_tcause (c : Ctx) (x : BitVec 5) : (c.orFlags x).tcause = c.tcause := rfl
@[simp] theorem Ctx.orFlags_tpc (c : Ctx) (x : BitVec 5) : (c.orFlags x).tpc = c.tpc := rfl
@[simp] theorem Ctx.orFlags_tval (c : Ctx) (x : BitVec 5) : (c.orFlags x).tval = c.tval := rfl
@[simp] theorem Ctx.orFlags_tsave (c : Ctx) (x : BitVec 5) : (c.orFlags x).tsave = c.tsave := rfl
@[simp] theorem Ctx.orFlags_utcause (c : Ctx) (x : BitVec 5) : (c.orFlags x).utcause = c.utcause := rfl
@[simp] theorem Ctx.orFlags_utpc (c : Ctx) (x : BitVec 5) : (c.orFlags x).utpc = c.utpc := rfl
@[simp] theorem Ctx.orFlags_utval (c : Ctx) (x : BitVec 5) : (c.orFlags x).utval = c.utval := rfl
@[simp] theorem Ctx.orFlags_pdl (c : Ctx) (x : BitVec 5) : (c.orFlags x).pdl = c.pdl := rfl
@[simp] theorem Ctx.orFlags_sqDepth (c : Ctx) (x : BitVec 5) : (c.orFlags x).sqDepth = c.sqDepth := rfl
@[simp] theorem Ctx.orFlags_ppov (c : Ctx) (x : BitVec 5) : (c.orFlags x).ppov = c.ppov := rfl
@[simp] theorem Ctx.orFlags_ring (c : Ctx) (x : BitVec 5) : (c.orFlags x).ring = c.ring := rfl
@[simp] theorem Ctx.orFlags_nextSeq (c : Ctx) (x : BitVec 5) : (c.orFlags x).nextSeq = c.nextSeq := rfl
@[simp] theorem Ctx.orFlags_windows (c : Ctx) (x : BitVec 5) : (c.orFlags x).windows = c.windows := rfl
@[simp] theorem Ctx.orFlags_pend (c : Ctx) (x : BitVec 5) : (c.orFlags x).pend = c.pend := rfl
@[simp] theorem Ctx.orFlags_mscl (c : Ctx) (x : BitVec 5) : (c.orFlags x).mscl = c.mscl := rfl
@[simp] theorem Ctx.orFlags_shadow0 (c : Ctx) (x : BitVec 5) : (c.orFlags x).shadow0 = c.shadow0 := rfl
@[simp] theorem Ctx.orFlags_shadow1 (c : Ctx) (x : BitVec 5) : (c.orFlags x).shadow1 = c.shadow1 := rfl
@[simp] theorem Ctx.orFlags_st (c : Ctx) (x : BitVec 5) : (c.orFlags x).st = c.st := rfl
@[simp] theorem Ctx.orFlags_task (c : Ctx) (x : BitVec 5) : (c.orFlags x).task = c.task := rfl
@[simp] theorem Ctx.orFlags_sent (c : Ctx) (x : BitVec 5) : (c.orFlags x).sent = c.sent := rfl
@[simp] theorem Ctx.orFlags_parts (c : Ctx) (x : BitVec 5) : (c.orFlags x).parts = c.parts := rfl
@[simp] theorem Ctx.orFlags_rim (c : Ctx) (x : BitVec 5) : (c.orFlags x).rim = c.rim := rfl
@[simp] theorem Ctx.orFlags_yieldDue (c : Ctx) (x : BitVec 5) : (c.orFlags x).yieldDue = c.yieldDue := rfl
@[simp] theorem Ctx.orFlags_saving (c : Ctx) (x : BitVec 5) : (c.orFlags x).saving = c.saving := rfl
@[simp] theorem Ctx.orFlags_vec (c : Ctx) (x : BitVec 5) : (c.orFlags x).vec = c.vec := rfl
@[simp] theorem Ctx.orFlags_cancelled (c : Ctx) (x : BitVec 5) : (c.orFlags x).cancelled = c.cancelled := rfl
@[simp] theorem Ctx.orFlags_preqClk (c : Ctx) (x : BitVec 5) : (c.orFlags x).preqClk = c.preqClk := rfl
@[simp] theorem Ctx.orFlags_preqFor (c : Ctx) (x : BitVec 5) : (c.orFlags x).preqFor = c.preqFor := rfl
@[simp] theorem Ctx.orFlags_seen (c : Ctx) (x : BitVec 5) : (c.orFlags x).seen = c.seen := rfl

@[simp] theorem Ctx.pushEntry_pc (c : Ctx) (e : SeqEntry) : (c.pushEntry e).pc = c.pc := by unfold Ctx.pushEntry; rfl
@[simp] theorem Ctx.pushEntry_g (c : Ctx) (e : SeqEntry) : (c.pushEntry e).g = c.g := by unfold Ctx.pushEntry; rfl
@[simp] theorem Ctx.pushEntry_p (c : Ctx) (e : SeqEntry) : (c.pushEntry e).p = c.p := by unfold Ctx.pushEntry; rfl
@[simp] theorem Ctx.pushEntry_v (c : Ctx) (e : SeqEntry) : (c.pushEntry e).v = c.v := by unfold Ctx.pushEntry; rfl
@[simp] theorem Ctx.pushEntry_q (c : Ctx) (e : SeqEntry) : (c.pushEntry e).q = c.q := by unfold Ctx.pushEntry; rfl
@[simp] theorem Ctx.pushEntry_fstat (c : Ctx) (e : SeqEntry) : (c.pushEntry e).fstat = c.fstat := by unfold Ctx.pushEntry; rfl
@[simp] theorem Ctx.pushEntry_lvl (c : Ctx) (e : SeqEntry) : (c.pushEntry e).lvl = c.lvl := by unfold Ctx.pushEntry; rfl
@[simp] theorem Ctx.pushEntry_preq (c : Ctx) (e : SeqEntry) : (c.pushEntry e).preq = c.preq := by unfold Ctx.pushEntry; rfl
@[simp] theorem Ctx.pushEntry_asidr (c : Ctx) (e : SeqEntry) : (c.pushEntry e).asidr = c.asidr := by unfold Ctx.pushEntry; rfl
@[simp] theorem Ctx.pushEntry_ftvec (c : Ctx) (e : SeqEntry) : (c.pushEntry e).ftvec = c.ftvec := by unfold Ctx.pushEntry; rfl
@[simp] theorem Ctx.pushEntry_utvec (c : Ctx) (e : SeqEntry) : (c.pushEntry e).utvec = c.utvec := by unfold Ctx.pushEntry; rfl
@[simp] theorem Ctx.pushEntry_tcause (c : Ctx) (e : SeqEntry) : (c.pushEntry e).tcause = c.tcause := by unfold Ctx.pushEntry; rfl
@[simp] theorem Ctx.pushEntry_tpc (c : Ctx) (e : SeqEntry) : (c.pushEntry e).tpc = c.tpc := by unfold Ctx.pushEntry; rfl
@[simp] theorem Ctx.pushEntry_tval (c : Ctx) (e : SeqEntry) : (c.pushEntry e).tval = c.tval := by unfold Ctx.pushEntry; rfl
@[simp] theorem Ctx.pushEntry_tsave (c : Ctx) (e : SeqEntry) : (c.pushEntry e).tsave = c.tsave := by unfold Ctx.pushEntry; rfl
@[simp] theorem Ctx.pushEntry_utcause (c : Ctx) (e : SeqEntry) : (c.pushEntry e).utcause = c.utcause := by unfold Ctx.pushEntry; rfl
@[simp] theorem Ctx.pushEntry_utpc (c : Ctx) (e : SeqEntry) : (c.pushEntry e).utpc = c.utpc := by unfold Ctx.pushEntry; rfl
@[simp] theorem Ctx.pushEntry_utval (c : Ctx) (e : SeqEntry) : (c.pushEntry e).utval = c.utval := by unfold Ctx.pushEntry; rfl
@[simp] theorem Ctx.pushEntry_pdl (c : Ctx) (e : SeqEntry) : (c.pushEntry e).pdl = c.pdl := by unfold Ctx.pushEntry; rfl
@[simp] theorem Ctx.pushEntry_sqDepth (c : Ctx) (e : SeqEntry) : (c.pushEntry e).sqDepth = c.sqDepth := by unfold Ctx.pushEntry; rfl
@[simp] theorem Ctx.pushEntry_ppov (c : Ctx) (e : SeqEntry) : (c.pushEntry e).ppov = c.ppov := by unfold Ctx.pushEntry; rfl
@[simp] theorem Ctx.pushEntry_windows (c : Ctx) (e : SeqEntry) : (c.pushEntry e).windows = c.windows := by unfold Ctx.pushEntry; rfl
@[simp] theorem Ctx.pushEntry_pend (c : Ctx) (e : SeqEntry) : (c.pushEntry e).pend = c.pend := by unfold Ctx.pushEntry; rfl
@[simp] theorem Ctx.pushEntry_mscl (c : Ctx) (e : SeqEntry) : (c.pushEntry e).mscl = c.mscl := by unfold Ctx.pushEntry; rfl
@[simp] theorem Ctx.pushEntry_shadow0 (c : Ctx) (e : SeqEntry) : (c.pushEntry e).shadow0 = c.shadow0 := by unfold Ctx.pushEntry; rfl
@[simp] theorem Ctx.pushEntry_shadow1 (c : Ctx) (e : SeqEntry) : (c.pushEntry e).shadow1 = c.shadow1 := by unfold Ctx.pushEntry; rfl
@[simp] theorem Ctx.pushEntry_st (c : Ctx) (e : SeqEntry) : (c.pushEntry e).st = c.st := by unfold Ctx.pushEntry; rfl
@[simp] theorem Ctx.pushEntry_task (c : Ctx) (e : SeqEntry) : (c.pushEntry e).task = c.task := by unfold Ctx.pushEntry; rfl
@[simp] theorem Ctx.pushEntry_sent (c : Ctx) (e : SeqEntry) : (c.pushEntry e).sent = c.sent := by unfold Ctx.pushEntry; rfl
@[simp] theorem Ctx.pushEntry_parts (c : Ctx) (e : SeqEntry) : (c.pushEntry e).parts = c.parts := by unfold Ctx.pushEntry; rfl
@[simp] theorem Ctx.pushEntry_rim (c : Ctx) (e : SeqEntry) : (c.pushEntry e).rim = c.rim := by unfold Ctx.pushEntry; rfl
@[simp] theorem Ctx.pushEntry_yieldDue (c : Ctx) (e : SeqEntry) : (c.pushEntry e).yieldDue = c.yieldDue := by unfold Ctx.pushEntry; rfl
@[simp] theorem Ctx.pushEntry_saving (c : Ctx) (e : SeqEntry) : (c.pushEntry e).saving = c.saving := by unfold Ctx.pushEntry; rfl
@[simp] theorem Ctx.pushEntry_vec (c : Ctx) (e : SeqEntry) : (c.pushEntry e).vec = c.vec := by unfold Ctx.pushEntry; rfl
@[simp] theorem Ctx.pushEntry_cancelled (c : Ctx) (e : SeqEntry) : (c.pushEntry e).cancelled = c.cancelled := by unfold Ctx.pushEntry; rfl
@[simp] theorem Ctx.pushEntry_preqClk (c : Ctx) (e : SeqEntry) : (c.pushEntry e).preqClk = c.preqClk := by unfold Ctx.pushEntry; rfl
@[simp] theorem Ctx.pushEntry_preqFor (c : Ctx) (e : SeqEntry) : (c.pushEntry e).preqFor = c.preqFor := by unfold Ctx.pushEntry; rfl
@[simp] theorem Ctx.pushEntry_seen (c : Ctx) (e : SeqEntry) : (c.pushEntry e).seen = c.seen := by unfold Ctx.pushEntry; rfl

/-! ## Hard-wired registers (R161) -/

@[simp] theorem Ctx.rg_zero (c : Ctx) : c.rg 0 = 0 := rfl
@[simp] theorem Ctx.rp_zero (c : Ctx) : c.rp 0 = true := rfl
@[simp] theorem Ctx.rq_zero (c : Ctx) : c.rq 0 = BitVec.allOnes 128 := rfl
@[simp] theorem Ctx.wg_zero (c : Ctx) (x : Word) : c.wg 0 x = c := rfl
@[simp] theorem Ctx.wp_zero (c : Ctx) (x : Bool) : c.wp 0 x = c := rfl
@[simp] theorem Ctx.wq_zero (c : Ctx) (x : QWord) : c.wq 0 x = c := rfl

/-! ## A register read after a write -/

theorem Ctx.rg_wg (c : Ctx) (r : GReg) (x : Word) (h : r ≠ 0) : (c.wg r x).rg r = x := by
  rw [Ctx.wg, if_neg h, Ctx.rg, if_neg h]
  exact Vector.getElem_set_self r.isLt

theorem Ctx.rg_wg_ne (c : Ctx) (r d : GReg) (x : Word) (h : r ≠ d) : (c.wg d x).rg r = c.rg r := by
  have n : d.toNat ≠ r.toNat := fun e => h (BitVec.eq_of_toNat_eq e.symm)
  unfold Ctx.rg Ctx.wg
  split
  · rfl
  · split
    · rfl
    · exact Vector.getElem_set_ne d.isLt r.isLt n

theorem Ctx.rp_wp (c : Ctx) (r : PReg) (x : Bool) (h : r ≠ 0) : (c.wp r x).rp r = x := by
  rw [Ctx.wp, if_neg h, Ctx.rp, if_neg h]
  exact Vector.getElem_set_self r.isLt

theorem Ctx.rp_wp_ne (c : Ctx) (r d : PReg) (x : Bool) (h : r ≠ d) : (c.wp d x).rp r = c.rp r := by
  have n : d.toNat ≠ r.toNat := fun e => h (BitVec.eq_of_toNat_eq e.symm)
  unfold Ctx.rp Ctx.wp
  split
  · rfl
  · split
    · rfl
    · exact Vector.getElem_set_ne d.isLt r.isLt n

theorem Ctx.rq_wq (c : Ctx) (r : QReg) (x : QWord) (h : r ≠ 0) : (c.wq r x).rq r = x := by
  rw [Ctx.wq, if_neg h, Ctx.rq, if_neg h]
  exact Vector.getElem_set_self r.isLt

theorem Ctx.rq_wq_ne (c : Ctx) (r d : QReg) (x : QWord) (h : r ≠ d) : (c.wq d x).rq r = c.rq r := by
  have n : d.toNat ≠ r.toNat := fun e => h (BitVec.eq_of_toNat_eq e.symm)
  unfold Ctx.rq Ctx.wq
  split
  · rfl
  · split
    · rfl
    · exact Vector.getElem_set_ne d.isLt r.isLt n

theorem Ctx.rv_wv (c : Ctx) (r : VReg) (x : VWord) : (c.wv r x).rv r = x := by
  rw [Ctx.wv, Ctx.rv]
  exact Vector.getElem_set_self r.isLt

theorem Ctx.rv_wv_ne (c : Ctx) (r d : VReg) (x : VWord) (h : r ≠ d) : (c.wv d x).rv r = c.rv r :=
  Vector.getElem_set_ne d.isLt r.isLt fun e => h (BitVec.eq_of_toNat_eq e.symm)

end Sys2Proof.Machine
end

