-- ==== Sys2Proof/Laws/Monad.lean ====
section
/-! SUPPORT. The monad of the meanings, one equation per primitive: with them simp runs a meaning on a state, step by
step, and leaves its cases to their hypotheses. -/

namespace Sys2Proof.Machine

@[simp] theorem M_bind {α β : Type} (x : M α) (f : α → M β) (s : State) :
    (x >>= f) s = (match x s with | .ok a t => f a t | .error e t => .error e t) := by
  show EStateM.bind x f s = _
  unfold EStateM.bind
  cases x s <;> rfl

@[simp] theorem M_map {α β : Type} (f : α → β) (x : M α) (s : State) :
    (f <$> x) s = (match x s with | .ok a t => .ok (f a) t | .error e t => .error e t) := by
  show EStateM.map f x s = _
  unfold EStateM.map
  cases x s <;> rfl

@[simp] theorem M_ite {α : Type} (c : Prop) [Decidable c] (x y : M α) (s : State) :
    (if c then x else y) s = if c then x s else y s := by split <;> rfl

/-- A first action that answers hands its value and state on. -/
theorem bind_ok {α β : Type} {x : M α} {f : α → M β} {s t : State} {a : α} (h : x s = .ok a t) : (x >>= f) s = f a t := by
  rw [M_bind, h]

/-- A first action that stops ends the whole. -/
theorem bind_error {α β : Type} {x : M α} {f : α → M β} {s t : State} {e : Stop} (h : x s = .error e t) :
    (x >>= f) s = .error e t := by
  rw [M_bind, h]

/-- What a composed action that answers has gone through. -/
theorem bind_inv {α β : Type} {x : M α} {f : α → M β} {s t : State} {b : β} (h : (x >>= f) s = .ok b t) :
    ∃ a u, x s = .ok a u ∧ f a u = .ok b t := by
  rw [M_bind] at h
  cases e : x s with
  | ok a u => exact ⟨a, u, rfl, by rwa [e] at h⟩
  | error c u => rw [e] at h; cases h

@[simp] theorem M_pure {α : Type} (a : α) (s : State) : (pure a : M α) s = .ok a s := rfl
@[simp] theorem M_get (s : State) : (get : M State) s = .ok s s := rfl
@[simp] theorem M_set (t s : State) : (set t : M PUnit) s = .ok ⟨⟩ t := rfl
@[simp] theorem M_modify (f : State → State) (s : State) : (modify f : M PUnit) s = .ok ⟨⟩ (f s) := rfl
@[simp] theorem M_throw {α : Type} (e : Stop) (s : State) : (throw e : M α) s = .error e s := rfl
@[simp] theorem M_me (s : State) : me s = .ok s.me s := rfl
@[simp] theorem M_modMe (f : Ctx → Ctx) (s : State) : modMe f s = .ok ⟨⟩ (s.setMe (f s.me)) := rfl
@[simp] theorem M_freshId (s : State) : freshId s = .ok s.fresh s.bump := rfl
@[simp] theorem M_wait_false (w : WaitFor) (s : State) : waitIf false w s = .ok () s := rfl
@[simp] theorem M_wait_true (w : WaitFor) (s : State) : waitIf true w s = .error (.wait w) s := rfl
@[simp] theorem M_trap_false (t : Trap) (s : State) : trapIf false t s = .ok () s := rfl
@[simp] theorem M_trap_true (t : Trap) (s : State) : trapIf true t s = .error (.trap t) s := rfl
@[simp] theorem M_illop_false (i : Instr) (s : State) : illopIf i false s = .ok () s := rfl
@[simp] theorem M_illop_true (i : Instr) (s : State) :
    illopIf i true s = .error (.trap { cause := .illop, tval := i.tvalBits }) s := rfl

theorem lateFirst_ok (s : State) (h : s.me.lates = []) : lateFirst s = .ok () s := by
  simp [lateFirst, Ctx.lateDue, h]

/-- An event always answers: with what it does, or with what it has done when it must wait. -/
theorem runEvent_next (m : M Unit) (s : State) : runEvent m s = .next (s.after m) := by
  unfold runEvent State.after
  cases m s <;> rfl

end Sys2Proof.Machine
end

