-- ==== Sys2Proof/Tests/Slice0.lean ====
section
/-! SUPPORT. Tests and witnesses. Expected values are those of the manual's tables and worked examples, or worked by hand
from its rules. A theorem witness_<statement> meets the hypotheses of that statement, clause by clause, in a concrete
state. -/

namespace Sys2Proof.Tests

open Sys2Proof Sys2Proof.Machine

set_option Elab.async false

/-- The header of an instruction with no guard, lookahead or hint. -/
def h : Hdr := ⟨false, 0, 0, false, false, false⟩
/-- A guard that is false: not p0. -/
def off : Hdr := { h with neg := true }

/-- Words that decode to instructions. -/
def reads (l : List (Nat × Instr)) : Bool := l.all fun x => decode (BitVec.ofNat 96 x.1) == some x.2

/-- A next state with a property. -/
def nextIs (o : Out) (p : State → Bool) : Bool :=
  match o with
  | .next t => p t
  | _ => false

/-- A result with a property. -/
def okIs {α : Type} (r : EStateM.Result Stop State α) (p : α → State → Bool) : Bool :=
  match r with
  | .ok a t => p a t
  | .error _ _ => false

/-- g registers by number. -/
def gs (l : List (Nat × Nat)) : Vector Word 64 :=
  l.foldl (fun v x => v.set! x.1 (BitVec.ofNat 64 x.2)) (Vector.replicate 64 0)

/-- A context that runs task 7 with these g registers, at field level. -/
def run (l : List (Nat × Nat)) : Ctx := { st := .ready, lvl := true, pc := 0x1000, g := gs l, task := { tid := 7 } }

/-- A page of 64 MiB at 0 that every access may use. -/
def page : PlbEnt :=
  { vpage := 0, size := .m64, asid := 0, rd := true, wr := true, ex := true, tk := true, g := false, i := false
    clean := false, cls := .plain }

/-- Field 0 alone in partition 1, with context 0 of core 0 issuing. -/
def mach (c : Ctx) (k : Core := {}) (cl : Cluster := {}) (f : Field := { inReset := false }) : State :=
  { State.reset with
    ctxs := [(0, c)], cores := [(0, { k with plb := [page] })], clusters := [(0, cl)], fields := [(0, f)], cur := 0, fresh := 100
    ns := 5000000, clk := 5000000
    parts := [(1, { fx0 := 0, fx1 := 0, fy0 := 0, fy1 := 0, fields := [0], allow := 3, used := 1000, commit := 0, window := 5
                    eovr := 0 })] }

/-- Nothing holds a release of the context back, at any scope. -/
def settled (s : State) : Bool :=
  !s.undone s.myCore s.me.task.tid && !s.seenOpen && !s.peersOpen s.me.task.tid && !s.hostOpen s.me.task.tid

theorem settled_spec (s : State) (sc : Scope) (e : settled s = true) : s.Settled sc := by
  simp only [settled, Bool.and_eq_true, Bool.not_eq_true'] at e
  exact ⟨e.1.1.1, e.1.1.2, fun _ => e.1.2, fun _ => e.2⟩

/-- A line of the cluster L2 in state M with byte i = i. -/
def line : L2Line := { data := lineOf ((List.range 64).map (BitVec.ofNat 8 ·)), valid := BitVec.allOnes 16, dirty := 0, st := .m }

/-! ## Well-formedness: an ill-formed term for each check -/

def ill (l : List Instr) : Bool := l.all fun i => !Instr.wf i

theorem test_wf_header : ill [.add { h with la := 1 } false 1 2 (.imm 0), .loop off 2 1, .rett { h with p := 1 } false, .ill { h with la := 1 },
    .ill { h with str := true }, .halt off, .energyCount 0 0] = true := by decide +kernel

theorem test_wf_scalar : ill [.shl h false 1 2 (.imm 64), .shr h true 1 2 (.imm 32), .sext h 1 2 (.imm 128), .zext h 1 2 (.imm 128),
    .bfx h 1 2 (.imm 0x8000), .bfi h 1 2 (.imm 0x40), .pand h 1 ⟨1, false⟩ (.pred ⟨0, true⟩), .ld h .d true none 1 2 0,
    .ldp h none 1 2 0, .stp h none 3 2 0, .acas2 h ⟨false, .rlx, .home, .core⟩ 2 4 6 0, .acas2 h ⟨true, .rlx, .home, .core⟩ 3 4 6 0,
    .acas2 h ⟨true, .rlx, .home, .core⟩ 2 4 7 0, .fence h .fld false false false false] = true := by decide +kernel

theorem test_wf_vector : (let m : VMask := ⟨0, false⟩
    let x : VSrc := ⟨1, false, false⟩
    let n : VSrc := ⟨1, true, false⟩
    ill [.vadd h .f32 m false 1 x (.g 2), .vadd h .w m false 1 n (.g 2), .vmul h .w m 1 x (.v n), .vsel h .w ⟨1, true⟩ 1 x (.g 2),
      .vcmp h .eq .i8 m 1 x (.g 2), .vabs h .f16 m false 1 x, .vpopc h .w m 1 n, .vfadd h .w .rne m 1 x (.g 2),
      .vfadd h .f8e4 .rne m 1 x (.g 2), .vfmin h .b m 1 x (.g 2), .vfcmp h .eq .w m 1 x (.g 2), .vfsqrt h .d .rne m 1 x,
      .vfclass h .i4 m 1 x, .vfcvt h .f32 .rne m false .f32 0 1 x, .vfcvt h .h .rtz m false .w 0 1 x, .vfcvt h .b .rne m false .f32 0 1 x,
      .vfcvt h .f16 .rne m false .f32 2 1 x, .vfcvt h .f32 .rne m false .w 0 1 n, .vfscl h .f32 .rne m 3 false 1 x 2,
      .vradd h .f32 0 1 x, .vrmin h .f32 0 false 1 x, .vfradd h .w .rne 0 1 x, .vfrmax h .w 0 1 x, .vperm h .f32 m 1 x x,
      .vzip h .f64 m false 1 x x, .vslide h .f32 m 1 x (.imm 0), .vext h .f32 1 x (.imm 0), .vbcast h .f32 m 1 2, .vins h .f32 1 2 (.imm 0),
      .viota h .f32 m 1, .qcnt h .f32 1 2, .vlds h .f4 m 1 2 3 0, .vsts h .i4 0 1 2 3 0, .vgath h .b m 0 1 2 3 0, .vscat h .f16 0 0 1 2 3 0,
      .vldf h .h m 1 2 0, .vamo h .w m .fadd .rlx .home .fld 0 1 2 3 0, .vamo h .f32 m .add .rlx .home .fld 0 1 2 3 0,
      .vamo h .w m .cas .rlx .home .fld 0 1 2 3 0]) = true := by decide +kernel

theorem test_wf_engines : ill [.mma h .f32 .f32 0 1 2 1, .mma h .bf16 .f16 0 1 2 1, .mma h .bf16 .bf16 0 1 2 0, .mma h .bf16 .bf16 0 1 2 4097,
    .mcnt h .i4 .f4 1 2 1 false, .mcnt h .f4 .l4 1 2 0 false, .mld h .b 0 1 2 0 0, .mld h .f64 0 1 2 64 0, .mst h .f32 .rtz false 0 1 2 0 0,
    .mst h .w .rne true 0 1 2 0 0, .mst h .f64 .rne false 0 1 2 64 0, .mst h .i8 .rtz true 0 1 2 0 0, .mst h .b .rne false 0 1 2 0 0,
    .mbcast h 1 2 3 false 0 1, .mbcast h 1 2 3 true 32 1, .mbcast h 1 2 3 false 1 0, .mbcast h 1 2 3 false 1 49153,
    .put h .sys false 1 3 5 0 0 false, .putv h .sys false 1 3 5 0 0 false, .ramo h .cas2 false .rlx .fld 2 4 6 0,
    .ramo h .cas2 true .rlx .fld 3 4 6 0, .jena h 1 (.imm 0x10000), .jdis h 1 (.imm 0x10000), .mtake h 1 2 3 true, .joinw h 0 1 false,
    .joinw h 61 1 false] = true := by decide +kernel

/-! ## Decoding: a word of every form, from the encoding tables -/

theorem test_decode_integer : reads [
    (0x0100000010020C0080000001, .add h false 1 2 (.imm 0x80000001)),
    (0x01010000510603F000000000, .sub h true 5 6 (.reg 63)),
    (0x0102000010020C0080000003, .mul h false 1 2 (.imm 0x80000003)),
    (0x01030000510603F000000000, .mulh h true 5 6 (.reg 63)),
    (0x0104000010020C0080000005, .mulhu h false 1 2 (.imm 0x80000005)),
    (0x01050000510603F000000000, .div h true 5 6 (.reg 63)),
    (0x0106000010020C0080000007, .divu h false 1 2 (.imm 0x80000007)),
    (0x01070000510603F000000000, .rem h true 5 6 (.reg 63)),
    (0x0108000010020C0080000009, .remu h false 1 2 (.imm 0x80000009)),
    (0x01090000510603F000000000, .and h true 5 6 (.reg 63)),
    (0x010A000010020C008000000B, .or h false 1 2 (.imm 0x8000000b)),
    (0x010B0000510603F000000000, .xor h true 5 6 (.reg 63)),
    (0x010C000010020C008000000D, .andn h false 1 2 (.imm 0x8000000d)),
    (0x010D0000510603F000000000, .orn h true 5 6 (.reg 63)),
    (0x0113000010020C008000000F, .min h false 1 2 (.imm 0x8000000f)),
    (0x01140000510603F000000000, .max h true 5 6 (.reg 63)),
    (0x0115000010020C0080000011, .minu h false 1 2 (.imm 0x80000011)),
    (0x01160000510603F000000000, .maxu h true 5 6 (.reg 63)),
    (0x010E000090080C000000001F, .shl h false 9 8 (.imm 31)),
    (0x010F000091080C000000001E, .shr h true 9 8 (.imm 30)),
    (0x0110000090080C000000001D, .sar h false 9 8 (.imm 29)),
    (0x0111000091080C000000001C, .rol h true 9 8 (.imm 28)),
    (0x0112000090080C000000001B, .ror h false 9 8 (.imm 27)),
    (0x01170000A014000000000000, .clz h false 10 20),
    (0x01180000B115000000000000, .ctz h true 11 21),
    (0x01190000C016000000000000, .popc h false 12 22),
    (0x011A0000D117000000000000, .brev h true 13 23),
    (0x011B0000E018000000000000, .bswap h false 14 24),
    (0x011C000030040C0000000040, .sext h 3 4 (.imm 64)),
    (0x011D00003004007000000000, .zext h 3 4 (.reg 7)),
    (0x011E000030040C0000000828, .bfx h 3 4 (.imm 0x828)),
    (0x011F0000300400C000000000, .bfi h 3 4 (.reg 12)),
    (0x012000003004005300000000, .lea h 3 4 (.reg 5) 3),
    (0x01210000300400500000000E, .sel h 3 4 5 ⟨6, true⟩),
    (0x012200003004000000000000, .mov h 3 4),
    (0x0123000030000C00FFFFFFFE, .movi h 3 0xFFFFFFFE),
    (0x0124000030000C0012345678, .movhi h 3 0x12345678)] = true := by decide +kernel

theorem test_decode_predicate : reads [
    (0x0205000C31070C0000000009, .cmp h .geu true 3 7 (.imm 9)),
    (0x0210000C10C28C3000000000, .pand h 1 ⟨2, true⟩ (.pred ⟨3, false⟩)),
    (0x0211000C10C20C0000000001, .por h 1 ⟨2, false⟩ (.imm true)),
    (0x0212000C70C08C6800000000, .pxor h 7 ⟨0, true⟩ (.pred ⟨6, true⟩)),
    (0x0213000C10C5000000000000, .pnot h 1 ⟨5, false⟩),
    (0x0214000C4021800000000000, .pmov h 4 (.g 33 true)),
    (0x021500011000000000000000, .pget h 17)] = true := by decide +kernel

theorem test_decode_control : reads [
    (0x0300B00000000000FFFFFFFD, .br ⟨true, 3, 0, false, false, false⟩ 0xFFFFFFFD),
    (0x0301000020000000FFFFFFFD, .brl h 2 0xFFFFFFFD),
    (0x03020000000200000000000C, .jmp h 2 12),
    (0x03030000100200000000000C, .jmpl h 1 2 12),
    (0x030400000002000000000000, .ret h 2),
    (0x0305000020000000FFFFFFFD, .loop h 2 0xFFFFFFFD),
    (0x030600000002003000000006, .brt h 2 3 6),
    (0x030700E00000000000000000, .nop ⟨false, 0, 0, true, true, true⟩)] = true := by decide +kernel

theorem test_decode_memory : reads [
    (0x040600006004AC0000000010, .ld h .w true (some .fld) 6 4 16),
    (0x041100006004CC00FFFFFFFD, .st h .h (some .sys) 6 4 0xFFFFFFFD),
    (0x0423000060040C0000000010, .ldp h none 6 4 16),
    (0x0433000060048C0000000010, .stp h (some .core) 6 4 16),
    (0x0442000060040C0000000004, .ldf h false 6 4 4),
    (0x0453000060040C0000000008, .lde h true 6 4 8),
    (0x0463000060040C0000000008, .stf h true 6 4 8),
    (0x0472000000040C0000000008, .sete h false 4 8),
    (0x0480000000040C0000000008, .pref h 4 8),
    (0x0490000000040C0000000008, .cflush h 4 8),
    (0x04A1000000040C0000000008, .cinv h true 4 8),
    (0x04B0000000040C0000000040, .czero h 4 64)] = true := by decide +kernel

theorem test_decode_atomic : reads [
    (0x05000000A21400C000000020, .aadd h ⟨false, .rlx, .adaptive, .core⟩ 10 20 12 0x20),
    (0x05150000A31410C000000021, .amin h ⟨true, .acq, .home, .clu⟩ 10 20 12 0x21),
    (0x052A0000A21420C000000022, .amax h ⟨false, .rel, .near, .fld⟩ 10 20 12 0x22),
    (0x053C0000A31430C000000023, .aminu h ⟨true, .ar, .adaptive, .prt⟩ 10 20 12 0x23),
    (0x05410000A21440C000000024, .amaxu h ⟨false, .rlx, .home, .sys⟩ 10 20 12 0x24),
    (0x05560000A31400C000000025, .aand h ⟨true, .acq, .near, .core⟩ 10 20 12 0x25),
    (0x05680000A21410C000000026, .aor h ⟨false, .rel, .adaptive, .clu⟩ 10 20 12 0x26),
    (0x057D0000A31420C000000027, .axor h ⟨true, .ar, .home, .fld⟩ 10 20 12 0x27),
    (0x05820000A21430C000000028, .aswp h ⟨false, .rlx, .near, .prt⟩ 10 20 12 0x28),
    (0x05940000A31440C000000029, .acas h ⟨true, .acq, .adaptive, .sys⟩ 10 20 12 0x29),
    (0x05A90000A31400C00000002A, .acas2 h ⟨true, .rel, .home, .core⟩ 10 20 12 0x2a),
    (0x05BE0000A31410C00000002B, .afadd h ⟨true, .ar, .near, .clu⟩ 10 20 12 0x2b),
    (0x05C00000A21420C00000002C, .ainc h ⟨false, .rlx, .adaptive, .fld⟩ 10 20 12 0x2c)] = true := by decide +kernel

theorem test_decode_sync : reads [
    (0x06000000000030000000000A, .fence h .prt false true false true),
    (0x06010001A81841720000F000, .waita h .lt false true .sys 26 24 23 0xF000),
    (0x0602000000000C0000000003, .waitn h (.imm 3)),
    (0x060300001002000000000003, .barset h 1 2 3),
    (0x060400001000000000000002, .bararr h 1 2),
    (0x060500001002000000000001, .barwait h 1 2 1),
    (0x060600001000000000000000, .chk h 1),
    (0x060700000000000000000000, .yield h)] = true := by decide +kernel

theorem test_decode_vectorInteger : reads [
    (0x10000004124504640000001B, .vadd h .w ⟨3, true⟩ true 1 ⟨5, false, false⟩ (.v ⟨6, false, true⟩)),
    (0x100100041045009000000000, .vsub h .b ⟨0, false⟩ false 1 ⟨5, false, false⟩ (.g 9)),
    (0x10020005F0450C000001000B, .vmul h .b ⟨3, true⟩ 31 ⟨5, false, false⟩ (.imm 1)),
    (0x10030005F1450C000002000B, .vmulh h .h ⟨3, true⟩ 31 ⟨5, false, false⟩ (.imm 2)),
    (0x10040005F2450C000003000B, .vmin h .w ⟨3, true⟩ 31 ⟨5, false, false⟩ (.imm 3)),
    (0x10050005F3450C000004000B, .vmax h .d ⟨3, true⟩ 31 ⟨5, false, false⟩ (.imm 4)),
    (0x10060005F0450C000005000B, .vminu h .b ⟨3, true⟩ 31 ⟨5, false, false⟩ (.imm 5)),
    (0x10070005F1450C000006000B, .vmaxu h .h ⟨3, true⟩ 31 ⟨5, false, false⟩ (.imm 6)),
    (0x10080005F2450C000007000B, .vand h .w ⟨3, true⟩ 31 ⟨5, false, false⟩ (.imm 7)),
    (0x10090005F3450C000008000B, .vor h .d ⟨3, true⟩ 31 ⟨5, false, false⟩ (.imm 8)),
    (0x100A0005F0450C000009000B, .vxor h .b ⟨3, true⟩ 31 ⟨5, false, false⟩ (.imm 9)),
    (0x100B0005F1450C00000A000B, .vshl h .h ⟨3, true⟩ 31 ⟨5, false, false⟩ (.imm 10)),
    (0x100C0005F2450C00000B000B, .vshr h .w ⟨3, true⟩ 31 ⟨5, false, false⟩ (.imm 11)),
    (0x100D0005F3450C00000C000B, .vsar h .d ⟨3, true⟩ 31 ⟨5, false, false⟩ (.imm 12)),
    (0x10110005F045046000000007, .vsel h .b ⟨7, false⟩ 31 ⟨5, false, false⟩ (.v ⟨6, false, false⟩)),
    (0x100E00041345000000000010, .vabs h .d ⟨0, false⟩ true 1 ⟨5, false, false⟩),
    (0x100F0004114500000000000B, .vneg h .h ⟨3, true⟩ false 1 ⟨5, false, false⟩),
    (0x101000082245046000000041, .vcmp h .ltu .w ⟨1, false⟩ 2 ⟨5, false, false⟩ (.v ⟨6, false, false⟩)),
    (0x101200041145000000000001, .vpopc h .h ⟨1, false⟩ 1 ⟨5, false, false⟩)] = true := by decide +kernel

theorem test_decode_vectorFloat : reads [
    (0x110000042445847C0000000B, .vfadd h .f64 .rne ⟨3, true⟩ 2 ⟨5, true, false⟩ (.v ⟨7, true, true⟩)),
    (0x11210004254580300000000B, .vfsub h .f32 .rtz ⟨3, true⟩ 2 ⟨5, true, false⟩ (.g 3)),
    (0x114200042645847C0000000B, .vfmul h .f16 .rup ⟨3, true⟩ 2 ⟨5, true, false⟩ (.v ⟨7, true, true⟩)),
    (0x11630004274580300000000B, .vfma h .bf16 .rdn ⟨3, true⟩ 2 ⟨5, true, false⟩ (.g 3)),
    (0x118400042445847C0000000B, .vfms h .f64 .rna ⟨3, true⟩ 2 ⟨5, true, false⟩ (.v ⟨7, true, true⟩)),
    (0x11050004254580300000000B, .vfnma h .f32 .rne ⟨3, true⟩ 2 ⟨5, true, false⟩ (.g 3)),
    (0x112600042645847C0000000B, .vfdiv h .f16 .rtz ⟨3, true⟩ 2 ⟨5, true, false⟩ (.v ⟨7, true, true⟩)),
    (0x112700042545400000000002, .vfsqrt h .f32 .rtz ⟨2, false⟩ 2 ⟨5, false, true⟩),
    (0x114800042645400000000002, .vfrcp h .f16 .rup ⟨2, false⟩ 2 ⟨5, false, true⟩),
    (0x116900042745400000000002, .vfrsq h .bf16 .rdn ⟨2, false⟩ 2 ⟨5, false, true⟩),
    (0x118A00042445400000000002, .vfexp2 h .f64 .rna ⟨2, false⟩ 2 ⟨5, false, true⟩),
    (0x110B00042545400000000002, .vflog2 h .f32 .rne ⟨2, false⟩ 2 ⟨5, false, true⟩),
    (0x110C00042545046000000000, .vfmin h .f32 ⟨0, false⟩ 2 ⟨5, false, false⟩ (.v ⟨6, false, false⟩)),
    (0x110D00042645046000000000, .vfmax h .f16 ⟨0, false⟩ 2 ⟨5, false, false⟩ (.v ⟨6, false, false⟩)),
    (0x110E00082745046000000060, .vfcmp h .bits .bf16 ⟨0, false⟩ 2 ⟨5, false, false⟩ (.v ⟨6, false, false⟩)),
    (0x110F00042445000000000000, .vfclass h .f64 ⟨0, false⟩ 2 ⟨5, false, false⟩),
    (0x113000042845000000001350, .vfcvt h .f8e4 .rtz ⟨0, false⟩ true .f32 3 2 ⟨5, false, false⟩),
    (0x111100042545046000000600, .vfscl h .f32 .rne ⟨0, false⟩ 2 true 2 ⟨5, false, false⟩ 6)] = true := by decide +kernel

theorem test_decode_permute : reads [
    (0x120000002145000000000004, .vradd h .h 4 2 ⟨5, false, false⟩),
    (0x120100002145000000000010, .vrmin h .h 0 true 2 ⟨5, false, false⟩),
    (0x120200002045000000000004, .vrmax h .b 4 false 2 ⟨5, false, false⟩),
    (0x120300002545000000000030, .vfradd h .f32 .rdn 0 2 ⟨5, false, false⟩),
    (0x120400002545000000000001, .vfrmax h .f32 1 2 ⟨5, false, false⟩),
    (0x12050004204504600000000B, .vperm h .b ⟨3, true⟩ 2 ⟨5, false, false⟩ ⟨6, false, false⟩),
    (0x1206000420450C00FFFF0000, .vslide h .b ⟨0, false⟩ 2 ⟨5, false, false⟩ (.imm 0xFFFF)),
    (0x120700042305000000000000, .vbcast h .d ⟨0, false⟩ 2 5),
    (0x120800002345006000000000, .vext h .d 2 ⟨5, false, false⟩ (.reg 6)),
    (0x12090004030D0C0000010000, .vins h .d 0 13 (.imm 1)),
    (0x120A00042245000000000005, .vcmpr h .w ⟨5, false⟩ 2 ⟨5, false, false⟩),
    (0x120B0004224500000000000B, .vexpd h .w ⟨3, true⟩ 2 ⟨5, false, false⟩),
    (0x120C00042245046000000010, .vzip h .w ⟨0, false⟩ true 2 ⟨5, false, false⟩ ⟨6, false, false⟩),
    (0x120D00042245046000000000, .vunzip h .w ⟨0, false⟩ false 2 ⟨5, false, false⟩ ⟨6, false, false⟩),
    (0x120E00042200000000000005, .viota h .w ⟨5, false⟩ 2),
    (0x120F00081082083000000000, .qand h 1 2 3),
    (0x121000081082084000000000, .qor h 1 2 4),
    (0x121100081082085000000000, .qxor h 1 2 5),
    (0x121200081082000000000000, .qnot h 1 2),
    (0x121300001282000000000000, .qcnt h .w 1 2)] = true := by decide +kernel

theorem test_decode_vectorMemory : reads [
    (0x130000043D040C00FFF00002, .vld h .i4 ⟨2, false⟩ 3 4 0xFFF0),
    (0x1301000433040C0000100002, .vst h .d 2 3 4 16),
    (0x13020004310400500000000B, .vlds h .h ⟨3, true⟩ 3 4 5 0),
    (0x130300043E04005000000001, .vsts h .ui8 1 3 4 5 0),
    (0x130400043504046000000020, .vgath h .f32 ⟨0, false⟩ 2 3 4 6 0),
    (0x130500043204046000080030, .vscat h .w 0 3 3 4 6 8),
    (0x1306000434040C0000080000, .vldf h .f64 ⟨0, false⟩ 3 4 8),
    (0x130700043304246000089430, .vamo h .d ⟨0, false⟩ .maxu .acq .near .fld 3 3 4 6 8)] = true := by decide +kernel

theorem test_decode_matrix : reads [
    (0x200000081908009000081000, .mma h .f8e5 .f8e4 1 8 9 4096),
    (0x200100000008009000BA017F, .mcnt h .f4 .l4 8 9 127 true),
    (0x200200083000000000000001, .mdrain h 3 true),
    (0x200300000000000000000000, .mmerge h),
    (0x200400082000000000000000, .mzero h 2),
    (0x200500082704005000003F7F, .mld h .bf16 2 4 5 127 63),
    (0x200600082804005000093F0F, .mst h .f8e4 .rtz true 2 4 5 15 63),
    (0x20070000002F02E00000000B, .mscl h 47 46 true true false true),
    (0x200800000000000000000000, .mwait h),
    (0x200900003000000000001103, .mcfg h 3 3 17),
    (0x200A00003004005000100501, .mbcast h 3 4 5 true 5 16),
    (0x200B000000000C0000000008, .mqw h (.imm 8))] = true := by decide +kernel

theorem test_decode_tile : reads [
    (0x210000003004005000000002, .tdecl h 3 4 5 2),
    (0x210100003004000000000000, .trel h 3 4),
    (0x210200003004005000000001, .tfwd h 3 4 5 true),
    (0x210300003004000000000000, .town h 3 4),
    (0x21040F003004000000000000, .tqry { h with la := 15 } 3 4)] = true := by decide +kernel

theorem test_decode_transfer : reads [
    (0x300000003004000000000002, .cpy h 3 4 2),
    (0x300100000004000000000003, .cchain h 4 3),
    (0x300200003000000000000005, .ccancel h 3 1 true),
    (0x300300003000000000000001, .cqry h 3 1),
    (0x300400003004C0500006FFFF, .put h .sys true 3 4 5 0xFFFF 2 true),
    (0x30050000300414500003000F, .putv h .clu false 3 4 5 15 3 false),
    (0x3006000032043050000000BB, .ramo h .fadd false .ar .prt 3 4 5 2)] = true := by decide +kernel

theorem test_decode_message : reads [
    (0x3100000000040050ABCD87DD, .send h 4 5 ⟨29, 30, true, 16, 0xABCD⟩),
    (0x3101000000040450ABCD83DD, .sendv h 4 5 ⟨29, 30, false, 16, 0xABCD⟩),
    (0x31020000300400000000001F, .pcfg h 3 4 31),
    (0x31030000300400000000000F, .jcfg h 3 4 15),
    (0x3104000030000C0000008001, .jena h 3 (.imm 0x8001)),
    (0x310500003000006000000000, .jdis h 3 (.reg 6)),
    (0x310600003004000000000020, .mtake h 3 4 0 true),
    (0x310700003004000000000000, .mreplay h 3 4)] = true := by decide +kernel

theorem test_decode_task : reads [
    (0x320000003004005000000002, .spawn h 3 4 5 2),
    (0x32010000300000000000001F, .joinw h 3 15 true),
    (0x320200003004005000000001, .carm h 3 4 5 1),
    (0x3203000030040C0000000007, .cdec h 3 4 (.imm 7)),
    (0x320400000000000000000000, .texit h),
    (0x3205000000000C0000000004, .sqcfg h (.imm 4)),
    (0x320600000000002000000000, .stlcfg h (.reg 2))] = true := by decide +kernel

theorem test_decode_system : reads [
    (0x3F00000000000000FFFFFFFF, .trap h 0xFFFFFFFF),
    (0x3F0100000000000000000001, .rett h true),
    (0x3F0200002000000000000A00, .srd h 2 0xA00),
    (0x3F030000000000A0000000C1, .swr h 0x0C1 10),
    (0x3F0400002000000000000001, .rdtime h 2 true),
    (0x3F050000000000000000FFFF, .brk h 0xFFFF),
    (0x3F060000200300000000000D, .cxsave h 2 3 13),
    (0x3F0700002003000000000001, .cxload h 2 3 1),
    (0x3F0800004006008000000000, .kill h 4 6 8),
    (0x3F0900004006008000000000, .krevoke h 4 6 8),
    (0x3F0A00004000000000000000, .enrg h 4),
    (0x3F0B00000000000000000000, .halt h),
    (0x3F0C00004005000000000002, .seqrd h 4 5 2),
    (0x3F0D00000000000000000000, .ill h)] = true := by decide +kernel
/-- Words that are no instruction: OPC 0, an FN the table lacks, LA on a form without it, reserved HNT, a modifier, a class and
an IMM bit that the form leaves unused, and the scope and size codes without a meaning. -/
theorem test_decode_refused : ([0, 0x3F0E00000000000000000000, 0x010020000500500000000001, 0x010022005005_0C0000000001, 0x030700100000000000000000, 0x012200001002001000000000,
    0x012200000014002000000000, 0x012200000010020000000001, 0x040700000060040C0000000000, 0x0402000000600CDC0000000000, 0x050300000A2014000C000000,
    0x040200000060045C0000000000, 0x11A00000042405406000000000] : List Nat).all (fun w => (decode (BitVec.ofNat 96 w)).isNone) = true := by decide +kernel

/-- Bytes in memory order: the worked PUT and MMA of chapters 14 and 11. -/
theorem test_decode_bytes : (decodeBytes ([0xFF, 0x01, 0x05, 0x00, 0x40, 0x41, 0x0A, 0x60, 0x00, 0x00, 0x04, 0x30, 0x99].map (BitVec.ofNat 8 ·)) ==
      some (.put h .sys false 6 10 20 511 1 true, [0x99])) = true ∧
    (decodeBytes ([0x40, 0x00, 0x07, 0x00, 0x90, 0x00, 0x08, 0x17, 0x08, 0x00, 0x00, 0x20].map (BitVec.ofNat 8 ·)) ==
      some (.mma h .bf16 .bf16 1 8 9 64, [])) = true := by decide +kernel

/-! ## A step runs the word that is placed where it fetches -/

theorem test_step_add : nextIs (step (State.reset.withFetchWord 96 0x010000001000_0C0000000005)) (fun t =>
    (t.ctx 15).rg 1 == 5 && (t.ctx 15).pc == 12) = true := by decide +kernel

/-- A word that is no instruction raises ILLOP with its bits [95:32]; FTVEC.EN is clear, so the activation ends. -/
theorem test_step_illop : nextIs (step ((mach { run [] with ftvec := 0x2001 }).withFetchWord 96 0x0100220050050C0000000001)) (fun t =>
    (t.ctx 0).tcause == 1 && (t.ctx 0).tval == 0x0100220050050C00 && (t.ctx 0).pc == 0x2000 && (t.ctx 0).tpc == 0x1000) = true := by
  decide +kernel

/-! ## Scalar forms -/

theorem test_division : (let s := mach (run [(1, 7), (2, 2 ^ 64 - 2), (3, 2 ^ 64 - 7), (4, 2), (5, 2 ^ 63), (6, 2 ^ 64 - 1), (7, 0x180000000), (8, 0x100000005)])
    let r (i : Instr) (x : Nat) : Bool := nextIs (exec i s) fun t => t.me.rg 9 == BitVec.ofNat 64 x
    r (.div h false 9 1 (.reg 2)) (2 ^ 64 - 3) && r (.rem h false 9 1 (.reg 2)) 1 && r (.div h false 9 3 (.reg 4)) (2 ^ 64 - 3) &&
    r (.rem h false 9 3 (.reg 4)) (2 ^ 64 - 1) && r (.div h false 9 1 (.reg 0)) (2 ^ 64 - 1) && r (.rem h false 9 1 (.reg 0)) 7 &&
    r (.div h false 9 5 (.imm 0xFFFFFFFF)) (2 ^ 63) && r (.rem h false 9 5 (.imm 0xFFFFFFFF)) 0 && r (.divu h false 9 1 (.imm 0)) (2 ^ 64 - 1) &&
    r (.div h true 9 7 (.reg 6)) 0xFFFFFFFF80000000 && r (.rem h true 9 7 (.reg 6)) 0 && r (.divu h true 9 8 (.reg 0)) (2 ^ 64 - 1) &&
    r (.remu h true 9 8 (.reg 0)) 5 && r (.remu h true 9 6 (.imm 16)) 15) = true := by decide +kernel

theorem test_integer : (let s := mach (run [(1, 2 ^ 64 - 1), (2, 0x80000000), (3, 0x0123456789ABCDEF), (4, 65)])
    let r (i : Instr) (x : Nat) : Bool := nextIs (exec i s) fun t => t.me.rg 9 == BitVec.ofNat 64 x && t.me.pc == 0x100C
    r (.add h false 9 1 (.imm 1)) 0 && r (.add h true 9 2 (.imm 0xFFFFFFFF)) 0x7FFFFFFF && r (.sub h false 9 0 (.imm 1)) (2 ^ 64 - 1) &&
    r (.mulh h false 9 1 (.reg 1)) 0 && r (.mulhu h false 9 1 (.reg 1)) (2 ^ 64 - 2) && r (.min h true 9 2 (.imm 1)) 0xFFFFFFFF80000000 &&
    r (.minu h true 9 2 (.imm 1)) 1 && r (.shl h false 9 4 (.reg 4)) 130 && r (.sar h true 9 2 (.imm 31)) (2 ^ 64 - 1) &&
    r (.ror h false 9 3 (.imm 8)) 0xEF0123456789ABCD && r (.clz h true 9 3) 0 && r (.ctz h false 9 0) 64 && r (.popc h false 9 3) 32 &&
    r (.bswap h false 9 3) 0xEFCDAB8967452301 && r (.brev h true 9 4) 0xFFFFFFFF82000000 && r (.sext h 9 3 (.imm 8)) (2 ^ 64 - 17) &&
    r (.bfx h 9 3 (.imm 0x804)) 0xDE && r (.bfi h 9 3 (.imm 0x804)) 0xEF0 && r (.lea h 9 4 (.imm 3) 2) 77 &&
    r (.movhi h 9 0x80000000) (2 ^ 63) && r (.movi h 9 0x80000000) 0xFFFFFFFF80000000) = true := by decide +kernel

theorem test_g0_discards : nextIs (exec (.add h false 0 0 (.imm 1)) (mach (run []))) (fun t => t.me.rg 0 == 0) = true := by decide +kernel

/-- IntegerResults, ShiftAndCountResults, ExtensionResults, BitFieldAndMoveResults, PredicateResults, ControlTransferResults,
ReturnAndNop, SelectResult and SystemFormResults ask only that the guard holds; GuardAndPrivilege and ReturnAndNop that it does not. -/
theorem witness_On : On h (mach (run [])) ∧ ¬ On off (mach (run [])) := by decide +kernel

/-- Widths 1 and 64 of SEXT in a register and an immediate, and 0 and 65; lengths 64 and 65 of BFX. -/
theorem witness_ExtensionResults : (let s := mach (run [(1, 1), (2, 64), (3, 65)])
    On h s ∧ (s.me.rg 1).toNat = 1 ∧ (s.me.rg 2).toNat = 64 ∧ ¬ (s.me.rg 3).toNat ≤ 64 ∧ (0 : BitVec 32).toNat = 0 ∧ 64 < (65 : BitVec 32).toNat ∧
    (64 : BitVec 32).toNat ≤ 64 ∧ ((0x4000 : BitVec 32).extractLsb' 8 7).toNat ≤ 64 ∧ 64 < ((0x4100 : BitVec 32).extractLsb' 8 7).toNat) := by decide +kernel

/-- A jump to a multiple of 4 and to 2 above one; a branch table entry in and out of range; LOOP to 0. -/
theorem witness_ControlTransferResults : (let s := mach { run [(1, 0x2000), (2, 0x2002), (3, 1), (4, 2)] with ftvec := 0x3001 }
    On h s ∧ (s.me.rg 1).toNat % 4 = 0 ∧ (s.me.rg 2).toNat % 4 ≠ 0 ∧
    nextIs (exec (.brt h 3 4 5) s) (fun t => t.me.pc == 0x1000 + 20 + 12) = true ∧
    nextIs (exec (.brt h 4 3 5) s) (fun t => t.me.pc == 0x100C) = true ∧
    nextIs (exec (.loop h 3 0xFFFFFFFF) s) (fun t => t.me.pc == 0x100C && t.me.rg 3 == 0) = true ∧
    nextIs (exec (.loop h 4 0xFFFFFFFF) s) (fun t => t.me.pc == 0xFFC && t.me.rg 4 == 1) = true ∧
    nextIs (exec (.jmpl h 4 2 0) s) (fun t => t.me.tcause == 3 && t.me.tval == 0x2002 && t.me.rg 4 == 2) = true ∧
    nextIs (exec (.brl h 5 0xFFFFFFFC) s) (fun t => t.me.pc == 0xFF0 && t.me.rg 5 == 0x100C) = true) := by decide +kernel

/-- A word of SEL with an IMM select in OPB, and one with IMM[4] set; a step that fetches the second. -/
theorem witness_SelectResult : (let w : InstrWord := 0x012100003004005000000010#96
    let s := (mach (run [])).withFetchWord 96 w.toNat
    (0x012100003004_0C0000000000#96).extractLsb' 80 16 = 0x0121 ∧ (0x012100003004_0C0000000000#96).extractLsb' 42 2 ≠ 0 ∧
    w.extractLsb' 80 16 = 0x0121 ∧ w.extractLsb' 4 28 ≠ 0 ∧ s.cur < numCtxs ∧ s.agenda = [] ∧ s.me.issues = true ∧ s.killDue s.cur = none ∧ s.me.yieldDue = false ∧ s.saveDue s.cur = false ∧
    okIs (fetch s.tick) (fun x t => x == w && !t.unresolved t.cur) = true) := by decide +kernel

theorem test_select : (let s := mach { run [(1, 11), (2, 22)] with p := (Vector.replicate 8 false).set 3 true }
    nextIs (exec (.sel h 4 1 2 ⟨3, false⟩) s) (fun t => t.me.rg 4 == 11) && nextIs (exec (.sel h 4 1 2 ⟨3, true⟩) s) (fun t => t.me.rg 4 == 22)) = true := by
  decide +kernel

theorem test_predicates : (let s := mach (run [(1, 2 ^ 64 - 1), (2, 1)])
    let r (i : Instr) (x : Bool) : Bool := nextIs (exec i s) fun t => t.me.rp 2 == x
    r (.cmp h .lt false 2 1 (.reg 2)) true && r (.cmp h .ltu false 2 1 (.reg 2)) false && r (.cmp h .ge true 2 2 (.imm 0xFFFFFFFF)) true &&
    r (.cmp h .bits false 2 1 (.imm 0)) false && r (.cmp h .nbits false 2 1 (.imm 0)) true && r (.pnot h 2 ⟨1, false⟩) true &&
    r (.pmov h 2 (.g 1 true)) false && r (.pxor h 2 ⟨0, false⟩ (.imm true)) false &&
    nextIs (exec (.cmp h .eq false 0 1 (.reg 2)) s) (fun t => t.me.rp 0)) = true := by decide +kernel

/-- GuardAndPrivilege: a false guard at field level; KILL, and SRD of 0xA00 and of the undefined 0xFFF, at task level. -/
theorem witness_GuardAndPrivilege : (let s := mach { run [] with lvl := false }
    let i := Instr.kill off 4 6 8
    Hdr.holds off (mach (run [])).me = false ∧ Instr.hdr? i = some off ∧ Instr.unguarded i = false ∧ (mach (run [])).me.lvl = true ∧
    Instr.privileged i = true ∧ s.me.lvl = false ∧ regDefined 0xFFF = false ∧ regDefined 0xC1 = true ∧ taskRead 0xC1 = true ∧ taskWrite 0xC1 = true ∧
    regDefined 0xC0 = true ∧ taskRead 0xC0 = false ∧ taskWrite 0xC0 = false) := by decide +kernel

theorem test_privilege : (let s := mach { run [] with lvl := false, ftvec := 0x3001 }
    nextIs (exec (.kill off 4 6 8) s) (fun t => t.me.tcause == 2 && t.me.lvl && t.me.tsave == 2) &&
    nextIs (exec (.srd h 1 0xFFF) s) (fun t => t.me.tcause == 1) && nextIs (exec (.srd h 1 0xC0) s) (fun t => t.me.tcause == 2) &&
    nextIs (exec (.swr off 0xC1 2) s) (fun t => t.me.pc == 0x100C)) = true := by decide +kernel
/-! ## Scalar memory forms -/

/-- Core memory of core 0 holding 01 02 03 … at 0x100, field shared memory of 4 MiB holding A5 at 8, and a line at 0x40 in
the L2. -/
def memCore : Core := { cmem := Mem.writeBytes [] 0x100 ((List.range 32).map fun i => BitVec.ofNat 8 (i + 1)) }
def memField : Field := { inReset := false, sys := [(0x980, 1)], shm := Mem.writeBytes [] 8 [0xA5] }
def memCl : Cluster := { l2 := [(1, line)] }
def memRegs : List (Nat × Nat) := [(1, localBase + 0x100), (2, 0x40), (3, 0x8877665544332211), (4, sharedBase + 8), (5, 0x200000), (6, 0xFEDC), (7, 7)]
def memSt : State := mach (run memRegs) memCore memCl memField

/-- LoadStoreResults: a load of each size at paged, core and shared memory, an acquire, a pair, a store and a release. -/
theorem witness_LoadStoreResults : On h memSt ∧
    (okIs (memRd (effAddr memSt.me 2 5) 1 none memSt) fun v _ => v == 5) = true ∧
    (okIs (memRd (effAddr memSt.me 1 31) 1 (some .fld) memSt) fun v _ => v == 32) = true ∧
    (okIs (memRd (effAddr memSt.me 4 0) 8 none memSt) fun v _ => v == 0xA5) = true ∧
    (okIs (memRd (effAddr memSt.me 2 0x30) 16 none memSt) fun v _ => v == 0x3F3E3D3C3B3A39383736353433323130) = true ∧
    (okIs (memWr (effAddr memSt.me 1 0) 8 (memSt.me.rg 3).toNat none memSt) fun _ _ => true) = true ∧
    (okIs (memWr (effAddr memSt.me 5 0) 8 (memSt.me.rg 3).toNat (some .sys) memSt) fun _ _ => true) = true ∧
    (okIs (memWr (effAddr memSt.me 4 8) 16 5 none memSt) fun _ _ => true) = true := by decide +kernel

theorem test_loads : (let r (i : Instr) (x : Nat) : Bool := nextIs (exec i memSt) fun t => t.me.rg 9 == BitVec.ofNat 64 x
    r (.ld h .w false none 9 2 4) 0x07060504 && r (.ld h .h true none 9 1 4) 0x0605 && r (.ld h .b true none 9 4 0) 0xFFFFFFFFFFFFFFA5 &&
    r (.ld h .b false none 9 4 0) 0xA5 && nextIs (exec (.ldp h none 2 2 0x10) (memSt.setMe { memSt.me with parts := [(0, 0x1716151413121110, 0)] })) fun t =>
      t.me.rg 2 == 0x1716151413121110 && t.me.rg 3 == 0x1F1E1D1C1B1A1918) = true := by decide +kernel

theorem test_stores : (nextIs (exec (.st h .w none 3 1 4) memSt) fun t =>
      (okIs (memRd (localBase + 0x100) 16 none t) fun v _ => v == 0x100F0E0D0C0B0A094433221104030201)) = true ∧
    (nextIs (exec (.st h .d none 3 2 8) memSt) fun t => (t.core 0).sq.length == 1 &&
      (okIs (memRd 0x44 8 none t) fun _ _ => false) == false && (okIs (memRd 0x48 8 none t) fun v _ => v == 0x8877665544332211)) = true := by decide +kernel

/-- PlainLoadsAndStores: the last byte of core memory, the last of shared memory, and a page. -/
theorem witness_PlainLoadsAndStores : memSt.me.rim = [] ∧ memSt.me.parts = [] ∧ (memSt.core 0).poison = [] ∧ (memSt.core 0).fe = [] ∧ memSt.me.task.slots = [] ∧
    memSt.check memSt.acc (localBase + 0x2FFFF) 1 1 .load = .ok (.core 0 0x2FFFF) 0 ∧
    memSt.check memSt.acc (clusterBase + 7 * 0x40000 + 0x2FFF8) 8 8 .store = .ok (.core 7 0x2FFF8) 0 ∧
    memSt.check memSt.acc (sharedBase + 0x3FFFF0) 16 16 .load = .ok (.shared 0x3FFFF0) 0 ∧
    memSt.check memSt.acc (sharedBase + 0x3FFFFF) 1 1 .store = .ok (.shared 0x3FFFFF) 0 ∧
    memSt.check memSt.acc 0x3FFFFF8 8 8 .store = .ok .paged 0 ∧ memSt.check memSt.acc 0x3FFFFF0 16 16 .store = .ok .paged 0 := by decide +kernel

/-- AccessChecks at 2^57 and below it. -/
theorem witness_AccessChecks : memSt.me.rim = [] ∧ 2 ^ 57 ≤ 2 ^ 57 ∧ 2 ^ 57 - 1 < 2 ^ 57 ∧ (2 ^ 57 - 1) % 2 ≠ 0 := by decide +kernel

/-- The check beyond an extent is BOUNDS, one of a task-level store to the scheduler area PERM. -/
theorem test_checks : memSt.check memSt.acc (localBase + 0x30000) 1 1 .load = .bad .bounds ∧
    memSt.check memSt.acc (sharedBase + 0x400000) 1 1 .load = .bad .bounds ∧
    memSt.check { memSt.acc with lvl := false } (localBase + 0x2C000) 4 4 .store = .bad .perm ∧
    memSt.check { memSt.acc with lvl := false } (localBase + 0x2BFFC) 4 4 .store = .ok (.core 0 0x2BFFC) 0 ∧
    memSt.check memSt.acc (peerBase + 8) 8 8 .load = .bad .bounds := by decide +kernel

/-- FullEmptyResults: words at 0x100 that are full. -/
theorem witness_FullEmptyResults : On h memSt ∧ memSt.me.sent = none ∧ memSt.me.parts = [] ∧ memSt.me.task.slots = [] ∧ (memSt.core 0).fe = [] ∧
    (okIs (feAccess (effAddr memSt.me 1 0) 8 .load .perm memSt) fun r t => decide (r = (0, 0x100) ∧ t = memSt)) = true ∧
    (memSt.core 0).poison = [] ∧ (memSt.core 0).cmarks = [] ∧ (memSt.core 0).allFull 0x100 8 = true ∧
    (okIs (feAccess (effAddr memSt.me 1 0) 4 .store .perm memSt) fun r t => decide (r = (0, 0x100) ∧ t = memSt)) = true ∧
    settled memSt = true := by decide +kernel

/-- LDE empties a word, and the next LDF of it waits; off core memory, BOUNDS. -/
theorem test_full_empty : (nextIs (exec (.lde h false 9 1 0) memSt) fun t => t.me.rg 9 == 0x04030201 && inList 0x40 (t.core 0).empties &&
      nextIs (exec (.ldf h false 10 1 0) t) fun u => u.me.st == .waiting (.fullEmpty 0 0x100 4) && u.me.pc == t.me.pc) = true ∧
    (nextIs (exec (.ldf h true 9 2 0) (memSt.setMe { memSt.me with ftvec := 1 })) fun t => t.me.tcause == 4 && t.me.tval == 0x40) = true := by decide +kernel

/-- MaintenanceResults: a paged line, one off paged memory, and the two edges of the windows. -/
theorem witness_MaintenanceResults : On h memSt ∧ (okIs (maintLine (effAddr memSt.me 2 0) memSt) fun r t => decide (r = some 1 ∧ t = memSt)) = true ∧
    ((memSt.core 0).sq.all fun x => x.tid != memSt.me.task.tid || lineKey x.asid x.va != 1) = true ∧ memSt.recallable 0 1 = true ∧
    localBase ≤ effAddr memSt.me 1 (-0x100) ∧ effAddr memSt.me 1 0 < 2 ^ 57 ∧
    (okIs (access 0x40 64 64 .store memSt) fun r t => decide (r = (.paged, 0) ∧ t = memSt)) = true ∧
    (okIs (access (localBase + 0x100) 64 64 .store memSt) fun r t => decide (r = (.core 0 0x100, 0) ∧ t = memSt)) = true ∧
    (okIs (writeAt (.core 0 0x100) 0 (localBase + 0x100) (List.replicate 64 0) none memSt) fun _ _ => true) = true := by decide +kernel

/-- CFLUSH of a dirty line gives its bytes to the home. -/
theorem test_cflush : (nextIs (exec (.cflush h 2 0) (mach (run memRegs) {} { l2 := [(1, { line with dirty := 1 })] })) fun t =>
    (t.l2 0 1).isNone && (t.hline 0 1).data == line.data && (t.hline 0 1).present) = true := by decide +kernel

/-! ## Atomics -/

/-- AtomicResults: paged memory held in M, placed near; core memory; field shared memory. -/
theorem witness_AtomicResults : On h memSt ∧ (0xFFFFFFFF : Nat) < 2 ^ (8 * 4) ∧ (2 ^ 64 - 1 : Nat) < 2 ^ (8 * 8) ∧
    (okIs (access (effAddr memSt.me 1 0) 8 8 .atomic memSt) fun r s1 => r == (.core 0 0x100, 0) &&
      okIs (atomicAt r.1 r.2 (effAddr memSt.me 1 0) .add true 5 0 .adaptive .ar .fld 0 s1) fun o _ => o == (0x0807060504030201, 0)) = true ∧
    (okIs (access (effAddr memSt.me 2 0) 4 4 .atomic memSt) fun r s1 => r == (.paged, 0) &&
      okIs (atomicAt r.1 r.2 (effAddr memSt.me 2 0) .swp false 5 0 .near .rlx .fld 0
        (s1.modCore 0 fun c => c.setReg 0x9A4 0)) fun o _ => o.1 == 0x03020100) = true := by decide +kernel

theorem test_atomics : (let r (i : Instr) (x y : Nat) : Bool := nextIs (exec i memSt) fun t => t.me.rg 10 == BitVec.ofNat 64 x &&
      (okIs (memRd (localBase + 0x100) 4 none t) fun v _ => v == y)
    let m : AtMode := ⟨false, .rlx, .adaptive, .core⟩
    r (.aadd h m 10 1 6 0) 0x04030201 0x040400DD && r (.amin h m 10 1 3 0) 0x04030201 0x04030201 && r (.amaxu h m 10 1 3 0) 0x04030201 0x44332211 &&
    r (.aand h m 10 1 6 0) 0x04030201 0x200 && r (.aswp h m 10 1 7 0) 0x04030201 7 && r (.acas h m 10 1 7 0) 0x04030201 0x04030201 &&
    r (.ainc h m 10 1 7 0) 0x04030201 0 && r (.ainc h m 10 1 3 0) 0x04030201 0x04030202) = true := by decide +kernel

/-- An .F32 sum rounded to nearest even: 1 + 2^-24 is 1, with NX. -/
theorem test_afadd : (nextIs (exec (.afadd h ⟨false, .rlx, .home, .core⟩ 10 1 2 0)
    (mach (run [(1, localBase), (2, 0x33800000)]) { cmem := Mem.writeBytes [] 0 (natBytes 0x3F800000 4) })) fun t =>
      t.me.rg 10 == 0x3F800000 && t.me.fstat == 1 && (okIs (memRd localBase 4 none t) fun v _ => v == 0x3F800000)) = true := by decide +kernel

theorem witness_AtomicOnBanks : (memSt.core 0).fe = [] ∧ (memSt.core 0).poison = [] := by decide +kernel

/-! ## Synchronisation -/

/-- SynchronisationResults: nothing open; a WAITA that is met, one that is not; a barrier slot in each state. -/
theorem witness_SynchronisationResults : On h memSt ∧ memSt.me.lates = [] ∧ settled memSt = true ∧
    ((memSt.core 0).items.all fun i => !i.openOf 7) = true ∧ memSt.recsOpen 0 7 = false ∧ (okIs (fenceLoads memSt) fun _ _ => true) = true ∧
    ((memSt.core 0).items.filter fun i => i.openOf 7).length ≤ (GI.uval (.imm 0) memSt.me).toNat ∧
    (okIs (access (effAddr memSt.me 1 0) 4 4 .load memSt) fun r s1 =>
      okIs (waitRead r.1 r.2 (effAddr memSt.me 1 0) 4 none s1) fun v s2 => v == 0x04030201 && Cond.test .geu 32 v 0x04030201 &&
        !Cond.test .geu 32 v 0x04030202 && okIs (waitRead r.1 r.2 (effAddr memSt.me 1 0) 4 (some .clu) s2) fun _ _ => true) = true := by decide +kernel

/-- The descriptor of core 0 alone, of cluster rows 0 to 4, and one whose row 5 does not exist. -/
def bar (b : BarSlot) (e : Nat) : State := mach (run [(1, 0x10000), (2, 0x10000 + 5 * 512), (3, e)]) { bars := (Vector.replicate 4 {}).set 3 b }

theorem witness_Barriers : (let mine : BarSlot := { desc := some 0x10000, setter := 7, episode := 2, mism := [1] }
    descBad 0x10000 0 = false ∧ descBad 0x10A00 0 = true ∧ descBad (0x10000 + 4 * 512) 0 = false ∧
    (nextIs (exec (.barset h 9 1 3) (bar { desc := some 0x10000, setter := 8 } 0)) fun t => t.me.rg 9 == 0x0400000000000000) = true ∧
    (nextIs (exec (.barset h 9 1 3) (bar {} 0)) fun t => t.me.rg 9 == 0 && ((t.core 0).bar 3).desc == some 0x10000) = true ∧
    (nextIs (exec (.bararr h 9 3) (bar {} 0)) fun t => t.me.rg 9 == 0x0200000000000000) = true ∧
    (nextIs (exec (.bararr h 9 3) (bar mine 0)) fun t => t.me.rg 9 == 2 && (t.field 0).bars.length == 1) = true ∧
    (nextIs (exec (.barwait h 9 3 3) (bar mine 1)) fun t => t.me.rg 9 == 0x0100000000000000) = true ∧
    (nextIs (exec (.barwait h 9 3 3) (bar mine 0)) fun t => t.me.rg 9 == 0) = true ∧
    (nextIs (exec (.barwait h 9 3 3) (bar mine 3)) fun t => t.me.rg 9 == 0x0300000000000000) = true ∧
    (nextIs (exec (.barwait h 9 3 3) (bar { mine with arrived := true } 2)) fun t => t.me.st == .waiting (.barrier 3)) = true) := by decide +kernel

/-- Entry 3 of the core's frame list is FREE. -/
def freeFrame (s : State) : State := s.modCore s.myCore fun c => { c with cmem := Mem.write c.cmem (0x2F800 + 32 * 3 + 12) 1 }

theorem test_sync : (nextIs (exec (.chk h 9) (freeFrame (memSt.setMe { memSt.me with preq := true }))) fun t => t.me.rg 9 == 1 && (t.me.saving.map (·.entry)) == some (some 3)) = true ∧
    (nextIs (exec (.chk h 9) memSt) fun t => t.me.rg 9 == 0 && t.me.saving.isNone) = true ∧
    (nextIs (exec (.yield h) (freeFrame memSt)) fun t => t.me.saving.isSome && (t.core 0).frameState 3 == 2) = true ∧
    (nextIs (exec (.waita h .eq false false .core 9 1 0 0) memSt) fun t => t.me.st == .waiting .word && t.me.pc == 0x1000) = true ∧
    (nextIs (exec (.waitn h (.imm 0)) memSt) fun t => t.me.pc == 0x100C) = true ∧
    (nextIs (exec (.fence h .fld true true true true) (memSt.modCore 0 fun c => { c with sq := [{ cx := 0, tid := 7, va := 0, asid := 0, data := 0, be := 1 }] }))
      fun t => t.me.st == .waiting .drain) = true := by decide +kernel

/-! ## Vector forms -/

/-- v1 holds bytes 0, 1, 2, …; v2 the words 0x80000000 − e; q1 the mask of words 0 and 31. -/
def vecSt : State :=
  mach { run memRegs with
    v := ((Vector.replicate 32 0).set 1 (packVec 8 (List.range 128))).set 2 (packVec 32 ((List.range 32).map (0x80000000 - ·)))
    q := (Vector.replicate 8 0).set 1 (BitVec.ofNat 128 (0xF + 0xF * 2 ^ 124)) } memCore memCl memField

def V (n : VReg) : VSrc := ⟨n, false, false⟩

/-- VectorIntegerResults, VectorFloatResults, MaskAndSelectResults, ReductionAndMaskResults, PermuteResults and VectorFrame ask
for the guard and room in the ring; an immediate shift amount of w − 1 is accepted, one of w raises ILLOP. -/
theorem witness_VectorResults : On h vecSt ∧ vecSt.me.ringFull = false ∧ shiftBad .b (.imm 7) = false ∧ shiftBad .b (.imm 8) = true ∧
    shiftBad .d (.imm 63) = false ∧ shiftBad .d (.imm 64) = true ∧ shiftBad .d (.imm 0xFFFF) = true ∧ ((1 : QReg) ≠ 0 ∧ 127 < 128) := by decide +kernel

/-- LaneLoop names every element width; q1 leaves words 1 to 30 inactive. -/
theorem witness_LaneLoop : (32 ∈ [4, 8, 16, 32, 64]) ∧ active (vecSt.me.rq 1) 31 32 = true ∧ active (vecSt.me.rq 1) 1 32 = false := by decide +kernel

/-- Elements of a vector register after an instruction. -/
def lanes (i : Instr) (d : VReg) (w : Nat) (l : List (Nat × Nat)) : Bool :=
  nextIs (exec i vecSt) fun t => l.all fun x => elem (t.me.rv d) x.1 w == x.2

theorem test_vector_integer : (let m : VMask := ⟨0, false⟩
    lanes (.vadd h .w m false 3 (V 2) (.imm 0xFFFF)) 3 32 [(0, 0x7FFFFFFF), (31, 0x7FFFFFE0)] &&
    lanes (.vadd h .w m true 3 (V 2) (.v (V 2))) 3 32 [(0, 0x80000000), (1, 0x7FFFFFFF)] &&
    lanes (.vadd h .w ⟨1, true⟩ false 3 (V 2) (.imm 0)) 3 32 [(0, 0x80000000), (1, 0), (31, 0x7FFFFFE1)] &&
    lanes (.vadd h .w ⟨1, false⟩ false 1 (V 2) (.imm 0)) 1 32 [(0, 0x80000000), (1, 0x07060504), (31, 0x7FFFFFE1)] &&
    lanes (.vabs h .w m true 3 (V 2)) 3 32 [(0, 0x7FFFFFFF), (1, 0x7FFFFFFF)] && lanes (.vneg h .w m false 3 (V 2)) 3 32 [(0, 0x80000000), (1, 0x80000001)] &&
    lanes (.vmulh h .b m 3 (V 1) (.imm 0xFF80)) 3 8 [(1, 0xFF), (3, 0xFE), (127, 0xC0)] && lanes (.vsar h .w m 3 (V 2) (.imm 31)) 3 32 [(0, 0xFFFFFFFF), (1, 0)] &&
    lanes (.vpopc h .b m 3 (V 1)) 3 8 [(0, 0), (127, 7)] && lanes (.vmax h .h m 3 (V 1) (.g 6)) 3 16 [(0, 0x0100), (63, 0x7F7E)] &&
    lanes (.vmaxu h .h m 3 (V 1) (.g 6)) 3 16 [(63, 0xFEDC)] && lanes (.vsel h .w ⟨1, false⟩ 3 (V 2) (.imm 5)) 3 32 [(0, 0x80000000), (1, 5)]) = true := by
  decide +kernel

theorem test_vector_masks : (nextIs (exec (.vcmp h .ltu .w ⟨0, false⟩ 2 (V 2) (.imm 0x7FF)) vecSt) fun t => t.me.rq 2 == 0) = true ∧
    (nextIs (exec (.vcmp h .lt .w ⟨1, true⟩ 2 (V 2) (.imm 0)) vecSt) fun t => t.me.rq 2 == 0xF) = true ∧
    (nextIs (exec (.qnot h 2 1) vecSt) fun t => t.me.rq 2 == BitVec.ofNat 128 (2 ^ 124 - 16)) = true ∧
    (nextIs (exec (.qcnt h .w 3 1) vecSt) fun t => t.me.rg 3 == 2) = true := by decide +kernel

theorem test_permutes : (let m : VMask := ⟨0, false⟩
    lanes (.vslide h .b m 3 (V 1) (.imm 0xFFFF)) 3 8 [(0, 1), (126, 127), (127, 0)] && lanes (.vslide h .b m 3 (V 1) (.imm 1)) 3 8 [(0, 0), (1, 0), (2, 1)] &&
    lanes (.vperm h .b m 3 (V 1) ⟨1, false, false⟩) 3 8 [(5, 5), (127, 127)] && lanes (.vzip h .w m true 3 (V 1) (V 2)) 3 32 [(0, 0x43424140), (1, 0x7FFFFFF0)] &&
    lanes (.vunzip h .w m true 3 (V 1) (V 2)) 3 32 [(0, 0x07060504), (16, 0x7FFFFFFF)] && lanes (.vbcast h .h m 3 6) 3 16 [(0, 0xFEDC), (63, 0xFEDC)] &&
    lanes (.vcmpr h .w ⟨1, true⟩ 3 (V 1)) 3 32 [(0, 0x03020100), (1, 0x7F7E7D7C), (2, 0)] && lanes (.vexpd h .w ⟨1, true⟩ 3 (V 1)) 3 32 [(0, 0x03020100), (1, 0), (31, 0x07060504)] &&
    lanes (.viota h .w ⟨1, false⟩ 3) 3 32 [(0, 0), (31, 1)] && lanes (.vins h .d 3 3 (.imm 15)) 3 64 [(15, 0x8877665544332211), (14, 0)] &&
    nextIs (exec (.vext h .h 9 (V 1) (.imm 63)) vecSt) (fun t => t.me.rg 9 == 0x7F7E) && nextIs (exec (.vext h .h 9 (V 1) (.imm 64)) vecSt) (fun t => t.me.rg 9 == 0)) = true := by
  decide +kernel

theorem test_reductions : (nextIs (exec (.vradd h .b 0 9 (V 1)) vecSt) fun t => t.me.rg 9 == 0xFFFFFFFFFFFFFFC0) = true ∧
    (nextIs (exec (.vrmin h .w 1 false 9 (V 2)) vecSt) fun t => t.me.rg 9 == 0xFFFFFFFF80000000) = true ∧
    (nextIs (exec (.vrmin h .w 1 true 9 (V 2)) vecSt) fun t => t.me.rg 9 == 0x7FFFFFE1) = true ∧
    (nextIs (exec (.vrmax h .w 2 true 9 (V 2)) vecSt) fun t => t.me.rg 9 == 0) = true := by decide +kernel

/-- v1 holds 1.0 and 2.5 in F32, v2 3.0 and a signalling NaN. -/
def fpSt : State :=
  mach { run [(1, 0x40400000)] with
    v := ((Vector.replicate 32 0).set 1 (packVec 32 [0x3F800000, 0x40200000])).set 2 (packVec 32 [0x40400000, 0x7F800001]) }

def fp (i : Instr) (d : VReg) (w : Nat) (l : List (Nat × Nat)) (fl : Word) : Bool :=
  nextIs (exec i fpSt) fun t => (l.all fun x => elem (t.me.rv d) x.1 w == x.2) && t.me.fstat == fl

theorem test_vector_float : (let m : VMask := ⟨0, false⟩
    fp (.vfadd h .f32 .rne m 3 (V 1) (.g 1)) 3 32 [(0, 0x40800000), (1, 0x40B00000)] 0 && fp (.vfsub h .f32 .rne m 3 (V 1) (.v (V 2))) 3 32 [(0, 0xC0000000), (1, 0x7FC00000)] 16 &&
    fp (.vfdiv h .f32 .rne m 3 (V 1) (.g 1)) 3 32 [(0, 0x3EAAAAAB), (1, 0x3F555555)] 1 && fp (.vfdiv h .f32 .rup m 3 (V 1) (.g 1)) 3 32 [(1, 0x3F555556)] 1 &&
    fp (.vfdiv h .f32 .rne m 3 (V 1) (.g 0)) 3 32 [(0, 0x7F800000), (2, 0x7FC00000)] 24 && fp (.vfma h .f32 .rne m 2 (V 1) (.g 1)) 2 32 [(0, 0x40C00000)] 16 &&
    fp (.vfclass h .f32 m 3 (V 2)) 3 32 [(0, 64), (1, 256), (2, 16)] 0 && fp (.vfmul h .f32 .rne m 3 ⟨1, true, true⟩ (.g 1)) 3 32 [(0, 0xC0400000), (31, 0xC0400000)] 0 &&
    fp (.vfcvt h .w .rne m false .f32 0 3 (V 1)) 3 32 [(0, 1), (1, 2)] 1 && fp (.vfcvt h .w .rup m false .f32 0 3 (V 1)) 3 32 [(1, 3)] 1 &&
    fp (.vfsqrt h .f32 .rne m 3 (V 1)) 3 32 [(0, 0x3F800000)] 1 &&
    nextIs (exec (.vfradd h .f32 .rne 0 9 (V 1)) fpSt) (fun t => t.me.rg 9 == 0x40600000)) = true := by decide +kernel

/-! ## Vector memory forms -/

/-- VectorMemoryResults: bytes of core memory, loads in every form, a store, and VAMO on core memory. -/
theorem witness_VectorMemoryResults : On h vecSt ∧ vecSt.me.ringFull = false ∧ vecSt.me.rim = [] ∧
    (let es := elems vecSt.me 1 32 fun i => localBase + 0x100 + 4 * i;
      okIs (checkElems 4 .load false es (vecSt.setMe { vecSt.me with vec := true })) fun r s1 =>
      match r with
      | .ok ps => ps.length == 2 && (s1.emptyElem 4 ps).isNone &&
        okIs (readElems 4 es ps s1) fun v _ => match v with
          | .ok vs => vs == [(0, 0x04030201), (31, 0)]
          | .error _ => false
      | .error _ => false) = true ∧
    (okIs (checkElems 4 .store false (elems vecSt.me 1 32 fun i => localBase + 0x100 + 4 * i) vecSt) fun r s1 =>
      match r with
      | .ok ps => okIs (writeElems (fun i => natBytes (elem (vecSt.me.rv 2) i 32) 4) ps s1) fun _ _ => true
      | .error _ => false) = true ∧
    (let es := elems vecSt.me 1 32 fun i => localBase + 0x100 + 4 * i;
      okIs (vamoCheck 4 es vecSt) fun r s1 => r.isNone &&
        okIs (vamoAll .add false 4 (fun i => elem (s1.me.rv 2) i 32) .home .rlx .core es s1) fun l _ => l.2.isEmpty && l.1.length == 2) = true ∧
    (okIs (vamoCheck 4 (elems vecSt.me 1 32 fun i => localBase + 0x2FFFC + 4 * i) vecSt) fun r s1 => s1.me.parts == [] &&
      r.any fun x => x.1 == 31 && x.2.cause == .bounds) = true ∧
    (okIs (checkElems 4 .load false (elems vecSt.me 1 32 fun i => localBase + 0x2FFFC + 4 * i) vecSt) fun r _ =>
      match r with
      | .ok _ => false
      | .error (j, tr) => j == 31 && tr.cause == .bounds) = true := by decide +kernel

theorem test_vector_memory : lanes (.vld h .w ⟨0, false⟩ 3 1 0) 3 32 [(0, 0x04030201), (7, 0x201F1E1D), (8, 0)] = true ∧
    lanes (.vlds h .b ⟨0, false⟩ 3 1 7 0) 3 8 [(0, 1), (1, 8), (4, 29)] = true ∧ lanes (.vld h .d ⟨0, true⟩ 3 1 0) 3 64 [(0, 0x0807060504030201)] = true ∧
    (nextIs (exec (.vst h .w 1 2 1 0) vecSt) fun t => (okIs (memRd (localBase + 0x100) 8 none t) fun v _ => v == 0x0807060580000000) &&
      (okIs (memRd (localBase + 0x17C) 4 none t) fun v _ => v == 0x7FFFFFE1) && t.me.nextSeq == 1) = true ∧
    (nextIs (exec (.vld h .w ⟨0, false⟩ 3 1 0x7FFE) vecSt) fun t => t.me.lates.map (fun e => (e.code, e.progress)) == [(3, 0)] && t.me.rv 3 == 0) = true ∧
    (nextIs (exec (.vamo h .w ⟨1, false⟩ .add .rlx .home .core 0 2 1 3 0) vecSt) fun t => elem (t.me.rv 2) 0 32 == 0x04030201) = true := by decide +kernel

/-! ## Matrix forms at issue -/

/-- Accumulator 1 and the counter banks are held; bank 0 holds 126 steps of F4. -/
def matSt : State :=
  mach { run [(1, 0x100), (2, 0x0000040000000200), (3, 0x40000), (4, 0x2000100)] with shadow0 := { depth := 126, ta := .f4, tb := .f4 } }
    { memCore with accHolder := (Vector.replicate 4 none).set 1 (some 0) } { bankHolder := some (0, 7) }

/-- MatrixResults: each queued form's checks at issue; depth 127 exactly, and 128 refused. -/
theorem witness_MatrixResults : On h matSt ∧ matSt.me.lates = [] ∧ matSt.me.ringFull = false ∧ (matSt.core matSt.myCore).mq.length < 32 ∧ (matSt.core matSt.myCore).saved = [] ∧
    matSt.holdsAcc 1 = true ∧ matSt.holdsBanks = true ∧ wordBad (matSt.me.rg 1) = false ∧ wordBad (matSt.me.rg 2) = false ∧ wordBad (matSt.me.rg 3) = true ∧
    mmaScaleBad matSt.me.mscl (matSt.me.rg 1) (matSt.me.rg 2) .bf16 .bf16 = false ∧ (matSt.me.rg 1).toNat % (ETy.width .f64 / 8) = 0 ∧
    (matSt.me.rg 2).toNat % (ETy.width .f64 / 8) = 0 ∧ settled matSt = true ∧
    mcntBad (matSt.me.shadow false) matSt.me.mscl (matSt.me.rg 1) (matSt.me.rg 2) .f4 .f4 1 = false ∧
    mcntBad (matSt.me.shadow false) matSt.me.mscl (matSt.me.rg 1) (matSt.me.rg 2) .f4 .f4 2 = true ∧ matSt.me.shadow1.depth = 0 ∧
    scaleBad (matSt.me.rg 1) = false ∧ scaleBad 0 = false ∧ (matSt.core matSt.myCore).mq = [] ∧
    (let e : MqEnt := { ins := .mzero h 2, cx := 0, tid := 7, seq := 0, wa := 0, wb := 0, mscl := {}, extn := false, asid := 0, lvl := true, eid := 5 };
      let s := matSt.modCore 0 fun c => { c with mq := [e] };
      (s.mcfgRelease 4).claimDenied 4 = 0 ∧ (s.mcfgRelease 4).claimEarly 4 = true ∧ (s.modCore 0 fun c => { c with mq := [{ e with tid := 8 }] }).claimDenied 4 = 4) ∧
    (∀ i ∈ (matSt.core matSt.myCore).items, i.tid ≠ matSt.me.task.tid) ∧ (GI.uval (.imm 1) matSt.me).toNat ≠ 0 ∧ (GI.uval (.imm 8) matSt.me).toNat ≤ 8 ∧
    mbcastBad (matSt.me.rg 1) (matSt.me.rg 4) = false ∧ bits (matSt.me.rg 1) 0 18 + 4 * 48 ≤ cmemSize ∧ bits (matSt.me.rg 4) 0 18 + 4 * 48 ≤ cmemSize ∧
    schedBad matSt.me.lvl none (bits (matSt.me.rg 4) 0 18) (4 * 48) = false ∧ (matSt.core matSt.myCore).poison = [] ∧
    (0 : BitVec 5) &&& 0xF#5 = 0 ∧ (0 : BitVec 5).getLsbD 4 = false := by decide +kernel

theorem test_matrix_issue : (nextIs (exec (.mma h .bf16 .bf16 1 1 2 64) matSt) fun t => (t.core 0).mq.map (fun e => (e.wa, e.wb, e.seq)) == [(0x100, 0x0000040000000200, 0)] &&
      t.me.ring.map (·.st) == [.pending]) = true ∧
    (nextIs (exec (.mma h .bf16 .bf16 2 1 2 64) (matSt.setMe { matSt.me with ftvec := 1 })) fun t => t.me.tcause == 1 && (t.core 0).mq.isEmpty) = true ∧
    (nextIs (exec (.mcfg h 9 0x1D 0) matSt) fun t => t.me.rg 9 == 0 && (t.core 0).accHolder.toList == [some 0, some 0, some 0, some 0]) = true ∧
    (nextIs (exec (.mcfg h 9 2 0) (matSt.modCore 0 fun c => { c with accHolder := (Vector.replicate 4 none).set 1 (some 3) })) fun t =>
      t.me.rg 9 == 2 && (t.core 0).accHolder.toList == [none, some 3, none, none]) = true ∧
    (nextIs (exec (.mbcast h 9 1 4 false 3 2) matSt) fun t => (t.core 0).items.map (·.kind) == [.mbcast 0x100 false 3 [0x04030201, 0x08070605]]) = true := by
  decide +kernel

/-! ## Tile forms -/

/-- Tile 9 of core 0 at lines 1 and 2 in generation 1; cluster 0 holds both lines. -/
def tile9 : Tile := { owner := 0, base := 0x40, pitch := 64, rows := 2, cols := 64, size := 1, asid := 0, gen := 1, dem := false, sh := [] }
/-- The line with every word dirty. -/
def dirty : L2Line := { line with dirty := BitVec.allOnes 16 }
def tileSt : State :=
  mach (run [(1, 0x1000009), (2, 8), (3, 0x40), (4, 64 * 2 ^ 32 + 63 * 2 ^ 14 + 1), (5, 2 ^ 32)]) {} { l2 := [(1, dirty), (2, dirty)] }
    { inReset := false, tiles := [(9, tile9)], tileGens := [(9, 1)], home := [(1, { dir := .m 0, tile := some 9 }), (2, { dir := .m 0, tile := some 9 })] }
/-- The same lines, in no tile. -/
def bareSt : State := tileSt.modField 0 fun f => { f with tiles := [], home := [(1, { dir := .m 0 }), (2, { dir := .m 0 })] }

/-- TileResults: every form of a tile that the issuing core owns, towards core 8 of cluster 1; a tile declared on two lines. -/
theorem witness_TileResults : On h tileSt ∧ settled tileSt = true ∧ tileSt.tileOf 0 (tileSt.me.rg 1) = some (9, tile9) ∧
    tileSt.notOwner tile9 = false ∧ tile9.dem = false ∧ tile9.owner = coreNum tileSt.myCore ∧
    (okIs (gatherTile 0 tile9.lines { tileSt with agent := .cx 0 }) fun _ s1 => okIs (moveTile 0 0 tile9.lines s1) fun _ _ => okIs (moveTile 0 1 tile9.lines s1) fun _ _ => true) = true ∧
    bits (tileSt.me.rg 2) 32 32 = 0 ∧ tileSt.locCore ((tileSt.me.rg 2).setWidth 32) = some 8 ∧ fieldOf 8 = 0 ∧ clusterOf 8 ≠ tile9.ownerCl 0 ∧
    tileSt.locCore 5 = some 5 ∧ clusterOf 5 = tile9.ownerCl 0 ∧ (okIs (shareTile 0 0 1 tile9.lines { tileSt with agent := .cx 0 }) fun _ _ => true) = true ∧ (tileSt.field 0).tilesOwned (coreNum 8) < 64 ∧
    On h bareSt ∧ shapeOk 0x40 64 2 64 1 = true ∧
    (okIs (checkPages (pagesOf (footprint 0x40 64 2 64 1)) 0 { bareSt with agent := .cx 0 }) fun a s0 => a == 0 &&
      s0.tdeclStatus 0 0 [1, 2] (sliceOf 1) == 0 &&
      okIs (ownReadyAll 0 0 [1, 2] s0) fun _ s1 => okIs (ownAll 0 0 [1, 2] s1) fun _ s2 => (s2.field 0).freeTile (sliceOf 1) == some 512) = true := by
  decide +kernel

theorem test_tiles : (let item (o : Out) (w : Nat) : Bool := nextIs o fun t => (t.core 0).items.map (·.status) == [some (BitVec.ofNat 64 w)]
    item (exec (.tqry h 9 1) tileSt) 0 && item (exec (.tqry h 9 2) tileSt) (3 * 2 ^ 56) && item (exec (.trel h 9 1) tileSt) 0 &&
    item (exec (.tfwd h 9 1 5 true) tileSt) (8 * 2 ^ 56) && item (exec (.tdecl h 9 3 4 0) bareSt) 512 && item (exec (.tdecl h 9 3 4 0) tileSt) (7 * 2 ^ 56) &&
    nextIs (exec (.tfwd h 9 1 2 true) tileSt) (fun t => (SMap.find? (t.field 0).tiles 9).map (·.owner) == some 8 && (t.hline 0 1).dir == .e 1 &&
      (t.l2 0 1).isNone && (t.l2 1 1).map (·.data) == some line.data)) = true := by decide +kernel

/-! ## Transfers -/

/-- Channel 2 with 15 entries queued, 31 transfers open; g20 and g21 name a destination and a counter. -/
def xferSt : State :=
  mach { run [(1, 0x400), (2, 0x40), (4, localBase + 0x200), (8, 0x800), (9, 0x900), (10, 0x1FFFFFF8), (12, 5), (13, 6), (14, 0x108)] with cancelled := some 3 }
    { memCore with items := List.replicate 31 { id := 1, cx := 0, tid := 8, gd := 0, asid := 0, lvl := false, extn := false, sc := .fld, kind := .cpy 2 } }
    { chans := (Vector.replicate 4 {}).set 2 { queue := List.replicate 15 { addr := 0, chain := false, core := 1, cx := 16, tid := 8, item := 0, asid := 0, lvl := false, extn := false } } }

/-- TransferResults: records and chains in paged and core memory, room for one more, both put forms, and a remote atomic. -/
theorem witness_TransferResults : On h xferSt ∧ settled xferSt = true ∧
    (okIs (recordCheck 0x400 xferSt) fun _ t => decide (t = xferSt)) = true ∧ (okIs (recordCheck (localBase + 0x2FF00) xferSt) fun _ t => decide (t = xferSt)) = true ∧
    ((xferSt.cluster xferSt.myCl).chan 2).queue.length < 16 ∧
    ((xferSt.core xferSt.myCore).items.filter fun i => i.kind.transfer && i.status.isNone).length < 32 ∧ (xferSt.me.rg 1).toNat ≠ 0 ∧ (xferSt.me.rg 0).toNat = 0 ∧
    xferSt.me.cancelled = some 3 ∧ ((List.range 4).all fun j => !((true || j == 2) && ((xferSt.cluster xferSt.myCl).chan (BitVec.ofNat 2 j)).cancelling 7)) = true ∧
    (xferSt.me.rg 14).toNat < peerBase ∧ (xferSt.me.rg 14).toNat % 8 = 0 ∧ (okIs (putRange 0x108 512 .load xferSt) fun _ t => decide (t = xferSt)) = true ∧
    (okIs (putDest (xferSt.me.rg 8) (xferSt.me.rg 9) 512 false true xferSt) fun _ t => decide (t = xferSt)) = true ∧
    (okIs (putDest (BitVec.ofNat 64 (2 ^ 17)) 0x2FFF8 8 true true xferSt) fun _ t => decide (t = xferSt)) = true ∧
    (okIs (ramoCheck 0x400 8 xferSt) fun _ t => decide (t = xferSt)) = true ∧ xferSt.me.ringFull = false := by decide +kernel

theorem test_transfers : (nextIs (exec (.put h .fld false 15 8 14 63 1 true) xferSt) fun t => ((t.core 0).items.map (·.kind)).drop 31 == [.put 0x800 0x900 false true 1 (some 0x108) 512 []] &&
      t.me.pend == [(15, 100)]) = true ∧
    (nextIs (exec (.ccancel h 15 2 true) xferSt) fun t => t.me.rg 15 == 3 && t.me.cancelled.isNone) = true ∧
    (nextIs (exec (.cqry h 15 2) xferSt) fun t => t.me.rg 15 == BitVec.ofNat 64 (15 * 2 ^ 57)) = true ∧
    (nextIs (exec (.cpy h 15 14 2) (xferSt.setMe { xferSt.me with ftvec := 1 })) fun t => t.me.tcause == 3 && t.me.tval == 0x108) = true ∧
    (nextIs (exec (.ramo h .add false .ar .prt 15 1 12 3) xferSt) fun t => ((t.core 0).items.map (·.kind)).drop 31 == [.ramo 0x400 .add false 5 0 0 3 true true]) = true := by
  decide +kernel

/-- A remote atomic through an import of another module, ordered at FLD: beyond the scope. -/
theorem witness_TransferResults_beyond : (let s := mach (run [(1, peerBase)]) {} {} { inReset := false, sys := [(bankReg 0xA0D 0, BitVec.ofNat 64 (9 * 2 ^ 48)), (bankReg 0xA0E 0, 0x81C0000000000001)] }
    (okIs (ramoCheck peerBase 4 s) fun _ t => decide (t = s)) = true ∧ s.space s.myCore peerBase = .peer 0 0 ∧ scopeHolds .fld (pimKind (s.pimCtl s.myField 0)) = false ∧
    (nextIs (exec (.ramo h .add false .ar .fld 15 1 12 3) s) fun t => t.me.fstat == 0x400) = true) := by decide +kernel

/-! ## Messages and tasks -/

/-- A queued port 3 holding slot 5, a pattern 2 on it, an inbox message, and core 0's context 14. -/
def msgCore : Core :=
  { memCore with
    cmem := [(0x40, natBytes 0x8001000000000000 8 ++ natBytes 0 8), (0x100, natBytes (2 ^ 15 + 2 ^ 8 + 3) 8 ++ natBytes 0 8 ++ natBytes 2 8 ++ natBytes 0x5000 8),
      (slotBase 5, [0, 0, 0, 0, 3, 1, 1, 0] ++ List.replicate 8 0 ++ [1, 2, 3, 4, 5, 6, 7, 8]), (0x400, [0, 0, 0, 0, 3, 1, 1, 0] ++ List.replicate 8 0 ++ [9, 9])].foldl
        (fun (m : Mem) (x : Nat × List Byte) => Mem.writeBytes m x.1 x.2) []
    ports := [(3, { direct := false, policy := 0, limit := 1, prio := 0, cls := 0, strict := false, extn := false, asid := 0, handler := 0, queue := [5] })]
    slots := [(5, .port 3)] }
def msgSt : State :=
  { mach {} msgCore with ctxs := [(14, { run [(1, localBase + 0x40), (2, localBase + 0x100), (3, localBase + 0x400), (4, localBase + 0x600), (5, 9)] with asidr := 0 })], cur := 14 }

/-- MessageResults: a send of 8 bytes and one of none, a port entry that enables and one that clears, a pattern entry, both
enable forms, MTAKE and MREPLAY. -/
theorem witness_MessageResults : On h msgSt ∧ msgSt.me.ppov = none ∧ (16 : BitVec 5).toNat ≤ 16 ∧
    (okIs (loadWords (msgSt.me.rg 1).toNat 16 0 msgSt) fun ws s1 => ws.length == 16 && decide (s1.sqUsed s1.myCore s1.me.task.tid < min s1.me.sqDepth 8) && !s1.undone s1.myCore s1.me.task.tid) = true ∧
    ((29 : BitVec 5).toNat < 30 ∨ msgSt.me.lvl = true) ∧
    (okIs (loadWords (msgSt.me.rg 1).toNat 2 0 msgSt) fun ws s1 => ws == [0x8001000000000000, 0] && (s1.core s1.myCore).portLen 29 == 0 && !(s1.core s1.myCore).portNamed 29 &&
      !portRsv 0x8001000000000000 && !portBad 0x8001000000000000 0 s1.me.lvl s1.me.asid) = true ∧
    (okIs (loadWords (msgSt.me.rg 2).toNat 4 0 msgSt) fun ws s1 => let p := patOf (ws.getD 0 0) (ws.getD 1 0) (ws.getD 2 0) (ws.getD 3 0)
      ws.length == 4 && !(s1.core s1.myCore).jen.testBit 15 && ((s1.core s1.myCore).joinOn 15).isNone && !patRsv (ws.getD 0 0) && !patRsv (ws.getD 1 0) && bits (ws.getD 2 0) 8 8 == 0 &&
      bits (ws.getD 2 0) 32 32 == 0 && p.ins == [(3, 1)] && !(s1.core s1.myCore).patBad p s1.me.lvl s1.me.asid) = true ∧
    (GI.uval (.imm 0xFFFF) msgSt.me).toNat < 65536 ∧ (okIs (imageCheck (msgSt.me.rg 4).toNat msgSt) fun _ t => decide (t = msgSt)) = true ∧
    (okIs (piecePlaces (msgSt.me.rg 4).toNat .store 9 msgSt) fun ps s1 => match (s1.core s1.myCore).takeOldest 3 false with
      | some (n, c) => n == 5 && okIs (writePieces (ps.take ((((s1.core s1.myCore).slotBytes n).length + 15) / 16)) ((s1.core s1.myCore).slotBytes n) (s1.setCore s1.myCore c)) fun _ _ => true
      | none => false) = true ∧
    (okIs (loadWords (msgSt.me.rg 3).toNat 18 0 msgSt) fun ws s1 => s1.replayPort (ws.flatMap fun w => natBytes w.toNat 8) == some 3 &&
      (SMap.find? (s1.core s1.myCore).ports 3).map (·.direct) == some false && (s1.core s1.myCore).freeSlot == some 0) = true := by decide +kernel

theorem test_messages : (nextIs (exec (.send h 5 1 ⟨3, 1, true, 1, 0xABCD⟩) msgSt) fun t => (t.field 0).msgs.map (fun m => (m.dloc, m.dport, m.rport, m.rpy, m.len8)) == [(9, 3, 1, true, 1)] &&
      (t.field 0).msgs.map (fun m => (m.tag, m.pay)) == [(0xABCD, [0, 0, 0, 0, 0, 0, 1, 0x80])]) = true ∧
    (nextIs (exec (.pcfg h 9 1 29) msgSt) fun t => t.me.rg 9 == 0 && (SMap.find? (t.core 0).ports 29).map (·.limit) == some 1) = true ∧
    (nextIs (exec (.pcfg h 9 1 3) msgSt) fun t => t.me.rg 9 == BitVec.ofNat 64 (2 ^ 56)) = true ∧
    (nextIs (exec (.jcfg h 9 2 15) msgSt) fun t => t.me.rg 9 == 0 && nextIs (exec (.jena h 9 (.imm 0xFFFF)) t) fun u => (u.core 0).jen == 0x8000 && u.me.rg 9 == 0) = true ∧
    (nextIs (exec (.mtake h 9 4 3 false) msgSt) fun t => t.me.rg 9 == 5 && (okIs (memRd (localBase + 0x610) 8 none t) fun v _ => v == 0x0807060504030201)) = true ∧
    (nextIs (exec (.mreplay h 9 3) msgSt) fun t => t.me.rg 9 == 0 && (SMap.find? (t.core 0).ports 3).map (·.queue) == some [0, 5]) = true := by decide +kernel

/-- Pattern 2 on port 3, whose message waits; an armed codelet of count 3 at 0x200; the deque one entry from full. -/
def taskSt : State :=
  { mach {} { msgCore with
      cmem := [(0x200, natBytes 3 4 ++ [0x1]), (0x3004, [0x1])].foldl (fun (m : Mem) (x : Nat × List Byte) => Mem.writeBytes m x.1 x.2) msgCore.cmem
      pats := [(2, patOf 0x8103 0 0 0x5000)]
      deque := List.replicate 95 { pc := 0, arg := 0, asid := 0, cls := 0, prio := 0, fst := 0 }, armed := 0x200 :: List.replicate 254 0x3000 } with
    ctxs := [(0, run [(1, 0x01FFFFFFFFFFFFFC), (2, localBase + 0x240), (3, 0x200), (4, 2), (5, 7)])] }

/-- TaskResults: the highest code address, a pattern that is satisfied, an idle codelet and the last armed place, decrements to
1 and to 0, TEXIT of a clean task and of one in a handler, and the bounds of both depths. -/
theorem witness_TaskResults : On h taskSt ∧ settled taskSt = true ∧ (taskSt.me.rg 1).toNat < 2 ^ 57 ∧ (taskSt.me.rg 1).toNat % 4 = 0 ∧
    (taskSt.core 0).deque.length < 96 ∧ (SMap.find? (taskSt.core 0).pats 2).isSome = true ∧ (taskSt.modCore 0 fun c => c.joinWait 0 2).joinWins 0 0 = true ∧
    ((taskSt.freeOwned 0).modCore 0 fun c => c.joinWait 0 2).joinWins 0 0 = true ∧
    taskSt.ownOffset 0 (taskSt.me.rg 2).toNat = some 0x240 ∧ (taskSt.me.rg 2).toNat % 32 = 0 ∧ 0x240 < schedBase ∧ (taskSt.me.rg 4).toNat ≠ 0 ∧ (taskSt.me.rg 4).toNat < 2 ^ 32 ∧
    (taskSt.core 0).poison = [] ∧ (taskSt.core 0).fe = [] ∧ ((taskSt.core 0).codeletState 0x240).getLsbD 0 = false ∧ (taskSt.core 0).armedNow.length + (taskSt.core 0).ring.length < 256 ∧
    bits (taskSt.me.rg 3) 18 14 = 0 ∧ bits (taskSt.me.rg 3) 0 18 % 32 = 0 ∧ bits (taskSt.me.rg 3) 0 18 < cmemSize ∧
    taskSt.locCore ((taskSt.me.rg 3).extractLsb' 32 32) = some 0 ∧ fieldOf 0 = taskSt.myField ∧ (taskSt.core 0).codeletCount 0x200 = 3 ∧
    ((taskSt.core 0).codeletState 0x200).getLsbD 0 = true ∧ (GI.uval (.imm 3) taskSt.me).toNat ≤ 3 ∧ (GI.uval (.reg 4) taskSt.me).toNat < 3 ∧
    taskSt.me.nest = false ∧ (taskSt.setMe { taskSt.me with tsave := 2 }).me.nest = true ∧ taskSt.me.ppov = none ∧ taskSt.sqUsed 0 7 = 0 ∧ taskSt.me.lates = [] ∧
    (taskSt.core 0).mq = [] ∧ (taskSt.core 0).items = [] ∧ taskSt.recsOpen 0 7 = false ∧ taskSt.marksOpen 0 7 = false ∧ ctxNum taskSt.cur < 14 := by decide +kernel

theorem test_tasks : (nextIs (exec (.spawn h 9 1 5 2) taskSt) fun t => t.me.rg 9 == 0 && (t.core 0).deque.length == 96 &&
      nextIs (exec (.spawn h 9 1 5 2) t) fun u => u.me.rg 9 == BitVec.ofNat 64 (3 * 2 ^ 56) && (u.core 0).deque.length == 96) = true ∧
    (nextIs (exec (.cdec h 9 3 (.imm 3)) taskSt) fun t => t.me.rg 9 == 3 && (t.core 0).ring == [0x200] && (t.core 0).armedNow.length == 254) = true ∧
    (nextIs (exec (.cdec h 9 3 (.reg 4)) taskSt) fun t => t.me.rg 9 == 3 && (t.core 0).ring == [] && (t.core 0).codeletCount 0x200 == 1) = true ∧
    (nextIs (exec (.cdec h 9 3 (.imm 4)) taskSt) fun t => t.me.rg 9 == BitVec.ofNat 64 (8 * 2 ^ 56 + 3)) = true ∧
    (nextIs (exec (.carm h 9 2 4 1) taskSt) fun t => t.me.rg 9 == 0 && (t.core 0).codeletCount 0x240 == 2 && (t.core 0).armedNow.length == 256) = true ∧
    (nextIs (exec (.joinw h 9 2 false) taskSt) fun t => t.me.task.slots.map (·.slot) == [5] && (SMap.find? (t.core 0).ports 3).map (·.queue) == some []) = true ∧
    (nextIs (exec (.texit h) taskSt) fun t => (t.ctx 0).st == .free) = true ∧
    (nextIs (exec (.sqcfg h (.imm 9)) (taskSt.setMe { taskSt.me with ftvec := 1 })) fun t => t.me.tcause == 1) = true := by decide +kernel

/-! ## System forms, traps and steps -/

/-- A handler at 0x3000, a user handler at 0x4000, numbers 0 and 65535, and a ring with entry 5. -/
def sysCtx : Ctx :=
  { run [(1, 0x3000), (2, 5), (3, 6), (4, 65535), (5, 0x8000000000000F37)] with
    ftvec := 0x3001, utvec := 0x4001, tcause := 8, tpc := 0x1234, tval := 9, tsave := 2, utpc := 0x5000
    ring := [{ seq := 5, st := .faulted, code := 3, progress := 2, pc := 0x1000, addr := 0x77 }] }
def sysSt : State := mach sysCtx

/-- SystemFormResults: RETT at both levels with and without UTVEC.EN, HALT in contexts 13 and 14, a register of each kind that
is read and written, one whose write is ignored, ENRG in a partition, SEQRD found and absent. -/
theorem witness_SystemFormResults : On h sysSt ∧ sysSt.me.lvl = true ∧ sysSt.me.utvec.getLsbD 0 = true ∧ (mach (run [])).me.utvec.getLsbD 0 = false ∧
    (mach { sysCtx with lvl := false }).me.lvl = false ∧ ctxNum 13 < 14 ∧ 14 ≤ ctxNum 14 ∧
    sysSt.me.lates = [] ∧ (mach { sysCtx with ring := [{ seq := 1, untaken := true, st := .faulted }] }).me.lates ≠ [] ∧ regDefined 0x004 = true ∧ ctxReg 0x004 = true ∧ taskRead 0x004 = true ∧ taskWrite 0x004 = true ∧ coreReg 0x9A3 = true ∧ plainReg 0x040 = true ∧
    regDefined 0x941 = true ∧ (sysSt.field 0).ignores 0x040 5 = false ∧ fieldReg 0xA04 = true ∧ (sysSt.field 0).ignores 0xA04 0 = true ∧
    okIs (writeReg 0 0x942 3 sysSt) (fun _ _ => true) = true ∧ sysSt.partOf sysSt.myField = some 1 ∧ (SMap.find? sysSt.parts 1).isSome = true ∧
    (sysSt.me.rg 4).toNat < 65536 ∧ (2 : BitVec 2).toNat < 3 ∧ (sysSt.me.ring.find? fun e => e.seq == (sysSt.me.rg 2).setWidth 16).isSome = true ∧
    (∀ e ∈ sysSt.me.ring, e.seq ≠ (sysSt.me.rg 3).setWidth 16) := by decide +kernel

theorem test_system : (nextIs (exec (.rett h false) sysSt) fun t => t.me.pc == 0x1234 && !t.me.lvl && t.me.tsave == 0) = true ∧
    (nextIs (exec (.rett h true) sysSt) fun t => t.me.pc == 0x4000 && !t.me.lvl && t.me.utcause == 8 && t.me.utpc == 0x1234 && t.me.utval == 9) = true ∧
    (nextIs (exec (.rett h false) (mach { sysCtx with lvl := false })) fun t => t.me.pc == 0x5000) = true ∧
    (nextIs (exec (.seqrd h 9 2 0) sysSt) fun t => t.me.rg 9 == 0x4003000200000005) = true ∧ (nextIs (exec (.seqrd h 9 2 2) sysSt) fun t => t.me.rg 9 == 0x77) = true ∧
    (nextIs (exec (.seqrd h 9 3 0) sysSt) fun t => t.me.rg 9 == 0xA000000000000006) = true ∧
    (nextIs (exec (.enrg h 9) sysSt) fun t => t.me.rg 9 == 2000) = true ∧ (nextIs (exec (.rdtime h 9 false) sysSt) fun t => t.me.rg 9 == 5000000) = true ∧
    (nextIs (exec (.srd h 9 0x0C6) sysSt) fun t => t.me.rg 9 == 0) = true ∧ (nextIs (exec (.swr h 0x0C1 1) sysSt) fun t => t.me.utvec == 0x3000) = true := by
  decide +kernel

/-- TRAP in the handler ends the activation; from outside it enters, with the next address in TPC. -/
theorem test_trap : (nextIs (exec (.trap h 0x12345678) (mach { sysCtx with tsave := 0, lvl := false })) fun t =>
      t.me.pc == 0x3000 && t.me.tcause == 0x10 && t.me.tval == 0x12345678 && t.me.tpc == 0x100C && t.me.tsave == 2 && t.me.lvl) = true ∧
    (nextIs (exec (.trap h 1) sysSt) fun t => (t.ctx 0).st == .free && (t.field 0).log.length == 1) = true := by decide +kernel

/-- TrapEntry: NEST clear with a handler and without, NEST set, and two late faults. -/
theorem witness_TrapEntry : (mach { sysCtx with tsave := 0 }).me.tsave.getLsbD 1 = false ∧ (mach { sysCtx with tsave := 0 }).me.ftvec.getLsbD 0 = true ∧
    (mach (run [])).me.ftvec.getLsbD 0 = false ∧ sysSt.me.tsave.getLsbD 1 = true ∧ h.yld = false ∧ (mach { sysCtx with tsave := 0 }).me.lates = [] ∧ sysSt.cur = 0 ∧
    (mach { sysCtx with ring := [{ seq := 1, untaken := true, st := .faulted }, { seq := 2, untaken := true, st := .faulted }] }).me.lates.length = 2 := by
  decide +kernel

/-- A late fault is taken with its number, and the second is announced. -/
theorem test_late : (let e : SeqEntry := { seq := 1, st := .faulted, code := 4, addr := 0x99, untaken := true }
    let t := (mach { sysCtx with tsave := 0, ring := [e, { e with seq := 2 }] }).takeLate 0
    t.me.tcause == 0x800000000100040C && t.me.tval == 0x99 && t.me.tpc == 0x1000 && t.me.lates.length == 1) = true := by decide +kernel

/-- A frame page at 0x10000 under ASID 3 and key 5 of core 0. -/
def frameKey : BitVec 8 := 5
def frameField : Field :=
  { inReset := false
    xlat := [{ vpage := 1, size := .k64, asid := 3, g := false, pa := 0x20000, key := frameKey, i := true, rd := true, wr := true }]
    keys := [(5, { st := .valid, data := 1, tweak := 2, tag := 3 })], sys := [(0x960, 1)] }
def frameCore : Core := { cmem := Mem.writeBytes [] 0x2FA00 (natBytes (5 * 2 ^ 56 + 3) 8) }
def frameRec : Saved :=
  { addr := 0x10000, entry := none, cx := 3, task := { tid := 12 }, mscl := {}, shadow0 := {}, shadow1 := {}, wait := none, pend := []
    ppov := none, nextSeq := 0, ring := [], reqs := [], rim := [], banks := false, accs := 0, ready := false, own := false, since := 0 }
/-- Context 14 issues; context 13 runs task 12, or has been saved at 0x10000. -/
def frameSt (c : List (Nat × Ctx)) (sv : List Saved) : State :=
  { mach {} { frameCore with saved := sv } {} frameField with
    ctxs := c ++ [(14, { run [(1, 0x10000), (2, 0xD00000000), (3, 0x2000), (4, 5)] with lvl := true })], cur := 14 }

/-- SaveAndKillResults: CXSAVE of context 13 into a frame that can be reached, and into one that ends past paged memory. -/
theorem witness_CXSAVE : (let s := frameSt [(13, { st := .ready, task := { tid := 12 } })] []
    let fr := s.frameHere 0x10000
    On h s ∧ s.me.lvl = true ∧ (s.me.rg 1).toNat % 4096 = 0 ∧ (13 : BitVec 4).toNat ≠ ctxNum s.cur ∧ s.me.parts = [] ∧
    okIs (fr.reach ((s.core 0).heldAccs 13) true s) (fun b t => b && decide (t = s)) = true ∧ (s.ctx 13).vacant = false ∧ (s.ctx 12).vacant = true ∧
    (s.ctx 13).saving = none ∧ (s.unsend 13).midway 13 = false ∧ (s.ctx 13).task.stop = false ∧
    localBase % 4096 = 0 ∧ okIs ((s.frameHere localBase).reach 0 true s) (fun b t => !b && decide (t = s)) = true) := by decide +kernel

/-- The save of context 13 that goes on to its end: FaultSteps, StepRunsDecoded and CXSAVE. -/
def savingSt : State :=
  frameSt [(13, { st := .ready, task := { tid := 12 }, saving := some { reason := 3, entry := none, asid := 3, key := 5, addr := 0x10000, reqs := [] } })] []

theorem witness_save_goes_on : okIs (saveOn 13 savingSt) (fun _ t => (t.ctx 13).st == .free && t.alive 12) = true := by decide +kernel

/-- The first n lines of the frame at 0x10000, written under key 5, as zeros. -/
def frameLines (n : Nat) (s : State) : State :=
  s.modField 0 fun f => { f with
    lmeta := (List.range n).map fun i => (0x800 + i, { dk := 1, tk := 2, written := true, tag := some { tkey := 3, id := 5, dk := 1, tk := 2, data := 0 } }) }

/-- What precedes the restore of a CXLOAD of task 12 into context 13, and the restore. -/
def loads (s : State) (ok : Bool) : Bool :=
  let fr := s.frameHere 0x10000
  okIs (fr.reach 0 false s) fun b s1 => b && okIs (fr.read 0 16 s1) fun o s2 => match o with
    | some bs => okIs (fr.reach (BitVec.ofNat 4 (fieldAt bs 25 1)) false s2) fun b s3 => b && s.savedAt 0 0x10000 bs == some (0, frameRec) &&
        okIs (restoreInto 0 13 fr none frameRec s3) fun b t => b == ok && (!b || (t.ctx 13).task.tid == 12)
    | none => false

/-- SaveAndKillResults: a frame that is restored, one whose later lines cannot be read, and a context that is not free. -/
theorem witness_CXLOAD : loads (frameLines 256 (frameSt [] [frameRec])) true = true ∧ loads (frameLines 100 (frameSt [] [frameRec])) false = true ∧
    ((frameSt [] [frameRec]).ctx 13).st = .free ∧ ((frameSt [(13, { st := .ready })] []).ctx 13).st ≠ .free := by decide +kernel

/-- SaveAndKillResults: KILL of context 13, of one that is being saved, and KREVOKE of key 5. -/
theorem witness_KILL : (let s := frameSt [(13, { st := .ready, task := { tid := 12 } })] []
    s.killBad (s.me.rg 2) = false ∧ (s.me.rg 3).toNat % 64 = 0 ∧ s.locCore ((s.me.rg 2).setWidth 32) = some 0 ∧ fieldOf 0 = s.myField ∧
    (s.field s.myField).killing 0 (some 13) none = false ∧ s.killTarget 0 13 false = some 12 ∧ (s.field s.myField).kills = [] ∧
    (s.ctx 13).saving = none ∧ (s.ctx 13).committed = false ∧ (savingSt.ctx 13).saving ≠ none ∧ savingSt.killTarget 0 13 false = some 12 ∧
    (s.me.rg 4).toNat < 256 ∧ s.partOf s.myField = some 1 ∧ (SMap.find? s.parts 1).isSome = true ∧
    (((SMap.find? s.parts 1).map fun p => s.keyValid p 5) == some true) = true) := by decide +kernel

/-! ## Steps, encodings, frames -/

/-- An ADD placed at 0x1034, the last place where it lies in one line. -/
def stepSt : State := (mach { run [] with pc := 0x1034 }).withFetchWord 96 0x010000001000_0C0000000005

/-- FetchReadsBytes at offset 52 of a line, across two, and at the end of paged memory. -/
theorem witness_FetchReadsBytes : stepSt.me.rim = [] ∧ stepSt.me.pc.toNat = 0x1034 ∧ stepSt.me.pc.toNat % 64 = 52 ∧
    stepSt.checkPaged stepSt.acc 0x1034 .fetch = .ok .paged 0 ∧ stepSt.checkPaged stepSt.acc (0x1034 + 11) .fetch = .ok .paged 0 ∧
    (SMap.find? (stepSt.core stepSt.myCore).l1i (lineKey 0 0x1034)).isSome = true ∧ (SMap.find? (stepSt.core stepSt.myCore).l1i (lineKey 0 (0x1034 + 11))).isSome = true ∧
    (let s := (mach { run [] with pc := 0x103C }).withFetchWord 96 0x010000001000_0C0000000005;
      (SMap.find? (s.core 0).l1i (lineKey 0 0x103C)).isSome = true ∧ (SMap.find? (s.core 0).l1i (lineKey 0 (0x103C + 11))).isSome = true ∧
      s.checkPaged s.acc (0x103C + 11) .fetch = .ok .paged 0) ∧
    localBase ≤ (mach { run [] with pc := BitVec.ofNat 64 localBase }).me.pc.toNat := by decide +kernel

/-- StepRunsDecoded: a word that decodes, with no window, item or late fault; a save that is due; a word that does not decode; a
fetch that traps; an event that is due. -/
theorem witness_StepRunsDecoded : stepSt.cur < numCtxs ∧ stepSt.agenda = [] ∧ stepSt.me.issues = true ∧ stepSt.killDue stepSt.cur = none ∧ stepSt.me.yieldDue = false ∧ stepSt.saveDue stepSt.cur = false ∧
    ({ savingSt with cur := 13 } : State).me.saving ≠ none ∧ savingSt.agenda = [] ∧
    ((stepSt.modField 0 fun f => { f with kills := [{ id := 60, tid := 7, record := 0, asid := 0, by_ := 0, core := 0, cx := some 0, frame := none, begun := false }] }).killDue 0).isSome = true ∧
    ((stepSt.setMe { stepSt.me with preq := true, preqClk := 4980000, task := { tid := 7, stop := true } }).saveDue 0) = true ∧
    okIs (fetch stepSt.tick) (fun w t => decode w == some (.add h false 1 0 (.imm 5)) && decide (t.me.windows = [] ∧ t.me.pend = [] ∧ t.me.lates = [])) = true ∧
    okIs (fetch (mach (run []) { l1i := [(0x40, { data := 0, base := 0, size := .m64 })] }).tick) (fun w t => decode w == none && !t.unresolved t.cur) = true ∧
    (match fetch (mach { run [] with pc := BitVec.ofNat 64 localBase }).tick with
      | .error (.trap t) _ => t.cause == .bounds
      | _ => false) = true ∧ (mach (run [])).tick.unresolved 0 = false ∧
    ({ stepSt with agenda := [.energyCount 1 5] } : State).agenda = .energyCount 1 5 :: [] := by decide +kernel

/-- An instruction that crosses a line is read from both. -/
theorem test_fetch_crosses : nextIs (step ((mach { run [] with pc := 0x103C }).withFetchWord 96 0x010000001000_0C0000000005))
    (fun t => (t.ctx 0).rg 1 == 5 && (t.ctx 0).pc == 0x1048) = true := by decide +kernel

/-- An event that is due comes before the instruction. -/
theorem test_agenda : nextIs (step { stepSt with agenda := [.ucieFlitReplay 0 1] }) (fun t =>
    (t.ctx 0).pc == 0x1034 && (t.field 0).replays == 1 && t.cur == 0) = true := by decide +kernel

/-- StepKeepsInv: State.reset, and the last context of the module. -/
theorem witness_StepKeepsInv : State.reset.Inv ∧ ({ State.reset with cur := numCtxs - 1 } : State).Inv :=
  ⟨by unfold State.Inv; decide +kernel, by unfold State.Inv; decide +kernel⟩

/-- DecodeOfEncode and EncodeOfDecode: the last register, immediate and field of a form that uses them all. -/
theorem witness_DecodeOfEncode : (let i := Instr.put { h with p := 7, neg := true, yld := true } .sys true 63 62 63 0xFFFF 3 true
    Instr.wf i = true ∧ (encode i).isSome = true ∧ ((encode i).bind decode) = some i) := by decide +kernel

/-- A memory in canonical form; a byte 0 takes its entry away, and equal memories are equal lists. -/
theorem witness_MemoryOperations : Memory.wf (Mem.writeBytes [] 5 [1, 0, 3]) = true ∧ Memory.wf ([] : Mem) = true ∧
    Mem.writeBytes (Mem.writeBytes [] 5 [1, 0, 3]) 5 [0, 0, 3] = Mem.writeBytes [] 7 [3] ∧ Memory.wf [(3, 0)] = false ∧
    Memory.wf [(3, 1), (3, 1)] = false := by decide +kernel

/-- ScalarFrame, VectorFrame: a form that completes and one that traps, with a yield hint and without. -/
theorem witness_Frames : (let s := mach { run [] with ftvec := 1 }
    Instr.scalar (.add h false 1 2 (.imm 3)) = true ∧ Instr.hdr? (.add { h with yld := true } false 1 2 (.imm 3)) = some { h with yld := true } ∧ s.me.preq = false ∧
    Instr.scalar (.loop h 0 1) = true ∧ nextIs (exec (.loop h 0 1) s) (fun t => t.me.tcause == 1) = true ∧
    nextIs (exec (.add h false 1 2 (.imm 3)) s) (fun _ => true) = true ∧ Instr.vecInt (.vadd h .w ⟨0, false⟩ false 1 ⟨1, false, false⟩ (.g 2)) = true ∧
    nextIs (exec (.vadd h .w ⟨0, false⟩ false 1 ⟨1, false, false⟩ (.g 2)) s) (fun _ => true) = true ∧
    Instr.vecFp (.vfadd h .f32 .rne ⟨0, false⟩ 1 ⟨1, false, false⟩ (.g 2)) = true ∧
    nextIs (exec (.vfadd h .f32 .rne ⟨0, false⟩ 1 ⟨1, false, false⟩ (.g 2)) s) (fun _ => true) = true) := by decide +kernel

/-- StoreFrame: ST to core memory and shared memory, STP to core memory, and the last pair of a page. -/
theorem witness_StoreFrame : memSt.me.rim = [] ∧ On h memSt ∧ (memSt.core 0).fe = [] ∧
    memSt.check memSt.acc (effAddr memSt.me 1 0) 8 8 .store = .ok (.core 0 0x100) 0 ∧
    memSt.check memSt.acc (effAddr memSt.me 4 0) 8 8 .store = .ok (.shared 8) 0 ∧
    memSt.check memSt.acc (effAddr memSt.me 5 0xFFF0) 16 16 .store = .ok .paged 0 ∧
    nextIs (exec (.st h .d none 3 1 0) memSt) (fun _ => true) = true ∧ nextIs (exec (.st h .d none 3 4 0) memSt) (fun _ => true) = true ∧
    nextIs (exec (.stp h none 2 1 0) memSt) (fun _ => true) = true := by decide +kernel

/-! ## Agents: dispatchers -/

/-- A launch record at 0x100 and in the ring at 0x500: one group of one member, code at 0x10, template at 0x200, completion
record at 0x300; tail 1 and head 0. -/
def agRecord : List Byte := natBytes 0x10 8 ++ natBytes 0x200 8 ++ natBytes 1 4 ++ [1, 1, 0, 0] ++ List.replicate 24 0 ++ natBytes 0x300 8
def agMem : Mem := [(0x100, agRecord), (0x500, agRecord), (0x4C0, natBytes 1 8)].foldl (fun (m : Mem) (x : Nat × List Byte) => Mem.writeBytes m x.1 x.2) []

/-- A field whose dispatcher runs and serves queue 7 at 0x500; pages at 0 under key 0, their first 32 lines at their homes. -/
def agField (rd : Bool := true) : Field :=
  { inReset := false, keys := [(0, { st := .valid })]
    xlat := [{ vpage := 0, size := .m64, asid := 0, g := false, pa := 0, key := 0, i := false, rd := rd, wr := true }]
    home := (List.range 32).map fun i => (i, { data := lineOf (Mem.readBytes agMem (64 * i) 64), present := true })
    sys := [(0x960, 1), (0x043, 0x000200020001), (bankReg 0x041 7, 0x500), (bankReg 0x042 7, 0x8000000000000000)] }

def agLaunch : Launch :=
  { field := 0, queue := 7, entry := 0x10, shape := List.replicate 128 0, groups := 1, w := 1, h := 1, flags := 0, cls := 0, fmask := 0
    fst := 0, tag := 0, energy := 5, compl := 0x300, asid := 0, gen := 0, blk := 0, todo := [0] }

def agSt (l : List (Nat × Launch)) (g : List (Nat × Group) := []) (f : Field := agField) : State :=
  { mach {} {} {} f with launches := l, groups := g, ctxs := [] }

def agGroup : Group := { lid := 4, index := 0, field := 0, members := [0], status := [none], prio := 6, started := false, startNs := 0 }

/-- LaunchSteps: a ready node of a graph, a record of the ring, and one that cannot be read. -/
theorem witness_LaunchRecordRead : (agSt []).dispatching 0 = true ∧ ((agSt []).field 0).served 7 = true ∧
    (let g : Launch := { agLaunch with todo := [], headDone := true, nodes := [{ addr := 0x100, preds := 0, succs := [1] }, { addr := 0x100, preds := 1, succs := [] }] }
      let s := agSt [(4, g)]
      ((s.launchesOf 0 7).findSome? (fun x => x.2.readyNode.map fun i => (x.1, x.2, i)) == some (4, g, 0)) = true ∧
      okIs (dispatchNode 0 7 4 g 0 s) (fun _ t => t.launches.map (·.1) == [4, 100] && (t.launches.map (·.2.parent)) == [none, some (4, 0)]) = true) ∧
    okIs (takeRecord 0 7 (agSt [])) (fun _ t => t.launches.map (·.2.todo) == [[0]]) = true ∧
    (match takeRecord 0 7 (agSt [] [] (agField false)) with
      | .error (.fail c _) _ => c == codePerm
      | _ => false) = true := by decide +kernel

/-- LaunchSteps: a group that is placed, one that starts, one that starves, and one for which another is pre-empted. -/
theorem witness_GroupPlace : (let s := agSt [(4, agLaunch)]
    s.places 0 7 = true ∧ okIs (writeHead 0 7 s) (fun _ t => okIs (writeHead 0 7 (t.placeHead 0 7)) fun _ u =>
      u.groups.map (·.2.members) == [[0]] && u.launches.map (·.2.headDone) == [true]) = true ∧
    (s.headOf 0 7).isSome = true ∧ s.partOf 0 = some 1 ∧ s.mayPass 0 7 = true ∧ s.fit 0 1 1 0 4 (fun _ => false) = some [0] ∧
    ((s.partNow 1).bind fun p => (p.takesIn 2000).map (·.commit)) = some 2000 ∧ ((s.partNow 1).bind fun p => p.takesIn 2001) = none ∧
    ((s.partNow 1).map (·.window)) = some 5) := by decide +kernel

theorem witness_GangStart : (let s := agSt [(4, { agLaunch with todo := [] })] [(9, agGroup)]
    (SMap.find? s.groups 9).isSome = true ∧ (SMap.find? s.launches 4).isSome = true ∧ agGroup.started = false ∧ agGroup.field = 0 ∧ (s.core (coreOf 0)).retired = false ∧
    nextIs (exec (.gangStart 0 9) s) (fun t => (t.ctx 0).pc == 0x10 && (t.ctx 0).rg 1 == 0x010000000002F000) = true) := by decide +kernel

/-- Waits of 2 µs that have just ended, and the one running group below priority 7. -/
theorem witness_Preempt : (let l := { agLaunch with headNs := some 4998000, w := 64, h := 1 }
    let s := { agSt [(4, l)] [(9, { agGroup with lid := 5, started := true })] with
      ctxs := (List.range 14).map fun x => (x, { st := .ready, task := { tid := 20 + x, member := some { gid := if x = 0 then 9 else 8, rank := 0 } } }) }
    (s.headOf 0 7).isSome = true ∧ l.waited s.ns (bits ((s.field 0).reg 0x043) 16 16) = true ∧ bits ((s.field 0).reg 0x043) 32 16 ≠ 0 ∧
    l.waited s.ns (bits ((s.field 0).reg 0x043) 32 16) = true ∧ s.dispatching 0 = true ∧ (s.victims 0 7).map (·.1) = [9] ∧
    ((s.preemptFor 0 4 { l with w := 1 } (s.victims 0 7)).map (·.1)) = some [0]) := by decide +kernel

/-- LaunchSteps: a spanning launch, a launch that is over, and a node of a graph that has ended. -/
theorem witness_LaunchEnd : (let l := { agLaunch with flags := 2, fmask := 1 }
    let s := agSt [(4, l)]
    (List.find? (fun (x : Nat × Launch) => x.2.flags.getLsbD 1 && !x.2.reject && !x.2.todo.isEmpty && x.2.visits == 0 && x.2.fmask.getLsbD 0) s.launches).isSome = true ∧
      SMap.get l.batches 0 [] = [] ∧ s.placeable 0 4 l 1 [] = 1) ∧
    (let l := { agLaunch with todo := [] }
      let s := agSt [(4, l)]
      s.over 4 l = true ∧ okIs (writeHead 0 7 s) (fun _ t => (SMap.get t.launches 4 l).headDone &&
        okIs (writeCompl 0 0 0x300 1 0 l.record t) fun _ _ => true) = true) ∧
    (let g : Launch := { agLaunch with todo := [], nodes := [{ addr := 0x100, preds := 0, succs := [1], run := true }, { addr := 0x100, preds := 1, succs := [] }] }
      let c : Launch := { agLaunch with todo := [], parent := some (4, 0), ended := some 2 }
      let s := agSt [(4, g), (5, c)]
      (List.find? (fun (x : Nat × Launch) => x.2.parent == some (4, 0) && x.2.ended.isSome) s.launches).isSome = true ∧
      okIs (endNode 0 4 g 0 2 (some (5, c)) s) (fun _ t => t.launches.map (·.2.nodes.map (·.st)) == [[some 2, some 5]]) = true) := by decide +kernel

/-! ## Agents: schedulers, balancers, faults -/

/-- Work of each rank that the last context of the core takes, alone and in the order of Table 16-7. -/
def workSt (f : Core → Core) (fr : Core := {}) : State := { mach {} (f fr) with ctxs := [] }

/-- SchedulerSteps: context 13, one kind of work each. -/
theorem witness_ContextSelect : (workSt id).canTake 13 = true ∧ ctxNum 13 = 13 ∧
    (let pat := patOf 0x8103 0 0 0x5000
      let s := workSt fun c => { (c.setReg 0x050 4) with pats := [(2, pat)], ports := [(3, { direct := false, policy := 0, limit := 1, prio := 0, cls := 0, strict := false, extn := false, asid := 0, handler := 0, queue := [5] })], slots := [(5, .port 3)] }
      s.workFor 0 13 = some (.fire 2 pat)) ∧
    (let pat := patOf 0x8103 0 0 0x5000
      let s := workSt fun c => { c with pats := [(2, pat)], joins := [(4, 2)], ports := [(3, { direct := false, policy := 0, limit := 1, prio := 0, cls := 0, strict := false, extn := false, asid := 0, handler := 0, queue := [5] })], slots := [(5, .port 3)] }
      s.workFor 0 13 = some (.joined 4)) ∧
    (let s := workSt fun c => { c with ring := [0x200] }; s.workFor 0 13 = some (.codelet 0x200)) ∧
    (let e : Spawned := { pc := 0x4000, arg := 1, asid := 0, cls := 0, prio := 0, fst := 0 }
      let s := workSt fun c => { c with deque := [e, { e with arg := 2 }] }; s.workFor 0 13 = some (.pop 1 { e with arg := 2 })) ∧
    (let e : Spawned := { pc := 0x4000, arg := 1, asid := 0, cls := 0, prio := 0, fst := 0 }
      let s := { workSt (fun c => c.setReg 0x051 1) with cores := [(0, Core.setReg {} 0x051 1), (7, { Core.setReg {} 0x051 1 with deque := [e, e] })] }
      s.workFor 0 13 = some (.steal 7 0 e)) := by decide +kernel

/-- SchedulerSteps: entry 15 of the frame list, whose task is restored. -/
theorem witness_ContextRestore : (let v : Saved := { frameRec with entry := some 15, ready := true }
    let co : Core := { frameCore with cmem := Mem.writeBytes frameCore.cmem (0x2F800 + 32 * 15) (natBytes 0x10000 8 ++ natBytes 0 4 ++ [3]), saved := [v] }
    let s := frameLines 256 { frameSt [] [] with cores := [(0, co)] }
    s.canTake 13 = true ∧ s.workFor 0 13 = some (.restore 15 v) ∧
    okIs (restoreEntry 0 13 15 v s) (fun _ t => (t.ctx 13).task.tid == 12 && (t.core 0).saved.isEmpty && (t.core 0).frameState 15 == 1) = true) := by
  decide +kernel

def arrives (s : State) (f : Nat) (m : Msg) : Nat :=
  match s.arrive f m with
  | .placed _ => 100
  | .refused => 101
  | .held => 102
  | .back n => n

def returns (s : State) (m : Msg) (n : Nat) : Nat :=
  match s.returnMsg m n with
  | .placed _ => 100
  | .refused => 101
  | .held => 102
  | .back n => n

/-- A message of task 9 on core 1 to port 3 of core 0, whose limit is 1; policy, messages queued, slots in use. -/
def msgTo (policy n used : Nat) (st : MsgSt := .flying) (dst : BitVec 32 := 0) : State × Msg :=
  let m : Msg := { id := 50, tid := 9, src := 1, cx := 16, dloc := dst, dport := 3, rport := 4, rpy := true, extn := false, len8 := 1, tag := 2, pay := List.replicate 8 1, st := st }
  let p : Port := { direct := false, policy := policy, limit := 1, prio := 0, cls := 0, strict := false, extn := false, asid := 0, handler := 0, queue := List.range n }
  ({ mach {} { ports := [(3, p)], slots := (List.range used).map fun i => (i, .owned 3), refused := [50] } {} { inReset := false, msgs := [m] } with
    cores := [(0, { ports := [(3, p)], slots := (List.range used).map fun i => (i, .owned 3), refused := [50] }), (1, Core.setReg {} 0x045 0x8000000000000000)] }, m)

/-- SchedulerSteps: a message that is placed, refused by a full pool, and sent back with each status; its return; retries of
2 µs and of a freed slot. -/
theorem witness_Messages : (let x := msgTo 0 0 63
      x.1.msg? 0 50 = some x.2 ∧ x.2.st = .flying ∧ x.1.msgFirst 0 x.2 = true ∧ arrives x.1 0 x.2 = 100 ∧ returns x.1 x.2 1 = 100 ∧
      (x.1.core 0).refused = [50] ∧ fieldOf 0 = 0) ∧
    (let x := msgTo 0 0 64; arrives x.1 0 x.2 = 101) ∧ (let x := msgTo 1 1 0; arrives x.1 0 x.2 = 1) ∧ (let x := msgTo 0 0 0 .flying 320; arrives x.1 0 x.2 = 4) ∧
    (let x := msgTo 0 0 0 (.returning 1); x.1.msg? 0 50 = some x.2 ∧ returns { x.1 with cores := [] } x.2 1 = 102) ∧
    (let x := msgTo 0 0 0 (.refused false 4998000); x.1.msg? 0 50 = some x.2 ∧ 4998000 + 2000 ≤ x.1.ns ∧ arrives x.1 0 x.2 = 100) ∧
    (let x := msgTo 0 0 63 (.refused true 0); x.1.msg? 0 50 = some x.2 ∧ x.1.retries 0 x.2 = true) ∧
    (let x := msgTo 0 0 0 (.retRefused 1 true 0);
      let s := { x.1 with cores := [(1, { Core.setReg {} 0x045 0x8000000000000000 with refused := [50] })] };
      s.msg? 0 50 = some x.2 ∧ s.retries 1 x.2 = true ∧ (x.2.endedBy).ended = true ∧
      returns { s with cores := [(1, { Core.setReg {} 0x045 0x8000000000000000 with slots := (List.range 64).map fun i => (i, .owned 3) })] } x.2 1 = 101) := by
  decide +kernel

/-- SchedulerSteps: the saddlebag at its threshold of 1 message. -/
theorem witness_SaddlebagWake : (let s := mach {} { Core.setReg {} 0x045 0x8000000000005000 with slots := [(0, .port 1)] }
    ((s.core 0).reg 0x045).getLsbD 63 = true ∧ (s.core 0).retired = false ∧ (s.ctx 14).idle = true ∧ bits ((s.core 0).reg 0x045) 57 6 + 1 ≤ (s.core 0).poolUsed ∧
    (let t := s.modCtx 14 fun c => { c with st := .asleep }; (t.ctx 14).idle = true ∧ (t.ctx 14).st = .asleep) ∧
    nextIs (exec (.saddlebagWake 0) s) (fun t => (t.ctx 14).pc == 0x5000 && (t.ctx 14).lvl) = true) := by decide +kernel

/-- BalancerSteps: rule 7 of the rein, whose queue words are at 0x4C0; the panel; a barrier slot 3; an energy window. -/
def balField : Field :=
  { agField with
    sys := [(0x960, 1), (bankReg 0x048 7, BitVec.ofNat 64 (2 ^ 63 + 0x4C0)), (0x04C, 0x8000000000000101)], panel := 5000000
    moves := [{ id := 8, src := 0, dst := 1, n := 16 }]
    bars := [{ id := 4, slot := 2, core := 9, desc := 0x10000, at_ := 9 }, { id := 3, slot := 2, core := 9, desc := 0x10000, at_ := 0, release := some false },
      { id := 6, slot := 3, core := 0, desc := 0x10000, at_ := 0 }, { id := 5, slot := 3, core := 0, desc := 0x10000, at_ := 0, release := some true }] }

theorem witness_BalancerSteps : (let e : Spawned := { pc := 0x4000, arg := 1, asid := 0, cls := 0, prio := 0, fst := 0 }
    let s := { mach {} {} {} balField with
      cores := [(0, { Core.setReg {} 0x051 2 with deque := [e, e, e, e], bars := (Vector.replicate 4 {}).set 3 { desc := some 0x10000, arrived := true } }), (1, Core.setReg {} 0x051 2)] }
    (rnReg (s.field 0) 0x048 7).getLsbD 63 = true ∧ (s.field 0).inReset = false ∧ SMap.get (s.field 0).rein 7 0 + bits (rnReg (s.field 0) 0x04B 7) 32 16 * 1000 ≤ s.ns ∧
    okIs (dispRead 0 ((rnReg (s.field 0) 0x049 7).extractLsb' 48 16) (bits (rnReg (s.field 0) 0x048 7) 4 53 * 16) 16 s) (fun bs _ => recNat bs 0 8 == 1) = true ∧
    ((s.field 0).reg 0x04C).getLsbD 63 = true ∧ (s.field 0).panel + bits ((s.field 0).reg 0x04C) 32 16 * 1000 ≤ s.ns ∧
    panelCmds 1 1 [(0, 4, 4), (1, 0, 0)] = [(0, 1, 2)] ∧
    ((s.field 0).moves.find? fun m => m.id == 8).isSome = true ∧ (s.core 1).retired = false ∧
    ((s.field 0).bars.find? fun b => b.id == 6).map (·.release) = some none ∧ ((s.field 0).bars.find? fun b => b.id == 5).map (·.release) = some (some true) ∧
    ((s.core 0).bar 3).arrived = true ∧ (9 : Nat) ≠ descCorner 0 0x10000 ∧ descCorner 0 0x10000 = 0 ∧
    nextIs (exec (.barrierArrival 0 4) s) (fun t => ((t.field 0).bars.find? fun b => b.id == 4).map (·.at_) == some 8) = true ∧
    nextIs (exec (.barrierRelease 0 3) s) (fun t => ((t.field 0).bars.find? fun b => b.id == 3).map (·.at_) == some 8) = true ∧ (SMap.find? s.parts 1).map (·.window) = some 5 ∧ ¬ 5 < s.ns / 1000000 ∧ 5 < ({ s with ns := 6000000 } : State).ns / 1000000 ∧
    nextIs (exec (.panelMove 0 8) s) (fun t => (t.core 0).deque == [] && (t.core 1).deque.length == 4) = true ∧
    nextIs (exec (.barrierRelease 0 5) s) (fun t => ((t.core 0).bar 3).episode == 1 && ((t.core 0).bar 3).mism == [0]) = true) := by decide +kernel

/-- FaultSteps: a late fault; PREQ whose limit of 20,000 clk has just passed, with a free frame and of a stopped member; a kill that
waits, and a kill and a revocation with nothing left to wait for. -/
theorem witness_FaultSteps : (let x : Kill := { id := 60, tid := 12, record := 0x2000, asid := 0, by_ := 0, core := 1, cx := some 16, frame := none, begun := true }
    let p : Part := { fx0 := 0, fx1 := 0, fy0 := 0, fy1 := 0, fields := [0], allow := 3, used := 0, commit := 0, window := 4, eovr := 0 }
    let s := { freeFrame (mach { run [] with preq := true, preqClk := 4980000 } {} { l2 := [(0x80, line)] } { agField with kills := [x, { x with id := 62, begun := false }], keys := [(0, { st := .valid }), (5, { st := .revoking })] }) with
      parts := [(1, p)], revokes := [{ id := 61, part := 1, key := 5, record := some (0x2000, 0, 0), recs := 1, items := 2, lines := 3 }] }
    (s.ctx 0).st = .ready ∧ (s.ctx 0).sent = none ∧ s.unresolved 0 = false ∧ ctxNum 0 < 14 ∧ (s.ctx 0).preq = true ∧ (s.ctx 0).preqClk + (s.ctx 0).pdl.toNat ≤ s.clk ∧
    (s.ctx 0).saving = none ∧ s.canSave 0 = true ∧ (s.unsend 0).midway 0 = false ∧ (s.ctx 0).task.stop = false ∧ (s.core 0).retired = false ∧ (savingSt.ctx 13).saving.isSome = true ∧
    ((s.field 0).kills.find? fun x => x.id == 62).map (·.begun) = some false ∧ ((s.field 0).kills.find? fun x => x.id == 60) = some x ∧ (let u := s.withdraw 1 12 (some 16) []; u.killDone x = true ∧ okIs (writeRecord 0 0 0x2000 60 [0, 0, 0, 0] u.ns u) (fun _ _ => true) = true) ∧
    (s.revokes.find? fun r => r.id == 61 && r.part == 1).isSome = true ∧ SMap.find? s.parts 1 = some p ∧ s.revokeDone p = true ∧
    okIs (writeRecord 0 0 0x2000 61 [1, 2, 3, 0] s.ns s) (fun _ _ => true) = true ∧ ((s.field 0).slot 5).st = .revoking) := by decide +kernel

theorem test_core_failure : nextIs (exec (.coreFailure 0) (mach (run []))) (fun t => (t.ctx 0).st == .free && (t.core 0).retired &&
    (t.cluster 0).wear == .retired && (t.field 0).log.length == 2) = true := by decide +kernel

/-! ## Slagan -/

/-- SlaganSteps: the bounds of module numbers, the eighth partition, the whole allowance of the module, keys and clusters. -/
theorem witness_SlaganSteps : (let p : Part := { fx0 := 0, fx1 := 0, fy0 := 0, fy1 := 0, fields := [0], allow := 3, used := 0, commit := 0, window := 4, eovr := 0 }
    let s := { State.reset with parts := (List.range 7).map fun i => (i, { p with fields := [i] }) }
    s.stopped = 0 ∧ (1 : BitVec 16) ≠ 0 ∧ (0xFFFE : BitVec 16) ≠ 0xFFFF ∧ s.partOk 7 7 0 1 0x8080 = true ∧ ((List.range 8).find? fun n => (SMap.find? s.parts n).isNone) = some 7 ∧
    (SMap.find? s.parts 6).isSome = true ∧ ((SMap.put s.parts 6 { p with allow := 16000 - 18 }).map fun x => x.2.allow).sum = 16000 ∧ s.marginOk 0x0041 = true ∧ s.quiet 0x0041 = true ∧ (mach (run [])).quiet 1 = false ∧ p.begun = false ∧ (s.core (supervisor 6)).retired = false ∧ ((mach {}).field 0).inReset = false ∧
    s.mayCommand (.mailbox 6) 6 = true ∧ s.mayCommand .ethernet 6 = true ∧ s.mayCommand (.mailbox 6) 5 = false ∧ (SMap.get (s.field 6).keys 255 {}).st ≠ .valid ∧
    (frameSt [] []).keyValid p 5 = true ∧ s.partOf 6 = some 6 ∧ (95 : Int) ≤ 95 ∧ (100 : Int) < 101 ∧ 650 ≤ (s.field 15).mhz) := by decide +kernel

/-- The first KEY_LOAD of a partition of one field starts its kernel in context 15 of the supervisor; heat above 100 °C takes 50 MHz. -/
theorem test_slagan : (nextIs (exec (.partCreate .ethernet 0 0 0 0 1 0xFFFF) { State.reset with kernelPc := 0x8000 }) fun t =>
      t.readyList.isEmpty && (t.field 0).inReset == false && t.out == [.slagan .ethernet .done [0]] &&
        nextIs (exec (.keyLoad .ethernet 0 0 1 2 3) t) fun u => u.readyList == [15] && (u.ctx 15).pc == 0x8000) = true ∧
    (nextIs (exec (.remargin .ethernet 1 0xFFFE [(39, 0)]) State.reset) fun t => (t.cluster 39).wear == .out && t.out == [.slagan .ethernet .done [39]] &&
      (t.field 0).inReset && t.slog.length == 2) = true ∧
    (nextIs (exec (.partCreate .ethernet 0 0 1 1 0x100 0xFFFF) State.reset) fun t => t.out == [.slagan .ethernet .rejected []]) = true ∧
    (nextIs (exec (.thermalStep 0 101) State.reset) fun t => (t.field 0).mhz == 800 && (t.field 0).hot) = true ∧
    (nextIs (exec (.keyLoad (.mailbox 3) 1 0 1 2 3) (mach {})) fun t => t.out == [.slagan (.mailbox 3) .denied []]) = true := by decide +kernel

/-! ## Agents: the rim -/

/-- A tree at 0x80000 for ASID 0: a page of 64 MiB at 0 on frame 0x4000000, one of 64 KiB at 0x4000000 on 0x5000000; a migration
record at 0x1000 that moves the second to 0x6000000. -/
def ptMem : Mem := ([(0x80000, 0x4001), (0x4000, 0x8001), (0x8000, 0xC001), (0xC000, 0x400000F), (0xC008, 0x10001), (0x10000, 0x500000F),
  (0x1000, 2 ^ 32), (0x1008, 0x6000000), (0x1020, 0x400)] : List (Nat × Nat)).foldl (fun (m : Mem) (x : Nat × Nat) => Mem.writeBytes m x.1 (natBytes x.2 8)) []

def ptField (rs : List RReq) : Field := { inReset := false, keys := [(0, { st := .valid })], mem := ptMem, sys := [(0x960, 0x80001)], rreqs := rs }
def ptEnt : XEnt := { vpage := 0, size := .m64, asid := 0, g := false, pa := 0x4000000, key := 0, i := false, rd := true, wr := true }
def ptMig (frozen : Bool) : Mig :=
  { record := 0x1000, src := 0x4000000, dst := 0x8000000, size := .m2, key := 0, i := false, maps := [(0, 0)], limit := 16, used := 1, start := 0, todo := [0], dirty := [], frozen := frozen, cword := 0, cval := 0 }
def rq (id : Nat) (k : RKind) (st : RStage := .new) : RReq := { id := id, kind := k, va := 0x3FFFFC0, asid := 0, core := some 0, cx := some 0, stage := st }

/-- RimRequestSteps: a request of each way, on the last line of the page. -/
theorem witness_RimRequestSteps : (let r := rq 40 .fill
    let s := mach {} {} {} { ptField [r] with migs := [(7, { ptMig true with maps := [(0, 0x3E0)] })] }
    s.rreq? 0 40 = some r ∧ (s.field 0).behind r = false ∧ (s.field 0).frozenFor 0 r.page = some 7) ∧
  (let r := rq 40 .fill
    let s := mach {} {} {} (ptField [r])
    (s.field 0).frozenFor 0 r.page = none ∧ (s.field 0).translate 0 r.va = none ∧ (s.field 0).walks.contains (r.page, 0) = false ∧ (∀ x ∈ (s.field 0).rreqs, x.stage ≠ .wait) ∧
    (s.field 0).rreqs.length < 1024 ∧ r.stage.atRim = true) ∧
  (let r := rq 40 .fill
    let s := mach {} {} {} (ptField [rq 41 .fill .walk, r])
    (s.field 0).walks.contains (r.page, 0) = true) ∧
  (let r := rq 40 .copy
    let s := mach {} {} {} { ptField [r] with xlat := [ptEnt] }
    (s.field 0).translate 0 r.va = some ptEnt ∧ (s.field 0).unlisted 0 r.page (ptEnt.paOf r.va) = none ∧ ptEnt.paOf r.va = 0x7FFFFC0 ∧
    (s.claimFrame 0 (0x7FFFFC0 / 65536) r.page 0 ptEnt).isSome = true ∧ (∀ y ∈ (s.field 0).rreqs, y.stage ≠ .held (0x7FFFFC0 / 65536)) ∧
    (s.field 0).room (lineKey 0 r.va) = true) ∧
  (let r := rq 40 .fill .walk
    let s := mach {} {} {} { ptField [r] with sys := [(0x960, 0)] }
    ((s.noteWalk 0 0 r.va).field 0).frozenFor 0 r.page = none ∧
    (match (s.noteWalk 0 0 r.va).walk 0 0 r.va r.kind.plbFill with
      | .missing .. => true
      | _ => false) = true) ∧
  (let r := rq 40 .fetch .walk
    let s := mach {} {} {} (ptField [r])
    ((s.field 0).rreqs.filter fun x => x.stage = .walk ∧ x.asid = r.asid ∧ x.page = r.page) = [r] ∧
    s.walk 0 0 r.va r.kind.plbFill = .leaf { vpage := 0, size := .m64, pa := 0x4000000, key := 0, e := 0x400000F, at_ := 0xC000, ptec := false }) ∧
  (let s := { mach {} {} {} { ptField [rq 40 .fill (.mem 0x1000 0 false)] with faultMsgs := [(0, List.replicate 32 0)] } with
      cores := [(0, { ports := [(31, { direct := false, policy := 0, limit := 1, prio := 0, cls := 0, strict := false, extn := false, asid := 0, handler := 0 })] })] };
    (s.toService 0 31 (List.replicate 24 0 ++ natBytes ((s.field 0).parkedIn 0).length 8)).isSome = true) := by decide +kernel

/-- A walk fills the PLB and sets A in the leaf; a fill reads the frame. -/
theorem test_walk : (nextIs (exec (.pageWalkDone 0 40) { mach {} {} {} (ptField [rq 40 .fetch .walk]) with cores := [] }) fun t =>
      (t.core 0).plb.map (fun e => (e.vpage, e.rd, e.wr, e.ex)) == [(0, true, true, false)] && t.readEntry 0 0xC000 == 0x400020F) = true ∧
    (nextIs (exec (.hbmReadComplete 0 40 .none) (mach {} {} {} (ptField [rq 40 .fill (.mem 0x8000 0 false)]))) fun t =>
      (t.hline 0 (0x3FFFFC0 / 64)).present && (t.hline 0 (0x3FFFFC0 / 64)).data == 0xC001) = true := by decide +kernel

/-- InvalidationAndParkSteps: each scope, a park group of one request, and a task that has waited 3 µs. -/
theorem witness_InvalidationAndParkSteps : (let p : Park := { vpage := 0, asid := 0, va := 0, cause := 1, kind := 0, level := 3, ns := 0 }
    let s := freeFrame <| mach (run []) {} {} { (ptField [{ rq 40 .fetch (.parked 0xFFF) with ns := 4997000 }]).setReg 0x963 3 with parks := [(0xFFF, p)], inval := some 0 }
    bits (0 : Word) 62 2 = 0 ∧ bits (0x4000000000000000 : Word) 62 2 = 1 ∧ bits (0x8000000000000000 : Word) 62 2 = 2 ∧ bits (0xC000000000000000 : Word) 62 2 = 3 ∧
    (s.field 0).migWait 0 = false ∧ ((s.field 0).invFrames 0).all (s.purgeable 0) = true ∧ (s.field 0).invQueue = [] ∧ (s.field 0).invQueue.length < 16 ∧ (mach {}).fields.all (fun x => x.2.inval.isNone) = true ∧
    (0xFFF : Word).getLsbD 63 = false ∧ (0x8000000000000FFF : Word).getLsbD 63 = true ∧ SMap.find? (s.field 0).parks (bits 0xFFF 0 12) = some p ∧ ((s.field 0).parkedIn 0xFFF).length = 1 ∧
    (match s.walk 0 0 0 ((s.field 0).parkedIn 0xFFF |>.any fun r => r.kind.plbFill) with
      | .leaf _ => true
      | _ => false) = true ∧
    s.parkedSince 0 = some 4997000 ∧ bits ((s.field 0).reg 0x963) 0 16 = 3 ∧ 4997000 + 3 * 1000 ≤ s.ns ∧ ctxNum 0 < 14 ∧ (s.ctx 0).issues = true ∧ s.canSave 0 = true ∧ (s.ctx 0).task.stop = false ∧
    nextIs (exec (.parkTimeoutSave 0) s) (fun t => (t.ctx 0).saving.map (·.reason) == some 2) = true) := by decide +kernel

theorem test_invalidation : nextIs (exec (.xinvPage 0 0) (mach {} {} {} { inReset := false, xlat := [ptEnt, { ptEnt with vpage := 1024 }] })) (fun t =>
    (t.field 0).xlat.map (·.vpage) == [1024] && (t.core 0).plb == [] && (t.field 0).inval == some 0) = true := by decide +kernel

/-- MigrationAndStackSteps: a record that passes into the eighth slot, a round, a freeze, the last line of a stack, a link of one
module left, a window at its limits and a codebook entry. -/
theorem witness_MigrationAndStackSteps : (let s := mach {} {} {} { ptField [] with migs := (List.range 7).map fun i => (i, { ptMig (i == 6) with src := 0x9000000 }) }
    ((List.range 8).find? fun n => (SMap.find? (s.field 0).migs n).isNone) = some 7 ∧
    (match s.migCheck 0 (bits (0x1000 : Word) 6 46 * 64) with
      | .ok m => m.src == 0x5000000 && m.dst == 0x6000000 && m.limit == 16
      | _ => false) = true ∧
    SMap.find? (s.field 0).migs 5 = some { ptMig false with src := 0x9000000 } ∧ SMap.find? (s.field 0).migs 6 = some { ptMig true with src := 0x9000000 } ∧ (ptMig true).start + 2 * (ptMig true).todo.length ≤ s.clk) ∧
    (let s := mach {} {} {} { (((ptField []).setReg 0x940 0x3FF).setReg 0x942 1).setReg (0x901 + 4 * 15) 1 with scrub := (Vector.replicate 2 0).set 1 (stackLines - 1) };
      bits ((s.field 0).reg 0x942) 0 16 ≠ 0 ∧ (s.field 0).scrub.toList.getD 1 0 + 1 = stackLines ∧ (s.field 0).ucie.toList.getD 1 0 ≠ 0 ∧
      ((s.field 0).win 15).en = false ∧ (0x8000000000000000 : Word).getLsbD 63 = true ∧ (s.field 0).winCheck 15 (0x8000000000000000 &&& 0x8000000000000F37#64) = none ∧
      (s.field 0).winCheck 14 (0x8000000000000000 &&& 0x8000000000000F37#64) = some 2 ∧ (s.field 0).inReset = false ∧
      (s.field 0).cbLocked (bits ((s.field 0).reg 0x940) 8 2) = false) := by decide +kernel

/-! ## Agents: homes, clusters, registers, hosts -/

/-- A request of cluster 39 for line 1, whose home copy is present, or which cluster 0 holds. -/
def hq (k : HReqKind) (cx : Option Nat := none) : HReq := { id := 70, kind := k, cl := 39, core := 312, cx := cx, line := 1, placed := true }
def homeSt (r : HReq) (d : DirSt := .i) : State :=
  mach {} {} { l2 := [(1, line)] } { inReset := false, hreqs := [r], home := [(1, { data := 0xAB, present := true, dir := d })] }

/-- HomeSteps: each request, of a line that no cluster and that another cluster holds. -/
theorem witness_HomeSteps : (let s := homeSt (hq .rds) (.m 0)
      s.hreq? 0 70 = some (hq .rds) ∧ (s.field 0).firstAt (hq .rds) = true ∧ (s.field 0).failOf 1 (.work 70 false) = none ∧ s.heldFor 0 1 (.work 70 false) = false ∧ s.holdsNow 0 39 1 = false ∧
      okIs (homeRds 0 39 1 s) (fun x t => x.data == line.data && (t.hline 0 1).dir == .o 0 [39]) = true) ∧
    okIs (homeRds 0 39 1 (homeSt (hq .rds))) (fun x t => x.data == 0xAB && (t.hline 0 1).dir == .e 39) = true ∧
    okIs (homeGrant 0 39 1 (homeSt (hq .own) (.m 0))) (fun _ t => (t.hline 0 1).dir == .m 39 && (t.l2 0 1).isNone) = true ∧
    (let s := homeSt (hq .merge) (.m 39);
      inList 39 (s.hline 0 1).dir.holders = true ∧ okIs (homeData 0 1 (s.triggerTile 0 1 (some 39))) (fun h _ => h.data == 0xAB) = true) ∧
    (let s := homeSt (hq (.atomic .add false 5 0 false true) (some 5000));
      s.tileNear 0 39 1 = false ∧ okIs (homeCollect 0 1 (some 39) s) (fun _ t => okIs (homeData 0 1 t) fun h _ => !h.poison && h.present) = true) ∧
    (let s := (homeSt (hq (.atomic .add false 5 0 false false) (some 5000))).modField 0 fun f => { f with home := [] };
      okIs (homeCollect 0 1 (some 39) s) (fun _ t => decide ((t.hline 0 1).present = false ∧ (t.hline 0 1).dirty = 0 ∧ (t.hline 0 1).poison = false)) = true ∧
      (s.field 0).firstAt (hq (.atomic .add false 5 0 false false) (some 5000)) = true) := by decide +kernel

theorem test_home_atomic : nextIs (exec (.homeAtomic 0 70) { homeSt (hq (.atomic .add false 5 0 false true) (some 0)) with
    ctxs := [(0, { st := .waiting .memory, sent := some { id := 70 } })] }) (fun t =>
      ((t.ctx 0).sent.bind (·.reply)) == some (0xAB, 0) && (t.hline 0 1).data == 0xB0 && (t.ctx 0).st == .ready) = true := by decide +kernel

/-- ClusterSteps: fills of a line that is absent and present, a merging fill, a tile's push, a recall, an eviction, both forms of
a store's stamp, and the last word of a core memory. -/
theorem witness_ClusterSteps : (let x : L2Line := { line with st := .s }
    let e : SqEnt := { cx := 0, tid := 7, va := 0x78, asid := 0, data := 0, be := 0xFF00000000000000 };
    let s := mach {} { sq := [e], l1i := [(1, { data := 0, base := 0, size := .m64 })], l1d := [(1, { data := 0, lts := 0 })] } { l2 := [(1, line)], fills := [(1, x), (2, x)], merges := [(1, 0, false)], pushes := [(3, 5, false)] }
      { inReset := false, home := [(1, { dir := .m 0 })] }
    (List.find? (fun (y : Nat × L2Line) => sliceOf y.1 == sliceOf 1 && (s.cluster 0).room y.1) (s.cluster 0).fills) = some (1, x) ∧
    (List.find? (fun (y : Nat × L2Line) => sliceOf y.1 == sliceOf 2 && (s.cluster 0).room y.1) (s.cluster 0).fills) = some (2, x) ∧
    s.l2 0 1 = some line ∧ s.l2 0 2 = none ∧ s.l2 0 3 = none ∧ ((s.cluster 0).merges.find? fun y => sliceOf y.1 == sliceOf 1) = some (1, 0, false) ∧
    ((s.cluster 0).pushes.find? fun y => sliceOf y.1 == sliceOf 3) = some (3, 5, false) ∧ (s.cluster 0).room 2 = true ∧ (s.cluster 0).room 3 = true ∧ (s.cluster 0).incoming 4 = false ∧ (∀ y ∈ (s.cluster 0).pushes, y.1 ≠ 4) ∧
    inList 0 (s.hline 0 1).dir.holders = true ∧ (s.hline 0 1).tile = none ∧ s.recallable 0 1 = true ∧ line.hold = false ∧ line.marks = [] ∧
    (SMap.find? (s.core 0).l1i 1).isSome = true ∧ (SMap.find? (s.core 0).l1d 1).isSome = true ∧ 24575 < 24576) ∧
    (let e : SqEnt := { cx := 0, tid := 7, va := 0x78, asid := 0, data := 0, be := 0xFF00000000000000 };
      let s := mach {} (Core.setReg { sq := [e], ptsOff := 10 } 0x9A4 0) { l2 := [(1, { line with rts := 5000009 })] };
      (s.core 0).sq[0]? = some e ∧ sqMayGo (s.core 0).sq 0 e = true ∧ clusterOf 0 = 0 ∧ lineKey e.asid e.va = 1 ∧ (s.cluster 0).incoming 1 = false ∧ (s.l2 0 1).isSome = true ∧ line.st = .m ∧
      (wordsTouched e.be &&& ~~~(wordsCovered e.be) &&& ~~~line.valid) = 0 ∧ e.stamp = none ∧ e.rel = none ∧ 5000010 = max (s.pts 0) (5000009 + 1)) := by decide +kernel

theorem test_store_performs : (let e : SqEnt := { cx := 0, tid := 7, va := 0x78, asid := 0, data := 0, be := 0xFF00000000000000 }
    nextIs (exec (.l2StorePerform 0 0) (mach {} (Core.setReg { sq := [e] } 0x9A4 0) { l2 := [(1, { line with rts := 5000009 })] })) fun t =>
      (t.core 0).sq == [] && (t.l2 0 1).map (fun x => (x.wts, x.dirty)) == some (5000010, 0xC000) && t.pts 0 == 5000010) = true := by decide +kernel

/-- RegisterSteps: a register of each kind in the last context of the module, regions at each bound, a waiting LDF, a WAITA, and
the largest shared memory. -/
theorem witness_RegisterSteps : (let s := mach { st := .waiting .word } { fe := [(1, 0x10, 2, false)] }
    numCtxs - 1 < numCtxs ∧ ctxReg 0x0C9 = true ∧ ctxReg 0x9A4 = false ∧ coreReg 0x9A4 = true ∧ ctxReg 0x040 = false ∧ coreReg 0x040 = false ∧ plainReg 0x040 = true ∧
    (s.field 0).ignores 0x040 7 = false ∧ s.hostFun 0 = some 0 ∧ (s.field 0).asking 0 = false ∧ within 0xA00 0xA7F 0xA04 = true ∧ fieldReg 0xA04 = true ∧ okIs (writeField 0 0xA04 9 s) (fun _ _ => true) = true ∧
    (s.core 0).fe = [(1, 0x10, 2, false)] ∧ 0x10 ≤ 0x44 / 4 ∧ 0x44 / 4 < 0x10 + 2 ∧ (s.ctx 0).st = .waiting .word ∧ bits (8 : Word) 0 4 ≤ 8 ∧ bits (8 : Word) 0 4 ≠ bits ((s.field 0).reg 0x980) 0 4 ∧
    (let t := ((s.field 0).home.map (·.1)).foldl (fun s l => s.homeDrop 0 l) s; (t.field 0).rreqs = [] ∧ t.sharedOpen 0 = false) ∧
    (0xE : Word).getLsbD 2 = true ∧ bits (0x8000002001000000 : Word) 32 12 = 32 ∧ bits (0x8000001F01000000 : Word) 32 12 < 32 ∧ bits (0x8000060001000000 : Word) 32 12 = 1536 ∧
    layBase 0x8000060001000000 + layLen 0x8000060001000000 = 196608 ∧ 196608 < layBase 0x8000060001000080 + layLen 0x8000060001000080 ∧ 1536 < bits (0x8000060101000000 : Word) 32 12) := by decide +kernel

theorem test_cmlay : (nextIs (exec (.cmlayWrite 0 3 0x8000060001000000) (mach {})) fun t => (t.core 0).reg 0x9A3 == 0x8000060001000000) = true ∧
    (nextIs (exec (.cmlayWrite 0 3 0x8000060001000080) (mach {})) fun t => (t.core 0).reg 0x9A3 == 0x4000000000000000) = true := by decide +kernel

/-- A partition's aperture 3 of 16 pages at 0, whose line 1 is cached, held by the host, or not. -/
def hostSt (hf : HostF) (sn : List (Nat × Snoop) := []) : State :=
  mach {} {} {} { agField with
    home := [(1, { data := 0xCD, present := true, h := hf })], snoops := sn
    sys := [(0x960, 1), (bankReg 0xA03 3, BitVec.ofNat 64 (2 ^ 63 + 2 ^ 62 + 16)), (0xA04, 5)] }

/-- HostAndGatewaySteps: the last offset and the first of an aperture, a read, a write, a snoop that is open and one that times out. -/
theorem witness_HostSteps : (let s := hostSt .none
      s.hostFun 0 = some 0 ∧ (s.field 0).contained = false ∧ (s.field 0).hostVa (3 * 2 ^ 40 + 0x7F) = some (0x40, 0, true) ∧ (s.field 0).hostVa (3 * 2 ^ 40 + 0xFFFFF) = some (0xFFFC0, 0, true) ∧
      (s.field 0).hostVa (3 * 2 ^ 40 + 0x100000) = none ∧ okIs (hostXlat 0 0 0x40 true s) (fun _ t => okIs (hostRd 0 1 .a true t) fun x _ => x == (0xCD, false)) = true ∧
      okIs (hostXlat 0 0 0x40 false s) (fun _ t => okIs (hostRd 0 1 .noop false t) fun x _ => x == (0, false)) = true ∧
      okIs (hostWr 0 1 5 3 s) (fun _ t => (t.hline 0 1).data == 5) = true) ∧
    (let x : Snoop := { inv := true, ns := 4995000 };
      let s := hostSt .hx [(1, x)];
      SMap.find? (s.field 0).snoops 1 = some x ∧ x.done = false ∧ BiRsp.after .i true = some .none ∧ BiRsp.after .s false = some .hs ∧ x.ns + bits ((s.field 0).reg 0xA04) 0 16 * 1000 ≤ s.ns) ∧
    (let s := { hostSt .none with out := [.cxlRead 0 90 0x40 8], ctxs := [(0, { st := .waiting .memory, sent := some { id := 90 } })] };
      (s.ctxs.map (·.1)).Nodup ∧ nextIs (exec (.cxlCacheResponse 0 90 0x77) s) (fun t => ((t.ctx 0).sent.bind (·.reply)) == some (0x77, 0)) = true) := by decide +kernel

/-- HostAndGatewaySteps: a request that names export 255 of generation 2, admitted at its last byte; a load, a store and an atomic. -/
theorem witness_GatewaySteps : (let p (op : PeerOp) (at_ : Option (Nat × BitVec 16)) : Peer := { id := 95, srcField := 1, cx := none, handle := 0x020000FF, off := 0xFFF8, op := op, at_ := at_ }
    let two : Part := { fx0 := 0, fx1 := 1, fy0 := 0, fy1 := 0, fields := [0, 1], allow := 0, used := 0, commit := 0, window := 5, eovr := 0 }
    let s (q : Peer) : State := { mach {} {} {} { agField with peers := [q], sys := [(0x960, 1), (bankReg 0xA0A 255, BitVec.ofNat 64 (2 ^ 63 + 2 ^ 62 + 2 ^ 61 + 2 * 2 ^ 53 + 1))] } with parts := [(1, two)] };
    (s (p (.load 8) none)).peer? 0 95 = some (p (.load 8) none) ∧
    okIs (exportAt 0 (some 1) 0x020000FF 0xFFF8 8 0 true false (s (p (.load 8) none))) (fun x _ => x == (0xFFF8, 0)) = true ∧
    ((s (p (.load 8) (some (0x4C0, 0)))).field 0).peerFirst (p (.load 8) (some (0x4C0, 0))) = true ∧
    okIs (gateRead 0 0 0x4C0 8 (s (p (.load 8) (some (0x4C0, 0))))) (fun bs _ => bytesNat bs == 1) = true ∧
    okIs ((gateWrite 0 0 0x4C0 [1, 2]) (s (p (.store [1, 2]) (some (0x4C0, 0))))) (fun _ t => (t.hline 0 0x13).data.extractLsb' 0 16 == 0x201) = true ∧
    okIs ((gateWrite 0 0 0x4C0 [1, 2, 3, 4, 5, 6, 7, 8] 0 ((2 : BitVec 8).setWidth 64 <<< (0x4C0 % 64))) (s (p (.storeWord 2 [1, 2, 3, 4, 5, 6, 7, 8]) (some (0x4C0, 0))))) (fun _ t =>
      (t.hline 0 0x13).data.extractLsb' 0 16 == 0x201) = true ∧
    okIs (gateAtomic 0 0 0x4C0 true .add 8 5 0 (s (p (.atomic .add true 5 0) (some (0x4C0, 0))))) (fun x t => x == (1, 0) && (t.hline 0 0x13).data.extractLsb' 0 16 == 6) = true) := by decide +kernel

/-! ## Agents: copy engines, items, exports, the optical port group -/

/-- A record at 0x400 of core 0's memory that copies 4 bytes from 0x100 to 0x200, with a completion word at 0x300. -/
def recBytes : List Byte :=
  natBytes (2 ^ 31 + 2 ^ 18 + 2 ^ 13) 4 ++ natBytes 0 12 ++ natBytes (localBase + 0x300) 8 ++ natBytes 77 8 ++ natBytes 4 4 ++ List.replicate 32 0 ++ natBytes 1 8 ++
    List.replicate 64 0 ++ natBytes 1 8 ++ List.replicate 64 0 ++ natBytes (localBase + 0x100) 8 ++ natBytes (localBase + 0x200) 8 ++ List.replicate 28 0
def chEnt : ChanEnt := { addr := localBase + 0x400, chain := false, core := 0, cx := 0, tid := 7, item := 30, asid := 0, lvl := false, extn := false }
def chRec (st : RecSt) (ord : Nat := 0) (code : BitVec 8 := 0) : RunRec := { id := 80, ent := chEnt, addr := localBase + 0x400, bytes := recBytes, st := st, ordinal := ord, code := code }
def copySt (ch : Channel) (f : Field := { inReset := false }) : State :=
  mach (run []) { cmem := [(0x100, [1, 2, 3, 4]), (0x400, recBytes)].foldl (fun (m : Mem) (x : Nat × List Byte) => Mem.writeBytes m x.1 x.2) []
                  items := [{ id := 30, cx := 0, tid := 7, gd := 9, asid := 0, lvl := false, extn := false, sc := .fld, kind := .cpy 3 }] }
    { chans := (Vector.replicate 4 {}).set 3 ch } f

theorem test_record_fields : (CopyRec.of recBytes).bad (copySt {}) 0 = false ∧ (CopyRec.of recBytes).total = 4 ∧ (CopyRec.of recBytes).own = true ∧ recBytes.length = 256 := by decide +kernel

/-- CopyEngineSteps: channel 3 takes a record, moves its last element and writes it, ends it, reads a chain's next record, and goes on after a halt;
a contribution to shared memory; a copy-error message. -/
theorem witness_CopyEngineSteps :
    (let s := copySt { queue := [chEnt] };
      (s.chanOf 0 3).cur = none ∧ (s.chanOf 0 3).queue = [chEnt] ∧ chEnt.chain = false ∧ ({ chEnt with chain := true } : ChanEnt).chain = true ∧
      okIs (startRecord 0 3 (newRec s.fresh chEnt chEnt.addr .start) (s.takeEntry 0 3)) (fun r _ => (r.map (·.st)) == some .move) = true) ∧
    (let s := copySt { cur := some (chRec .next) };
      (s.chanOf 0 3).cur = some (chRec .next) ∧ okIs (nextRecord (chRec .next) s) (fun r _ => (r.map (·.st)) == some .start) = true) ∧
    (let s := copySt { cur := some (chRec .move 3) };
      okIs (elemStep 0 3 (chRec .move 3) s) (fun r t => r.any fun x => x.ahead == 1 && okIs (elemStep 0 3 x t) fun y u =>
        (y.map (·.ordinal)) == some 4 && Mem.read (u.core 0).cmem 0x203 == 4) = true) ∧
    okIs (finishRecord 0 3 (chRec .finish 4 codeDone) (copySt { cur := some (chRec .finish 4 codeDone) })) (fun _ t =>
      Mem.read (t.core 0).cmem 0x300 == 77 && Mem.readBytes (t.core 0).cmem 0x404 4 == [0, 0, 0, 1] && Mem.read (t.core 0).cmem 0x403 == 0) = true ∧
    (let x : Contrib := { id := 9, cl := 0, ch := 3, rid := 80, ordinal := 0, va := 8, asid := none, rop := 0, n := 4, val := 5 };
      let s := copySt { cur := some (chRec (.halted 0x13 0x40 1)) } { inReset := false, contribs := [x], copyMsgs := [(0, 3, List.replicate 32 0)] };
      ((s.field 0).contribs.find? fun y => y.id == x.id) = some x ∧ okIs (reduceAt 0 x s) (fun fl t => fl == 0 && Mem.read (t.field 0).shm 8 == 5) = true ∧
      bits (3 : Word) 8 6 < 40 ∧ bits (3 : Word) 0 2 = 3 ∧ (3 : Word).getLsbD 63 = false ∧ (0x8000000000000003 : Word).getLsbD 63 = true ∧
      (State.toService { s with cores := [(0, { ports := [(30, { direct := false, policy := 0, limit := 1, prio := 0, cls := 0, strict := false, extn := false, asid := 0, handler := 0 })] })] } 0 30
        (List.replicate 32 0)).isSome = true) := by decide +kernel

theorem test_record_completes : nextIs (exec (.recordComplete 0 3) (copySt { cur := some (chRec .finish 4 codeDone) })) (fun t =>
    (t.chanOf 0 3).cur == none && (t.core 0).items.map (·.status) == [some 0x30001000000]) = true := by decide +kernel

/-- An item of each kind on core 7. -/
def itemSt (k : ItemKind) (st : Option Word := none) (at_ : Nat := 0) : State × Item :=
  let i : Item := { id := 40, cx := 112, tid := 9, gd := 63, asid := 0, lvl := true, extn := false, sc := .fld, kind := k, status := st, at_ := at_ }
  ({ mach {} with cores := [(7, { items := [i], mq := [{ ins := .mzero h 3, cx := 112, tid := 9, seq := 0, wa := 0, wb := 0, mscl := {}, extn := false, asid := 0, lvl := true, eid := 5 }], cmem := [(0x100, 0x5A)] })]
                  ctxs := [(112, { st := .ready, task := { tid := 9 }, pend := [(63, 40)] })] }, i)

/-- ItemSteps: a status for g63, a reply of a tile form, of a remote atomic, a broadcast, a put that moves its last word, one that
ends, a remote atomic on shared memory, and the last core's matrix instruction. -/
theorem witness_ItemSteps :
    (let x := itemSt (.cpy 3) (some 5);
      x.1.item? 7 40 = some x.2 ∧ x.2.status.isSome = true ∧ x.1.ctxOfTask 7 9 = some 112 ∧ (x.2.gd, 40) ∈ (x.1.ctx 112).pend ∧ x.2.gd < 64) ∧
    (let x := itemSt (.tile 0 [1]) (some 5); x.1.item? 7 40 = some x.2 ∧ (∀ p ∈ (x.1.cluster 0).pushes, p.1 ∉ [1])) ∧
    (let x := itemSt (.ramo 0x40 .add true 1 0 0 3 true false) (some 0); x.1.item? 7 40 = some x.2 ∧ x.1.ctxOfTask 7 x.2.tid = some 112) ∧
    (let x := itemSt (.mbcast 0x100 true 1 [5]) none; x.1.item? 7 40 = some x.2 ∧ x.2.status = none ∧ x.1.busTaken 7 40 true = false) ∧
    (let x := itemSt (.put (localBase + 0x200) 0 false false 0 (some (localBase + 0x100)) 8 []);
      x.1.itemIn 0 40 = some (7, x.2) ∧ x.2.killed = false ∧ x.2.bad = 0 ∧ okIs (putStep 7 x.2 x.1) (fun j t => j.at_ == 1 && Mem.read (t.core 7).cmem 0x200 == 0x5A) = true) ∧
    (let x := itemSt (.put (localBase + 0x200) 0 false false 0 (some (localBase + 0x100)) 8 []) none 1; x.2.isPut = true ∧ x.2.unacked = 0 ∧ x.2.landed = true ∧ (x.1.field 0).hostAwaits 40 = false) ∧
    (let x := itemSt (.ramo sharedBase .add true 1 0 0 3 true false); let s := x.1.modField 0 fun f => f.setReg 0x980 1;
      x.2.away = false ∧ okIs (ramoRun 7 x.2 sharedBase .add true 1 0 3 true s) (fun j t => j.status == some 0 && Mem.read (t.field 0).shm 0 == 1) = true) ∧
    (let x := itemSt (.cpy 3);
      x.1.mxCore 0 = some 7 ∧ (match (x.1.core (clusterCore 0 + 7)).mq with
        | e :: _ => okIs (tileStep 0 e x.1) fun r t => r == .done && !(t.field 0).hostAwaits e.eid
        | [] => false) = true) := by decide +kernel

theorem test_status_writeback : nextIs (exec (.statusWriteback 7 40) (itemSt (.cpy 3) (some 5)).1) (fun t =>
    (t.ctx 112).rg 63 == 5 && (t.ctx 112).pend == [] && (t.core 7).items == []) = true := by decide +kernel

/-- ExportImportSteps: the last entry and the last slot; a request between fields of a partition; one that has waited 1 ms. -/
def pimSt (i : List Import) (en : Bool) : State :=
  mach {} {} {} { inReset := false, imports := i, sys := [(0xA08, 255), (0xA0C, 1023), (bankReg 0xA0A 255, BitVec.ofNat 64 ((if en then 2 ^ 63 else 0) + 2 ^ 62 + 255 * 2 ^ 53 + 2 ^ 21 + 1)),
    (bankReg 0xA0D 1023, 0xFF0000FF)] }

theorem witness_ExportImportSteps :
    (let s := pimSt [] true; let old := (s.field 0).reg (bankReg 0xA0A 255);
      bits ((s.field 0).reg 0xA08) 0 8 = 255 ∧ old.getLsbD 63 = true ∧ (old &&& 0x7FFFFFFFFFFFFFFF#64).getLsbD 63 = false ∧ (old &&& 0x7FFFFFFFFFFFFFFF#64) &&& hexMask = old &&& hexMask ∧ (s.field 0).peers = []) ∧
    (((pimSt [] false).field 0).reg (bankReg 0xA0A 255)).getLsbD 63 = false ∧
    (let s := pimSt [] true;
      bits ((s.field 0).reg 0xA0C) 0 10 = 1023 ∧ (s.field 0).imports = [] ∧ ((s.field 0).reg (bankReg 0xA0E 1023)).getLsbD 63 = false ∧ bits ((s.field 0).reg (bankReg 0xA0D 1023)) 48 16 = 0 ∧
      bits ((s.field 0).reg (bankReg 0xA0D 1023)) 32 12 = 0) ∧
    (let s := pimSt [{ id := 3, slot := 1023, ns := 4000000, src := 0xFF0000FF }] true;
      (s.field 0).asking 1023 = true ∧ bits (s.pimSrc 0 1023) 48 16 = 0 ∧ bits (s.pimSrc 0 1023) 44 4 = 0 ∧ bits (s.pimSrc 0 1023) 0 32 = 0xFF0000FF ∧ s.exportAnswer 0 0xFF0000FF 0 0 = (0, true, false, 1) ∧
      ((s.field 0).imports.find? fun i => i.slot == 1023 && i.reply.isNone && decide (i.ns + 1000000 ≤ s.ns)).isSome = true) ∧
    (let s := pimSt [{ id := 3, slot := 1023, ns := 0, src := 0xFF0000FF, reply := some (0, true, false, 1) }] true;
      ((s.field 0).imports.find? fun i => i.slot == 1023 && i.reply.isSome).isSome = true) := by decide +kernel

theorem test_import : nextIs (exec (.importReply 0 1023) (pimSt [{ id := 3, slot := 1023, ns := 0, src := 0xFF0000FF, reply := some (0, true, false, 1) }] true)) (fun t =>
    (t.field 0).reg (bankReg 0xA0E 1023) == 0x8080000000000001 && (t.field 0).imports == []) = true := by decide +kernel

/-- Module 1 with one slot of 1 µs and a guard of 100 ns to module 2, running since 4,999,800 ns. -/
def optSlot : Word := BitVec.ofNat 64 (2 ^ 63 + 2 * 2 ^ 47 + 1 * 2 ^ 37 + 1 * 2 ^ 30 + 1)
def optSt (o : Optical) : State :=
  { mach {} {} {} { inReset := false, optical := o, sys := [(0x960, 1), (0xA00, 1), (0xA40, optSlot), (bankReg 0xA0A 255, BitVec.ofNat 64 (2 ^ 63 + 2 ^ 61 + 1))]
                    keys := [(0, { st := .valid })], xlat := [ptEnt], home := [(1, { present := true })] } with locked := true }

/-- OpticalSteps: the shortest slot, a rotation, its window, a flit whose number is next, an acknowledgement, the last fibre and
an offset of −100 ns. -/
theorem witness_OpticalSteps :
    slotBad optSlot 1 = false ∧ slotBad optSlot 2 = true ∧ slotBad 0 1 = true ∧
    (let s := optSt { running := true, rotStart := 5000000 };
      (s.field 0).optical.rotStart + period (s.field 0).optical.table ≤ s.ns ∧ period (s.field 0).slots = 1000 ∧ ((s.field 0).reg 0xA10).getLsbD 63 = false) ∧
    (let s := optSt { running := true, rotStart := 4999800, table := [optSlot] };
      s.locked = true ∧ (s.field 0).window s.ns = some (0, 2, 256) ∧ (s.field 0).rotated s.ns = s.field 0 ∧ (s.field 0).optical.open_ = none ∧ (s.field 0).queueTo 2 = []) ∧
    (let s := optSt { running := true, rotStart := 4999000, table := [optSlot], open_ := some (0, 5) }; (s.field 0).window s.ns = none) ∧
    (let s := optSt { running := true, rotStart := 4999000, table := [optSlot], open_ := some (0, 5) }; let g := (s.field 0).rotated 4999950;
      g.optical.open_ = some (0, 5) ∧ g.window 4999950 = none) ∧
    (let s := optSt {}; let x : Flit := { src := 2, dest := 1, srcField := 3, vc := 1, seq := 0, item := 4, body := .data 0 255 0x40 2 0x201 };
      x.dest = s.modId ∧ Flit.isAck x = false ∧ (s.field 0).inReset = false ∧ SMap.get (s.field 0).optical.recvSeq (recvKey x) 0 = x.seq ∧ (s.field 0).optical.landing = [] ∧ okIs (flitLands 0 x 0 (s.accepted 0 x)) (fun _ t => (t.hline 0 1).data == 0x201) = true ∧
      (s.field 0).optical.fibres.getLsbD 15 = true ∧ s.gm = false ∧ ({ s with stepped := true, locked := false } : State).stepped = true ∧ (BitVec.ofInt 32 (-100)).toInt = -100 ∧ (BitVec.ofInt 32 (-101)).toInt < -100) := by decide +kernel

end Sys2Proof.Tests
end

section
/-! Runs of bytes: what a memory reads after a run of writes, the little-endian value of a run, and that memories in
canonical form are equal when they read the same (R6). -/

namespace Sys2Proof.Machine

/-! ## Runs of writes and reads -/

theorem Mem.read_writeBytes (m : Mem) (a b : Nat) (vs : List Byte) :
    Mem.read (Mem.writeBytes m a vs) b = if a ≤ b ∧ b < a + vs.length then vs.getD (b - a) 0 else Mem.read m b := by
  induction vs generalizing m a with
  | nil =>
    rw [if_neg (by simp only [List.length_nil]; omega)]
    rfl
  | cons v vs ih =>
    simp only [Mem.writeBytes, ih, Mem.read_write, List.length_cons]
    rcases Nat.lt_trichotomy b a with lt | rfl | gt
    · rw [if_neg (by omega), if_neg (by omega), if_neg (by omega)]
    · rw [if_neg (by omega), if_pos rfl, if_pos (by omega), Nat.sub_self, List.getD_cons_zero]
    · obtain ⟨d, rfl⟩ : ∃ d, b = a + 1 + d := ⟨b - (a + 1), by omega⟩
      have skip : a + 1 + d - a = d + 1 := by omega
      rw [Nat.add_sub_cancel_left, skip, List.getD_cons_succ, if_neg (by omega : ¬a + 1 + d = a)]
      exact ite_congr (propext (by omega)) (fun _ => rfl) fun _ => rfl

@[simp] theorem Mem.length_readBytes (m : Mem) (a n : Nat) : (Mem.readBytes m a n).length = n := by
  induction n generalizing a with
  | zero => rfl
  | succ n ih => simp [Mem.readBytes, ih]

theorem Mem.getElem_readBytes (m : Mem) (a n i : Nat) (h : i < (Mem.readBytes m a n).length) :
    (Mem.readBytes m a n)[i] = Mem.read m (a + i) := by
  induction n generalizing a i with
  | zero => simp at h
  | succ n ih =>
    cases i with
    | zero => rfl
    | succ i => simp only [Mem.readBytes, List.getElem_cons_succ, ih]; congr 1; omega

theorem Mem.readBytes_writeBytes (m : Mem) (a : Nat) (vs : List Byte) :
    Mem.readBytes (Mem.writeBytes m a vs) a vs.length = vs := by
  refine List.ext_getElem (by simp) fun i _ inside => ?_
  rw [Mem.getElem_readBytes, Mem.read_writeBytes, if_pos ⟨by omega, by omega⟩, Nat.add_sub_cancel_left,
    List.getD_eq_getElem?_getD, List.getElem?_eq_getElem inside, Option.getD_some]

/-! ## Little-endian values -/

@[simp] theorem length_natBytes (x n : Nat) : (natBytes x n).length = n := by
  induction n generalizing x with
  | zero => rfl
  | succ n ih => simp [natBytes, ih]

theorem natBytes_getD (x n i : Nat) (h : i < n) : (natBytes x n).getD i 0 = BitVec.ofNat 8 (x / 256 ^ i) := by
  induction n generalizing x i with
  | zero => omega
  | succ n ih =>
    cases i with
    | zero => simp [natBytes]
    | succ i => rw [natBytes, List.getD_cons_succ, ih _ _ (by omega), Nat.div_div_eq_div_mul, Nat.pow_succ']

theorem natBytes_add (x m n : Nat) : natBytes x (m + n) = natBytes x m ++ natBytes (x / 256 ^ m) n := by
  induction m generalizing x with
  | zero => simp [natBytes]
  | succ m ih => rw [Nat.succ_add, natBytes, ih, natBytes, List.cons_append, Nat.div_div_eq_div_mul, ← Nat.pow_succ']

theorem bytesNat_natBytes (x n : Nat) : bytesNat (natBytes x n) = x % 256 ^ n := by
  induction n generalizing x with
  | zero => simp [natBytes, bytesNat, Nat.mod_one]
  | succ n ih => simp [Nat.pow_succ', Nat.mod_mul, natBytes, bytesNat, ih]

/-! ## Equal memories are equal data -/

theorem Mem.read_eq_zero_of_above {a b : Nat} {m : Mem} (up : Mem.above a m) (le : b ≤ a) : Mem.read m b = 0 := by
  induction m with
  | nil => rfl
  | cons x t ih =>
    have lt : a < x.1 := up x (List.mem_cons_self ..)
    rw [Mem.read, if_neg (by omega)]
    exact ih fun y mem => up y (List.mem_cons_of_mem _ mem)

theorem Mem.read_cons_self (j : Nat) (w : Byte) (t : Mem) : Mem.read ((j, w) :: t) j = w := if_pos rfl

/-- The first address listed is the lowest that does not read 0, so of two memories that read the same neither lists an
address below the other's first. -/
theorem Mem.head_le_of_read_eq {j k : Nat} {w u : Byte} {t r : Mem} (nz : w ≠ 0) (up : Mem.above k r)
    (same : Mem.read ((j, w) :: t) j = Mem.read ((k, u) :: r) j) : k ≤ j := by
  refine Nat.not_lt.1 fun lt => ?_
  rw [Mem.read_cons_self, Mem.read, if_neg (by omega), Mem.read_eq_zero_of_above up (by omega)] at same
  exact nz same

theorem Mem.eq_of_read_eq (m n : Mem) (hm : Memory.wf m = true) (hn : Memory.wf n = true)
    (same : ∀ a, Mem.read m a = Mem.read n a) : m = n := by
  induction m generalizing n with
  | nil =>
    cases n with
    | nil => rfl
    | cons y r => exact absurd ((Mem.read_cons_self ..).symm.trans (same y.1).symm) (wf_cons.1 hn).1
  | cons x t ih =>
    obtain ⟨j, w⟩ := x
    obtain ⟨nzw, upt, okt⟩ := wf_cons.1 hm
    cases n with
    | nil => exact absurd ((Mem.read_cons_self ..).symm.trans (same j)) nzw
    | cons y r =>
      obtain ⟨k, u⟩ := y
      obtain ⟨nzu, upr, okr⟩ := wf_cons.1 hn
      obtain rfl : j = k :=
        Nat.le_antisymm (Mem.head_le_of_read_eq nzu upt (same k).symm) (Mem.head_le_of_read_eq nzw upr (same j))
      have head : w = u := by simpa only [Mem.read_cons_self] using same j
      have tail : ∀ a, Mem.read t a = Mem.read r a := fun a => by
        by_cases e : j = a
        · rw [Mem.read_eq_zero_of_above upt (by omega), Mem.read_eq_zero_of_above upr (by omega)]
        · simpa only [Mem.read, if_neg e] using same a
      rw [head, ih r okt okr tail]

/-- Settles O56: each clause is a law of byte memories, by induction on the run or on the list of the memory. -/
theorem memoryOperations : Obligations.MemoryOperations := by
  refine ⟨Mem.read_write, Mem.read_writeBytes, wf_write, wf_writeBytes, Mem.eq_of_read_eq, fun m a n x => ?_⟩
  have run := Mem.readBytes_writeBytes m a (natBytes x n)
  rw [length_natBytes] at run
  rw [run, bytesNat_natBytes]

end Sys2Proof.Machine
end

section
/-! Fetches: the checks and the L1I of a fetch that stays within the core, and the bits of the word that it reads (R6, R119,
R167). -/

namespace Sys2Proof.Machine

/-! ## Bits of a run of bytes -/

theorem testBit_bytesNat_cons (b : Byte) (bs : List Byte) (i : Nat) :
    (bytesNat (b :: bs)).testBit i = if i < 8 then b.getLsbD i else (bytesNat bs).testBit (i - 8) := by
  rw [bytesNat, Nat.add_comm]
  exact Nat.testBit_two_pow_mul_add (i := 8) _ b.isLt i

theorem testBit_bytesNat_append (bs cs : List Byte) (i : Nat) : (bytesNat (bs ++ cs)).testBit i =
    if i < 8 * bs.length then (bytesNat bs).testBit i else (bytesNat cs).testBit (i - 8 * bs.length) := by
  induction bs generalizing i with
  | nil => simp
  | cons b bs ih =>
    rw [List.cons_append, testBit_bytesNat_cons, testBit_bytesNat_cons, ih, List.length_cons]
    by_cases low : i < 8
    · rw [if_pos low, if_pos low, if_pos (by omega)]
    · rw [if_neg low, if_neg low, Nat.sub_sub, Nat.mul_succ, Nat.add_comm 8]
      exact ite_congr (propext (by omega)) (fun _ => rfl) fun _ => rfl

@[simp] theorem length_lineBytes (d : LineData) (i n : Nat) : (lineBytes d i n).length = n := by
  induction n generalizing i with
  | zero => rfl
  | succ n ih => simp [lineBytes, ih]

theorem testBit_bytesNat_lineBytes (d : LineData) (i n j : Nat) (h : j < 8 * n) :
    (bytesNat (lineBytes d i n)).testBit j = d.getLsbD (8 * i + j) := by
  induction n generalizing i j with
  | zero => omega
  | succ n ih =>
    rw [lineBytes, testBit_bytesNat_cons]
    by_cases low : j < 8
    · simp [lineByte, low]
    · rw [if_neg low, ih _ _ (by omega)]
      exact congrArg d.getLsbD (by omega)

/-! ## The parts of a fetch -/

theorem rimCheck_ok {s : State} (quiet : s.me.rim = []) (va : Nat) : rimCheck va s = .ok () s := by
  simp [rimCheck, Ctx.rimTrap, quiet]

theorem fetchCheck_bounds {va : Nat} (out : localBase ≤ va) (s : State) :
    fetchCheck va s = .error (.trap { cause := .bounds, tval := BitVec.ofNat 64 va }) s := by
  simp [fetchCheck, out]

theorem fetchCheck_ok {va : Nat} {s : State} {a : BitVec 16} {sp : Space} (paged : va < localBase)
    (ex : s.checkPaged s.acc va .fetch = .ok sp a) : fetchCheck va s = .ok a s := by
  simp [fetchCheck, Nat.not_le.2 paged, ex]

theorem fetchLine_hit {l va : Nat} {s : State} {x : ILine} (hit : SMap.find? (s.core s.myCore).l1i l = some x) :
    fetchLine l va s = .ok x.data s := by
  simp [fetchLine, hit]

/-- The word at an offset of a line, of which the bytes beyond the line are the first ones of the next line fetched. -/
def wordAcross (x y : LineData) (o : Nat) : InstrWord :=
  BitVec.ofNat 96 (bytesNat (if o ≤ 52 then lineBytes x o 12 else lineBytes x o (64 - o) ++ lineBytes y 0 (12 - (64 - o))))

theorem getLsbD_wordAcross (x y : LineData) (o i : Nat) (ho : o < 64) (hi : i < 96) :
    (wordAcross x y o).getLsbD i = if 8 * o + i < 512 then x.getLsbD (8 * o + i) else y.getLsbD (8 * o + i - 512) := by
  rw [wordAcross, BitVec.getLsbD_ofNat, decide_eq_true hi, Bool.true_and]
  by_cases one : o ≤ 52
  · rw [if_pos one, if_pos (by omega), testBit_bytesNat_lineBytes _ _ _ _ (by omega)]
  · rw [if_neg one, testBit_bytesNat_append, length_lineBytes]
    by_cases first : i < 8 * (64 - o)
    · rw [if_pos first, if_pos (by omega), testBit_bytesNat_lineBytes _ _ _ _ first]
    · rw [if_neg first, if_neg (by omega), testBit_bytesNat_lineBytes _ _ _ _ (by omega)]
      exact congrArg y.getLsbD (by omega)

theorem fetch_bounds {s : State} (quiet : s.me.rim = []) (out : localBase ≤ s.me.pc.toNat) :
    fetch s = .error (.trap { cause := .bounds, tval := s.me.pc }) s := by
  simp [fetch, rimCheck_ok quiet, fetchCheck_bounds out]

theorem fetch_ok {s : State} {a b : BitVec 16} {sp sp' : Space} {x y : ILine} (quiet : s.me.rim = [])
    (paged : s.me.pc.toNat + 11 < localBase)
    (ex : s.checkPaged s.acc s.me.pc.toNat .fetch = .ok sp a)
    (ex' : s.checkPaged s.acc (s.me.pc.toNat + 11) .fetch = .ok sp' b)
    (hit : SMap.find? (s.core s.myCore).l1i (lineKey a s.me.pc.toNat) = some x)
    (hit' : SMap.find? (s.core s.myCore).l1i (lineKey b (s.me.pc.toNat + 11)) = some y) :
    fetch s = .ok (wordAcross x.data y.data (s.me.pc.toNat % 64)) s := by
  simp only [fetch, M_bind, M_me, rimCheck_ok quiet, fetchCheck_ok (Nat.lt_of_add_right_lt paged) ex,
    fetchCheck_ok paged ex', fetchLine_hit hit, fetchLine_hit hit', wordAcross, M_ite, M_pure]
  split <;> rfl

/-- Settles O50: outside paged memory the page check traps; otherwise both page checks pass, both lines hit, and each bit of
the word comes from the line that its byte lies in. -/
theorem fetchReadsBytes : Obligations.FetchReadsBytes := by
  intro s a b x y quiet va
  refine ⟨fun out => ⟨s, fetch_bounds quiet out⟩, fun paged ex ex' hit hit' => ?_⟩
  exact ⟨_, fetch_ok quiet paged ex ex' hit hit', fun i hi => getLsbD_wordAcross _ _ _ i (Nat.mod_lt _ (by decide)) hi⟩

end Sys2Proof.Machine
end

section
/-! Plain loads and stores: what a read or a write without an order annotation does at each place, and the stores that wait
in a core's queue (R120, R134, R254, R267, R270). -/

namespace Sys2Proof.Machine

/-! ## The access and its place -/

theorem access_ok {s : State} {va n align : Nat} {k : AccKind} {sp : Space} {asid : BitVec 16} (quiet : s.me.rim = [])
    (ok : s.check s.acc va n align k = .ok sp asid) : access va n align k s = .ok (sp, asid) s := by
  simp [access, rimCheck_ok quiet, place, ok]

theorem memRd_ok {s t : State} {va n : Nat} {acq : Option Scope} {sp : Space} {asid : BitVec 16} {bs : List Byte}
    (quiet : s.me.rim = []) (ok : s.check s.acc va n n .load = .ok sp asid) (read : readAt sp asid va n acq 0 s = .ok bs t) :
    memRd va n acq s = .ok (bytesNat bs) t := by
  simp [memRd, access_ok quiet ok, read]

theorem memWr_ok {s : State} {va n : Nat} {sp : Space} {asid : BitVec 16} (quiet : s.me.rim = [])
    (ok : s.check s.acc va n n .store = .ok sp asid) (x : Nat) (rel : Option Scope) :
    memWr va n x rel s = writeAt sp asid va (natBytes x n) rel s := by
  simp [memWr, access_ok quiet ok]

/-! ## Banks -/

theorem State.serveFe_of_fe_nil {s : State} {k : Nat} (idle : (s.core k).fe = []) : s.serveFe k = s := by
  simp [State.serveFe, idle, State.serveFrom]

theorem slotCheck_of_slots_nil {s : State} (slots : s.me.task.slots = []) (k off n : Nat) :
    slotCheck k off n s = .ok () s := by
  by_cases mine : k = s.myCore <;> simp [slotCheck, mine, slots]

theorem cmemRead_of_poison_nil {s : State} {k : Nat} (clean : (s.core k).poison = []) (off n va : Nat) :
    cmemRead k off n va s = .ok (Mem.readBytes (s.core k).cmem off n) s := by
  simp [cmemRead, clean, inList]

theorem readAt_core {s : State} {k : Nat} (clean : (s.core k).poison = []) (idle : (s.core k).fe = [])
    (slots : s.me.task.slots = []) (off va n key : Nat) (asid : BitVec 16) :
    readAt (.core k off) asid va n none key s = .ok (Mem.readBytes (s.core k).cmem off n) s := by
  simp [readAt, State.serveFe_of_fe_nil idle, slotCheck_of_slots_nil slots, cmemRead_of_poison_nil clean]

theorem readAt_shared (s : State) (off va n key : Nat) (asid : BitVec 16) :
    readAt (.shared off) asid va n none key s = .ok (Mem.readBytes (s.field s.myField).shm off n) s := by
  simp [readAt]

theorem writeAt_core {s : State} {k : Nat} (idle : (s.core k).fe = []) (off va : Nat) (asid : BitVec 16) (bs : List Byte) :
    writeAt (.core k off) asid va bs none s = .ok () (s.modCore k fun c => c.writeMem off bs) := by
  simp [writeAt, State.serveFe_of_fe_nil idle]

theorem writeAt_shared (s : State) (off va : Nat) (asid : BitVec 16) (bs : List Byte) :
    writeAt (.shared off) asid va bs none s =
      .ok () (s.modField s.myField fun f => { f with shm := Mem.writeBytes f.shm off bs }) := by
  simp [writeAt]

@[simp] theorem Core.writeMem_cmem (c : Core) (off : Nat) (bs : List Byte) :
    (c.writeMem off bs).cmem = Mem.writeBytes c.cmem off bs := rfl

theorem Mem.read_writeBytes_natBytes (m : Mem) (off n x i : Nat) (h : i < n) :
    Mem.read (Mem.writeBytes m off (natBytes x n)) (off + i) = BitVec.ofNat 8 (x / 256 ^ i) := by
  rw [Mem.read_writeBytes, length_natBytes, if_pos (by omega), Nat.add_sub_cancel_left, natBytes_getD x n i h]

theorem Mem.read_writeBytes_outside (m : Mem) (off b : Nat) (bs : List Byte) (h : b < off ∨ off + bs.length ≤ b) :
    Mem.read (Mem.writeBytes m off bs) b = Mem.read m b := by
  rw [Mem.read_writeBytes, if_neg (by omega)]

/-! ## The two words of a pair -/

theorem readPair_core_second {s : State} {k : Nat} {x : BitVec 128} {fl : BitVec 5} (clean : (s.core k).poison = [])
    (idle : (s.core k).fe = []) (slots : s.me.task.slots = []) (kept : s.me.parts = [(0, x, fl)]) (off va : Nat)
    (asid : BitVec 16) : readPair (.core k off) asid va none s =
      .ok (x.toNat + 2 ^ 64 * bytesNat (Mem.readBytes (s.core k).cmem (off + 8) 8)) s := by
  simp [readPair, kept, Space.plus, readAt_core clean idle slots]

/-- With no word kept, the hardware's choice decides whether other accesses may come between the two reads. -/
theorem readPair_core_first {s : State} {k : Nat} (clean : (s.core k).poison = []) (idle : (s.core k).fe = [])
    (slots : s.me.task.slots = []) (fresh : s.me.parts = []) (off va : Nat) (asid : BitVec 16) :
    let lo := bytesNat (Mem.readBytes (s.core k).cmem off 8)
    readPair (.core k off) asid va none s =
      if Config.choice s.fresh then .error (.wait .memory) (s.setMe { s.me with parts := [(0, BitVec.ofNat 128 lo, 0)] })
      else .ok (lo + 2 ^ 64 * bytesNat (Mem.readBytes (s.core k).cmem (off + 8) 8)) s := by
  cases choice : Config.choice s.fresh <;>
    simp [readPair, fresh, choice, Space.plus, readAt_core clean idle slots, Ctx.keepPart]

/-! ## The store queue -/

/-- The entry of the next plain store of the issuing context under an ASID. -/
def State.storeEntry (s : State) (asid : BitVec 16) (w : StoreWord) : SqEnt :=
  { cx := s.cur, tid := s.me.task.tid, va := w.1, asid := asid, data := w.2.1, be := w.2.2, rel := none
    n := s.fresh, after := s.me.seen }

/-- The state with that entry at the end of the core's queue. -/
def State.pushed (s : State) (asid : BitVec 16) (w : StoreWord) : State :=
  s.bump.modCore s.myCore fun c => { c with sq := c.sq ++ [s.storeEntry asid w] }

theorem pushStore_ok (asid : BitVec 16) (w : StoreWord) (s : State) :
    pushStore asid w.1 w.2.1 w.2.2 none s = .ok () (s.pushed asid w) := by
  simp [pushStore, State.pushed, State.storeEntry, State.myCore]

theorem pushAll_nil (asid : BitVec 16) (s : State) : pushAll asid none [] s = .ok () s := rfl

theorem pushAll_cons (asid : BitVec 16) (w : StoreWord) (ws : List StoreWord) (s : State) :
    pushAll asid none (w :: ws) s = pushAll asid none ws (s.pushed asid w) := by
  rw [pushAll, bind_ok (pushStore_ok asid w s)]

@[simp] theorem State.pushed_fields (s : State) (asid : BitVec 16) (w : StoreWord) : (s.pushed asid w).fields = s.fields := rfl
@[simp] theorem State.pushed_clusters (s : State) (asid : BitVec 16) (w : StoreWord) :
    (s.pushed asid w).clusters = s.clusters := rfl
@[simp] theorem State.pushed_cur (s : State) (asid : BitVec 16) (w : StoreWord) : (s.pushed asid w).cur = s.cur := rfl
@[simp] theorem State.pushed_me (s : State) (asid : BitVec 16) (w : StoreWord) : (s.pushed asid w).me = s.me := rfl
@[simp] theorem State.pushed_myCore (s : State) (asid : BitVec 16) (w : StoreWord) : (s.pushed asid w).myCore = s.myCore := rfl

theorem State.pushed_sq (s : State) (asid : BitVec 16) (w : StoreWord) :
    ((s.pushed asid w).core s.myCore).sq = (s.core s.myCore).sq ++ [s.storeEntry asid w] := by
  simp [State.pushed]

@[simp] theorem State.pushed_cmem (s : State) (asid : BitVec 16) (w : StoreWord) (j : Nat) :
    ((s.pushed asid w).core j).cmem = (s.core j).cmem := by
  by_cases mine : j = s.myCore
  · subst mine
    simp [State.pushed]
  · rw [State.pushed, State.modCore, State.setCore_core_ne _ _ _ _ mine, State.bump_core]

theorem splitWords_of_length_le {bs : List Byte} (h : bs.length ≤ 8) (va : Nat) : splitWords va bs = [storeWord va bs] :=
  if_pos h

theorem splitWords_natBytes_16 (va x : Nat) :
    splitWords va (natBytes x 16) = [storeWord va (natBytes x 8), storeWord (va + 8) (natBytes (x / 2 ^ 64) 8)] := by
  have halves : natBytes x 16 = natBytes x 8 ++ natBytes (x / 2 ^ 64) 8 := natBytes_add x 8 8
  rw [splitWords, if_neg (by simp), halves]
  simp [List.range_succ, List.take_of_length_le]

theorem writeAt_paged (s : State) (va : Nat) (asid : BitVec 16) (bs : List Byte) :
    writeAt .paged asid va bs none s = pushStores asid none (splitWords va bs) s := by
  simp [writeAt]

theorem pushStores_one (asid : BitVec 16) (w : StoreWord) (s : State) :
    pushStores asid none [w] s = .ok () (s.pushed asid w) := by
  simp [pushStores, pushAll_cons, pushAll_nil]

/-- Two words perform in the order that the hardware chooses. -/
theorem pushStores_two (asid : BitVec 16) (w w' : StoreWord) (s : State) : pushStores asid none [w, w'] s =
    .ok () (if Config.choice s.fresh then (s.pushed asid w).pushed asid w' else (s.pushed asid w').pushed asid w) := by
  cases choice : Config.choice s.fresh <;> simp [pushStores, choice, pushAll_cons, pushAll_nil]

/-! ## What a plain store does at each place -/

theorem memWr_core {s : State} {va n k off : Nat} {asid : BitVec 16} (quiet : s.me.rim = [])
    (ok : s.check s.acc va n n .store = .ok (.core k off) asid) (idle : (s.core k).fe = []) (x : Nat) :
    ∃ t, memWr va n x none s = .ok () t ∧
      (∀ i, i < n → Mem.read (t.core k).cmem (off + i) = BitVec.ofNat 8 (x / 256 ^ i)) ∧
      ∀ b, b < off ∨ off + n ≤ b → Mem.read (t.core k).cmem b = Mem.read (s.core k).cmem b := by
  refine ⟨_, (memWr_ok quiet ok x none).trans (writeAt_core idle off va asid _), fun i hi => ?_, fun b out => ?_⟩
  · rw [State.modCore_core, Core.writeMem_cmem, Mem.read_writeBytes_natBytes _ _ _ _ _ hi]
  · rw [State.modCore_core, Core.writeMem_cmem, Mem.read_writeBytes_outside _ _ _ _ (by rwa [length_natBytes])]

theorem memWr_shared {s : State} {va n off : Nat} {asid : BitVec 16} (quiet : s.me.rim = [])
    (ok : s.check s.acc va n n .store = .ok (.shared off) asid) (x : Nat) :
    ∃ t, memWr va n x none s = .ok () t ∧
      (∀ i, i < n → Mem.read (t.field s.myField).shm (off + i) = BitVec.ofNat 8 (x / 256 ^ i)) ∧
      ∀ b, b < off ∨ off + n ≤ b → Mem.read (t.field s.myField).shm b = Mem.read (s.field s.myField).shm b := by
  refine ⟨_, (memWr_ok quiet ok x none).trans (writeAt_shared s off va asid _), fun i hi => ?_, fun b out => ?_⟩
  · rw [State.modField_field, Mem.read_writeBytes_natBytes _ _ _ _ _ hi]
  · rw [State.modField_field, Mem.read_writeBytes_outside _ _ _ _ (by rwa [length_natBytes])]

theorem memWr_paged_word {s : State} {va n : Nat} {asid : BitVec 16} (quiet : s.me.rim = [])
    (ok : s.check s.acc va n n .store = .ok .paged asid) (short : n ≤ 8) (x : Nat) :
    memWr va n x none s = .ok () (s.pushed asid (storeWord va (natBytes x n))) := by
  rw [memWr_ok quiet ok, writeAt_paged, splitWords_of_length_le (by simpa using short), pushStores_one]

theorem memWr_paged_pair {s : State} {va : Nat} {asid : BitVec 16} (quiet : s.me.rim = [])
    (ok : s.check s.acc va 16 16 .store = .ok .paged asid) (x : Nat) :
    let w := storeWord va (natBytes x 8)
    let w' := storeWord (va + 8) (natBytes (x / 2 ^ 64) 8)
    memWr va 16 x none s =
      .ok () (if Config.choice s.fresh then (s.pushed asid w).pushed asid w' else (s.pushed asid w').pushed asid w) := by
  rw [memWr_ok quiet ok, writeAt_paged, splitWords_natBytes_16, pushStores_two]

theorem State.pushed_pushed_sq (s : State) (asid : BitVec 16) (w w' : StoreWord) :
    (((s.pushed asid w).pushed asid w').core s.myCore).sq =
      (s.core s.myCore).sq ++ [s.storeEntry asid w, (s.pushed asid w).storeEntry asid w'] := by
  have second := (s.pushed asid w).pushed_sq asid w'
  rwa [State.pushed_myCore, State.pushed_sq, List.append_assoc] at second

/-- Settles O10: each place's read and write is one equation, and a store to paged memory is one or two pushes. -/
theorem plainLoadsAndStores : Obligations.PlainLoadsAndStores := by
  refine ⟨fun s va n x asid k off quiet => ⟨?_, ?_, ?_, ?_, ?_⟩, fun s va n x asid quiet ok => ⟨?_, ?_⟩⟩
  · exact fun ok clean idle slots => memRd_ok quiet ok (readAt_core clean idle slots ..)
  · intro lo hi clean idle slots
    refine ⟨fun fresh => ?_, fun y fl kept => readPair_core_second clean idle slots kept off va asid⟩
    rw [readPair_core_first clean idle slots fresh]
    split
    · exact .inr rfl
    · exact .inl rfl
  · exact fun ok => memRd_ok quiet ok (readAt_shared s ..)
  · exact fun ok idle => memWr_core quiet ok idle x
  · exact fun ok => memWr_shared quiet ok x
  · intro short
    exact ⟨_, _, memWr_paged_word quiet ok short x, ⟨rfl, rfl, fun j => by simp⟩, State.pushed_sq ..,
      rfl, rfl, rfl, rfl, rfl, rfl, rfl⟩
  · rintro rfl
    have run := memWr_paged_pair quiet ok x
    split at run
    · exact ⟨_, _, _, run, ⟨rfl, rfl, fun j => by simp⟩, .inl (State.pushed_pushed_sq ..),
        ⟨rfl, rfl, rfl, rfl, rfl, rfl, rfl⟩, ⟨rfl, rfl, rfl, rfl, rfl, rfl, rfl⟩⟩
    · exact ⟨_, _, _, run, ⟨rfl, rfl, fun j => by simp⟩, .inr (State.pushed_pushed_sq ..),
        ⟨rfl, rfl, rfl, rfl, rfl, rfl, rfl⟩, ⟨rfl, rfl, rfl, rfl, rfl, rfl, rfl⟩⟩

end Sys2Proof.Machine
end

section
/-! Every instruction and every event goes on (R10, R175): the frames of instructions, and the branches of each event. -/

namespace Sys2Proof.Machine

/-! ## The forms that an answer has -/

theorem Safe.next (t : State) : Safe (.next t) := ⟨t, rfl⟩

theorem Safe.ite {p : Prop} [Decidable p] {a b : Out} (ha : Safe a) (hb : Safe b) : Safe (if p then a else b) := by
  split
  · exact ha
  · exact hb

theorem runEnd_safe (h : Hdr) (m : M Unit) (fin : State → State) (s : State) : Safe (runEnd h m fin s) := by
  unfold runEnd
  refine .ite ?_ (.next _)
  split <;> exact .next _

theorem State.command_safe (s : State) (c : SlCmd) : Safe (s.command c) := .next _

/-! ## Instructions with checks before the guard (R164, R176) -/

theorem execSrd_safe (h : Hdr) (d : GReg) (num : BitVec 12) (s : State) : Safe (execSrd h d num s) := by
  unfold execSrd
  dsimp only
  split
  · exact .next _
  · exact runIsa_safe ..

theorem execSwr_safe (h : Hdr) (num : BitVec 12) (b : GReg) (s : State) : Safe (execSwr h num b s) := by
  unfold execSwr
  dsimp only
  split
  · exact .next _
  · exact runIsa_safe ..

/-! ## The rim, migration and saves (R85 to R97, R381) -/

theorem execRimRequest_safe (f id : Nat) (s : State) : Safe (execRimRequest f id s) := by
  unfold execRimRequest
  split
  · exact .next _
  · exact .ite (.next _) (.next _)

theorem execPageWalkDone_safe (f id : Nat) (s : State) : Safe (execPageWalkDone f id s) := by
  unfold execPageWalkDone
  split
  · exact .next _
  · exact .ite (.next _) (.next _)

theorem execFaultMessageDeliver_safe (f : Nat) (s : State) : Safe (execFaultMessageDeliver f s) := by
  unfold execFaultMessageDeliver
  split
  · exact .next _
  · split <;> exact .next _

theorem execHbmReadComplete_safe (f id : Nat) (e : LineErr) (s : State) : Safe (execHbmReadComplete f id e s) := by
  unfold execHbmReadComplete
  split
  · exact .next _
  · split
    · exact .ite (.next _) (.ite (.next _) (.next _))
    · exact .next _

theorem execXinvComplete_safe (f : Nat) (s : State) : Safe (execXinvComplete f s) := by
  unfold execXinvComplete
  dsimp only
  split
  · exact .next _
  · refine .ite (.next _) ?_
    split <;> exact .next _

theorem execParkTimeoutSave_safe (c : Nat) (s : State) : Safe (execParkTimeoutSave c s) := by
  unfold execParkTimeoutSave
  refine .ite (runEvent_safe ..) ?_
  split
  · exact .next _
  · exact .ite (.next _) (.next _)

theorem execMigrationRoundEnd_safe (f slot : Nat) (s : State) : Safe (execMigrationRoundEnd f slot s) := by
  unfold execMigrationRoundEnd
  split
  · exact .next _
  · exact .ite (.next _) (.next _)

theorem execMigrationComplete_safe (f slot : Nat) (s : State) : Safe (execMigrationComplete f slot s) := by
  unfold execMigrationComplete
  split
  · exact .next _
  · exact .ite (.next _) (.next _)

/-! ## Home slices, the caches of a cluster and the host (R100 to R130, R40, R118) -/

theorem execHomeEviction_safe (f id : Nat) (s : State) : Safe (execHomeEviction f id s) := by
  unfold execHomeEviction
  split
  · split
    · exact .ite (.next _) (.next _)
    · exact .next _
  · exact .ite (.next _) (.next _)

theorem execReadFillReply_safe (cl line : Nat) (s : State) : Safe (execReadFillReply cl line s) := by
  unfold execReadFillReply
  split
  · exact .next _
  · exact .ite (.next _) (.next _)

theorem execMergeFillArrive_safe (cl line : Nat) (s : State) : Safe (execMergeFillArrive cl line s) := by
  unfold execMergeFillArrive
  split
  · exact .next _
  · refine .ite (.next _) ?_
    dsimp only
    split <;> exact .next _

theorem execTilePushInstall_safe (cl id : Nat) (s : State) : Safe (execTilePushInstall cl id s) := by
  unfold execTilePushInstall
  split
  · exact .ite (.next _) (.next _)
  · exact .next _

theorem execL2Eviction_safe (cl line : Nat) (s : State) : Safe (execL2Eviction cl line s) := by
  unfold execL2Eviction
  split
  · exact .next _
  · exact .ite (.next _) (.next _)

theorem execL2StorePerform_safe (k idx : Nat) (s : State) : Safe (execL2StorePerform k idx s) := by
  unfold execL2StorePerform
  dsimp only
  split
  · exact .next _
  · exact .ite (runEvent_safe ..) (.next _)

theorem execSramEccError_safe (unit : Nat) (l2 : Bool) (addr : Nat) (e : LineErr) (s : State) :
    Safe (execSramEccError unit l2 addr e s) := by
  unfold execSramEccError
  refine .ite (.next _) (.ite ?_ (.ite (.next _) (.next _)))
  split <;> exact .next _

theorem State.hostRead_safe (s : State) (fn tag off : Nat) (mv : Meta) (want : Bool) (reply : LineData → Bool → OutMsg) :
    Safe (s.hostRead fn tag off mv want reply) := by
  unfold State.hostRead
  split
  · exact .next _
  · refine .ite (.next _) ?_
    split
    · exact .next _
    · split <;> exact .next _

theorem State.hostWrite_safe (s : State) (fn tag off : Nat) (data : LineData) (be : BitVec 64) :
    Safe (s.hostWrite fn tag off data be) := by
  unfold State.hostWrite
  split
  · exact .next _
  · refine .ite (.next _) ?_
    split
    · exact .next _
    · refine .ite (.next _) ?_
      split <;> exact .next _

theorem execBirsp_safe (f line : Nat) (r : BiRsp) (s : State) : Safe (execBirsp f line r s) := by
  unfold execBirsp
  split
  · exact .next _
  · split <;> exact .next _

theorem execBiTimeout_safe (f line : Nat) (s : State) : Safe (execBiTimeout f line s) := by
  unfold execBiTimeout
  split
  · exact .next _
  · exact .ite (.next _) (.next _)

theorem execCxlCacheResponse_safe (f id : Nat) (data : LineData) (s : State) : Safe (execCxlCacheResponse f id data s) := by
  unfold execCxlCacheResponse
  split
  · exact .next _
  · dsimp only
    split <;> exact .next _

theorem execHostBarWrite_safe (fn num : Nat) (v : Word) (s : State) : Safe (execHostBarWrite fn num v s) := by
  unfold execHostBarWrite
  split
  · exact .ite (.next _) (.ite (.ite (.next _) (.next _)) (runEvent_safe ..))
  · exact .next _

/-! ## Gateways, engines and items (R143 to R160, R286 to R316) -/

theorem State.gate_safe (s : State) (f : Nat) (p : Peer) (m : M (Nat × BitVec 5)) : Safe (s.gate f p m) := by
  unfold State.gate
  refine .ite (.next _) ?_
  split <;> exact .next _

theorem execGatewayLoad_safe (f id : Nat) (s : State) : Safe (execGatewayLoad f id s) := by
  unfold execGatewayLoad
  split
  · exact .next _
  · split
    · exact State.gate_safe ..
    · exact .next _

theorem execGatewayStore_safe (f id : Nat) (s : State) : Safe (execGatewayStore f id s) := by
  unfold execGatewayStore
  split
  · exact .next _
  · split
    · exact State.gate_safe ..
    · exact State.gate_safe ..
    · exact .next _

theorem execGatewayAtomic_safe (f id : Nat) (s : State) : Safe (execGatewayAtomic f id s) := by
  unfold execGatewayAtomic
  split
  · exact .next _
  · split
    · exact State.gate_safe ..
    · exact .next _

theorem execPeerAccess_safe (f id : Nat) (s : State) : Safe (execPeerAccess f id s) := by
  unfold execPeerAccess
  split
  · exact .next _
  · refine .ite (.next _) ?_
    split <;> exact .next _

theorem State.recWork_safe (s : State) (cl ch : Nat) (r : RunRec) (m : M (Option RunRec)) : Safe (s.recWork cl ch r m) := by
  unfold State.recWork
  split <;> exact .next _

theorem execRecordStart_safe (cl ch : Nat) (s : State) : Safe (execRecordStart cl ch s) := by
  unfold execRecordStart
  refine .ite (.next _) ?_
  dsimp only
  split
  · exact .next _
  · exact .ite (State.recWork_safe ..) (.next _)

theorem execRecordElement_safe (cl ch : Nat) (s : State) : Safe (execRecordElement cl ch s) := by
  unfold execRecordElement
  split
  · exact .next _
  · exact .ite (State.recWork_safe ..) (.next _)

theorem execChainNextRecord_safe (cl ch : Nat) (s : State) : Safe (execChainNextRecord cl ch s) := by
  unfold execChainNextRecord
  split
  · exact .next _
  · exact .ite (State.recWork_safe ..) (.next _)

theorem execRecordComplete_safe (cl ch : Nat) (s : State) : Safe (execRecordComplete cl ch s) := by
  unfold execRecordComplete
  split
  · exact .next _
  · refine .ite ?_ (.next _)
    split <;> exact .next _

theorem execCopyErrorMessage_safe (f : Nat) (s : State) : Safe (execCopyErrorMessage f s) := by
  unfold execCopyErrorMessage
  split
  · exact .next _
  · split <;> exact .next _

theorem execBankReduce_safe (f id : Nat) (s : State) : Safe (execBankReduce f id s) := by
  unfold execBankReduce
  split
  · exact .next _
  · split
    · dsimp only
      split <;> exact .next _
    · exact .next _
    · exact .next _

theorem execStatusWriteback_safe (k item : Nat) (s : State) : Safe (execStatusWriteback k item s) := by
  unfold execStatusWriteback
  split
  · exact .next _
  · split <;> exact .next _

theorem execTileReply_safe (k item : Nat) (s : State) : Safe (execTileReply k item s) := by
  unfold execTileReply
  split
  · exact .next _
  · split
    · exact .ite (.next _) (.next _)
    · exact .next _

theorem execMbcastComplete_safe (k item : Nat) (s : State) : Safe (execMbcastComplete k item s) := by
  unfold execMbcastComplete
  split
  · exact .next _
  · split
    · exact .ite (.next _) (.next _)
    · exact .next _

theorem execPutLand_safe (cl item : Nat) (s : State) : Safe (execPutLand cl item s) := by
  unfold execPutLand
  split
  · exact .next _
  · refine .ite (.next _) ?_
    split <;> exact .next _

theorem execPutComplete_safe (cl item : Nat) (s : State) : Safe (execPutComplete cl item s) := by
  unfold execPutComplete
  split
  · exact .next _
  · split
    · exact .next _
    · exact .ite (.next _) (.next _)

theorem execRamoExecute_safe (k item : Nat) (s : State) : Safe (execRamoExecute k item s) := by
  unfold execRamoExecute
  split
  · exact .next _
  · split
    · refine .ite (.next _) ?_
      split <;> exact .next _
    · exact .next _

theorem execRamoReply_safe (k item : Nat) (s : State) : Safe (execRamoReply k item s) := by
  unfold execRamoReply
  split
  · exact .next _
  · split
    · refine .ite (.next _) ?_
      split
      · exact .next _
      · exact .ite (.next _) (.next _)
    · exact .next _

/-! ## Beyond the field (R307 to R322) -/

theorem execImportRequest_safe (f fromField handle slot : Nat) (s : State) :
    Safe (execImportRequest f fromField handle slot s) := by
  unfold execImportRequest
  split
  · exact .next _
  · exact .ite (.next _) (.next _)

theorem execImportReply_safe (f slot : Nat) (s : State) : Safe (execImportReply f slot s) := by
  unfold execImportReply
  split <;> exact .next _

theorem execImportTimeout_safe (f slot : Nat) (s : State) : Safe (execImportTimeout f slot s) := by
  unfold execImportTimeout
  split <;> exact .next _

theorem execSlotWindowOpen_safe (f : Nat) (s : State) : Safe (execSlotWindowOpen f s) := by
  unfold execSlotWindowOpen
  refine .ite (.next _) ?_
  split <;> exact .next _

/-! ## Dispatchers, messages, barriers and energy (R323 to R375, R398) -/

theorem execLaunchRecordRead_safe (f q : Nat) (s : State) : Safe (execLaunchRecordRead f q s) := by
  unfold execLaunchRecordRead
  refine .ite (.next _) ?_
  dsimp only
  split
  · exact runEvent_safe ..
  · refine .ite (.next _) ?_
    split <;> exact .next _

theorem execGroupPlace_safe (f q : Nat) (s : State) : Safe (execGroupPlace f q s) := by
  unfold execGroupPlace
  refine .ite (.next _) ?_
  split
  · exact runEvent_safe ..
  · exact .next _

theorem execGangStart_safe (f gid : Nat) (s : State) : Safe (execGangStart f gid s) := by
  unfold execGangStart
  split
  · exact .next _
  · split
    · exact .next _
    · exact .ite (.next _) (.next _)

theorem execStarveTimeout_safe (f q : Nat) (s : State) : Safe (execStarveTimeout f q s) := by
  unfold execStarveTimeout
  split
  · exact .next _
  · exact .ite (.next _) (.next _)

theorem execPreemptRequest_safe (f q : Nat) (s : State) : Safe (execPreemptRequest f q s) := by
  unfold execPreemptRequest
  split
  · exact .next _
  · refine .ite (.next _) ?_
    split <;> exact .next _

theorem execSpanReport_safe (f : Nat) (s : State) : Safe (execSpanReport f s) := by
  unfold execSpanReport
  split <;> exact .next _

theorem execLaunchComplete_safe (f lid : Nat) (s : State) : Safe (execLaunchComplete f lid s) := by
  unfold execLaunchComplete
  split
  · exact .next _
  · exact .ite (.next _) (runEvent_safe ..)

theorem execGraphNodeEnd_safe (f lid node : Nat) (s : State) : Safe (execGraphNodeEnd f lid node s) := by
  unfold execGraphNodeEnd
  split
  · exact .next _
  · split
    · exact runEvent_safe ..
    · split
      · exact .next _
      · exact .ite (runEvent_safe ..) (.next _)

theorem execContextSelect_safe (c : Nat) (s : State) : Safe (execContextSelect c s) := by
  unfold execContextSelect
  refine .ite ?_ (.next _)
  split
  · exact .next _
  · exact runEvent_safe ..

theorem execContextRestore_safe (k entry x : Nat) (s : State) : Safe (execContextRestore k entry x s) := by
  unfold execContextRestore
  refine .ite ?_ (.next _)
  split
  · exact .ite (runEvent_safe ..) (.next _)
  · exact .next _

theorem execMessageArrive_safe (f id : Nat) (s : State) : Safe (execMessageArrive f id s) := by
  unfold execMessageArrive
  split
  · exact .next _
  · exact .ite (.next _) (.next _)

theorem execMessageReturn_safe (f id : Nat) (s : State) : Safe (execMessageReturn f id s) := by
  unfold execMessageReturn
  split
  · exact .next _
  · split <;> exact .next _

theorem execReinEvaluate_safe (f rule : Nat) (s : State) : Safe (execReinEvaluate f rule s) := by
  unfold execReinEvaluate
  refine .ite ?_ (.next _)
  split <;> exact .next _

theorem execPanelMove_safe (f id : Nat) (s : State) : Safe (execPanelMove f id s) := by
  unfold execPanelMove
  split <;> exact .next _

theorem execBarrierArrival_safe (f id : Nat) (s : State) : Safe (execBarrierArrival f id s) := by
  unfold execBarrierArrival
  split
  · exact .next _
  · exact .ite (.next _) (.ite (.next _) (.next _))

theorem execBarrierRelease_safe (f id : Nat) (s : State) : Safe (execBarrierRelease f id s) := by
  unfold execBarrierRelease
  split
  · exact .next _
  · split
    · exact .next _
    · exact .ite (.next _) (.ite (.next _) (.next _))

theorem execEnergyWindow_safe (part : Nat) (s : State) : Safe (execEnergyWindow part s) := by
  unfold execEnergyWindow
  split <;> exact .next _

theorem execEnergyCount_safe (part uj : Nat) (s : State) : Safe (execEnergyCount part uj s) := by
  unfold execEnergyCount
  split <;> exact .next _

theorem execKillComplete_safe (f id : Nat) (s : State) : Safe (execKillComplete f id s) := by
  unfold execKillComplete
  split
  · exact .next _
  · exact .ite (.next _) (.ite (.next _) (runEvent_safe ..))

theorem execRevokeComplete_safe (part id : Nat) (s : State) : Safe (execRevokeComplete part id s) := by
  unfold execRevokeComplete
  split
  · exact .ite (.next _) (runEvent_safe ..)
  · exact .next _

/-! ## All of them -/

/-- Every instruction and every event answers a next state: its arms, grouped by the form of their answer. -/
theorem exec_safe (i : Instr) (s : State) : Safe (exec i s) :=
  match i with
  | .add .. | .sub .. | .mul .. | .mulh .. | .mulhu .. | .div .. | .divu .. | .rem .. | .remu .. | .and .. | .or ..
  | .xor .. | .andn .. | .orn .. | .shl .. | .shr .. | .sar .. | .rol .. | .ror .. | .min .. | .max .. | .minu ..
  | .maxu .. | .clz .. | .ctz .. | .popc .. | .brev .. | .bswap .. | .nop .. =>
      runReg_safe ..
  | .lea .. | .sel .. | .mov .. | .movi .. | .movhi .. | .cmp .. | .pand .. | .por .. | .pxor .. | .pnot .. | .pmov ..
  | .pget .. | .cqry .. | .rdtime .. | .enrg .. => by
      simp only [exec_lea, exec_sel, exec_mov, exec_movi, exec_movhi, exec_cmp, exec_pand, exec_por, exec_pxor,
        exec_pnot, exec_pmov, exec_pget, exec_cqry, exec_rdtime, exec_enrg]
      exact runReg_safe ..
  | .sext .. | .zext .. | .bfx .. | .bfi .. | .br .. | .brl .. | .jmp .. | .jmpl .. | .ret .. | .brt .. | .ld ..
  | .st .. | .ldp .. | .stp .. | .ldf .. | .lde .. | .stf .. | .sete .. | .pref .. | .cflush .. | .cinv .. | .czero ..
  | .aadd .. | .amin .. | .amax .. | .aminu .. | .amaxu .. | .aand .. | .aor .. | .axor .. | .aswp .. | .acas ..
  | .acas2 .. | .afadd .. | .ainc .. | .fence .. | .waita .. | .waitn .. | .barset .. | .bararr .. | .barwait ..
  | .chk .. | .yield .. | .vld .. | .vst .. | .vlds .. | .vsts .. | .vgath .. | .vscat .. | .vldf .. | .vamo ..
  | .mma .. | .mcnt .. | .mdrain .. | .mmerge .. | .mzero .. | .mld .. | .mst .. | .mscl .. | .mwait .. | .mcfg ..
  | .mbcast .. | .mqw .. | .tdecl .. | .trel .. | .tfwd .. | .town .. | .tqry .. | .cpy .. | .cchain .. | .ccancel ..
  | .put .. | .putv .. | .ramo .. | .send .. | .sendv .. | .pcfg .. | .jcfg .. | .jena .. | .jdis .. | .mtake ..
  | .mreplay .. | .spawn .. | .joinw .. | .carm .. | .cdec .. | .sqcfg .. | .stlcfg .. | .trap .. | .brk ..
  | .seqrd .. =>
      runIsa_safe ..
  | .vadd .. | .vsub .. | .vmul .. | .vmulh .. | .vmin .. | .vmax .. | .vminu .. | .vmaxu .. | .vand .. | .vor ..
  | .vxor .. | .vshl .. | .vshr .. | .vsar .. | .vabs .. | .vneg .. | .vcmp .. | .vsel .. | .vpopc .. | .vfadd ..
  | .vfsub .. | .vfmul .. | .vfma .. | .vfms .. | .vfnma .. | .vfdiv .. | .vfsqrt .. | .vfrcp .. | .vfrsq ..
  | .vfexp2 .. | .vflog2 .. | .vfmin .. | .vfmax .. | .vfcmp .. | .vfclass .. | .vfcvt .. | .vfscl .. | .vradd ..
  | .vrmin .. | .vrmax .. | .vfradd .. | .vfrmax .. | .vperm .. | .vslide .. | .vbcast .. | .vext .. | .vins ..
  | .vcmpr .. | .vexpd .. | .vzip .. | .vunzip .. | .viota .. | .qcnt .. =>
      runVec_safe ..
  | .qand .. | .qor .. | .qxor .. | .qnot .. => by
      simp only [exec_qand, exec_qor, exec_qxor, exec_qnot]
      exact runVec_safe ..
  | .cxsave .. | .cxload .. | .kill .. | .krevoke .. => runPriv_safe ..
  | .loop .. | .rett .. => runFree_safe ..
  | .texit .. => runEnd_safe ..
  | .srd .. => execSrd_safe ..
  | .swr .. => execSwr_safe ..
  | .halt .. | .wearSample .. | .thermalStep .. => .ite (.next _) (.ite (.next _) (.next _))
  | .ill .. | .cbdataWrite .. | .cbdataRead .. | .scrubcfWrite .. | .migrationStart .. | .h2dSnoop ..
  | .matrixExecute .. | .rotationStart .. | .cfreeRetry .. | .refusalRetryTimer .. | .orphanFlit .. | .moduleReset .. =>
      .next _
  | .homeRds .. | .homeOwn .. | .homeMergeFill .. | .homeAtomic .. | .shmcfWrite .. => runEvent_safe ..
  | .modSet .. | .partCreate .. | .partDissolve .. | .keyLoad .. | .keyRevoke .. | .energySet .. | .fnEnable ..
  | .retire .. | .logRead .. =>
      State.command_safe ..
  | .registerWrite .. => .ite (.next _) (.ite (runEvent_safe ..) (.next _))
  | .windowEnable .. | .windowDisable .. | .scrubLine .. | .ucieFlitReplay .. | .ucieLinkDegrade .. | .parkRetry ..
  | .parkFail .. | .apcfClear .. | .clusterRecall .. | .l1ParityError .. | .cmlayWrite .. | .feWaitSatisfied ..
  | .waitaWake .. | .ceresRetry .. | .ceresFail .. | .exportDisable .. | .exportEnable .. | .importEnable ..
  | .oslotWrite .. | .opticalStart .. | .slotWindowClose .. | .opticalAck .. | .fibreLoss .. | .timeLockLoss ..
  | .panelSnapshot .. | .lateFaultTake .. | .coreFailure .. =>
      .ite (.next _) (.next _)
  | .xinvPage .. | .xinvAsid .. | .xinvAll .. | .xinvReserved .. => .ite (runEvent_safe ..) (.next _)
  | .hostMemrd .. | .hostMemrddata .. => State.hostRead_safe ..
  | .hostMeminv .. => by
      rw [exec_hostMeminv]
      exact State.hostRead_safe ..
  | .hostMemwr .. | .hostMemwrptl .. => State.hostWrite_safe ..
  | .opticalFlitReceive .. => .ite (.next _) (.ite (.next _) (.ite (.next _) (.ite (.next _) (.next _))))
  | .timeLockRegain .. => .ite (.next _) (.ite (.next _) (.ite (.next _) (.next _)))
  | .saddlebagWake .. => .ite (.ite (.next _) (.next _)) (.next _)
  | .forcedSave .. => .ite (runEvent_safe ..) (.ite (.next _) (.next _))
  | .remargin .. => .ite (.next _) (State.command_safe ..)
  | .rimRequest .. => execRimRequest_safe ..
  | .pageWalkDone .. => execPageWalkDone_safe ..
  | .faultMessageDeliver .. => execFaultMessageDeliver_safe ..
  | .hbmReadComplete .. => execHbmReadComplete_safe ..
  | .xinvComplete .. => execXinvComplete_safe ..
  | .parkTimeoutSave .. => execParkTimeoutSave_safe ..
  | .migrationRoundEnd .. => execMigrationRoundEnd_safe ..
  | .migrationComplete .. => execMigrationComplete_safe ..
  | .homeEviction .. => execHomeEviction_safe ..
  | .readFillReply .. => execReadFillReply_safe ..
  | .mergeFillArrive .. => execMergeFillArrive_safe ..
  | .tilePushInstall .. => execTilePushInstall_safe ..
  | .l2Eviction .. => execL2Eviction_safe ..
  | .l2StorePerform .. => execL2StorePerform_safe ..
  | .sramEccError .. => execSramEccError_safe ..
  | .birsp .. => execBirsp_safe ..
  | .biTimeout .. => execBiTimeout_safe ..
  | .cxlCacheResponse .. => execCxlCacheResponse_safe ..
  | .hostBarWrite .. => execHostBarWrite_safe ..
  | .gatewayLoad .. => execGatewayLoad_safe ..
  | .gatewayStore .. => execGatewayStore_safe ..
  | .gatewayAtomic .. => execGatewayAtomic_safe ..
  | .peerAccess .. => execPeerAccess_safe ..
  | .recordStart .. => execRecordStart_safe ..
  | .recordElement .. => execRecordElement_safe ..
  | .chainNextRecord .. => execChainNextRecord_safe ..
  | .recordComplete .. => execRecordComplete_safe ..
  | .copyErrorMessage .. => execCopyErrorMessage_safe ..
  | .bankReduce .. => execBankReduce_safe ..
  | .statusWriteback .. => execStatusWriteback_safe ..
  | .tileReply .. => execTileReply_safe ..
  | .mbcastComplete .. => execMbcastComplete_safe ..
  | .putLand .. => execPutLand_safe ..
  | .putComplete .. => execPutComplete_safe ..
  | .ramoExecute .. => execRamoExecute_safe ..
  | .ramoReply .. => execRamoReply_safe ..
  | .importRequest .. => execImportRequest_safe ..
  | .importReply .. => execImportReply_safe ..
  | .importTimeout .. => execImportTimeout_safe ..
  | .slotWindowOpen .. => execSlotWindowOpen_safe ..
  | .launchRecordRead .. => execLaunchRecordRead_safe ..
  | .groupPlace .. => execGroupPlace_safe ..
  | .gangStart .. => execGangStart_safe ..
  | .starveTimeout .. => execStarveTimeout_safe ..
  | .preemptRequest .. => execPreemptRequest_safe ..
  | .spanReport .. => execSpanReport_safe ..
  | .launchComplete .. => execLaunchComplete_safe ..
  | .graphNodeEnd .. => execGraphNodeEnd_safe ..
  | .contextSelect .. => execContextSelect_safe ..
  | .contextRestore .. => execContextRestore_safe ..
  | .messageArrive .. => execMessageArrive_safe ..
  | .messageReturn .. => execMessageReturn_safe ..
  | .reinEvaluate .. => execReinEvaluate_safe ..
  | .panelMove .. => execPanelMove_safe ..
  | .barrierArrival .. => execBarrierArrival_safe ..
  | .barrierRelease .. => execBarrierRelease_safe ..
  | .energyWindow .. => execEnergyWindow_safe ..
  | .energyCount .. => execEnergyCount_safe ..
  | .killComplete .. => execKillComplete_safe ..
  | .revokeComplete .. => execRevokeComplete_safe ..

end Sys2Proof.Machine
end

section
/-! A step from a context of the module answers a next state, with a context of the module again (R10, R175). -/

namespace Sys2Proof.Machine

/-! ## The surroundings of an instruction (R171, R173, R177) -/

theorem State.afterWindow_safe {s : State} {o : Out} (ho : Safe o) : Safe (s.afterWindow o) := .ite (.next _) ho

theorem State.conclude_safe (s t : State) (i : Instr) (h : Hdr) (olds : List (RegRef × VWord)) :
    Safe (s.conclude t i h olds) :=
  .ite (.ite (.next _) (State.afterWindow_safe (.next _))) (.ite (.next _) (.next _))

theorem issue_safe (i : Instr) (s : State) : Safe (issue exec i s) := by
  unfold issue
  dsimp only
  split
  · exact exec_safe i s
  · refine .ite (State.afterWindow_safe (exec_safe i s)) (.ite (State.afterWindow_safe (.next _)) (.ite (.next _) ?_))
    split
    · exact State.afterWindow_safe (.next _)
    · refine .ite (exec_safe i s) ?_
      split
      · exact State.conclude_safe ..
      · exact exec_safe i _

theorem runNext_safe (s : State) : Safe (runNext exec s) := by
  unfold runNext
  split
  · exact State.afterWindow_safe (.next _)
  · exact .next _
  · exact State.afterWindow_safe (.next _)
  · exact .next _
  · split
    · exact State.afterWindow_safe (.next _)
    · exact issue_safe ..

theorem State.yieldNow_safe (s : State) (c : Nat) : Safe (s.yieldNow c) :=
  .ite (.ite (.next _) (.next _)) (.ite (.next _) (.next _))

/-! ## The context that issues next -/

theorem State.readyList_lt {s : State} {c : Nat} (mem : c ∈ s.readyList) : c < numCtxs := by
  obtain ⟨x, hx, rfl⟩ := List.mem_map.1 mem
  have ready := (List.mem_filter.1 hx).2
  simp only [Bool.and_eq_true, decide_eq_true_eq] at ready
  exact ready.1

/-- The hardware chooses a ready context of the module, or stays with the one that has issued. -/
theorem State.plan_inv (s : State) {c : Nat} (hc : c < numCtxs) : (s.plan c).Inv := by
  show (s.readyList[_]?).getD c < numCtxs
  cases chosen : s.readyList[Config.schedule s.fresh % s.readyList.length]? with
  | none => exact hc
  | some d => exact State.readyList_lt (List.mem_of_getElem? chosen)

theorem State.planNext_inv (s : State) {c : Nat} (hc : c < numCtxs) : (s.planNext c).Inv := State.plan_inv _ hc

/-- A step goes on to a state that meets the invariant. -/
def Keeps (o : Out) : Prop := ∃ t, o = .next t ∧ t.Inv

theorem keeps_next {t : State} (ht : t.Inv) : Keeps (.next t) := ⟨t, rfl, ht⟩

theorem andPlan_keeps {c : Nat} {o : Out} (hc : c < numCtxs) (ho : Safe o) : Keeps (andPlan c o) := by
  obtain ⟨t, rfl⟩ := ho
  exact keeps_next (State.planNext_inv t hc)

theorem keepCur_keeps {c : Nat} {o : Out} (hc : c < numCtxs) (ho : Safe o) : Keeps (keepCur c o) := by
  obtain ⟨t, rfl⟩ := ho
  exact keeps_next hc

/-- Settles O51: whatever a step runs goes on, an event leaves the issuing context as it was, and every other step ends with
the choice of one of the module's. -/
theorem stepKeepsInv : Obligations.StepKeepsInv := by
  intro s inv
  have known : ¬ numCtxs ≤ s.cur := Nat.not_le.2 inv
  show Keeps (step s)
  unfold step
  rw [if_neg known]
  split
  case h_1 e rest _ => exact keepCur_keeps inv (exec_safe ..)
  case h_2 =>
    split
    · exact andPlan_keeps inv (runEvent_safe ..)
    · split
      · split
        · exact keeps_next (State.planNext_inv _ inv)
        · split
          · exact andPlan_keeps inv (State.yieldNow_safe ..)
          · split
            · exact andPlan_keeps inv (exec_safe (.forcedSave s.cur) _)
            · exact andPlan_keeps inv (runNext_safe _)
      · exact keeps_next (State.planNext_inv _ inv)

end Sys2Proof.Machine
end

section
/-! What Slagan's commands, its samples and the module's reset leave behind (R394 to R404). First folds, then what a record, a
change of wear and a wipe do to each table, then one command after another. -/

namespace Sys2Proof.Machine

/-! ## Folds: what every step keeps, what one step reaches, what one step changes -/

theorem foldl_frame {β α γ : Type} (view : β → γ) {op : β → α → β} {l : List α}
    (keep : ∀ s, ∀ a ∈ l, view (op s a) = view s) (s : β) : view (l.foldl op s) = view s :=
  l.foldlRecOn (motive := fun t => view t = view s) op rfl fun _ h a mem => (keep _ a mem).trans h

theorem foldl_reaches {β α : Type} {P : β → Prop} {op : β → α → β} {l : List α} {a : α} (mem : a ∈ l)
    (reach : ∀ s, P (op s a)) (keep : ∀ s b, P s → P (op s b)) (s : β) : P (l.foldl op s) := by
  obtain ⟨before, after, rfl⟩ := List.append_of_mem mem
  rw [List.foldl_append, List.foldl_cons]
  exact after.foldlRecOn op (reach _) fun s h b _ => keep s b h

theorem foldl_once {β α γ : Type} (view : β → γ) (change : γ → γ) {op : β → α → β} {l : List α} {a : α} (nodup : l.Nodup)
    (mem : a ∈ l) (hit : ∀ s, view (op s a) = change (view s)) (miss : ∀ s b, b ≠ a → view (op s b) = view s) (s : β) :
    view (l.foldl op s) = change (view s) := by
  obtain ⟨before, after, rfl⟩ := List.append_of_mem mem
  obtain ⟨-, tail, disjoint⟩ := List.nodup_append.1 nodup
  have early : ∀ b ∈ before, b ≠ a := fun b hb => disjoint b hb a (List.mem_cons_self ..)
  have late : ∀ b ∈ after, b ≠ a := fun b hb e => (List.nodup_cons.1 tail).1 (e ▸ hb)
  rw [List.foldl_append, List.foldl_cons, foldl_frame view fun s b hb => miss s b (late b hb), hit,
    foldl_frame view fun s b hb => miss s b (early b hb)]

/-! ## Maps whose values are all changed -/

theorem SMap.find_map {α : Type} {f : Nat × α → Nat × α} (key : ∀ x, (f x).1 = x.1) (m : SMap α) (k : Nat) :
    SMap.find? (m.map f) k = (SMap.find? m k).map fun v => (f (k, v)).2 := by
  induction m with
  | nil => rfl
  | cons x t ih =>
    obtain ⟨j, v⟩ := x
    have hj : (f (j, v)).1 = j := key (j, v)
    by_cases e : j = k
    · subst e
      simp [SMap.find?, hj]
    · simp [SMap.find?, hj, e, ih]

theorem SMap.get_map {α : Type} {f : Nat × α → Nat × α} (key : ∀ x, (f x).1 = x.1) (m : SMap α) (k : Nat) {d : α}
    (fixed : (f (k, d)).2 = d) : SMap.get (m.map f) k d = (f (k, SMap.get m k d)).2 := by
  unfold SMap.get
  rw [SMap.find_map key]
  cases SMap.find? m k with
  | none => exact fixed.symm
  | some v => rfl

theorem SMap.find_del_self {α : Type} (m : SMap α) (k : Nat) : SMap.find? (SMap.del m k) k = none := by
  induction m with
  | nil => rfl
  | cons x t ih =>
    obtain ⟨j, v⟩ := x
    by_cases e : j = k
    · simpa [SMap.del, e] using ih
    · simpa [SMap.del, e, SMap.find?] using ih

/-! ## A change of one field, a record, a change of wear, a wipe -/

/-- What the parts of a command leave as it was, unless the command is about it: what was sent, the commands that wait, the
partitions, the kernel's address, the lock, and the fields that a REMARGIN has stopped. -/
def State.ledger (s : State) : List OutMsg × List SlCmd × SMap Part × Word × Bool × BitVec 16 :=
  (s.out, s.cmds, s.parts, s.kernelPc, s.locked, s.stopped)

theorem State.ledger_eq {s t : State} (h : t.ledger = s.ledger) : t.out = s.out ∧ t.cmds = s.cmds ∧ t.parts = s.parts ∧
    t.kernelPc = s.kernelPc ∧ t.locked = s.locked ∧ t.stopped = s.stopped := by
  simpa [State.ledger] using h

@[simp] theorem State.answer_out (s : State) (via : Via) (st : SlStatus) (info : List Nat) :
    (s.answer via st info).out = s.out ++ [.slagan via st info] := rfl
@[simp] theorem State.answer_core (s : State) (via : Via) (st : SlStatus) (info : List Nat) (k : Nat) :
    (s.answer via st info).core k = s.core k := rfl
@[simp] theorem State.answer_cluster (s : State) (via : Via) (st : SlStatus) (info : List Nat) (cl : Nat) :
    (s.answer via st info).cluster cl = s.cluster cl := rfl
@[simp] theorem State.answer_field (s : State) (via : Via) (st : SlStatus) (info : List Nat) (f : Nat) :
    (s.answer via st info).field f = s.field f := rfl

theorem State.modField_field_eq {γ : Type} (view : Field → γ) {h : Field → Field} (keep : ∀ x, view (h x) = view x) (s : State)
    (f g : Nat) : view ((s.modField f h).field g) = view (s.field g) := by
  by_cases e : g = f
  · subst e
    rw [State.modField_field, keep]
  · exact congrArg view (State.setField_field_ne s f g _ e)

@[simp] theorem State.logErr_ledger (s : State) (f : Nat) (cls : ErrCls) (a : ErrAt) :
    (s.logErr f cls a).ledger = s.ledger := rfl
@[simp] theorem State.logErr_ctxs (s : State) (f : Nat) (cls : ErrCls) (a : ErrAt) : (s.logErr f cls a).ctxs = s.ctxs := rfl
@[simp] theorem State.logErr_cluster (s : State) (f : Nat) (cls : ErrCls) (a : ErrAt) (cl : Nat) :
    (s.logErr f cls a).cluster cl = s.cluster cl := rfl

/-- A record changes nothing of a field but its log. -/
theorem State.logErr_field_eq {γ : Type} (view : Field → γ)
    (keep : ∀ (x : Field) l n, view { x with log := l, logCount := n } = view x) (s : State) (f : Nat) (cls : ErrCls)
    (a : ErrAt) (g : Nat) : view ((s.logErr f cls a).field g) = view (s.field g) := by
  refine State.modField_field_eq view (fun x => ?_) { s with slog := _ } f g
  split
  · exact keep x _ x.logCount
  · exact keep x _ _

@[simp] theorem State.setWear_ledger (s : State) (cl : Nat) (w : Wear) : (s.setWear cl w).ledger = s.ledger := by
  unfold State.setWear
  split <;> rfl

@[simp] theorem State.setWear_core (s : State) (cl : Nat) (w : Wear) (k : Nat) : (s.setWear cl w).core k = s.core k := by
  unfold State.setWear
  split <;> rfl

theorem State.setWear_cluster (s : State) (cl : Nat) (w : Wear) :
    (s.setWear cl w).cluster cl = { s.cluster cl with wear := w } := by
  unfold State.setWear
  split
  case isTrue same => rw [← same]
  case isFalse => rw [State.logErr_cluster, State.modCluster_cluster]

theorem State.setWear_cluster_ne (s : State) {cl d : Nat} (w : Wear) (ne : d ≠ cl) :
    (s.setWear cl w).cluster d = s.cluster d := by
  unfold State.setWear
  split
  · rfl
  · exact State.setCluster_cluster_ne s cl d _ ne

theorem State.setWear_inReset (s : State) (cl : Nat) (w : Wear) (g : Nat) :
    ((s.setWear cl w).field g).inReset = (s.field g).inReset := by
  unfold State.setWear
  split
  · rfl
  · exact State.logErr_field_eq Field.inReset (fun _ _ _ => rfl) (s.modCluster cl _) ..

@[simp] theorem State.wipe_ledger (s : State) (fs : List Nat) : (s.wipe fs).ledger = s.ledger := rfl

theorem State.wipe_field (s : State) {fs : List Nat} {g : Nat} (mem : g ∈ fs) :
    ((s.wipe fs).field g).inReset = true ∧ ((s.wipe fs).field g).keys = [] := by
  have listed : inList g fs = true := by simpa [inList] using mem
  unfold State.field State.wipe SMap.get
  dsimp only
  rw [SMap.find_map fun x => by split <;> rfl]
  cases SMap.find? s.fields g with
  | none => exact ⟨rfl, rfl⟩
  | some x =>
    rw [Option.map_some, if_pos listed]
    exact ⟨rfl, rfl⟩

theorem State.wipe_field_ne (s : State) {fs : List Nat} {g : Nat} (out : g ∉ fs) : (s.wipe fs).field g = s.field g := by
  have unlisted : ¬ inList g fs = true := by simpa [inList] using out
  refine (SMap.get_map (fun x => by split <;> rfl) s.fields g ?_).trans ?_
  · rw [if_neg unlisted]
  · rw [if_neg unlisted]; rfl

theorem State.wipe_cluster (s : State) (fs : List Nat) (cl : Nat) :
    (s.wipe fs).cluster cl = if inList (fieldOfCl cl) fs then (s.cluster cl).wiped else s.cluster cl := by
  refine (SMap.get_map (fun x => by split <;> rfl) s.clusters cl ?_).trans ?_
  · split <;> rfl
  · split <;> rfl

/-! ## Lives and sweeps (R401, R402) -/

theorem toNat_ofNat_min (n : Nat) : (BitVec.ofNat 16 (min n 0xFFFF)).toNat = min n 0xFFFF := by
  rw [BitVec.toNat_ofNat]
  omega

theorem ofNat_min_toNat (m : BitVec 16) : BitVec.ofNat 16 (min m.toNat 0xFFFF) = m := by
  apply BitVec.eq_of_toNat_eq
  rw [toNat_ofNat_min]
  omega

@[simp] theorem State.setLife_ledger (s : State) (cl months : Nat) (sweep : Bool) :
    (s.setLife cl months sweep).ledger = s.ledger := State.setWear_ledger ..

theorem State.setLife_cluster (s : State) (cl months : Nat) (sweep : Bool) : (s.setLife cl months sweep).cluster cl =
    { s.cluster cl with months := BitVec.ofNat 16 (min months 0xFFFF), wear := Wear.predicted (s.cluster cl).wear months sweep } := by
  unfold State.setLife
  dsimp only
  rw [State.setWear_cluster, State.modCluster_cluster]

theorem State.setLife_cluster_ne (s : State) {cl d : Nat} (months : Nat) (sweep : Bool) (ne : d ≠ cl) :
    (s.setLife cl months sweep).cluster d = s.cluster d :=
  (State.setWear_cluster_ne _ _ ne).trans (State.setCluster_cluster_ne s cl d _ ne)

theorem State.setLife_inReset (s : State) (cl months : Nat) (sweep : Bool) (g : Nat) :
    ((s.setLife cl months sweep).field g).inReset = (s.field g).inReset := State.setWear_inReset ..

/-- What a prediction concerns of a cluster. -/
def Cluster.life (c : Cluster) : BitVec 16 × Wear := (c.months, c.wear)

/-- A sweep judges a cluster by its latest prediction, which stays. -/
def sweptLife (x : BitVec 16 × Wear) : BitVec 16 × Wear := (x.1, Wear.predicted x.2 x.1.toNat true)

theorem Wear.predicted_sweep (w : Wear) (months : Nat) : Wear.predicted w months true =
    if w = .retired then .retired else if w = .out ∨ months < 1 then .out else if months < 6 then .derated else w := by
  cases w <;> simp [Wear.predicted]

theorem State.setLife_life (s : State) (cl : Nat) :
    ((s.setLife cl (s.cluster cl).months.toNat true).cluster cl).life = sweptLife (s.cluster cl).life := by
  rw [State.setLife_cluster, ofNat_min_toNat]
  rfl

theorem State.wipe_life (s : State) (fs : List Nat) (cl : Nat) : ((s.wipe fs).cluster cl).life = (s.cluster cl).life := by
  rw [State.wipe_cluster]
  split <;> rfl

/-- The clusters of a field, judged one after another: the first half of its sweep. -/
def State.judge (s : State) (f : Nat) : State :=
  (List.range 40).foldl (fun s n => s.setLife (f * 40 + n) ((s.cluster (f * 40 + n)).months).toNat true) s

theorem State.sweep_passed {passed : BitVec 16} {f : Nat} (pass : passed.getLsbD f = true) (s : State) :
    s.sweep passed f = s.judge f := if_pos pass

theorem State.sweep_failed {passed : BitVec 16} {f : Nat} (fail : passed.getLsbD f = false) (s : State) :
    s.sweep passed f = ((s.judge f).wipe [f]).logErr f .core { kind := 2, loc := locator (supervisor f) } :=
  if_neg (by simp [fail])

theorem State.judge_ledger (s : State) (f : Nat) : (s.judge f).ledger = s.ledger :=
  foldl_frame State.ledger (fun _ _ _ => State.setLife_ledger ..) s

theorem State.judge_inReset (s : State) (f g : Nat) : ((s.judge f).field g).inReset = (s.field g).inReset :=
  foldl_frame (fun s : State => (s.field g).inReset) (fun _ _ _ => State.setLife_inReset ..) s

theorem State.judge_life (s : State) (cl : Nat) :
    ((s.judge (fieldOfCl cl)).cluster cl).life = sweptLife (s.cluster cl).life := by
  have place : fieldOfCl cl * 40 + cl % 40 = cl := by unfold fieldOfCl; omega
  refine foldl_once (fun s : State => (s.cluster cl).life) sweptLife (a := cl % 40) List.nodup_range
    (List.mem_range.2 (Nat.mod_lt _ (by decide))) (fun s => ?_) (fun s n ne => ?_) s
  · rw [place, State.setLife_life]
  · rw [State.setLife_cluster_ne _ _ _ (by omega)]

theorem State.judge_cluster_ne (s : State) {f cl : Nat} (ne : fieldOfCl cl ≠ f) : (s.judge f).cluster cl = s.cluster cl := by
  refine foldl_frame (fun s : State => s.cluster cl) (fun s n mem => State.setLife_cluster_ne _ _ _ ?_) s
  have := List.mem_range.1 mem
  unfold fieldOfCl at ne
  omega

theorem State.sweep_ledger (s : State) (passed : BitVec 16) (f : Nat) : (s.sweep passed f).ledger = s.ledger := by
  cases test : passed.getLsbD f with
  | true => rw [State.sweep_passed test, State.judge_ledger]
  | false => rw [State.sweep_failed test, State.logErr_ledger, State.wipe_ledger, State.judge_ledger]

theorem State.sweep_life (s : State) (passed : BitVec 16) (cl : Nat) :
    ((s.sweep passed (fieldOfCl cl)).cluster cl).life = sweptLife (s.cluster cl).life := by
  cases test : passed.getLsbD (fieldOfCl cl) with
  | true => rw [State.sweep_passed test, State.judge_life]
  | false => rw [State.sweep_failed test, State.logErr_cluster, State.wipe_life, State.judge_life]

theorem State.sweep_cluster_ne (s : State) (passed : BitVec 16) {f cl : Nat} (ne : fieldOfCl cl ≠ f) :
    (s.sweep passed f).cluster cl = s.cluster cl := by
  cases test : passed.getLsbD f with
  | true => rw [State.sweep_passed test, State.judge_cluster_ne s ne]
  | false =>
    rw [State.sweep_failed test, State.logErr_cluster, State.wipe_cluster, if_neg (by simpa [inList] using ne),
      State.judge_cluster_ne s ne]

theorem State.sweep_failed_inReset (s : State) {passed : BitVec 16} {f : Nat} (fail : passed.getLsbD f = false) :
    ((s.sweep passed f).field f).inReset = true := by
  rw [State.sweep_failed fail, State.logErr_field_eq Field.inReset fun _ _ _ => rfl]
  exact (State.wipe_field _ (List.mem_singleton_self f)).1

theorem State.sweep_keeps_inReset (s : State) (passed : BitVec 16) (f g : Nat) (held : (s.field g).inReset = true) :
    ((s.sweep passed f).field g).inReset = true := by
  have judged : ((s.judge f).field g).inReset = true := (State.judge_inReset s f g).trans held
  cases test : passed.getLsbD f with
  | true => simpa only [State.sweep_passed test] using judged
  | false =>
    by_cases e : g = f
    · subst e
      exact State.sweep_failed_inReset s test
    · rw [State.sweep_failed test, State.logErr_field_eq Field.inReset fun _ _ _ => rfl,
        State.wipe_field_ne _ (by simpa using e)]
      exact judged

/-! ## REMARGIN at a quiet set of fields (R402) -/

/-- The predictions that a REMARGIN brings, for the clusters of its fields. -/
def State.noteLives (s : State) (lives : List (Nat × Nat)) : State :=
  lives.foldl (fun s x => s.modCluster x.1 fun c => { c with months := BitVec.ofNat 16 (min x.2 0xFFFF) }) s

/-- The predictions among them that its fields concern. -/
def livesIn (mask : BitVec 16) (lives : List (Nat × Nat)) : List (Nat × Nat) :=
  lives.filter fun x => decide (x.1 < 640) && mask.getLsbD (fieldOfCl x.1)

/-- The sweeps of a REMARGIN's fields. -/
def State.sweeps (s : State) (mask passed : BitVec 16) : State := (maskFields mask).foldl (fun s f => s.sweep passed f) s

/-- The clusters whose state differs between two states. -/
def wearChanges (s t : State) : List Nat := (List.range 640).filter fun cl => (t.cluster cl).wear != (s.cluster cl).wear

theorem State.remargin_eq (s : State) (via : Via) (mask passed : BitVec 16) (lives : List (Nat × Nat)) :
    let t := (s.noteLives (livesIn mask lives)).sweeps mask passed
    s.remargin via mask passed lives = ({ t with stopped := 0 } : State).answer via .done (wearChanges s t) := rfl

theorem mem_wearChanges {s t : State} {cl : Nat} (lt : cl < 640) :
    cl ∈ wearChanges s t ↔ (t.cluster cl).wear ≠ (s.cluster cl).wear := by
  simp [wearChanges, lt]

theorem mem_maskFields {mask : BitVec 16} {f : Nat} : f ∈ maskFields mask ↔ f < 16 ∧ mask.getLsbD f = true := by
  simp [maskFields]

theorem State.noteLives_ledger (s : State) (lives : List (Nat × Nat)) : (s.noteLives lives).ledger = s.ledger :=
  foldl_frame State.ledger (by intros; rfl) s

theorem State.noteLives_wear (s : State) (lives : List (Nat × Nat)) (cl : Nat) :
    ((s.noteLives lives).cluster cl).wear = (s.cluster cl).wear := by
  refine foldl_frame (fun s : State => (s.cluster cl).wear) (fun s x _ => ?_) s
  by_cases e : cl = x.1
  · rw [e, State.modCluster_cluster]
  · exact congrArg Cluster.wear (State.setCluster_cluster_ne s x.1 cl _ e)

theorem State.noteLives_cluster_ne (s : State) {mask : BitVec 16} (lives : List (Nat × Nat)) {cl : Nat}
    (out : mask.getLsbD (fieldOfCl cl) = false) : (s.noteLives (livesIn mask lives)).cluster cl = s.cluster cl := by
  refine foldl_frame (fun s : State => s.cluster cl) (fun s x mem => State.setCluster_cluster_ne s x.1 cl _ ?_) s
  rintro rfl
  simp [livesIn, out] at mem

theorem State.sweeps_ledger (s : State) (mask passed : BitVec 16) : (s.sweeps mask passed).ledger = s.ledger :=
  foldl_frame State.ledger (fun _ _ _ => State.sweep_ledger ..) s

theorem State.sweeps_life (s : State) {mask : BitVec 16} (passed : BitVec 16) {cl : Nat} (lt : cl < 640)
    (mem : mask.getLsbD (fieldOfCl cl) = true) : ((s.sweeps mask passed).cluster cl).life = sweptLife (s.cluster cl).life := by
  have swept : fieldOfCl cl ∈ maskFields mask := mem_maskFields.2 ⟨by unfold fieldOfCl; omega, mem⟩
  exact foldl_once (fun s : State => (s.cluster cl).life) sweptLife (List.nodup_range.filter _) swept
    (fun s => State.sweep_life s passed cl) (fun s f ne => congrArg Cluster.life (State.sweep_cluster_ne s passed ne.symm)) s

theorem State.sweeps_cluster_ne (s : State) {mask : BitVec 16} (passed : BitVec 16) {cl : Nat}
    (out : mask.getLsbD (fieldOfCl cl) = false) : (s.sweeps mask passed).cluster cl = s.cluster cl := by
  refine foldl_frame (fun s : State => s.cluster cl) (fun s f mem => State.sweep_cluster_ne s passed ?_) s
  rintro rfl
  simp [(mem_maskFields.1 mem).2] at out

theorem State.sweeps_inReset (s : State) {mask passed : BitVec 16} {g : Nat} (lt : g < 16) (mem : mask.getLsbD g = true)
    (fail : passed.getLsbD g = false) : ((s.sweeps mask passed).field g).inReset = true :=
  foldl_reaches (P := fun s : State => (s.field g).inReset = true) (mem_maskFields.2 ⟨lt, mem⟩)
    (fun s => State.sweep_failed_inReset s fail) (fun s f => State.sweep_keeps_inReset s passed f g) s

theorem State.noteLives_months (s : State) {mask : BitVec 16} {cl : Nat} (lt : cl < 640)
    (mem : mask.getLsbD (fieldOfCl cl) = true) (mo : Nat) :
    ((s.noteLives (livesIn mask [(cl, mo)])).cluster cl).months = BitVec.ofNat 16 (min mo 0xFFFF) := by
  have one : livesIn mask [(cl, mo)] = [(cl, mo)] := by simp [livesIn, lt, mem]
  rw [one, State.noteLives, List.foldl_cons, List.foldl_nil, State.modCluster_cluster]

theorem State.noteLives_sweeps_ledger (s : State) (mask passed : BitVec 16) (lives : List (Nat × Nat)) :
    ((s.noteLives (livesIn mask lives)).sweeps mask passed).ledger = s.ledger := by
  rw [State.sweeps_ledger, State.noteLives_ledger]

end Sys2Proof.Machine
end

section
/-! Slagan's other commands, one after another, and the steps that are no command. -/

namespace Sys2Proof.Machine

/-! ## How a command arrives (R394) -/

theorem State.command_idle {s : State} (idle : s.stopped = 0) (c : SlCmd) : s.command c = .next (s.obey c) := by
  unfold State.command
  rw [if_neg (by simp [idle])]

theorem State.command_waits {s : State} (busy : s.stopped ≠ 0) (c : SlCmd) :
    s.command c = .next { s with cmds := s.cmds ++ [c] } := by
  unfold State.command
  rw [if_pos busy]

theorem State.ownCommand_ok {s : State} {via : Via} {part : Nat} {p : Part} (may : s.mayCommand via part = true)
    (known : SMap.find? s.parts part = some p) (act : State → Part → State) : s.ownCommand via part act = act s p := by
  unfold State.ownCommand
  rw [if_neg (by simp [may]), known]

theorem State.obey_keyLoad {s : State} {via : Via} {part : Nat} {p : Part} (may : s.mayCommand via part = true)
    (known : SMap.find? s.parts part = some p) (key : Nat) (data tweak tag : BitVec 256) :
    s.obey (.keyLoad via part key data tweak tag) = s.keyLoad via part p key data tweak tag :=
  State.ownCommand_ok may known fun s p => s.keyLoad via part p key data tweak tag

theorem State.obey_keyRevoke {s : State} {via : Via} {part : Nat} {p : Part} (may : s.mayCommand via part = true)
    (known : SMap.find? s.parts part = some p) (key : Nat) :
    s.obey (.keyRevoke via part key) = s.keyRevoke via part p key :=
  State.ownCommand_ok may known fun s p => s.keyRevoke via part p key

theorem State.obey_logRead {s : State} {via : Via} {part : Nat} {p : Part} (may : s.mayCommand via part = true)
    (known : SMap.find? s.parts part = some p) : s.obey (.logRead via part) = s.logRead via part :=
  State.ownCommand_ok may known fun s _ => s.logRead via part

/-! ## MOD_SET, PART_CREATE and PART_DISSOLVE (R19, R20, R307, R322, R395) -/

theorem Field.setReg_reg (f : Field) (num : Nat) (v : Word) : (f.setReg num v).reg num = v := SMap.get_put_self ..

theorem State.modSet_ok (s : State) (via : Via) {num : BitVec 16} (gm : Bool) (low : num ≠ 0) (high : num ≠ 0xFFFF) :
    (s.modSet via num gm).modId = num.toNat ∧ (s.modSet via num gm).gm = gm ∧
      (s.modSet via num gm).out = s.out ++ [.slagan via .done []] := by
  have ok : ¬ (num = 0 ∨ num = 0xFFFF) := not_or.2 ⟨low, high⟩
  unfold State.modSet
  rw [if_neg ok]
  refine ⟨?_, rfl, rfl⟩
  have register : ((s.modField 0 fun f => f.setReg 0xA00 (num.setWidth 64)).field 0).reg 0xA00 = num.setWidth 64 := by
    rw [State.modField_field, Field.setReg_reg]
  unfold State.modId
  refine (congrArg (fun w => bits w 0 16) register).trans ?_
  simp only [bits, BitVec.toNat_setWidth]
  omega

theorem State.bringUp_ledger (s : State) (passed : BitVec 16) (f : Nat) : (s.bringUp passed f).ledger = s.ledger := by
  unfold State.bringUp
  split <;> rfl

theorem State.bringUp_passed (s : State) {passed : BitVec 16} {f : Nat} (pass : passed.getLsbD f = true) :
    ((s.bringUp passed f).field f).inReset = false := by
  unfold State.bringUp
  rw [if_pos pass, State.modField_field]

theorem State.bringUp_keeps_up (s : State) (passed : BitVec 16) (f g : Nat) (up : (s.field g).inReset = false) :
    ((s.bringUp passed f).field g).inReset = false := by
  cases test : passed.getLsbD f with
  | true =>
    by_cases e : g = f
    · subst e
      exact State.bringUp_passed s test
    · unfold State.bringUp
      rw [if_pos test]
      exact (congrArg Field.inReset (State.setField_field_ne s f g _ e)).trans up
  | false =>
    unfold State.bringUp
    rw [if_neg (by simp [test]), State.logErr_field_eq Field.inReset fun _ _ _ => rfl]
    exact up

/-- A partition as PART_CREATE makes it. -/
def newPart (s : State) (fx0 fx1 fy0 fy1 : Nat) : Part :=
  { fx0 := fx0, fx1 := fx1, fy0 := fy0, fy1 := fy1, fields := rectFields fx0 fx1 fy0 fy1, allow := 0, used := 0, commit := 0
    window := s.ns / 1000000, eovr := 0 }

theorem State.createPart_ok {s : State} (via : Via) {fx0 fx1 fy0 fy1 n : Nat} {mask : BitVec 16} (passed : BitVec 16)
    (ok : s.partOk fx0 fx1 fy0 fy1 mask = true)
    (free : ((List.range 8).find? fun n => (SMap.find? s.parts n).isNone) = some n) :
    let t := s.createPart via fx0 fx1 fy0 fy1 mask passed
    t.out = s.out ++ [.slagan via .done [n]] ∧ SMap.find? t.parts n = some (newPart s fx0 fx1 fy0 fy1) ∧
      ∀ g ∈ rectFields fx0 fx1 fy0 fy1, passed.getLsbD g = true → (t.field g).inReset = false := by
  let u : State := { s with parts := SMap.put s.parts n (newPart s fx0 fx1 fy0 fy1) }
  let t := (rectFields fx0 fx1 fy0 fy1).foldl (fun (s : State) f => s.bringUp passed f) u
  have run : s.createPart via fx0 fx1 fy0 fy1 mask passed = t.answer via .done [n] := by
    unfold State.createPart
    rw [free]
    exact if_neg (by simp [ok])
  obtain ⟨out, -, parts, -⟩ := State.ledger_eq (foldl_frame State.ledger (fun _ _ _ => State.bringUp_ledger ..) u : t.ledger = _)
  rw [run]
  refine ⟨?_, ?_, fun g mem pass => ?_⟩
  · rw [State.answer_out, out]
  · show SMap.find? t.parts n = _
    rw [parts, SMap.find_put_self]
  · exact foldl_reaches (P := fun s : State => (s.field g).inReset = false) mem (fun s => State.bringUp_passed s pass)
      (fun s f => State.bringUp_keeps_up s passed f g) u

theorem State.dissolve_ok {s : State} (via : Via) {part : Nat} {p : Part} (known : SMap.find? s.parts part = some p) :
    let t := s.dissolve via part
    t.out = s.out ++ [.slagan via .done []] ∧ SMap.find? t.parts part = none ∧
      ∀ g ∈ p.fields, (t.field g).inReset = true ∧ (t.field g).keys = [] := by
  unfold State.dissolve
  rw [known]
  exact ⟨rfl, SMap.find_del_self .., fun g mem => State.wipe_field s mem⟩

/-! ## Keys and kernels (R396, R404) -/

/-- The same slot of the fields of a partition is loaded. -/
def State.loadKeys (s : State) (fs : List Nat) (key : Nat) (data tweak tag : BitVec 256) : State :=
  fs.foldl (fun s f => s.modField f fun x => x.loadKey key data tweak tag) s

theorem Field.loadKey_slot (f : Field) (key : Nat) (data tweak tag : BitVec 256) :
    SMap.get (f.loadKey key data tweak tag).keys key {} = { st := .valid, data := data, tweak := tweak, tag := tag } :=
  SMap.get_put_self ..

theorem State.loadKeys_slot (s : State) {fs : List Nat} {g : Nat} (mem : g ∈ fs) (key : Nat) (data tweak tag : BitVec 256) :
    SMap.get ((s.loadKeys fs key data tweak tag).field g).keys key {} =
      { st := .valid, data := data, tweak := tweak, tag := tag } := by
  refine foldl_reaches (P := fun s : State => SMap.get (s.field g).keys key {} = _) mem (fun s => ?_) (fun s f held => ?_) s
  · rw [State.modField_field, Field.loadKey_slot]
  · by_cases e : g = f
    · subst e
      rw [State.modField_field, Field.loadKey_slot]
    · exact (congrArg (fun x : Field => SMap.get x.keys key {}) (State.setField_field_ne s f g _ e)).trans held

theorem State.loadKeys_inReset (s : State) (fs : List Nat) (key : Nat) (data tweak tag : BitVec 256) (g : Nat) :
    ((s.loadKeys fs key data tweak tag).field g).inReset = (s.field g).inReset :=
  foldl_frame (fun s : State => (s.field g).inReset)
    (fun s f _ => State.modField_field_eq Field.inReset (by intros; rfl) s f g) s

theorem State.loadKeys_ledger (s : State) (fs : List Nat) (key : Nat) (data tweak tag : BitVec 256) :
    (s.loadKeys fs key data tweak tag).ledger = s.ledger := foldl_frame State.ledger (by intros; rfl) s

theorem State.loadKeys_core (s : State) (fs : List Nat) (key : Nat) (data tweak tag : BitVec 256) (k : Nat) :
    (s.loadKeys fs key data tweak tag).core k = s.core k := foldl_frame (fun s : State => s.core k) (by intros; rfl) s

theorem State.startKernel_ledger (s : State) (f : Nat) : (s.startKernel f).ledger = s.ledger := by
  unfold State.startKernel
  dsimp only
  split <;> rfl

theorem State.startKernel_fields (s : State) (f : Nat) : (s.startKernel f).fields = s.fields := by
  unfold State.startKernel
  dsimp only
  split <;> rfl

theorem State.startKernel_cores (s : State) (f : Nat) : (s.startKernel f).cores = s.cores := by
  unfold State.startKernel
  dsimp only
  split <;> rfl

/-- The field kernel of a field stands at an address, ready to issue at field level. -/
def State.KernelAt (s : State) (g : Nat) (pc : Word) : Prop :=
  (s.ctx (supervisor g * 16 + 15)).st = .ready ∧ (s.ctx (supervisor g * 16 + 15)).lvl = true ∧
    (s.ctx (supervisor g * 16 + 15)).pc = pcField pc

/-- The supervisor core of a field works, and kernels start at an address. -/
def State.KernelReady (s : State) (g : Nat) (pc : Word) : Prop := (s.core (supervisor g)).retired = false ∧ s.kernelPc = pc

theorem State.startKernel_ready (s : State) (f g : Nat) (pc : Word) :
    (s.startKernel f).KernelReady g pc ↔ s.KernelReady g pc := by
  obtain ⟨-, -, -, address, -⟩ := State.ledger_eq (State.startKernel_ledger s f)
  unfold State.KernelReady State.core
  rw [State.startKernel_cores, address]

theorem State.startKernel_starts {s : State} {g : Nat} {pc : Word} (ready : s.KernelReady g pc) :
    (s.startKernel g).KernelAt g pc := by
  obtain ⟨works, rfl⟩ := ready
  unfold State.startKernel State.KernelAt
  rw [if_neg (by simp [works]), State.bump_ctx, State.modCtx_ctx]
  exact ⟨rfl, rfl, rfl⟩

theorem State.startKernel_keeps_at {s : State} {g : Nat} {pc : Word} (ready : s.KernelReady g pc) (at_ : s.KernelAt g pc)
    (f : Nat) : (s.startKernel f).KernelAt g pc := by
  by_cases e : f = g
  · exact e ▸ State.startKernel_starts (e ▸ ready)
  · have other : supervisor g * 16 + 15 ≠ supervisor f * 16 + 15 := by unfold supervisor; omega
    unfold State.startKernel
    dsimp only
    split
    · exact at_
    · unfold State.KernelAt
      rw [State.bump_ctx, State.modCtx, State.setCtx_ctx_ne _ _ _ _ other]
      exact at_

theorem State.startKernels_out_fields (s : State) (part : Nat) (p : Part) :
    (s.startKernels part p).out = s.out ∧ (s.startKernels part p).fields = s.fields := by
  unfold State.startKernels
  split
  · exact ⟨rfl, rfl⟩
  · obtain ⟨out, -⟩ := State.ledger_eq (foldl_frame State.ledger (fun _ _ _ => State.startKernel_ledger ..) _)
    exact ⟨out, foldl_frame State.fields (fun _ _ _ => State.startKernel_fields ..) _⟩

theorem State.startKernels_starts {s : State} (part : Nat) {p : Part} {g : Nat} {pc : Word} (first : p.begun = false)
    (mem : g ∈ p.fields) (up : (s.field g).inReset = false) (ready : s.KernelReady g pc) :
    (s.startKernels part p).KernelAt g pc := by
  let u : State := { s with parts := SMap.put s.parts part { p with begun := true } }
  let fs := p.fields.filter fun f => !(s.field f).inReset
  have run : s.startKernels part p = fs.foldl (fun s f => s.startKernel f) u := if_neg (by simp [first])
  have listed : g ∈ fs := List.mem_filter.2 ⟨mem, by simp [up]⟩
  have still : (fs.foldl (fun s f => s.startKernel f) u).KernelReady g pc :=
    (foldl_frame (fun s : State => s.KernelReady g pc) (fun s f _ => propext (s.startKernel_ready f g pc)) u).mpr ready
  rw [run]
  refine foldl_reaches (P := fun s : State => s.KernelReady g pc → s.KernelAt g pc) listed (fun s now => ?_)
    (fun s f held now => ?_) u still
  · exact State.startKernel_starts ((s.startKernel_ready g g pc).1 now)
  · have before := (s.startKernel_ready f g pc).1 now
    exact State.startKernel_keeps_at before (held before) f

/-- A key that a partition can take: its slot is VALID in every field, and at the first one the kernels start. -/
theorem State.keyLoad_ok {s : State} (via : Via) (part : Nat) {p : Part} {key : Nat} {data tweak : BitVec 256}
    (tag : BitVec 256) (lt : key < 256) (ne : data ≠ tweak)
    (free : ∀ g ∈ p.fields, (SMap.get (s.field g).keys key {}).st ≠ .valid ∧ (SMap.get (s.field g).keys key {}).st ≠ .revoking) :
    let t := s.keyLoad via part p key data tweak tag
    t.out = s.out ++ [.slagan via .done []] ∧ ∀ g ∈ p.fields,
      SMap.get (t.field g).keys key {} = { st := .valid, data := data, tweak := tweak, tag := tag } ∧
      (p.begun = false → (s.field g).inReset = false → (s.core (supervisor g)).retired = false → t.KernelAt g s.kernelPc) := by
  let u := s.loadKeys p.fields key data tweak tag
  have run : s.keyLoad via part p key data tweak tag = (u.startKernels part p).answer via .done := by
    unfold State.keyLoad
    rw [if_neg (not_or.2 ⟨Nat.not_le.2 lt, ne⟩), if_neg]
    · rfl
    · simpa using free
  obtain ⟨out, fields⟩ := u.startKernels_out_fields part p
  obtain ⟨loaded, -, -, address, -⟩ := State.ledger_eq (s.loadKeys_ledger p.fields key data tweak tag)
  rw [run]
  refine ⟨by rw [State.answer_out, out, loaded], fun g mem => ⟨?_, fun first up works => ?_⟩⟩
  · show SMap.get (SMap.get (u.startKernels part p).fields g {}).keys key {} = _
    rw [fields]
    exact State.loadKeys_slot s mem key data tweak tag
  · refine State.startKernels_starts part first mem ((s.loadKeys_inReset ..).trans up) ⟨?_, address⟩
    rw [State.loadKeys_core, works]

/-! ## ENERGY_SET and FN_ENABLE (R312, R398) -/

theorem State.energySet_ok {s : State} (via : Via) {part mj : Nat} {p : Part} (now : s.partNow part = some p)
    (fits : ((SMap.put s.parts part { p with allow := mj }).map fun x => x.2.allow).sum ≤ 16000) :
    s.energySet via part mj = ({ s with parts := SMap.put s.parts part { p with allow := mj } } : State).answer via .done := by
  unfold State.energySet
  rw [now]
  exact if_neg (Nat.not_lt.2 fits)

theorem State.fnEnable_ok {s : State} {via : Via} {part f : Nat} {p : Part} (may : s.mayCommand via part = true)
    (known : SMap.find? s.parts part = some p) (holds : s.partOf f = some part) :
    s.fnEnable via f = (s.modField f fun x => { x with contained := false }).answer via .done := by
  unfold State.fnEnable
  rw [holds]
  exact State.ownCommand_ok may known _

/-! ## RETIRE (R10, R385, R401) -/

theorem State.modCore_retired {h : Core → Core} (keep : ∀ c, (h c).retired = c.retired) (s : State) (j k : Nat) :
    ((s.modCore j h).core k).retired = (s.core k).retired := by
  by_cases e : k = j
  · subst e
    rw [State.modCore_core, keep]
  · exact congrArg Core.retired (State.setCore_core_ne s j k _ e)

theorem State.returnPorts_retired (s : State) (j k : Nat) : ((s.returnPorts j).core k).retired = (s.core k).retired := by
  by_cases e : k = j
  · subst e
    show (SMap.get (SMap.put s.cores k _) k {}).retired = _
    rw [SMap.get_put_self]
    rfl
  · exact congrArg Core.retired (SMap.get_put_ne s.cores j k _ {} e)

/-- Work that moves changes cores alone, and retires none. -/
theorem State.moveWork_frame {γ : Type} (view : State → γ)
    (keep : ∀ (s : State) (j : Nat) (h : Core → Core), (∀ c, (h c).retired = c.retired) → view (s.modCore j h) = view s)
    (s : State) (k : Nat) : view (s.moveWork k) = view s := by
  unfold State.moveWork
  dsimp only
  refine (keep _ _ _ ?_).trans ((foldl_frame view (fun s x _ => ?_) _).trans (foldl_frame view (fun s x _ => ?_) _))
  · exact fun _ => rfl
  all_goals
    split
    · rfl
    · refine keep _ _ _ ?_
      exact fun _ => rfl

theorem State.moveWork_retired (s : State) (j k : Nat) : ((s.moveWork j).core k).retired = (s.core k).retired :=
  State.moveWork_frame (fun s : State => (s.core k).retired) (fun s i _ keep => State.modCore_retired keep s i k) s j

/-- A core takes no more work: its messages come back and what waits at it moves. -/
def State.retireCore (s : State) (k : Nat) : State :=
  if (s.core k).retired then s else ((s.modCore k fun c => { c with retired := true }).returnPorts k).moveWork k

theorem State.retireCores_eq (s : State) (cl : Nat) : s.retireCores cl = (coresOf cl).foldl State.retireCore s := rfl

theorem State.retireCore_retired (s : State) (k : Nat) : ((s.retireCore k).core k).retired = true := by
  unfold State.retireCore
  split
  case isTrue gone => exact gone
  case isFalse => rw [State.moveWork_retired, State.returnPorts_retired, State.modCore_core]

theorem State.retireCore_keeps_retired (s : State) (j k : Nat) (gone : (s.core k).retired = true) :
    ((s.retireCore j).core k).retired = true := by
  by_cases e : k = j
  · exact e ▸ State.retireCore_retired s k
  · unfold State.retireCore
    split
    · exact gone
    · rw [State.moveWork_retired, State.returnPorts_retired]
      exact (congrArg Core.retired (State.setCore_core_ne s j k _ e)).trans gone

theorem State.retire_ok (s : State) (via : Via) {cl : Nat} (lt : cl < 640) :
    ((s.retire via cl).cluster cl).wear = .retired ∧ ∀ k ∈ coresOf cl, ((s.retire via cl).core k).retired = true := by
  have run : s.retire via cl = ((s.retireCores cl).setWear cl .retired).answer via .done := if_pos lt
  refine ⟨by rw [run, State.answer_cluster, State.setWear_cluster], fun k mem => ?_⟩
  rw [run, State.answer_core, State.setWear_core, State.retireCores_eq]
  exact foldl_reaches (P := fun s : State => (s.core k).retired = true) mem (fun s => State.retireCore_retired s k)
    (fun s j => State.retireCore_keeps_retired s j k) s

/-! ## REMARGIN, when it is quiet in its fields and when it is not (R402) -/

theorem State.remarginOn_quiet {s : State} {mask : BitVec 16} (named : mask ≠ 0) (whole : s.marginOk mask = true)
    (quiet : s.quiet mask = true) (via : Via) (passed : BitVec 16) (lives : List (Nat × Nat)) :
    s.remarginOn via mask passed lives = s.remargin via mask passed lives := by
  unfold State.remarginOn
  rw [if_neg (not_or.2 ⟨named, by simp [whole]⟩), if_pos quiet]

theorem State.remarginOn_busy {s : State} {mask : BitVec 16} (named : mask ≠ 0) (whole : s.marginOk mask = true)
    (busy : s.quiet mask = false) (via : Via) (passed : BitVec 16) (lives : List (Nat × Nat)) :
    s.remarginOn via mask passed lives = { s with stopped := mask } := by
  unfold State.remarginOn
  rw [if_neg (not_or.2 ⟨named, by simp [whole]⟩), if_neg (by simp [busy])]

/-- REMARGIN that comes while none waits. -/
theorem execRemargin_first {s : State} {mask : BitVec 16} (idle : s.stopped = 0) (named : mask ≠ 0) (passed : BitVec 16)
    (lives : List (Nat × Nat)) :
    exec (.remargin .ethernet mask passed lives) s = .next (s.remarginOn .ethernet mask passed lives) := by
  rw [exec_remargin, execRemargin, if_neg fun h => named (h.1.symm.trans idle), State.command_idle idle]
  rfl

/-- REMARGIN that goes on where it has stopped its fields. -/
theorem execRemargin_again {s : State} {mask : BitVec 16} (waits : s.stopped = mask) (passed : BitVec 16)
    (lives : List (Nat × Nat)) : exec (.remargin .ethernet mask passed lives) s =
      let t := s.remarginOn .ethernet mask passed lives
      .next (if t.stopped = 0 then t.obeyAll t.cmds else t) := by
  rw [exec_remargin, execRemargin, if_pos ⟨waits, rfl⟩]

theorem execRemargin_waits_on {s : State} {mask : BitVec 16} (waits : s.stopped = mask) (named : mask ≠ 0)
    (whole : s.marginOk mask = true) (busy : s.quiet mask = false) (passed : BitVec 16) (lives : List (Nat × Nat)) :
    exec (.remargin .ethernet mask passed lives) s = .next s := by
  subst waits
  rw [execRemargin_again rfl, State.remarginOn_busy named whole busy]
  exact congrArg _ (if_neg named)

theorem State.remargin_out (s : State) (via : Via) (mask passed : BitVec 16) (lives : List (Nat × Nat)) :
    ∃ info, (s.remargin via mask passed lives).out = s.out ++ [.slagan via .done info] ∧
      ∀ cl, cl < 640 → (cl ∈ info ↔ ((s.remargin via mask passed lives).cluster cl).wear ≠ (s.cluster cl).wear) := by
  obtain ⟨out, -⟩ := State.ledger_eq (s.noteLives_sweeps_ledger mask passed lives)
  rw [State.remargin_eq]
  refine ⟨_, by rw [State.answer_out]; exact congrArg (· ++ _) out, fun cl lt => mem_wearChanges lt⟩

theorem State.remargin_cmds (s : State) (via : Via) (mask passed : BitVec 16) (lives : List (Nat × Nat)) :
    (s.remargin via mask passed lives).cmds = s.cmds := by
  obtain ⟨-, cmds, -⟩ := State.ledger_eq (s.noteLives_sweeps_ledger mask passed lives)
  rw [State.remargin_eq]
  exact cmds

theorem State.remargin_stopped (s : State) (via : Via) (mask passed : BitVec 16) (lives : List (Nat × Nat)) :
    (s.remargin via mask passed lives).stopped = 0 := rfl

theorem execRemargin_ends {s : State} {mask : BitVec 16} (waits : s.stopped = mask) (named : mask ≠ 0)
    (whole : s.marginOk mask = true) (quiet : s.quiet mask = true) (passed : BitVec 16) (lives : List (Nat × Nat)) :
    exec (.remargin .ethernet mask passed lives) s =
      .next ((s.remargin .ethernet mask passed lives).obeyAll s.cmds) := by
  rw [execRemargin_again waits, State.remarginOn_quiet named whole quiet]
  dsimp only
  rw [if_pos (s.remargin_stopped ..), s.remargin_cmds]

theorem State.remargin_life (s : State) (via : Via) {mask : BitVec 16} (passed : BitVec 16) (lives : List (Nat × Nat)) {cl : Nat}
    (lt : cl < 640) (mem : mask.getLsbD (fieldOfCl cl) = true) :
    ((s.remargin via mask passed lives).cluster cl).life = sweptLife ((s.noteLives (livesIn mask lives)).cluster cl).life := by
  rw [State.remargin_eq]
  exact State.sweeps_life _ passed lt mem

theorem State.remargin_months (s : State) (via : Via) {mask : BitVec 16} (passed : BitVec 16) {cl : Nat} (lt : cl < 640)
    (mem : mask.getLsbD (fieldOfCl cl) = true) (mo : Nat) :
    ((s.remargin via mask passed [(cl, mo)]).cluster cl).months.toNat = min mo 0xFFFF := by
  have life := congrArg Prod.fst (s.remargin_life via passed [(cl, mo)] lt mem)
  have noted := s.noteLives_months lt mem mo
  simp only [sweptLife, Cluster.life] at life
  rw [life, noted, toNat_ofNat_min]

theorem State.remargin_wear (s : State) (via : Via) {mask : BitVec 16} (passed : BitVec 16) (lives : List (Nat × Nat)) {cl : Nat}
    (lt : cl < 640) (mem : mask.getLsbD (fieldOfCl cl) = true) :
    let t := s.remargin via mask passed lives
    (t.cluster cl).wear = Wear.predicted (s.cluster cl).wear (t.cluster cl).months.toNat true := by
  obtain ⟨months, wear⟩ := Prod.mk.inj (s.remargin_life via passed lives lt mem)
  dsimp only
  rw [wear, months, ← s.noteLives_wear (livesIn mask lives) cl]
  rfl

theorem State.remargin_inReset (s : State) (via : Via) {mask passed : BitVec 16} (lives : List (Nat × Nat)) {g : Nat} (lt : g < 16)
    (mem : mask.getLsbD g = true) (fail : passed.getLsbD g = false) :
    ((s.remargin via mask passed lives).field g).inReset = true := by
  rw [State.remargin_eq]
  exact State.sweeps_inReset _ lt mem fail

theorem State.remargin_cluster_ne (s : State) (via : Via) {mask : BitVec 16} (passed : BitVec 16) (lives : List (Nat × Nat))
    {cl : Nat} (out : mask.getLsbD (fieldOfCl cl) = false) :
    (s.remargin via mask passed lives).cluster cl = s.cluster cl := by
  rw [State.remargin_eq]
  exact (State.sweeps_cluster_ne _ passed out).trans (s.noteLives_cluster_ne lives out)

/-! ## Heat and the module's reset (R403, R404) -/

theorem thermalStep_hot {s : State} {f : Nat} {celsius : Int} (lt : f < 16)
    (hot : 100 < celsius ∨ (s.field f).hot = true ∧ 95 < celsius) (fast : 650 ≤ (s.field f).mhz) :
    ∃ t, exec (.thermalStep f celsius) s = .next t ∧ (t.field f).mhz = (s.field f).mhz - 50 ∧ (t.field f).hot = true := by
  have slows : (decide (100 < celsius) || ((s.field f).hot && decide (95 < celsius))) = true := by simpa using hot
  refine ⟨(s.modField f fun y => { y with hot := true, mhz := y.mhz - 50 }).logErr f .wear
    { kind := 2, loc := locator (supervisor f) }, ?_, ?_, ?_⟩
  · rw [exec_thermalStep, execThermalStep, if_neg (Nat.not_le.2 lt), slows, if_pos (by simpa using fast)]
  · rw [State.logErr_field_eq Field.mhz fun _ _ _ => rfl, State.modField_field]
  · rw [State.logErr_field_eq Field.hot fun _ _ _ => rfl, State.modField_field]

theorem thermalStep_cool {s : State} {f : Nat} {celsius : Int} (lt : f < 16) (cool : celsius ≤ 95) :
    exec (.thermalStep f celsius) s = .next (s.modField f fun y => { y with hot := false }) := by
  have rests : (decide (100 < celsius) || ((s.field f).hot && decide (95 < celsius))) = false := by
    simp only [Bool.or_eq_false_iff, Bool.and_eq_false_iff, decide_eq_false_iff_not]
    omega
  rw [exec_thermalStep, execThermalStep, if_neg (Nat.not_le.2 lt), rests, if_neg (by simp)]

/-- The fields that fail their self-test get their records. -/
def State.selfTests (s : State) (passed : BitVec 16) : State :=
  (List.range 16).foldl (fun s f =>
    if passed.getLsbD f then s else s.logErr f .core { kind := 2, loc := locator (supervisor f) }) s

theorem State.selfTests_frame {γ : Type} (view : State → γ) (keep : ∀ s f cls a, view (State.logErr s f cls a) = view s)
    (s : State) (passed : BitVec 16) : view (s.selfTests passed) = view s := by
  refine foldl_frame view (fun s f _ => ?_) s
  split
  · rfl
  · exact keep ..

theorem moduleReset_ok (passed : BitVec 16) (pc : Word) (s : State) : ∃ t, exec (.moduleReset passed pc) s = .next t ∧
    t.ctxs = [] ∧ t.parts = [] ∧ t.kernelPc = pc ∧ t.locked = false ∧ t.stopped = 0 := by
  let u : State := { State.reset with
    cores := (s.wipe (List.range 16)).cores, clusters := (s.wipe (List.range 16)).clusters
    fields := (s.wipe (List.range 16)).fields.map fun x =>
      (x.1, { x.2 with sys := [], clk0 := 0, ucie := Vector.replicate 2 12 })
    kernelPc := pc, fresh := s.fresh, agenda := s.agenda, out := s.out }
  obtain ⟨-, -, parts, address, locked, stopped⟩ :=
    State.ledger_eq (State.selfTests_frame State.ledger State.logErr_ledger u passed)
  exact ⟨u.selfTests passed, rfl, State.selfTests_frame State.ctxs State.logErr_ctxs u passed, parts, address, locked, stopped⟩

/-! ## The obligation -/

/-- Settles O46, a command or an event at a time. -/
theorem slaganSteps : Obligations.SlaganSteps := by
  intro via part f mask passed p s idle said
  refine ⟨?ethernet, ?own, ?sample, ?heat, fun pc => moduleReset_ok passed pc s⟩
  case ethernet =>
    rintro rfl
    refine ⟨?modSet, ?create, ?dissolve, ?energy, ?quiet, ?busy, ?again, ?retire⟩
    case modSet =>
      intro num gm low high
      obtain ⟨number, master, out⟩ := s.modSet_ok .ethernet gm low high
      exact ⟨_, State.command_idle idle _, number, master, out⟩
    case create =>
      intro fx0 fx1 fy0 fy1 n ok free
      obtain ⟨out, made, up⟩ := State.createPart_ok .ethernet passed ok free
      exact ⟨_, State.command_idle idle _, out, made, up⟩
    case dissolve =>
      intro known
      obtain ⟨out, gone, down⟩ := State.dissolve_ok .ethernet known
      exact ⟨_, State.command_idle idle _, out, gone, down⟩
    case energy =>
      intro mj p now ps fits
      exact (State.command_idle idle _).trans (congrArg _ (State.energySet_ok .ethernet now fits))
    case quiet =>
      intro named whole quiet lives
      obtain ⟨info, out, changed⟩ := s.remargin_out .ethernet mask passed lives
      have run := (execRemargin_first idle named passed lives).trans
        (congrArg _ (State.remarginOn_quiet named whole quiet .ethernet passed lives))
      refine ⟨_, info, run, s.remargin_stopped .ethernet mask passed lives, out, changed, fun cl lt mem => ⟨?_, ?_⟩,
        fun g lt mem fail => s.remargin_inReset .ethernet lives lt mem fail,
        fun cl _ out => s.remargin_cluster_ne .ethernet passed lives out⟩
      · rintro mo rfl
        exact s.remargin_months .ethernet passed lt mem mo
      · exact (s.remargin_wear .ethernet passed lives lt mem).trans (Wear.predicted_sweep ..)
    case busy =>
      intro named whole busy lives
      have run := (execRemargin_first idle named passed lives).trans
        (congrArg _ (State.remarginOn_busy named whole busy .ethernet passed lives))
      exact ⟨_, run, rfl, fun cl => State.command_waits named _,
        fun cs => execRemargin_waits_on (s := { s with stopped := mask, cmds := cs }) rfl named whole busy passed lives⟩
    case again =>
      intro named whole quiet lives cs u
      exact execRemargin_ends (s := u) rfl named whole quiet passed lives
    case retire =>
      intro cl lt
      obtain ⟨wear, gone⟩ := s.retire_ok .ethernet lt
      exact ⟨_, State.command_idle idle _, wear, gone⟩
  case own =>
    intro may known
    refine ⟨?load, ?revoke, ?enable, ?log⟩
    case load =>
      intro key data tweak tag lt ne free
      obtain ⟨out, loaded⟩ := State.keyLoad_ok via part tag lt ne free
      refine ⟨_, (State.command_idle idle _).trans (congrArg _ (State.obey_keyLoad may known ..)), out, fun g mem => ?_⟩
      obtain ⟨slot, starts⟩ := loaded g mem
      dsimp only
      rw [slot]
      exact ⟨rfl, rfl, rfl, rfl, starts⟩
    case revoke =>
      intro key valid
      exact (State.command_idle idle _).trans (congrArg _ ((State.obey_keyRevoke may known key).trans (if_pos valid)))
    case enable =>
      intro holds
      refine ⟨_, (State.command_idle idle _).trans (congrArg _ (State.fnEnable_ok may known holds)), ?_, rfl⟩
      rw [State.answer_field, State.modField_field]
    case log => exact (State.command_idle idle _).trans (congrArg _ (State.obey_logRead may known))
  case sample =>
    intro cl months lt
    refine ⟨s.setLife cl months false, by rw [exec_wearSample, execWearSample, if_pos lt], ?_⟩
    rw [State.setLife_cluster, toNat_ofNat_min]
  case heat =>
    intro celsius lt
    obtain ⟨t, run⟩ := exec_safe (.thermalStep f celsius) s
    refine ⟨t, run, fun hot fast => ?_, fun cool => ?_⟩
    · obtain ⟨u, hotRun, slower, lowered⟩ := thermalStep_hot lt hot fast
      obtain rfl : t = u := Host.Outcome.next.inj (run.symm.trans hotRun)
      exact ⟨slower, lowered⟩
    · obtain rfl := Host.Outcome.next.inj (run.symm.trans (thermalStep_cool lt cool))
      rw [State.modField_field]
      exact ⟨rfl, rfl⟩

end Sys2Proof.Machine
end

section
/-! Requests at the rim (R85, R89 to R93, R97): what happens to a request at the rim, the walkers that free up, the end of a
walk, of a read of the stacks and the delivery of a fault message. -/

namespace Sys2Proof.Machine

/-! ## A request by its number -/

theorem State.rreq_mem {s : State} {f id : Nat} {r : RReq} (listed : s.rreq? f id = some r) : r ∈ (s.field f).rreqs :=
  List.mem_of_find?_eq_some listed

/-- A change of the requests that keeps their numbers is what the lookup sees. -/
theorem find_map_of_id {h : RReq → RReq} (keep : ∀ x, (h x).id = x.id) (l : List RReq) (id : Nat) :
    (l.map h).find? (fun x => x.id == id) = (l.find? fun x => x.id == id).map h := by
  simp only [List.find?_map, Function.comp_def, keep]

theorem State.setReq_rreq {s : State} {f id : Nat} {r x : RReq} (listed : s.rreq? f id = some r) (same : x.id = r.id) :
    (s.setReq f x).rreq? f id = some x := by
  have keep : ∀ y : RReq, (if y.id == x.id then x else y).id = y.id := by
    intro y
    split <;> simp_all
  rw [State.rreq?, State.setReq, State.modField_field, find_map_of_id keep, ← State.rreq?, listed, Option.map_some,
    if_pos (by simp [same])]

/-! ## Walkers (R85) -/

/-- A request that waits for a walker takes the one that another request of its page has got. -/
def RReq.shareWalk (r x : RReq) : RReq :=
  if x.stage = .wait ∧ x.page = r.page ∧ x.asid = r.asid then { x with stage := .walk } else x

theorem RReq.shareWalk_id (r x : RReq) : (r.shareWalk x).id = x.id := by
  unfold RReq.shareWalk
  split <;> rfl

theorem RReq.shareWalk_self {r : RReq} (waits : r.stage = .wait) : r.shareWalk r = { r with stage := .walk } :=
  if_pos ⟨waits, rfl, rfl⟩

theorem Field.nextWait_none {fd : Field} (quiet : ∀ x ∈ fd.rreqs, x.stage ≠ .wait) : fd.nextWait = none := by
  have empty : (fd.rreqs.filter fun x => x.stage = .wait) = [] := by simpa [List.filter_eq_nil_iff] using quiet
  rw [Field.nextWait, empty, List.foldl_nil]

/-- The only request that waits is the next one. -/
theorem Field.nextWait_only {fd : Field} {w : RReq} (mem : w ∈ fd.rreqs) (waits : w.stage = .wait)
    (only : ∀ x ∈ fd.rreqs, x.stage = .wait → x = w) : fd.nextWait = some w := by
  have copies : ∀ x ∈ fd.rreqs.filter (fun x => x.stage = .wait), x = w := by simpa using only
  have listed : w ∈ fd.rreqs.filter (fun x => x.stage = .wait) := by simpa [waits] using mem
  unfold Field.nextWait
  cases waiting : fd.rreqs.filter (fun x => x.stage = .wait) with
  | nil => simp [waiting] at listed
  | cons x rest =>
    rw [waiting] at copies
    obtain rfl := copies x (List.mem_cons_self ..)
    refine rest.foldlRecOn (motive := fun a => a = some x) _ rfl fun a held y mem => ?_
    rw [held, copies y (List.mem_cons_of_mem _ mem)]
    exact ite_self _

theorem Field.takeWalkers_idle {fd : Field} (idle : fd.nextWait = none) (n : Nat) : fd.takeWalkers n = fd := by
  cases n with
  | zero => rfl
  | succ n => rw [Field.takeWalkers, idle]

theorem Field.takeWalkers_succ {fd : Field} {r : RReq} (next : fd.nextWait = some r) (free : fd.rreqs.length < 1024) (n : Nat) :
    fd.takeWalkers (n + 1) = Field.takeWalkers { fd with rreqs := fd.rreqs.map r.shareWalk } n := by
  rw [Field.takeWalkers, next]
  exact if_neg fun full => Nat.not_le.2 free full.1

/-- With walkers to spare, the only request that waits takes one. -/
theorem Field.takeWalkers_only {fd : Field} {w : RReq} (mem : w ∈ fd.rreqs) (waits : w.stage = .wait)
    (only : ∀ x ∈ fd.rreqs, x.stage = .wait → x = w) (free : fd.rreqs.length < 1024) :
    fd.takeWalkers fd.rreqs.length = { fd with rreqs := fd.rreqs.map w.shareWalk } := by
  obtain ⟨n, length⟩ := Nat.exists_eq_add_one.2 (List.length_pos_of_mem mem)
  rw [length, Field.takeWalkers_succ (Field.nextWait_only mem waits only) free]
  refine Field.takeWalkers_idle (Field.nextWait_none fun x listed => ?_) n
  obtain ⟨y, hy, rfl⟩ := List.mem_map.1 listed
  by_cases stays : y.stage = .wait
  · obtain rfl := only y hy stays
    simp [RReq.shareWalk_self waits]
  · simp [RReq.shareWalk, stays]

theorem State.toWalk_shares {s : State} {f : Nat} {r : RReq} (walks : (s.field f).walks.contains (r.page, r.asid) = true) :
    s.toWalk f r = s.setReq f { r with stage := .walk } := if_pos walks

/-- A request of a page that no walk is in progress for takes a walker, when there is one and no other request waits. -/
theorem State.toWalk_takes {s : State} {f id : Nat} {r : RReq} (listed : s.rreq? f id = some r)
    (new : (s.field f).walks.contains (r.page, r.asid) = false) (quiet : ∀ x ∈ (s.field f).rreqs, x.stage ≠ .wait)
    (free : (s.field f).rreqs.length < 1024) :
    (s.toWalk f r).rreq? f id = some { r with stage := .walk, order := s.fresh } := by
  let w : RReq := { r with stage := .wait, order := s.fresh }
  let fd := (s.setReq f w).field f
  have queued : (s.setReq f w).rreq? f id = some w := State.setReq_rreq listed rfl
  have requests : fd.rreqs = (s.field f).rreqs.map fun x => if x.id == w.id then w else x := by
    simp only [fd, State.setReq, State.modField_field]
  have only : ∀ x ∈ fd.rreqs, x.stage = .wait → x = w := by
    intro x mem waits
    obtain ⟨y, hy, rfl⟩ := List.mem_map.1 (requests ▸ mem)
    split
    · rfl
    · next other =>
      rw [if_neg other] at waits
      exact absurd waits (quiet y hy)
  have few : fd.rreqs.length < 1024 := by rwa [requests, List.length_map]
  have run : s.toWalk f r = (s.setReq f w).bump.modField f fun fd => fd.takeWalkers fd.rreqs.length :=
    if_neg (Bool.eq_false_iff.1 new)
  rw [run, State.rreq?, State.modField_field, State.bump_field,
    Field.takeWalkers_only (State.rreq_mem queued) rfl only few]
  refine (find_map_of_id w.shareWalk_id _ _).trans ?_
  rw [← State.rreq?, queued, Option.map_some, RReq.shareWalk_self rfl]

/-! ## RIM_REQUEST (R85, R93, R97) -/

/-- The translation that a request at the rim finds in the cache: a PLB fill looks for none. -/
def Field.knownFor (f : Field) (r : RReq) : Option XEnt :=
  if r.kind.plbFill && r.core.isSome then none else f.translate r.asid r.va

theorem exec_rimRequest_atRim {s : State} {f id : Nat} {r : RReq} (listed : s.rreq? f id = some r) (at_ : r.stage.atRim = true) :
    exec (.rimRequest f id) s = .next (s.rimRequest f r) := by
  rw [exec_rimRequest, execRimRequest, listed]
  exact if_pos at_

theorem State.rimRequest_frozen {s : State} {f slot : Nat} {r : RReq} (first : (s.field f).behind r = false)
    (frozen : (s.field f).frozenFor r.asid r.page = some slot) :
    s.rimRequest f r = s.setReq f { r with stage := .frozen slot } := by
  simp [State.rimRequest, first, frozen]

theorem State.rimRequest_unknown {s : State} {f : Nat} {r : RReq} (first : (s.field f).behind r = false)
    (thawed : (s.field f).frozenFor r.asid r.page = none) (known : (s.field f).knownFor r = none) :
    s.rimRequest f r = s.toWalk f r := by
  unfold Field.knownFor at known
  rw [State.rimRequest, if_neg (by simp [first]), thawed]
  simp only [known]

theorem State.rimRequest_known {s : State} {f : Nat} {r : RReq} {x : XEnt} (first : (s.field f).behind r = false)
    (thawed : (s.field f).frozenFor r.asid r.page = none) (known : (s.field f).knownFor r = some x)
    (listed : (s.field f).unlisted r.asid r.page (x.paOf r.va) = none) : s.rimRequest f r = s.atController f r x := by
  unfold Field.knownFor at known
  rw [State.rimRequest, if_neg (by simp [first]), thawed]
  simp only [known, State.unlistedReq, listed]

/-- A fill that no other fill holds up takes its frame in the reverse map and goes to the controller (R93). -/
theorem State.atController_fill {s s1 : State} {f : Nat} {r : RReq} {x : XEnt} (fill : r.kind = .fill)
    (alone : ∀ y ∈ (s.field f).rreqs, y.stage ≠ .held (x.paOf r.va / 65536))
    (claim : s.claimFrame f (x.paOf r.va / 65536) r.page r.asid x = some s1) :
    s.atController f r x = s1.setReq f { r with
      stage := .mem (x.paOf r.va) x.key x.i
      win := if backedEnd ≤ x.paOf r.va then some ((s1.field f).winOf (x.paOf r.va)) else none } := by
  have unheld : ((s.field f).rreqs.any fun y => y.id != r.id && y.stage = .held (x.paOf r.va / 65536) &&
      (!decide (r.stage = .held (x.paOf r.va / 65536)) || decide (y.order < r.order))) = false := by
    simp +contextual [alone]
  simp only [State.atController, fill, State.fillAtMap, unheld, claim]
  rfl

/-! ## PAGE_WALK_DONE and HBM_READ_COMPLETE (R27 to R34, R83 to R90) -/

/-- A walk that ends for one request only. -/
theorem exec_pageWalkDone_one {s : State} {f id : Nat} {r : RReq} (listed : s.rreq? f id = some r) (walks : r.stage = .walk)
    (one : ((s.field f).rreqs.filter fun x => x.stage = .walk ∧ x.asid = r.asid ∧ x.page = r.page) = [r]) :
    exec (.pageWalkDone f id) s = .next (((s.noteWalk f r.asid r.va).walkDone f r).freeWalkers f) := by
  simp only [exec_pageWalkDone, execPageWalkDone, listed, if_pos walks, one, List.foldl_cons, List.foldl_nil]

theorem State.walkDone_leaf {s : State} {f : Nat} {r : RReq} {l : Leaf}
    (thawed : (s.field f).frozenFor r.asid r.page = none) (leaf : s.walk f r.asid r.va r.kind.plbFill = .leaf l) :
    s.walkDone f r = s.walkLeaf f r l := by
  simp only [State.walkDone, thawed, leaf]

theorem State.walkDone_missing {s : State} {f cause level : Nat} {r : RReq}
    (thawed : (s.field f).frozenFor r.asid r.page = none)
    (missing : s.walk f r.asid r.va r.kind.plbFill = .missing cause level) :
    s.walkDone f r = s.walkMissing f r cause level := by
  simp only [State.walkDone, thawed, missing]

theorem exec_hbmReadComplete_mem {s : State} {f id pa : Nat} {r : RReq} {key : BitVec 8} {i : Bool}
    (listed : s.rreq? f id = some r) (at_ : r.stage = .mem pa key i)
    (room : r.kind = .fill → (s.field f).room (lineKey r.asid r.va) = true) (e : LineErr) :
    let x := s.stackRead f pa key i r.win e
    exec (.hbmReadComplete f id e) s =
      .next (if r.kind = .atomic then x.1.rimAtomic f r pa key i x.2 else x.1.fillDone f r x.2) := by
  have goes : ¬ (decide (r.kind = .fill) && !(s.field f).room (lineKey r.asid r.va)) = true := by simpa using room
  simp only [exec_hbmReadComplete, execHbmReadComplete, listed, at_, if_neg goes]
  split <;> rfl

theorem exec_faultMessageDeliver_sent {s t : State} {f g : Nat} {pay : List Byte} {rest : List (Nat × List Byte)}
    (oldest : (s.field f).faultMsgs = (g, pay) :: rest)
    (sent : s.toService f 31 (faultNow (s.field f) g pay) = some t) :
    exec (.faultMessageDeliver f) s = .next (t.modField f fun fd => { fd with faultMsgs := rest }) := by
  simp only [exec_faultMessageDeliver, execFaultMessageDeliver, oldest, sent]

/-- Settles O29: each way that a request can take is one equation about its step. -/
theorem rimRequestSteps : Obligations.RimRequestSteps := by
  intro f id r s listed
  refine ⟨fun at_ first => ?_, fun walks one thawed => ?_, fun pa key i e at_ room => ?_, fun g pay rest t oldest sent => ?_⟩
  · rw [exec_rimRequest_atRim listed at_]
    refine ⟨fun slot frozen => ?_, fun thawed =>
      ⟨fun unknown walks => ?_, fun unknown new quiet free => ?_, fun x known unlisted => ?_⟩⟩
    · rw [State.rimRequest_frozen first frozen]
      exact ⟨_, rfl, State.setReq_rreq listed rfl⟩
    · rw [State.rimRequest_unknown first thawed unknown, State.toWalk_shares walks]
      exact ⟨_, rfl, State.setReq_rreq listed rfl⟩
    · rw [State.rimRequest_unknown first thawed unknown]
      exact ⟨_, rfl, State.toWalk_takes listed new quiet free⟩
    · rw [State.rimRequest_known first thawed known unlisted]
      refine ⟨fun copy => ?_, fun wb => ?_, fun atomic => ?_, fun fill _ alone s1 claim => ?_⟩
      · rw [State.atController, copy]
      · rw [State.atController, wb]
      · rw [State.atController, atomic]
        exact ⟨_, rfl, State.setReq_rreq listed rfl⟩
      · rw [State.atController_fill fill alone claim]
  · rw [exec_pageWalkDone_one listed walks one]
    exact ⟨fun l leaf => by rw [State.walkDone_leaf thawed leaf],
      fun cause level missing => by rw [State.walkDone_missing thawed missing]⟩
  · exact exec_hbmReadComplete_mem listed at_ room e
  · exact exec_faultMessageDeliver_sent oldest sent

end Sys2Proof.Machine
end

section
/-! Writes of page-table entries and of records leave the list of migrations as it is but for dirty marks (R78, R94 to R96):
what a recall of a line, a write of a line and a walker's write do to the migrations of a field. -/

namespace Sys2Proof.Machine

/-! ## What a recall of a line does to migrations: nothing -/

theorem State.setHline_migs (s : State) (f l : Nat) (h : HLine) (g : Nat) :
    ((s.setHline f l h).field g).migs = (s.field g).migs := State.modField_field_eq Field.migs (by intros; rfl) s f g

theorem State.postRim_migs (s : State) (f : Nat) (r : RReq) (g : Nat) :
    ((s.postRim f r).field g).migs = (s.field g).migs := by
  unfold State.postRim
  extract_lets fd a r'
  split
  · exact State.modField_field_eq Field.migs (by intros; rfl) s f g
  · rw [State.bump_field]
    exact State.modField_field_eq Field.migs (by intros; rfl) s f g

theorem State.postHome_migs (s : State) (f : Nat) (r : HReq) (g : Nat) :
    ((s.postHome f r).field g).migs = (s.field g).migs := by
  unfold State.postHome
  dsimp only
  split
  · rfl
  · rw [State.bump_field]
    exact State.modField_field_eq Field.migs (by intros; rfl) s f g

theorem State.homeDrop_migs (s : State) (f l g : Nat) : ((s.homeDrop f l).field g).migs = (s.field g).migs := by
  unfold State.homeDrop
  rw [State.setHline_migs]
  split
  · rfl
  · exact State.postRim_migs { s with agent := .none } ..

theorem State.absorbAt_migs (s : State) (f l : Nat) (data : LineData) (be : BitVec 64) (poison : Bool) (g : Nat) :
    ((s.absorbAt f l data be poison).field g).migs = (s.field g).migs := by
  unfold State.absorbAt
  dsimp only
  split
  · exact State.setHline_migs ..
  · rw [State.homeDrop_migs, State.setHline_migs]

theorem State.homeEvict_migs (s : State) (f k l : Nat) (data : LineData) (be : BitVec 64) (poison : Bool) (g : Nat) :
    ((s.homeEvict f k l data be poison).field g).migs = (s.field g).migs := by
  unfold State.homeEvict
  rw [State.setHline_migs]
  split
  · rfl
  · exact State.absorbAt_migs ..

theorem State.landEvicts_migs (s : State) (f cl l g : Nat) : ((s.landEvicts f cl l).field g).migs = (s.field g).migs := by
  unfold State.landEvicts
  extract_lets mine t
  have landed : (t.field g).migs = (s.field g).migs := by
    refine foldl_frame (fun s : State => (s.field g).migs) (fun s r _ => ?_) s
    split
    · exact State.homeEvict_migs ..
    · rfl
  split
  · exact (State.modField_field_eq Field.migs (by intros; rfl) ..).trans landed
  · exact landed

theorem State.breakLeases_fields (s : State) (cl l : Nat) : (s.breakLeases cl l).fields = s.fields := by
  refine foldl_frame State.fields (fun s k _ => ?_) s
  split <;> rfl

theorem State.raisePts_fields (s : State) (k p : Nat) : (s.raisePts k p).fields = s.fields := by
  unfold State.raisePts
  split <;> rfl

theorem State.field_of_fields {s t : State} (same : t.fields = s.fields) (g : Nat) : t.field g = s.field g := by
  unfold State.field
  rw [same]

@[simp] theorem State.wakeMem_field (s : State) (p : Nat → Bool) (g : Nat) : (s.wakeMem p).field g = s.field g := rfl

@[simp] theorem State.delL2_field (s : State) (cl l g : Nat) : (s.delL2 cl l).field g = s.field g := rfl

@[simp] theorem State.setL2_field (s : State) (cl l : Nat) (x : L2Line) (g : Nat) : (s.setL2 cl l x).field g = s.field g := rfl

theorem State.raiseMarks_field (s : State) (ms : List Mark) (g : Nat) :
    (ms.foldl (fun s m => s.raisePts m.core m.stamp) s).field g = s.field g :=
  State.field_of_fields (foldl_frame State.fields (fun _ _ _ => State.raisePts_fields ..) s) g

theorem State.breakLeases_field (s : State) (cl l g : Nat) : (s.breakLeases cl l).field g = s.field g :=
  State.field_of_fields (State.breakLeases_fields ..) g

theorem State.evictL2_migs (s : State) (cl l : Nat) (x : L2Line) (g : Nat) :
    ((s.evictL2 cl l x).field g).migs = (s.field g).migs := by
  unfold State.evictL2
  dsimp only
  rw [State.wakeMem_field, State.postHome_migs, State.delL2_field, State.raiseMarks_field, State.breakLeases_field]

theorem State.install_migs (s : State) (cl l : Nat) (x : L2Line) (g : Nat) :
    ((s.install cl l x).field g).migs = (s.field g).migs := by
  rw [State.install, State.setL2_field, State.breakLeases_field]

theorem State.landPush_migs (s : State) (cl l g : Nat) : ((s.landPush cl l).field g).migs = (s.field g).migs := by
  unfold State.landPush
  split
  · rfl
  · dsimp only
    split
    · split
      · rfl
      · exact State.install_migs ..
    · split
      · exact State.install_migs ..
      · split
        · rfl
        · rw [State.install_migs, State.evictL2_migs, State.modCluster_field]

theorem State.landFrom_migs (s : State) (cl l g : Nat) : ((s.landFrom cl l).field g).migs = (s.field g).migs := by
  unfold State.landFrom
  split
  · rfl
  · exact foldl_frame (fun s : State => (s.field g).migs) (fun _ _ _ => State.landPush_migs ..) s

theorem State.recall_migs (s : State) (f cl l : Nat) (keep : Option L2St) (g : Nat) :
    ((s.recall f cl l keep).field g).migs = (s.field g).migs := by
  have before : ((((s.landEvicts f cl l).landFrom cl l).breakLeases cl l).field g).migs = (s.field g).migs := by
    rw [State.breakLeases_field, State.landFrom_migs, State.landEvicts_migs]
  have written (t : State) (x : L2Line) : ((if x.dirty = 0 then t
      else t.absorbAt f l x.data (wordBe x.valid) (x.poison || x.pw != 0)).field g).migs = (t.field g).migs := by
    split
    · rfl
    · exact State.absorbAt_migs ..
  unfold State.recall
  dsimp only
  split
  · rw [State.delL2_field, before]
  · split
    · rw [State.wakeMem_field, State.delL2_field, State.raiseMarks_field, written, before]
    · rw [State.modCluster_field, State.setL2_field, State.raiseMarks_field, written, before]

theorem State.collectLine_migs (s : State) (f l g : Nat) : ((s.collectLine f l).field g).migs = (s.field g).migs := by
  unfold State.collectLine
  rw [State.setHline_migs]
  exact foldl_frame (fun s : State => (s.field g).migs) (fun _ _ _ => State.recall_migs ..) s

/-! ## Writes of memory mark lines in migrations, and end none (R96) -/

/-- A migration runs in a slot of a field. -/
def Field.migRuns (fd : Field) (slot : Nat) : Bool := (SMap.find? fd.migs slot).isSome

theorem Field.migRuns_of_migs {f g : Field} (same : g.migs = f.migs) (slot : Nat) : g.migRuns slot = f.migRuns slot := by
  unfold Field.migRuns
  rw [same]

theorem Field.migRuns_eq_false {fd : Field} {slot : Nat} (idle : fd.migRuns slot = false) : SMap.find? fd.migs slot = none := by
  simpa [Field.migRuns] using idle

theorem Field.touch_migRuns (fd : Field) (clk pa slot : Nat) : (fd.touch clk pa).migRuns slot = fd.migRuns slot := by
  unfold Field.migRuns
  exact (congrArg Option.isSome (SMap.find_map (by intros; rfl) fd.migs slot)).trans Option.isSome_map

theorem State.logErr_migRuns (s : State) (f : Nat) (cls : ErrCls) (a : ErrAt) (g slot : Nat) :
    ((s.logErr f cls a).field g).migRuns slot = (s.field g).migRuns slot :=
  State.logErr_field_eq (fun fd => fd.migRuns slot) (by intros; rfl) s f cls a g

theorem State.modField_touch_migRuns (s : State) {h : Field → Field} (keep : ∀ fd, (h fd).migs = fd.migs) (f clk pa g slot : Nat) :
    ((s.modField f fun fd => (h fd).touch clk pa).field g).migRuns slot = (s.field g).migRuns slot :=
  State.modField_field_eq (fun fd => fd.migRuns slot)
    (fun fd => (Field.touch_migRuns ..).trans (Field.migRuns_of_migs (keep fd) slot)) s f g

theorem State.corrected_migRuns (s : State) (f pa g slot : Nat) :
    ((s.corrected f pa).field g).migRuns slot = (s.field g).migRuns slot :=
  (State.logErr_migRuns ..).trans (State.modField_field_eq (fun fd => fd.migRuns slot) (by intros; rfl) s f g)

theorem State.ite_migRuns {c : Prop} [Decidable c] {s a b : State} {g slot : Nat}
    (ha : (a.field g).migRuns slot = (s.field g).migRuns slot) (hb : (b.field g).migRuns slot = (s.field g).migRuns slot) :
    ((if c then a else b).field g).migRuns slot = (s.field g).migRuns slot := by
  split
  · exact ha
  · exact hb

/-- The branches of a write, in order: no access, a failed controller, poisoned data, the whole line, a line that cannot be
merged into, and the merge. -/
theorem State.writeLine_migRuns (s : State) (f pa : Nat) (k : BitVec 8) (i : Bool) (d : LineData) (be : BitVec 64) (poison : Bool)
    (asid : BitVec 16) (va g slot : Nat) :
    ((s.writeLine f pa k i d be poison asid va).field g).migRuns slot = (s.field g).migRuns slot := by
  have logged (t : State) (cls : ErrCls) (a : ErrAt) := State.logErr_migRuns t f cls a g slot
  have put (t : State) (clk pa : Nat) (line : Field → LineData) :
      ((t.modField f fun fd => (fd.putLine pa k i (line fd)).touch clk pa).field g).migRuns slot =
        (t.field g).migRuns slot := State.modField_touch_migRuns t (by intros; rfl) ..
  unfold State.writeLine
  refine State.ite_migRuns rfl ?_
  refine State.ite_migRuns (logged s _ _) (State.ite_migRuns ?_ (State.ite_migRuns ?_ ?_))
  · exact State.ite_migRuns (logged s _ _) ((logged _ _ _).trans (State.modField_touch_migRuns s (by intros; rfl) ..))
  · exact State.ite_migRuns ((logged _ _ _).trans (put s _ _ fun _ => d)) (put s _ _ fun _ => d)
  · refine State.ite_migRuns (logged s _ _) (State.ite_migRuns ?_ (State.ite_migRuns (logged s _ _)
      (State.ite_migRuns (logged s _ _) ?_)))
    · exact (logged _ _ _).trans (State.modField_field_eq (fun fd => fd.migRuns slot) (by intros; rfl) s f g)
    · exact (put _ _ _ fun fd => mergeLine (fd.lineAs (pa / 64 * 64) k) d be).trans
        (State.ite_migRuns (State.corrected_migRuns ..) rfl)

theorem State.writeEntry_migRuns (s : State) (f pa : Nat) (w : Word) (g slot : Nat) :
    ((s.writeEntry f pa w).field g).migRuns slot = (s.field g).migRuns slot := by
  unfold State.writeEntry
  dsimp only
  split
  · exact State.writeLine_migRuns ..
  · next v _ =>
    have collected := Field.migRuns_of_migs (s.collectLine_migs f v g) slot
    split
    · exact (Field.migRuns_of_migs (State.setHline_migs ..) slot).trans collected
    · split
      · exact (State.modField_field_eq (fun fd => fd.migRuns slot) (by intros; rfl) _ f g).trans collected
      · exact (State.writeLine_migRuns ..).trans collected

theorem State.endMig_migRuns (s : State) (f slot : Nat) (m : Mig) (status : Nat) :
    ((s.endMig f slot m status).field f).migRuns slot = false := by
  unfold State.endMig
  dsimp only
  rw [State.writeEntry_migRuns, State.modField_field, Field.migRuns, SMap.find_del_self, Option.isSome_none]

end Sys2Proof.Machine
end

section
/-! Migrations (R94 to R97), scrubbing and the links (R27, R28, R30), windows and codebooks (R37, R39). -/

namespace Sys2Proof.Machine

/-! ## Migrations -/

theorem State.readWith_clk (s : State) (f pa : Nat) (k : BitVec 8) (i : Bool) (w : Option Win) (errs : List (Nat × LineErr)) :
    (s.readWith f pa k i w errs).1.clk = s.clk := by
  unfold State.readWith
  extract_lets r t v
  have counted : t.clk = s.clk := by
    refine foldl_frame State.clk (fun s x _ => ?_) s
    split <;> rfl
  split
  · rfl
  · clear_value v
    cases v <;> exact counted

/-- A copy of a line takes no time of its own: a round is timed as a whole (R96). -/
theorem State.copyLine_clk (s : State) (f : Nat) (m : Mig) (i : Nat) : (s.copyLine f m i).clk = s.clk := by
  have read : (s.readAgain f (m.src + 64 * i) m.key m.i).1.clk = s.clk := State.readWith_clk ..
  unfold State.copyLine
  dsimp only
  split
  · exact read
  · split <;> exact read

theorem State.copyLines_clk (s : State) (f : Nat) (m : Mig) (ls : List Nat) : (s.copyLines f m ls).clk = s.clk :=
  foldl_frame State.clk (fun _ _ _ => State.copyLine_clk ..) s

theorem exec_migrationStart_taken {s : State} {f slot : Nat} {m : Mig} {v : Word}
    (free : ((List.range 8).find? fun n => (SMap.find? (s.field f).migs n).isNone) = some slot)
    (ok : s.migCheck f (bits v 6 46 * 64) = .ok m) :
    ∃ t, exec (.migrationStart f v) s = .next t ∧ SMap.find? (t.field f).migs slot = some m := by
  simp only [exec_migrationStart, execMigrationStart, State.migStart, free, ok]
  refine ⟨_, rfl, ?_⟩
  rw [State.modField_field, SMap.find_put_self]

/-- A migration after a round: the next one, or the freeze. -/
def Mig.nextRound (m : Mig) (clk : Nat) : Mig :=
  { m with used := m.used + 1, start := clk, todo := m.dirty, dirty := []
           frozen := (decide (0 < m.used) && decide (m.todo.length ≤ 8)) || decide (m.limit ≤ m.used + 1) }

theorem exec_migrationRoundEnd_over {s : State} {f slot : Nat} {m : Mig} (runs : SMap.find? (s.field f).migs slot = some m)
    (copying : m.frozen = false) (ended : m.start + 2 * m.todo.length ≤ s.clk) :
    ∃ t, exec (.migrationRoundEnd f slot) s = .next t ∧ SMap.find? (t.field f).migs slot = some (m.nextRound s.clk) := by
  have ends : ¬ (m.frozen || decide (s.clk < m.start + 2 * m.todo.length)) = true := by simpa [copying] using ended
  simp only [exec_migrationRoundEnd, execMigrationRoundEnd, runs, if_neg ends]
  refine ⟨_, rfl, ?_⟩
  rw [State.modField_field, SMap.find_put_self, State.copyLines_clk]
  rfl

theorem exec_migrationComplete_over {s : State} {f slot : Nat} {m : Mig} (runs : SMap.find? (s.field f).migs slot = some m)
    (frozen : m.frozen = true) (ended : m.start + 2 * m.todo.length ≤ s.clk) :
    ∃ t, exec (.migrationComplete f slot) s = .next t ∧ SMap.find? (t.field f).migs slot = none := by
  have ends : ¬ (!m.frozen || decide (s.clk < m.start + 2 * m.todo.length)) = true := by simpa [frozen] using ended
  simp only [exec_migrationComplete, execMigrationComplete, runs, if_neg ends]
  refine ⟨_, rfl, Field.migRuns_eq_false ?_⟩
  rw [State.writeEntry_migRuns, State.endMig_migRuns]

/-! ## Scrubbing and the links -/

theorem exec_scrubcfWrite_hours (f : Nat) (v : Word) (s : State) : ∃ t, exec (.scrubcfWrite f v) s = .next t ∧
    (t.field f).reg 0x942 = setBits ((s.field f).reg 0x942) 0 16 (bits v 0 16) := by
  refine ⟨_, rfl, ?_⟩
  rw [State.modField_field, Field.scrubcf, Field.setReg_reg]

/-- An entry of a pair that is kept by controller, after a write of it. -/
theorem getD_set_pair (x : Vector Nat 2) {ctl : Nat} (lt : ctl < 2) (n : Nat) : (x.set! ctl n).toList.getD ctl 0 = n := by
  simp [List.getD_eq_getElem?_getD, lt]

theorem exec_scrubLine_on {s : State} {f ctl : Nat} (lt : ctl < 2) (on : bits ((s.field f).reg 0x942) 0 16 ≠ 0)
    (up : (s.field f).inReset = false) (e : LineErr) :
    let n := (s.field f).scrub.toList.getD ctl 0
    ∃ t, exec (.scrubLine f ctl e) s = .next t ∧ (t.field f).scrub.toList.getD ctl 0 = if stackLines ≤ n + 1 then 0 else n + 1 := by
  have runs : ¬ (bits ((s.field f).reg 0x942) 0 16 = 0 ∨ 2 ≤ ctl ∨ (s.field f).inReset = true) := by
    simp [on, up, lt]
  refine ⟨_, (exec_scrubLine ..).trans (if_neg runs), ?_⟩
  rw [State.modField_field, getD_set_pair _ lt]
  simp only [decide_eq_true_eq]

theorem exec_ucieFlitReplay_counts {f ctl : Nat} (lt : ctl < 2) (s : State) : ∃ t, exec (.ucieFlitReplay f ctl) s = .next t ∧
    (t.field f).replays = (s.field f).replays + 1 ∧ (t.field f).mem = (s.field f).mem := by
  refine ⟨_, (exec_ucieFlitReplay ..).trans (if_pos lt), ?_⟩
  rw [State.modField_field]
  exact ⟨rfl, rfl⟩

theorem exec_ucieLinkDegrade_left {s : State} {f ctl : Nat} (lt : ctl < 2) (works : (s.field f).ucie.toList.getD ctl 0 ≠ 0)
    (failed : Bool) : ∃ t, exec (.ucieLinkDegrade f ctl failed) s = .next t ∧
      (t.field f).ucie.toList.getD ctl 0 = if failed then 0 else (s.field f).ucie.toList.getD ctl 0 - 1 := by
  have runs : ¬ (2 ≤ ctl ∨ (s.field f).ucie.toList.getD ctl 0 = 0) := by simp only [works, or_false]; omega
  let u (n : Nat) : State := s.modField f fun fd => { fd with ucie := fd.ucie.set! ctl n }
  have left (n : Nat) : ((u n).field f).ucie.toList.getD ctl 0 = n := by
    rw [State.modField_field, getD_set_pair _ lt]
  have logged (n : Nat) (a : ErrAt) :
      ((if n = 0 then (u n).logErr f .link a else u n).field f).ucie = ((u n).field f).ucie := by
    split
    · exact State.logErr_field_eq Field.ucie (by intros; rfl) ..
    · rfl
  refine ⟨_, (exec_ucieLinkDegrade ..).trans (if_neg runs), ?_⟩
  rw [logged, left]

/-! ## Fields of a word -/

theorem testBit_bits (w : Word) (lo n i : Nat) : (bits w lo n).testBit i = (decide (i < n) && w.getLsbD (lo + i)) := by
  rw [bits, Nat.testBit_mod_two_pow, Nat.testBit_div_two_pow, Nat.add_comm i lo, BitVec.testBit_toNat]

theorem getLsbD_setBits (w : Word) (lo n v : Nat) {i : Nat} (lt : i < 64) :
    (setBits w lo n v).getLsbD i = if lo ≤ i ∧ i < lo + n then v.testBit (i - lo) else w.getLsbD i := by
  let hi := w.toNat / 2 ^ lo / 2 ^ n
  have whole (x : Nat) : 2 ^ lo * (2 ^ n * hi + x) + w.toNat % 2 ^ lo =
      2 ^ lo * (2 ^ n * hi) + x * 2 ^ lo + w.toNat % 2 ^ lo := by
    rw [Nat.mul_add, Nat.mul_comm x]
  have old : w.toNat = 2 ^ lo * (2 ^ n * hi + bits w lo n) + w.toNat % 2 ^ lo := by
    rw [bits, Nat.div_add_mod, Nat.div_add_mod]
  have new : w.toNat - bits w lo n * 2 ^ lo + v % 2 ^ n * 2 ^ lo = 2 ^ lo * (2 ^ n * hi + v % 2 ^ n) + w.toNat % 2 ^ lo := by
    rw [whole] at old ⊢
    omega
  rw [setBits, BitVec.getLsbD_ofNat, decide_eq_true lt, Bool.true_and, new,
    Nat.testBit_two_pow_mul_add _ (Nat.mod_lt _ (Nat.two_pow_pos lo))]
  by_cases low : i < lo
  · rw [if_pos low, if_neg (by omega), Nat.testBit_mod_two_pow, decide_eq_true low, Bool.true_and, BitVec.testBit_toNat]
  · rw [if_neg low, Nat.testBit_two_pow_mul_add _ (Nat.mod_lt _ (Nat.two_pow_pos n))]
    by_cases mid : i - lo < n
    · rw [if_pos mid, if_pos (by omega), Nat.testBit_mod_two_pow, decide_eq_true mid, Bool.true_and]
    · rw [if_neg mid, if_neg (by omega), Nat.testBit_div_two_pow, Nat.testBit_div_two_pow, ← BitVec.testBit_toNat]
      exact congrArg _ (by omega)

/-! ## Windows (R37) -/

/-- What FWCF holds after an enable that a check has refused. -/
def refusedWin (new : Word) (code : Nat) : Word :=
  (setBits new 52 4 code ||| 0x4000000000000000#64) &&& ~~~0x8000000000000000#64

theorem getLsbD_refusedWin (new : Word) (code : Nat) {i : Nat} (lt : i < 64) : (refusedWin new code).getLsbD i =
    if i = 63 then false else if i = 62 then true else if 52 ≤ i ∧ i < 56 then code.testBit (i - 52) else new.getLsbD i := by
  have err : ∀ i < 64, (0x4000000000000000#64).getLsbD i = decide (i = 62) := by decide
  have en : ∀ i < 64, (0x8000000000000000#64).getLsbD i = decide (i = 63) := by decide
  rw [refusedWin, BitVec.getLsbD_and, BitVec.getLsbD_or, BitVec.getLsbD_not, getLsbD_setBits _ _ _ _ lt, err i lt, en i lt]
  by_cases top : i = 63
  · simp [top]
  · by_cases next : i = 62 <;> simp [lt, top, next]

theorem bits_refusedWin (new : Word) (code : Nat) : bits (refusedWin new code) 52 4 = code % 16 := by
  refine Nat.eq_of_testBit_eq fun i => ?_
  rw [testBit_bits, show 16 = 2 ^ 4 from rfl, Nat.testBit_mod_two_pow]
  by_cases lt : i < 4
  · rw [getLsbD_refusedWin _ _ (by omega), if_neg (by omega), if_neg (by omega), if_pos (by omega), Nat.add_sub_cancel_left]
  · simp [lt]

/-- The fields that software may write keep what was written. -/
theorem refusedWin_and (v : Word) (code : Nat) :
    refusedWin (v &&& 0x8000000000000F37#64) code &&& 0xF37#64 = v &&& 0xF37#64 := by
  have low : ∀ i < 64, (0xF37#64).getLsbD i = true → i < 52 ∧ (0x8000000000000F37#64).getLsbD i = true := by decide
  refine BitVec.eq_of_getLsbD_eq fun i lt => ?_
  rw [BitVec.getLsbD_and, BitVec.getLsbD_and]
  cases mask : (0xF37#64).getLsbD i with
  | false => simp
  | true =>
    obtain ⟨small, kept⟩ := low i lt mask
    rw [getLsbD_refusedWin _ _ lt, if_neg (by omega), if_neg (by omega), if_neg (by omega), BitVec.getLsbD_and, kept,
      Bool.and_true]

theorem exec_windowEnable_on {s : State} {f w : Nat} {v : Word} (lt : w < 16) (en : v.getLsbD 63 = true) :
    exec (.windowEnable f w v) s = .next (s.modField f fun fd => fd.windowOn w v) :=
  (exec_windowEnable ..).trans (if_pos (by simp [en, lt]))

theorem Field.windowOn_accepted {fd : Field} {w : Nat} {v : Word} (off : (fd.win w).en = false)
    (ok : fd.winCheck w (v &&& 0x8000000000000F37#64) = none) :
    (fd.windowOn w v).reg (0x903 + 4 * w) = v &&& 0x8000000000000F37#64 := by
  simp only [Field.windowOn, if_neg (Bool.eq_false_iff.1 off), ok, Field.setReg_reg]

theorem Field.windowOn_refused {fd : Field} {w code : Nat} {v : Word} (off : (fd.win w).en = false)
    (bad : fd.winCheck w (v &&& 0x8000000000000F37#64) = some code) :
    (fd.windowOn w v).reg (0x903 + 4 * w) = refusedWin (v &&& 0x8000000000000F37#64) code := by
  simp only [Field.windowOn, if_neg (Bool.eq_false_iff.1 off), bad, Field.setReg_reg, refusedWin]

theorem exec_windowDisable_off {f w : Nat} {v : Word} (lt : w < 16) (off : v.getLsbD 63 = false) (s : State) :
    ∃ t, exec (.windowDisable f w v) s = .next t ∧ ((t.field f).reg (0x903 + 4 * w)).getLsbD 63 = false := by
  refine ⟨_, (exec_windowDisable ..).trans (if_pos (by rw [off, decide_eq_true lt]; rfl)), ?_⟩
  rw [State.modField_field, Field.windowOff, Field.setReg_reg]
  simp

/-! ## Codebooks (R39) -/

/-- CBSEL after an access to CBDATA: the next entry. -/
def cbselNext (r : Word) : Word := setBits r 0 8 (bits r 0 8 + 1)

theorem Field.cbNext_reg (fd : Field) : fd.cbNext.reg 0x940 = cbselNext (fd.reg 0x940) := Field.setReg_reg ..

theorem Field.cbWrite_reg (fd : Field) (v : Word) : (fd.cbWrite v).reg 0x940 = cbselNext (fd.reg 0x940) := by
  unfold Field.cbWrite
  dsimp only
  rw [Field.cbNext_reg]
  split <;> rfl

theorem Field.cbWrite_code {fd : Field} (writable : fd.cbLocked (bits (fd.reg 0x940) 8 2) = false) (v : Word) :
    SMap.find? (fd.cbWrite v).code (bits (fd.reg 0x940) 8 2 * 256 + bits (fd.reg 0x940) 0 8) = some (v.setWidth 24) := by
  unfold Field.cbWrite
  dsimp only
  rw [if_neg (Bool.eq_false_iff.1 writable)]
  exact SMap.find_put_self ..

/-- Settles O31: each step's result is read off its equation; a migration's slot stays empty while its completion word is
written. -/
theorem migrationAndStackSteps : Obligations.MigrationAndStackSteps := by
  intro f slot m v s
  refine ⟨exec_migrationStart_taken, exec_migrationRoundEnd_over, exec_migrationComplete_over, exec_scrubcfWrite_hours f v s,
    fun ctl e lt on up => exec_scrubLine_on lt on up e, fun ctl lt => exec_ucieFlitReplay_counts lt s,
    fun ctl failed lt works => exec_ucieLinkDegrade_left lt works failed,
    fun w lt => ⟨fun en off ok => ?_, fun code en off bad => ?_, fun off => exec_windowDisable_off lt off s⟩, ?_, ?_⟩
  · rw [exec_windowEnable_on lt en]
    exact ⟨_, rfl, by rw [State.modField_field, Field.windowOn_accepted off ok]⟩
  · rw [exec_windowEnable_on lt en]
    refine ⟨_, rfl, ?_⟩
    rw [State.modField_field, Field.windowOn_refused off bad]
    exact ⟨getLsbD_refusedWin _ _ (by decide), getLsbD_refusedWin _ _ (by decide), bits_refusedWin .., refusedWin_and ..⟩
  · refine ⟨_, exec_cbdataWrite .., ?_⟩
    rw [State.modField_field]
    exact ⟨Field.cbWrite_reg .., fun writable => Field.cbWrite_code writable v⟩
  · refine ⟨_, exec_cbdataRead .., ?_⟩
    rw [State.modField_field]
    exact Field.cbNext_reg _

end Sys2Proof.Machine
end

section
/-! Requests of the host and its answers (R40, R107, R311, R312, R314), and requests that enter a field through its gateway
(R118, R315, R317). -/

namespace Sys2Proof.Machine

/-! ## Host requests (R40, R311, R312) -/

/-- A read request that is served is answered with what the home delivers. -/
theorem State.hostRead_served {s s1 s2 : State} {fn f tag off va : Nat} {asid : BitVec 16} {wr want : Bool} {mv : Meta}
    {x : LineData × Bool} (host : s.hostFun fn = some f) (uncut : (s.field f).contained = false)
    (inside : (s.field f).hostVa off = some (va, asid, wr))
    (xlat : hostXlat f asid va false { s with agent := .host tag } = .ok () s1)
    (read : hostRd f (lineKey asid va) mv want s1 = .ok x s2) (reply : LineData → Bool → OutMsg) :
    s.hostRead fn tag off mv want reply = .next (s2.emit (reply x.1 x.2)) := by
  simp only [State.hostRead, host, if_neg (Bool.eq_false_iff.1 uncut), inside, asAgent, M_bind, M_modify, xlat, read]

/-- A write request that is served is answered, and contexts that wait for memory go on. -/
theorem State.hostWrite_served {s s1 s2 : State} {fn f tag off va : Nat} {asid : BitVec 16} {data : LineData} {be : BitVec 64}
    (host : s.hostFun fn = some f) (uncut : (s.field f).contained = false)
    (inside : (s.field f).hostVa off = some (va, asid, true))
    (xlat : hostXlat f asid va true { s with agent := .host tag } = .ok () s1)
    (write : hostWr f (lineKey asid va) data be s1 = .ok () s2) :
    s.hostWrite fn tag off data be =
      .next ((s2.emit (.hostDone fn tag true)).wakeMem fun c => fieldOf (coreOf c) == f) := by
  simp only [State.hostWrite, host, if_neg (Bool.eq_false_iff.1 uncut), inside, Bool.not_true, Bool.false_eq_true, if_false,
    asAgent, M_bind, M_modify, xlat, write]

/-! ## Snoops (R107, R312, R314) -/

@[simp] theorem SMap.get_set_self {α : Type} [DecidableEq α] (m : SMap α) (k : Nat) (v d : α) :
    SMap.get (SMap.set m k v d) k d = v := by
  unfold SMap.set
  split
  · next same => rw [SMap.get, SMap.find_del_self, Option.getD_none, same]
  · exact SMap.get_put_self ..

@[simp] theorem State.setHline_hline (s : State) (f l : Nat) (h : HLine) : (s.setHline f l h).hline f l = h := by
  rw [State.hline, State.setHline, State.modField_field, SMap.get_set_self]

theorem State.snoopDone_h (s : State) (f l : Nat) (x : Snoop) (h : HostF) : ((s.snoopDone f l x h).hline f l).h = h := by
  unfold State.snoopDone
  exact congrArg HLine.h (State.setHline_hline ..)

theorem State.snoopDone_contained (s : State) (f l : Nat) (x : Snoop) (h : HostF) :
    ((s.snoopDone f l x h).field f).contained = (s.field f).contained := by
  unfold State.snoopDone
  rw [State.wakeMem_field, State.setHline, State.modField_field, State.modField_field]

theorem exec_birsp_accepted {s : State} {f l : Nat} {x : Snoop} {r : BiRsp} {h : HostF}
    (out : SMap.find? (s.field f).snoops l = some x) (waits : x.done = false) (after : BiRsp.after r x.inv = some h) :
    exec (.birsp f l r) s = .next (s.snoopDone f l x h) := by
  simp only [exec_birsp, execBirsp, out, if_neg (Bool.eq_false_iff.1 waits), after]

theorem exec_biTimeout_over {s : State} {f l : Nat} {x : Snoop} (out : SMap.find? (s.field f).snoops l = some x)
    (waits : x.done = false) (late : x.ns + bits ((s.field f).reg 0xA04) 0 16 * 1000 ≤ s.ns) :
    ∃ t, exec (.biTimeout f l) s = .next t ∧ (t.hline f l).h = .none ∧ (t.field f).contained = true := by
  simp only [exec_biTimeout, execBiTimeout, out, waits, Bool.not_false, Bool.true_and, if_pos (decide_eq_true late)]
  refine ⟨_, rfl, State.snoopDone_h .., ?_⟩
  rw [State.snoopDone_contained, State.modField_field]

/-! ## Host data for a read that was sent (R314) -/

theorem SMap.get_of_mem {α : Type} {m : SMap α} {x : Nat × α} (nodup : (m.map (·.1)).Nodup) (mem : x ∈ m) (d : α) :
    SMap.get m x.1 d = x.2 := by
  suffices found : SMap.find? m x.1 = some x.2 by rw [SMap.get, found, Option.getD_some]
  induction m with
  | nil => cases mem
  | cons y t ih =>
    obtain ⟨fresh, nodup⟩ := List.nodup_cons.1 nodup
    rcases List.mem_cons.1 mem with rfl | later
    · exact if_pos rfl
    · have other : y.1 ≠ x.1 := fun same => fresh (List.mem_map.2 ⟨x, later, same.symm⟩)
      exact (if_neg other).trans (ih nodup later)

@[simp] theorem Ctx.wake_sent (c : Ctx) : c.wake.sent = c.sent := by
  unfold Ctx.wake
  split <;> rfl

/-- The context whose access a reply is for keeps it. -/
theorem State.replyTo_reply {s : State} {c id : Nat} (asked : ((s.ctx c).sent.map (·.id)) = some id) (old : Nat)
    (fl : BitVec 5) : (((s.replyTo c id old fl).ctx c).sent.bind (·.reply)) = some (BitVec.ofNat 128 old, fl) := by
  obtain ⟨e, sent, rfl⟩ := Option.map_eq_some_iff.1 asked
  rw [State.replyTo, State.modCtx_ctx]
  simp [Ctx.wake_sent, sent]

/-- The only context that has sent a request of a number is the one found for its answer. -/
theorem find_asker {l : List (Nat × Ctx)} {c : Nat × Ctx} {f id : Nat} (mem : c ∈ l) (here : fieldOf (coreOf c.1) = f)
    (asked : (c.2.sent.map (·.id)) = some id) (only : ∀ y ∈ l, (y.2.sent.map (·.id)) = some id → y = c) :
    l.find? (fun x => fieldOf (coreOf x.1) == f && (x.2.sent.map (·.id)) == some id) = some c := by
  cases found : l.find? fun x => fieldOf (coreOf x.1) == f && (x.2.sent.map (·.id)) == some id with
  | none => exact absurd (List.find?_eq_none.1 found c mem) (by simp [here, asked])
  | some y =>
    have hit := List.find?_some found
    simp only [Bool.and_eq_true, beq_iff_eq] at hit
    rw [only y (List.mem_of_find?_eq_some found) hit.2]

theorem exec_cxlCacheResponse_load {s : State} {f tag a n : Nat} {c : Nat × Ctx} (data : LineData)
    (one : s.out = [.cxlRead f tag a n]) (nodup : (s.ctxs.map (·.1)).Nodup) (mem : c ∈ s.ctxs)
    (here : fieldOf (coreOf c.1) = f) (only : ∀ y ∈ s.ctxs, (y.2.sent.map (·.id)) = some tag → y = c)
    (asked : (c.2.sent.map (·.id)) = some tag) :
    ∃ t, exec (.cxlCacheResponse f tag data) s = .next t ∧ t.out = [] ∧
      ((t.ctx c.1).sent.bind (·.reply)) = some (BitVec.ofNat 128 (bytesNat (lineBytes data (a % 64) n)), 0) := by
  have awaited : s.out.findSome? (OutMsg.readOf f tag) = some (a, n) := by simp [one, OutMsg.readOf]
  have answered : (s.out.filter fun m => (OutMsg.readOf f tag m).isNone) = [] := by simp [one, OutMsg.readOf]
  have ctx : s.ctx c.1 = c.2 := SMap.get_of_mem nodup mem {}
  simp only [exec_cxlCacheResponse, execCxlCacheResponse, awaited, answered, State.modField_ctxs,
    find_asker mem here asked only]
  refine ⟨_, rfl, rfl, State.replyTo_reply ?_ ..⟩
  exact (congrArg (fun x : Ctx => x.sent.map (·.id)) ctx).trans asked

/-! ## The gateway (R118, R315, R317) -/

theorem exec_peerAccess_admitted {s s1 : State} {f id : Nat} {p : Peer} {x : Nat × BitVec 16} (listed : s.peer? f id = some p)
    (new : p.at_ = none)
    (admitted : exportAt f (some p.srcField) p.handle p.off p.op.bytes p.va p.op.reads (!p.op.reads) s = .ok x s1) :
    exec (.peerAccess f id) s = .next (s1.modField f fun fd =>
      { fd with peers := fd.peers.map fun y => if y.id = id then { y with at_ := some x } else y }) := by
  simp [execPeerAccess, listed, new, admitted]

theorem State.admitted_eq {s : State} {f id va : Nat} {asid : BitVec 16} {p : Peer} (listed : s.peer? f id = some p)
    (at_ : p.at_ = some (va, asid)) : s.admitted f id = some (p, va, asid) := by
  simp only [State.admitted, listed, at_, Option.map_some]

/-- A request that is the first of its task at its block, once it has been served. -/
theorem State.gate_served {s s1 : State} {f : Nat} {p : Peer} {m : M (Nat × BitVec 5)} {r : Nat × BitVec 5}
    (first : (s.field f).peerFirst p = true) (serve : m { s with agent := .work p.id (s.peerService p) } = .ok r s1) :
    s.gate f p m = .next ((s1.endPeer f p (.ok r)).wakeMem fun c => fieldOf (coreOf c) == f) := by
  simp only [State.gate, first, Bool.not_true, Bool.false_eq_true, if_false, serve]

/-- Settles O35: a host request, an answer to a snoop and a gateway's request each by the equation of its served case. -/
theorem hostAndGatewaySteps : Obligations.HostAndGatewaySteps := by
  refine ⟨fun fn f tag off va asid wr s s1 s2 host uncut inside => ?_, fun f id p s listed => ?_⟩
  · refine ⟨fun xlat => ⟨fun mv d p read => ?_, fun d p read => ?_, fun mv d p read => ?_⟩, ?_, fun r x h out waits after => ?_,
      fun x out waits late => exec_biTimeout_over out waits late, exec_h2dSnoop .., ?_⟩
    · exact State.hostRead_served host uncut inside xlat read _
    · exact State.hostRead_served host uncut inside xlat read _
    · exact (exec_hostMeminv ..).trans (State.hostRead_served host uncut inside xlat read fun _ p => .hostDone fn tag (!p))
    · rintro rfl xlat data be
      exact ⟨fun write => ⟨_, State.hostWrite_served host uncut inside xlat write, rfl, rfl⟩,
        fun write => ⟨_, State.hostWrite_served host uncut inside xlat write, rfl, rfl⟩⟩
    · exact ⟨_, exec_birsp_accepted out waits after, State.snoopDone_h ..⟩
    · exact fun c a n data one nodup mem here only asked => exec_cxlCacheResponse_load data one nodup mem here only asked
  · refine ⟨fun new x s1 admitted => exec_peerAccess_admitted listed new admitted, fun va asid at_ first => ?_⟩
    have known := State.admitted_eq listed at_
    refine ⟨fun n bs s1 op read => ?_, fun bs s1 op write => ?_, fun be bs s1 op write => ?_, fun o dw b c old fl s1 op run => ?_⟩
    · simp only [exec_gatewayLoad, execGatewayLoad, known, op]
      exact State.gate_served first (by rw [bind_ok read]; rfl)
    · simp only [exec_gatewayStore, execGatewayStore, known, op]
      exact State.gate_served first (by rw [bind_ok write]; rfl)
    · simp only [exec_gatewayStore, execGatewayStore, known, op]
      exact State.gate_served first (by rw [bind_ok write]; rfl)
    · simp only [exec_gatewayAtomic, execGatewayAtomic, known, op]
      exact State.gate_served first run

end Sys2Proof.Machine
end

section
/-! Reductions and mask forms (R75, R225, R227): what each makes of the context with its ring entry, in the registers that the
context had before. -/

namespace Sys2Proof.Machine

/-- A vector instruction that completes leaves what its effect makes of the context with the new ring entry. -/
theorem exec_eq_regNext_of_runVec {h : Hdr} {i : Instr} {s : State} {dst : RegRef} {f : Ctx → Ctx} {c : Ctx} (on : On h s)
    (room : s.me.ringFull = false) (form : exec i s = runVec h i false dst f s) (effect : f (s.seq dst) = c) :
    exec i s = .next (regNext h s c) := by
  rw [form, runVec_on on room, effect]

/-! ## The active elements -/

theorem seq_activeLanes (s : State) (r : RegRef) (q : QReg) (w : Nat) :
    activeLanes (s.seq r) q w = activeLanes s.me q w := by
  simp only [activeLanes, seq_rq]

theorem seq_activeElems (s : State) (r : RegRef) (q : QReg) (w : Nat) (x : VSrc) :
    activeElems (s.seq r) q w x = activeElems s.me q w x := by
  simp only [activeElems, seq_activeLanes, seq_vsrc]

theorem length_activeElems (c : Ctx) (q : QReg) (w : Nat) (x : VSrc) :
    (activeElems c q w x).length = (activeLanes c q w).length := List.length_map _

/-! ## Reductions (R75, R225) -/

theorem vraddOf_seq (t : ETy) (q : QReg) (d : GReg) (x : VSrc) (s : State) (r : RegRef) :
    vraddOf t q d x (s.seq r) =
      (s.seq r).wg d (BitVec.ofInt 64 (signed t.width (activeElems s.me q t.width x).sum)) := by
  rw [vraddOf, seq_activeElems, List.sum_eq_foldl_nat]

theorem vrminmaxOf_seq_signed (mx : Bool) (t : ETy) (q : QReg) (d : GReg) (x : VSrc) (s : State) (r : RegRef) :
    vrminmaxOf mx t q false d x (s.seq r) =
      (s.seq r).wg d (BitVec.ofInt 64 (((activeElems s.me q t.width x).map (signed t.width ·)).foldl
        (if mx then max else min) (if mx then -2 ^ (t.width - 1) else 2 ^ (t.width - 1) - 1))) := by
  cases mx <;> simp [vrminmaxOf, seq_activeElems, List.foldl_map]

theorem vrminmaxOf_seq_unsigned (mx : Bool) (t : ETy) (q : QReg) (d : GReg) (x : VSrc) (s : State) (r : RegRef) :
    vrminmaxOf mx t q true d x (s.seq r) =
      (s.seq r).wg d (BitVec.ofInt 64 ((activeElems s.me q t.width x).foldl
        (if mx then max else min) (if mx then 0 else 2 ^ t.width - 1) : Nat)) := by
  cases mx <;> simp [vrminmaxOf, seq_activeElems]

theorem vfraddOf_seq (t : ETy) (m : RMode) (q : QReg) (d : GReg) (x : VSrc) (s : State) (r : RegRef) :
    vfraddOf t m q d x (s.seq r) =
      (let z := orderedSum (fmtOf t s.me) m (activeElems s.me q t.width x)
       ((s.seq r).wg d (BitVec.ofNat 64 z.1)).orFlags z.2) := by
  rw [vfraddOf, seq_activeElems, seq_fmt]

theorem vfrmaxOf_seq (t : ETy) (q : QReg) (d : GReg) (x : VSrc) (s : State) (r : RegRef) :
    vfrmaxOf t q d x (s.seq r) =
      (let z := orderedMax (fmtOf t s.me) (activeElems s.me q t.width x)
       ((s.seq r).wg d (BitVec.ofNat 64 z.1)).orFlags z.2) := by
  rw [vfrmaxOf, seq_activeElems, seq_fmt]

/-! ## Mask registers (R227) -/

/-- QCNT counts the lanes of its mask, as many as a reduction of any source under that mask would take. -/
theorem qcntOf_seq (t : ETy) (d : GReg) (q : QReg) (x : VSrc) (s : State) (r : RegRef) :
    qcntOf t d q (s.seq r) = (s.seq r).wg d (BitVec.ofNat 64 (activeElems s.me q t.width x).length) := by
  rw [qcntOf, seq_activeLanes, length_activeElems]

theorem maskOp_seq (op : QWord → QWord → QWord) (d a b : QReg) (s : State) (r : RegRef) :
    (s.seq r).wq d (op ((s.seq r).rq a) ((s.seq r).rq b)) =
      if d = 0 then s.seq r else { s.seq r with q := (s.seq r).q.set d.toNat (op (s.me.rq a) (s.me.rq b)) } := by
  rw [seq_rq, seq_rq, Ctx.wq]

/-! ## The obligation -/

/-- Settles O21: each form is a vector instruction that completes, and its effect reads the registers as they were before the
ring entry. -/
theorem reductionAndMaskResults : Obligations.ReductionAndMaskResults := by
  unfold Obligations.ReductionAndMaskResults
  refine ⟨fun h t q d x s on room => ?_, fun h d a b s on room => ?_⟩
  · have completes {i f c} := exec_eq_regNext_of_runVec (i := i) (dst := gr d) (f := f) (c := c) on room
    exact ⟨completes (exec_vradd ..) (vraddOf_seq ..),
      completes (exec_vrmin ..) (vrminmaxOf_seq_signed false ..), completes (exec_vrmax ..) (vrminmaxOf_seq_signed true ..),
      completes (exec_vrmin ..) (vrminmaxOf_seq_unsigned false ..), completes (exec_vrmax ..) (vrminmaxOf_seq_unsigned true ..),
      fun m => completes (exec_vfradd ..) (vfraddOf_seq ..), completes (exec_vfrmax ..) (vfrmaxOf_seq ..),
      completes (exec_qcnt ..) (qcntOf_seq ..)⟩
  · have completes {i f c} := exec_eq_regNext_of_runVec (i := i) (dst := qr d) (f := f) (c := c) on room
    exact ⟨completes (exec_qand ..) (maskOp_seq (· &&& ·) ..), completes (exec_qor ..) (maskOp_seq (· ||| ·) ..),
      completes (exec_qxor ..) (maskOp_seq (· ^^^ ·) ..), completes (exec_qnot ..) (maskOp_seq (fun v _ => ~~~v) d a a ..)⟩

end Sys2Proof.Machine
end

section
/-! The first checks of an access (R76, R267); what invalidations remove and how they queue and end (R87, R119); park groups that
end and saves at the park time-out (R89, R91). -/

namespace Sys2Proof.Machine

/-! ## Canonical form, then alignment (R76, R267) -/

theorem State.check_beyond {va : Nat} (beyond : 2 ^ 57 ≤ va) (s : State) (a : Acc) (n align : Nat) (k : AccKind) :
    s.check a va n align k = .bad .bounds := if_pos beyond

theorem State.check_misaligned {va align : Nat} (canonical : va < 2 ^ 57) (misaligned : va % align ≠ 0) (s : State) (a : Acc)
    (n : Nat) (k : AccKind) : s.check a va n align k = .bad .align :=
  (if_neg (Nat.not_le.2 canonical)).trans (if_pos misaligned)

theorem access_bad {s : State} {va n align : Nat} {k : AccKind} {c : Cause} (quiet : s.me.rim = [])
    (bad : s.check s.acc va n align k = .bad c) :
    access va n align k s = .error (.trap { cause := c, tval := BitVec.ofNat 64 va }) s := by
  simp [access, rimCheck_ok quiet, place, bad]

theorem memRd_bad {s : State} {va n : Nat} {c : Cause} (quiet : s.me.rim = []) (bad : s.check s.acc va n n .load = .bad c)
    (acq : Option Scope) : memRd va n acq s = .error (.trap { cause := c, tval := BitVec.ofNat 64 va }) s :=
  bind_error (access_bad quiet bad)

theorem memWr_bad {s : State} {va n : Nat} {c : Cause} (quiet : s.me.rim = []) (bad : s.check s.acc va n n .store = .bad c)
    (x : Nat) (rel : Option Scope) : memWr va n x rel s = .error (.trap { cause := c, tval := BitVec.ofNat 64 va }) s :=
  bind_error (access_bad quiet bad)

/-- Settles O11: a check that fails is the trap of a read and of a write alike, and the check of the canonical form comes first. -/
theorem accessChecks : Obligations.AccessChecks := by
  refine fun s va n x o quiet => ⟨fun beyond => ?_, fun canonical misaligned => ?_⟩
  · exact ⟨memRd_bad quiet (State.check_beyond beyond ..) o, memWr_bad quiet (State.check_beyond beyond ..) x o⟩
  · exact ⟨memRd_bad quiet (State.check_misaligned canonical misaligned ..) o,
      memWr_bad quiet (State.check_misaligned canonical misaligned ..) x o⟩

/-! ## Walkers change nothing of a field but its requests (R85) -/

theorem Field.takeWalkers_eq {γ : Type} (view : Field → γ) (keep : ∀ (x : Field) rs, view { x with rreqs := rs } = view x)
    (n : Nat) (fd : Field) : view (fd.takeWalkers n) = view fd := by
  induction n generalizing fd with
  | zero => rfl
  | succ n ih =>
    unfold Field.takeWalkers
    split
    · rfl
    · split
      · rfl
      · exact (ih _).trans (keep fd _)

theorem State.toWalk_field_eq {γ : Type} (view : Field → γ) (keep : ∀ (x : Field) rs, view { x with rreqs := rs } = view x)
    (s : State) (f : Nat) (r : RReq) (g : Nat) : view ((s.toWalk f r).field g) = view (s.field g) := by
  have queued (r : RReq) : view ((s.setReq f r).field g) = view (s.field g) :=
    State.modField_field_eq view (fun x => keep x _) s f g
  unfold State.toWalk
  split
  · exact queued _
  · exact (State.modField_field_eq view (fun x => Field.takeWalkers_eq view keep _ x) _ f g).trans (queued _)

/-! ## Writes of XINV (R87, R119) -/

theorem xinvWrite_idle {f : Nat} {v : Word} {s : State} (scope : xScope v ≠ 3) (idle : (s.field f).inval = none) :
    xinvWrite f v s = .ok () (s.xinvStart f v) := by
  simp [xinvWrite, scope, idle]

theorem xinvWrite_queued {f : Nat} {v w : Word} {s : State} (scope : xScope v ≠ 3) (busy : (s.field f).inval = some w)
    (room : (s.field f).invQueue.length < 16) :
    xinvWrite f v s = .ok () (s.modField f fun fd => { fd with invQueue := fd.invQueue ++ [v] }) := by
  simp [xinvWrite, scope, busy, Nat.not_le.2 room]

theorem xinvWrite_reserved {f : Nat} {v : Word} {s : State} (scope : xScope v = 3) :
    xinvWrite f v s = .ok () (s.modField f fun fd => fd.setReg 0x962 (fd.reg 0x962 ||| 2)) := by
  simp [xinvWrite, scope]

/-- The write of XINV that a scope other than the reserved one makes. -/
inductive XinvOf (f : Nat) (v : Word) : Instr → Prop
  | page (scope : xScope v = 0) : XinvOf f v (.xinvPage f v)
  | asid (scope : xScope v = 1) : XinvOf f v (.xinvAsid f v)
  | all (scope : xScope v = 2) : XinvOf f v (.xinvAll f v)

theorem XinvOf.scope_ne {f : Nat} {v : Word} {i : Instr} (x : XinvOf f v i) : xScope v ≠ 3 := by
  cases x <;> omega

theorem XinvOf.exec_eq {f : Nat} {v : Word} {i : Instr} (x : XinvOf f v i) (s : State) :
    exec i s = runEvent (xinvWrite f v) s := by
  cases x with
  | page scope => exact if_pos scope
  | asid scope => exact if_pos scope
  | all scope => exact if_pos scope

theorem XinvOf.exec_idle {f : Nat} {v : Word} {i : Instr} {s : State} (x : XinvOf f v i) (idle : (s.field f).inval = none) :
    exec i s = .next (s.xinvStart f v) :=
  (x.exec_eq s).trans (runEvent_ok (xinvWrite_idle x.scope_ne idle))

theorem XinvOf.exec_queued {f : Nat} {v w : Word} {i : Instr} {s : State} (x : XinvOf f v i) (busy : (s.field f).inval = some w)
    (room : (s.field f).invQueue.length < 16) :
    exec i s = .next (s.modField f fun fd => { fd with invQueue := fd.invQueue ++ [v] }) :=
  (x.exec_eq s).trans (runEvent_ok (xinvWrite_queued x.scope_ne busy room))

theorem exec_xinvReserved_scope {f : Nat} {v : Word} {s : State} (scope : xScope v = 3) :
    exec (.xinvReserved f v) s = .next (s.modField f fun fd => fd.setReg 0x962 (fd.reg 0x962 ||| 2)) :=
  (if_pos scope).trans (runEvent_ok (xinvWrite_reserved scope))

/-! ## What an invalidation removes (R87, R119) -/

theorem State.xinvStart_inval (s : State) (f : Nat) (v : Word) : ((s.xinvStart f v).field f).inval = some v := by
  rw [State.xinvStart, State.freeWalkers, State.modField_field, Field.takeWalkers_eq Field.inval (by intros; rfl),
    State.modField_field]

theorem State.xinvStart_xlat (s : State) (f : Nat) (v : Word) : ((s.xinvStart f v).field f).xlat =
    (s.field f).xlat.filter fun e => !xMatch v e.vpage e.size.pages e.asid e.g := by
  rw [State.xinvStart, State.freeWalkers, State.modField_field, Field.takeWalkers_eq Field.xlat (by intros; rfl),
    State.modField_field]
  rfl

/-- A core of the field loses the PLB entries and the L1I lines that match; one that the map does not list has none. -/
theorem State.xinvStart_core (s : State) {f k : Nat} (own : fieldOf k = f) (v : Word) : (s.xinvStart f v).core k =
    { s.core k with plb := (s.core k).plb.filter fun e => !xMatch v e.vpage e.size.pages e.asid e.g
                    l1i := (s.core k).l1i.filter fun x => !iMatch v x } := by
  refine (SMap.get_map (fun x => by split <;> rfl) s.cores k ?_).trans ?_
  · rw [if_pos own]; rfl
  · rw [if_pos own]; rfl

/-- What is left after an invalidation has started matches it nowhere. -/
theorem XinvOf.clears {f : Nat} {v : Word} {i : Instr} {s : State} (x : XinvOf f v i) (idle : (s.field f).inval = none) :
    ∃ t, exec i s = .next t ∧ (t.field f).inval = some v ∧
      (∀ k, fieldOf k = f → (∀ e ∈ (t.core k).plb, xMatch v e.vpage e.size.pages e.asid e.g = false) ∧
        ∀ x ∈ (t.core k).l1i, iMatch v x = false) ∧
      ∀ e ∈ (t.field f).xlat, xMatch v e.vpage e.size.pages e.asid e.g = false := by
  refine ⟨_, x.exec_idle idle, State.xinvStart_inval .., fun k own => ?_, fun e mem => ?_⟩
  · rw [State.xinvStart_core s own]
    exact ⟨fun e mem => by simpa using (List.mem_filter.1 mem).2, fun x mem => by simpa using (List.mem_filter.1 mem).2⟩
  · rw [State.xinvStart_xlat] at mem
    simpa using (List.mem_filter.1 mem).2

theorem XinvOf.queues {f : Nat} {v w : Word} {i : Instr} {s : State} (x : XinvOf f v i) (busy : (s.field f).inval = some w)
    (room : (s.field f).invQueue.length < 16) :
    ∃ t, exec i s = .next t ∧ (t.field f).invQueue = (s.field f).invQueue ++ [v] ∧ t.cores = s.cores :=
  ⟨_, x.exec_queued busy room, by rw [State.modField_field], rfl⟩

/-! ## The end of an invalidation (R87) -/

/-- With nothing to wait for and no other in the queue, an invalidation recalls its frames and is over. -/
theorem exec_xinvComplete_last {f : Nat} {w : Word} {s : State} (runs : (s.field f).inval = some w)
    (moved : (s.field f).migWait w = false) (landed : ((s.field f).invFrames w).all (s.purgeable f) = true)
    (last : (s.field f).invQueue = []) :
    exec (.xinvComplete f) s = .next ((((s.field f).invFrames w).foldl (fun s fr => s.purgeFrame f fr) s).modField f
      fun fd => { fd with inval := none, invQueue := fd.invQueue.drop 1 }) := by
  have goes : ¬ ((s.field f).migWait w || !((s.field f).invFrames w).all (s.purgeable f)) = true := by simp [moved, landed]
  simp only [exec_xinvComplete, execXinvComplete, runs, if_neg goes, last]

/-! ## Park groups (R89) -/

theorem State.endAtomic_fields (s : State) (r : RReq) (res : Except (BitVec 8) (Nat × BitVec 5)) :
    (s.endAtomic r res).fields = s.fields := by
  unfold State.endAtomic
  extract_lets t
  have answered : t.fields = s.fields := by
    unfold t
    split
    · rfl
    · split <;> rfl
  split
  · exact answered
  · split <;> exact answered

theorem State.failFill_parks (s : State) (f : Nat) (r : RReq) (code : BitVec 8) (g : Nat) :
    ((s.failFill f r code).field g).parks = (s.field g).parks := by
  unfold State.failFill
  exact (State.modField_field_eq Field.parks (by intros; rfl) _ f g).trans
    (foldl_frame (fun s : State => (s.field g).parks) (by intros; rfl) s)

/-- A request that fails leaves the park groups: each kind's end is its own branch. -/
theorem State.failReq_parks (s : State) (f : Nat) (r : RReq) (code : BitVec 8) (g : Nat) :
    ((s.failReq f r code).field g).parks = (s.field g).parks := by
  unfold State.failReq
  extract_lets done dropped
  have gone : (dropped.field g).parks = (s.field g).parks :=
    State.modField_field_eq Field.parks (by intros; rfl) done f g
  split
  · exact (State.failFill_parks ..).trans gone
  · split
    · exact (State.logErr_field_eq Field.parks (by intros; rfl) dropped ..).trans gone
    · exact gone
  · exact (congrArg Field.parks (State.field_of_fields (State.endAtomic_fields ..) g)).trans gone
  · split
    · exact gone
    · exact (State.modField_field_eq Field.parks (by intros; rfl) dropped f g).trans gone

/-- A group that is closed stays so while its requests go on, one after another. -/
theorem State.parks_closed {op : State → RReq → State} {f : Nat}
    (keep : ∀ s r, ((op s r).field f).parks = (s.field f).parks) (s : State) (g : Nat) (rs : List RReq) :
    SMap.find? ((rs.foldl op (s.modField f fun fd => { fd with parks := SMap.del fd.parks g })).field f).parks g = none := by
  rw [foldl_frame (fun s : State => (s.field f).parks) (fun s r _ => keep s r), State.modField_field]
  exact SMap.find_del_self ..

theorem State.parkRetry_leaf {s : State} {f : Nat} {v : Word} {p : Park} {l : Leaf}
    (open_ : SMap.find? (s.field f).parks (bits v 0 12) = some p)
    (leaf : s.walk f p.asid p.va (((s.field f).parkedIn (bits v 0 12)).any fun r => r.kind.plbFill) = .leaf l) :
    SMap.find? ((s.parkRetry f v).field f).parks (bits v 0 12) = none := by
  simp only [State.parkRetry, open_, leaf]
  exact State.parks_closed (fun s r => State.toWalk_field_eq Field.parks (by intros; rfl) s f r f) s ..

theorem State.parkFail_closed (s : State) (f : Nat) (v : Word) :
    SMap.find? ((s.parkFail f v).field f).parks (bits v 0 12) = none := by
  unfold State.parkFail
  extract_lets g
  split
  case h_1 closed => exact closed
  case h_2 => exact State.parks_closed (fun s r => State.failReq_parks s f r codeNomap f) s ..

/-! ## Saves at the park time-out (R91) -/

theorem Ctx.issues_saving {c : Ctx} (issues : c.issues = true) : c.saving = none := by
  simp only [Ctx.issues, Bool.and_eq_true, Option.isNone_iff_eq_none] at issues
  exact issues.1

theorem exec_parkTimeoutSave_due {c since : Nat} {s : State} (parked : s.parkedSince c = some since)
    (limited : bits ((s.field (fieldOf (coreOf c))).reg 0x963) 0 16 ≠ 0)
    (elapsed : since + bits ((s.field (fieldOf (coreOf c))).reg 0x963) 0 16 * 1000 ≤ s.ns) (task : ctxNum c < 14)
    (issues : (s.ctx c).issues = true) (canSave : s.canSave c = true) :
    exec (.parkTimeoutSave c) s = .next (s.leave c 2) := by
  simp [execParkTimeoutSave, Ctx.issues_saving issues, parked, limited, elapsed, task, issues, canSave]

theorem State.leave_unstopped {s : State} {c : Nat} (member : (s.ctx c).task.stop = false) (reason : Nat) :
    s.leave c reason = s.takeOut c reason := if_neg (Bool.eq_false_iff.1 member)

/-! ## The obligation -/

/-- Settles O30: a write of XINV starts an invalidation, queues or sets ERR; one that is over leaves none; each command to a park
group, and the time-out, by the equation of its step. -/
theorem invalidationAndParkSteps : Obligations.InvalidationAndParkSteps := by
  intro f v s
  refine ⟨fun idle => ?_, fun scope => ?_, fun w busy room => ?_, fun w runs moved landed last => ?_, fun retry => ?_,
    fun fail => ?_, fun c since => fun parked limited elapsed task issues canSave member => ?_⟩
  · exact ⟨fun scope => (XinvOf.page scope).clears idle, fun scope => (XinvOf.asid scope).clears idle,
      fun scope => (XinvOf.all scope).clears idle⟩
  · refine ⟨_, exec_xinvReserved_scope scope, ?_, rfl⟩
    rw [State.modField_field, Field.setReg_reg]
  · exact ⟨fun scope => (XinvOf.page scope).queues busy room, fun scope => (XinvOf.asid scope).queues busy room,
      fun scope => (XinvOf.all scope).queues busy room⟩
  · exact ⟨_, exec_xinvComplete_last runs moved landed last, by rw [State.modField_field]⟩
  · exact ⟨if_neg (Bool.eq_false_iff.1 retry), fun p l open_ leaf => State.parkRetry_leaf open_ leaf⟩
  · exact ⟨if_pos fail, State.parkFail_closed ..⟩
  · rw [exec_parkTimeoutSave_due parked limited elapsed task issues canSave, State.leave_unstopped member]

end Sys2Proof.Machine
end

section
/-! Late faults and forced saves (R379 to R381), the failure of a core (R385, R386), the ends of kills and revocations (R392,
R393). -/

namespace Sys2Proof.Machine

/-! ## Late faults and forced saves (R379 to R381, R386) -/

theorem Ctx.issues_of_ready {c : Ctx} (ready : c.st = .ready) (unsaved : c.saving = none) : c.issues = true := by
  simp [Ctx.issues, ready, unsaved]

theorem Ctx.busy_of_runs_or_waits {c : Ctx} (runs : c.st = .ready ∨ ∃ w, c.st = .waiting w) (unsaved : c.saving = none) :
    c.busy = true := by
  unfold Ctx.busy
  obtain ready | ⟨w, waits⟩ := runs
  · rw [ready, unsaved]; rfl
  · rw [waits, unsaved]; rfl

theorem exec_lateFaultTake_ready {s : State} {c : Nat} (ready : (s.ctx c).st = .ready) (unsaved : (s.ctx c).saving = none)
    (unsent : (s.ctx c).sent = none) (resolved : s.unresolved c = false) :
    exec (.lateFaultTake c) s = .next (s.takeLate c) :=
  if_pos ⟨ready, Ctx.issues_of_ready ready unsaved, by rw [unsent]; rfl, by rw [resolved]; rfl⟩

theorem exec_forcedSave_due {s : State} {c : Nat} (unsaved : (s.ctx c).saving = none) (due : s.saveDue c = true) :
    exec (.forcedSave c) s = .next (s.leave c 1) := by
  simp [execForcedSave, unsaved, due]

theorem exec_forcedSave_goes_on {s t : State} {c : Nat} {v : Saving} (saving : (s.ctx c).saving = some v)
    (on : saveOn c s = .ok () t) : exec (.forcedSave c) s = .next t := by
  simp [execForcedSave, saving, runEvent_ok on]

theorem State.leave_boundary {s : State} {c : Nat} (boundary : (s.unsend c).midway c = false) (reason : Nat) :
    s.leave c reason = if (s.ctx c).task.stop = true then s.discard c
      else (s.unsend c).beginSave c reason (s.reqsOf c) := by
  simp [State.leave, State.takeOut, boundary]

/-! ## Kills (R392) -/

theorem onFail_ok {α : Type} {m : M α} {s t : State} {a : α} (ok : m s = .ok a t) (g : BitVec 8 → Nat → M α) :
    onFail m g s = .ok a t := by
  simp only [onFail, tryCatch, tryCatchThe, MonadExceptOf.tryCatch, EStateM.tryCatch, ok]

theorem exec_killComplete_begins {s : State} {f id : Nat} {x : Kill}
    (listed : (s.field f).kills.find? (fun x => x.id == id) = some x) (waits : x.begun = false) :
    exec (.killComplete f id) s = .next (s.beginKill x) := by
  simp [execKillComplete, listed, waits]

theorem exec_killComplete_done {s s1 : State} {f id : Nat} {x : Kill}
    (listed : (s.field f).kills.find? (fun x => x.id == id) = some x) (begun : x.begun = true)
    (done : (s.withdraw x.core x.tid x.cx []).killDone x = true)
    (record : writeRecord x.by_ x.asid x.record x.id [x.recs, x.items, x.dead, x.lost] (s.withdraw x.core x.tid x.cx []).ns
      (s.withdraw x.core x.tid x.cx []) = .ok () s1) :
    exec (.killComplete f id) s = .next (s1.endKill f x) := by
  simp only [exec_killComplete, execKillComplete, listed, begun, done, Bool.not_true, Bool.false_eq_true, if_false]
  exact runEvent_ok (bind_ok (onFail_ok record _))

/-! ## Revocations (R393) -/

/-- The state of a key ID that is being revoked becomes revoked. -/
def Field.endRevoke (fd : Field) (key : BitVec 8) : Field :=
  if (fd.slot key).st = .revoking then fd.setKey key .revoked else fd

theorem Field.setKey_slot (fd : Field) (key : BitVec 8) (st : KeySt) : (fd.setKey key st).slot key = { fd.slot key with st := st } :=
  SMap.get_put_self ..

theorem Field.endRevoke_st (fd : Field) (key : BitVec 8) :
    ((fd.endRevoke key).slot key).st = if (fd.slot key).st = .revoking then .revoked else (fd.slot key).st := by
  unfold Field.endRevoke
  split
  · rw [Field.setKey_slot]
  · rfl

/-- A revocation of a key ends in every field of a list. -/
def State.endRevokes (s : State) (fs : List Nat) (key : BitVec 8) : State :=
  fs.foldl (fun s f => s.modField f fun fd => fd.endRevoke key) s

theorem State.endRevoke_st (s : State) (f g : Nat) (key : BitVec 8) :
    (((s.modField f fun fd => fd.endRevoke key).field g).slot key).st =
      if g = f ∧ ((s.field g).slot key).st = .revoking then .revoked else ((s.field g).slot key).st := by
  by_cases own : g = f
  · subst own
    rw [State.modField_field, Field.endRevoke_st]
    simp
  · rw [if_neg fun h => own h.1]
    exact congrArg (fun fd : Field => (fd.slot key).st) (State.setField_field_ne s f g _ own)

/-- In a field of the list the key's own step ends its revocation, and no other step begins one or takes the end back. -/
theorem State.endRevokes_st {s : State} {fs : List Nat} {g : Nat} {key : BitVec 8} (mem : g ∈ fs)
    (revoking : ((s.field g).slot key).st = .revoking) : (((s.endRevokes fs key).field g).slot key).st = .revoked := by
  let st (s : State) : KeySt := ((s.field g).slot key).st
  have named : st (s.endRevokes fs key) = .revoking ∨ st (s.endRevokes fs key) = .revoked := by
    refine fs.foldlRecOn (motive := fun s => st s = .revoking ∨ st s = .revoked) _ (.inl revoking) fun t held f _ => ?_
    simp only [st, State.endRevoke_st] at held ⊢
    split
    · exact .inr rfl
    · exact held
  have ended : st (s.endRevokes fs key) ≠ .revoking := by
    refine foldl_reaches (P := fun s => st s ≠ .revoking) mem (fun t => ?_) (fun t f held => ?_) s
    · simp only [st, State.endRevoke_st]
      split <;> simp_all
    · simp only [st, State.endRevoke_st]
      split
      · exact nofun
      · exact held
  exact named.resolve_left ended

theorem exec_revokeComplete_done {s s1 : State} {part id va j : Nat} {p : Part} {r : Revoke} {asid : BitVec 16}
    (listed : s.revokes.find? (fun r => r.id == id && r.part == part) = some r) (partition : SMap.find? s.parts part = some p)
    (done : s.revokeDone p = true) (wanted : r.record = some (va, asid, j))
    (record : writeRecord j asid va id [r.recs, r.items, r.lines, 0] s.ns s = .ok () s1) :
    exec (.revokeComplete part id) s =
      .next (let u := s1.endRevokes p.fields r.key; { u with revokes := u.revokes.filter fun x => x.id != id }) := by
  simp only [exec_revokeComplete, execRevokeComplete, listed, partition, done, Bool.not_true, Bool.false_eq_true, if_false, wanted]
  exact runEvent_ok (bind_ok (onFail_ok record _))

/-! ## The obligation -/

/-- Settles O45, a step at a time: each clause is the equation of its branch, and a revocation that ends is a fold over the
fields of its partition. -/
theorem faultSteps : Obligations.FaultSteps := by
  refine fun f id k s s1 => ⟨fun c ready unsaved unsent resolved => exec_lateFaultTake_ready ready unsaved unsent resolved,
    fun c task preq runs unsaved elapsed canSave boundary => ?_, fun c v saving on => exec_forcedSave_goes_on saving on,
    fun works => ?_, fun x listed waits => exec_killComplete_begins listed waits,
    fun x listed begun done record => exec_killComplete_done listed begun done record,
    fun part p r va asid j listed partition done wanted record => ?_⟩
  · have due : s.saveDue c = true := by
      simp [State.saveDue, task, preq, Ctx.busy_of_runs_or_waits runs unsaved, elapsed, canSave, boundary]
    rw [exec_forcedSave_due unsaved due, State.leave_boundary boundary]
  · exact if_neg (Bool.eq_false_iff.1 works)
  · refine ⟨_, exec_revokeComplete_done listed partition done wanted record, fun x mem => ?_, fun g mem revoking => ?_⟩
    · simpa using (List.mem_filter.1 mem).2
    · exact State.endRevokes_st mem revoking

end Sys2Proof.Machine
end

section
/-! Requests of clusters at a home slice, served in arrival order (R100, R103 to R116, R130). -/

namespace Sys2Proof.Machine

/-! ## The first request at its line -/

theorem takeFail_none {f l : Nat} {s : State} (unfailed : (s.field f).failOf l s.agent = none) :
    takeFail f l s = .ok none s := by
  simp [takeFail, unfailed]

theorem atHome_first {f id : Nat} {r : HReq} {s : State} {kind : HReqKind → Bool} (listed : s.hreq? f id = some r)
    (first : (s.field f).firstAt r = true) (unfailed : (s.field f).failOf r.line (.work r.id r.svc) = none)
    (unheld : s.heldFor f r.line (.work r.id r.svc) = false) (ofKind : kind r.kind = true) (m : HReq → M Unit) :
    atHome f id kind m s = m r { s with agent := .work r.id r.svc } := by
  have taken : takeFail f r.line { s with agent := .work r.id r.svc } = .ok none { s with agent := .work r.id r.svc } :=
    takeFail_none unfailed
  simp [atHome, listed, first, unheld, ofKind, asAgent, taken]

/-! ## Each kind of request -/

theorem prefetchFill_demand {r : HReq} (demand : r.pref = false) (f : Nat) (s : State) : prefetchFill f r s = .ok () s := by
  simp [prefetchFill, demand]

theorem rdsAt_ok {f : Nat} {r : HReq} {s s1 : State} {x : L2Line} (absent : s.holdsNow f r.cl r.line = false)
    (demand : r.pref = false) (read : homeRds f r.cl r.line s = .ok x s1) :
    rdsAt f r s = .ok () ((s1.dropHReq f r.id).sendFill r.cl r.line x) := by
  simp [rdsAt, absent, prefetchFill_demand demand, read]

theorem ownAt_ok {f : Nat} {r : HReq} {s s1 : State} (own : r.kind = .own) (granted : homeGrant f r.cl r.line s = .ok () s1) :
    let t := (s1.dropHReq f r.id).sendFill r.cl r.line ((s1.cluster r.cl).grant r.line)
    ownAt f r s = .ok () (match r.cx with
      | none => t
      | some c => t.modCtx c fun x => { x with sent := x.sent.filter fun y => y.id != r.id }) := by
  simp only [ownAt, own, M_bind, M_pure, granted, M_modify]
  cases r.cx <;> rfl

theorem mergeAt_ok {f : Nat} {r : HReq} {s s1 : State} {h : HLine} (holds : inList r.cl (s.hline f r.line).dir.holders = true)
    (whole : homeData f r.line (s.triggerTile f r.line (some r.cl)) = .ok h s1) :
    mergeAt f r s = .ok () ((s1.dropHReq f r.id).modCluster r.cl fun c =>
      { c with merges := c.merges.filter (fun y => y.1 != r.line) ++ [(r.line, h.data, h.poison)] }) := by
  simp [mergeAt, holds, whole]

theorem countAtomic_placed {f : Nat} {r : HReq} {s : State} (placed : r.placed = true)
    (far : s.tileNear f r.cl r.line = false) : countAtomic f r s = .ok r s := by
  simp [countAtomic, placed, far]

theorem atomicAtHome_placed {f : Nat} {r : HReq} {s : State} {op : AtOp} {dw : Bool} {b c : BitVec 128} {adaptive : Bool}
    (atomic : r.kind = .atomic op dw b c false adaptive) (placed : r.placed = true) (far : s.tileNear f r.cl r.line = false) :
    atomicAtHome f r s = bankAtomic f r op dw b c adaptive s := by
  rw [atomicAtHome, bind_ok (countAtomic_placed placed far), atomic]

/-- The home has nothing of a line and placement is fixed at the home: the memory controller performs the atomic (R115). -/
def HLine.atRim (h : HLine) (adaptive : Bool) : Prop :=
  adaptive = false ∧ h.present = false ∧ h.dirty = 0 ∧ h.poison = false

theorem HLine.atRim_iff (h : HLine) (adaptive : Bool) :
    (!adaptive && !h.present && h.dirty == 0 && !h.poison) = true ↔ h.atRim adaptive := by
  simp [HLine.atRim, and_assoc]

theorem bankAtomic_rim {f : Nat} {r : HReq} {s s1 : State} {adaptive : Bool}
    (collected : homeCollect f r.line (some r.cl) s = .ok () s1) (rim : (s1.hline f r.line).atRim adaptive) (op : AtOp) (dw : Bool) (b c : BitVec 128) :
    bankAtomic f r op dw b c adaptive s = .ok () ((s1.dropHReq f r.id).postRim f
      { id := 0, kind := .atomic, va := keyVa r.line + r.off, asid := keyAsid r.line, core := none, cx := r.cx
        op := some (op, dw, b, c) }) := by
  have here := (HLine.atRim_iff ..).2 rim
  simp only [bankAtomic, M_bind, collected, M_get, M_ite, if_pos here, M_set]

theorem bankAtomic_bank {f x : Nat} {r : HReq} {s s1 s2 : State} {h : HLine} {adaptive : Bool}
    (collected : homeCollect f r.line (some r.cl) s = .ok () s1) (bank : ¬ (s1.hline f r.line).atRim adaptive)
    (asker : r.cx = some x) (whole : homeData f r.line s1 = .ok h s2) (sound : h.poison = false)
    (op : AtOp) (dw : Bool) (b c : BitVec 128) :
    let d := s2.homeApply f r.line r.off op (AtOp.bytes op dw) b.toNat c.toNat
    bankAtomic f r op dw b c adaptive s = .ok () ((d.1.dropHReq f r.id).replyTo x r.id d.2.1 d.2.2) := by
  have here := fun h => bank ((HLine.atRim_iff ..).1 h)
  simp only [bankAtomic, M_bind, collected, M_get, M_ite, if_neg here, whole, asker, sound, Bool.false_eq_true, if_false, M_set]

theorem exec_homeEviction_first {f id : Nat} {r : HReq} {s : State} {data : LineData} {be : BitVec 64} {poison : Bool}
    (listed : s.hreq? f id = some r) (first : (s.field f).firstAt r = true)
    (unheld : s.heldFor f r.line (.work r.id r.svc) = false) (evicts : r.kind = .evict data be poison) :
    exec (.homeEviction f id) s = .next (((s.homeEvict f r.cl r.line data be poison).dropHReq f id).wakeMem
      fun c => fieldOf (coreOf c) == f) := by
  simp [execHomeEviction, listed, evicts, first, unheld]

/-! ## The obligation -/

/-- Settles O32: a request that is first at its line runs as its own agent, and each kind of request ends by one equation. -/
theorem homeSteps : Obligations.HomeSteps := by
  intro f id r s listed first unfailed unheld s0
  refine ⟨fun rds absent demand x s1 read => ?_, fun own s1 granted => ?_, fun merge holds h s1 whole => ?_,
    fun data be poison evicts => exec_homeEviction_first listed first unheld evicts,
    fun op dw b c adaptive s1 atomic placed far collected => ?_⟩
  · refine runEvent_ok ((atHome_first listed first unfailed unheld ?_ _).trans (rdsAt_ok absent demand read))
    rw [rds]
  · refine runEvent_ok ((atHome_first listed first unfailed unheld ?_ _).trans (ownAt_ok own granted))
    rw [own]
  · refine ⟨_, runEvent_ok ((atHome_first listed first unfailed unheld ?_ _).trans (mergeAt_ok holds whole)), ?_⟩
    · rw [merge]
    · simp
  · have served {t : State} (ends : bankAtomic f r op dw b c adaptive s0 = .ok () t) : exec (.homeAtomic f id) s = .next t := by
      refine runEvent_ok (u := ()) ((atHome_first listed first unfailed unheld ?_ _).trans ?_)
      · rw [atomic]; rfl
      · exact (atomicAtHome_placed (s := s0) atomic placed far).trans ends
    exact ⟨fun rim => served (bankAtomic_rim collected rim op dw b c),
      fun bank x s2 h asker whole sound => served (bankAtomic_bank collected bank asker whole sound op dw b c)⟩

end Sys2Proof.Machine
end

section
/-! What arrives at a cluster's L2 and what leaves it, the stores that perform there, and the errors of the memories near the
core (R114, R120 to R132). -/

namespace Sys2Proof.Machine

/-! ## Lines of an L2 after its updates -/

@[simp] theorem State.setL2_l2 (s : State) (cl l : Nat) (x : L2Line) : (s.setL2 cl l x).l2 cl l = some x := by
  rw [State.l2, State.setL2, State.modCluster_cluster, SMap.find_put_self]

theorem State.setL2_l2_ne (s : State) {cl d : Nat} (ne : d ≠ cl) (l m : Nat) (x : L2Line) :
    (s.setL2 cl l x).l2 d m = s.l2 d m :=
  congrArg (fun c : Cluster => SMap.find? c.l2 m) (State.setCluster_cluster_ne s cl d _ ne)

@[simp] theorem State.install_l2 (s : State) (cl l : Nat) (x : L2Line) : (s.install cl l x).l2 cl l = some x :=
  State.setL2_l2 ..

@[simp] theorem State.wakeMem_l2 (s : State) (p : Nat → Bool) (cl l : Nat) : (s.wakeMem p).l2 cl l = s.l2 cl l := rfl

@[simp] theorem State.logErr_l2 (s : State) (f : Nat) (cls : ErrCls) (a : ErrAt) (cl l : Nat) :
    (s.logErr f cls a).l2 cl l = s.l2 cl l := rfl

@[simp] theorem State.modCore_l2 (s : State) (k : Nat) (g : Core → Core) (cl l : Nat) : (s.modCore k g).l2 cl l = s.l2 cl l := rfl

@[simp] theorem State.logErr_core (s : State) (f : Nat) (cls : ErrCls) (a : ErrAt) (k : Nat) :
    (s.logErr f cls a).core k = s.core k := rfl

@[simp] theorem State.modCluster_l2 (s : State) (cl l : Nat) (g : Cluster → Cluster) :
    (s.modCluster cl g).l2 cl l = SMap.find? (g (s.cluster cl)).l2 l := by
  rw [State.l2, State.modCluster_cluster]

/-- What loads see of a line: its data, its valid words and its state. A load of the line by its own cluster changes only its
lease. -/
def L2Line.shown (x : L2Line) : LineData × BitVec 16 × L2St := (x.data, x.valid, x.st)

theorem State.prefL1_shown (s : State) (k cl l : Nat) :
    ((s.prefL1 k l).l2 cl l).map L2Line.shown = (s.l2 cl l).map L2Line.shown := by
  unfold State.prefL1
  split
  · rfl
  · next x hit =>
    split
    · rfl
    · dsimp only
      rw [State.modCore_l2]
      by_cases own : cl = clusterOf k
      · subst own
        rw [State.setL2_l2, hit]
        rfl
      · rw [State.setL2_l2_ne s own]

theorem State.prefetchIn_shown (s : State) (cl l : Nat) :
    ((s.prefetchIn cl l).l2 cl l).map L2Line.shown = (s.l2 cl l).map L2Line.shown := by
  refine foldl_frame (fun s : State => (s.l2 cl l).map L2Line.shown) (fun s k _ => ?_) s
  split
  · exact State.prefL1_shown ..
  · rfl

/-! ## Fills, merging fills and pushes, each the first of its slice (R104) -/

section
variable {cl line : Nat} {s : State}

theorem exec_readFillReply_absent {y : Nat × L2Line}
    (first : List.find? (fun (y : Nat × L2Line) => sliceOf y.1 == sliceOf line && (s.cluster cl).room y.1)
      (s.cluster cl).fills = some y)
    (own : y.1 = line) (absent : s.l2 cl line = none) :
    ∃ t, exec (.readFillReply cl line) s = .next t ∧ (t.l2 cl line).map L2Line.shown = some y.2.shown := by
  simp only [exec_readFillReply, execReadFillReply, first, own, bne_self_eq_false, Bool.false_eq_true, if_false,
    State.modCluster_l2, show SMap.find? (s.cluster cl).l2 line = none from absent]
  refine ⟨_, rfl, ?_⟩
  rw [State.wakeMem_l2, State.prefetchIn_shown, State.install_l2, Option.map_some]

theorem exec_readFillReply_present {y : Nat × L2Line} {x : L2Line}
    (first : List.find? (fun (y : Nat × L2Line) => sliceOf y.1 == sliceOf line && (s.cluster cl).room y.1)
      (s.cluster cl).fills = some y)
    (own : y.1 = line) (hit : s.l2 cl line = some x) :
    ∃ t, exec (.readFillReply cl line) s = .next t ∧ (t.l2 cl line).map L2Line.shown = some (x.data, x.valid, y.2.st) := by
  simp only [exec_readFillReply, execReadFillReply, first, own, bne_self_eq_false, Bool.false_eq_true, if_false,
    State.modCluster_l2, show SMap.find? (s.cluster cl).l2 line = some x from hit]
  refine ⟨_, rfl, ?_⟩
  rw [State.wakeMem_l2, State.prefetchIn_shown, State.setL2_l2, Option.map_some, L2Line.shown]

theorem exec_mergeFillArrive_first {y : Nat × LineData × Bool} {x : L2Line}
    (first : List.find? (fun (y : Nat × LineData × Bool) => sliceOf y.1 == sliceOf line) (s.cluster cl).merges = some y)
    (own : y.1 = line) (hit : s.l2 cl line = some x) :
    ∃ t, exec (.mergeFillArrive cl line) s = .next t ∧ t.l2 cl line = some (x.mergeFill y.2.1 y.2.2) := by
  simp only [exec_mergeFillArrive, execMergeFillArrive, first, own, bne_self_eq_false, Bool.false_eq_true, if_false,
    State.modCluster_l2, show SMap.find? (s.cluster cl).l2 line = some x from hit]
  refine ⟨_, rfl, ?_⟩
  rw [State.wakeMem_l2, State.setL2_l2]

/-- The first push of a slice is the first of its own line. -/
theorem find_line_of_find_slice {y : Nat × LineData × Bool} {l : List (Nat × LineData × Bool)}
    (first : l.find? (fun y => sliceOf y.1 == sliceOf line) = some y) (own : y.1 = line) :
    l.find? (fun y => y.1 == line) = some y := by
  obtain ⟨-, before, after, rfl, others⟩ := List.find?_eq_some_iff_append.1 first
  refine List.find?_eq_some_iff_append.2 ⟨by simpa using own, before, after, rfl, fun z mem => ?_⟩
  have far := others z mem
  simp only [Bool.not_eq_true', beq_eq_false_iff_ne] at far ⊢
  exact fun e => far (congrArg sliceOf e)

theorem exec_tilePushInstall_first {y : Nat × LineData × Bool}
    (first : List.find? (fun (y : Nat × LineData × Bool) => sliceOf y.1 == sliceOf line) (s.cluster cl).pushes = some y)
    (own : y.1 = line) (absent : s.l2 cl line = none) (room : (s.cluster cl).room line = true) :
    ∃ t, exec (.tilePushInstall cl line) s = .next t ∧ ((t.l2 cl line).map fun x => (x.data, x.st)) = some (y.2.1, .s) := by
  simp only [exec_tilePushInstall, execTilePushInstall, first, own, if_true, State.landPush, find_line_of_find_slice first own,
    absent, room]
  refine ⟨_, rfl, ?_⟩
  rw [State.wakeMem_l2, State.install_l2, Option.map_some]

/-! ## Recalls and evictions -/

theorem exec_clusterRecall_listed (listed : inList cl (s.hline (fieldOfCl cl) line).dir.holders = true)
    (untiled : (s.hline (fieldOfCl cl) line).tile = none) (free : s.recallable cl line = true) :
    exec (.clusterRecall cl line) s = .next (s.giveBack (fieldOfCl cl) cl line) := by
  simp [execClusterRecall, listed, untiled, free]

theorem exec_l2Eviction_free {x : L2Line} (hit : s.l2 cl line = some x) (unheld : x.hold = false) (unmarked : x.marks = [])
    (settled : (s.cluster cl).incoming line = false) (unpushed : ∀ y ∈ (s.cluster cl).pushes, y.1 ≠ line) :
    exec (.l2Eviction cl line) s = .next (s.evictL2 cl line x) := by
  have none_pushed : ((s.cluster cl).pushes.any fun y => y.1 == line) = false := by simpa using unpushed
  simp [execL2Eviction, hit, unheld, unmarked, settled, none_pushed]

end

/-! ## Stores that perform (R120, R122, R128) -/

/-- The line of a store is owned in its cluster, no answer for it is on its way, and the words the store writes in part are
valid. -/
structure State.StoreReady (s : State) (k : Nat) (e : SqEnt) (x : L2Line) : Prop where
  settled : (s.cluster (clusterOf k)).incoming (lineKey e.asid e.va) = false
  hit : s.l2 (clusterOf k) (lineKey e.asid e.va) = some x
  owned : x.st = .m ∨ x.st = .e
  whole : (wordsTouched e.be &&& ~~~(wordsCovered e.be) &&& ~~~x.valid) = 0

theorem storeAtL2_stamped {s : State} {k w : Nat} {e : SqEnt} {x : L2Line} (ready : s.StoreReady k e x)
    (stamped : e.stamp = some w) (due : w ≤ s.pts k) (idx : Nat) :
    storeAtL2 k idx e s = .ok () (s.performStore k idx e x w) := by
  obtain ⟨settled, hit, owned, whole⟩ := ready
  have owns : (x.st != .m && x.st != .e) = false := by rcases owned with st | st <;> rw [st] <;> rfl
  simp only [storeAtL2, M_bind, M_get, settled, hit, owns, stamped, whole, Nat.not_lt.2 due, bne_self_eq_false,
    Bool.false_eq_true, if_false, Option.isNone_some, Bool.and_false, decide_false, M_wait_false, M_set]

theorem storeAtL2_unstamped {s : State} {k w : Nat} {e : SqEnt} {x : L2Line} (ready : s.StoreReady k e x)
    (fresh : e.stamp = none) (plain : e.rel = none) (unheld : x.hold = false) (stamp : w = max (s.pts k) (x.rts + 1))
    (passes : w = s.pts k ∨ bits ((s.core k).reg 0x9A4) 16 8 < w - s.pts k) (idx : Nat) :
    storeAtL2 k idx e s = .ok () ((s.raisePts k w).performStore k idx e x w) := by
  obtain ⟨settled, hit, owned, whole⟩ := ready
  have owns : (x.st != .m && x.st != .e) = false := by rcases owned with st | st <;> rw [st] <;> rfl
  have due : ¬ (decide (w - s.pts k ≤ bits ((s.core k).reg 0x9A4) 16 8) && decide (s.pts k < w)) = true := by
    simp only [Bool.and_eq_true, decide_eq_true_eq]
    omega
  subst stamp
  simp only [storeAtL2, M_bind, M_get, settled, hit, owns, fresh, plain, unheld, whole, bne_self_eq_false,
    Bool.false_eq_true, if_false, Option.isSome_none, Bool.false_and, M_wait_false, M_ite]
  exact if_neg due

theorem exec_l2StorePerform_ok {s t : State} {k idx : Nat} {e : SqEnt} (queued : (s.core k).sq[idx]? = some e)
    (may : sqMayGo (s.core k).sq idx e = true) (performs : storeAtL2 k idx e s = .ok () t) :
    exec (.l2StorePerform k idx) s = .next t := by
  simp only [exec_l2StorePerform, execL2StorePerform, queued, may, if_true]
  exact runEvent_ok performs

/-! ## Errors of the memories near the core (R132) -/

theorem exec_l1ParityError_l1i {s : State} {k line : Nat} (held : (SMap.find? (s.core k).l1i line).isSome = true) :
    ∃ t, exec (.l1ParityError k true line) s = .next t ∧ SMap.find? (t.core k).l1i line = none := by
  refine ⟨_, (exec_l1ParityError ..).trans (if_pos held), ?_⟩
  rw [State.logErr_core, State.modCore_core]
  exact SMap.find_del_self ..

theorem exec_l1ParityError_l1d {s : State} {k line : Nat} (held : (SMap.find? (s.core k).l1d line).isSome = true) :
    ∃ t, exec (.l1ParityError k false line) s = .next t ∧ SMap.find? (t.core k).l1d line = none := by
  refine ⟨_, (exec_l1ParityError ..).trans (if_pos held), ?_⟩
  rw [State.logErr_core, State.modCore_core]
  exact SMap.find_del_self ..

theorem exec_sramEccError_l2 {s : State} {cl line w : Nat} {x : L2Line} (hit : s.l2 cl line = some x) (word : w < 8) :
    ∃ t, exec (.sramEccError cl true (8 * line + w) .double) s = .next t ∧
      t.l2 cl line = some { x with pw := x.pw ||| BitVec.ofNat 8 (2 ^ w) } := by
  have of_line : (8 * line + w) / 8 = line := by omega
  have in_line : (8 * line + w) % 8 = w := by omega
  simp only [exec_sramEccError, execSramEccError, reduceCtorEq, if_false, if_true, of_line, in_line, hit]
  refine ⟨_, rfl, ?_⟩
  rw [State.logErr_l2, State.setL2_l2]

theorem mem_addShare (sh : List Nat) (j : Nat) : j ∈ addShare sh j := by
  unfold addShare
  split
  · next listed => exact List.contains_iff_mem.1 listed
  · simp

/-- An uncorrectable error in the scheduler area is corrected from the second copy (R385). -/
theorem exec_sramEccError_core (s : State) (k : Nat) {w : Nat} (word : w < 24576) :
    ∃ t, exec (.sramEccError k false w .double) s = .next t ∧
      (t.core k).poison = if schedBase ≤ 8 * w then (s.core k).poison else addShare (s.core k).poison w := by
  simp only [exec_sramEccError, execSramEccError, reduceCtorEq, Bool.false_eq_true, if_false, word, decide_true, if_true]
  refine ⟨_, rfl, ?_⟩
  rw [State.logErr_core]
  split
  · rfl
  · rw [if_pos rfl, State.modCore_core]

/-! ## The obligation -/

/-- Settles O33: each arrival, eviction, store and error by the equation of its branch. What a fill leaves in the L2 stands
through the loads that a prefetch makes of the line. -/
theorem clusterSteps : Obligations.ClusterSteps := by
  refine fun cl line s => ⟨fun y first own =>
      ⟨exec_readFillReply_absent first own, fun x => exec_readFillReply_present first own⟩,
    fun y x first own hit => exec_mergeFillArrive_first first own hit,
    fun y first own absent room => exec_tilePushInstall_first first own absent room,
    fun listed untiled free => exec_clusterRecall_listed listed untiled free,
    fun x hit unheld unmarked settled unpushed => exec_l2Eviction_free hit unheld unmarked settled unpushed,
    fun k idx e x w queued may ofCluster ofLine settled hit owned whole => ?_,
    fun k held => exec_l1ParityError_l1i held, fun k held => exec_l1ParityError_l1d held,
    fun x w hit word => exec_sramEccError_l2 hit word, fun k w word => ?_⟩
  · subst ofCluster ofLine
    have ready : s.StoreReady k e x := ⟨settled, hit, owned, whole⟩
    exact ⟨fun stamped due => exec_l2StorePerform_ok queued may (storeAtL2_stamped ready stamped due idx),
      fun fresh plain unheld stamp passes =>
        exec_l2StorePerform_ok queued may (storeAtL2_unstamped ready fresh plain unheld stamp passes idx)⟩
  · obtain ⟨t, steps, poison⟩ := exec_sramEccError_core s k word
    refine ⟨t, steps, fun low => ?_, fun high => poison.trans (if_pos high)⟩
    rw [poison, if_neg (Nat.not_le.2 low)]
    exact mem_addShare ..

end Sys2Proof.Machine
end

section
/-! Registers: writes that arrive, and a host's accesses (R165, R308); the regions and the waiting words of core memory (R137,
R139, R140, R279); SHMCF and APCF (R101, R102, R116). -/

namespace Sys2Proof.Machine

/-! ## Registers that only store (R165) -/

theorem within_iff {a b n : Nat} : within a b n = true ↔ a ≤ n ∧ n ≤ b := by
  rw [within, Bool.and_eq_true, decide_eq_true_eq, decide_eq_true_eq]

/-- No slot of the optical schedule is a plain register. -/
theorem plainReg_slot {n : Nat} (slot : within 0xA40 0xA7F n = true) : plainReg n = false := by
  have all : ∀ i < 64, plainReg (0xA40 + i) = false := by decide
  obtain ⟨low, high⟩ := within_iff.1 slot
  rw [← Nat.add_sub_cancel' low]
  exact all _ (by omega)

/-- No enable of a window is a plain register. -/
theorem plainReg_window {n : Nat} (window : (within 0x900 0x93F n && n % 4 == 3) = true) : plainReg n = false := by
  have all : ∀ i < 16, plainReg (0x903 + 4 * i) = false := by decide
  obtain ⟨bank, enable⟩ := Bool.and_eq_true_iff.1 window
  obtain ⟨low, high⟩ := within_iff.1 bank
  have last : n % 4 = 3 := eq_of_beq enable
  have named : n = 0x903 + 4 * ((n - 0x900) / 4) := by omega
  rw [named]
  exact all _ (by omega)

/-- Each register whose write has an effect of its own is not plain. -/
theorem writeField_plain {f n : Nat} {v : Word} {s : State} (plain : plainReg n = true) (obeyed : (s.field f).ignores n v = false) :
    writeField f n v s = .ok () (s.modField f fun fd => fd.store n (rwMask n) 0 v) := by
  have slot : ¬ within 0xA40 0xA7F n = true := fun h => Bool.noConfusion (plain.symm.trans (plainReg_slot h))
  have window : ¬ (within 0x900 0x93F n && n % 4 == 3) = true := fun h =>
    Bool.noConfusion (plain.symm.trans (plainReg_window h))
  unfold writeField
  simp only [M_bind, M_get, obeyed, Bool.false_eq_true, if_false]
  split
  case h_17 => simp only [if_neg slot, if_neg window, if_pos plain, M_set]
  all_goals exact absurd plain (by decide)

theorem Field.store_reg (fd : Field) (n : Nat) (rw v : Word) :
    (fd.store n rw 0 v).reg (fd.homeOf n) = ((v &&& rw) ||| (fd.reg (fd.homeOf n) &&& ~~~rw)) := by
  have none_cleared : v &&& (0 : Word) = 0 := BitVec.and_zero
  rw [Field.store, Field.setReg_reg, none_cleared]
  exact congrArg _ (BitVec.and_allOnes ..)

/-! ## REGISTER_WRITE and HOST_BAR_WRITE -/

section
variable {c num : Nat} (listed : c < numCtxs) (v : Word) (s : State)
include listed

theorem exec_registerWrite_ctx (ofCtx : ctxReg num = true) :
    exec (.registerWrite c num v) s = .next (s.modCtx c fun x => x.writeReg num v) := by
  simp only [exec_registerWrite, execRegisterWrite, Nat.not_le.2 listed, ofCtx, Bool.true_or, if_false, if_true]
  refine runEvent_ok (u := ()) ?_
  rw [writeReg, if_pos ofCtx, M_modify]

theorem exec_registerWrite_core (other : ctxReg num = false) (ofCore : coreReg num = true) :
    exec (.registerWrite c num v) s = .next (s.modCore (coreOf c) fun k => k.writeReg num v) := by
  simp only [exec_registerWrite, execRegisterWrite, Nat.not_le.2 listed, other, ofCore, Bool.false_or, Bool.true_or, if_false,
    if_true]
  refine runEvent_ok (u := ()) ?_
  rw [writeReg, if_neg (Bool.eq_false_iff.1 other), if_pos ofCore, M_modify]

theorem exec_registerWrite_plain (noCtx : ctxReg num = false) (noCore : coreReg num = false) (plain : plainReg num = true)
    (obeyed : (s.field (fieldOf (coreOf c))).ignores num v = false) :
    exec (.registerWrite c num v) s =
      .next (s.modField (fieldOf (coreOf c)) fun fd => fd.store num (rwMask num) 0 v) := by
  simp only [exec_registerWrite, execRegisterWrite, Nat.not_le.2 listed, plain, Bool.or_true, if_false, if_true]
  refine runEvent_ok (u := ()) ?_
  rw [writeReg, if_neg (Bool.eq_false_iff.1 noCtx), if_neg (Bool.eq_false_iff.1 noCore), writeField_plain plain obeyed]

end

theorem barReg_eight_mul {num : Nat} (low : 0xA00 ≤ num) (high : num ≤ 0xA7F) (defined : fieldReg num = true) :
    barReg (8 * (num - 0xA00)) = some num := by
  simp [barReg, within, low, high, defined]

theorem exec_hostBarWrite_field {fn f num : Nat} {v : Word} {s t : State} (served : s.hostFun fn = some f) (low : 0xA00 ≤ num)
    (high : num ≤ 0xA7F) (defined : fieldReg num = true) (plain : num ≠ 0xA0E) (writes : writeField f num v s = .ok () t) :
    exec (.hostBarWrite fn num v) s = .next t := by
  simp only [exec_hostBarWrite, execHostBarWrite, served, barReg_eight_mul low high defined, Nat.not_lt.2 low, plain, if_false]
  exact runEvent_ok writes

theorem exec_hostBarWrite_import {fn f : Nat} {v : Word} {s : State} (served : s.hostFun fn = some f)
    (idle : (s.field f).asking (bits ((s.field f).reg 0xA0C) 0 10) = false) :
    exec (.hostBarWrite fn 0xA0E v) s = .next (s.pimctl f v).1 := by
  have named : barReg (8 * (0xA0E - 0xA00)) = some 0xA0E := by decide
  simp [execHostBarWrite, served, named, idle]

/-! ## Regions of core memory (R137) -/

theorem Core.setReg_reg (c : Core) (num : Nat) (v : Word) : (c.setReg num v).reg num = v := SMap.get_put_self ..

/-- A region that CMLAYn does not take: too few or too many rows, no bytes, past the end of the memory, or over another
region in use. -/
def Core.badRegion (c : Core) (n : Nat) (v : Word) : Prop :=
  bits v 32 12 < 32 ∨ 1536 < bits v 32 12 ∨ bits v 24 8 = 0 ∨ 196608 < layBase v + layLen v ∨
    (v.getLsbD 63 = true ∧ ∃ m, m < 4 ∧ m ≠ n ∧ (c.reg (0x9A0 + m)).getLsbD 63 = true ∧
      overlap (layBase v) (layLen v) (layBase (c.reg (0x9A0 + m))) (layLen (c.reg (0x9A0 + m))) = true)

theorem Core.badRegion_iff (c : Core) (n : Nat) (v : Word) : c.badRegion n v ↔
    bits v 32 12 < 32 ∨ 1536 < bits v 32 12 ∨ bits v 24 8 = 0 ∨ cmemSize < layBase v + layLen v ∨
      (v.getLsbD 63 && (List.range 4).any fun m =>
        let o := c.reg (0x9A0 + m)
        m != n && o.getLsbD 63 && overlap (layBase v) (layLen v) (layBase o) (layLen o)) = true := by
  simp [Core.badRegion, cmemSize, and_assoc]

theorem Core.cmlay_refused {c : Core} {n : Nat} {v : Word} (bad : c.badRegion n v) :
    (c.cmlay n v).reg (0x9A0 + n) = c.reg (0x9A0 + n) ||| 0x4000000000000000#64 := by
  rw [Core.cmlay, if_pos ((c.badRegion_iff n v).1 bad), Core.setReg_reg]

theorem Core.cmlay_accepted {c : Core} {n : Nat} {v : Word} (good : ¬ c.badRegion n v) :
    (c.cmlay n v).reg (0x9A0 + n) = v &&& 0x80000FFFFF03FF80#64 := by
  rw [Core.cmlay, if_neg (mt (c.badRegion_iff n v).2 good), Core.setReg_reg]

/-! ## Words that contexts wait for (R140, R279) -/

theorem exec_feWaitSatisfied_covered {s : State} {k off : Nat} {w : Nat × Nat × Nat × Bool} (waits : w ∈ (s.core k).fe)
    (first : w.2.1 ≤ off / 4) (last : off / 4 < w.2.1 + w.2.2.1) : exec (.feWaitSatisfied k off) s = .next (s.serveFe k) :=
  (exec_feWaitSatisfied ..).trans (if_pos (List.any_eq_true.2 ⟨w, waits, by simp [first, last]⟩))

theorem exec_waitaWake_waiting {s : State} {c : Nat} (waits : (s.ctx c).st = .waiting .word) :
    ∃ t, exec (.waitaWake c) s = .next t ∧ (t.ctx c).st = .ready := by
  refine ⟨_, (exec_waitaWake ..).trans (if_pos waits), ?_⟩
  rw [State.wake, State.modCtx_ctx, Ctx.wake, waits]

/-! ## SHMCF and APCF (R101, R102, R116) -/

/-- Every line of a field's home arrays is given up. -/
def State.dropHome (s : State) (f : Nat) : State := ((s.field f).home.map (·.1)).foldl (fun s l => s.homeDrop f l) s

/-- A new size of shared memory, every byte of it 0. -/
def Field.emptyShm (fd : Field) (w : Nat) : Field :=
  { fd.setReg 0x980 (BitVec.ofNat 64 w) with shm := [], shmMarks := [] }

theorem Field.emptyShm_ways (fd : Field) {w : Nat} (lt : w < 16) : bits ((fd.emptyShm w).reg 0x980) 0 4 = w := by
  have stored : (fd.emptyShm w).reg 0x980 = BitVec.ofNat 64 w := Field.setReg_reg ..
  rw [stored, bits, BitVec.toNat_ofNat]
  omega

theorem exec_shmcfWrite_changes {f : Nat} {v : Word} {s : State} (legal : bits v 0 4 ≤ 8)
    (changes : bits v 0 4 ≠ bits ((s.field f).reg 0x980) 0 4)
    (written : ∀ r ∈ ((s.dropHome f).field f).rreqs, r.kind = .wb → r.core.isSome = true)
    (performed : (s.dropHome f).sharedOpen f = false) :
    exec (.shmcfWrite f v) s = .next (((s.dropHome f).cutShared f).modField f fun fd =>
      fd.emptyShm (bits v 0 4)) := by
  have goes : ¬ (8 < bits v 0 4 ∨ bits v 0 4 = bits ((s.field f).reg 0x980) 0 4) := by omega
  have landed : (((s.dropHome f).field f).rreqs.any fun r => r.kind == .wb && r.core.isNone) = false := by
    simpa [Option.isSome_iff_ne_none] using written
  refine runEvent_ok (u := ()) ?_
  simp only [State.dropHome] at landed performed ⊢
  simp only [shmcfWrite, M_bind, M_get, M_ite, if_neg goes, M_set, landed, performed, M_wait_false, Field.emptyShm]

theorem Field.apcf_clears (fd : Field) {v : Word} (clr : v.getLsbD 2 = true) :
    fd.apcf v = { fd.setReg 0x981 (v &&& 0xB#64) with pred := [], predInit := v.setWidth 2 } := if_pos clr

/-! ## The obligation -/

/-- Settles O34: each write, answer and clearing by the equation of its branch. -/
theorem registerSteps : Obligations.RegisterSteps := by
  refine fun v s => ⟨fun c num listed => ⟨fun ofCtx => ?_, fun other ofCore => ?_, fun noCtx noCore plain obeyed => ?_⟩,
    fun fn f num served bar defined => ?_, fun k n region => ?_,
    fun k off w waits first last => exec_feWaitSatisfied_covered waits first last, fun c waits => exec_waitaWake_waiting waits,
    fun f legal changes written performed => ?_, fun f clr => ?_⟩
  · exact ⟨_, exec_registerWrite_ctx listed v s ofCtx, State.modCtx_ctx ..⟩
  · exact ⟨_, exec_registerWrite_core listed v s other ofCore, State.modCore_core ..⟩
  · refine ⟨_, exec_registerWrite_plain listed v s noCtx noCore plain obeyed, ?_⟩
    rw [State.modField_field, Field.store_reg]
  · obtain ⟨low, high⟩ := within_iff.1 bar
    refine ⟨?_, fun other t writes => exec_hostBarWrite_field served low high defined other writes, fun import_ idle => ?_⟩
    · rw [State.barRead, served, barReg_eight_mul low high defined]
      rfl
    · subst import_
      exact exec_hostBarWrite_import served idle
  · refine ⟨_, (exec_cmlayWrite ..).trans (if_pos region), ?_⟩
    rw [State.modCore_core]
    exact ⟨fun bad => Core.cmlay_refused bad, fun good => Core.cmlay_accepted good⟩
  · refine ⟨_, exec_shmcfWrite_changes legal changes written performed, ?_⟩
    rw [State.modField_field]
    exact ⟨Field.emptyShm_ways _ (by omega), fun a => rfl⟩
  · refine ⟨_, (exec_apcfClear ..).trans (if_pos clr), ?_⟩
    rw [State.modField_field, Field.apcf_clears _ clr]
    exact ⟨Field.setReg_reg .., rfl, rfl⟩

end Sys2Proof.Machine
end

section
/-! The banks of core memory and of field shared memory: full/empty loads and stores where no context waits (R139, R140, R271),
and relaxed atomics (R115, R275). -/

namespace Sys2Proof.Machine

/-! ## A change of one core -/

theorem State.modCore_core_eq {γ : Type} (view : Core → γ) {g : Core → Core} (keep : ∀ c, view (g c) = view c) (s : State)
    (k j : Nat) : view ((s.modCore k g).core j) = view (s.core j) := by
  by_cases e : j = k
  · subst e
    rw [State.modCore_core, keep]
  · exact congrArg view (State.setCore_core_ne s k j _ e)

/-- An acquire gives up copies of lines: all else of each core, its bank with it, is as before. -/
theorem State.acquireAll_core_eq {γ : Type} (view : Core → γ) (keep : ∀ (c : Core) l, view { c with l1d := l } = view c)
    (s : State) (k j : Nat) : view ((s.acquireAll k).core j) = view (s.core j) :=
  State.modCore_core_eq view (fun c => keep c _) s k j

@[simp] theorem State.acquireAll_me (s : State) (k : Nat) : (s.acquireAll k).me = s.me := rfl
@[simp] theorem State.acquireAll_cmem (s : State) (k j : Nat) : ((s.acquireAll k).core j).cmem = (s.core j).cmem :=
  State.acquireAll_core_eq Core.cmem (fun _ _ => rfl) s k j
@[simp] theorem State.acquireAll_empties (s : State) (k j : Nat) : ((s.acquireAll k).core j).empties = (s.core j).empties :=
  State.acquireAll_core_eq Core.empties (fun _ _ => rfl) s k j

theorem acquireAll_run (s : State) : acquireAll s = .ok ⟨⟩ (s.acquireAll s.myCore) := rfl

/-! ## Full and empty words (R139) -/

theorem mem_addShare_iff {x j : Nat} {sh : List Nat} : x ∈ addShare sh j ↔ x = j ∨ x ∈ sh := by
  unfold addShare
  split
  · next listed =>
    have mem : j ∈ sh := List.contains_iff_mem.1 listed
    exact ⟨.inr, fun h => h.elim (fun e => e ▸ mem) id⟩
  · simp only [List.mem_append, List.mem_filter, List.mem_singleton, decide_eq_true_eq]
    rcases Nat.lt_trichotomy x j with lt | eq | gt
    · simp [lt, Nat.lt_asymm lt, Nat.ne_of_lt lt]
    · simp [eq]
    · simp [gt, Nat.lt_asymm gt, Nat.ne_of_gt gt]

theorem mem_foldl_addShare {x : Nat} {ws l : List Nat} : x ∈ ws.foldl addShare l ↔ x ∈ ws ∨ x ∈ l := by
  induction ws generalizing l with
  | nil => simp
  | cons w ws ih => rw [List.foldl_cons, ih, mem_addShare_iff, List.mem_cons, ← or_assoc, or_comm (a := x ∈ ws)]

theorem Core.mem_setEmpty {c : Core} {off n w : Nat} : w ∈ (c.setEmpty off n).empties ↔ w ∈ words4 off n ∨ w ∈ c.empties :=
  mem_foldl_addShare

theorem Core.mem_setFull {c : Core} {off n w : Nat} : w ∈ (c.setFull off n).empties ↔ w ∈ c.empties ∧ w ∉ words4 off n := by
  simp [Core.setFull, inList]

/-! ## LDF and LDE of full words (R271) -/

/-- A core's bank once an LDF or LDE of the context cx has taken its words. -/
def Core.taken (c : Core) (cx off n : Nat) (empty : Bool) : Core :=
  let c := if empty then c.setEmpty off n else c
  { c with fe := c.fe.filter fun x => x.1 != cx }

@[simp] theorem Core.taken_cmem (c : Core) (cx off n : Nat) (empty : Bool) : (c.taken cx off n empty).cmem = c.cmem := by
  cases empty <;> rfl

theorem Core.taken_empties (c : Core) (cx off n : Nat) (empty : Bool) :
    (c.taken cx off n empty).empties = if empty then (c.setEmpty off n).empties else c.empties := by
  cases empty <;> rfl

/-- With nothing sent and no part kept, an access has no reply to take. -/
theorem takeReply_fresh {s : State} (unsent : s.me.sent = none) (fresh : s.me.parts = []) (key : Nat) :
    takeReply key s = .ok none s := by
  simp [takeReply, unsent, fresh]

theorem feLoad_full {s : State} {va n k off : Nat} (unsent : s.me.sent = none) (fresh : s.me.parts = [])
    (slots : s.me.task.slots = []) (idle : (s.core k).fe = []) (clean : (s.core k).poison = [])
    (ok : feAccess va n .load .perm s = .ok (k, off) s) (full : (s.core k).allFull off n = true) (d : GReg) (empty : Bool) :
    ∃ t, feLoad d va n empty s = .ok () t ∧
      t.me = s.me.wg d (BitVec.ofNat 64 (bytesNat (Mem.readBytes (s.core k).cmem off n) % 2 ^ (8 * n))) ∧
      (t.core k).cmem = (s.core k).cmem ∧
      (t.core k).empties = if empty then ((s.core k).setEmpty off n).empties else (s.core k).empties := by
  have run : feLoad d va n empty s = .ok () (let t := (s.modCore k fun c => c.taken s.cur off n empty).acquireAll s.myCore
      t.setMe (t.me.wg d (BitVec.ofNat 64 (bytesNat (Mem.readBytes (s.core k).cmem off n) % 2 ^ (8 * n))))) := by
    simp only [feLoad, M_bind, takeReply_fresh unsent fresh, ok, M_modify, State.serveFe_of_fe_nil idle,
      slotCheck_of_slots_nil slots, M_get, M_ite, full, Bool.not_true, Bool.false_eq_true, if_false,
      cmemRead_of_poison_nil clean, M_pure, acquireAll_run, M_modMe]
    rfl
  exact ⟨_, run, by simp, by simp, by simp [Core.taken_empties]⟩

/-! ## STF and SETE (R271) -/

theorem overMark_nil (off n tid : Nat) (s : State) : overMark [] off n tid s = .ok () s := rfl

theorem drainStores_clu {s : State} (settled : s.Settled .clu) : drainStores .clu s = .ok () s := by
  obtain ⟨done, seen, -, -⟩ := settled
  have inField : (Scope.clu == .prt) = false := rfl
  have inModule : (Scope.clu == .sys) = false := rfl
  simp [drainStores, done, seen, inField, inModule]

/-- A write with full words leaves nobody to serve where nobody waits. -/
theorem State.engineStore_of_fe_nil {s : State} {k : Nat} (idle : (s.core k).fe = []) (off : Nat) (bs : List Byte) :
    s.engineStore k off bs = s.modCore k fun c => (c.writeMem off bs).setFull off bs.length := by
  rw [State.engineStore, State.serveFe_of_fe_nil idle]
  exact State.serveFe_of_fe_nil (by rw [State.modCore_core]; exact idle)

/-- STF where no mark is left to publish and the release holds nothing back. -/
theorem exec_stf_settled {h : Hdr} {dw : Bool} {src a : GReg} {e : BitVec 32} {s : State} {k off : Nat} (on : On h s)
    (idle : (s.core k).fe = []) (unmarked : (s.core k).cmarks = []) (settled : s.Settled .clu)
    (ok : feAccess (effAddr s.me a e) (if dw then 8 else 4) .store .perm s = .ok (k, off) s) :
    let n := if dw then 8 else 4
    let u := s.modCore k fun x => { x with cmarks := unmark x.cmarks off n }
    exec (.stf h dw src a e) s = .next (bodyNext h (u.modCore k fun c =>
      (c.writeMem off (natBytes (s.me.rg src).toNat n)).setFull off n) .next) := by
  intro n u
  have waitless : (u.core k).fe = [] := by rw [State.modCore_core]; exact idle
  have stored := State.engineStore_of_fe_nil waitless off (natBytes (s.me.rg src).toNat n)
  rw [length_natBytes] at stored
  rw [← stored]
  refine runIsa_ok on ?_
  simp only [M_bind, M_me, ok, M_get, unmarked, overMark_nil, drainStores_clu settled, M_modify, M_pure]
  rfl

theorem exec_sete_ok {h : Hdr} {dw : Bool} {a : GReg} {e : BitVec 32} {s : State} {k off : Nat} (on : On h s)
    (idle : (s.core k).fe = [])
    (ok : feAccess (effAddr s.me a e) (if dw then 8 else 4) .store .perm s = .ok (k, off) s) :
    exec (.sete h dw a e) s = .next (bodyNext h (s.modCore k fun c => c.setEmpty off (if dw then 8 else 4)) .next) := by
  refine runIsa_ok on ?_
  simp only [M_bind, M_me, ok, M_modify, State.serveFe_of_fe_nil idle, M_pure]

/-- Settles O12: LDF and LDE by the one load of full words, STF and SETE by their one step at the bank. -/
theorem fullEmptyResults : Obligations.FullEmptyResults := by
  intro h dw d a e s k off on va n unsent fresh slots idle
  refine ⟨fun ok clean full => ⟨?_, ?_⟩, fun ok settled => ⟨fun unmarked => ?_, ?_⟩⟩
  · obtain ⟨t, run, regs, mem, words⟩ := feLoad_full unsent fresh slots idle clean ok full d false
    exact ⟨t, runIsa_ok on (bind_ok run), regs, mem, words⟩
  · obtain ⟨t, run, regs, mem, words⟩ := feLoad_full unsent fresh slots idle clean ok full d true
    exact ⟨t, runIsa_ok on (bind_ok run), regs, mem, fun w hw => words ▸ Core.mem_setEmpty.2 (.inl hw)⟩
  · refine ⟨_, exec_stf_settled on idle unmarked settled ok, ?_, fun w hw => ?_⟩ <;> simp only [State.modCore_core]
    · rfl
    · exact fun empty => (Core.mem_setFull.1 empty).2 hw
  · refine ⟨_, exec_sete_ok on idle ok, ?_, fun w hw => ?_⟩ <;> rw [State.modCore_core]
    · rfl
    · exact Core.mem_setEmpty.2 (.inl hw)

/-! ## Relaxed atomics at the banks (R115, R275) -/

theorem atomicCore_relaxed {s : State} {k : Nat} (idle : (s.core k).fe = []) (clean : (s.core k).poison = [])
    (off va : Nat) (op : AtOp) (n b c : Nat) :
    let old := bytesNat (Mem.readBytes (s.core k).cmem off n)
    let r := AtOp.apply op n old b c
    atomicCore k off va op n b c false false s = .ok (BitVec.ofNat 128 old, r.2.2)
      (s.modCore k fun x => if r.2.1 then x.writeMem off (natBytes r.1 n) else x) := by
  simp [atomicCore, State.serveFe_of_fe_nil idle, cmemRead_of_poison_nil clean]

theorem atomicShared_relaxed (s : State) (off : Nat) (op : AtOp) (n b c : Nat) :
    let old := bytesNat (Mem.readBytes (s.field s.myField).shm off n)
    let r := AtOp.apply op n old b c
    atomicShared off op n b c false false s = .ok (BitVec.ofNat 128 old, r.2.2)
      (s.modField s.myField fun x => if r.2.1 then { x with shm := Mem.writeBytes x.shm off (natBytes r.1 n) } else x) := by
  simp [atomicShared]

/-- Settles O15: at either bank a relaxed atomic is one read and, where the operation writes, one write. -/
theorem atomicOnBanks : Obligations.AtomicOnBanks := by
  intro s asid k off va op dw b c pl sc n
  constructor
  · intro idle clean old r
    refine ⟨_, atomicCore_relaxed idle clean off va op n b c, rfl, ?_⟩
    rw [State.modCore_core]
    constructor <;> split <;> rfl
  · intro old r
    refine ⟨_, atomicShared_relaxed s off op n b c, rfl, ?_⟩
    rw [State.modField_field]
    split <;> rfl

end Sys2Proof.Machine
end

section
/-! The frame of plain stores: what ST and STP leave unchanged at each place (R120, R254, R267, R270). -/

namespace Sys2Proof.Machine

/-! ## What the completion of a store keeps -/

/-- A plain store has changed memories and the store queue alone: the contexts and the clusters are as before. -/
structure SameButBanks (s t : State) : Prop where
  cur : t.cur = s.cur
  ctxs : t.ctxs = s.ctxs
  clusters : t.clusters = s.clusters

theorem State.modCore_sameButBanks (s : State) (k : Nat) (g : Core → Core) : SameButBanks s (s.modCore k g) := ⟨rfl, rfl, rfl⟩
theorem State.modField_sameButBanks (s : State) (f : Nat) (g : Field → Field) : SameButBanks s (s.modField f g) :=
  ⟨rfl, rfl, rfl⟩

theorem SameButBanks.me {s t : State} (same : SameButBanks s t) : t.me = s.me := by
  rw [State.me, State.ctx, same.ctxs, same.cur]
  rfl

/-- What a store leaves unchanged in every case: registers, flags, system registers, other contexts, clusters. -/
def SameButMemory (s t : State) : Prop :=
  SameSystem s.me t.me ∧ SameRegs [] none s.me t.me ∧ t.me.fstat = s.me.fstat ∧ SameOthers s t ∧ t.clusters = s.clusters

theorem bodyNext_of_not_preq {h : Hdr} {s : State} (calm : h.yld = true → s.me.preq = false) :
    bodyNext h s .next = s.setMe { s.me.advance with st := .ready, parts := [], vec := false } := by
  cases yld : h.yld
  · simp [bodyNext, yldAfter, yld, Flow.pc, Ctx.advance]
  · simp [bodyNext, yldAfter, yld, calm yld, Flow.pc, Ctx.advance]

theorem SameButBanks.completed {h : Hdr} {s t : State} (same : SameButBanks s t) (calm : h.yld = true → s.me.preq = false) :
    SameButMemory s (bodyNext h t .next) := by
  rw [bodyNext_of_not_preq (by rwa [same.me]), same.me, SameButMemory, State.setMe_me]
  refine ⟨?_, ?_, rfl, fun c other => ?_, same.clusters⟩
  · simp [SameSystem]
  · exact ⟨fun _ _ => rfl, fun _ _ => rfl, fun _ _ => rfl, fun _ _ => rfl⟩
  · rw [State.setMe_ctx_ne _ _ _ (same.cur ▸ other), State.ctx, same.ctxs]
    rfl

/-- Completion changes no memory: the banks and queues are those that the effect has left. -/
theorem bodyNext_cores (h : Hdr) (s : State) (f : Flow) : (bodyNext h s f).cores = s.cores := by
  unfold bodyNext yldAfter
  split <;> rfl

theorem bodyNext_fields (h : Hdr) (s : State) (f : Flow) : (bodyNext h s f).fields = s.fields := by
  unfold bodyNext yldAfter
  split <;> rfl

theorem bodyNext_core (h : Hdr) (s : State) (f : Flow) (j : Nat) : (bodyNext h s f).core j = s.core j := by
  rw [State.core, bodyNext_cores]
  rfl

theorem bodyNext_field (h : Hdr) (s : State) (f : Flow) (j : Nat) : (bodyNext h s f).field j = s.field j := by
  rw [State.field, bodyNext_fields]
  rfl

/-! ## The write of each place -/

/-- ST and STP are one write of memory, of one register or of a pair. -/
theorem exec_plainStore {h : Hdr} {sz : Sz} {d a : GReg} {e : BitVec 32} {i : Instr} {n : Nat} {s : State} (on : On h s)
    (form : (i = .st h sz none d a e ∧ n = Sz.bytes sz) ∨ (i = .stp h none d a e ∧ n = 16)) :
    ∃ x, ∀ u, memWr (effAddr s.me a e) n x none s = .ok () u → exec i s = .next (bodyNext h u .next) := by
  rcases form with ⟨rfl, rfl⟩ | ⟨rfl, rfl⟩
  · exact ⟨(s.me.rg d).toNat, fun u run => runIsa_ok on (bind_ok run)⟩
  · exact ⟨(s.me.rg d).toNat + 2 ^ 64 * (s.me.rg (d + 1)).toNat, fun u run => runIsa_ok on (bind_ok run)⟩

/-- Stores that wait in the queue have changed no byte of any memory. -/
structure OnlyQueued (s t : State) : Prop extends SameButBanks s t where
  fields : t.fields = s.fields
  cmem : ∀ j, (t.core j).cmem = (s.core j).cmem

theorem pushAll_onlyQueued (asid : BitVec 16) (ws : List StoreWord) (s : State) :
    ∃ t, pushAll asid none ws s = .ok () t ∧ OnlyQueued s t := by
  induction ws generalizing s with
  | nil => exact ⟨s, rfl, ⟨rfl, rfl, rfl⟩, rfl, fun _ => rfl⟩
  | cons w ws ih =>
    obtain ⟨t, run, same, fields, cmem⟩ := ih (s.pushed asid w)
    exact ⟨t, (pushAll_cons ..).trans run, ⟨same.cur, same.ctxs, same.clusters⟩, fields,
      fun j => (cmem j).trans (State.pushed_cmem ..)⟩

theorem memWr_paged {s : State} {va n : Nat} {asid : BitVec 16} (quiet : s.me.rim = [])
    (ok : s.check s.acc va n n .store = .ok .paged asid) (x : Nat) :
    ∃ t, memWr va n x none s = .ok () t ∧ OnlyQueued s t := by
  rw [memWr_ok quiet ok, writeAt_paged]
  exact pushAll_onlyQueued ..

theorem State.read_writeMem_outside {s : State} {k off j b : Nat} {bs : List Byte} (out : j = k → b < off ∨ off + bs.length ≤ b) :
    Mem.read ((s.modCore k fun c => c.writeMem off bs).core j).cmem b = Mem.read (s.core j).cmem b := by
  by_cases e : j = k
  · subst e
    rw [State.modCore_core, Core.writeMem_cmem, Mem.read_writeBytes_outside _ _ _ _ (out rfl)]
  · rw [State.modCore, State.setCore_core_ne _ _ _ _ e]

theorem State.read_writeShm_outside {s : State} {g off f b : Nat} {bs : List Byte} (out : f = g → b < off ∨ off + bs.length ≤ b) :
    Mem.read ((s.modField g fun x => { x with shm := Mem.writeBytes x.shm off bs }).field f).shm b =
      Mem.read (s.field f).shm b := by
  by_cases e : f = g
  · subst e
    rw [State.modField_field, Mem.read_writeBytes_outside _ _ _ _ (out rfl)]
  · rw [State.modField, State.setField_field_ne _ _ _ _ e]

theorem State.writeShm_mem (s : State) (g off f : Nat) (bs : List Byte) :
    ((s.modField g fun x => { x with shm := Mem.writeBytes x.shm off bs }).field f).mem = (s.field f).mem :=
  State.modField_field_eq Field.mem (h := fun x => { x with shm := Mem.writeBytes x.shm off bs }) (fun _ => rfl) s g f

/-! ## The obligation -/

/-- Settles O59: each place's store is one write of its bank, or pushes on the queue, and completion changes only the pc and
what belongs to the instruction itself. -/
theorem storeFrame : Obligations.StoreFrame := by
  intro h sz d a e i n asid s t form on calm quiet ran same va
  obtain ⟨x, completes⟩ := exec_plainStore on form
  have after {u : State} (run : memWr va n x none s = .ok () u) : t = bodyNext h u .next := by
    simpa [completes u run] using ran.symm
  have frame {u : State} (run : memWr va n x none s = .ok () u) (kept : SameButBanks s u) : SameButMemory s t :=
    after run ▸ kept.completed calm
  refine ⟨fun k off ok idle => ?_, fun off ok => ?_, fun ok => ?_⟩
  · have run := (memWr_ok quiet ok x none).trans (writeAt_core idle off va asid _)
    refine ⟨frame run (s.modCore_sameButBanks ..), ?_, fun j b out => ?_⟩
    · rw [after run, bodyNext_fields, State.modCore_fields]
    · rw [after run, bodyNext_core, State.read_writeMem_outside (by rwa [length_natBytes])]
  · have run := (memWr_ok quiet ok x none).trans (writeAt_shared s off va asid _)
    refine ⟨frame run (s.modField_sameButBanks ..), ?_, fun f b out => ?_⟩
    · rw [after run, bodyNext_cores, State.modField_cores]
    · rw [after run, bodyNext_field, State.read_writeShm_outside (by rwa [length_natBytes])]
      exact ⟨rfl, State.writeShm_mem ..⟩
  · obtain ⟨u, run, queued⟩ := memWr_paged quiet ok x
    refine ⟨frame run queued.toSameButBanks, ?_, fun j => ?_⟩
    · rw [after run, bodyNext_fields, queued.fields]
    · rw [after run, bodyNext_core, queued.cmem]

end Sys2Proof.Machine
end

section
/-! Copy engines: a channel takes, moves, ends and chains its records, contributions reach their bank, and CERES lets a halted
record go on (R143 to R160). -/

namespace Sys2Proof.Machine

/-! ## The record of a channel -/

@[simp] theorem Cluster.setChan_chan (c : Cluster) (n : BitVec 2) (x : Channel) : (c.setChan n x).chan n = x :=
  Vector.getElem_set_self n.isLt

@[simp] theorem State.setCur_field (s : State) (cl ch : Nat) (r : Option RunRec) (f : Nat) : (s.setCur cl ch r).field f = s.field f :=
  State.modCluster_field ..

@[simp] theorem State.setCur_cur (s : State) (cl ch : Nat) (r : Option RunRec) : ((s.setCur cl ch r).chanOf cl ch).cur = r := by
  simp [State.chanOf, State.setCur]

theorem State.takeEntry_cur {s : State} {cl ch : Nat} {e : ChanEnt} {q : List ChanEnt} (idle : (s.chanOf cl ch).cur = none)
    (queued : (s.chanOf cl ch).queue = e :: q) :
    ((s.takeEntry cl ch).chanOf cl ch).cur = some (newRec s.fresh e e.addr (if e.chain then .next else .start)) := by
  simp only [State.takeEntry, idle, queued]
  simp [State.chanOf]

theorem State.recWork_ok {s s1 : State} {cl ch : Nat} {r : RunRec} {r' : Option RunRec} {m : M (Option RunRec)}
    (run : m s = .ok r' s1) : s.recWork cl ch r m = .next (s1.setCur cl ch r') := by
  rw [State.recWork, run]

/-! ## RECORD_START, CHAIN_NEXT_RECORD, RECORD_ELEMENT and RECORD_COMPLETE -/

section
variable {s s1 : State} {cl ch : Nat} {r : RunRec} {r' : Option RunRec} {e : ChanEnt} {q : List ChanEnt}

theorem exec_recordStart_entry (listed : ch < 4) (idle : (s.chanOf cl ch).cur = none)
    (queued : (s.chanOf cl ch).queue = e :: q) (single : e.chain = false)
    (run : startRecord cl ch (newRec s.fresh e e.addr .start) (s.takeEntry cl ch) = .ok r' s1) :
    exec (.recordStart cl ch) s = .next (s1.setCur cl ch r') := by
  have taken := State.takeEntry_cur idle queued
  rw [single] at taken
  rw [exec_recordStart, execRecordStart, if_neg (Nat.not_le.2 listed)]
  simp only [taken]
  exact (if_pos rfl).trans (State.recWork_ok run)

theorem exec_recordStart_chain (listed : ch < 4) (idle : (s.chanOf cl ch).cur = none)
    (queued : (s.chanOf cl ch).queue = e :: q) (chain : e.chain = true) :
    exec (.recordStart cl ch) s = .next (s.takeEntry cl ch) := by
  have taken := State.takeEntry_cur idle queued
  rw [chain] at taken
  rw [exec_recordStart, execRecordStart, if_neg (Nat.not_le.2 listed)]
  simp only [taken]
  exact if_neg nofun

theorem exec_chainNextRecord_ok (listed : ch < 4) (held : (s.chanOf cl ch).cur = some r) (next : r.st = .next)
    (run : nextRecord r s = .ok r' s1) : exec (.chainNextRecord cl ch) s = .next (s1.setCur cl ch r') := by
  rw [exec_chainNextRecord, execChainNextRecord, held]
  exact (if_pos ⟨next, listed⟩).trans (State.recWork_ok run)

theorem exec_recordElement_ok (listed : ch < 4) (held : (s.chanOf cl ch).cur = some r) (moves : r.st = .move)
    (run : elemStep cl ch r s = .ok r' s1) : exec (.recordElement cl ch) s = .next (s1.setCur cl ch r') := by
  rw [exec_recordElement, execRecordElement, held]
  exact (if_pos ⟨moves, listed⟩).trans (State.recWork_ok run)

theorem exec_recordComplete_ok (listed : ch < 4) (held : (s.chanOf cl ch).cur = some r) (ends : r.st = .finish)
    (run : finishRecord cl ch r s = .ok () s1) : exec (.recordComplete cl ch) s = .next (s1.recordOver cl ch r) := by
  simp only [exec_recordComplete, execRecordComplete, held, run]
  exact if_pos ⟨ends, listed⟩

end

/-! ## BANK_REDUCE, COPY_ERROR_MESSAGE and CERES -/

theorem State.not_mem_dropContrib {s : State} {f id : Nat} : ∀ y ∈ ((s.dropContrib f id).field f).contribs, y.id ≠ id := by
  intro y mem
  rw [State.dropContrib, State.modField_field] at mem
  simpa using (List.mem_filter.1 mem).2

/-- The contribution leaves its field; the flags that it raises go to its record, which the channel holds. -/
theorem exec_bankReduce_ok {s s1 : State} {f : Nat} {x : Contrib} {fl : BitVec 5}
    (waits : (s.field f).contribs.find? (fun y => y.id == x.id) = some x) (run : reduceAt f x s = .ok fl s1) :
    ∃ t, exec (.bankReduce f x.id) s = .next t ∧ t.field f = (s1.dropContrib f x.id).field f := by
  simp only [exec_bankReduce, execBankReduce, waits, run]
  cases (s1.dropContrib f x.id).recOf x.cl x.ch x.rid with
  | none => exact ⟨_, rfl, rfl⟩
  | some r => exact ⟨_, rfl, State.setCur_field ..⟩

theorem exec_copyErrorMessage_ok {s t : State} {f a b : Nat} {pay : List Byte} {rest : List (Nat × Nat × List Byte)}
    (queued : (s.field f).copyMsgs = (a, b, pay) :: rest) (sent : s.toService f 30 pay = some t) :
    exec (.copyErrorMessage f) s = .next (t.modField f fun fd => { fd with copyMsgs := rest }) := by
  simp only [exec_copyErrorMessage, execCopyErrorMessage, queued, sent]

section
variable {s : State} {f : Nat} {v : Word} {r : RunRec} {code : BitVec 8} {x side : Nat} (named : bits v 8 6 < 40)
  (held : (s.chanOf (f * 40 + bits v 8 6) (bits v 0 2)).cur = some r) (halted : r.st = .halted code x side)
include named held halted

theorem State.ceres_halted : s.ceres f v =
    s.setCur (f * 40 + bits v 8 6) (bits v 0 2) (some (if v.getLsbD 63 then r.giveUp code else r.retry)) := by
  simp only [State.ceres, if_neg (Nat.not_le.2 named), held, halted]

theorem exec_ceresRetry_halted (retry : v.getLsbD 63 = false) :
    exec (.ceresRetry f v) s = .next (s.setCur (f * 40 + bits v 8 6) (bits v 0 2) (some r.retry)) := by
  rw [exec_ceresRetry, execCeresRetry, State.ceres_halted named held halted, retry]
  rfl

theorem exec_ceresFail_halted (fail : v.getLsbD 63 = true) :
    exec (.ceresFail f v) s = .next (s.setCur (f * 40 + bits v 8 6) (bits v 0 2) (some (r.giveUp code))) := by
  rw [exec_ceresFail, execCeresFail, State.ceres_halted named held halted, fail]
  rfl

end

/-! ## The obligation -/

/-- Settles O36, a step at a time: each clause is the equation of its step, and the channel then holds the record that the step
gave it. -/
theorem copyEngineSteps : Obligations.CopyEngineSteps := by
  refine fun cl ch r s listed => ⟨fun idle e q s1 r' queued single run => exec_recordStart_entry listed idle queued single run,
    fun idle e q queued chain => ⟨_, exec_recordStart_chain listed idle queued chain, ?_⟩,
    fun held => ⟨fun next r' s1 run => ⟨_, exec_chainNextRecord_ok listed held next run, State.setCur_cur ..⟩,
      fun moves r' s1 run => ⟨_, exec_recordElement_ok listed held moves run, State.setCur_cur ..⟩,
      fun ends s1 run => exec_recordComplete_ok listed held ends run⟩,
    fun f x fl s1 waits run => ?_,
    fun f a b pay rest t queued sent => exec_copyErrorMessage_ok queued sent,
    fun f v code x side named hcl hch held halted => ?_⟩
  · exact (State.takeEntry_cur idle queued).trans (by rw [if_pos chain])
  · obtain ⟨t, ran, bank⟩ := exec_bankReduce_ok waits run
    exact ⟨t, ran, bank ▸ State.not_mem_dropContrib⟩
  · subst hcl hch
    exact ⟨fun retry => ⟨_, exec_ceresRetry_halted named held halted retry, State.setCur_cur ..⟩,
      fun fail => ⟨_, exec_ceresFail_halted named held halted fail, State.setCur_cur ..⟩⟩

end Sys2Proof.Machine
end

section
/-! The integer forms (R188 to R194): each operation agrees, modulo 2 to the width, with the number that the specification
gives, and the register takes the signed value of that number's low bits (R191). -/

namespace Sys2Proof.Machine

/-! ## Results of w bits -/

/-- Two numbers agree in their low w bits. -/
def AgreeMod (w : Nat) (r q : Int) : Prop := r % (2 ^ w : Nat) = q % (2 ^ w : Nat)

theorem AgreeMod.of_eq {w : Nat} {r q : Int} (same : r = q) : AgreeMod w r q := congrArg (· % _) same

theorem AgreeMod.of_eq_add {w : Nat} {r q : Int} (wraps : r = q + (2 ^ w : Nat)) : AgreeMod w r q := by
  rw [AgreeMod, wraps, Int.add_emod_right]

theorem AgreeMod.of_mod_eq {w m n : Nat} (same : m % 2 ^ w = n % 2 ^ w) : AgreeMod w m n := by
  rw [AgreeMod, ← Int.natCast_emod, ← Int.natCast_emod, same]

theorem natCast_two_pow (n : Nat) : ((2 ^ n : Nat) : Int) = 2 ^ n := Int.natCast_pow 2 n

theorem signed_eq_of_mod_eq {w a b : Nat} (same : a % 2 ^ w = b % 2 ^ w) : signed w a = signed w b := by
  simp only [signed, same]

theorem signed_mod_two_pow (w a : Nat) : signed w (a % 2 ^ w) = signed w a := signed_eq_of_mod_eq (Nat.mod_mod ..)

theorem truncTo_natCast (w n : Nat) : truncTo w n = n % 2 ^ w := by rw [truncTo, ← Int.natCast_emod, Int.toNat_natCast]

theorem truncTo_congr {w : Nat} {r q : Int} (agree : AgreeMod w r q) : truncTo w r = truncTo w q :=
  congrArg Int.toNat agree

theorem truncTo_agree (w : Nat) (r : Int) : AgreeMod w (truncTo w r) r := by
  have pos := Nat.two_pow_pos w
  rw [truncTo, Int.toNat_of_nonneg (Int.emod_nonneg r (by omega)), AgreeMod, Int.emod_emod]

theorem sextW_of_agree {w n : Nat} {r : Int} (agree : AgreeMod w n r) :
    sextW w n = BitVec.ofInt 64 (signed w (truncTo w r)) := by
  rw [← truncTo_congr agree, truncTo_natCast, signed_mod_two_pow, sextW]

theorem signed_of_high {w n : Nat} (lt : n < 2 ^ w) (high : 2 ^ w ≤ 2 * n) : signed w n = n - (2 ^ w : Nat) := by
  simp only [signed, Nat.mod_eq_of_lt lt, if_neg (Nat.not_lt.2 high)]

theorem wof_pos (w32 : Bool) : 0 < wof w32 := by cases w32 <;> decide

/-! ## Forms of two sources and of one -/

theorem exec_alu {i : Instr} {h : Hdr} {s : State} {op : Nat → Nat → Nat → Nat} {w32 : Bool} {d a : GReg} {b : GI} {r : Int}
    (on : On h s) (form : exec i s = runReg h (alu op w32 d a b) s)
    (agree : AgreeMod (wof w32) (op (wof w32) ((s.me.rg a).toNat % 2 ^ wof w32) ((GI.sval b s.me).toNat % 2 ^ wof w32)) r) :
    exec i s = .next (regNext h s (s.me.wg d (BitVec.ofInt 64 (signed (wof w32) (truncTo (wof w32) r))))) := by
  rw [form, runReg_on _ on, alu, sextW_of_agree agree]

theorem exec_alu1 {i : Instr} {h : Hdr} {s : State} {op : Nat → Nat → Nat} {w32 : Bool} {d a : GReg} {r : Int}
    (on : On h s) (form : exec i s = runReg h (alu1 op w32 d a) s)
    (agree : AgreeMod (wof w32) (op (wof w32) ((s.me.rg a).toNat % 2 ^ wof w32)) r) :
    exec i s = .next (regNext h s (s.me.wg d (BitVec.ofInt 64 (signed (wof w32) (truncTo (wof w32) r))))) := by
  rw [form, runReg_on _ on, alu1, sextW_of_agree agree]

/-! ## Differences, complements, high halves and bounds -/

theorem sub_agree {w y : Nat} (x : Nat) (lt : y < 2 ^ w) : AgreeMod w (x + 2 ^ w - y : Nat) (x - y) := .of_eq_add (by omega)

theorem opNot_of_lt {w y : Nat} (lt : y < 2 ^ w) : opNot w y = 2 ^ w - 1 - y := by rw [opNot, Nat.mod_eq_of_lt lt]

theorem opMulh_agree (w x y : Nat) : AgreeMod w (opMulh w x y) (signed w x * signed w y / 2 ^ w) := by
  rw [← natCast_two_pow]
  exact truncTo_agree ..

theorem mulhu_eq (w x y : Nat) : ((x * y / 2 ^ w : Nat) : Int) = x * y / 2 ^ w := by
  rw [Int.natCast_ediv, natCast_two_pow, Int.natCast_mul]

theorem onSigned_agree (f : Int → Int → Int) (w x y : Nat) : AgreeMod w (onSigned f w x y) (f (signed w x) (signed w y)) :=
  truncTo_agree ..

theorem natCast_min_eq (x y : Nat) : ((min x y : Nat) : Int) = min (x : Int) y := by omega

theorem natCast_max_eq (x y : Nat) : ((max x y : Nat) : Int) = max (x : Int) y := by omega

/-! ## Division (R194) -/

theorem all_ones_agree (w : Nat) : AgreeMod w (2 ^ w - 1 : Nat) (-1) := by
  have pos := Nat.two_pow_pos w
  exact .of_eq_add (by omega)

theorem signed_most_negative {w : Nat} (pos : 0 < w) : signed w (2 ^ (w - 1)) = -(2 ^ (w - 1) : Nat) := by
  obtain ⟨n, rfl⟩ : ∃ n, w = n + 1 := ⟨w - 1, by omega⟩
  have half : 2 ^ (n + 1) = 2 ^ n * 2 := Nat.pow_succ ..
  have positive := Nat.two_pow_pos n
  rw [Nat.add_sub_cancel, signed_of_high (by omega) (by omega)]
  omega

theorem signed_all_ones {w : Nat} (pos : 0 < w) : signed w (2 ^ w - 1) = -1 := by
  have two : 2 ^ 1 ≤ 2 ^ w := Nat.pow_le_pow_right (by decide) pos
  rw [signed_of_high (by omega) (by omega)]
  omega

theorem divide_signed_agree {w : Nat} (pos : 0 < w) (x y : Nat) :
    AgreeMod w (divide true w x y).1 (if y = 0 then -1 else (signed w x).tdiv (signed w y)) ∧
    AgreeMod w (divide true w x y).2 (if y = 0 then (x : Int) else (signed w x).tmod (signed w y)) := by
  by_cases zero : y = 0
  · simp only [divide, if_pos zero]
    exact ⟨all_ones_agree w, .of_eq rfl⟩
  · by_cases overflow : x = 2 ^ (w - 1) ∧ y = 2 ^ w - 1
    · simp only [divide, if_neg zero, if_pos overflow, if_true]
      obtain ⟨rfl, rfl⟩ := overflow
      rw [signed_most_negative pos, signed_all_ones pos, Int.tdiv_neg, Int.tdiv_one, Int.neg_neg, Int.tmod_neg, Int.tmod_one]
      exact ⟨.of_eq rfl, .of_eq rfl⟩
    · simp only [divide, if_neg zero, if_neg overflow, if_true]
      exact ⟨truncTo_agree .., truncTo_agree ..⟩

theorem divide_unsigned_agree (w x y : Nat) :
    AgreeMod w (divide false w x y).1 (if y = 0 then -1 else (x : Int) / y) ∧
    AgreeMod w (divide false w x y).2 (if y = 0 then (x : Int) else (x : Int) % y) := by
  by_cases zero : y = 0
  · simp only [divide, if_pos zero]
    exact ⟨all_ones_agree w, .of_eq rfl⟩
  · simp only [divide, if_neg zero, Bool.false_eq_true, if_false]
    exact ⟨.of_eq (Int.natCast_ediv ..), .of_eq (Int.natCast_emod ..)⟩

/-- Settles O1: every form is one operation on the low bits of its sources, and each operation agrees with its result modulo 2
to the width. -/
theorem integerResults : Obligations.IntegerResults := by
  unfold Obligations.IntegerResults
  refine ⟨fun h w32 d a b s on => ?_, fun h w32 d a b s on => ?_⟩
  · intro w x y sx sy is
    have gives {i op r} := exec_alu (i := i) (op := op) (w32 := w32) (d := d) (a := a) (b := b) (r := r) on
    have short : y < 2 ^ w := Nat.mod_lt _ (Nat.two_pow_pos w)
    have compl (f : Nat → Nat) : (f (opNot w y) : Int) = f (2 ^ w - 1 - y) := by rw [opNot_of_lt short]
    exact ⟨gives (exec_add ..) (.of_eq (Int.natCast_add ..)), gives (exec_sub ..) (sub_agree x short),
      gives (exec_mul ..) (.of_eq (Int.natCast_mul ..)), gives (exec_mulh ..) (opMulh_agree w x y),
      gives (exec_mulhu ..) (.of_eq (mulhu_eq w x y)), gives (exec_and ..) (.of_eq rfl), gives (exec_or ..) (.of_eq rfl),
      gives (exec_xor ..) (.of_eq rfl), gives (exec_andn ..) (.of_eq (compl fun z => x &&& z)),
      gives (exec_orn ..) (.of_eq (compl fun z => x ||| z)), gives (exec_min ..) (onSigned_agree min w x y),
      gives (exec_max ..) (onSigned_agree max w x y), gives (exec_minu ..) (.of_eq (natCast_min_eq x y)),
      gives (exec_maxu ..) (.of_eq (natCast_max_eq x y))⟩
  · intro w x y sx sy is
    have gives {i op r} := exec_alu (i := i) (op := op) (w32 := w32) (d := d) (a := a) (b := b) (r := r) on
    obtain ⟨quot, rem⟩ := divide_signed_agree (wof_pos w32) x y
    obtain ⟨quotu, remu⟩ := divide_unsigned_agree w x y
    exact ⟨gives (exec_div ..) quot, gives (exec_divu ..) quotu, gives (exec_rem ..) rem, gives (exec_remu ..) remu⟩

end Sys2Proof.Machine
end

section
/-! Shifts, rotates, bit counts and reversals (R192, R193): the amount modulo the width, and the bits of what a form of one
source gives. -/

namespace Sys2Proof.Machine

/-! ## Shifts and rotates -/

/-- The amount that a form takes of its low bits is the amount modulo the width, which divides 2 to the width. -/
theorem mod_two_pow_wof_mod (w32 : Bool) (n : Nat) : n % 2 ^ wof w32 % wof w32 = n % wof w32 := by
  cases w32 <;> exact Nat.mod_mod_of_dvd n (by decide)

theorem opShl_agree (w x n : Nat) : AgreeMod w (opShl w x n) (x * 2 ^ (n % w)) := by
  rw [← natCast_two_pow, ← Int.natCast_mul]
  exact .of_mod_eq (Nat.mod_mod ..)

theorem opShr_eq (w x n : Nat) : (opShr w x n : Int) = x / 2 ^ (n % w) := by
  rw [opShr, Int.natCast_ediv, natCast_two_pow]

theorem opSar_agree (w x n : Nat) : AgreeMod w (opSar w x n) (signed w x / 2 ^ (n % w)) := by
  rw [← natCast_two_pow]
  exact truncTo_agree ..

theorem opRol_agree (w x n : Nat) : AgreeMod w (opRol w x n) (x * 2 ^ (n % w) + x * 2 ^ (n % w) / 2 ^ w) := by
  rw [← natCast_two_pow, ← natCast_two_pow, ← Int.natCast_mul, ← Int.natCast_ediv, ← Int.natCast_add]
  exact .of_mod_eq (Nat.mod_mod ..)

/-- A rotation to the right by k is one to the left by w − k, whose wrapped part is x / 2^k. -/
theorem opRor_mod {w x : Nat} (pos : 0 < w) (lt : x < 2 ^ w) (n : Nat) :
    opRor w x n % 2 ^ w = (x / 2 ^ (n % w) + x * 2 ^ (w - n % w)) % 2 ^ w := by
  have inside := Nat.mod_lt n pos
  rw [opRor, opRol, Nat.mod_mod]
  by_cases zero : n % w = 0
  · rw [zero, Nat.sub_zero, Nat.mod_self, Nat.pow_zero, Nat.mul_one, Nat.div_one, Nat.div_eq_of_lt lt, Nat.add_zero,
      Nat.add_mul_mod_self_right]
  · have whole : 2 ^ w = 2 ^ (n % w) * 2 ^ (w - n % w) := by rw [← Nat.pow_add, Nat.add_sub_cancel' (Nat.le_of_lt inside)]
    have wrapped : x * 2 ^ (w - n % w) / 2 ^ w = x / 2 ^ (n % w) := by
      rw [whole, Nat.mul_div_mul_right _ _ (Nat.two_pow_pos _)]
    rw [Nat.mod_eq_of_lt (by omega : w - n % w < w), wrapped, Nat.add_comm]

theorem opRor_agree {w x : Nat} (pos : 0 < w) (lt : x < 2 ^ w) (n : Nat) :
    AgreeMod w (opRor w x n) (x / 2 ^ (n % w) + x * 2 ^ (w - n % w)) := by
  rw [← natCast_two_pow, ← natCast_two_pow, ← Int.natCast_mul, ← Int.natCast_ediv, ← Int.natCast_add]
  exact .of_mod_eq (opRor_mod pos lt n)

/-! ## Counts -/

theorem countWhile_le (f : Nat → Bool) (w : Nat) : countWhile f w ≤ w :=
  Nat.le_trans (List.takeWhile_sublist _).length_le (Nat.le_of_eq List.length_range)

theorem countWhile_eq_findIdx (f : Nat → Bool) (w : Nat) : countWhile f w = (List.range w).findIdx (fun i => !f i) := by
  rw [countWhile, List.takeWhile_eq_take_findIdx_not, List.length_take, Nat.min_eq_left (List.findIdx_le_length)]

theorem true_of_lt_countWhile {f : Nat → Bool} {w i : Nat} (lt : i < countWhile f w) : f i = true := by
  have early := List.not_of_lt_findIdx (countWhile_eq_findIdx f w ▸ lt)
  simpa using early

theorem countWhile_false {f : Nat → Bool} {w : Nat} (lt : countWhile f w < w) : f (countWhile f w) = false := by
  rw [countWhile_eq_findIdx] at lt ⊢
  have stop := List.findIdx_getElem (w := Nat.lt_of_lt_of_eq lt List.length_range.symm)
  simpa using stop

theorem countWhile_eq {f : Nat → Bool} {w z : Nat} (le : z ≤ w) (before : ∀ i < z, f i = true)
    (stop : z < w → f z = false) : countWhile f w = z := by
  rcases Nat.lt_trichotomy (countWhile f w) z with lt | eq | gt
  · exact absurd (before _ lt) (by simp [countWhile_false (Nat.lt_of_lt_of_le lt le)])
  · exact eq
  · exact absurd (true_of_lt_countWhile gt) (by simp [stop (Nat.lt_of_lt_of_le gt (countWhile_le f w))])

theorem opClz_eq {w x : Nat} (lt : x < 2 ^ w) : opClz w x = if x = 0 then w else w - 1 - Nat.log2 x := by
  by_cases zero : x = 0
  · subst zero
    exact countWhile_eq Nat.le.refl (by simp) (by simp)
  · have top : Nat.log2 x < w := (Nat.log2_lt zero).2 lt
    rw [if_neg zero]
    refine countWhile_eq (by omega) (fun i early => ?_) fun _ => ?_
    · have above : x < 2 ^ (w - 1 - i) := (Nat.log2_lt zero).1 (by omega)
      simp [Nat.testBit_lt_two_pow above]
    · rw [show w - 1 - (w - 1 - Nat.log2 x) = Nat.log2 x by omega, Nat.testBit_log2 zero]
      rfl

theorem opPopc_eq (w x : Nat) : opPopc w x = (List.range w).countP fun i => x.testBit i := List.countP_eq_length_filter.symm

/-! ## Reversals -/

theorem gatherBits_succ (w : Nat) (f : Nat → Bool) : gatherBits (w + 1) f = 2 ^ w * (f w).toNat + gatherBits w f := by
  rw [gatherBits, List.range_succ, List.foldl_append]
  show (if f w then gatherBits w f + 2 ^ w else gatherBits w f) = _
  cases f w <;> simp [Nat.add_comm]

theorem gatherBits_lt (w : Nat) (f : Nat → Bool) : gatherBits w f < 2 ^ w := by
  induction w with
  | zero => exact Nat.one_pos
  | succ w ih =>
    have bit : 2 ^ w * (f w).toNat ≤ 2 ^ w * 1 := Nat.mul_le_mul_left _ (Bool.toNat_le _)
    rw [gatherBits_succ, Nat.pow_succ]
    omega

theorem testBit_gatherBits (w : Nat) (f : Nat → Bool) (i : Nat) : (gatherBits w f).testBit i = (decide (i < w) && f i) := by
  induction w with
  | zero => simp [gatherBits]
  | succ w ih =>
    rw [gatherBits_succ, Nat.testBit_two_pow_mul_add _ (gatherBits_lt w f)]
    by_cases low : i < w
    · rw [if_pos low, ih, decide_eq_true low, decide_eq_true (Nat.lt_succ_of_lt low)]
    · obtain ⟨k, rfl⟩ : ∃ k, i = w + k := ⟨i - w, by omega⟩
      rw [if_neg low, Nat.add_sub_cancel_left]
      cases k <;> cases f w <;> simp [Nat.testBit_succ]

/-- Settles O2: each shift and rotate agrees with its number modulo 2 to the width, and a count or a reversal is a number whose
bits are known. -/
theorem shiftAndCountResults : Obligations.ShiftAndCountResults := by
  unfold Obligations.ShiftAndCountResults
  intro h w32 d a b s on w x n is
  have two {i op r} := exec_alu (i := i) (op := op) (w32 := w32) (d := d) (a := a) (b := b) (r := r) on
  have one {i op r} := exec_alu1 (i := i) (op := op) (w32 := w32) (d := d) (a := a) (r := r) on
  have amount : (GI.sval b s.me).toNat % 2 ^ wof w32 % wof w32 = n := mod_two_pow_wof_mod ..
  have short : x < 2 ^ w := Nat.mod_lt _ (Nat.two_pow_pos w)
  refine ⟨two (exec_shl ..) (amount ▸ opShl_agree ..), two (exec_shr ..) (amount ▸ .of_eq (opShr_eq ..)),
    two (exec_sar ..) (amount ▸ opSar_agree ..), two (exec_rol ..) (amount ▸ opRol_agree ..),
    two (exec_ror ..) (amount ▸ opRor_agree (wof_pos w32) short ..), one (exec_clz ..) (.of_eq (congrArg _ (opClz_eq short))),
    ⟨opCtz w x, one (exec_ctz ..) (.of_eq rfl), countWhile_le .., fun i early => ?_, fun inside => ?_⟩,
    one (exec_popc ..) (.of_eq (congrArg _ (opPopc_eq w x))),
    ⟨opBrev w x, one (exec_brev ..) (.of_eq rfl), gatherBits_lt .., fun i lt => ?_⟩,
    ⟨opBswap w x, one (exec_bswap ..) (.of_eq rfl), gatherBits_lt .., fun i lt => ?_⟩⟩
  · exact (Bool.not_eq_true' _).mp (true_of_lt_countWhile early)
  · exact (Bool.not_eq_false' _).mp (countWhile_false inside)
  · rw [opBrev, testBit_gatherBits, decide_eq_true lt, Bool.true_and]
  · rw [opBswap, testBit_gatherBits, decide_eq_true lt, Bool.true_and]

end Sys2Proof.Machine
end

section
/-! Extensions, bit fields, addresses and moves (R195 to R197, R199): the effect of a form that checks an operand value before it
writes gd, and what each writes. -/

namespace Sys2Proof.Machine

/-! ## Forms with an operand-value check -/

/-- The effect of a form that raises ILLOP for some immediates, and otherwise only changes its context. -/
def checked (i : Instr) (bad : Bool) (f : Ctx → Ctx) : M Flow := do
  illopIf i bad
  modMe f
  return .next

theorem exec_checked {i : Instr} {bad : Bool} {h : Hdr} {s : State} {f : Ctx → Ctx} (on : On h s)
    (form : exec i s = runIsa h (checked i bad f) s) (good : bad = false) :
    exec i s = .next (bodyNext h (s.setMe (f s.me)) .next) := by
  subst good
  exact form.trans (runIsa_ok on rfl)

theorem exec_checked_bad {i : Instr} {bad : Bool} {h : Hdr} {s : State} {f : Ctx → Ctx} (on : On h s)
    (form : exec i s = runIsa h (checked i bad f) s) (raises : bad = true) :
    exec i s = .next (s.takeTrap s.cur { cause := .illop, tval := i.tvalBits }) := by
  subst raises
  exact form.trans (runIsa_trap on rfl)

/-! ## Extension (R195) -/

theorem extWidth_of_inside {b : Word} (low : 1 ≤ b.toNat) (high : b.toNat ≤ 64) : extWidth b = b.toNat := if_pos ⟨low, high⟩

/-- A small immediate is the same number when it is sign-extended. -/
theorem toNat_signExtend_of_le {v : BitVec 32} (le : v.toNat ≤ 64) : (v.signExtend 64).toNat = v.toNat := by
  have sign : v.msb = false := BitVec.msb_eq_false_iff_two_mul_lt.2 (by omega)
  rw [BitVec.signExtend_eq_setWidth_of_msb_false sign, BitVec.toNat_setWidth, Nat.mod_eq_of_lt (by omega)]

theorem extBad_imm {v : BitVec 32} : extBad (.imm v) = true ↔ v.toNat = 0 ∨ 64 < v.toNat := by
  simp only [extBad, Bool.or_eq_true, beq_iff_eq, decide_eq_true_eq]

theorem extBad_imm_of_inside {v : BitVec 32} (low : 1 ≤ v.toNat) (high : v.toNat ≤ 64) : extBad (.imm v) = false :=
  Bool.eq_false_iff.2 fun bad => by have := extBad_imm.1 bad; omega

/-- Settles O3: the check lets exactly the immediate widths in [1, 64] pass, and n is then the width that the form takes. -/
theorem extensionResults : Obligations.ExtensionResults := by
  unfold Obligations.ExtensionResults
  refine fun h d a s on => ⟨fun b n width => ?_, fun v outside => ?_⟩
  · obtain ⟨good, rfl⟩ : extBad b = false ∧ extWidth (GI.sval b s.me) = n := by
      cases b with
      | reg r => exact ⟨rfl, width.symm⟩
      | imm v =>
        obtain ⟨eq, low, high⟩ : n = v.toNat ∧ 1 ≤ n ∧ n ≤ 64 := width
        subst eq
        have same : (GI.sval (.imm v) s.me).toNat = v.toNat := toNat_signExtend_of_le high
        exact ⟨extBad_imm_of_inside low high, same ▸ extWidth_of_inside (by omega) (by omega)⟩
    exact ⟨(exec_checked on (exec_sext ..) good).trans rfl, (exec_checked on (exec_zext ..) good).trans rfl⟩
  · have bad := extBad_imm.2 outside
    exact ⟨exec_checked_bad on (exec_sext ..) bad, exec_checked_bad on (exec_zext ..) bad⟩

/-! ## Bit fields (R196) -/

theorem fieldBad_imm {v : BitVec 32} : fieldBad (.imm v) = true ↔ 64 < (v.extractLsb' 8 7).toNat := decide_eq_true_iff

theorem fieldPos_eq (c : Word) : fieldPos c = c.toNat % 64 := congrArg (· % 64) (Nat.div_one _)

theorem bfxOf_eq (x c : Word) :
    bfxOf x c = BitVec.ofNat 64 (x.toNat / 2 ^ (c.toNat % 64) % 2 ^ min (c.toNat / 256 % 128) 64) := by
  rw [bfxOf, fieldPos_eq]
  rfl

theorem bfiOf_eq (old x c : Word) :
    bfiOf old x c =
      (let k : Word := BitVec.ofNat 64 ((2 ^ min (c.toNat / 256 % 128) 64 - 1) * 2 ^ (c.toNat % 64))
       (old &&& ~~~k) ||| (x <<< (c.toNat % 64) &&& k)) := by
  have shifted : BitVec.ofNat 64 (x.toNat * 2 ^ (c.toNat % 64)) = x <<< (c.toNat % 64) := by
    rw [← Nat.shiftLeft_eq]
    rfl
  rw [bfiOf, fieldPos_eq, shifted]
  rfl

/-! ## Addresses and moves (R197, R199) -/

theorem twoPow_eq_two_pow (k : Nat) : BitVec.twoPow 64 k = (2 ^ k : Word) := by
  induction k with
  | zero => exact BitVec.twoPow_zero
  | succ k ih =>
    have power : (2 ^ (k + 1) : Word) = 2 ^ k * 2 := BitVec.pow_succ
    rw [power, ← ih]
    exact (BitVec.twoPow_mul_twoPow_eq k 1).symm

theorem shiftLeft_eq_mul_two_pow (x : Word) (k : Nat) : x <<< k = x * 2 ^ k := by
  rw [BitVec.shiftLeft_eq_mul_twoPow, twoPow_eq_two_pow]

/-- Settles O4: the check of a bit field lets the lengths up to 64 pass; the moves only write gd. -/
theorem bitFieldAndMoveResults : Obligations.BitFieldAndMoveResults := by
  unfold Obligations.BitFieldAndMoveResults
  refine ⟨fun h d a s on => ⟨fun b short => ?_, fun v long => ?_⟩, fun h d a b k imm s on => ⟨?_, ?_, ?_, ?_⟩⟩
  · have good : fieldBad b = false := by
      cases b with
      | reg r => rfl
      | imm v => exact Bool.eq_false_iff.2 fun bad => Nat.not_lt.2 short (fieldBad_imm.1 bad)
    exact ⟨(exec_checked on (exec_bfx ..) good).trans (by rw [bfxOf_eq]),
      (exec_checked on (exec_bfi ..) good).trans (by rw [bfiOf_eq])⟩
  · have bad := fieldBad_imm.2 long
    exact ⟨exec_checked_bad on (exec_bfx ..) bad, exec_checked_bad on (exec_bfi ..) bad⟩
  · rw [exec_lea, execLea, runReg_on _ on, shiftLeft_eq_mul_two_pow]
  · rw [exec_mov, execMov, runReg_on _ on]
  · rw [exec_movi, execMovi, runReg_on _ on, BitVec.signExtend]
  · rw [exec_movhi, execMovhi, runReg_on _ on]

end Sys2Proof.Machine
end

section
/-! Selection (R198): what SEL chooses, the words of SEL that are no instruction, and the step that fetches one. -/

namespace Sys2Proof.Machine

/-! ## The guard and predicate sources (R170, R200) -/

theorem holds_eq_false {h : Hdr} {s : State} (off : ¬ On h s) : Hdr.holds h s.me = false := Bool.eq_false_iff.2 off

theorem PSrc.val_eq_xor (x : PSrc) (c : Ctx) : PSrc.val x c = (c.rp x.p ^^ x.neg) := rfl

/-! ## Words of SEL -/

/-- Fields that name OPC 0x01 and FN 0x21 are those of SEL, or of no form. -/
theorem form_of_sel_code {f : Fields} (opc : f.opc = 0x01) (fn : f.fn = 0x21) (h : Hdr) :
    f.form h = (do
      let d ← f.d.g; let a ← f.a.g; let b ← f.b.g; f.immMask 0xF#32
      return .sel h d a b ⟨f.imm.setWidth 3, f.imm.getLsbD 3⟩) := by
  unfold Fields.form
  rw [opc]
  unfold Fields.dec01
  rw [fn]
  rfl

theorem form_none_of_sel_code {f : Fields} (opc : f.opc = 0x01) (fn : f.fn = 0x21)
    (bad : f.b.cls ≠ 0 ∨ f.imm &&& ~~~0xF#32 ≠ 0) (h : Hdr) : f.form h = none := by
  rw [form_of_sel_code opc fn]
  rcases bad with cls | set
  · have noReg : f.b.g = none := if_neg fun both => cls both.1
    simp [noReg]
  · have noMask : f.immMask 0xF#32 = none := if_neg set
    simp [noMask]

theorem decode_none_of_form {w : InstrWord} (formless : ∀ h, (Fields.unpack w).form h = none) : decode w = none := by
  simp [decode, decodeFields, formless]

theorem extractLsb'_of_extractLsb' {n : Nat} (w : BitVec n) {a b m k : Nat} (inside : b + k ≤ m) :
    (w.extractLsb' a m).extractLsb' b k = w.extractLsb' (a + b) k := by
  ext i lt
  simp [show b + i < m by omega, Nat.add_assoc]

/-- Bits [31:4] of an immediate are those that the mask of SEL leaves. -/
theorem extractLsb'_eq_zero_of_masked {x : BitVec 32} (masked : x &&& ~~~0xF#32 = 0) : x.extractLsb' 4 28 = 0 := by
  have high := congrArg (BitVec.extractLsb' 4 28) masked
  rwa [BitVec.extractLsb'_and, show BitVec.extractLsb' 4 28 (~~~0xF#32) = BitVec.allOnes 28 by decide, BitVec.and_allOnes] at high

theorem decode_sel_none {w : InstrWord} (sel : w.extractLsb' 80 16 = 0x0121)
    (bad : w.extractLsb' 42 2 ≠ 0 ∨ w.extractLsb' 4 28 ≠ 0) : decode w = none := by
  have opc : (Fields.unpack w).opc = 0x01 :=
    (extractLsb'_of_extractLsb' w (a := 80) (b := 8) (m := 16) (by decide)).symm.trans (by rw [sel]; rfl)
  have fn : (Fields.unpack w).fn = 0x21 :=
    (extractLsb'_of_extractLsb' w (a := 80) (b := 0) (m := 16) (by decide)).symm.trans (by rw [sel]; rfl)
  have cls : (Fields.unpack w).b.cls = w.extractLsb' 42 2 := extractLsb'_of_extractLsb' w (by decide)
  have imm : (Fields.unpack w).imm.extractLsb' 4 28 = w.extractLsb' 4 28 := extractLsb'_of_extractLsb' w (by decide)
  refine decode_none_of_form (form_none_of_sel_code opc fn ?_)
  exact bad.imp (cls ▸ ·) fun set masked => set (imm ▸ extractLsb'_eq_zero_of_masked masked)

/-! ## The step that fetches a word (R175 to R177) -/

theorem step_eq_runNext {s : State} (known : s.cur < numCtxs) (idle : s.agenda = []) (issues : s.me.issues = true)
    (unkilled : s.killDue s.cur = none) (unyielded : s.me.yieldDue = false) (unsaved : s.saveDue s.cur = false) :
    step s = andPlan s.cur (runNext exec s.tick) := by
  simp only [step, if_neg (Nat.not_le.2 known), idle, Ctx.issues_saving issues, issues, unkilled, unyielded, unsaved,
    Option.isSome_none, Bool.false_eq_true, if_false, if_true]

theorem runNext_illop {s s' : State} {w : InstrWord} (fetched : fetch s = .ok w s') (undecoded : decode w = none)
    (resolved : s'.unresolved s'.cur = false) :
    runNext exec s = .next (s'.takeTrap s'.cur { cause := .illop, tval := w.extractLsb' 32 64 }) := by
  simp only [runNext, fetched, undecoded, State.afterWindow, resolved, Bool.false_eq_true, if_false]

/-- Settles O5: the fields of such a word have no form, so its step raises ILLOP; SEL itself writes the register that its own
predicate chooses. -/
theorem selectResult : Obligations.SelectResult := by
  unfold Obligations.SelectResult
  refine ⟨fun w sel bad => ?_, fun h d a b p s => ⟨fun on => ?_, fun off => ?_⟩⟩
  · have undecoded := decode_sel_none sel bad
    refine ⟨undecoded, fun s s' known idle issues unkilled unyielded unsaved fetched resolved => ?_⟩
    rw [step_eq_runNext known idle issues unkilled unyielded unsaved, runNext_illop fetched undecoded resolved, andPlan]
  · rw [exec_sel, execSel, runReg_on _ on, PSrc.val_eq_xor]
  · exact (exec_sel ..).trans (runReg_off _ (holds_eq_false off))

end Sys2Proof.Machine
end

section
/-! Compares and predicates (R200, R201): each condition on the low bits of its sources, and the forms that write a predicate
register or read all of them. -/

namespace Sys2Proof.Machine

/-! ## Conditions -/

/-- A condition reads the low bits of its sources alone. -/
theorem Cond.test_mod (c : Cond) (w a b : Nat) : Cond.test c w (a % 2 ^ w) (b % 2 ^ w) = Cond.test c w a b := by
  cases c <;> simp only [Cond.test, Nat.mod_mod, signed_mod_two_pow]

theorem Cond.test_of_lt (c : Cond) {w x y : Nat} (hx : x < 2 ^ w) (hy : y < 2 ^ w) :
    Cond.test c w x y = (match c with
      | .eq => decide (x = y)
      | .ne => decide (x ≠ y)
      | .lt => decide (signed w x < signed w y)
      | .ge => decide (signed w y ≤ signed w x)
      | .ltu => decide (x < y)
      | .geu => decide (y ≤ x)
      | .bits => decide (x &&& y ≠ 0)
      | .nbits => decide (x &&& y = 0)) := by
  simp only [Cond.test, Nat.mod_eq_of_lt hx, Nat.mod_eq_of_lt hy]
  cases c <;> simp [bne, Bool.beq_eq_decide_eq]

/-! ## Forms that write a predicate -/

theorem exec_wp {i : Instr} {h : Hdr} {s : State} {d : PReg} {f : Ctx → Bool} {v : Bool} (on : On h s)
    (form : exec i s = runReg h (fun c => c.wp d (f c)) s) (value : f s.me = v) :
    exec i s = .next (regNext h s (if d = 0 then s.me else { s.me with p := s.me.p.set d.toNat v })) := by
  rw [form, runReg_on _ on, value, Ctx.wp]

theorem predBits_eq_gatherBits (c : Ctx) : predBits c = gatherBits 8 fun i => c.rp (BitVec.ofNat 3 i) := rfl

theorem getLsbD_predBits (c : Ctx) (i : Nat) :
    (BitVec.ofNat 64 (predBits c)).getLsbD i = (decide (i < 8) && c.rp (BitVec.ofNat 3 i)) := by
  rw [BitVec.getLsbD_ofNat, predBits_eq_gatherBits, testBit_gatherBits, ← Bool.and_assoc, ← Bool.decide_and]
  exact congrArg (· && _) (decide_eq_decide.2 (by omega))

/-- Settles O6: CMP tests its condition on the low bits, and each predicate form writes the value that it reads. -/
theorem predicateResults : Obligations.PredicateResults := by
  unfold Obligations.PredicateResults
  intro h s on is
  have writes {i d f v} := exec_wp (i := i) (d := d) (f := f) (v := v) on
  refine ⟨fun w32 d a b => ?_, fun d a b => ?_, fun d r neg => ?_, fun d => ?_⟩
  · intro w x y
    have tests (c : Cond) := (Cond.test_mod c w (s.me.rg a).toNat (GI.sval b s.me).toNat).symm.trans
      (Cond.test_of_lt c (Nat.mod_lt _ (Nat.two_pow_pos w)) (Nat.mod_lt _ (Nat.two_pow_pos w)))
    exact ⟨writes (exec_cmp ..) (tests .eq), writes (exec_cmp ..) (tests .ne), writes (exec_cmp ..) (tests .lt),
      writes (exec_cmp ..) (tests .ge), writes (exec_cmp ..) (tests .ltu), writes (exec_cmp ..) (tests .geu),
      writes (exec_cmp ..) (tests .bits), writes (exec_cmp ..) (tests .nbits)⟩
  · exact ⟨writes (exec_pand ..) rfl, writes (exec_por ..) rfl, writes (exec_pxor ..) rfl, writes (exec_pnot ..) rfl,
      writes (exec_pmov ..) rfl⟩
  · have nonzero : (s.me.rg r != 0) = decide (s.me.rg r ≠ 0) := by rw [bne, Bool.beq_eq_decide_eq, decide_not]
    exact writes (exec_pmov ..) (congrArg (· ^^ neg) nonzero)
  · exact ⟨_, (exec_pget ..).trans (runReg_on _ on), getLsbD_predBits s.me⟩

end Sys2Proof.Machine
end

section
/-! Control transfer (R202 to R205): targets, links and their alignment, the counter of LOOP, and NOP. -/

namespace Sys2Proof.Machine

/-! ## Targets -/

theorem relTarget_eq (c : Ctx) (off : BitVec 32) : relTarget c off = c.pc + BitVec.ofInt 64 (4 * off.toInt) := by
  rw [relTarget, shiftLeft_eq_mul_two_pow, BitVec.signExtend, Int.mul_comm, BitVec.ofInt_mul]
  rfl

theorem setWidth_two_ne_zero (t : Word) : (t.setWidth 2 != 0) = decide (t.toNat % 4 ≠ 0) := by
  have zero : t.setWidth 2 = 0 ↔ t.toNat % 4 = 0 := by rw [← BitVec.toNat_inj, BitVec.toNat_setWidth]; rfl
  rw [bne, Bool.beq_eq_decide_eq, ← decide_not]
  exact decide_eq_decide.2 (not_congr zero)

theorem alignTarget_ok {t : Word} (aligned : t.toNat % 4 = 0) (s : State) : alignTarget t s = .ok () s := by
  rw [alignTarget, setWidth_two_ne_zero, decide_eq_false fun unaligned => unaligned aligned, M_trap_false]

theorem alignTarget_trap {t : Word} (unaligned : t.toNat % 4 ≠ 0) (s : State) :
    alignTarget t s = .error (.trap { cause := .align, tval := t }) s := by
  rw [alignTarget, setWidth_two_ne_zero, decide_eq_true unaligned, M_trap_true]

/-! ## The forms -/

section
variable {h : Hdr} {s : State} {d a b : GReg} {e off : BitVec 32}

theorem exec_br_on (on : On h s) :
    exec (.br h off) s = .next (bodyNext h s (.goto (s.me.pc + BitVec.ofInt 64 (4 * off.toInt)))) :=
  relTarget_eq s.me off ▸ runIsa_ok on rfl

theorem exec_brl_on (on : On h s) : exec (.brl h d off) s =
    .next (bodyNext h (s.setMe (s.me.wg d (s.me.pc + 12))) (.goto (s.me.pc + BitVec.ofInt 64 (4 * off.toInt)))) :=
  relTarget_eq s.me off ▸ runIsa_ok on rfl

theorem exec_brt_on (on : On h s) : exec (.brt h a b off) s = .next (bodyNext h s
    (if (s.me.rg a).toNat < (s.me.rg b).toNat then .goto (s.me.pc + BitVec.ofInt 64 (4 * off.toInt) + 12 * s.me.rg a)
     else .next)) :=
  relTarget_eq s.me off ▸ runIsa_ok on rfl

theorem exec_jmp_aligned (on : On h s) (aligned : (s.me.rg a + BitVec.ofInt 64 e.toInt).toNat % 4 = 0) :
    exec (.jmp h a e) s = .next (bodyNext h s (.goto (s.me.rg a + BitVec.ofInt 64 e.toInt))) :=
  runIsa_ok on ((bind_ok (M_me s)).trans (bind_ok (alignTarget_ok aligned s)))

theorem exec_jmpl_aligned (on : On h s) (aligned : (s.me.rg a + BitVec.ofInt 64 e.toInt).toNat % 4 = 0) :
    exec (.jmpl h d a e) s =
      .next (bodyNext h (s.setMe (s.me.wg d (s.me.pc + 12))) (.goto (s.me.rg a + BitVec.ofInt 64 e.toInt))) :=
  runIsa_ok on ((bind_ok (M_me s)).trans (bind_ok (alignTarget_ok aligned s)))

theorem exec_jmp_unaligned (on : On h s) (unaligned : (s.me.rg a + BitVec.ofInt 64 e.toInt).toNat % 4 ≠ 0) :
    exec (.jmp h a e) s = .next (s.takeTrap s.cur { cause := .align, tval := s.me.rg a + BitVec.ofInt 64 e.toInt }) :=
  runIsa_trap on ((bind_ok (M_me s)).trans (bind_error (alignTarget_trap unaligned s)))

theorem exec_jmpl_unaligned (on : On h s) (unaligned : (s.me.rg a + BitVec.ofInt 64 e.toInt).toNat % 4 ≠ 0) :
    exec (.jmpl h d a e) s = .next (s.takeTrap s.cur { cause := .align, tval := s.me.rg a + BitVec.ofInt 64 e.toInt }) :=
  runIsa_trap on ((bind_ok (M_me s)).trans (bind_error (alignTarget_trap unaligned s)))

theorem exec_loop_counted (counter : d ≠ 0) : exec (.loop h d off) s =
    .next (bodyNext h (s.setMe (s.me.wg d (s.me.rg d - 1)))
      (if s.me.rg d - 1 = 0 then .next else .goto (s.me.pc + BitVec.ofInt 64 (4 * off.toInt)))) := by
  rw [← relTarget_eq, exec_loop, execLoop, beq_false_of_ne counter]
  exact runFree_ok rfl

theorem exec_loop_zero : exec (.loop h 0 off) s =
    .next (s.takeTrap s.cur { cause := .illop, tval := (Instr.loop h 0 off).tvalBits }) := rfl

theorem exec_ret_eq_jmp : exec (.ret h a) s = exec (.jmp h a 0) s := by
  have offset : (0 : BitVec 32).signExtend 64 = 0#64 := by decide
  simp only [exec_ret, exec_jmp, execRet, execJmp, offset, BitVec.add_zero]

end

/-- Settles O7: a form goes to its target, and the two that jump to a register check the target first. -/
theorem controlTransferResults : Obligations.ControlTransferResults :=
  fun _ _ => ⟨fun on _ _ _ _ _ => ⟨exec_br_on on, exec_brl_on on, exec_brt_on on,
      fun aligned => ⟨exec_jmp_aligned on aligned, exec_jmpl_aligned on aligned⟩,
      fun unaligned => ⟨exec_jmp_unaligned on unaligned, exec_jmpl_unaligned on unaligned⟩⟩,
    fun _ _ counter => exec_loop_counted counter, fun _ => exec_loop_zero⟩

/-- Settles O8: RET runs the effect of JMP with e = 0, and NOP advances pc whether or not its guard holds. -/
theorem returnAndNop : Obligations.ReturnAndNop := by
  unfold Obligations.ReturnAndNop
  refine fun h a s => ⟨exec_ret_eq_jmp, fun on aligned => ?_, fun on => ?_, fun off => ?_⟩
  · exact runIsa_ok on ((bind_ok (M_me s)).trans (bind_ok (alignTarget_ok aligned s)))
  · exact (exec_nop ..).trans (runReg_on _ on)
  · exact (exec_nop ..).trans (runReg_off _ (holds_eq_false off))

end Sys2Proof.Machine
end

section
/-! Lanes (R163, R209 to R211): the elements of packed lanes, the flags that a lane loop gathers, and when two lane loops leave
the same context. -/

namespace Sys2Proof.Machine

/-! ## Packed elements (R47) -/

theorem packNat_element (w e : Nat) (l : List Nat) : packNat w l / 2 ^ (e * w) % 2 ^ w = l.getD e 0 % 2 ^ w := by
  induction l generalizing e with
  | nil => simp [packNat]
  | cons x xs ih =>
    rw [packNat]
    cases e with
    | zero => simp
    | succ e =>
      have low : (x % 2 ^ w + 2 ^ w * packNat w xs) / 2 ^ w = packNat w xs := by
        rw [Nat.add_mul_div_left _ _ (Nat.two_pow_pos w), Nat.div_eq_of_lt (Nat.mod_lt _ (Nat.two_pow_pos w)), Nat.zero_add]
      rw [Nat.succ_mul, Nat.add_comm (e * w), Nat.pow_add, ← Nat.div_div_eq_div_mul, low, ih, List.getD_cons_succ]

theorem toNat_ofNat_element {w e n : Nat} (inside : (e + 1) * w ≤ n) (x : Nat) :
    (BitVec.ofNat n x).toNat / 2 ^ (e * w) % 2 ^ w = x / 2 ^ (e * w) % 2 ^ w := by
  obtain ⟨k, rfl⟩ := Nat.exists_eq_add_of_le inside
  rw [BitVec.toNat_ofNat, Nat.succ_mul, Nat.add_assoc, Nat.pow_add, Nat.mod_mul_right_div_self,
    Nat.mod_mod_of_dvd _ (Nat.pow_dvd_pow 2 (Nat.le_add_right w k))]

theorem lane_inside {w e : Nat} (lt : e < lanesOf w) : (e + 1) * w ≤ 1024 := Nat.mul_le_of_le_div _ _ _ lt

theorem elem_packVec {w e : Nat} (lt : e < lanesOf w) (f : Nat → Nat) :
    elem (packVec w ((List.range (lanesOf w)).map f)) e w = f e % 2 ^ w := by
  rw [elem, packVec, toNat_ofNat_element (lane_inside lt), packNat_element]
  simp [lt]

theorem elem_mod (v : VWord) (e w : Nat) : elem v e w % 2 ^ w = elem v e w := Nat.mod_mod ..

/-- Packing takes the elements modulo 2 to their width. -/
theorem packNat_congr {w : Nat} {f g : Nat → Nat} (same : ∀ e, f e % 2 ^ w = g e % 2 ^ w) (l : List Nat) :
    packNat w (l.map f) = packNat w (l.map g) := by
  induction l with
  | nil => rfl
  | cons e es ih => rw [List.map_cons, List.map_cons, packNat, packNat, same, ih]

/-! ## The common lane loop (R211) -/

/-- One lane of the loop: what laneList does with element e. -/
def laneAt (c : Ctx) (w : Nat) (m : VMask) (d : VReg) (f : Nat → Nat × BitVec 5) (e : Nat) : Nat × BitVec 5 :=
  if active (c.rq m.msk) e w then f e else if m.z then (0, 0) else (elem (c.rv d) e w, 0)

theorem laneList_eq (c : Ctx) (w : Nat) (m : VMask) (d : VReg) (f : Nat → Nat × BitVec 5) :
    laneList c w m d f = (List.range (lanesOf w)).map (laneAt c w m d f) := rfl

theorem laneAt_fst (c : Ctx) (w : Nat) (m : VMask) (d : VReg) (f : Nat → Nat × BitVec 5) (e : Nat) :
    (laneAt c w m d f e).1 = if active (c.rq m.msk) e w then (f e).1 else if m.z then 0 else elem (c.rv d) e w := by
  unfold laneAt
  split
  · rfl
  · split <;> rfl

theorem laneAt_flag (c : Ctx) (w : Nat) (m : VMask) (d : VReg) (f : Nat → Nat × BitVec 5) (e i : Nat) :
    (laneAt c w m d f e).2.getLsbD i = (active (c.rq m.msk) e w && (f e).2.getLsbD i) := by
  unfold laneAt
  split
  next on => rw [on, Bool.true_and]
  next off =>
    rw [Bool.eq_false_iff.2 off, Bool.false_and]
    split <;> exact BitVec.getLsbD_zero

/-- The elements that the loop writes to its destination. -/
theorem laneList_values (c : Ctx) (w : Nat) (m : VMask) (d : VReg) (f : Nat → Nat × BitVec 5) :
    (laneList c w m d f).map (·.1) = (List.range (lanesOf w)).map fun e =>
      if active (c.rq m.msk) e w then (f e).1 else if m.z then 0 else elem (c.rv d) e w := by
  rw [laneList_eq, List.map_map]
  exact List.map_congr_left fun e _ => laneAt_fst ..

theorem putInts_eq (c : Ctx) (w : Nat) (m : VMask) (d : VReg) (f : Nat → Nat) :
    putInts c w m d f = c.wv d (packVec w ((List.range (lanesOf w)).map fun e =>
      if active (c.rq m.msk) e w then f e else if m.z then 0 else elem (c.rv d) e w)) := by
  rw [putInts, laneList_values]

/-- A loop that sets flags writes the elements of one that sets none. -/
theorem putLanes_eq (c : Ctx) (w : Nat) (m : VMask) (d : VReg) (f : Nat → Nat × BitVec 5) :
    putLanes c w m d f = (putInts c w m d fun e => (f e).1).orFlags (allFlags (laneList c w m d f)) := by
  rw [putInts_eq, ← laneList_values, putLanes]

theorem putInts_congr {c : Ctx} {w : Nat} {m : VMask} {d : VReg} {f g : Nat → Nat} (same : ∀ e, f e % 2 ^ w = g e % 2 ^ w) :
    putInts c w m d f = putInts c w m d g := by
  rw [putInts_eq, putInts_eq, packVec, packVec, packNat_congr fun e => ?_]
  split
  · exact same e
  · rfl

/-! ## Flags (R59) -/

theorem getLsbD_foldl_flags (l : List (Nat × BitVec 5)) (a : BitVec 5) (i : Nat) :
    (l.foldl (fun b x => b ||| x.2) a).getLsbD i = (a.getLsbD i || l.any fun x => x.2.getLsbD i) := by
  induction l generalizing a with
  | nil => simp
  | cons x xs ih => rw [List.foldl_cons, ih, BitVec.getLsbD_or, List.any_cons, Bool.or_assoc]

theorem getLsbD_allFlags (l : List (Nat × BitVec 5)) (i : Nat) :
    (allFlags l).getLsbD i = l.any fun x => x.2.getLsbD i := by
  simp [allFlags, getLsbD_foldl_flags]

theorem getLsbD_laneFlags (c : Ctx) (w : Nat) (m : VMask) (d : VReg) (f : Nat → Nat × BitVec 5) (i : Nat) :
    (allFlags (laneList c w m d f)).getLsbD i =
      (List.range (lanesOf w)).any fun e => active (c.rq m.msk) e w && (f e).2.getLsbD i := by
  rw [getLsbD_allFlags, laneList_eq, List.any_map]
  exact congrArg _ (funext fun e => laneAt_flag ..)

/-- Sticky flags: bits [4:0] are only set, and the others are as before. -/
theorem getLsbD_orFlags (c : Ctx) (fl : BitVec 5) (i : Nat) :
    (c.orFlags fl).fstat.getLsbD i = (c.fstat.getLsbD i || fl.getLsbD i) := by
  rw [Ctx.orFlags, BitVec.getLsbD_or, BitVec.getLsbD_setWidth]
  by_cases lt : i < 64
  · rw [decide_eq_true lt, Bool.true_and]
  · rw [decide_eq_false lt, Bool.false_and, BitVec.getLsbD_of_ge fl i (by omega)]

/-! ## The obligation -/

/-- Settles O18: the loop writes the packed elements of its lanes to one register, and the flags of its lanes to FSTAT. -/
theorem laneLoop : Obligations.LaneLoop := by
  unfold Obligations.LaneLoop
  intro c w m d f _ on c'
  have loop : c' = (putInts c w m d fun e => (f e).1).orFlags (allFlags (laneList c w m d f)) := putLanes_eq ..
  have values := putInts_eq c w m d fun e => (f e).1
  refine ⟨fun e lt => ?_, fun i _ => ?_, fun i high => ?_, fun r other => ?_, ?_, ?_⟩
  · rw [loop, Ctx.rv, Ctx.orFlags_v, ← Ctx.rv, values, Ctx.rv_wv, elem_packVec lt]
    split
    · rfl
    · split
      · exact Nat.zero_mod _
      · exact elem_mod ..
  · rw [loop, getLsbD_orFlags, getLsbD_laneFlags]
    rfl
  · rw [loop, getLsbD_orFlags, BitVec.getLsbD_of_ge _ i high, Bool.or_false]
    rfl
  · exact Ctx.rv_wv_ne c r d _ other
  · rfl
  · rw [loop]
    rfl

end Sys2Proof.Machine
end

section
/-! The frame of the vector register forms (R211, R212): what an instruction that only changes its context leaves as it was, and
what the effect of each form changes. -/

namespace Sys2Proof.Machine

/-! ## Changes of one context -/

/-- A context whose registers but a few, and whose system registers, are as before, and whose sticky flags are only set. -/
structure Changes (ws : List RegRef) (fl : BitVec 5) (c c' : Ctx) : Prop where
  system : SameSystem c c'
  regs : SameRegs ws none c c'
  fstat : c'.fstat = (c.orFlags fl).fstat

theorem Ctx.orFlags_zero_fstat (c : Ctx) : (c.orFlags 0).fstat = c.fstat := BitVec.or_zero

theorem Changes.wg (c : Ctx) (d : GReg) (x : Word) : Changes [gr d] 0 c (c.wg d x) where
  system := by simp [SameSystem]
  regs := ⟨fun r other => Ctx.rg_wg_ne c r d x fun e => other (e ▸ List.mem_singleton_self _),
    fun r _ => by rw [Ctx.rv, Ctx.wg_v, Ctx.rv], fun r _ => by rw [Ctx.rq, Ctx.wg_q, Ctx.rq],
    fun r _ => by rw [Ctx.rp, Ctx.wg_p, Ctx.rp]⟩
  fstat := (c.wg_fstat d x).trans c.orFlags_zero_fstat.symm

theorem Changes.wv (c : Ctx) (d : VReg) (x : VWord) : Changes [vr d] 0 c (c.wv d x) where
  system := by simp [SameSystem]
  regs := ⟨fun _ _ => rfl, fun r other => Ctx.rv_wv_ne c r d x fun e => other (e ▸ List.mem_singleton_self _),
    fun _ _ => rfl, fun _ _ => rfl⟩
  fstat := c.orFlags_zero_fstat.symm

theorem Changes.wq (c : Ctx) (d : QReg) (x : QWord) : Changes [qr d] 0 c (c.wq d x) where
  system := by simp [SameSystem]
  regs := ⟨fun r _ => by rw [Ctx.rg, Ctx.wq_g, Ctx.rg], fun r _ => by rw [Ctx.rv, Ctx.wq_v, Ctx.rv],
    fun r other => Ctx.rq_wq_ne c r d x fun e => other (e ▸ List.mem_singleton_self _),
    fun r _ => by rw [Ctx.rp, Ctx.wq_p, Ctx.rp]⟩
  fstat := (c.wq_fstat d x).trans c.orFlags_zero_fstat.symm

theorem Changes.none (ws : List RegRef) (c : Ctx) : Changes ws 0 c c where
  system := by simp [SameSystem]
  regs := ⟨fun _ _ => rfl, fun _ _ => rfl, fun _ _ => rfl, fun _ _ => rfl⟩
  fstat := c.orFlags_zero_fstat.symm

/-- Flags set after a change that sets none. -/
theorem Changes.orFlags {ws : List RegRef} {c c' : Ctx} (change : Changes ws 0 c c') (fl : BitVec 5) :
    Changes ws fl c (c'.orFlags fl) where
  system := change.system
  regs := change.regs
  fstat := by rw [Ctx.orFlags, change.fstat, Ctx.orFlags_zero_fstat, Ctx.orFlags]

/-! ## The instruction -/

/-- What an instruction that changes only its own context leaves as it was. -/
structure OnlyMine (ws : List RegRef) (fl : BitVec 5) (s t : State) : Prop where
  memory : SameMemory s t
  others : SameOthers s t
  mine : Changes ws fl s.me t.me

theorem onlyMine_setMe {s : State} {c : Ctx} {ws : List RegRef} {fl : BitVec 5} (change : Changes ws fl s.me c) :
    OnlyMine ws fl s (s.setMe c) :=
  ⟨⟨rfl, rfl, rfl⟩, fun _ other => State.setMe_ctx_ne _ _ _ other, by rwa [State.setMe_me]⟩

theorem onlyMine_yldAfter_setMe {h : Hdr} {s : State} {c : Ctx} {ws : List RegRef} {fl : BitVec 5}
    (calm : h.yld = true → s.me.preq = false) (change : Changes ws fl s.me c) :
    OnlyMine ws fl s (yldAfter h (s.setMe c)) := by
  obtain ⟨-, preq, -⟩ := change.system
  have stays : yldAfter h (s.setMe c) = s.setMe c := by
    cases yld : h.yld
    · simp [yldAfter, yld]
    · simp [yldAfter, yld, preq, calm yld]
  rw [stays]
  exact onlyMine_setMe change

theorem runVec_wait {h : Hdr} {i : Instr} {s : State} {dst : RegRef} {f : Ctx → Ctx} (on : On h s)
    (full : s.me.ringFull = true) : runVec h i false dst f s = .next (s.setMe { s.me with st := .waiting .items }) := by
  have holds : Hdr.holds h s.me = true := on
  simp only [runVec, holds, full, if_true, Bool.false_eq_true, if_false]

/-- A vector instruction is guarded off, traps, waits for room in its ring, or leaves its effect with a ring entry. -/
theorem runVec_frame {h : Hdr} {i : Instr} {bad : Bool} {dst : RegRef} {f : Ctx → Ctx} {s t : State} {ws : List RegRef}
    {sets : BitVec 5 → Prop} (quiet : sets 0) (effect : ∀ c, ∃ fl, sets fl ∧ Changes ws fl c (f c))
    (calm : h.yld = true → s.me.preq = false) (ran : runVec h i bad dst f s = .next t) :
    (∃ tr, t = s.takeTrap s.cur tr) ∨ ∃ fl, sets fl ∧ OnlyMine ws fl s t := by
  obtain ⟨system, regs, fstat⟩ := Changes.none ws s.me
  by_cases on : On h s
  · cases bad
    · cases full : s.me.ringFull
      · obtain ⟨fl, set, change⟩ := effect (s.seq dst)
        obtain rfl := Host.Outcome.next.inj ((runVec_on on full).symm.trans ran)
        exact .inr ⟨fl, set, onlyMine_yldAfter_setMe calm ⟨change.system, change.regs, change.fstat⟩⟩
      · obtain rfl := Host.Outcome.next.inj ((runVec_wait on full).symm.trans ran)
        exact .inr ⟨0, quiet, onlyMine_setMe ⟨system, regs, fstat⟩⟩
    · exact .inl ⟨_, (Host.Outcome.next.inj ((runVec_bad on).symm.trans ran)).symm⟩
  · obtain rfl := Host.Outcome.next.inj ((runVec_off (holds_eq_false on)).symm.trans ran)
    exact .inr ⟨0, quiet, onlyMine_yldAfter_setMe calm ⟨system, regs, fstat⟩⟩

/-! ## The forms -/

theorem vrminmaxOf_changes (mx : Bool) (t : ETy) (q : QReg) (uns : Bool) (d : GReg) (x : VSrc) (c : Ctx) :
    Changes [gr d] 0 c (vrminmaxOf mx t q uns d x c) := by
  cases uns <;> exact .wg ..

theorem vinsOf_changes (t : ETy) (d : VReg) (a : GReg) (k : GI16) (c : Ctx) : Changes [vr d] 0 c (vinsOf t d a k c) := by
  unfold vinsOf
  dsimp only
  split
  · exact .wv ..
  · exact .none ..

/-- An instruction is a vector form whose effect writes its destination and sets flags of some kind. -/
def VecForm (sets : BitVec 5 → Prop) (i : Instr) : Prop :=
  ∃ h bad dst f, Instr.hdr? i = some h ∧ (∀ s, exec i s = runVec h i bad dst f s) ∧
    ∀ c, ∃ fl, sets fl ∧ Changes (Instr.writes i) fl c (f c)

theorem vecForm_of_wq {i : Instr} {h : Hdr} {d : QReg} {v : Ctx → QWord} {sets : BitVec 5 → Prop} (quiet : sets 0)
    (hdr : Instr.hdr? i = some h) (writes : Instr.writes i = [qr d])
    (form : ∀ s, exec i s = runVec h i false (qr d) (fun c => c.wq d (v c)) s) : VecForm sets i :=
  ⟨_, _, _, _, hdr, form, fun _ => ⟨0, quiet, writes ▸ .wq ..⟩⟩

theorem vecForm_of_vecInt {i : Instr} {sets : BitVec 5 → Prop} (quiet : sets 0) (kind : Instr.vecInt i = true) :
    VecForm sets i := by
  cases i with
  | vadd | vsub | vmul | vmulh | vmin | vmax | vminu | vmaxu | vand | vor | vxor | vshl | vshr | vsar | vabs | vneg | vsel
  | vpopc | vperm | vslide | vbcast | vcmpr | vexpd | vzip | vunzip | viota =>
    exact ⟨_, _, _, _, rfl, fun _ => rfl, fun _ => ⟨0, quiet, .wv ..⟩⟩
  | vins => exact ⟨_, _, _, _, rfl, fun _ => rfl, fun _ => ⟨0, quiet, vinsOf_changes ..⟩⟩
  | vcmp => exact ⟨_, _, _, _, rfl, fun _ => rfl, fun _ => ⟨0, quiet, .wq ..⟩⟩
  | qand => exact vecForm_of_wq quiet rfl rfl fun _ => exec_qand ..
  | qor => exact vecForm_of_wq quiet rfl rfl fun _ => exec_qor ..
  | qxor => exact vecForm_of_wq quiet rfl rfl fun _ => exec_qxor ..
  | qnot => exact vecForm_of_wq quiet rfl rfl fun _ => exec_qnot ..
  | vradd | vext | qcnt => exact ⟨_, _, _, _, rfl, fun _ => rfl, fun _ => ⟨0, quiet, .wg ..⟩⟩
  | vrmin | vrmax => exact ⟨_, _, _, _, rfl, fun _ => rfl, fun _ => ⟨0, quiet, vrminmaxOf_changes ..⟩⟩
  | _ => exact absurd kind Bool.false_ne_true

theorem vecForm_of_vecFp {i : Instr} {sets : BitVec 5 → Prop} (any : ∀ fl, sets fl) (kind : Instr.vecFp i = true) :
    VecForm sets i := by
  cases i with
  | vfadd | vfsub | vfmul | vfma | vfms | vfnma | vfdiv | vfsqrt | vfrcp | vfrsq | vfexp2 | vflog2 | vfmin | vfmax | vfcvt
  | vfscl =>
    exact ⟨_, _, _, _, rfl, fun _ => rfl, fun _ => ⟨_, any _, .orFlags (.wv ..) _⟩⟩
  | vfclass => exact ⟨_, _, _, _, rfl, fun _ => rfl, fun _ => ⟨0, any 0, .wv ..⟩⟩
  | vfcmp => exact ⟨_, _, _, _, rfl, fun _ => rfl, fun _ => ⟨_, any _, .orFlags (.wq ..) _⟩⟩
  | vfradd | vfrmax => exact ⟨_, _, _, _, rfl, fun _ => rfl, fun _ => ⟨_, any _, .orFlags (.wg ..) _⟩⟩
  | _ => exact absurd kind Bool.false_ne_true

/-- Of the vector register forms, those of vecInt set no flag. -/
theorem vecForm_of_kind {i : Instr} (kind : Instr.vecInt i = true ∨ Instr.vecFp i = true) :
    VecForm (fun fl => Instr.vecInt i = true → fl = 0) i := by
  by_cases int : Instr.vecInt i = true
  · exact vecForm_of_vecInt (fun _ => rfl) int
  · exact vecForm_of_vecFp (fun _ int' => absurd int' int) (kind.resolve_left int)

/-! ## The obligation -/

/-- Settles O58: every form is a vector instruction whose effect writes its destination, and the integer ones set no flag. -/
theorem vectorFrame : Obligations.VectorFrame := by
  unfold Obligations.VectorFrame
  intro i h s t kind hdr calm ran
  obtain ⟨h', bad, dst, f, hdr', form, effect⟩ := vecForm_of_kind kind
  obtain rfl := Option.some.inj (hdr'.symm.trans hdr)
  refine (runVec_frame (fun _ => rfl) effect calm ((form s).symm.trans ran)).imp_right ?_
  rintro ⟨fl, quiet, memory, others, system, regs, fstat⟩
  refine ⟨memory, others, system, regs, fun int => ?_, fun n => ?_⟩
  · rw [fstat, quiet int, Ctx.orFlags_zero_fstat]
  · rw [fstat, getLsbD_orFlags]
    exact ⟨fun set => by rw [set, Bool.true_or], fun high => by rw [BitVec.getLsbD_of_ge fl n high, Bool.or_false]⟩

end Sys2Proof.Machine
end

section
/-! Integer vector forms (R213 to R215): the lane of each agrees, modulo 2 to the width, with the number that the specification
gives. -/

namespace Sys2Proof.Machine

/-! ## Lanes -/

theorem natCast_agree_signed (w x : Nat) : AgreeMod w x (signed w x) := by
  have rest : AgreeMod w (x % 2 ^ w : Nat) x := .of_mod_eq (Nat.mod_mod ..)
  refine rest.symm.trans ?_
  simp only [signed]
  split
  · rfl
  · exact AgreeMod.of_eq_add (by omega)

theorem satOr_agree (sat : Bool) (w : Nat) (z : Int) :
    AgreeMod w (satOr sat w z) (if sat then max (-2 ^ (w - 1)) (min (2 ^ (w - 1) - 1) z) else z) := by
  rw [← natCast_two_pow]
  exact truncTo_agree ..

theorem laneMin_agree (w a b : Nat) : AgreeMod w (laneMin w a b) (min (signed w a) (signed w b)) := by
  rw [laneMin, Int.min_def]
  split <;> exact natCast_agree_signed ..

theorem laneMax_agree (w a b : Nat) : AgreeMod w (laneMax w a b) (max (signed w a) (signed w b)) := by
  rw [laneMax, Int.max_def]
  split <;> exact natCast_agree_signed ..

/-! ## Forms of two operands and of one -/

theorem putInts_of_agree {c : Ctx} {w : Nat} {m : VMask} {d : VReg} {f : Nat → Nat} {r : Nat → Int}
    (agree : ∀ e, AgreeMod w (f e) (r e)) : putInts c w m d f = putInts c w m d fun e => truncTo w (r e) :=
  putInts_congr fun e => by rw [← truncTo_congr (agree e), truncTo_natCast, Nat.mod_mod]

theorem exec_vint {i : Instr} {h : Hdr} {s : State} {bad : Bool} {op : Nat → Nat → Nat → Nat} {t : ETy} {m : VMask} {d : VReg}
    {x : VSrc} {y : VB} {r : Nat → Int} (on : On h s) (room : s.me.ringFull = false) (good : bad = false)
    (form : exec i s = runVec h i bad (vr d) (vint op t m d x y) s)
    (agree : ∀ e, AgreeMod t.width (op t.width (VSrc.elem x s.me t.width e) (VB.elem y s.me t.width e)) (r e)) :
    exec i s = .next (regNext h s (putInts (s.seq (vr d)) t.width m d fun e => truncTo t.width (r e))) :=
  exec_eq_regNext_of_runVec on room (good ▸ form)
    (putInts_of_agree fun e => by rw [seq_vsrc, seq_vb]; exact agree e)

theorem exec_vint1 {i : Instr} {h : Hdr} {s : State} {op : Nat → Nat → Nat} {t : ETy} {m : VMask} {d : VReg} {x : VSrc}
    {r : Nat → Int} (on : On h s) (room : s.me.ringFull = false)
    (form : exec i s = runVec h i false (vr d) (vint1 op t m d x) s)
    (agree : ∀ e, AgreeMod t.width (op t.width (VSrc.elem x s.me t.width e)) (r e)) :
    exec i s = .next (regNext h s (putInts (s.seq (vr d)) t.width m d fun e => truncTo t.width (r e))) :=
  exec_eq_regNext_of_runVec on room form (putInts_of_agree fun e => by rw [seq_vsrc]; exact agree e)

/-! ## The obligation -/

/-- Settles O17: each form is the lane loop of one operation, which agrees with its result modulo 2 to the width; the shifts
check an immediate amount first. -/
theorem vectorIntegerResults : Obligations.VectorIntegerResults := by
  unfold Obligations.VectorIntegerResults
  intro h t m d x y s on room w a b sa sb is clamp
  have two {i op r} :=
    exec_vint (i := i) (bad := false) (op := op) (t := t) (m := m) (d := d) (x := x) (y := y) (r := r) on room rfl
  have one {i op r} := exec_vint1 (i := i) (op := op) (t := t) (m := m) (d := d) (x := x) (r := r) on room
  refine ⟨fun sat => ⟨two (exec_vadd ..) fun e => satOr_agree .., two (exec_vsub ..) fun e => satOr_agree ..,
      one (exec_vabs ..) fun e => satOr_agree .., one (exec_vneg ..) fun e => satOr_agree ..⟩,
    two (exec_vmul ..) fun e => .of_eq (Int.natCast_mul ..), two (exec_vmulh ..) fun e => opMulh_agree ..,
    two (exec_vmin ..) fun e => laneMin_agree .., two (exec_vmax ..) fun e => laneMax_agree ..,
    two (exec_vminu ..) fun e => .of_eq (natCast_min_eq ..), two (exec_vmaxu ..) fun e => .of_eq (natCast_max_eq ..),
    two (exec_vand ..) fun e => .of_eq rfl, two (exec_vor ..) fun e => .of_eq rfl, two (exec_vxor ..) fun e => .of_eq rfl,
    one (exec_vpopc ..) fun e => .of_eq (congrArg _ (opPopc_eq ..)), fun good => ?_, fun bad => ?_⟩
  · have shift {i op r} := exec_vint (i := i) (op := op) (t := t) (m := m) (d := d) (x := x) (y := y) (r := r) on room good
    exact ⟨shift (exec_vshl ..) fun e => opShl_agree .., shift (exec_vshr ..) fun e => .of_eq (opShr_eq ..),
      shift (exec_vsar ..) fun e => opSar_agree ..⟩
  · have traps {i f} (form : exec i s = runVec h i (shiftBad t y) (vr d) f s) := form.trans (bad ▸ runVec_bad on)
    simpa using ⟨traps (exec_vshl ..), traps (exec_vshr ..), traps (exec_vsar ..)⟩

end Sys2Proof.Machine
end

section
/-! Compares and selection (R216, R217, R219): the mask bits that a compare writes, the flag that a floating-point compare sets,
and the lanes that VSEL chooses. -/

namespace Sys2Proof.Machine

/-! ## Mask bits (R216) -/

theorem putMask_eq (c : Ctx) (w : Nat) (m : VMask) (d : QReg) (f : Nat → Bool) :
    putMask c w m d f = c.wq d (BitVec.ofNat 128 (gatherBits 128 fun b =>
      if active (c.rq m.msk) (b * 8 / w) w then f (b * 8 / w) else if m.z then false else (c.rq d).getLsbD b)) := rfl

theorem getLsbD_putMask (c : Ctx) (w : Nat) (m : VMask) {d : QReg} (f : Nat → Bool) {b : Nat} (written : d ≠ 0)
    (lt : b < 128) : ((putMask c w m d f).rq d).getLsbD b =
      (if active (c.rq m.msk) (b * 8 / w) w then f (b * 8 / w) else !m.z && (c.rq d).getLsbD b) := by
  rw [putMask_eq, Ctx.rq_wq _ _ _ written, BitVec.getLsbD_ofNat, testBit_gatherBits, decide_eq_true lt, Bool.true_and,
    Bool.true_and]
  cases m.z <;> rfl

/-! ## Effects, in the registers that the context had before -/

theorem vcmpLanes_seq (cnd : Cond) (t : ETy) (m : VMask) (d : QReg) (x : VSrc) (y : VB) (s : State) (r : RegRef) :
    vcmpLanes cnd t m d x y (s.seq r) = putMask (s.seq r) t.width m d fun e =>
      Cond.test cnd t.width (VSrc.elem x s.me t.width e) (VB.elem y s.me t.width e) := by
  simp only [vcmpLanes, seq_vsrc, seq_vb]

/-- An active lane has a signalling operand (R219). -/
def anySignal (t : ETy) (q : QReg) (x : VSrc) (y : VG) (c : Ctx) : Bool :=
  (activeLanes c q t.width).any fun e =>
    sig2 ((fmtOf t c).val (VSrc.elem x c t.width e)) ((fmtOf t c).val (VG.elem y c t.width e))

theorem anySignal_iff {t : ETy} {q : QReg} {x : VSrc} {y : VG} {c : Ctx} :
    anySignal t q x y c = true ↔ ∃ e, e < lanesOf t.width ∧ active (c.rq q) e t.width = true ∧
      sig2 ((fmtOf t c).val (VSrc.elem x c t.width e)) ((fmtOf t c).val (VG.elem y c t.width e)) = true := by
  simp only [anySignal, activeLanes, List.any_eq_true, List.mem_filter, List.mem_range, and_assoc]

theorem anySignal_seq (t : ETy) (q : QReg) (x : VSrc) (y : VG) (s : State) (r : RegRef) :
    anySignal t q x y (s.seq r) = anySignal t q x y s.me := by
  simp only [anySignal, seq_activeLanes, seq_fmt, seq_vsrc, seq_vg]

theorem vfcmpLanes_eq (cnd : Cond) (t : ETy) (m : VMask) (d : QReg) (x : VSrc) (y : VG) (c : Ctx) :
    vfcmpLanes cnd t m d x y c =
      (putMask c t.width m d fun e => fpCond cnd ((fmtOf t c).val (VSrc.elem x c t.width e))
        ((fmtOf t c).val (VG.elem y c t.width e))).orFlags (if anySignal t m.msk x y c then ivFlag else 0) := rfl

theorem vfcmpLanes_seq (cnd : Cond) (t : ETy) (m : VMask) (d : QReg) (x : VSrc) (y : VG) (s : State) (r : RegRef) :
    vfcmpLanes cnd t m d x y (s.seq r) =
      (putMask (s.seq r) t.width m d fun e => fpCond cnd ((fmtOf t s.me).val (VSrc.elem x s.me t.width e))
        ((fmtOf t s.me).val (VG.elem y s.me t.width e))).orFlags (if anySignal t m.msk x y s.me then ivFlag else 0) := by
  rw [vfcmpLanes_eq, anySignal_seq]
  simp only [seq_vsrc, seq_vg, seq_fmt]

theorem vselLanes_seq (t : ETy) (m : VMask) (d : VReg) (x : VSrc) (y : VB) (s : State) (r : RegRef) :
    vselLanes t m d x y (s.seq r) = (s.seq r).wv d (packVec t.width ((List.range (lanesOf t.width)).map fun e =>
      if active (s.me.rq m.msk) e t.width then VSrc.elem x s.me t.width e else VB.elem y s.me t.width e)) := by
  simp only [vselLanes, seq_rq, seq_vsrc, seq_vb]

/-! ## The obligation -/

/-- Settles O19: each form completes with its effect on the registers as they were, and a mask bit is that of the lane that its
byte belongs to. -/
theorem maskAndSelectResults : Obligations.MaskAndSelectResults := by
  unfold Obligations.MaskAndSelectResults
  intro h t m x s on room w a live
  refine ⟨fun cnd d y => ?_, fun cnd d y => ?_, fun d y => ?_, fun c d f b written lt => getLsbD_putMask c w m f written lt⟩
  · exact exec_eq_regNext_of_runVec on room (exec_vcmp ..) (vcmpLanes_seq ..)
  · refine ⟨_, exec_eq_regNext_of_runVec on room (exec_vfcmp ..) (vfcmpLanes_seq ..), ?_, ?_⟩
    · refine Iff.trans ?_ anySignal_iff
      cases anySignal t m.msk x y s.me <;> decide
    · split
      · exact .inl rfl
      · exact .inr rfl
  · exact ⟨_, exec_eq_regNext_of_runVec on room (exec_vsel ..) (vselLanes_seq ..), rfl⟩

end Sys2Proof.Machine
end

section
/-! Floating-point vector forms (R218 to R223): each is the lane loop of its operation on the elements as they were; and the lanes
that VFCVT writes, with the elements that they come from. -/

namespace Sys2Proof.Machine

/-! ## Forms of two operands and of one (R218 to R221) -/

theorem vfp_seq (op : Fmt → FVal → FVal → FVal → Nat × BitVec 5) (t : ETy) (m : VMask) (d : VReg) (x : VSrc) (y : VG)
    (s : State) (q : RegRef) : vfp op t m d x y (s.seq q) = putLanes (s.seq q) t.width m d fun e =>
      op (fmtOf t s.me) ((fmtOf t s.me).val (VSrc.elem x s.me t.width e)) ((fmtOf t s.me).val (VG.elem y s.me t.width e))
        ((fmtOf t s.me).val (elem (s.me.rv d) e t.width)) := by
  simp only [vfp, seq_fmt, seq_vsrc, seq_vg, seq_rv]

theorem vfp1_seq (op : Fmt → FVal → Nat × BitVec 5) (t : ETy) (m : VMask) (d : VReg) (x : VSrc) (s : State) (q : RegRef) :
    vfp1 op t m d x (s.seq q) = putLanes (s.seq q) t.width m d fun e =>
      op (fmtOf t s.me) ((fmtOf t s.me).val (VSrc.elem x s.me t.width e)) := by
  simp only [vfp1, seq_fmt, seq_vsrc]

theorem vfminmax_seq (mx : Bool) (t : ETy) (m : VMask) (d : VReg) (x : VSrc) (y : VG) (s : State) (q : RegRef) :
    vfminmax mx t m d x y (s.seq q) = putLanes (s.seq q) t.width m d fun e =>
      (fmtOf t s.me).minmax mx (VSrc.elem x s.me t.width e) (VG.elem y s.me t.width e) := by
  simp only [vfminmax, seq_fmt, seq_vsrc, seq_vg]

theorem vfclassLanes_seq (t : ETy) (m : VMask) (d : VReg) (x : VSrc) (s : State) (q : RegRef) :
    vfclassLanes t m d x (s.seq q) = putInts (s.seq q) t.width m d fun e =>
      2 ^ fpClass (fmtOf t s.me) (VSrc.elem x s.me t.width e) := by
  simp only [vfclassLanes, seq_fmt, seq_vsrc]

theorem vfsclLanes_seq (t : ETy) (r : RMode) (m : VMask) (blk : BitVec 2) (inv : Bool) (d : VReg) (x : VSrc) (y : VReg)
    (s : State) (q : RegRef) : vfsclLanes t r m blk inv d x y (s.seq q) = putLanes (s.seq q) t.width m d fun e =>
      vfsclLane (fmtOf t s.me) r inv ((fmtOf t s.me).val (VSrc.elem x s.me t.width e))
        (elem (s.me.rv y) (e / sclBlock blk) 8) := by
  simp only [vfsclLanes, seq_fmt, seq_vsrc, seq_rv]

/-! ## Conversion (R222) -/

/-- Where VFCVT reads the element of lane e: a narrowing form fills its part, a widening form reads it. -/
def cvtIndex (ws wd part e : Nat) : Nat :=
  let n := 1024 / max ws wd
  if wd < ws then e - part * n else if ws < wd then part * n + e else e

/-- Lane e of VFCVT, whose part is all of the register but in a narrowing form. -/
def cvtLane (dt st : ETy) (mode : RMode) (m : VMask) (sat : Bool) (part : Nat) (d : VReg) (x : VSrc) (c : Ctx) (e : Nat) :
    Nat × BitVec 5 :=
  let n := 1024 / max st.width dt.width
  if st.width ≤ dt.width ∨ part * n ≤ e ∧ e < part * n + n then
    if active (c.rq m.msk) e dt.width then
      convElem dt st mode sat c.extn (VSrc.elem x c st.width (cvtIndex st.width dt.width part e))
    else if m.z then (0, 0) else (elem (c.rv d) e dt.width, 0)
  else (elem (c.rv d) e dt.width, 0)

theorem vfcvtLanes_eq (dt st : ETy) (mode : RMode) (m : VMask) (sat : Bool) (part : Nat) (d : VReg) (x : VSrc) (c : Ctx) :
    ∃ fl, vfcvtLanes dt st mode m sat part d x c = (c.wv d (packVec dt.width ((List.range (lanesOf dt.width)).map fun e =>
      (cvtLane dt st mode m sat part d x c e).1))).orFlags fl := by
  refine ⟨_, congrArg (fun l => Ctx.orFlags (c.wv d (packVec dt.width l)) _) ?_⟩
  rw [List.map_map]
  refine List.map_congr_left fun e mem => congrArg Prod.fst ?_
  have lt : e < 1024 / dt.width := List.mem_range.1 mem
  by_cases narrows : dt.width < st.width
  · simp only [cvtLane, cvtIndex, if_pos narrows, Nat.not_le.2 narrows, Nat.lt_asymm narrows, if_false, false_or]
  · have le := Nat.le_of_not_lt narrows
    have max : Nat.max st.width dt.width = dt.width := Nat.max_eq_right le
    simp only [cvtLane, cvtIndex, if_neg narrows, le, max, lt, Nat.zero_le, Nat.zero_add, and_self, true_or, if_true,
      Nat.sub_zero]

theorem elem_vfcvtLanes {dt st : ETy} {mode : RMode} {m : VMask} {sat : Bool} {part : Nat} {d : VReg} {x : VSrc} {c : Ctx}
    {e : Nat} (lt : e < lanesOf dt.width) :
    elem ((vfcvtLanes dt st mode m sat part d x c).rv d) e dt.width =
      (cvtLane dt st mode m sat part d x c e).1 % 2 ^ dt.width := by
  obtain ⟨fl, lanes⟩ := vfcvtLanes_eq dt st mode m sat part d x c
  rw [lanes, Ctx.rv, Ctx.orFlags_v, ← Ctx.rv, Ctx.rv_wv, elem_packVec lt]

theorem cvtLane_seq (dt st : ETy) (mode : RMode) (m : VMask) (sat : Bool) (part : Nat) (d : VReg) (x : VSrc) (s : State)
    (q : RegRef) (e : Nat) : cvtLane dt st mode m sat part d x (s.seq q) e = cvtLane dt st mode m sat part d x s.me e := by
  simp only [cvtLane, seq_rq, seq_rv, seq_extn, seq_vsrc]

theorem cvtLane_mod (dt st : ETy) (mode : RMode) (m : VMask) (sat : Bool) (part : Nat) (d : VReg) (x : VSrc) (c : Ctx)
    (e : Nat) :
    let n := 1024 / max st.width dt.width
    let mine : Prop := st.width ≤ dt.width ∨ (part * n ≤ e ∧ e < part * n + n)
    (cvtLane dt st mode m sat part d x c e).1 % 2 ^ dt.width =
      if active (c.rq m.msk) e dt.width ∧ mine then
        (convElem dt st mode sat c.extn (VSrc.elem x c st.width (cvtIndex st.width dt.width part e))).1 % 2 ^ dt.width
      else if m.z ∧ mine then 0 else elem (c.rv d) e dt.width := by
  intro n mine
  rw [cvtLane]
  by_cases inside : mine
  · rw [if_pos inside]
    simp only [inside, and_true]
    split
    · rfl
    · split
      · exact Nat.zero_mod _
      · exact elem_mod ..
  · rw [if_neg inside, if_neg fun both => inside both.2, if_neg fun both => inside both.2]
    exact elem_mod ..

/-! ## The obligation -/

/-- Settles O20: each form completes with its lane loop on the registers as they were; a lane of VFCVT is converted, zeroed or
kept as it is active and lies in the part that the form writes. -/
theorem vectorFloatResults : Obligations.VectorFloatResults := by
  unfold Obligations.VectorFloatResults
  intro h t r m d x y s on room w f ca cb a b o is
  have completes {i f c} := exec_eq_regNext_of_runVec (i := i) (dst := vr d) (f := f) (c := c) on room
  refine ⟨completes (exec_vfadd ..) (vfp_seq ..), completes (exec_vfsub ..) (vfp_seq ..),
    completes (exec_vfmul ..) (vfp_seq ..), completes (exec_vfma ..) (vfp_seq ..), completes (exec_vfms ..) (vfp_seq ..),
    completes (exec_vfnma ..) (vfp_seq ..), completes (exec_vfdiv ..) (vfp_seq ..), completes (exec_vfsqrt ..) (vfp1_seq ..),
    completes (exec_vfrcp ..) (vfp1_seq ..), completes (exec_vfrsq ..) (vfp1_seq ..), completes (exec_vfexp2 ..) (vfp1_seq ..),
    completes (exec_vflog2 ..) (vfp1_seq ..), completes (exec_vfmin ..) (vfminmax_seq ..),
    completes (exec_vfmax ..) (vfminmax_seq ..), completes (exec_vfclass ..) (vfclassLanes_seq ..),
    fun sat st part => ?_, fun blk inv sc => completes (exec_vfscl ..) (vfsclLanes_seq ..)⟩
  intro n i mine
  refine ⟨_, completes (exec_vfcvt ..) rfl, fun e lt => ?_⟩
  rw [elem_vfcvtLanes lt, cvtLane_seq]
  exact cvtLane_mod ..

end Sys2Proof.Machine
end

section
/-! Permutes (R226): the element that each lane takes, in the registers that the context had before. -/

namespace Sys2Proof.Machine

theorem seq_index (k : GI16) (s : State) (q : RegRef) : GI16.index k (s.seq q) = GI16.index k s.me := by
  cases k with
  | reg r => rw [GI16.index, GI16.index, seq_rg]
  | imm i => rfl

theorem seq_slide (k : GI16) (s : State) (q : RegRef) : GI16.slide k (s.seq q) = GI16.slide k s.me := by
  cases k with
  | reg r => rw [GI16.slide, GI16.slide, seq_rg]
  | imm i => rfl

theorem seq_activeBelow (s : State) (q : RegRef) (m : QReg) (w e : Nat) :
    activeBelow (s.seq q) m w e = activeBelow s.me m w e := by
  simp only [activeBelow, seq_rq]

section
variable (t : ETy) (m : VMask) (d : VReg) (x y : VSrc) (g : GReg) (k : GI16) (s : State) (q : RegRef)

theorem vpermLanes_seq : vpermLanes t m d x y (s.seq q) = putInts (s.seq q) t.width m d fun e =>
    if VSrc.elem y s.me t.width e < lanesOf t.width then VSrc.elem x s.me t.width (VSrc.elem y s.me t.width e) else 0 := by
  simp only [vpermLanes, seq_vsrc]

theorem vslideLanes_seq : vslideLanes t m d x k (s.seq q) = putInts (s.seq q) t.width m d fun e =>
    let j : Int := e - GI16.slide k s.me
    if 0 ≤ j ∧ j < lanesOf t.width then VSrc.elem x s.me t.width j.toNat else 0 := by
  simp only [vslideLanes, seq_vsrc, seq_slide]

theorem vbcastLanes_seq :
    vbcastLanes t m d g (s.seq q) = putInts (s.seq q) t.width m d fun _ => (s.me.rg g).toNat % 2 ^ t.width := by
  rw [vbcastLanes, seq_rg]

theorem vexpdLanes_seq : vexpdLanes t m d x (s.seq q) = putInts (s.seq q) t.width m d fun e =>
    VSrc.elem x s.me t.width (activeBelow s.me m.msk t.width e) := by
  simp only [vexpdLanes, seq_vsrc, seq_activeBelow]

theorem viotaLanes_seq :
    viotaLanes t m d (s.seq q) = putInts (s.seq q) t.width m d (activeBelow s.me m.msk t.width) := by
  simp only [viotaLanes, seq_activeBelow]

theorem vzipLanes_seq (hi : Bool) : vzipLanes t m hi d x y (s.seq q) = putInts (s.seq q) t.width m d fun e =>
    let j := e / 2 + (if hi then lanesOf t.width / 2 else 0)
    if e % 2 = 0 then VSrc.elem x s.me t.width j else VSrc.elem y s.me t.width j := by
  simp only [vzipLanes, seq_vsrc]

theorem vunzipLanes_seq (odd : Bool) : vunzipLanes t m odd d x y (s.seq q) = putInts (s.seq q) t.width m d fun e =>
    let o := if odd then 1 else 0
    if e < lanesOf t.width / 2 then VSrc.elem x s.me t.width (2 * e + o)
    else VSrc.elem y s.me t.width (2 * (e - lanesOf t.width / 2) + o) := by
  simp only [vunzipLanes, seq_vsrc]

theorem vcmprLanes_seq : vcmprLanes t m d x (s.seq q) =
    (let l := activeElems s.me m.msk t.width x
     (s.seq q).wv d (packVec t.width ((List.range (lanesOf t.width)).map fun e =>
       if e < l.length then l.getD e 0 else if m.z then 0 else elem ((s.seq q).rv d) e t.width))) := by
  rw [vcmprLanes, seq_activeElems]

theorem vextOf_seq (gd : GReg) : vextOf t gd x k (s.seq q) = (s.seq q).wg gd
    (if GI16.index k s.me < lanesOf t.width then BitVec.ofNat 64 (VSrc.elem x s.me t.width (GI16.index k s.me)) else 0) := by
  simp only [vextOf, seq_index, seq_vsrc]

theorem vinsOf_seq : vinsOf t d g k (s.seq q) =
    if GI16.index k s.me < lanesOf t.width then
      (s.seq q).wv d (packVec t.width ((List.range (lanesOf t.width)).map fun e =>
        if e = GI16.index k s.me then (s.me.rg g).toNat else elem ((s.seq q).rv d) e t.width))
    else s.seq q := by
  simp only [vinsOf, seq_index, seq_rg]

end

/-- Settles O22: each form completes, and its effect takes its elements from the registers as they were before the ring entry. -/
theorem permuteResults : Obligations.PermuteResults := by
  unfold Obligations.PermuteResults
  intro h t m d x y g k s on room w n a b live below is
  have completes {i dst f c} := exec_eq_regNext_of_runVec (i := i) (dst := dst) (f := f) (c := c) on room
  exact ⟨completes (exec_vperm ..) (vpermLanes_seq ..), completes (exec_vslide ..) (vslideLanes_seq ..),
    completes (exec_vbcast ..) (vbcastLanes_seq ..), completes (exec_vexpd ..) (vexpdLanes_seq ..),
    completes (exec_viota ..) (viotaLanes_seq ..), fun hi => completes (exec_vzip ..) (vzipLanes_seq ..),
    fun odd => completes (exec_vunzip ..) (vunzipLanes_seq ..), completes (exec_vcmpr ..) (vcmprLanes_seq ..),
    fun gd => completes (exec_vext ..) (vextOf_seq ..), completes (exec_vins ..) (vinsOf_seq ..)⟩

end Sys2Proof.Machine
end

section
/-! Loads and stores of registers, the maintenance forms and the atomics of a context (R267 to R275): each form is one access
and one completion. -/

namespace Sys2Proof.Machine

/-! ## Loads and stores (R267, R270) -/

/-- Settles O9: each form is its one read or write, then the write of its destination. -/
theorem loadStoreResults : Obligations.LoadStoreResults := by
  refine fun h s t on a d e o => ⟨fun sz sx v run => ?_, fun sp asid u v reached run => ?_, fun sz run => ?_, fun run => ?_⟩
  · exact runIsa_ok on (by simp only [M_bind, M_me, run, M_modMe, M_pure]; rfl)
  · exact runIsa_ok on (by simp only [M_bind, M_me, reached, run, M_modMe, M_pure])
  · exact runIsa_ok on (bind_ok run)
  · exact runIsa_ok on (bind_ok run)

/-! ## Maintenance (R272, R273) -/

theorem exec_cinv_line {h : Hdr} {a : GReg} {e : BitVec 32} {s : State} {l : Nat} (on : On h s)
    (line : maintLine (effAddr s.me a e) s = .ok (some l) s) (ic : Bool) :
    exec (.cinv h ic a e) s = .next (bodyNext h (s.modCore s.myCore fun c =>
      if ic then { c with l1i := SMap.del c.l1i l } else { c with l1d := SMap.del c.l1d l }) .next) :=
  runIsa_ok on (by simp only [M_bind, M_me, line, M_modify, M_pure])

theorem exec_cflush_line {h : Hdr} {a : GReg} {e : BitVec 32} {s : State} {l : Nat} (on : On h s)
    (line : maintLine (effAddr s.me a e) s = .ok (some l) s)
    (unstored : ((s.core s.myCore).sq.all fun x => x.tid != s.me.task.tid || lineKey x.asid x.va != l) = true)
    (free : s.recallable s.myCl l = true) :
    exec (.cflush h a e) s = .next (bodyNext h ((s.breakLeases s.myCl l).giveBack s.myField s.myCl l) .next) := by
  have drained : ((s.core s.myCore).sq.any fun x => x.tid == s.me.task.tid && lineKey x.asid x.va == l) = false := by
    rw [List.any_eq_not_all_not, Bool.not_eq_false']
    simp only [Bool.not_and]
    exact unstored
  exact runIsa_ok on (by simp only [M_bind, M_me, line, M_get, drained, M_wait_false, free, Bool.not_true, M_set, M_pure])

/-- Beyond paged memory a maintenance form names no line. -/
theorem maintLine_local {va : Nat} (low : localBase ≤ va) (high : va < 2 ^ 57) (s : State) : maintLine va s = .ok none s := by
  rw [maintLine, if_neg (Nat.not_le.2 high), if_neg (Nat.not_lt.2 low)]
  rfl

theorem exec_czero_bank {h : Hdr} {a : GReg} {e : BitVec 32} {s t : State} {sp : Space} {asid : BitVec 16} (on : On h s)
    (reached : access (effAddr s.me a e) 64 64 .store s = .ok (sp, asid) s) (unpaged : sp ≠ .paged)
    (written : writeAt sp asid (effAddr s.me a e) (List.replicate 64 0) none s = .ok () t) :
    exec (.czero h a e) s = .next (bodyNext h t .next) := by
  refine runIsa_ok on ?_
  simp only [M_bind, M_me, reached]
  cases sp with
  | paged => exact absurd rfl unpaged
  | core k off => simp only [written, M_pure]
  | shared off => simp only [written, M_pure]
  | peer slot off => simp only [written, M_pure]
  | hole => simp only [written, M_pure]

theorem exec_czero_paged {h : Hdr} {a : GReg} {e : BitVec 32} {s : State} {asid : BitVec 16} (on : On h s)
    (reached : access (effAddr s.me a e) 64 64 .store s = .ok (.paged, asid) s) :
    exec (.czero h a e) s =
      .next (bodyNext h (s.pushed asid (effAddr s.me a e, 0, BitVec.allOnes 64)) .next) :=
  runIsa_ok on (by simp only [M_bind, M_me, reached, pushStore_ok asid (effAddr s.me a e, 0, BitVec.allOnes 64) s, M_pure])

/-- Settles O13: the line that a form names decides its effect, and CZERO is one store at the place it reaches. -/
theorem maintenanceResults : Obligations.MaintenanceResults := by
  refine fun h a e s on => ⟨runIsa_ok on rfl, fun l line => ⟨exec_cinv_line on line, exec_cflush_line on line⟩,
    fun low high => ?_, fun sp asid reached => ⟨fun unpaged t => exec_czero_bank on reached unpaged, ?_⟩⟩
  · have none_named := maintLine_local low high s
    exact ⟨runIsa_ok on (by simp only [M_bind, M_me, none_named, M_pure]),
      fun ic => runIsa_ok on (by simp only [M_bind, M_me, none_named, M_pure])⟩
  · rintro rfl
    exact ⟨_, _, exec_czero_paged on reached, rfl, State.pushed_sq .., rfl, rfl, rfl, rfl, rfl, rfl⟩

/-! ## Atomics (Table 13-4, R274, R275) -/

theorem eq_truncTo_of_agree {w n : Nat} {r : Int} (lt : n < 2 ^ w) (agree : AgreeMod w n r) : n = truncTo w r := by
  rw [← truncTo_congr agree, truncTo_natCast, Nat.mod_eq_of_lt lt]

/-- Each operation of Table 13-4 gives its number modulo 2 to the width of the word. -/
theorem AtOp.apply_eq_truncTo {op : AtOp} {n old b c x : Nat} {r : Int} (gives : AtOp.apply op n old b c = (x, true, 0))
    (lt : x < 2 ^ (8 * n)) (agree : AgreeMod (8 * n) x r) : AtOp.apply op n old b c = (truncTo (8 * n) r, true, 0) := by
  rw [gives, ← eq_truncTo_of_agree lt agree]

theorem AtOp.apply_results {n old b : Nat} (hold : old < 2 ^ (8 * n)) (hb : b < 2 ^ (8 * n)) (c : Nat) :
    let w := 8 * n
    let gives (op : AtOp) (r : Int) : Prop := AtOp.apply op n old b c = (truncTo w r, true, 0)
    gives .add (old + b) ∧ gives .min (min (signed w old) (signed w b)) ∧ gives .max (max (signed w old) (signed w b)) ∧
    gives .minu (min old b) ∧ gives .maxu (max old b) ∧
    gives .and (old &&& b : Nat) ∧ gives .or (old ||| b : Nat) ∧ gives .xor (old ^^^ b : Nat) ∧ gives .swp b ∧
    gives .inc (if b ≤ old then 0 else old + 1) := by
  have pos := Nat.two_pow_pos (8 * n)
  have either {p : Prop} [Decidable p] : (if p then old else b) < 2 ^ (8 * n) := by split <;> assumption
  have other {p : Prop} [Decidable p] : (if p then b else old) < 2 ^ (8 * n) := by split <;> assumption
  refine ⟨apply_eq_truncTo rfl (Nat.mod_lt _ pos) (.of_mod_eq (Nat.mod_mod ..)),
    apply_eq_truncTo rfl either (laneMin_agree ..), apply_eq_truncTo rfl other (laneMax_agree ..),
    apply_eq_truncTo rfl (Nat.lt_of_le_of_lt (Nat.min_le_left ..) hold) (.of_eq (natCast_min_eq ..)),
    apply_eq_truncTo rfl (Nat.max_lt.2 ⟨hold, hb⟩) (.of_eq (natCast_max_eq ..)),
    apply_eq_truncTo rfl (Nat.and_lt_two_pow _ hb) (.of_eq rfl), apply_eq_truncTo rfl (Nat.or_lt_two_pow hold hb) (.of_eq rfl),
    apply_eq_truncTo rfl (Nat.xor_lt_two_pow hold hb) (.of_eq rfl), apply_eq_truncTo rfl hb (.of_eq rfl),
    apply_eq_truncTo rfl ?_ ?_⟩
  · split
    · exact pos
    · exact Nat.mod_lt _ pos
  · split
    · exact .of_eq rfl
    · exact .of_mod_eq (Nat.mod_mod ..)

/-- Every atomic of a context is one access, one indivisible step and one write of its destination. -/
theorem exec_atomic {i : Instr} {h : Hdr} {op : AtOp} {m : AtMode} {d a b : GReg} {e : BitVec 32} {s s1 s2 : State} {sp : Space}
    {asid : BitVec 16} {old : BitVec 128} {fl : BitVec 5} (on : On h s) (form : exec i s = runIsa h (doAtomic op m d a b e) s) :
    let n := AtOp.bytes op m.dw
    let va := effAddr s.me a e
    access va n n .atomic s = .ok (sp, asid) s1 →
    atomicAt sp asid va op m.dw (atomicArgs op n s.me d b).1 (atomicArgs op n s.me d b).2 m.pl m.ord m.sc 0 s1 =
      .ok (old, fl) s2 →
    exec i s = .next (bodyNext h (s2.setMe ((s2.me.putOld op n d old).orFlags fl)) .next) := by
  intro n va reached performed
  rw [form]
  exact runIsa_ok on (by simp only [doAtomic, M_bind, M_me, reached, performed, M_modMe, M_pure, n, va])

/-- Settles O14: Table 13-4 operation by operation, and the one sequence of every atomic. -/
theorem atomicResults : Obligations.AtomicResults := by
  refine ⟨fun n old b c _ hold hb => ?_, fun h m d a b e s on => ?_⟩
  · obtain ⟨add, min, max, minu, maxu, and, or, xor, swp, inc⟩ := AtOp.apply_results hold hb c
    exact ⟨add, min, max, minu, maxu, and, or, xor, swp, inc, rfl, rfl, fun _ _ _ => rfl⟩
  · intro does
    have each {op : AtOp} {i : Instr} (form : exec i s = runIsa h (doAtomic op m d a b e) s) : does op i := by
      rintro n va sp asid s1 s2 old fl rfl rfl
      exact exec_atomic on form
    exact ⟨each rfl, each rfl, each rfl, each rfl, each rfl, each rfl, each rfl, each rfl, each rfl, each rfl, each rfl,
      each rfl, each rfl⟩

end Sys2Proof.Machine
end

section
/-! Fences, waits, barriers and yield points (R262, R277 to R285): what each form finds where nothing holds it back. -/

namespace Sys2Proof.Machine

/-! ## Tables -/

theorem SMap.put_put {α : Type} (m : SMap α) (k : Nat) (x y : α) : SMap.put (SMap.put m k x) k y = SMap.put m k y := by
  induction m with
  | nil => simp [SMap.put]
  | cons z t ih =>
    obtain ⟨j, w⟩ := z
    rcases Nat.lt_trichotomy k j with lt | rfl | gt
    · simp [SMap.put, lt]
    · simp [SMap.put]
    · simp [SMap.put, Nat.not_lt.2 (Nat.le_of_lt gt), Nat.ne_of_lt gt, ih]

theorem SMap.mem_of_find {α : Type} {m : SMap α} {k : Nat} {x : α} (found : SMap.find? m k = some x) : (k, x) ∈ m := by
  induction m with
  | nil => cases found
  | cons z t ih =>
    obtain ⟨j, w⟩ := z
    unfold SMap.find? at found
    split at found
    · next here => exact here ▸ Option.some.inj found ▸ List.mem_cons_self ..
    · exact List.mem_cons_of_mem _ (ih found)

@[simp] theorem State.setMe_setMe (s : State) (x y : Ctx) : (s.setMe x).setMe y = s.setMe y :=
  congrArg (fun cs => { s with ctxs := cs }) (SMap.put_put ..)

/-! ## Stores that a release waits for (R255 to R257) -/

theorem drainStores_settled {s : State} {sc : Scope} (settled : s.Settled sc) : drainStores sc s = .ok () s := by
  obtain ⟨done, seen, peers, host⟩ := settled
  have beyond : ((sc == .prt || sc == .sys) && s.peersOpen s.me.task.tid) = false := by
    cases far : (sc == .prt || sc == .sys)
    · rfl
    · exact peers (by simpa using far)
  have outside : (sc == .sys && s.hostOpen s.me.task.tid) = false := by
    cases far : sc == .sys
    · rfl
    · exact host (eq_of_beq far)
  simp [drainStores, done, seen, beyond, outside]

/-! ## FENCE and WAITN (R262, R280) -/

/-- A task without an open record has none on a channel of its core's cluster. -/
theorem State.busyFor_eq_false {s : State} {cl tid ch : Nat} (closed : s.recsOpen cl tid = false) :
    ((s.cluster cl).chans.toList.getD ch {}).busyFor tid = false := by
  have none_busy : ∀ c ∈ (s.cluster cl).chans.toList, Channel.busyFor c tid = false := by
    intro c mem
    unfold State.cluster SMap.get at mem
    cases found : SMap.find? s.clusters cl with
    | none =>
      rw [found] at mem
      obtain rfl : c = {} := by simpa using mem
      rfl
    | some x =>
      rw [found] at mem
      have here := List.any_eq_false.1 closed _ (SMap.mem_of_find found)
      simp only [beq_self_eq_true, Bool.true_and, Bool.not_eq_true] at here
      exact Bool.eq_false_iff.2 (List.any_eq_false.1 here c mem)
  rw [List.getD_eq_getElem?_getD]
  cases listed : (s.cluster cl).chans.toList[ch]? with
  | none => rfl
  | some c => exact none_busy c (List.mem_of_getElem? listed)

theorem State.chanOutside_eq_false {s : State} {k tid : Nat} (closed : s.recsOpen (clusterOf k) tid = false) (ch : Nat)
    (sc : Scope) : s.chanOutside k ch tid sc = false := by
  have idle := State.busyFor_eq_false (ch := ch) closed
  unfold Channel.busyFor at idle
  obtain ⟨queue, cur⟩ := Bool.or_eq_false_iff.1 idle
  have queued := List.any_eq_false.1 queue
  unfold State.chanOutside
  refine Bool.or_eq_false_iff.2 ⟨List.any_eq_false.2 fun e mem => ?_, ?_⟩
  · simp [Bool.eq_false_iff.2 (queued e mem)]
  · cases running : ((s.cluster (clusterOf k)).chans.toList.getD ch {}).cur with
    | none => rfl
    | some r =>
      have not_open : (r.ent.tid == tid && r.st != .holding) = false := by
        rw [running] at cur
        exact cur
      exact Bool.and_eq_false_iff.2 (.inl not_open)

theorem fenceOn_ended {s : State} {sc : Scope} {kst : Bool} (stores : kst = true → s.Settled sc)
    (items : ((s.core s.myCore).items.all fun i => !i.openOf s.me.task.tid) = true)
    (closed : s.recsOpen s.myCl s.me.task.tid = false) (kld keng klnk : Bool) :
    fenceOn sc kld kst keng klnk s = if kld then fenceLoads s else .ok () s := by
  have ended : ∀ i ∈ (s.core s.myCore).items, i.openOf s.me.task.tid = false := by simpa using items
  have engines : (keng && ((s.core s.myCore).items.any (fun i => i.openOf s.me.task.tid) ||
      s.recsOpen s.myCl s.me.task.tid)) = false := by
    simp only [closed, List.any_eq_false.2 fun i mem => Bool.eq_false_iff.1 (ended i mem), Bool.or_self, Bool.and_false]
  have links : (klnk && (sc == .prt || sc == .sys) && ((s.core s.myCore).items.any (fun i => i.openOf s.me.task.tid &&
      s.itemOutside s.myCore i sc) || (List.range 4).any fun ch => s.chanOutside s.myCore ch s.me.task.tid sc)) = false := by
    have quiet : ((s.core s.myCore).items.any fun i => i.openOf s.me.task.tid && s.itemOutside s.myCore i sc) = false :=
      List.any_eq_false.2 fun i mem => by simp [ended i mem]
    have still : ((List.range 4).any fun ch => s.chanOutside s.myCore ch s.me.task.tid sc) = false :=
      List.any_eq_false.2 fun ch _ => Bool.eq_false_iff.1 (State.chanOutside_eq_false closed ch sc)
    rw [quiet, still, Bool.or_self, Bool.and_false]
  have rest : fenceOn sc kld false keng klnk s = if kld then fenceLoads s else .ok () s := by
    simp only [fenceOn, Bool.false_eq_true, if_false, M_bind, M_get, engines, links, M_wait_false, M_ite, M_pure]
  cases kst with
  | false => exact rest
  | true =>
    have first : fenceOn sc kld true keng klnk s = fenceOn sc kld false keng klnk s := by
      simp only [fenceOn, if_true, Bool.false_eq_true, if_false, M_bind, drainStores_settled (stores rfl)]
    exact first.trans rest

section
variable {h : Hdr} {s : State} (on : On h s) (taken : s.me.lates = [])
include on taken

theorem exec_fence_ended {sc : Scope} {kst : Bool} (stores : kst = true → s.Settled sc)
    (items : ((s.core s.myCore).items.all fun i => !i.openOf s.me.task.tid) = true)
    (closed : s.recsOpen s.myCl s.me.task.tid = false) (keng klnk : Bool) :
    exec (.fence h sc false kst keng klnk) s = .next (bodyNext h s .next) ∧
    ∀ u, fenceLoads s = .ok () u → exec (.fence h sc true kst keng klnk) s = .next (bodyNext h u .next) := by
  refine ⟨runIsa_ok on ?_, fun u loads => runIsa_ok on ?_⟩
  · simp only [M_bind, lateFirst_ok s taken, fenceOn_ended stores items closed, Bool.false_eq_true, if_false, M_pure]
  · simp only [M_bind, lateFirst_ok s taken, fenceOn_ended stores items closed, if_true, loads, M_pure]

theorem exec_waitn_ended {b : GI}
    (few : ((s.core s.myCore).items.filter fun i => i.openOf s.me.task.tid).length ≤ (GI.uval b s.me).toNat) :
    exec (.waitn h b) s = .next (bodyNext h (s.acquireAll s.myCore) .next) :=
  runIsa_ok on (by simp only [M_bind, lateFirst_ok s taken, M_get, decide_eq_false (Nat.not_lt.2 few), M_wait_false,
    acquireAll_run, M_pure])

/-! ## CHK and YIELD (R285) -/

theorem exec_chk_ended (d : GReg) : exec (.chk h d) s = .next (bodyNext h
    (if s.me.preq ∧ s.canSave s.cur then (s.setMe (s.me.wg d 1)).beginSave s.cur 0 [] else s.setMe (s.me.wg d 0)) .next) := by
  refine runIsa_ok on ?_
  simp only [M_bind, lateFirst_ok s taken, M_get, M_ite, Bool.and_eq_true]
  split <;> rfl

theorem exec_yield_ended : exec (.yield h) s = .next (bodyNext h
    (if ctxNum s.cur < 14 ∧ s.canSave s.cur then s.beginSave s.cur 0 [] else s) .next) := by
  refine runIsa_ok on ?_
  simp only [M_bind, lateFirst_ok s taken, M_get, M_ite, Bool.and_eq_true, decide_eq_true_eq]
  split <;> rfl

end

/-! ## WAITA (R279) -/

section
variable {h : Hdr} {s s1 s2 : State} {dw : Bool} {a b : GReg} {e : BitVec 32} {sp : Space} {asid : BitVec 16} {c : Cond} {v : Nat}
  (on : On h s) (reached : access (effAddr s.me a e) (if dw then 8 else 4) (if dw then 8 else 4) .load s = .ok (sp, asid) s1)
  (read : waitRead sp asid (effAddr s.me a e) (if dw then 8 else 4) none s1 = .ok v s2)
include on reached read

theorem exec_waita_met (met : Cond.test c (8 * if dw then 8 else 4) v (s.me.rg b).toNat = true) (sc : Scope) (d : GReg) :
    exec (.waita h c dw false sc d a b e) s = .next (bodyNext h (s2.setMe (s2.me.wg d (BitVec.ofNat 64 v))) .next) := by
  refine runIsa_ok on ?_
  simp only [M_bind, M_me, reached, read, met, Bool.not_true, Bool.false_eq_true, if_false, M_pure, M_modMe, M_ite]

theorem exec_waita_acquired (met : Cond.test c (8 * if dw then 8 else 4) v (s.me.rg b).toNat = true) {sc : Scope} {u : Nat}
    {s3 : State} (acquired : waitRead sp asid (effAddr s.me a e) (if dw then 8 else 4) (some sc) s2 = .ok u s3) (d : GReg) :
    exec (.waita h c dw true sc d a b e) s = .next (bodyNext h (s3.setMe (s3.me.wg d (BitVec.ofNat 64 v))) .next) := by
  refine runIsa_ok on ?_
  simp only [M_bind, M_me, reached, read, met, Bool.not_true, Bool.false_eq_true, if_false, if_true, acquired, M_pure, M_modMe,
    M_ite]

theorem exec_waita_waits (unmet : Cond.test c (8 * if dw then 8 else 4) v (s.me.rg b).toNat = false) (acq : Bool) (sc : Scope)
    (d : GReg) :
    exec (.waita h c dw acq sc d a b e) s = .next (s2.setMe { s2.me with parts := [], st := .waiting .word }) := by
  have stops : exec (.waita h c dw acq sc d a b e) s = _ :=
    runIsa_wait (s' := s2.setMe { s2.me with parts := [] }) (w := .word) on (by
      simp only [M_bind, M_me, reached, read, unmet, Bool.not_false, if_true, M_pure, M_modMe, M_ite, M_throw])
  rw [State.setMe_me, State.setMe_setMe] at stops
  exact stops

end

/-! ## Barriers (R282, R283) -/

@[simp] theorem Core.setBar_bar (c : Core) (n : BitVec 2) (b : BarSlot) : (c.setBar n b).bar n = b :=
  Vector.getElem_set_self n.isLt

/-- Judging a slot sends releases and takes up the arrivals: all else of the slot, and the contexts, are as before. -/
theorem State.barJudge_bar (s : State) (k : Nat) (n : BitVec 2) : ∃ as j,
    ((s.barJudge k n.toNat).core k).bar n = { (s.core k).bar n with arrivals := as, judge := j } := by
  have named : BitVec.ofNat 2 n.toNat = n := BitVec.ofNat_toNat ..
  simp only [State.barJudge, named]
  split
  · exact ⟨_, _, rfl⟩
  · split
    · exact ⟨_, _, rfl⟩
    · refine ⟨[], none, ?_⟩
      exact (congrArg (Core.bar · n) (State.setCore_core s k _)).trans (Core.setBar_bar ..)

@[simp] theorem State.barJudge_me (s : State) (k n : Nat) : (s.barJudge k n).me = s.me := by
  simp only [State.barJudge]
  split
  · rfl
  · split <;> rfl

section
variable {h : Hdr} {s : State} {a : GReg} (d : GReg) {slot : BitVec 2} (on : On h s)
include on

theorem exec_barset_bad (bad : descBad (s.me.rg a) (coreNum s.myCore) = true) : exec (.barset h d a slot) s =
    .next (s.takeTrap s.cur { cause := .illop, tval := (Instr.barset h d a slot).tvalBits }) :=
  runIsa_trap (s' := s) on (by simp only [M_bind, M_get, bad, M_illop_true])

/-- BARSET answers the status of the slot's table, and the slot takes what the table gives. -/
theorem exec_barset_good {st : Nat} {x : BarSlot} (good : descBad (s.me.rg a) (coreNum s.myCore) = false)
    (set_ : barSet ((s.core s.myCore).bar slot) (s.me.rg a) s.me.task.tid = (st, x)) :
    ∃ t : State, exec (.barset h d a slot) s = .next (bodyNext h (t.setMe (t.me.wg d (statusWord st 0))) .next) ∧
      ∃ as j, (t.core s.myCore).bar slot = { x with arrivals := as, judge := j } := by
  obtain ⟨as, j, kept⟩ := State.barJudge_bar (s.modCore s.myCore fun c => c.setBar slot x) s.myCore slot
  refine ⟨_, runIsa_ok on ?_, as, j, kept.trans ?_⟩
  · simp only [M_bind, M_get, good, M_illop_false, set_, M_modify, M_modMe, M_pure]
  · rw [State.modCore_core, Core.setBar_bar]

theorem exec_bararr_unset (unset : ((s.core s.myCore).bar slot).desc = none) :
    exec (.bararr h d slot) s = .next (bodyNext h (s.setMe (s.me.wg d (statusWord 2 0))) .next) :=
  runIsa_ok on (by simp only [M_bind, M_get, unset, M_modMe, M_pure])

theorem exec_bararr_arrives {w : Word} (set_ : ((s.core s.myCore).bar slot).desc = some w)
    (mine : ((s.core s.myCore).bar slot).setter = s.me.task.tid) (first : ((s.core s.myCore).bar slot).arrived = false)
    (settled : s.Settled .fld) :
    let k := s.myCore
    let b := (s.core k).bar slot
    let t := (s.bump.modCore k fun c => c.setBar slot { b with arrived := true }).modField s.myField fun f =>
      { f with bars := f.bars ++ [{ id := s.fresh, slot := slot.toNat, core := k, desc := w, at_ := k }] }
    exec (.bararr h d slot) s = .next (bodyNext h (t.setMe (t.me.wg d (statusWord 0 b.episode.toNat))) .next) := by
  have ours : (((s.core s.myCore).bar slot).setter != s.me.task.tid) = false := by rw [mine, bne_self_eq_false]
  refine runIsa_ok on ?_
  simp only [M_bind, M_get, set_, ours, Bool.false_eq_true, if_false, first, M_wait_false, drainStores_settled settled,
    M_freshId, M_modify, M_modMe, M_pure]
  rfl

theorem exec_barwait_passes
    (judged : barWait ((s.core s.myCore).bar slot) s.me.task.tid ((s.me.rg a).setWidth 32) = some 0) :
    let u := s.acquireAll s.myCore
    exec (.barwait h d a slot) s = .next (bodyNext h (u.setMe (u.me.wg d (statusWord 0 0))) .next) :=
  runIsa_ok on (by simp only [M_bind, M_get, judged, if_true, acquireAll_run, M_modMe, M_pure])

theorem exec_barwait_answers {st : Nat}
    (judged : barWait ((s.core s.myCore).bar slot) s.me.task.tid ((s.me.rg a).setWidth 32) = some st) (other : st ≠ 0) :
    exec (.barwait h d a slot) s = .next (bodyNext h (s.setMe (s.me.wg d (statusWord st 0))) .next) :=
  runIsa_ok on (by simp only [M_bind, M_get, judged, if_neg other, M_modMe, M_pure])

theorem exec_barwait_waits
    (judged : barWait ((s.core s.myCore).bar slot) s.me.task.tid ((s.me.rg a).setWidth 32) = none) :
    exec (.barwait h d a slot) s = .next (s.setMe { s.me with st := .waiting (.barrier slot.toNat) }) :=
  runIsa_wait on (by simp only [M_bind, M_get, judged, M_throw])

end

/-- BARWAIT on a slot of the task, by the distance of its episode from the slot's. -/
theorem barWait_mine {b : BarSlot} {tid : Nat} (set_ : b.desc.isSome = true) (mine : b.setter = tid) (e : BitVec 32) :
    barWait b tid e = if (e - b.episode).toInt < 0 then some (if b.mism.contains e then 1 else 0)
      else if (e - b.episode).toInt = 0 ∧ b.arrived then none else some 3 := by
  have full : b.desc.isNone = false := by rw [← Option.not_isSome, set_]; rfl
  simp only [barWait, full, mine, bne_self_eq_false, Bool.false_eq_true, if_false]

/-- Settles O16: each form by the equation of its branch. -/
theorem synchronisationResults : Obligations.SynchronisationResults := by
  refine ⟨fun h s on taken => ⟨fun sc kst keng klnk stores items closed => exec_fence_ended on taken stores items closed keng klnk,
    fun b few => exec_waitn_ended on taken few, exec_chk_ended on taken, exec_yield_ended on taken,
    fun c dw sc d a b e sp asid s1 s2 s3 v u reached read => ⟨fun met => ⟨exec_waita_met on reached read met sc d,
      fun acquired => exec_waita_acquired on reached read met acquired d⟩,
      fun unmet acq => exec_waita_waits on reached read unmet acq sc d⟩⟩, ?_⟩
  intro h d a slot s on k tid b answer
  refine ⟨exec_barset_bad d on, fun good => ⟨fun set_ other => ?_, fun unset away => ?_⟩, exec_bararr_unset d on,
    fun w set_ mine first settled => ?_, ?_⟩
  · have denied : barSet b (s.me.rg a) tid = (4, b) := by simp [barSet, set_, other]
    obtain ⟨t, run, as, j, slot_is⟩ := exec_barset_good d on good denied
    exact ⟨t, run, (congrArg BarSlot.desc slot_is :), (congrArg BarSlot.setter slot_is :)⟩
  · have accepted : barSet b (s.me.rg a) tid = (0, { b with
        desc := some (s.me.rg a), setter := tid, episode := 0, arrived := false, mism := [], judge := none }) := by
      simp [barSet, unset, away]
    obtain ⟨t, run, as, j, slot_is⟩ := exec_barset_good d on good accepted
    exact ⟨t, run, congrArg BarSlot.desc slot_is, congrArg BarSlot.setter slot_is, congrArg BarSlot.episode slot_is⟩
  · refine ⟨_, exec_bararr_arrives d on set_ mine first settled, ?_, _, congrArg Field.bars (State.modField_field ..), rfl, rfl,
      rfl, rfl⟩
    rw [State.modField_core, State.modCore_core, Core.setBar_bar]
  · intro e set_ mine
    have judged := barWait_mine set_ mine e
    refine ⟨fun past agreed => ?_, fun past differed => ?_, fun current arrived => ?_, fun ahead => ?_⟩
    · rw [if_pos past, if_neg (by simpa using agreed)] at judged
      exact exec_barwait_passes d on judged
    · rw [if_pos past, if_pos (by simpa using differed)] at judged
      exact exec_barwait_answers d on judged (by decide)
    · rw [current, BitVec.sub_self, if_neg (by decide), if_pos ⟨by decide, arrived⟩, ← current] at judged
      exact exec_barwait_waits d on judged
    · rw [if_neg (by omega), if_neg (by omega)] at judged
      exact exec_barwait_answers d on judged (by decide)

end Sys2Proof.Machine
end

section
/-! Vector memory forms (R286 to R289): loads, stores and VAMO whose elements pass their checks, and the late fault of an
element that does not. -/

namespace Sys2Proof.Machine

theorem rimElem_of_rim_nil {c : Ctx} (quiet : c.rim = []) (es : List Elem) : rimElem c es = none :=
  List.findSome?_eq_none_iff.2 fun x _ => by simp [Ctx.rimTrap, quiet]

theorem ringWait_ok {s : State} (room : s.me.ringFull = false) : ringWait s = .ok () s := by
  simp only [ringWait, M_bind, M_me, room, M_wait_false]

/-- The context while a vector load reads its elements. -/
def Ctx.loading (c : Ctx) : Ctx := { c with vec := true }

theorem modMe_loading (s : State) : modMe (fun c => { c with vec := true }) s = .ok ⟨⟩ (s.setMe s.me.loading) := rfl

/-- The context after a form that ends with a late fault of an element (R289). -/
def Ctx.endLate (c : Ctx) (dst : Option RegRef) (e : Nat) (t : Trap) : Ctx := { c.pushLate dst t e with rim := [] }

theorem lateEnd_run (dst : Option RegRef) (e : Nat) (t : Trap) (s : State) :
    lateEnd dst e t s = .ok .next (s.setMe (s.me.endLate dst e t)) := rfl

section
variable {s s1 s2 : State} {t : ETy} {m : VMask} {d : VReg} {addr : Ctx → Nat → Nat} {fe : Bool} {es : List Elem}
  {ps : List (Elem × Space × BitVec 16)} {j : Nat} {tr : Trap}
  (room : s.me.ringFull = false) (quiet : s.me.rim = [])
include room quiet

/-! ## Loads (R286, R287) -/

theorem vecLoad_ok {vs : List (Nat × Nat)} (here : elems s.me.loading m.msk (memWidth t) (addr s.me.loading) = es)
    (checked : checkElems (memWidth t / 8) .load fe es (s.setMe s.me.loading) = .ok (.ok ps) s1)
    (full : fe = true → s1.emptyElem (memWidth t / 8) ps = none)
    (read : readElems (memWidth t / 8) es ps s1 = .ok (.ok vs) s2) :
    vecLoad t m d addr fe s = .ok .next (s2.setMe ((putInts s2.me (memWidth t) m d fun e =>
      ((vs.find? fun v => v.1 == e).map (·.2)).getD 0).pushSeq .done (some (vr d)))) := by
  have quiet' : s.me.loading.rim = [] := quiet
  simp only [vecLoad, M_bind, ringWait_ok room, modMe_loading, M_me, State.setMe_me, here, rimElem_of_rim_nil quiet', checked]
  cases fe with
  | false => simp only [Bool.false_eq_true, if_false, M_bind, read, M_modMe, M_pure, vr]
  | true => simp only [if_true, M_bind, M_get, full rfl, M_pure, read, M_modMe, vr]

theorem vecLoad_late (here : elems s.me.loading m.msk (memWidth t) (addr s.me.loading) = es)
    (failed : checkElems (memWidth t / 8) .load fe es (s.setMe s.me.loading) = .ok (.error (j, tr)) s1) :
    vecLoad t m d addr fe s = .ok .next (s1.setMe (s1.me.endLate (some (vr d)) j tr)) := by
  have quiet' : s.me.loading.rim = [] := quiet
  simp only [vecLoad, M_bind, ringWait_ok room, modMe_loading, M_me, State.setMe_me, here, rimElem_of_rim_nil quiet', failed,
    lateEnd_run, vr]

/-! ## Stores (R286, R287) -/

theorem vecStore_ok {q : QReg} (here : elems s.me q (memWidth t) (addr s.me) = es)
    (checked : checkElems (memWidth t / 8) .store false es s = .ok (.ok ps) s1)
    (written : writeElems (fun i => natBytes (elem (s.me.rv d) i (memWidth t)) (memWidth t / 8)) ps s1 = .ok () s2) :
    vecStore t q d addr s = .ok .next (s2.setMe (s2.me.pushSeq .done none)) := by
  simp only [vecStore, M_bind, ringWait_ok room, M_me, here, rimElem_of_rim_nil quiet, checked, written, M_modMe, M_pure]

theorem vecStore_late {q : QReg} (here : elems s.me q (memWidth t) (addr s.me) = es)
    (failed : checkElems (memWidth t / 8) .store false es s = .ok (.error (j, tr)) s1) :
    vecStore t q d addr s = .ok .next (s1.setMe (s1.me.endLate none j tr)) := by
  simp only [vecStore, M_bind, ringWait_ok room, M_me, here, rimElem_of_rim_nil quiet, failed, lateEnd_run]

end

/-! ## VAMO (R288, R289) -/

section
variable {h : Hdr} {s s1 s2 : State} {t : ETy} {m : VMask} {op : AtOp} {ord : Order} {pl : Place} {sc : Scope} {k : BitVec 2}
  {d : VReg} {a : GReg} {x : VReg} {e : BitVec 16} (on : On h s) (room : s.me.ringFull = false)
include on room

theorem exec_vamo_performed {l : List (Nat × Nat × BitVec 5)} {bad : List (Nat × Trap)}
    (checked : vamoCheck (t.width / 8) (elems s.me m.msk t.width fun i => indexAddr s.me t.width a x k e i) s = .ok none s1)
    (performed : vamoAll op (t.width / 8 == 8) (t.width / 8) (fun i => elem (s1.me.rv d) i t.width) pl ord sc
      (elems s.me m.msk t.width fun i => indexAddr s.me t.width a x k e i) s1 = .ok (l, bad) s2) :
    exec (.vamo h t m op ord pl sc k d a x e) s =
      .next (bodyNext h (s2.setMe (s2.me.vamoEnd t.width m d l bad)) .next) :=
  runIsa_ok on (by
    simp only [M_bind, ringWait_ok room, M_me, checked, execVamo.vamoFinish, performed, M_modMe, M_pure])

theorem exec_vamo_late {j : Nat} {tr : Trap}
    (failed : vamoCheck (t.width / 8) (elems s.me m.msk t.width fun i => indexAddr s.me t.width a x k e i) s =
      .ok (some (j, tr)) s1) (fresh : s1.me.parts = []) :
    exec (.vamo h t m op ord pl sc k d a x e) s =
      .next (bodyNext h (s1.setMe (s1.me.endLate (some (vr d)) j tr)) .next) :=
  runIsa_ok on (by
    simp only [M_bind, ringWait_ok room, M_me, failed, fresh, List.isEmpty_nil, if_true, lateEnd_run, vr])

end

/-! ## The obligation -/

/-- Settles O23: a load, a store and VAMO are one sequence each, for every way to form the addresses. -/
theorem vectorMemoryResults : Obligations.VectorMemoryResults := by
  constructor
  · intro h t m d a b x k e s s1 s2 on room quiet w base unit stride index loads stores
    have load {i fe} (addr) (form : exec i s = runIsa h (vecLoad t m d addr fe) s) : loads i (addr s.me.loading) fe :=
      fun ps vs checked full read => form.trans (runIsa_ok on (vecLoad_ok room quiet rfl checked full read))
    have store {i} (addr) (form : exec i s = runIsa h (vecStore t m.msk d addr) s) : stores i (addr s.me) :=
      fun ps checked written => form.trans (runIsa_ok on (vecStore_ok room quiet rfl checked written))
    refine ⟨load (unitAddr · (memWidth t) a e) rfl, load (strideAddr · a b e) rfl, load (indexAddr · t.width a x k e) rfl,
      load (unitAddr · (memWidth t) a e) rfl, store (unitAddr · (memWidth t) a e) rfl,
      store (strideAddr · a b e) rfl, store (indexAddr · t.width a x k e) rfl, ?_⟩
    intro op ord pl sc l bad n es checked performed done after
    have ends := exec_vamo_performed on room checked performed
    refine ⟨?_, ?_⟩
    · rintro rfl
      exact ends
    · rintro j tr rest rfl
      exact ends
  · intro h t m d a b x k e s s1 on room quiet w base unit stride index fails
    have load {i fe} (addr) (form : exec i s = runIsa h (vecLoad t m d addr fe) s) :
        fails i (w / 8) .load fe (elems s.me m.msk w (addr s.me.loading)) (some (vr d)) :=
      fun j tr failed => form.trans (runIsa_ok on (vecLoad_late room quiet rfl failed))
    have store {i} (addr) (form : exec i s = runIsa h (vecStore t m.msk d addr) s) :
        fails i (w / 8) .store false (elems s.me m.msk w (addr s.me)) none :=
      fun j tr failed => form.trans (runIsa_ok on (vecStore_late room quiet rfl failed))
    exact ⟨load (unitAddr · (memWidth t) a e) rfl, load (strideAddr · a b e) rfl, load (indexAddr · t.width a x k e) rfl,
      load (unitAddr · (memWidth t) a e) rfl, store (unitAddr · (memWidth t) a e) rfl,
      store (strideAddr · a b e) rfl, store (indexAddr · t.width a x k e) rfl,
      fun op ord pl sc j tr failed fresh => exec_vamo_late on room failed fresh⟩

end Sys2Proof.Machine
end

section
/-! Items: a new item of a context, and an item that is found by its number and changed (R292). -/

namespace Sys2Proof.Machine

/-- The next item of the issuing context. -/
def State.itemFor (s : State) (d : GReg) (sc : Scope) (kind : ItemKind) (status : Option Word) : Item :=
  { id := s.fresh, cx := s.cur, tid := s.me.task.tid, gd := d.toNat, asid := s.me.asid, lvl := s.me.lvl, extn := s.me.extn, sc := sc
    kind := kind, status := status }

/-- An item is the last of a core's list. -/
def State.itemListed (s : State) (it : Item) : State :=
  s.bump.modCore s.myCore fun k => { k with items := k.items ++ [it] }

/-- The state with that item, whose status gd awaits. -/
def State.withItem (s : State) (d : GReg) (sc : Scope) (kind : ItemKind) (status : Option Word) : State :=
  (s.itemListed (s.itemFor d sc kind status)).setMe { s.me with pend := s.me.pend ++ [(d.toNat, s.fresh)] }

section
variable (s : State) (d : GReg) (sc : Scope) (kind : ItemKind) (status : Option Word)

theorem newItem_run : newItem d sc kind status s = .ok s.fresh (s.withItem d sc kind status) := rfl

@[simp] theorem State.withItem_me :
    (s.withItem d sc kind status).me = { s.me with pend := s.me.pend ++ [(d.toNat, s.fresh)] } := State.setMe_me ..

@[simp] theorem State.withItem_cur : (s.withItem d sc kind status).cur = s.cur := rfl
@[simp] theorem State.withItem_myCore : (s.withItem d sc kind status).myCore = s.myCore := rfl
@[simp] theorem State.withItem_fields : (s.withItem d sc kind status).fields = s.fields := rfl
@[simp] theorem State.withItem_clusters : (s.withItem d sc kind status).clusters = s.clusters := rfl

theorem State.withItem_core : (s.withItem d sc kind status).core s.myCore =
    { s.core s.myCore with items := (s.core s.myCore).items ++ [s.itemFor d sc kind status] } := State.setCore_core ..

theorem State.withItem_items : ((s.withItem d sc kind status).core s.myCore).items =
    (s.core s.myCore).items ++ [s.itemFor d sc kind status] := congrArg Core.items (s.withItem_core ..)

theorem newItem_withItem : NewItem s (s.withItem d sc kind status) d sc kind status := by
  refine ⟨_, s.withItem_items .., rfl, rfl, rfl, rfl, rfl, rfl, ?_⟩
  rw [State.withItem_me]
  exact List.mem_append_right _ (List.mem_singleton_self _)

end

/-- What is put behind numbers that all differ from its own is found by its number. -/
theorem find_append_last {α : Type} {p : α → Bool} {l : List α} {x : α} (others : ∀ y ∈ l, p y = false) (this : p x = true) :
    (l ++ [x]).find? p = some x := by
  rw [List.find?_append, List.find?_eq_none.2 fun y mem => Bool.eq_false_iff.1 (others y mem), Option.none_or,
    List.find?_cons_of_pos this]

/-- So the change of an item under its number changes it alone. -/
theorem map_append_last {α : Type} {p : α → Bool} {l : List α} {x y : α} (others : ∀ z ∈ l, p z = false) (this : p x = true) :
    (l ++ [x]).map (fun z => if p z then y else z) = l ++ [y] := by
  rw [List.map_append, List.map_cons, List.map_nil, if_pos this]
  refine congrArg (· ++ [y]) ((List.map_congr_left fun z mem => ?_).trans (List.map_id l))
  rw [others z mem]
  rfl

/-- With every number given out below the next, the new item is the one found under its number. -/
theorem State.withItem_item (s : State) (d : GReg) (sc : Scope) (kind : ItemKind) (status : Option Word)
    (below : ∀ i ∈ (s.core s.myCore).items, i.id < s.fresh) :
    (s.withItem d sc kind status).item? s.myCore s.fresh = some (s.itemFor d sc kind status) := by
  rw [State.item?, State.withItem_items]
  exact find_append_last (fun i mem => beq_eq_false_iff_ne.2 (Nat.ne_of_lt (below i mem))) (beq_self_eq_true _)

theorem State.setItem_items (s : State) (k : Nat) (i : Item) : ((s.setItem k i).core k).items =
    (s.core k).items.map fun j => if j.id == i.id then i else j :=
  congrArg Core.items (State.modCore_core s k fun c => { c with items := c.items.map fun j => if j.id == i.id then i else j })

theorem State.withItem_setItem_items (s : State) (d : GReg) (sc : Scope) (kind : ItemKind) (status : Option Word)
    (below : ∀ i ∈ (s.core s.myCore).items, i.id < s.fresh) {j : Item} (same : j.id = s.fresh) :
    (((s.withItem d sc kind status).setItem s.myCore j).core s.myCore).items = (s.core s.myCore).items ++ [j] := by
  rw [State.setItem_items, State.withItem_items, same]
  exact map_append_last (fun i mem => beq_eq_false_iff_ne.2 (Nat.ne_of_lt (below i mem))) (beq_self_eq_true _)

end Sys2Proof.Machine
end

section
/-! Matrix forms at issue (R229 to R248): what enters the command queue, and the control forms. -/

namespace Sys2Proof.Machine

/-! ## Entry into the command queue (R229) -/

/-- The next entry of the issuing context. -/
def State.mqEntry (s : State) (i : Instr) (wa wb : Word) : MqEnt :=
  { ins := i, cx := s.cur, tid := s.me.task.tid, seq := s.me.nextSeq, wa := wa, wb := wb, mscl := s.me.mscl, extn := s.me.extn
    asid := s.me.asid, lvl := s.me.lvl, eid := s.fresh }

/-- The state with that entry at the end of the core's queue and its number in the ring. -/
def State.mqPushed (s : State) (i : Instr) (dst : Option RegRef) (wa wb : Word) : State :=
  (s.bump.modCore s.myCore fun k => { k with mq := k.mq ++ [s.mqEntry i wa wb] }).setMe (s.me.pushSeq .pending dst)

theorem mqPush_run {s : State} (room : s.me.ringFull = false) (space : (s.core s.myCore).mq.length < 32) (i : Instr)
    (dst : Option RegRef) (wa wb : Word) : mqPush i dst wa wb s = .ok ⟨⟩ (s.mqPushed i dst wa wb) := by
  simp only [mqPush, M_bind, M_get, room, M_wait_false, decide_eq_false (Nat.not_le.2 space)]
  rfl

@[simp] theorem State.mqPushed_me (s : State) (i : Instr) (dst : Option RegRef) (wa wb : Word) :
    (s.mqPushed i dst wa wb).me = s.me.pushSeq .pending dst := State.setMe_me ..

theorem State.mqPushed_mq (s : State) (i : Instr) (dst : Option RegRef) (wa wb : Word) :
    ((s.mqPushed i dst wa wb).core s.myCore).mq = (s.core s.myCore).mq ++ [s.mqEntry i wa wb] :=
  congrArg Core.mq (State.modCore_core s.bump s.myCore fun k => { k with mq := k.mq ++ [s.mqEntry i wa wb] })

/-- The registers of a program and its flags are the same. -/
structure SameProgramRegs (c d : Ctx) : Prop where
  g : d.g = c.g
  v : d.v = c.v
  q : d.q = c.q
  p : d.p = c.p
  fstat : d.fstat = c.fstat

theorem pushSeq_sameProgramRegs (c : Ctx) (st : SeqState) (dst : Option RegRef) : SameProgramRegs c (c.pushSeq st dst) where
  g := Ctx.pushEntry_g ..
  v := Ctx.pushEntry_v ..
  q := Ctx.pushEntry_q ..
  p := Ctx.pushEntry_p ..
  fstat := Ctx.pushEntry_fstat ..

theorem SameProgramRegs.trans {a b c : Ctx} (x : SameProgramRegs a b) (y : SameProgramRegs b c) : SameProgramRegs a c :=
  ⟨y.g.trans x.g, y.v.trans x.v, y.q.trans x.q, y.p.trans x.p, y.fstat.trans x.fstat⟩

/-- A matrix form completes by entering the queue, and leaves its context as a test says, with the program's registers as they
were. -/
def Enters (h : Hdr) (s : State) (i : Instr) (wa wb : Word) (after : Ctx → Prop) : Prop :=
  ∃ t, exec i s = .next (bodyNext h t .next) ∧ Queued s t i wa wb ∧ after t.me ∧
    t.me.g = s.me.g ∧ t.me.v = s.me.v ∧ t.me.q = s.me.q ∧ t.me.p = s.me.p ∧ t.me.fstat = s.me.fstat

section
variable {h : Hdr} {s : State} {i : Instr} (dst : Option RegRef) {wa wb : Word}

theorem enters_of_pushed (run : exec i s = .next (bodyNext h (s.mqPushed i dst wa wb) .next)) :
    Enters h s i wa wb fun _ => True := by
  have same := pushSeq_sameProgramRegs s.me .pending dst
  refine ⟨_, run, ⟨_, s.mqPushed_mq i dst wa wb, rfl, rfl, rfl, rfl, rfl, rfl⟩, trivial, ?_⟩
  rw [State.mqPushed_me]
  exact ⟨same.g, same.v, same.q, same.p, same.fstat⟩

theorem enters_of_pushed_then {f : Ctx → Ctx} {after : Ctx → Prop}
    (run : exec i s = .next (bodyNext h ((s.mqPushed i dst wa wb).setMe (f (s.mqPushed i dst wa wb).me)) .next))
    (keeps : ∀ c, SameProgramRegs c (f c)) (leaves : after (f (s.me.pushSeq .pending dst))) : Enters h s i wa wb after := by
  have same := (pushSeq_sameProgramRegs s.me .pending dst).trans (keeps _)
  refine ⟨_, run, ⟨_, s.mqPushed_mq i dst wa wb, rfl, rfl, rfl, rfl, rfl, rfl⟩, ?_⟩
  rw [State.setMe_me, State.mqPushed_me]
  exact ⟨leaves, same.g, same.v, same.q, same.p, same.fstat⟩

end

/-! ## Checks at issue (R233, R240, R244) -/

theorem needAcc_ok {s : State} {d : AReg} (held : s.holdsAcc d.toNat = true) (i : Instr) : needAcc i d s = .ok () s := by
  simp only [needAcc, M_bind, M_get, held, Bool.not_true, M_illop_false]

theorem needBanks_ok {s : State} (held : s.holdsBanks = true) (i : Instr) : needBanks i s = .ok () s := by
  simp only [needBanks, M_bind, M_get, held, Bool.not_true, M_illop_false]

theorem matAlign_ok {t : ETy} {base pitch : Word} (hb : base.toNat % (t.width / 8) = 0) (hp : pitch.toNat % (t.width / 8) = 0)
    (s : State) : matAlign t base pitch s = .ok () s := by
  simp only [matAlign, M_bind, hb, hp, bne_self_eq_false, M_trap_false]

theorem storesDone_ok {s : State} (settled : s.Settled .sys) : storesDone s = .ok () s := drainStores_settled settled

/-! ## Issue shadows (R240) -/

@[simp] theorem Ctx.setShadow_shadow (c : Ctx) (bank : Bool) (x : BankShadow) : (c.setShadow bank x).shadow bank = x := by
  cases bank <;> rfl

@[simp] theorem Ctx.setShadow_shadow_not (c : Ctx) (bank : Bool) (x : BankShadow) :
    (c.setShadow bank x).shadow (!bank) = c.shadow (!bank) := by cases bank <;> rfl

theorem setShadow_sameProgramRegs (c : Ctx) (bank : Bool) (x : BankShadow) : SameProgramRegs c (c.setShadow bank x) := by
  cases bank <;> exact ⟨rfl, rfl, rfl, rfl, rfl⟩

@[simp] theorem Ctx.pushSeq_shadow (c : Ctx) (st : SeqState) (dst : Option RegRef) (bank : Bool) :
    (c.pushSeq st dst).shadow bank = c.shadow bank := by cases bank <;> rfl

theorem BankShadow.count_depth (x : BankShadow) (m : Mscl) (wa wb : Word) (ta tb : ETy) (k : Nat) :
    (x.count m wa wb ta tb k).depth = x.depth + k := by
  unfold BankShadow.count
  split
  · next empty => rw [empty, Nat.zero_add]
  · rfl

theorem mergeShadow_depth_le (a b : BankShadow) : (mergeShadow a b).depth ≤ a.depth + b.depth := by
  unfold mergeShadow
  split
  · exact Nat.le_add_right ..
  · split
    · exact Nat.le_trans (Nat.min_le_left ..) (Nat.le_add_left ..)
    · exact Nat.min_le_left ..

/-- The banks agree on their element types, as MMERGE requires of two that are in use (R74). -/
theorem mergeTypes_ok {a b : BankShadow} (agree : a.depth = 0 ∨ b.depth = 0 ∨ (a.ta = b.ta ∧ a.tb = b.tb)) :
    (a.depth != 0 && b.depth != 0 && (a.ta != b.ta || a.tb != b.tb)) = false := by
  rcases agree with empty | empty | ⟨ta, tb⟩
  · simp [empty]
  · simp [empty]
  · simp [ta, tb]

/-! ## The queued forms -/

section
variable {h : Hdr} {s : State} (on : On h s) (taken : s.me.lates = []) (room : s.me.ringFull = false)
  (space : (s.core s.myCore).mq.length < 32)
include on taken room space

theorem mzero_enters {d : AReg} (held : s.holdsAcc d.toNat = true) : Enters h s (.mzero h d) 0 0 fun _ => True :=
  enters_of_pushed (some (.a d.toNat)) (runIsa_ok on (by
    simp only [M_bind, lateFirst_ok s taken, needAcc_ok held, mqPush_run room space, M_pure]))

theorem mdrain_enters {d : AReg} (held : s.holdsAcc d.toNat = true) (banks : s.holdsBanks = true) (bank : Bool) :
    Enters h s (.mdrain h d bank) 0 0 fun c => c.shadow bank = {} :=
  enters_of_pushed_then (some (.a d.toNat)) (f := fun c => c.setShadow bank {}) (runIsa_ok on (by
    simp only [M_bind, lateFirst_ok s taken, needAcc_ok held, needBanks_ok banks, mqPush_run room space, M_modMe, M_pure]))
    (setShadow_sameProgramRegs · bank {}) (Ctx.setShadow_shadow ..)

theorem mma_enters {ta tb : ETy} {d : AReg} {a b : GReg} (k : BitVec 16) (held : s.holdsAcc d.toNat = true)
    (wa : wordBad (s.me.rg a) = false) (wb : wordBad (s.me.rg b) = false)
    (scales : mmaScaleBad s.me.mscl (s.me.rg a) (s.me.rg b) ta tb = false) (settled : s.Settled .sys) :
    Enters h s (.mma h ta tb d a b k) (s.me.rg a) (s.me.rg b) fun _ => True :=
  enters_of_pushed (some (.a d.toNat)) (runIsa_ok on (by
    simp only [M_bind, lateFirst_ok s taken, M_me, needAcc_ok held, wa, wb, scales, Bool.or_self, M_illop_false,
      storesDone_ok settled, mqPush_run room space, M_pure]))

theorem mld_enters {ty : ETy} {d : AReg} {a b : GReg} (rows cols : BitVec 7) (held : s.holdsAcc d.toNat = true)
    (base : (s.me.rg a).toNat % (ty.width / 8) = 0) (pitch : (s.me.rg b).toNat % (ty.width / 8) = 0)
    (settled : s.Settled .sys) : Enters h s (.mld h ty d a b rows cols) (s.me.rg a) (s.me.rg b) fun _ => True :=
  enters_of_pushed (some (.a d.toNat)) (runIsa_ok on (by
    simp only [M_bind, lateFirst_ok s taken, M_me, needAcc_ok held, matAlign_ok base pitch, storesDone_ok settled,
      mqPush_run room space, M_pure]))

theorem mst_enters {ty : ETy} {d : AReg} {a b : GReg} (r : RMode) (sat : Bool) (rows cols : BitVec 7)
    (held : s.holdsAcc d.toNat = true) (base : (s.me.rg a).toNat % (ty.width / 8) = 0)
    (pitch : (s.me.rg b).toNat % (ty.width / 8) = 0) (settled : s.Settled .sys) :
    Enters h s (.mst h ty r sat d a b rows cols) (s.me.rg a) (s.me.rg b) fun _ => True :=
  enters_of_pushed none (runIsa_ok on (by
    simp only [M_bind, lateFirst_ok s taken, M_me, needAcc_ok held, matAlign_ok base pitch, storesDone_ok settled,
      mqPush_run room space, M_pure]))

theorem mcnt_enters {ta tb : ETy} {a b : GReg} {k : BitVec 7} {bank : Bool} (banks : s.holdsBanks = true)
    (wa : wordBad (s.me.rg a) = false) (wb : wordBad (s.me.rg b) = false)
    (fits : mcntBad (s.me.shadow bank) s.me.mscl (s.me.rg a) (s.me.rg b) ta tb k.toNat = false) (settled : s.Settled .sys) :
    Enters h s (.mcnt h ta tb a b k bank) (s.me.rg a) (s.me.rg b) fun c =>
      (c.shadow bank).depth = (s.me.shadow bank).depth + k.toNat ∧ c.shadow (!bank) = s.me.shadow (!bank) :=
  enters_of_pushed_then none
    (f := fun x => x.setShadow bank ((x.shadow bank).count s.me.mscl (s.me.rg a) (s.me.rg b) ta tb k.toNat))
    (runIsa_ok on (by
      simp only [M_bind, lateFirst_ok s taken, M_me, needBanks_ok banks, wa, wb, fits, Bool.or_self, M_illop_false,
        storesDone_ok settled, mqPush_run room space, M_modMe, M_pure]))
    (fun c => setShadow_sameProgramRegs c bank _) (by
      rw [Ctx.setShadow_shadow, Ctx.setShadow_shadow_not, BankShadow.count_depth, Ctx.pushSeq_shadow, Ctx.pushSeq_shadow]
      exact ⟨rfl, rfl⟩)

theorem mmerge_enters (banks : s.holdsBanks = true) (types : s.me.shadow0.depth = 0 ∨ s.me.shadow1.depth = 0 ∨
    (s.me.shadow0.ta = s.me.shadow1.ta ∧ s.me.shadow0.tb = s.me.shadow1.tb)) : Enters h s (.mmerge h) 0 0 fun c =>
      c.shadow1 = {} ∧ c.shadow0.depth ≤ s.me.shadow0.depth + s.me.shadow1.depth :=
  enters_of_pushed_then none (f := fun x => { x with shadow0 := mergeShadow x.shadow0 x.shadow1, shadow1 := {} }) (runIsa_ok on (by
    simp only [M_bind, lateFirst_ok s taken, M_me, needBanks_ok banks, mergeTypes_ok types, M_illop_false,
      mqPush_run room space, M_modMe, M_pure])) (fun _ => ⟨rfl, rfl, rfl, rfl, rfl⟩) ⟨rfl, mergeShadow_depth_le ..⟩

theorem mscl_enters {a b : GReg} (aen ben ablk bblk : Bool) (wa : scaleBad (s.me.rg a) = false)
    (wb : scaleBad (s.me.rg b) = false) : Enters h s (.mscl h a b aen ben ablk bblk) (s.me.rg a) (s.me.rg b) fun c =>
      c.mscl = { wa := s.me.rg a, wb := s.me.rg b, aen := aen, ben := ben, ablk := ablk, bblk := bblk } :=
  enters_of_pushed_then none
    (f := fun x => { x with
      mscl := { wa := s.me.rg a, wb := s.me.rg b, aen := aen, ben := ben, ablk := ablk, bblk := bblk } })
    (runIsa_ok on (by
      simp only [M_bind, lateFirst_ok s taken, M_me, wa, wb, Bool.or_self, M_illop_false, mqPush_run room space, M_modMe,
        M_pure]))
    (fun _ => ⟨rfl, rfl, rfl, rfl, rfl⟩) rfl

end

/-! ## MWAIT, MQW and MCFG (R245 to R247) -/

theorem waitIf_ok {b : Bool} (goes : b = false) (w : WaitFor) (s : State) : waitIf b w s = .ok () s := by
  rw [goes, M_wait_false]

theorem any_eq_false_of_forall_ne {α : Type} {l : List α} {f : α → Nat} {t : Nat} (none_of : ∀ x ∈ l, f x ≠ t) :
    (l.any fun x => f x == t) = false :=
  List.any_eq_false.2 fun x mem => by simpa using none_of x mem

section
variable {h : Hdr} {s : State} (on : On h s)
include on

theorem exec_mwait_idle (taken : s.me.lates = []) (idle : ∀ e ∈ (s.core s.myCore).mq, e.tid ≠ s.me.task.tid)
    (ended : ∀ i ∈ (s.core s.myCore).items, i.tid ≠ s.me.task.tid) : exec (.mwait h) s = .next (bodyNext h s .next) := by
  refine runIsa_ok on ((bind_ok (lateFirst_ok s taken)).trans ((bind_ok (M_get s)).trans
    ((bind_ok (waitIf_ok (any_eq_false_of_forall_ne idle) _ s)).trans ((bind_ok (waitIf_ok ?_ _ s)).trans rfl))))
  exact List.any_eq_false.2 fun i mem => by simp [ended i mem]

theorem exec_mqw_weight {b : GI} (pos : (GI.uval b s.me).toNat ≠ 0) (le : (GI.uval b s.me).toNat ≤ 8) :
    exec (.mqw h b) s =
      .next (bodyNext h (s.modCore s.myCore fun c => c.setReg 0x080 (GI.uval b s.me)) .next) := by
  have zero : GI.uval b s.me ≠ 0 := fun e => pos (by rw [e]; rfl)
  exact runIsa_ok on (by
    simp only [M_bind, M_me, zero, decide_eq_false (Nat.not_lt.2 le), decide_false, Bool.or_self, M_illop_false, M_modify,
      M_pure])

/-- MCFG answers the items denied, and claims where there are none. -/
theorem exec_mcfg_answers (taken : s.me.lates = []) {claim release : BitVec 5}
    (now : ¬ ((s.mcfgRelease release).claimDenied claim = 0 ∧ (s.mcfgRelease release).claimEarly claim = true)) (d : GReg) :
    let r := s.mcfgRelease release
    let no := r.claimDenied claim
    let t := if no = 0 then r.mcfgClaim claim else r
    exec (.mcfg h d claim release) s = .next (bodyNext h (t.setMe (t.me.wg d (BitVec.ofNat 64 no))) .next) := by
  have goes : ((s.mcfgRelease release).claimDenied claim == 0 && (s.mcfgRelease release).claimEarly claim) = false := by
    simpa using now
  exact runIsa_ok on (by simp only [M_bind, lateFirst_ok s taken, M_get, goes, M_wait_false, M_set, M_modMe, M_pure])

theorem exec_mcfg_waits (taken : s.me.lates = []) {claim release : BitVec 5}
    (granted : (s.mcfgRelease release).claimDenied claim = 0) (early : (s.mcfgRelease release).claimEarly claim = true)
    (d : GReg) : exec (.mcfg h d claim release) s = .next (s.setMe { s.me with st := .waiting .queue }) :=
  runIsa_wait on (by
    simp only [M_bind, lateFirst_ok s taken, M_get, granted, early, beq_self_eq_true, Bool.and_self, M_wait_true])

end

/-- The holders of the core's accumulators once the context has released some. -/
def State.keptHolders (s : State) (r : BitVec 5) : Vector (Option Nat) 4 :=
  (Vector.range 4).map fun n => if r.getLsbD n && (s.core s.myCore).accHolder.toList.getD n none == some (ctxNum s.cur) then none
    else (s.core s.myCore).accHolder.toList.getD n none

theorem State.keptHolders_free {s : State} {n : Nat} (lt : n < 4) (free : (s.core s.myCore).accHolder.toList.getD n none = none)
    (r : BitVec 5) : (s.keptHolders r).toList.getD n none = none := by
  have unheld : (s.core s.myCore).accHolder[n] = none := by simpa [lt] using free
  simp [State.keptHolders, lt, unheld]

@[simp] theorem State.mcfgRelease_cur (s : State) (r : BitVec 5) : (s.mcfgRelease r).cur = s.cur := by
  simp only [State.mcfgRelease]
  split <;> rfl

/-- A release leaves all else of the core as it was, its queue and its saved contexts with it. -/
theorem State.mcfgRelease_core (s : State) (r : BitVec 5) :
    (s.mcfgRelease r).core s.myCore = { s.core s.myCore with accHolder := s.keptHolders r } := by
  simp only [State.mcfgRelease]
  split
  · exact State.setCore_core ..
  · exact State.setCore_core ..

/-- With nothing queued or saved, a claim of accumulators that nobody holds is granted. -/
theorem State.claimDenied_free {s : State} (r : BitVec 5) {claim : BitVec 5} (queue : (s.core s.myCore).mq = [])
    (saved : (s.core s.myCore).saved = [])
    (free : claim &&& 0xF#5 = 0 ∨ ∀ n : Fin 4, (s.core s.myCore).accHolder[n] = none) (banks : claim.getLsbD 4 = false) :
    (s.mcfgRelease r).claimDenied claim = 0 := by
  have core : (s.mcfgRelease r).core (s.mcfgRelease r).myCore = { s.core s.myCore with accHolder := s.keptHolders r } := by
    rw [State.myCore, State.mcfgRelease_cur]
    exact s.mcfgRelease_core r
  have granted (p q : Nat → Bool) (n : Nat) :
      (claim.getLsbD n && (s.mcfgRelease r).accUsed (s.mcfgRelease r).myCore n p q) = false := by
    rcases Nat.lt_trichotomy n 4 with lt | rfl | gt
    · rcases free with none_claimed | none_held
      · have low : (0xF#5).getLsbD n = true := by
          have all : ∀ n < 4, (0xF#5).getLsbD n = true := by decide
          exact all n lt
        have bit : claim.getLsbD n = false := by simpa [low] using congrArg (·.getLsbD n) none_claimed
        rw [bit, Bool.false_and]
      · have unheld : (s.core s.myCore).accHolder.toList.getD n none = none := by simpa [lt] using none_held ⟨n, lt⟩
        simp only [State.accUsed, core, queue, saved, State.keptHolders_free lt unheld, Option.any_none, List.any_nil,
          Bool.or_self, Bool.and_false]
    · rw [banks, Bool.false_and]
    · rw [BitVec.getLsbD_of_ge _ _ gt, Bool.false_and]
  rw [State.claimDenied, banks]
  exact List.foldl_fixed' (fun n => if_neg (Bool.eq_false_iff.1 (granted _ _ n))) _

/-! ## MBCAST (R248) -/

theorem toNat_extractLsb' (w : Word) (lo n : Nat) : (w.extractLsb' lo n).toNat = bits w lo n := by
  rw [BitVec.extractLsb'_toNat, Nat.shiftRight_eq_div_pow, bits]

theorem exec_mbcast_issued {h : Hdr} {d a b : GReg} {bus : Bool} {mask : BitVec 8} {len : BitVec 16} {s : State} (on : On h s)
    (taken : s.me.lates = []) (idle : ∀ e ∈ (s.core s.myCore).mq, e.tid ≠ s.me.task.tid)
    (good : mbcastBad (s.me.rg a) (s.me.rg b) = false) (source : bits (s.me.rg a) 0 18 + 4 * len.toNat ≤ cmemSize)
    (target : bits (s.me.rg b) 0 18 + 4 * len.toNat ≤ cmemSize)
    (allowed : schedBad s.me.lvl none (bits (s.me.rg b) 0 18) (4 * len.toNat) = false) (clean : (s.core s.myCore).poison = [])
    (settled : s.Settled .fld) (below : ∀ i ∈ (s.core s.myCore).items, i.id < s.fresh) :
    let kind := ItemKind.mbcast (bits (s.me.rg b) 0 18) bus mask ((s.core s.myCore).words (bits (s.me.rg a) 0 18) len.toNat)
    exec (.mbcast h d a b bus mask len) s = .next (bodyNext h ((s.withItem d .fld kind none).setItem s.myCore
      { s.itemFor d .fld kind none with at_ := ((s.me.rg b).extractLsb' 24 8).toNat }) .next) := by
  refine runIsa_ok on ?_
  have unpoisoned (ws : List Nat) : (ws.any fun w => inList w (s.core s.myCore).poison) = false := by
    rw [clean]
    exact List.any_eq_false.2 fun w _ => by simp [inList]
  simp only [M_bind, lateFirst_ok s taken, M_get, good, M_illop_false, drainStores_settled settled,
    any_eq_false_of_forall_ne idle, M_wait_false, decide_eq_false (Nat.not_lt.2 source), decide_eq_false (Nat.not_lt.2 target),
    Bool.or_self, Bool.false_eq_true, if_false, allowed, unpoisoned, newItem_run, M_modify, State.withItem_myCore,
    State.withItem_item _ _ _ _ _ below, M_pure]

/-- Settles O24: the queued forms by their entry, the control forms by the equations of their branches. -/
theorem matrixResults : Obligations.MatrixResults := by
  constructor
  · intro h s on taken room space enters
    refine ⟨fun d held => ⟨mzero_enters on taken room space held,
      fun bank banks => mdrain_enters on taken room space held banks bank,
      fun ta tb a b k wa wb scales settled => mma_enters on taken room space k held wa wb scales settled,
      fun ty a b rows cols base pitch settled => ⟨mld_enters on taken room space rows cols held base pitch settled,
        fun r sat => mst_enters on taken room space r sat rows cols held base pitch settled⟩⟩,
      fun banks => ⟨fun ta tb a b k bank wa wb fits settled => mcnt_enters on taken room space banks wa wb fits settled,
        mmerge_enters on taken room space banks⟩,
      fun a b aen ben ablk bblk wa wb => mscl_enters on taken room space aen ben ablk bblk wa wb⟩
  · intro h s on taken idle
    refine ⟨exec_mwait_idle on taken, fun b pos le => ⟨_, exec_mqw_weight on pos le, ?_, rfl⟩,
      fun d claim release => ⟨fun now => exec_mcfg_answers on taken now d,
        fun granted early => exec_mcfg_waits on taken granted early d,
        fun queue saved free banks => State.claimDenied_free release queue saved free banks⟩, ?_⟩
    · rw [State.modCore_core, Core.setReg_reg]
    · intro d a b bus mask len ga gb src dst still good source target allowed clean settled below
      exact ⟨_, _, exec_mbcast_issued on taken still good source target allowed clean settled below,
        State.withItem_setItem_items s d .fld _ none below rfl, rfl, rfl, toNat_extractLsb' .., rfl⟩

end Sys2Proof.Machine
end


section
/-! What the tile-directory forms leave as it was (R249 to R251): the context that runs, every context's task and the
generations of the tile tables, through the recalls, pushes and writes that move a tile's lines. -/

namespace Sys2Proof.Machine

/-- The context that runs, every context's task, and the generations of every field's tile table. -/
def State.tileFrame (s : State) : Nat × (Nat → Task) × (Nat → SMap (BitVec 8)) :=
  (s.cur, fun c => (s.ctx c).task, fun g => (s.field g).tileGens)

theorem State.tileFrame_cur {s t : State} (same : t.tileFrame = s.tileFrame) : t.cur = s.cur := congrArg (·.1) same

theorem State.tileFrame_task {s t : State} (same : t.tileFrame = s.tileFrame) : t.me.task = s.me.task := by
  have tasks : (t.ctx t.cur).task = (s.ctx t.cur).task := congrFun (congrArg (·.2.1) same) t.cur
  exact tasks.trans (congrArg (fun c => (s.ctx c).task) (State.tileFrame_cur same))

theorem State.tileFrame_gens {s t : State} (same : t.tileFrame = s.tileFrame) (g : Nat) :
    (t.field g).tileGens = (s.field g).tileGens := congrFun (congrArg (·.2.2) same) g

/-! ## State operations -/

theorem State.modField_tileFrame {h : Field → Field} (keep : ∀ x, (h x).tileGens = x.tileGens) (s : State) (f : Nat) :
    (s.modField f h).tileFrame = s.tileFrame := by
  unfold State.tileFrame
  simp only [State.modField_field_eq Field.tileGens keep]
  rfl

@[simp] theorem State.modCore_tileFrame (s : State) (k : Nat) (h : Core → Core) : (s.modCore k h).tileFrame = s.tileFrame := rfl

@[simp] theorem State.modCluster_tileFrame (s : State) (k : Nat) (h : Cluster → Cluster) :
    (s.modCluster k h).tileFrame = s.tileFrame := rfl

@[simp] theorem State.bump_tileFrame (s : State) : s.bump.tileFrame = s.tileFrame := rfl

@[simp] theorem State.setHline_tileFrame (s : State) (f l : Nat) (h : HLine) : (s.setHline f l h).tileFrame = s.tileFrame :=
  State.modField_tileFrame (by intros; rfl) s f

@[simp] theorem State.setL2_tileFrame (s : State) (cl l : Nat) (x : L2Line) : (s.setL2 cl l x).tileFrame = s.tileFrame := rfl

@[simp] theorem State.delL2_tileFrame (s : State) (cl l : Nat) : (s.delL2 cl l).tileFrame = s.tileFrame := rfl

@[simp] theorem State.wakeMem_tileFrame (s : State) (p : Nat → Bool) : (s.wakeMem p).tileFrame = s.tileFrame := by
  refine congrArg (fun tasks => (s.cur, tasks, fun g => (s.field g).tileGens)) (funext fun c => ?_)
  unfold State.wakeMem State.ctx
  dsimp only
  have idle : (p c && ({} : Ctx).st == .waiting .memory) = false := Bool.and_false _
  rw [SMap.get_map (by intro x; split <;> rfl) _ _ (by simp only [idle, Bool.false_eq_true, if_false])]
  split <;> rfl

@[simp] theorem State.postRim_tileFrame (s : State) (f : Nat) (r : RReq) : (s.postRim f r).tileFrame = s.tileFrame := by
  unfold State.postRim
  extract_lets fd a r'
  split
  · exact State.modField_tileFrame (by intros; rfl) s f
  · rw [State.bump_tileFrame]
    exact State.modField_tileFrame (by intros; rfl) s f

@[simp] theorem State.postHome_tileFrame (s : State) (f : Nat) (r : HReq) : (s.postHome f r).tileFrame = s.tileFrame := by
  unfold State.postHome
  dsimp only
  split
  · rfl
  · rw [State.bump_tileFrame]
    exact State.modField_tileFrame (by intros; rfl) s f

@[simp] theorem State.homeDrop_tileFrame (s : State) (f l : Nat) : (s.homeDrop f l).tileFrame = s.tileFrame := by
  unfold State.homeDrop
  rw [State.setHline_tileFrame]
  split
  · rfl
  · exact State.postRim_tileFrame { s with agent := .none } ..

@[simp] theorem State.absorbAt_tileFrame (s : State) (f l : Nat) (data : LineData) (be : BitVec 64) (poison : Bool) :
    (s.absorbAt f l data be poison).tileFrame = s.tileFrame := by
  unfold State.absorbAt
  dsimp only
  split
  · exact State.setHline_tileFrame ..
  · rw [State.homeDrop_tileFrame, State.setHline_tileFrame]

@[simp] theorem State.homeEvict_tileFrame (s : State) (f k l : Nat) (data : LineData) (be : BitVec 64) (poison : Bool) :
    (s.homeEvict f k l data be poison).tileFrame = s.tileFrame := by
  unfold State.homeEvict
  rw [State.setHline_tileFrame]
  split
  · rfl
  · exact State.absorbAt_tileFrame ..

@[simp] theorem State.landEvicts_tileFrame (s : State) (f cl l : Nat) : (s.landEvicts f cl l).tileFrame = s.tileFrame := by
  unfold State.landEvicts
  extract_lets mine t
  have landed : t.tileFrame = s.tileFrame := by
    refine foldl_frame State.tileFrame (fun s r _ => ?_) s
    split
    · exact State.homeEvict_tileFrame ..
    · rfl
  split
  · exact (State.modField_tileFrame (by intros; rfl) ..).trans landed
  · exact landed

@[simp] theorem State.breakLeases_tileFrame (s : State) (cl l : Nat) : (s.breakLeases cl l).tileFrame = s.tileFrame := by
  refine foldl_frame State.tileFrame (fun s k _ => ?_) s
  split <;> rfl

@[simp] theorem State.raisePts_tileFrame (s : State) (k p : Nat) : (s.raisePts k p).tileFrame = s.tileFrame := by
  unfold State.raisePts
  split <;> rfl

@[simp] theorem State.raiseMarks_tileFrame (s : State) (ms : List Mark) :
    (ms.foldl (fun s m => s.raisePts m.core m.stamp) s).tileFrame = s.tileFrame :=
  foldl_frame State.tileFrame (fun _ _ _ => State.raisePts_tileFrame ..) s

@[simp] theorem State.evictL2_tileFrame (s : State) (cl l : Nat) (x : L2Line) : (s.evictL2 cl l x).tileFrame = s.tileFrame := by
  unfold State.evictL2
  simp

@[simp] theorem State.install_tileFrame (s : State) (cl l : Nat) (x : L2Line) : (s.install cl l x).tileFrame = s.tileFrame := by
  simp [State.install]

@[simp] theorem State.landPush_tileFrame (s : State) (cl l : Nat) : (s.landPush cl l).tileFrame = s.tileFrame := by
  unfold State.landPush
  split
  · rfl
  · dsimp only
    split
    · split
      · rfl
      · exact State.install_tileFrame ..
    · split
      · exact State.install_tileFrame ..
      · split
        · rfl
        · rw [State.install_tileFrame, State.evictL2_tileFrame, State.modCluster_tileFrame]

@[simp] theorem State.landFrom_tileFrame (s : State) (cl l : Nat) : (s.landFrom cl l).tileFrame = s.tileFrame := by
  unfold State.landFrom
  split
  · rfl
  · exact foldl_frame State.tileFrame (fun _ _ _ => State.landPush_tileFrame ..) s

@[simp] theorem State.recall_tileFrame (s : State) (f cl l : Nat) (keep : Option L2St) :
    (s.recall f cl l keep).tileFrame = s.tileFrame := by
  have written (t : State) (x : L2Line) : (if x.dirty = 0 then t
      else t.absorbAt f l x.data (wordBe x.valid) (x.poison || x.pw != 0)).tileFrame = t.tileFrame := by
    split
    · rfl
    · exact State.absorbAt_tileFrame ..
  unfold State.recall
  dsimp only
  split
  · simp
  · split
    · rw [State.wakeMem_tileFrame, State.delL2_tileFrame, State.raiseMarks_tileFrame, written]
      simp
    · rw [State.modCluster_tileFrame, State.setL2_tileFrame, State.raiseMarks_tileFrame, written]
      simp

@[simp] theorem State.recallAll_tileFrame (s : State) (f l : Nat) (ks : List Nat) : (s.recallAll f l ks).tileFrame = s.tileFrame :=
  foldl_frame State.tileFrame (fun _ _ _ => State.recall_tileFrame ..) s

@[simp] theorem State.collectLine_tileFrame (s : State) (f l : Nat) : (s.collectLine f l).tileFrame = s.tileFrame := by
  simp [State.collectLine]

@[simp] theorem State.giveBack_tileFrame (s : State) (f cl l : Nat) : (s.giveBack f cl l).tileFrame = s.tileFrame := by
  simp [State.giveBack]

@[simp] theorem State.logErr_tileFrame (s : State) (f : Nat) (cls : ErrCls) (a : ErrAt) :
    (s.logErr f cls a).tileFrame = s.tileFrame := by
  unfold State.logErr
  dsimp only
  exact State.modField_tileFrame (fun fd => by split <;> rfl) { s with slog := _ } f

@[simp] theorem State.corrected_tileFrame (s : State) (f pa : Nat) : (s.corrected f pa).tileFrame = s.tileFrame := by
  rw [State.corrected, State.logErr_tileFrame]
  exact State.modField_tileFrame (by intros; rfl) s f

theorem State.writeLine_tileFrame (s : State) (f pa : Nat) (k : BitVec 8) (i : Bool) (d : LineData) (be : BitVec 64)
    (poison : Bool) (asid : BitVec 16) (va : Nat) : (s.writeLine f pa k i d be poison asid va).tileFrame = s.tileFrame := by
  have stored (t : State) (h : Field → Field) (keep : ∀ x, (h x).tileGens = x.tileGens) :
      (t.modField f h).tileFrame = t.tileFrame := State.modField_tileFrame keep t f
  unfold State.writeLine
  dsimp only
  split
  · rfl
  · split
    · simp
    · split
      · split
        · simp
        · rw [State.logErr_tileFrame, stored _ _ (by intros; rfl)]
      · split
        · split
          · rw [State.logErr_tileFrame, stored _ _ (by intros; rfl)]
          · rw [stored _ _ (by intros; rfl)]
        · split
          · simp
          · split
            · rw [State.logErr_tileFrame, stored _ _ (by intros; rfl)]
            · split
              · simp
              · split
                · simp
                · rw [stored _ _ (by intros; rfl)]
                  split
                  · simp
                  · rfl

@[simp] theorem State.landWbs_tileFrame (s : State) (f l pa : Nat) (key : BitVec 8) (i : Bool) :
    (s.landWbs f l pa key i).tileFrame = s.tileFrame := by
  have written : (((s.field f).rreqs.filter fun r => r.wbOf l).foldl
      (fun s r => s.writeLine f pa key i r.data r.be r.poison r.asid r.va) s).tileFrame = s.tileFrame :=
    foldl_frame State.tileFrame (fun _ _ _ => State.writeLine_tileFrame ..) s
  unfold State.landWbs
  dsimp only
  split
  · exact written
  · exact (State.modField_tileFrame (by intros; rfl) ..).trans written

@[simp] theorem State.purge_tileFrame (s : State) (f vpage : Nat) (asid : BitVec 16) (pa : Nat) (key : BitVec 8) (i : Bool) :
    (s.purge f vpage asid pa key i).tileFrame = s.tileFrame := by
  refine foldl_frame State.tileFrame (fun s l _ => ?_) s
  dsimp only
  rw [State.setHline_tileFrame]
  split
  · simp
  · rw [State.writeLine_tileFrame]
    simp

@[simp] theorem State.purgeFrame_tileFrame (s : State) (f frame : Nat) : (s.purgeFrame f frame).tileFrame = s.tileFrame := by
  unfold State.purgeFrame
  split
  · rfl
  · exact (State.modField_tileFrame (by intros; rfl) ..).trans (State.purge_tileFrame ..)

theorem State.claimFrame_tileFrame {s t : State} {f frame vpage : Nat} {asid : BitVec 16} {x : XEnt}
    (claimed : s.claimFrame f frame vpage asid x = some t) : t.tileFrame = s.tileFrame := by
  have entered (u : State) (h : Field → Field) (keep : ∀ x, (h x).tileGens = x.tileGens) :
      ((u.modField f h).bump).tileFrame = u.tileFrame := State.modField_tileFrame keep u f
  unfold State.claimFrame at claimed
  dsimp only at claimed
  split at claimed
  · split at claimed
    · cases claimed
      exact entered _ _ (by intros; rfl)
    · split at claimed <;> cases claimed
      exact (entered _ _ (by intros; rfl)).trans (State.purgeFrame_tileFrame ..)
  · split at claimed
    · cases claimed
      exact entered _ _ (by intros; rfl)
    · split at claimed
      · cases claimed
        exact entered _ _ (by intros; rfl)
      · split at claimed <;> cases claimed
        exact (entered _ _ (by intros; rfl)).trans (State.purgeFrame_tileFrame ..)

@[simp] theorem State.landPushes_tileFrame (s : State) (t : Tile) : (s.landPushes t).tileFrame = s.tileFrame := by
  refine foldl_frame State.tileFrame (fun s k _ => ?_) s
  split
  · rfl
  · exact foldl_frame State.tileFrame (fun _ _ _ => State.landPush_tileFrame ..) s

@[simp] theorem State.demote_tileFrame (s : State) (f key : Nat) : (s.demote f key).tileFrame = s.tileFrame := by
  unfold State.demote
  split
  · rfl
  · refine (State.modField_tileFrame (by intros; rfl) ..).trans
      ((foldl_frame State.tileFrame (fun s l _ => ?_) _).trans (State.landPushes_tileFrame ..))
    dsimp only
    split
    · exact State.setHline_tileFrame ..
    · rfl

@[simp] theorem State.triggerTile_tileFrame (s : State) (f l : Nat) (cl : Option Nat) :
    (s.triggerTile f l cl).tileFrame = s.tileFrame := by
  unfold State.triggerTile
  split
  · rfl
  · split
    · rfl
    · split
      · rfl
      · exact State.demote_tileFrame ..

@[simp] theorem State.endSnoop_tileFrame (s : State) (f l : Nat) : (s.endSnoop f l).tileFrame = s.tileFrame := by
  unfold State.endSnoop
  split
  · exact State.modField_tileFrame (by intros; rfl) s f
  · rfl

@[simp] theorem State.markTile_tileFrame (s : State) (f key : Nat) (lines : List Nat) :
    (s.markTile f key lines).tileFrame = s.tileFrame :=
  foldl_frame State.tileFrame (fun _ _ _ => State.setHline_tileFrame ..) s

end Sys2Proof.Machine
end

section
/-! The meanings that the tile-directory forms run keep the context that runs and its task, wherever they answer (R249 to R251). -/

namespace Sys2Proof.Machine

/-- Where an action answers from a state, it keeps the frame of the tile operations. -/
structure KeepsTasks {α : Type} (m : M α) (s : State) : Prop where
  same : ∀ a t, m s = .ok a t → t.tileFrame = s.tileFrame

/-- Where an action answers from a state, that state is the one it ends in. -/
structure Reads {α : Type} (m : M α) (s : State) : Prop where
  same : ∀ a t, m s = .ok a t → t = s

section
variable {α β : Type} {m : M α} {g : α → M β} {s t : State}

theorem Reads.keeps (reads : Reads m s) : KeepsTasks m s := ⟨fun a t run => by rw [reads.same a t run]⟩

theorem reads_pure (a : α) (s : State) : Reads (pure a) s := ⟨fun _ _ run => by cases run; rfl⟩

theorem reads_throw (e : Stop) (s : State) : Reads (throw e : M α) s := ⟨fun _ _ run => by cases run⟩

theorem reads_waitIf (b : Bool) (w : WaitFor) (s : State) : Reads (waitIf b w) s := ⟨fun _ _ run => by cases b <;> cases run; rfl⟩

theorem reads_get (s : State) : Reads get s := ⟨fun _ _ run => by cases run; rfl⟩

theorem reads_bind (first : Reads m s) (then_ : ∀ a, Reads (g a) s) : Reads (m >>= g) s := ⟨fun b t run => by
  obtain ⟨a, u, ran, rest⟩ := bind_inv run
  cases first.same a u ran
  exact (then_ a).same b t rest⟩

theorem reads_get_bind {g : State → M β} (then_ : Reads (g s) s) : Reads (get >>= g) s := ⟨then_.same⟩

theorem keeps_bind (first : KeepsTasks m s) (then_ : ∀ a t, KeepsTasks (g a) t) : KeepsTasks (m >>= g) s := ⟨fun b t run => by
  obtain ⟨a, u, ran, rest⟩ := bind_inv run
  exact ((then_ a u).same b t rest).trans (first.same a u ran)⟩

theorem keeps_get_bind {g : State → M β} (then_ : KeepsTasks (g s) s) : KeepsTasks (get >>= g) s := ⟨then_.same⟩

theorem keeps_set (same : t.tileFrame = s.tileFrame) : KeepsTasks (set t) s := ⟨fun _ _ run => by cases run; exact same⟩

theorem keeps_modify {f : State → State} (same : (f s).tileFrame = s.tileFrame) : KeepsTasks (modify f) s := ⟨fun _ _ run => by
  cases run
  exact same⟩

end

/-! ## Snoops, fills and pages -/

theorem snoopHost_stops (f l : Nat) (inv : Bool) (s : State) : Reads (snoopHost f l inv) s := ⟨fun _ _ run => by cases run⟩

theorem hostClear_reads (f l : Nat) (write : Bool) (s : State) : Reads (hostClear f l write) s := by
  unfold hostClear
  refine reads_get_bind (reads_bind (reads_waitIf ..) fun _ => ?_)
  split
  · exact reads_pure ..
  · split
    · exact snoopHost_stops ..
    · exact reads_pure ..
  · exact snoopHost_stops ..

theorem ownReady_reads (f j l : Nat) (s : State) : Reads (ownReady f j l) s := by
  unfold ownReady
  exact reads_get_bind (reads_bind (reads_waitIf ..) fun _ => reads_bind (hostClear_reads ..) fun _ =>
    reads_get_bind (reads_waitIf ..))

theorem ownReadyAll_reads (f cl : Nat) (ls : List Nat) (s : State) : Reads (ownReadyAll f cl ls) s := by
  induction ls with
  | nil => exact reads_pure ..
  | cons l ls ih => exact reads_bind (ownReady_reads ..) fun _ => ih

theorem gatherTile_reads (f : Nat) (ls : List Nat) (s : State) : Reads (gatherTile f ls) s := by
  induction ls with
  | nil => exact reads_pure ..
  | cons l ls ih =>
    unfold gatherTile
    refine reads_get_bind ?_
    dsimp only
    split
    · exact reads_bind (reads_throw ..) fun _ => ih
    · exact ih

theorem homeData_reads (f l : Nat) (s : State) : Reads (homeData f l) s := by
  unfold homeData
  refine reads_get_bind ?_
  dsimp only
  split
  · exact reads_pure ..
  · split
    · exact reads_throw ..
    · exact ⟨fun _ _ run => by cases run⟩

theorem rimCheck_reads (va : Nat) (s : State) : Reads (rimCheck va) s := by
  unfold rimCheck
  refine reads_bind ⟨fun _ _ run => by cases run; rfl⟩ fun c => ?_
  split
  · exact reads_pure ..
  · exact reads_throw ..

theorem place_reads (va n align : Nat) (k : AccKind) (s : State) : Reads (place va n align k) s := by
  unfold place
  refine reads_get_bind ?_
  split
  · exact reads_throw ..
  · exact ⟨fun _ _ run => by cases run⟩
  · exact reads_pure ..

theorem checkPages_reads (ps : List Nat) (asid : BitVec 16) (s : State) : Reads (checkPages ps asid) s := by
  induction ps generalizing asid with
  | nil => exact reads_pure ..
  | cons p ps ih =>
    unfold checkPages
    exact reads_bind (reads_bind (rimCheck_reads ..) fun _ => place_reads ..) fun _ => reads_bind (ih _) fun _ => reads_pure ..

theorem takeFail_keeps (f l : Nat) (s : State) : KeepsTasks (takeFail f l) s := by
  unfold takeFail
  refine keeps_get_bind ?_
  split
  · exact (reads_pure ..).keeps
  · exact keeps_bind (keeps_set (State.modField_tileFrame (by intros; rfl) ..)) fun _ _ => (reads_pure ..).keeps

/-! ## Own of a line (R100, R111) -/

theorem unshareTile_tileFrame {s u t a : State} {f l : Nat} (run : s.unshareTile f l u = .ok a t) :
    t = u ∧ a.tileFrame = s.tileFrame := by
  cases marked : (s.hline f l).tile with
  | none =>
    simp only [State.unshareTile, marked, M_pure] at run
    cases run
    exact ⟨rfl, rfl⟩
  | some key =>
    cases listed : SMap.find? (s.field f).tiles key with
    | none =>
      simp only [State.unshareTile, marked, listed, M_pure] at run
      cases run
      exact ⟨rfl, rfl⟩
    | some tile =>
      simp only [State.unshareTile, marked, listed, M_ite, M_bind, M_pure, M_throw] at run
      split at run
      · cases run
        exact ⟨rfl, rfl⟩
      · split at run
        · cases run
        · cases run
          refine ⟨rfl, (State.modField_tileFrame (by intros; rfl) ..).trans (foldl_frame State.tileFrame (fun s l _ => ?_) s)⟩
          simp

theorem ownFrame_keeps (f l : Nat) (s : State) : KeepsTasks (ownFrame f l) s := by
  unfold ownFrame
  refine keeps_get_bind ?_
  split
  · exact (reads_pure ..).keeps
  · split
    · exact (reads_pure ..).keeps
    · split
      next claimed => exact keeps_set (State.claimFrame_tileFrame claimed)
      · exact (reads_throw ..).keeps

theorem homeGrant_keeps (f j l : Nat) (s : State) : KeepsTasks (homeGrant f j l) s := by
  unfold homeGrant
  refine keeps_bind (hostClear_reads ..).keeps fun _ s => keeps_bind (keeps_modify (State.triggerTile_tileFrame ..)) fun _ s =>
    keeps_get_bind ⟨fun _ t run => ?_⟩
  obtain ⟨a, u, unshared, rest⟩ := bind_inv run
  obtain ⟨rfl, same⟩ := unshareTile_tileFrame unshared
  refine (KeepsTasks.same (keeps_bind (keeps_set same) fun _ s => keeps_bind (ownReady_reads ..).keeps fun _ s =>
    keeps_bind (ownFrame_keeps ..) fun _ s => keeps_bind (keeps_modify (State.recallAll_tileFrame ..)) fun _ s =>
      keeps_modify ?_)) _ _ rest
  simp

theorem homeOwn_keeps (f j l : Nat) (s : State) : KeepsTasks (homeOwn f j l) s := by
  unfold homeOwn
  exact keeps_bind (homeGrant_keeps ..) fun _ s => keeps_get_bind (keeps_set rfl)

theorem ownAll_keeps (f cl : Nat) (ls : List Nat) (s : State) : KeepsTasks (ownAll f cl ls) s := by
  induction ls generalizing s with
  | nil => exact (reads_pure ..).keeps
  | cons l ls ih =>
    unfold ownAll
    refine keeps_get_bind ?_
    dsimp only
    split
    · refine keeps_bind (homeOwn_keeps ..) fun _ s => ?_
      split
      · exact keeps_bind (keeps_modify (State.giveBack_tileFrame ..)) fun _ s => ih s
      · exact ih s
    · exact ih s

/-! ## A tile's lines shared and moved (R112, R113) -/

theorem tileData_keeps (f l : Nat) (s : State) : KeepsTasks (tileData f l) s := by
  unfold tileData
  refine keeps_bind (takeFail_keeps ..) fun c s => ?_
  split
  · exact (reads_throw ..).keeps
  · exact (homeData_reads ..).keeps

theorem shareLine_keeps (f oc l : Nat) (s : State) : KeepsTasks (shareLine f oc l) s := by
  unfold shareLine
  refine keeps_get_bind ?_
  have moved (s : State) : KeepsTasks (do modify fun s => s.recall f oc l (some .s); tileData f l) s :=
    keeps_bind (keeps_modify (State.recall_tileFrame ..)) fun _ s => tileData_keeps ..
  dsimp only
  split
  · exact keeps_bind (reads_throw ..).keeps fun _ s => moved s
  · exact moved s

theorem shareTile_keeps (f oc cc : Nat) (ls : List Nat) (s : State) : KeepsTasks (shareTile f oc cc ls) s := by
  induction ls generalizing s with
  | nil => exact (reads_pure ..).keeps
  | cons l ls ih =>
    unfold shareTile
    refine keeps_bind (shareLine_keeps ..) fun h s => keeps_bind (ih s) fun _ s => keeps_modify ?_
    simp

theorem moveTile_keeps (f cc : Nat) (ls : List Nat) (s : State) : KeepsTasks (moveTile f cc ls) s := by
  induction ls generalizing s with
  | nil => exact (reads_pure ..).keeps
  | cons l ls ih =>
    unfold moveTile
    refine keeps_get_bind (keeps_bind (keeps_set (State.recallAll_tileFrame ..)) fun _ s =>
      keeps_bind (keeps_modify (State.setHline_tileFrame ..)) fun _ s => keeps_bind (tileData_keeps ..) fun h s =>
        keeps_bind (ih s) fun _ s => keeps_modify ?_)
    split
    · simp
    · rfl

end Sys2Proof.Machine
end

section
/-! Obligation TileResults (R249 to R251): TQRY, TREL, TFWD, TOWN and TDECL perform their operation at the tile's home and issue
an item that carries its status. -/

namespace Sys2Proof.Machine

/-- A tile form completes with a state as a test says, and with an item that carries a status word. -/
def AnswersTile (h : Hdr) (s : State) (d : GReg) (i : Instr) (w : Word) (after : State → Prop) : Prop :=
  ∃ t cl ls, exec i s = .next (bodyNext h t .next) ∧ after t ∧
    ∃ it, it ∈ (t.core s.myCore).items ∧ it.gd = d.toNat ∧ it.tid = s.me.task.tid ∧ it.kind = .tile cl ls ∧ it.status = some w

theorem tilePushTo_run (d : GReg) (w : Word) (cl : Nat) (ls : List Nat) (s : State) :
    tilePushTo d w cl ls s = .ok .next (s.withItem d .fld (.tile cl ls) (some w)) := rfl

theorem tileReplyTo_run (d : GReg) (w : Word) (s : State) :
    tileReplyTo d w s = .ok .next (s.withItem d .fld (.tile 0 []) (some w)) := rfl

/-- A form that ends with the reply of the home, in a state of the same task of the same context. -/
theorem answersTile_of_task {h : Hdr} {s u : State} {d : GReg} {i : Instr} {w : Word} {cl : Nat} {ls : List Nat}
    {after : State → Prop} (run : exec i s = .next (bodyNext h (u.withItem d .fld (.tile cl ls) (some w)) .next))
    (cur : u.cur = s.cur) (task : u.me.task = s.me.task) (left : after (u.withItem d .fld (.tile cl ls) (some w))) :
    AnswersTile h s d i w after := by
  have core : s.myCore = u.myCore := congrArg coreOf cur.symm
  refine ⟨_, cl, ls, run, left, u.itemFor d .fld (.tile cl ls) (some w), ?_, rfl, congrArg Task.tid task, rfl, rfl⟩
  rw [core, State.withItem_items]
  exact List.mem_append_right _ (List.mem_singleton_self _)

theorem answersTile_of_pushed {h : Hdr} {s u : State} {d : GReg} {i : Instr} {w : Word} {cl : Nat} {ls : List Nat}
    {after : State → Prop} (run : exec i s = .next (bodyNext h (u.withItem d .fld (.tile cl ls) (some w)) .next))
    (same : u.tileFrame = s.tileFrame) (left : after (u.withItem d .fld (.tile cl ls) (some w))) :
    AnswersTile h s d i w after := answersTile_of_task run (State.tileFrame_cur same) (State.tileFrame_task same) left

/-- The state in which a form of the running context works at the tile's home. -/
def State.asMe (s : State) : State := { s with agent := .cx s.cur }

theorem State.asMe_tileFrame (s : State) : s.asMe.tileFrame = s.tileFrame := rfl

/-- A state with one tile of a field changed. -/
def State.putTile (s : State) (f key : Nat) (t : Tile) : State :=
  s.modField f fun fd => { fd with tiles := SMap.put fd.tiles key t }

theorem State.putTile_tileFrame (s : State) (f key : Nat) (t : Tile) : (s.putTile f key t).tileFrame = s.tileFrame :=
  State.modField_tileFrame (by intros; rfl) s f

theorem State.putTile_find (s : State) (f key : Nat) (t : Tile) : SMap.find? ((s.putTile f key t).field f).tiles key = some t := by
  rw [State.putTile, State.modField_field, SMap.find_put_self]

/-- The state in which a tile's lines have taken their own states again, before its entry is freed. -/
def State.tileUnmarked (s : State) (f key : Nat) : State :=
  match SMap.find? (s.field f).tiles key with
  | some t => if t.dem then s else s.demote f key
  | none => s

theorem State.tileUnmarked_tileFrame (s : State) (f key : Nat) : (s.tileUnmarked f key).tileFrame = s.tileFrame := by
  unfold State.tileUnmarked
  split
  · split
    · rfl
    · exact State.demote_tileFrame ..
  · rfl

theorem State.freeTileEntry_eq (s : State) (f key : Nat) : s.freeTileEntry f key = (s.tileUnmarked f key).modField f fun fd =>
    { fd with tiles := SMap.del fd.tiles key, tileGens := SMap.put fd.tileGens key (SMap.get fd.tileGens key 0 + 1) } := rfl

theorem State.freeTileEntry_cur (s : State) (f key : Nat) : (s.freeTileEntry f key).cur = s.cur :=
  (State.tileFrame_cur (s.tileUnmarked_tileFrame f key) :)

theorem State.freeTileEntry_task (s : State) (f key : Nat) : (s.freeTileEntry f key).me.task = s.me.task :=
  (State.tileFrame_task (s.tileUnmarked_tileFrame f key) :)

theorem State.freeTileEntry_tiles (s : State) (f key : Nat) : SMap.find? ((s.freeTileEntry f key).field f).tiles key = none := by
  rw [State.freeTileEntry_eq, State.modField_field, SMap.find_del_self]

theorem State.freeTileEntry_gens (s : State) (f key : Nat) :
    SMap.get ((s.freeTileEntry f key).field f).tileGens key 0 = SMap.get (s.field f).tileGens key 0 + 1 := by
  rw [State.freeTileEntry_eq, State.modField_field, SMap.get_put_self, State.tileFrame_gens (s.tileUnmarked_tileFrame f key)]

theorem movedTo_tileFrame {s s1 s2 : State} {f cc : Nat} {ls : List Nat} (gathered : gatherTile f ls s.asMe = .ok () s1)
    (moved : moveTile f cc ls s1 = .ok () s2) : s2.tileFrame = s.tileFrame :=
  ((moveTile_keeps ..).same _ _ moved).trans ((gatherTile_reads f ls s.asMe).keeps.same _ _ gathered)

section
variable {h : Hdr} {s : State} (on : On h s) {d a b : GReg} {key : Nat} {tile : Tile}
  (names : s.tileOf s.myField (s.me.rg a) = some (key, tile))
include on names

theorem tqry_answers : AnswersTile h s d (.tqry h d a) (tqryWord tile) fun t => t.fields = s.fields :=
  answersTile_of_pushed (u := s) (cl := 0) (ls := [])
    (runIsa_ok on (by simp only [M_bind, M_get, names, tileReplyTo_run])) rfl rfl

theorem trel_answers (settled : s.Settled .fld) (owner : s.notOwner tile = false) :
    AnswersTile h s d (.trel h d a) 0 fun t => SMap.find? (t.field s.myField).tiles key = none ∧
      SMap.get (t.field s.myField).tileGens key 0 = SMap.get (s.field s.myField).tileGens key 0 + 1 :=
  answersTile_of_task (u := s.freeTileEntry s.myField key) (cl := 0) (ls := []) (runIsa_ok on (by
    simp only [M_bind, M_get, drainStores_settled settled, names, owner, Bool.false_eq_true, if_false, M_set, tileReplyTo_run]
    rfl)) (s.freeTileEntry_cur ..) (s.freeTileEntry_task ..) ⟨s.freeTileEntry_tiles .., s.freeTileEntry_gens ..⟩

theorem town_answers {s1 s2 : State} (settled : s.Settled .fld) (whole : tile.dem = false)
    (room : tile.owner = coreNum s.myCore ∨ (s.field s.myField).tilesOwned (coreNum s.myCore) < 64)
    (gathered : gatherTile s.myField tile.lines s.asMe = .ok () s1) (moved : moveTile s.myField s.myCl tile.lines s1 = .ok () s2) :
    AnswersTile h s d (.town h d a) 0 fun t =>
      SMap.find? (t.field s.myField).tiles key = some { tile with owner := coreNum s.myCore, sh := [] } := by
  have few : (tile.owner != coreNum s.myCore && decide (64 ≤ (s.field s.myField).tilesOwned (coreNum s.myCore))) = false := by
    rcases room with same | lt
    · simp [same]
    · simp [lt]
  refine answersTile_of_pushed (u := s2.putTile s.myField key { tile with owner := coreNum s.myCore, sh := [] }) (cl := 0)
    (ls := []) (runIsa_ok on ((bind_ok (drainStores_settled settled)).trans ((bind_ok (M_get s)).trans ?_)))
    ((State.putTile_tileFrame ..).trans (movedTo_tileFrame gathered moved)) (State.putTile_find ..)
  simp only [names, whole, few, Bool.false_eq_true, if_false]
  exact (bind_ok rfl).trans ((bind_ok gathered).trans ((bind_ok moved).trans rfl))

section
variable {k : Nat} (settled : s.Settled .fld) (high : bits (s.me.rg b) 32 32 = 0)
  (core : s.locCore ((s.me.rg b).setWidth 32) = some k) (here : fieldOf k = s.myField) (owner : s.notOwner tile = false)
  (whole : tile.dem = false)
include settled high core here owner whole

theorem tfwd_answers_owner (mine : clusterOf k = tile.ownerCl s.myField) (give : Bool) :
    AnswersTile h s d (.tfwd h d a b give) 0 fun t => t.fields = s.fields :=
  answersTile_of_pushed (u := s) (cl := 0) (ls := []) (runIsa_ok on (by
    simp only [M_bind, M_get, drainStores_settled settled, names, owner, high, core, here, whole, mine, bne_self_eq_false,
      Bool.false_eq_true, if_false, if_true, tileReplyTo_run]
    rfl)) rfl rfl

theorem tfwd_answers_share {s1 : State} (other : clusterOf k ≠ tile.ownerCl s.myField)
    (shared : shareTile s.myField (tile.ownerCl s.myField) (clusterOf k) tile.lines s.asMe = .ok () s1) :
    AnswersTile h s d (.tfwd h d a b false) 0 fun t =>
      SMap.find? (t.field s.myField).tiles key = some { tile with sh := addShare tile.sh (clusterOf k) } := by
  refine answersTile_of_pushed (u := s1.putTile s.myField key { tile with sh := addShare tile.sh (clusterOf k) })
    (cl := clusterOf k) (ls := tile.lines)
    (runIsa_ok on ((bind_ok (drainStores_settled settled)).trans ((bind_ok (M_get s)).trans ?_)))
    ((State.putTile_tileFrame ..).trans ((shareTile_keeps _ _ _ _ s.asMe).same _ _ shared)) (State.putTile_find ..)
  simp only [names, owner, high, core, here, whole, other, bne_self_eq_false, Bool.false_and, Bool.false_eq_true, if_false, if_true]
  exact (bind_ok rfl).trans ((bind_ok shared).trans rfl)

theorem tfwd_answers_give {s1 s2 : State} (other : clusterOf k ≠ tile.ownerCl s.myField)
    (few : (s.field s.myField).tilesOwned (coreNum k) < 64) (gathered : gatherTile s.myField tile.lines s.asMe = .ok () s1)
    (moved : moveTile s.myField (clusterOf k) tile.lines s1 = .ok () s2) :
    AnswersTile h s d (.tfwd h d a b true) 0 fun t =>
      SMap.find? (t.field s.myField).tiles key = some { tile with owner := coreNum k, sh := [] } := by
  refine answersTile_of_pushed (u := s2.putTile s.myField key { tile with owner := coreNum k, sh := [] }) (cl := 0)
    (ls := []) (runIsa_ok on ((bind_ok (drainStores_settled settled)).trans ((bind_ok (M_get s)).trans ?_)))
    ((State.putTile_tileFrame ..).trans (movedTo_tileFrame gathered moved)) (State.putTile_find ..)
  simp only [names, owner, high, core, here, whole, other, decide_eq_false (Nat.not_le.2 few), bne_self_eq_false, Bool.and_false,
    Bool.false_eq_true, if_false, if_true]
  exact (bind_ok rfl).trans ((bind_ok gathered).trans ((bind_ok moved).trans rfl))

end
end

/-! ## TDECL (R108, R111, R112) -/

/-- The tile that a TDECL enters in the table. -/
def declaredTile (core base pitch rows cols size : Nat) (asid : BitVec 16) (gen : BitVec 8) : Tile :=
  { owner := core, base := base, pitch := pitch, rows := rows, cols := cols, size := size, asid := asid, gen := gen, dem := false
    sh := [] }

theorem tdecl_answers {h : Hdr} {s s0 s1 s2 : State} (on : On h s) {d a b : GReg} {lgs : BitVec 2} {asid : BitVec 16} {key : Nat}
    {base pitch cols rows size : Nat} {fp lines : List Nat}
    (eb : base = (s.me.rg a).toNat) (ep : pitch = bits (s.me.rg b) 32 32) (ec : cols = bits (s.me.rg b) 14 18 + 1)
    (er : rows = bits (s.me.rg b) 0 14 + 1) (es : size = 2 ^ lgs.toNat) (ef : fp = footprint base pitch rows cols size)
    (el : lines = fp.map fun x => lineKey asid (x * 64)) (shape : shapeOk base pitch rows cols size = true)
    (pages : checkPages (pagesOf fp) s.me.asid s.asMe = .ok asid s0)
    (fits : s0.tdeclStatus s.myField (coreNum s.myCore) lines (sliceOf (lineKey asid base)) = 0)
    (ready : ownReadyAll s.myField s.myCl lines s0 = .ok () s1) (owned : ownAll s.myField s.myCl lines s1 = .ok () s2)
    (free : (s2.field s.myField).freeTile (sliceOf (lineKey asid base)) = some key) :
    AnswersTile h s d (.tdecl h d a b lgs)
      (BitVec.ofNat 64 ((SMap.get (s2.field s.myField).tileGens key 0).toNat * 2 ^ 24 + key)) fun t =>
        SMap.find? (t.field s.myField).tiles key = some (declaredTile (coreNum s.myCore) base pitch rows cols size asid
          (SMap.get (s2.field s.myField).tileGens key 0)) := by
  subst eb ep ec er es ef
  have same : s2.tileFrame = s.tileFrame := calc
    s2.tileFrame = s1.tileFrame := (ownAll_keeps ..).same _ _ owned
    _ = s0.tileFrame := (ownReadyAll_reads ..).keeps.same _ _ ready
    _ = s.tileFrame := (checkPages_reads _ _ s.asMe).keeps.same _ _ pages
  refine answersTile_of_pushed (u := (s2.markTile s.myField key lines).putTile s.myField key (declaredTile ..)) (cl := 0) (ls := [])
    (runIsa_ok on ((bind_ok (M_get s)).trans ?_))
    ((State.putTile_tileFrame ..).trans ((State.markTile_tileFrame ..).trans same)) (State.putTile_find ..)
  subst el
  simp only [shape, Bool.not_true, Bool.false_eq_true, if_false]
  refine (bind_ok rfl).trans ((bind_ok pages).trans ((bind_ok (M_get s0)).trans ?_))
  simp only [fits]
  refine (bind_ok ready).trans ((bind_ok owned).trans ((bind_ok (M_get s2)).trans ?_))
  simp only [free]
  refine (bind_ok rfl).trans ?_
  simp only [execTdecl.statusWord, tileHandle, Nat.zero_mul, Nat.zero_add]
  rfl

/-- Settles O25: each form by what its home does, with the item that carries the status read off the reply; what the recalls
and pushes of a tile's lines keep is a frame. -/
theorem tileResults : Obligations.TileResults := by
  intro h d a b s s1 s2 on
  refine ⟨fun key tile names => ⟨tqry_answers on names, fun settled owner => trel_answers on names settled owner,
    fun settled whole room gathered moved => town_answers on names settled whole room gathered moved,
    fun k settled high core here owner whole => ⟨fun mine give => tfwd_answers_owner on names settled high core here owner whole mine give,
      fun other shared => tfwd_answers_share on names settled high core here owner whole other shared,
      fun other few gathered moved => tfwd_answers_give on names settled high core here owner whole other few gathered moved⟩⟩, ?_⟩
  intro lgs asid key s0 base pitch cols rows size fp lines shape pages fits ready owned free
  obtain ⟨t, cl, ls, run, found, item⟩ := tdecl_answers on rfl rfl rfl rfl rfl rfl rfl shape pages fits ready owned free
  exact ⟨t, cl, ls, run, ⟨_, found, rfl, rfl, rfl, rfl, rfl, rfl, rfl, rfl, rfl⟩, item⟩

end Sys2Proof.Machine
end


section
/-! Obligation TransferResults (R294 to R302): a record, a chain, a put or a remote atomic that passes its checks is queued with
its item; CCANCEL answers the number of records it has ended, CQRY the state of the channel. -/

namespace Sys2Proof.Machine

/-- The queue of items of a core that belong to transfers has an entry free. -/
def State.transferRoom (s : State) (k : Nat) : Prop :=
  ((s.core k).items.filter fun i => i.kind.transfer && i.status.isNone).length < 32

theorem entryWait_ok {s : State} (room : s.transferRoom s.myCore) : entryWait s = .ok () s := by
  simp only [entryWait, M_bind, M_get, decide_eq_false (Nat.not_le.2 room), M_wait_false]

theorem chanWait_ok {s : State} {ch : BitVec 2} (room : ((s.cluster s.myCl).chan ch).queue.length < 16) :
    chanWait ch s = .ok () s := by
  simp only [chanWait, M_bind, M_get, decide_eq_false (Nat.not_le.2 room), M_wait_false]

/-! ## Records and chains (R294, R296) -/

/-- The entry that a record or a chain head of the running context puts on a channel. -/
def State.chanEntry (s : State) (addr : Nat) (chain : Bool) (item : Nat) : ChanEnt :=
  { addr := addr, chain := chain, core := s.myCore, cx := s.cur, tid := s.me.task.tid, item := item, asid := s.me.asid
    lvl := s.me.lvl, extn := s.me.extn }

theorem State.withItem_chanEntry (s : State) (d : GReg) (sc : Scope) (kind : ItemKind) (status : Option Word) (addr : Nat)
    (chain : Bool) (item : Nat) : (s.withItem d sc kind status).chanEntry addr chain item = s.chanEntry addr chain item := by
  simp only [State.chanEntry, State.withItem_me]
  rfl

/-- A state with one channel of the running context's cluster changed. -/
def State.modMyChan (s : State) (ch : BitVec 2) (g : Channel → Channel) : State :=
  s.modCluster s.myCl fun x => x.setChan ch (g (x.chan ch))

theorem State.modMyChan_chan (s : State) (ch : BitVec 2) (g : Channel → Channel) :
    ((s.modMyChan ch g).cluster s.myCl).chan ch = g ((s.cluster s.myCl).chan ch) := by
  rw [State.modMyChan, State.modCluster_cluster, Cluster.setChan_chan]

/-- A state with one more entry on a channel. -/
def State.chanPushed (s : State) (ch : BitVec 2) (e : ChanEnt) : State :=
  s.modMyChan ch fun x => { x with queue := x.queue ++ [e] }

theorem chanPush_run (ch : BitVec 2) (addr : Nat) (chain : Bool) (item : Nat) (s : State) :
    chanPush ch addr chain item s = .ok ⟨⟩ (s.chanPushed ch (s.chanEntry addr chain item)) := rfl

theorem State.chanPushed_queue (s : State) (ch : BitVec 2) (e : ChanEnt) :
    (((s.chanPushed ch e).cluster s.myCl).chan ch).queue = ((s.cluster s.myCl).chan ch).queue ++ [e] :=
  congrArg Channel.queue (s.modMyChan_chan ch _)

section
variable {h : Hdr} {s : State} (on : On h s) {d a b : GReg} {ch : BitVec 2}
include on

theorem exec_cpy_queues (settled : s.Settled .sys) (check : recordCheck (s.me.rg a).toNat s = .ok () s)
    (space : ((s.cluster s.myCl).chan ch).queue.length < 16) (room : s.transferRoom s.myCore) :
    exec (.cpy h d a ch) s = .next (bodyNext h ((s.withItem d .fld (.cpy ch.toNat) none).chanPushed ch
      (s.chanEntry (s.me.rg a).toNat false s.fresh)) .next) :=
  runIsa_ok on (by
    simp only [M_bind, M_me, check, entryWait_ok room, chanWait_ok space, storesDone_ok settled, newItem_run, chanPush_run,
      State.withItem_chanEntry, M_pure])

theorem exec_cchain_queues (settled : s.Settled .sys) (check : recordCheck (s.me.rg a).toNat s = .ok () s)
    (space : ((s.cluster s.myCl).chan ch).queue.length < 16) (head : (s.me.rg a).toNat ≠ 0) :
    exec (.cchain h a ch) s = .next (bodyNext h (s.bump.chanPushed ch (s.chanEntry (s.me.rg a).toNat true s.fresh)) .next) :=
  runIsa_ok on (by
    simp only [M_bind, M_me, head, if_false, M_ite, check, chanWait_ok space, storesDone_ok settled, M_freshId,
      chanPush_run, M_pure]
    rfl)

theorem exec_cchain_rereads (settled : s.Settled .sys) (head : (s.me.rg a).toNat = 0) :
    exec (.cchain h a ch) s = .next (bodyNext h (s.modMyChan ch fun x => x.reread s.me.task.tid) .next) :=
  runIsa_ok on (by
    simp only [M_bind, M_me, head, if_true, M_ite, storesDone_ok settled, M_modify, M_pure]
    rfl)

/-! ## CCANCEL (R297) -/

theorem exec_ccancel_ended {all : Bool} {n : Nat} (begun : s.me.cancelled = some n)
    (ended : ((List.range 4).all fun j => !((all || j == ch.toNat) &&
      ((s.cluster s.myCl).chan (BitVec.ofNat 2 j)).cancelling s.me.task.tid)) = true) :
    exec (.ccancel h d ch all) s = .next (bodyNext h
      (s.setMe ({ s.me with cancelled := none }.wg d (BitVec.ofNat 64 (n % 65536)))) .next) := by
  have none_left : ((List.range 4).any fun j => (all || j == ch.toNat) &&
      ((s.cluster s.myCl).chan (BitVec.ofNat 2 j)).cancelling s.me.task.tid) = false := by
    rw [← Bool.not_eq_true', List.not_any_eq_all_not]
    exact ended
  refine runIsa_ok on ?_
  simp only [M_bind, M_get, begun, Option.isNone_some, Bool.false_eq_true, if_false, none_left, M_wait_false, M_me, Option.getD_some,
    M_modMe, M_pure]

/-! ## PUT and PUTV (R299, R300) -/

theorem exec_put_queues {sc : Scope} {dk : Bool} {len : BitVec 16} {vc : BitVec 2} {cen : Bool} (near : (s.me.rg b).toNat < peerBase)
    (aligned : (s.me.rg b).toNat % 8 = 0) (source : putRange (s.me.rg b).toNat ((len.toNat + 1) * 8) .load s = .ok () s)
    (dest : putDest (s.me.rg a) (s.me.rg (a + 1)) ((len.toNat + 1) * 8) dk cen s = .ok () s) (settled : s.Settled .fld)
    (room : s.transferRoom s.myCore) : exec (.put h sc dk d a b len vc cen) s = .next (bodyNext h
      (s.withItem d sc (.put (s.me.rg a).toNat (s.me.rg (a + 1)).toNat dk cen vc.toNat (some (s.me.rg b).toNat)
        ((len.toNat + 1) * 8) []) none) .next) := by
  have low : ¬ 2 ^ 57 ≤ (s.me.rg b).toNat := by
    have : peerBase < 2 ^ 57 := by decide
    omega
  have form : putForm (s.me.rg b).toNat s = .ok () s := by
    simp only [putForm, low, aligned, if_false, ne_eq, not_true_eq_false, M_pure]
  have here : isPeer (s.me.rg b).toNat = false := decide_eq_false (Nat.not_le.2 near)
  refine runIsa_ok on ?_
  simp only [M_bind, M_me, form, here, Bool.false_eq_true, if_false, source, dest, entryWait_ok room, drainStores_settled settled,
    newItem_run, M_pure]

theorem exec_putv_queues {sc : Scope} {dk : Bool} {v : VReg} {len : BitVec 4} {vc : BitVec 2} {cen : Bool}
    (dest : putDest (s.me.rg a) (s.me.rg (a + 1)) ((len.toNat + 1) * 8) dk cen s = .ok () s) (settled : s.Settled .fld)
    (room : s.transferRoom s.myCore) : exec (.putv h sc dk d a v len vc cen) s = .next (bodyNext h
      (s.withItem d sc (.put (s.me.rg a).toNat (s.me.rg (a + 1)).toNat dk cen vc.toNat none ((len.toNat + 1) * 8)
        (vecWords (s.me.rv v) (len.toNat + 1))) none) .next) := by
  refine runIsa_ok on ?_
  simp only [M_bind, M_me, dest, entryWait_ok room, drainStores_settled settled, newItem_run, M_pure]

end

/-! ## RAMO (R302) -/

/-- The context after the issue of a remote atomic: gd, and the second register of CAS2, await the item. -/
def Ctx.ramoIssued (c : Ctx) (op : AtOp) (d : GReg) (id : Nat) : Ctx :=
  (if op = .cas2 then { c with pend := c.pend ++ [((d + 1).toNat, id)] } else c).pushEntry
    { seq := 0, st := .pending, dst := some (.g d.toNat), dst2 := if op = .cas2 then some (.g (d + 1).toNat) else none }

theorem Ctx.ramoIssued_g (c : Ctx) (op : AtOp) (d : GReg) (id : Nat) : (c.ramoIssued op d id).g = c.g := by
  unfold Ctx.ramoIssued
  rw [Ctx.pushEntry_g]
  split <;> rfl

theorem Ctx.ramoIssued_fstat (c : Ctx) (op : AtOp) (d : GReg) (id : Nat) : (c.ramoIssued op d id).fstat = c.fstat := by
  unfold Ctx.ramoIssued
  rw [Ctx.pushEntry_fstat]
  split <;> rfl

theorem Ctx.ramoIssued_pend {c : Ctx} {x : Nat × Nat} (waits : x ∈ c.pend) (op : AtOp) (d : GReg) (id : Nat) :
    x ∈ (c.ramoIssued op d id).pend := by
  unfold Ctx.ramoIssued
  rw [Ctx.pushEntry_pend]
  split
  · exact List.mem_append_left _ waits
  · exact waits

/-- A remote atomic is issued to a peer that its scope does not reach (R302, Table 13-1). -/
def State.ramoBeyond (s : State) (va : Nat) (ord : Order) (sc : Scope) : Prop :=
  ord ≠ .rlx ∧ ∃ i o, s.space s.myCore va = .peer i o ∧ scopeHolds sc (pimKind (s.pimCtl s.myField i)) = false

/-- The order of a remote atomic: what of it holds at the home. -/
def ramoOrder (va : Nat) (ord : Order) (sc : Scope) (s : State) : M (Option Scope) :=
  match s.space s.myCore va with
  | .peer i _ => orderBeyond i (if ord = .rlx then none else some sc)
  | _ => pure (if ord = .rlx then none else some sc)

theorem ramoOrder_beyond {s : State} {va : Nat} {ord : Order} {sc : Scope} (beyond : s.ramoBeyond va ord sc) :
    ramoOrder va ord sc s s = .ok none (s.setMe s.me.setScopeW) := by
  obtain ⟨ordered, i, o, peer, unheld⟩ := beyond
  simp only [ramoOrder, peer, orderBeyond, M_bind, M_get, if_neg ordered, unheld, Bool.false_eq_true, if_false, M_modMe, M_pure]

theorem ramoOrder_held {s : State} {va : Nat} {ord : Order} {sc : Scope} (held : ¬ s.ramoBeyond va ord sc) :
    ramoOrder va ord sc s s = .ok (if ord = .rlx then none else some sc) s := by
  cases place : s.space s.myCore va with
  | peer i o =>
    by_cases relaxed : ord = .rlx
    · simp only [ramoOrder, place, relaxed, if_true, orderBeyond, M_bind, M_get, M_pure]
    · cases holds : scopeHolds sc (pimKind (s.pimCtl s.myField i))
      · exact absurd ⟨relaxed, i, o, place, holds⟩ held
      · simp only [ramoOrder, place, if_neg relaxed, orderBeyond, M_bind, M_get, holds, if_true, M_pure]
  | _ => simp only [ramoOrder, place, M_pure]

/-- The item of a remote atomic. -/
def State.ramoKind (s : State) (op : AtOp) (dw : Bool) (ord : Order) (d a b : GReg) (vc : BitVec 2) (o : Option Scope) : ItemKind :=
  .ramo (s.me.rg a).toNat op dw (BitVec.ofNat 128 (atomicArgs op (AtOp.bytes op dw) s.me d b).1)
    (BitVec.ofNat 128 (atomicArgs op (AtOp.bytes op dw) s.me d b).2) s.me.nextSeq vc.toNat (o.isSome && Order.acquires ord)
    (o.isSome && Order.releases ord)

/-- The state in which a remote atomic has been issued, from the one that its order has left. -/
def State.ramoSent (s : State) (op : AtOp) (sc : Scope) (d : GReg) (kind : ItemKind) : State :=
  (s.withItem d sc kind none).setMe ((s.withItem d sc kind none).me.ramoIssued op d s.fresh)

/-- The end of a remote atomic's issue: the stores that its release orders, and the item. -/
def ramoIssue (op : AtOp) (ord : Order) (sc : Scope) (d : GReg) (kind : ItemKind) (o : Option Scope) : M Flow := do
  match o with
  | some sc => if Order.releases ord then drainStores sc
  | none => pure ()
  let id ← newItem d sc kind none
  modMe fun c => if op = .cas2 then { c with pend := c.pend ++ [((d + 1).toNat, id)] } else c
  modMe fun c => c.pushEntry { seq := 0, st := .pending, dst := some (.g d.toNat)
                               dst2 := if op = .cas2 then some (.g (d + 1).toNat) else none }
  return .next

theorem ramoIssue_run {u : State} {ord : Order} {o : Option Scope}
    (drained : ∀ sc, o = some sc → Order.releases ord = true → drainStores sc u = .ok () u)
    (op : AtOp) (sc : Scope) (d : GReg) (kind : ItemKind) :
    ramoIssue op ord sc d kind o u = .ok .next (u.ramoSent op sc d kind) := by
  cases o with
  | none => simp only [ramoIssue, M_bind, M_pure, newItem_run, M_modMe, State.setMe_setMe, State.setMe_me]; rfl
  | some sc' =>
    cases releases : Order.releases ord
    · simp only [ramoIssue, releases, Bool.false_eq_true, if_false, M_bind, M_pure, newItem_run, M_modMe, State.setMe_setMe,
        State.setMe_me]
      rfl
    · simp only [ramoIssue, releases, if_true, drained sc' rfl releases, M_bind, M_pure, newItem_run, M_modMe,
        State.setMe_setMe, State.setMe_me]
      rfl

theorem exec_ramo_sent {h : Hdr} {s u : State} (on : On h s) {op : AtOp} {dw : Bool} {ord : Order} {sc : Scope} {d a b : GReg}
    {vc : BitVec 2} {o : Option Scope} (check : ramoCheck (s.me.rg a).toNat (AtOp.bytes op dw) s = .ok () s)
    (ring : s.me.ringFull = false) (room : s.transferRoom s.myCore)
    (order : ramoOrder (s.me.rg a).toNat ord sc s s = .ok o u)
    (drained : ∀ sc, o = some sc → Order.releases ord = true → drainStores sc u = .ok () u) :
    exec (.ramo h op dw ord sc d a b vc) s =
      .next (bodyNext h (u.ramoSent op sc d (s.ramoKind op dw ord d a b vc o)) .next) := by
  have issued := ramoIssue_run drained op sc d (s.ramoKind op dw ord d a b vc o)
  refine runIsa_ok on ((bind_ok (M_me s)).trans ((bind_ok check).trans ((bind_ok (waitIf_ok ring _ s)).trans
    ((bind_ok (entryWait_ok room)).trans ((bind_ok (M_get s)).trans ?_)))))
  unfold ramoOrder at order
  cases place : s.space s.myCore (s.me.rg a).toNat <;> simp only [place] at order ⊢ <;> exact (bind_ok order).trans issued

theorem State.ramoSent_me (u : State) (op : AtOp) (sc : Scope) (d : GReg) (kind : ItemKind) :
    (u.ramoSent op sc d kind).me = (u.withItem d sc kind none).me.ramoIssued op d u.fresh := State.setMe_me ..

theorem State.ramoSent_g (u : State) (op : AtOp) (sc : Scope) (d : GReg) (kind : ItemKind) :
    (u.ramoSent op sc d kind).me.g = u.me.g := by
  rw [State.ramoSent_me, Ctx.ramoIssued_g, State.withItem_me]

theorem State.ramoSent_fstat (u : State) (op : AtOp) (sc : Scope) (d : GReg) (kind : ItemKind) :
    (u.ramoSent op sc d kind).me.fstat = u.me.fstat := by
  rw [State.ramoSent_me, Ctx.ramoIssued_fstat, State.withItem_me]

theorem newItem_ramoSent (u : State) (op : AtOp) (sc : Scope) (d : GReg) (kind : ItemKind) :
    NewItem u (u.ramoSent op sc d kind) d sc kind none := by
  obtain ⟨it, items, cx, tid, gd, scope, kept, status, waits⟩ := newItem_withItem u d sc kind none
  refine ⟨it, items, cx, tid, gd, scope, kept, status, ?_⟩
  rw [State.ramoSent_me]
  exact Ctx.ramoIssued_pend waits ..

/-- An item is new in a state whatever flags the context that issues it has set. -/
theorem newItem_of_flagged {s t : State} {d : GReg} {sc : Scope} {kind : ItemKind}
    (new : NewItem (s.setMe s.me.setScopeW) t d sc kind none) : NewItem s t d sc kind none := by
  obtain ⟨it, items, cx, tid, rest⟩ := new
  refine ⟨it, items, cx, tid.trans ?_, rest⟩
  rw [State.setMe_me]
  rfl

theorem scope_of_order {ord : Order} {sc sc' : Scope} (some_ : (if ord = .rlx then none else some sc) = some sc') : sc' = sc := by
  split at some_ <;> cases some_
  rfl

theorem order_acquires (ord : Order) (sc : Scope) :
    ((if ord = .rlx then none else some sc : Option Scope).isSome && Order.acquires ord) = Order.acquires ord := by
  cases ord <;> rfl

theorem order_releases (ord : Order) (sc : Scope) :
    ((if ord = .rlx then none else some sc : Option Scope).isSome && Order.releases ord) = Order.releases ord := by
  cases ord <;> rfl

/-- Settles O26: each form run on its checks, with the entry or the item that it leaves read off the state. -/
theorem transferResults : Obligations.TransferResults := by
  intro h d a b ch s on
  dsimp only
  refine ⟨?_, fun settled check space => ⟨fun room => ?_, fun head => ?_⟩, fun settled head => ?_, fun all n begun ended => ?_,
    fun sc dk len vc cen near aligned source dest settled room => ?_, fun sc dk v len vc cen dest settled room => ?_,
    fun op dw ord sc vc check ring room drains => ?_⟩
  · exact runReg_on (fun c => c.wg d (cqryWord ((s.cluster s.myCl).chan ch) c.task.tid)) on
  · refine ⟨_, exec_cpy_queues on settled check space room, newItem_withItem .., _, State.chanPushed_queue .., ?_⟩
    exact ⟨rfl, rfl, rfl, rfl, rfl, rfl⟩
  · exact ⟨_, exec_cchain_queues on settled check space head, ⟨_, State.chanPushed_queue .., rfl, rfl, rfl, rfl, rfl, rfl⟩, rfl⟩
  · exact ⟨_, exec_cchain_rereads on settled head, State.modMyChan_chan .., rfl⟩
  · exact exec_ccancel_ended on begun ended
  · exact ⟨_, exec_put_queues on near aligned source dest settled room, newItem_withItem ..⟩
  · exact ⟨_, exec_putv_queues on dest settled room, newItem_withItem ..⟩
  · by_cases beyond : s.ramoBeyond (s.me.rg a).toNat ord sc
    · have sent := exec_ramo_sent (d := d) (b := b) (vc := vc) on check ring room (ramoOrder_beyond beyond) nofun
      refine ⟨_, false, false, sent, newItem_of_flagged (newItem_ramoSent ..), ?_, fun _ => ⟨rfl, rfl, ?_⟩, fun held =>
        absurd beyond held⟩
      · rw [State.ramoSent_g, State.setMe_me]
        rfl
      · rw [State.ramoSent_fstat, State.setMe_me]
        rfl
    · have sent := exec_ramo_sent (d := d) (b := b) (vc := vc) on check ring room (ramoOrder_held beyond)
        fun sc' same releases => by rw [scope_of_order same]; exact drainStores_settled (drains releases)
      exact ⟨_, _, _, sent, newItem_ramoSent .., State.ramoSent_g .., fun is => absurd is beyond,
        fun _ => ⟨order_acquires .., order_releases .., State.ramoSent_fstat ..⟩⟩

end Sys2Proof.Machine
end


section
/-! Obligation ItemSteps (R230, R248, R249, R263, R295 to R305, R387): the steps that move and end items. -/

namespace Sys2Proof.Machine

/-! ## Status writes (R249, R295) -/

@[simp] theorem State.acquireAll_ctx (s : State) (k c : Nat) : (s.acquireAll k).ctx c = s.ctx c := rfl

@[simp] theorem State.dropItem_ctx (s : State) (k id c : Nat) : (s.dropItem k id).ctx c = s.ctx c := rfl

theorem Ctx.wake_rg (c : Ctx) (r : GReg) : c.wake.rg r = c.rg r := by
  unfold Ctx.wake
  split <;> rfl

section
variable {k id : Nat} {i : Item} {s : State} (named : s.item? k id = some i)
include named

theorem exec_statusWriteback_gives (other : ∀ va op dw b c seq vc acq rel, i.kind ≠ .ramo va op dw b c seq vc acq rel)
    (far : ∀ cl ls, i.kind ≠ .tile cl ls) : exec (.statusWriteback k id) s = .next (s.giveStatus k id) := by
  rw [exec_statusWriteback, execStatusWriteback, named]
  dsimp only
  split
  next kind => exact (other _ _ _ _ _ _ _ _ _ kind).elim
  next kind => exact (far _ _ kind).elim
  · rfl

theorem State.giveStatus_ctx {w : Word} {c : Nat} (status : i.status = some w) (ctx : s.ctxOfTask k i.tid = some c) :
    (s.giveStatus k id).ctx c = (if (s.ctx c).pend.any fun p => p.2 == id then ((s.ctx c).unpend id).wg (BitVec.ofNat 6 i.gd) w
      else s.ctx c).wake := by
  simp only [State.giveStatus, named, status, ctx, State.dropItem_ctx, State.acquireAll_ctx, State.setCtx_ctx]

theorem State.giveStatus_rg {w : Word} {c : Nat} (status : i.status = some w) (ctx : s.ctxOfTask k i.tid = some c)
    (awaits : (i.gd, id) ∈ (s.ctx c).pend) (pos : 0 < i.gd) (lt : i.gd < 64) :
    ((s.giveStatus k id).ctx c).rg (BitVec.ofNat 6 i.gd) = w := by
  have pends : ((s.ctx c).pend.any fun p => p.2 == id) = true := List.any_eq_true.2 ⟨_, awaits, beq_self_eq_true id⟩
  have written : BitVec.ofNat 6 i.gd ≠ 0#6 := fun zero => by
    have := congrArg BitVec.toNat zero
    simp at this
    omega
  rw [State.giveStatus_ctx named status ctx, if_pos pends, Ctx.wake_rg]
  exact Ctx.rg_wg _ _ _ written

theorem exec_tileReply_gives {cl : Nat} {ls : List Nat} (kind : i.kind = .tile cl ls)
    (landed : ∀ p ∈ (s.cluster cl).pushes, p.1 ∉ ls) : exec (.tileReply k id) s = .next (s.giveStatus k id) := by
  have none_left : ((s.cluster cl).pushes.any fun (p : Nat × LineData × Bool) => ls.contains p.1) = false :=
    List.any_eq_false.2 fun p mem => by simpa using landed p mem
  rw [exec_tileReply, execTileReply, named]
  simp only [kind, none_left, Bool.false_eq_true, if_false]

/-! ## Remote atomics (R302, R303) -/

theorem exec_ramoReply_done {va : Nat} {op : AtOp} {dw : Bool} {b c : BitVec 128} {seq : BitVec 16} {vc cx : Nat} {acq rel : Bool}
    (kind : i.kind = .ramo va op dw b c seq vc acq rel) (given : i.status.isSome = true) (ctx : s.ctxOfTask k i.tid = some cx) :
    ∃ t, exec (.ramoReply k id) s = .next t ∧ t.ctx cx = ((s.ctx cx).ramoDone i va op dw seq).wake := by
  obtain ⟨w, status⟩ := Option.isSome_iff_exists.1 given
  rw [exec_ramoReply, execRamoReply, named]
  simp only [kind, status, Option.isNone_some, Bool.false_eq_true, if_false, ctx]
  refine ⟨_, rfl, ?_⟩
  rw [State.dropItem_ctx]
  split
  · rw [State.acquireAll_ctx, State.setCtx_ctx]
  · rw [State.setCtx_ctx]

theorem exec_ramoExecute_runs {va : Nat} {op : AtOp} {dw : Bool} {b c : BitVec 128} {seq : BitVec 16} {vc : Nat} {acq rel : Bool}
    {j : Item} {s1 : State} (kind : i.kind = .ramo va op dw b c seq vc acq rel) (open_ : i.status = none) (here : i.away = false)
    (run : ramoRun k i va op dw b c vc (acq || rel) s = .ok j s1) :
    exec (.ramoExecute k id) s = .next (s1.setItem k j) := by
  rw [exec_ramoExecute, execRamoExecute, named]
  simp only [kind, open_, here, Option.isSome_none, Bool.false_or, Bool.false_eq_true, if_false, run]

/-! ## Broadcasts (R248) -/

theorem exec_mbcastComplete_writes {off : Nat} {bus : Bool} {mask : BitVec 8} {ws : List (BitVec 32)}
    (kind : i.kind = .mbcast off bus mask ws)
    (open_ : i.status = none) (free : s.busTaken k id bus = false) :
    exec (.mbcastComplete k id) s = .next ((s.broadcast (busClusters (clusterOf k) bus mask) i.at_ off
      (ws.flatMap fun w => natBytes w.toNat 4)).endItem k i (mbWord codeDone)) := by
  rw [exec_mbcastComplete, execMbcastComplete, named]
  simp only [kind, open_, free, Option.isSome_none, Bool.false_or, Bool.false_eq_true, if_false]

end

/-! ## Puts (R299 to R301, R305) -/

section
variable {cl k id : Nat} {i : Item} {s : State} (named : s.itemIn cl id = some (k, i)) (alive : i.killed = false)
  (open_ : i.status = none) (good : i.bad = 0)
include named alive open_ good

theorem exec_putLand_steps {j : Item} {s1 : State} (step : putStep k i s = .ok j s1) :
    exec (.putLand cl id) s = .next (s1.setItem k j) := by
  rw [exec_putLand, execPutLand, named]
  simp only [open_, alive, good, Option.isSome_none, bne_self_eq_false, Bool.or_false, Bool.false_eq_true, if_false, step]

theorem exec_putComplete_ends (put : i.isPut = true) (acked : i.unacked = 0) (landed : i.landed = true)
    (sent : (s.field (fieldOf k)).hostAwaits i.id = false) : exec (.putComplete cl id) s =
      .next ((s.modField (fieldOf k) fun f => f.dropTags i.id).endItem k i (itemWord i.vc codeDone false 0)) := by
  have code : i.putCode = some codeDone := by
    simp [Item.putCode, put, open_, acked, alive, good, landed]
  rw [exec_putComplete, execPutComplete, named]
  simp only [code, sent, Bool.false_eq_true, if_false]

end

/-! ## The matrix unit (R230) -/

theorem matrixStep_done {cl j : Nat} {e : MqEnt} {rest : List MqEnt} {s s1 : State} (turn : s.mxCore cl = some j)
    (head : (s.core (clusterCore cl + j)).mq = e :: rest) (done : tileStep cl e s = .ok .done s1)
    (sent : (s1.field (fieldOf (clusterCore cl + j))).hostAwaits e.eid = false) :
    matrixStep cl s = (s1.mqDone e).modCluster cl fun c => { c with rrCore := j, rrLeft :=
      (if (s.cluster cl).rrLeft ≠ 0 ∧ j = (s.cluster cl).rrCore % 8 then (s.cluster cl).rrLeft
        else bits ((s.core (clusterCore cl + j)).reg 0x080) 0 4) - 1 } := by
  simp only [matrixStep, turn, head, done, sent, Bool.false_eq_true, if_false]

/-- Settles O37: each step run on the item that it names. -/
theorem itemSteps : Obligations.ItemSteps := by
  intro k id i s named
  refine ⟨fun given => ⟨fun kinds => ⟨exec_statusWriteback_gives named ?_ ?_, fun c w status ctx awaits pos lt =>
      State.giveStatus_rg named status ctx awaits pos lt⟩, fun cl ls kind landed => exec_tileReply_gives named kind landed,
      fun va op dw b c seq vc acq rel cx kind ctx => exec_ramoReply_done named kind given ctx⟩,
    fun open_ => ⟨fun off bus mask ws kind free => exec_mbcastComplete_writes named kind open_ free,
      fun va op dw b c seq vc acq rel j s1 kind here run => exec_ramoExecute_runs named kind open_ here run,
      fun cl found alive => ⟨fun good j s1 step => exec_putLand_steps found alive open_ good step,
        fun good put acked landed sent => exec_putComplete_ends found alive open_ good put acked landed sent⟩⟩,
    ⟨_, rfl, rfl⟩, fun cl j e rest s1 turn head done sent => by
      rw [exec_matrixExecute, execMatrixExecute, matrixStep_done turn head done sent]⟩
  · rintro va op dw b c seq vc acq rel kind
    rcases kinds with ⟨_, is⟩ | ⟨_, _, _, _, _, _, _, _, is⟩ | ⟨_, _, _, _, is⟩ <;> cases is.symm.trans kind
  · rintro cl ls kind
    rcases kinds with ⟨_, is⟩ | ⟨_, _, _, _, _, _, _, _, is⟩ | ⟨_, _, _, _, is⟩ <;> cases is.symm.trans kind

end Sys2Proof.Machine
end


section
/-! Obligation ExportImportSteps (R315, R316): exported entries and their generations, import requests and their replies. -/

namespace Sys2Proof.Machine

/-- A field of bits reads what was written to it. -/
theorem bits_setBits_self (w : Word) {lo n : Nat} (fits : lo + n ≤ 64) (v : Nat) : bits (setBits w lo n v) lo n = v % 2 ^ n := by
  refine Nat.eq_of_testBit_eq fun i => ?_
  rw [testBit_bits, Nat.testBit_mod_two_pow]
  by_cases lt : i < n
  · rw [getLsbD_setBits _ _ _ _ (by omega), if_pos (by omega), Nat.add_sub_cancel_left]
  · simp [lt]

/-! ## Export entries (R315) -/

theorem Field.hexctl_disable {f : Field} {x : Nat} {v : Word} (on : (f.reg (bankReg 0xA0A x)).getLsbD 63 = true)
    (off : v.getLsbD 63 = false) (same : v &&& hexMask = f.reg (bankReg 0xA0A x) &&& hexMask) :
    (f.hexctl x v).reg (bankReg 0xA0A x) = setBits (setBits (f.reg (bankReg 0xA0A x)) 63 1 0) 53 8
      ((genOf (f.reg (bankReg 0xA0A x)) + 1) % 256) := by
  simp only [Field.hexctl, on, off, same, bne_self_eq_false, Bool.or_false, Bool.false_eq_true, if_false, if_true, Field.setReg_reg]

theorem Field.hexctl_enable {f : Field} {x : Nat} (off : (f.reg (bankReg 0xA0A x)).getLsbD 63 = false) (v : Word) :
    (f.hexctl x v).reg (bankReg 0xA0A x) = (f.reg (bankReg 0xA0A x) &&& ~~~(hexMask ||| 0x8000000000000000#64)) |||
      (v &&& (hexMask ||| 0x8000000000000000#64)) := by
  simp only [Field.hexctl, off, Bool.false_eq_true, if_false, Field.setReg_reg]

/-- What a write takes from the new word under a mask, it takes under a part of the mask. -/
theorem and_of_masked_write (old v m e : Word) : ((old &&& ~~~(m ||| e)) ||| (v &&& (m ||| e))) &&& m = v &&& m := by
  refine BitVec.eq_of_getLsbD_eq fun i lt => ?_
  simp only [BitVec.getLsbD_and, BitVec.getLsbD_or, BitVec.getLsbD_not, lt, decide_true, Bool.true_and]
  cases m.getLsbD i <;> simp

theorem State.hexWrite_field (s : State) (f : Nat) (v : Word) :
    (s.hexWrite f v).field f = (s.field f).hexctl (bits ((s.field f).reg 0xA08) 0 8) v := State.modField_field ..

theorem exec_exportDisable_counts {f : Nat} {v : Word} {s : State} {n : Nat}
    (entry : n = bankReg 0xA0A (bits ((s.field f).reg 0xA08) 0 8)) (off : v.getLsbD 63 = false)
    (on : ((s.field f).reg n).getLsbD 63 = true) (same : v &&& hexMask = (s.field f).reg n &&& hexMask) :
    ∃ t, exec (.exportDisable f v) s = .next t ∧ ((t.field f).reg n).getLsbD 63 = false ∧
      bits ((t.field f).reg n) 53 8 = (bits ((s.field f).reg n) 53 8 + 1) % 256 := by
  subst entry
  have reg := congrArg (fun fd : Field => fd.reg (bankReg 0xA0A (bits ((s.field f).reg 0xA08) 0 8))) (s.hexWrite_field f v)
  rw [Field.hexctl_disable on off same] at reg
  refine ⟨s.hexWrite f v, ?_, ?_, ?_⟩
  · rw [exec_exportDisable, execExportDisable, off]
    rfl
  · rw [reg, getLsbD_setBits _ _ _ _ (by omega), if_neg (by omega), getLsbD_setBits _ _ _ _ (by omega), if_pos (by omega)]
    exact Nat.zero_testBit _
  · rw [reg, bits_setBits_self _ (by omega)]
    exact Nat.mod_mod ..

theorem exec_exportEnable_stores {f : Nat} {v : Word} {s : State} {n : Nat}
    (entry : n = bankReg 0xA0A (bits ((s.field f).reg 0xA08) 0 8)) (on : v.getLsbD 63 = true)
    (off : ((s.field f).reg n).getLsbD 63 = false) :
    ∃ t, exec (.exportEnable f v) s = .next t ∧ ((t.field f).reg n).getLsbD 63 = true ∧ (t.field f).reg n &&& hexMask = v &&& hexMask := by
  subst entry
  have reg := congrArg (fun fd : Field => fd.reg (bankReg 0xA0A (bits ((s.field f).reg 0xA08) 0 8))) (s.hexWrite_field f v)
  rw [Field.hexctl_enable off] at reg
  refine ⟨s.hexWrite f v, ?_, ?_, ?_⟩
  · rw [exec_exportEnable, execExportEnable, on]
    rfl
  · have bit : (hexMask ||| 0x8000000000000000#64).getLsbD 63 = true := by decide
    rw [reg, BitVec.getLsbD_or, BitVec.getLsbD_and, BitVec.getLsbD_and, BitVec.getLsbD_not, bit, on, off]
    rfl
  · rw [reg, and_of_masked_write]

/-! ## Import requests (R316) -/

theorem exec_importEnable_asks {f : Nat} {v : Word} {s : State} {slot : Nat} (named : slot = bits ((s.field f).reg 0xA0C) 0 10)
    (on : v.getLsbD 63 = true) (idle : (s.field f).imports = []) (off : ((s.field f).reg (bankReg 0xA0E slot)).getLsbD 63 = false)
    (own : bits ((s.field f).reg (bankReg 0xA0D slot)) 48 16 = 0) (plain : bits ((s.field f).reg (bankReg 0xA0D slot)) 32 12 = 0) :
    ∃ t, exec (.importEnable f v) s = .next t ∧
      (t.field f).imports = [{ id := s.fresh, slot := slot, ns := s.ns, src := (s.field f).reg (bankReg 0xA0D slot) }] := by
  subst named
  refine ⟨s.askImport f (bits ((s.field f).reg 0xA0C) 0 10), ?_, ?_⟩
  · have here : (0 : Nat) ≠ hostMod := by decide
    simp only [exec_importEnable, execImportEnable, Field.asking, idle, List.any_nil, on, Bool.not_false, Bool.and_true, if_true,
      State.pimctl, off, own, plain, bne_self_eq_false, Bool.and_false, Bool.or_false, Bool.not_true, Bool.false_eq_true, if_false, here]
  · simp only [State.askImport, own, true_or, if_true, State.bump_field, State.modField_field, idle, List.nil_append]

theorem exec_importRequest_answers {f g handle slot : Nat} {i : Import} {s : State}
    (out : (s.field g).imports.find? (fun i => i.slot == slot && i.reply.isNone) = some i) (own : bits i.src 48 16 = 0)
    (field : bits i.src 44 4 = f) (named : bits i.src 0 32 = handle) : exec (.importRequest f g handle slot) s =
      .next (s.modField g fun fd => fd.importReplied i.id (s.exportAnswer f handle 0 g)) := by
  simp only [exec_importRequest, execImportRequest, out, own, field, named, beq_self_eq_true, Bool.true_or, Bool.true_and, if_true]

/-- The field after the end of an import request. -/
def Field.importEnded (fd : Field) (i : Import) (kind : Nat) (r : Nat × Bool × Bool × Nat) : Field :=
  if r.1 = 0 then { fd with imports := fd.imports.filter fun x => x.id != i.id }.importOk i.slot kind r.2.1 r.2.2.1 r.2.2.2 i.src
  else { fd with imports := fd.imports.filter fun x => x.id != i.id }.importRefuse i.slot r.1

theorem State.endImport_field (s : State) (f : Nat) (i : Import) (r : Nat × Bool × Bool × Nat) : (s.endImport f i r).field f =
    (s.field f).importEnded i (if bits i.src 48 16 = 0 ∨ bits i.src 48 16 = s.modId then 0 else 1) r := by
  unfold State.endImport
  dsimp only
  split
  · exact State.modField_field ..
  · rw [State.replyTo, State.modCtx_field]
    exact State.modField_field ..

theorem Field.importOk_reg (f : Field) (slot kind : Nat) (rd wr : Bool) (size : Nat) (src : Word) :
    (f.importOk slot kind rd wr size src).reg (bankReg 0xA0E slot) = BitVec.ofNat 64
      (2 ^ 63 + kind * 2 ^ 56 + (if rd then 2 ^ 55 else 0) + (if wr then 2 ^ 54 else 0) + size % 2 ^ 21) := Field.setReg_reg ..

theorem Field.importOk_src (f : Field) (slot kind : Nat) (rd wr : Bool) (size : Nat) (src d : Word) :
    SMap.get (f.importOk slot kind rd wr size src).impSrc slot d = src := SMap.get_put_self ..

/-- PIMCTL of a granted import has EN set. -/
theorem importOk_enabled {kind : Nat} (le : kind ≤ 1) (rd wr : Bool) (size : Nat) : (BitVec.ofNat 64
    (2 ^ 63 + kind * 2 ^ 56 + (if rd then 2 ^ 55 else 0) + (if wr then 2 ^ 54 else 0) + size % 2 ^ 21)).getLsbD 63 = true := by
  have small : size % 2 ^ 21 < 2 ^ 21 := Nat.mod_lt _ (Nat.two_pow_pos _)
  rw [BitVec.getLsbD_ofNat, Nat.testBit, Nat.shiftRight_eq_div_pow]
  cases rd <;> cases wr <;> simp <;> omega

theorem State.endImport_granted {s : State} {f : Nat} {i : Import} {r : Nat × Bool × Bool × Nat} (granted : r.1 = 0) :
    (((s.endImport f i r).field f).reg (bankReg 0xA0E i.slot)).getLsbD 63 = true ∧ (s.endImport f i r).pimSrc f i.slot = i.src := by
  rw [State.pimSrc, State.endImport_field, Field.importEnded, if_pos granted, Field.importOk_reg, Field.importOk_src]
  refine ⟨importOk_enabled ?_ .., rfl⟩
  split <;> omega

/-- Settles O38: each step by the entry or the request that it names. -/
theorem exportImportSteps : Obligations.ExportImportSteps := by
  intro f v s
  refine ⟨fun off on same => exec_exportDisable_counts rfl off on same, fun on off => exec_exportEnable_stores rfl on off,
    fun on idle off own plain => exec_importEnable_asks rfl on idle off own plain,
    fun g handle slot i out own field named => exec_importRequest_answers out own field named, fun slot i r found reply => ⟨?_, ?_⟩,
    fun slot i late => ?_⟩
  · rw [exec_importReply, execImportReply, found]
    simp only [reply, Option.getD_some]
  · intro granted
    have hit := List.find?_some found
    simp only [Bool.and_eq_true, beq_iff_eq] at hit
    rw [← hit.1]
    exact State.endImport_granted granted
  · rw [exec_importTimeout, execImportTimeout, late]

end Sys2Proof.Machine
end


section
/-! Obligation OpticalSteps (R318 to R322): the slot table, the rotation and its windows, flits and acknowledgements, fibres and the
time lock. -/

namespace Sys2Proof.Machine

/-! ## The slot tables and the rotation (R318, R319) -/

theorem Field.setReg_reg_ne (f : Field) {num other : Nat} (ne : other ≠ num) (v : Word) : (f.setReg num v).reg other = f.reg other :=
  SMap.get_put_ne _ _ _ _ _ ne

@[simp] theorem Field.rotated_reg (f : Field) (now num : Nat) : (f.rotated now).reg num = f.reg num := by
  unfold Field.rotated
  dsimp only
  split <;> rfl

@[simp] theorem Field.rotated_landing (f : Field) (now : Nat) : (f.rotated now).optical.landing = f.optical.landing := by
  unfold Field.rotated
  dsimp only
  split <;> rfl

@[simp] theorem Field.rotated_queueTo (f : Field) (now dest : Nat) : (f.rotated now).queueTo dest = f.queueTo dest := by
  unfold Field.rotated
  dsimp only
  split <;> rfl

theorem Field.oslot_bad {f : Field} {now modId : Nat} {v : Word} (bad : slotBad v modId = true) {n : Nat} (lt : n < 64) :
    ((f.oslot now modId n v).reg 0xA12).getLsbD 63 = true ∧ (f.oslot now modId n v).reg (0xA40 + n) = f.reg (0xA40 + n) := by
  simp only [Field.oslot, bad, if_true]
  rw [Field.setReg_reg, Field.setReg_reg_ne _ (by omega), getLsbD_setBits _ _ _ _ (by omega), if_pos (by omega), Field.rotated_reg]
  exact ⟨rfl, rfl⟩

theorem Field.oslot_good {f : Field} {now modId : Nat} {v : Word} (good : slotBad v modId = false) (n : Nat) :
    (f.oslot now modId n v).reg (0xA40 + n) = v &&& ~~~0x3F000000#64 := by
  simp only [Field.oslot, good, Bool.false_eq_true, if_false, Field.setReg_reg]

theorem exec_oslotWrite_writes {n : Nat} (lt : n < 64) (f : Nat) (v : Word) (s : State) :
    exec (.oslotWrite f n v) s = .next (s.modField f fun fd => fd.oslot s.ns s.modId n v) := by
  rw [exec_oslotWrite, execOslotWrite, if_pos lt]

theorem Field.octl_starts {f : Field} {v : Word} (on : v.getLsbD 63 = true) (was : (f.reg 0xA10).getLsbD 63 = false) (now : Nat) :
    (f.octl now v).optical.running = true ∧ (f.octl now v).reg 0xA10 = v &&& 0x800000000000003F#64 := by
  simp only [Field.octl, on, was, Bool.false_eq_true, if_false, if_true]
  exact ⟨trivial, Field.setReg_reg ..⟩

theorem exec_opticalStart_writes {v : Word} (on : v.getLsbD 63 = true) (f : Nat) (s : State) :
    exec (.opticalStart f v) s = .next (s.modField f fun fd => fd.octl s.ns v) := by
  rw [exec_opticalStart, execOpticalStart, on]
  rfl

/-- Where the rotation before has ended, the optical group stands in the one that runs at a time. -/
theorem Field.rotated_optical {f : Field} {now : Nat} (runs : f.optical.running = true)
    (ended : f.optical.rotStart + period f.optical.table ≤ now) (long : period f.slots ≠ 0) : (f.rotated now).optical =
      { f.optical with
        rotStart := f.optical.rotStart + period f.optical.table +
          (now - (f.optical.rotStart + period f.optical.table)) / period f.slots * period f.slots
        table := f.slots, open_ := none
        rot := (if f.optical.table.isEmpty then f.optical.rot else f.optical.rot + 1) +
          (now - (f.optical.rotStart + period f.optical.table)) / period f.slots } := by
  have begins : (f.optical.running && decide (f.optical.rotStart + period f.optical.table ≤ now) && period f.slots != 0) = true := by
    simp [runs, ended, long]
  simp only [Field.rotated, begins, if_true]

theorem State.landAll_of_landing_nil {s : State} {f : Nat} (none_left : (s.field f).optical.landing = []) : s.landAll f = s := by
  rw [State.landAll, none_left, State.landFlits]

theorem exec_rotationStart_turns {f : Nat} {s : State} (none_left : (s.field f).optical.landing = []) :
    exec (.rotationStart f) s = .next (s.modField f fun fd => fd.rotated s.ns) := by
  rw [exec_rotationStart, execRotationStart, State.landAll_of_landing_nil]
  rw [State.modField_field, Field.rotated_landing, none_left]

theorem State.ackAgain_landing {f : Nat} {s : State} (none_left : (s.field f).optical.landing = []) (x : Flit) :
    ((s.ackAgain f x).field f).optical.landing = [] := by
  unfold State.ackAgain
  dsimp only
  split
  · exact none_left
  · rw [State.modField_field]
    exact none_left

/-! ## Transmit windows (R320) -/

theorem Field.openWindow_queueTo {f : Field} {dest : Nat} (empty : f.queueTo dest = []) (slot budget : Nat) :
    (f.openWindow slot budget dest).queueTo dest = [] := by
  unfold Field.queueTo Field.openWindow at *
  dsimp only
  rw [SMap.get_map (fun x => by split <;> rfl) _ _ (by rw [if_pos rfl]; rfl), if_pos rfl, empty]
  rfl

section
variable {f : Nat} {s : State}

theorem exec_slotWindowOpen_opens {n dest budget : Nat} (locked : s.locked = true)
    (window : ((s.field f).rotated s.ns).window s.ns = some (n, dest, budget))
    (shut : ((s.field f).rotated s.ns).optical.open_ = none) (empty : (s.field f).queueTo dest = []) :
    exec (.slotWindowOpen f) s =
      .next ((s.modField f fun fd => fd.rotated s.ns).modField f fun fd => fd.openWindow n budget dest) := by
  have left : ((((s.field f).rotated s.ns).openWindow n budget dest).queueTo dest) = [] :=
    Field.openWindow_queueTo ((Field.rotated_queueTo ..).trans empty) n budget
  have lock : (s.modField f fun fd => fd.rotated s.ns).locked = true := locked
  have now : (s.modField f fun fd => fd.rotated s.ns).ns = s.ns := rfl
  have closed : (none == some n : Bool) = false := rfl
  simp only [exec_slotWindowOpen, execSlotWindowOpen, lock, Bool.not_true, Bool.false_eq_true, if_false, now, State.modField_field,
    window, shut, Option.map_none, closed, left, List.length_nil, State.serveQueue]

theorem exec_slotWindowClose_closes {w : Nat × Nat} (opened : ((s.field f).rotated s.ns).optical.open_ = some w)
    (over_ : ((s.field f).rotated s.ns).window s.ns = none) : exec (.slotWindowClose f) s =
      .next ((s.modField f fun fd => fd.rotated s.ns).modField f fun fd =>
        { fd with optical := { fd.optical with open_ := none } }) := by
  have now : (s.modField f fun fd => fd.rotated s.ns).ns = s.ns := rfl
  have other : (none != some w.1 : Bool) = true := rfl
  simp only [exec_slotWindowClose, execSlotWindowClose, now, State.modField_field, opened, over_, Option.map_none, Option.map_some,
    Option.isSome_some, other, Bool.true_and, if_true]

/-! ## Flits that arrive (R318, R320, R321) -/

section
variable {x : Flit} (locked : s.locked = true) (here : x.dest = s.modId) (up : (s.field f).inReset = false)
  (none_left : (s.field f).optical.landing = [])
include locked here up

theorem exec_opticalFlitReceive_early (early : SMap.get (s.field f).optical.recvSeq (recvKey x) 0 < x.seq) :
    exec (.opticalFlitReceive f x true) s = .next s := by
  simp only [exec_opticalFlitReceive, execOpticalFlitReceive, locked, here, up, early, Bool.not_true, Bool.or_false,
    Bool.false_eq_true, if_false, ne_eq, not_true_eq_false, if_true]

include none_left

theorem exec_opticalFlitReceive_next {s1 : State} (next : x.seq = SMap.get (s.field f).optical.recvSeq (recvKey x) 0)
    (lands : flitLands f x 0 (s.accepted f x) = .ok () s1) :
    exec (.opticalFlitReceive f x true) s = .next (s1.landOver f x codeDone) := by
  have waiting : ((s.accepted f x).field f).optical.landing = [(x, 0)] := by
    rw [State.accepted, State.modField_field, none_left]
    rfl
  simp only [exec_opticalFlitReceive, execOpticalFlitReceive, locked, here, up, next, lt_self_iff_false, Bool.not_true, Bool.or_false,
    Bool.false_eq_true, if_false, ne_eq, not_true_eq_false, State.landAll, waiting, State.landFlits, List.contains_nil, lands]

theorem exec_opticalFlitReceive_again (again : x.seq < SMap.get (s.field f).optical.recvSeq (recvKey x) 0) :
    exec (.opticalFlitReceive f x true) s = .next (s.ackAgain f x) := by
  have late : ¬ SMap.get (s.field f).optical.recvSeq (recvKey x) 0 < x.seq := Nat.not_lt.2 (Nat.le_of_lt again)
  simp only [exec_opticalFlitReceive, execOpticalFlitReceive, locked, here, up, again, late, Bool.not_true, Bool.or_false,
    Bool.false_eq_true, if_false, ne_eq, not_true_eq_false, if_true,
    State.landAll_of_landing_nil (State.ackAgain_landing none_left x)]

end
end

/-! ## Fibres and the time base (R321, R322) -/

/-- The fibres that are left when one is lost. -/
theorem getLsbD_without (w : BitVec 16) (n m : Nat) :
    (w &&& ~~~(1#16 <<< n)).getLsbD m = (w.getLsbD m && decide (m ≠ n)) := by
  rw [BitVec.getLsbD_and, BitVec.getLsbD_not, BitVec.getLsbD_shiftLeft, BitVec.getLsbD_one]
  cases held : w.getLsbD m
  · rfl
  · have small : m < 16 := BitVec.lt_of_getLsbD held
    have one : (!(!decide (m < n) && decide (m - n = 0))) = !decide (m = n) := by
      rw [Bool.eq_iff_iff]
      simp
      omega
    simpa [small] using one

theorem exec_fibreLoss_loses {f n : Nat} {s : State} (held : (s.field f).optical.fibres.getLsbD n = true) :
    ∃ t, exec (.fibreLoss f n) s = .next t ∧
      ∀ m, (t.field f).optical.fibres.getLsbD m = ((s.field f).optical.fibres.getLsbD m && decide (m ≠ n)) := by
  refine ⟨_, by rw [exec_fibreLoss, execFibreLoss, held, if_pos rfl], fun m => ?_⟩
  rw [State.logErr_field_eq Field.optical (by intros; rfl), State.modField_field]
  exact getLsbD_without ..

theorem exec_timeLockLoss_loses {s : State} (locked : s.locked = true) (follower : s.gm = false) :
    ∃ t, exec .timeLockLoss s = .next t ∧ t.locked = false := by
  refine ⟨_, by rw [exec_timeLockLoss, execTimeLockLoss, locked, follower]; rfl, rfl⟩

section
variable {off : BitVec 32} {s : State} (follower : s.gm = false) (stepped : s.stepped = true)
include follower stepped

theorem exec_timeLockRegain_locks (lost : s.locked = false) (low : -100 ≤ off.toInt) (high : off.toInt ≤ 100) :
    exec (.timeLockRegain off) s = .next { s with locked := true, stepped := true, toff := off } := by
  simp only [exec_timeLockRegain, execTimeLockRegain, follower, stepped, lost, low, high, Bool.false_eq_true, if_false, Bool.not_true,
    Bool.not_false, Bool.and_false, Bool.false_and, decide_true, Bool.and_true, if_true]

theorem exec_timeLockRegain_measures (stays : s.locked = true ∨ off.toInt < -100 ∨ 100 < off.toInt) :
    exec (.timeLockRegain off) s = .next { s with toff := off } := by
  have no : (!s.locked && decide (-100 ≤ off.toInt) && decide (off.toInt ≤ 100)) = false := by
    rcases stays with locked | low | high
    · simp [locked]
    · simp [Int.not_le.2 low]
    · simp [Int.not_le.2 high]
  simp only [exec_timeLockRegain, execTimeLockRegain, follower, stepped, no, Bool.false_eq_true, if_false, Bool.not_true,
    Bool.and_false, Bool.false_and]

end

/-- Settles O39: each step by the case of the optical group that it meets. -/
theorem opticalSteps : Obligations.OpticalSteps := by
  intro f v s
  refine ⟨fun n lt => ⟨fun bad => ⟨_, exec_oslotWrite_writes lt f v s, ?_⟩, fun good => ⟨_, exec_oslotWrite_writes lt f v s, ?_⟩⟩,
    fun on was => ⟨_, exec_opticalStart_writes on f s, ?_⟩,
    fun runs none_left ended long => ⟨_, exec_rotationStart_turns none_left, ?_⟩,
    fun n dest budget locked window shut empty => ⟨_, exec_slotWindowOpen_opens locked window shut empty, ?_⟩,
    fun w opened over_ => ⟨_, exec_slotWindowClose_closes opened over_, ?_⟩,
    fun x locked here up none_left => ⟨fun next s1 lands => exec_opticalFlitReceive_next locked here up none_left next lands,
      fun again => exec_opticalFlitReceive_again locked here up none_left again,
      fun early => exec_opticalFlitReceive_early locked here up early⟩,
    fun dest vc seq code locked => by rw [exec_opticalAck, execOpticalAck, if_pos locked],
    fun n held => exec_fibreLoss_loses held, fun locked follower => exec_timeLockLoss_loses locked follower,
    fun off follower stepped => ⟨fun lost low high => exec_timeLockRegain_locks follower stepped lost low high,
      fun stays => exec_timeLockRegain_measures follower stepped stays⟩⟩
  · rw [State.modField_field]
    exact Field.oslot_bad bad lt
  · rw [State.modField_field, Field.oslot_good good]
  · rw [State.modField_field]
    exact Field.octl_starts on was _
  · rw [State.modField_field, Field.rotated_optical runs ended long]
    refine ⟨rfl, rfl, ?_⟩
    dsimp only
    cases (s.field f).optical.table <;> rfl
  · rw [State.modField_field]
    rfl
  · rw [State.modField_field]

end Sys2Proof.Machine
end


section
/-! Obligation BalancerSteps (R283, R350 to R353, R398): rein, panel, barrier messages and energy windows. -/

namespace Sys2Proof.Machine

/-! ## Lists and maps -/

/-- The element that a search finds is replaced where a map replaces just what the search accepts. -/
theorem find_map_replaced {α : Type} {p : α → Bool} {q : α → Prop} [DecidablePred q] {l : List α} {x y : α}
    (found : l.find? p = some x) (hit : p y = true) (agree : ∀ z, q z ↔ p z = true) :
    (l.map fun z => if q z then y else z).find? p = some y := by
  have same : (p ∘ fun z => if q z then y else z) = p := funext fun z => by
    by_cases z_hit : q z
    · rw [Function.comp, if_pos z_hit, hit, (agree z).1 z_hit]
    · rw [Function.comp, if_neg z_hit]
  rw [List.find?_map, same, found, Option.map_some, if_pos ((agree x).2 (List.find?_some found))]

theorem find_filter_of_kept {α : Type} {p keep : α → Bool} {l : List α} (kept : ∀ z, p z = true → keep z = true) :
    (l.filter keep).find? p = l.find? p := by
  rw [List.find?_filter]
  congr 1
  funext z
  cases hit : p z
  · simp
  · simp [kept z hit]

/-! ## Rein (R350) -/

theorem exec_reinEvaluate_moves {f n : Nat} {s s1 : State} {bs : List Byte} (lt : n < 8)
    (on : (rnReg (s.field f) 0x048 n).getLsbD 63 = true) (up : (s.field f).inReset = false)
    (due : SMap.get (s.field f).rein n 0 + bits (rnReg (s.field f) 0x04B n) 32 16 * 1000 ≤ s.ns)
    (read : dispRead f ((rnReg (s.field f) 0x049 n).extractLsb' 48 16) (bits (rnReg (s.field f) 0x048 n) 4 53 * 16) 16 s = .ok bs s1) :
    exec (.reinEvaluate f n) s = .next ((s1.reinMove f n ((recNat bs 0 8 + 2 ^ 64 - recNat bs 8 8) % 2 ^ 64)).modField f fun fd =>
      { fd with rein := SMap.put fd.rein n s1.ns }) := by
  simp only [exec_reinEvaluate, execReinEvaluate, decide_eq_true lt, on, up, decide_eq_true due, Bool.not_false, Bool.and_true,
    if_true, read]

/-! ## Panel (R351) -/

theorem panelMoves_cmds (fresh : Nat) (cmds : List (Nat × Nat × Nat)) :
    (cmds.zipIdx.map fun (c : (Nat × Nat × Nat) × Nat) =>
      ({ id := fresh + c.2, src := c.1.1, dst := c.1.2.1, n := c.1.2.2 } : Move)).map (fun m => (m.src, m.dst, m.n)) = cmds := by
  rw [List.map_map]
  exact List.zipIdx_map_fst 0 cmds

/-- The state in which a snapshot of the panel has sent its moves. -/
def State.panelTaken (s : State) (f : Nat) (ms : List Move) : State :=
  { s.modField f fun fd => { fd with panel := s.ns, moves := fd.moves ++ ms } with fresh := s.fresh + ms.length }

theorem State.panelTaken_field (s : State) (f : Nat) (ms : List Move) :
    (s.panelTaken f ms).field f = { s.field f with panel := s.ns, moves := (s.field f).moves ++ ms } := by
  show (s.modField f fun fd => { fd with panel := s.ns, moves := fd.moves ++ ms }).field f = _
  rw [State.modField_field]

theorem exec_panelSnapshot_takes {f : Nat} {s : State} (on : ((s.field f).reg 0x04C).getLsbD 63 = true) (up : (s.field f).inReset = false)
    (due : (s.field f).panel + bits ((s.field f).reg 0x04C) 32 16 * 1000 ≤ s.ns) {o : List (Nat × Nat × Nat)}
    (occupied : o = (((List.range 320).map (f * 320 + ·)).filter fun k => (s.core k).domain == 2 && !(s.core k).retired).map fun k =>
      (k, (s.core k).ring.length + (s.core k).deque.length, (s.core k).deque.length)) :
    ∃ t, exec (.panelSnapshot f) s = .next t ∧ (t.field f).panel = s.ns ∧
      (t.field f).moves.map (fun m => (m.src, m.dst, m.n)) = (s.field f).moves.map (fun m => (m.src, m.dst, m.n)) ++
        panelCmds (bits ((s.field f).reg 0x04C) 0 8) (bits ((s.field f).reg 0x04C) 8 8) o := by
  subst occupied
  simp only [exec_panelSnapshot, execPanelSnapshot, on, up, decide_eq_true due, Bool.not_false, Bool.and_true, if_true]
  refine ⟨s.panelTaken f _, rfl, congrArg Field.panel (s.panelTaken_field f _), ?_⟩
  rw [State.panelTaken_field]
  rw [List.map_append, panelMoves_cmds]

theorem exec_panelMove_moves {f n : Nat} {s : State} {m : Move} (found : (s.field f).moves.find? (fun m => m.id == n) = some m)
    (apart : m.src ≠ m.dst) (works : (s.core m.dst).retired = false) {go : List Spawned × List Spawned}
    (split : go = takeTop (fun e => (s.core m.dst).runs e.cls) (Nat.min m.n (dequeSize - (s.core m.dst).deque.length))
      (s.core m.src).deque) :
    ∃ t, exec (.panelMove f n) s = .next t ∧ (t.core m.src).deque = go.2 ∧
      (t.core m.dst).deque = go.1 ++ (s.core m.dst).deque := by
  subst split
  simp only [exec_panelMove, execPanelMove, found, State.modField_core, works, Bool.false_eq_true, if_false]
  refine ⟨_, rfl, ?_, ?_⟩
  · rw [State.modCore, State.setCore_core_ne _ _ _ _ apart, State.modCore_core]
  · rw [State.modCore_core, State.modCore, State.setCore_core_ne _ _ _ _ apart.symm]
    rfl

/-! ## Barrier messages (R283, R353) -/

/-- An arrival a hop further, with what it takes up where it stands. -/
def BarMsg.hopped (m : BarMsg) (f : Nat) (bs : List BarMsg) : BarMsg :=
  { m with at_ := nextHop f m.desc m.at_, others := m.others ++ (m.gather bs).flatMap BarMsg.arrivals }

/-- A release a hop nearer to its core. -/
def BarMsg.hoppedBack (m : BarMsg) (f : Nat) : BarMsg := { m with at_ := hopBack f m.desc m.core m.at_ }

theorem State.hopArrivals_bars (s : State) (f : Nat) (m : BarMsg) : ((s.hopArrivals f m).field f).bars =
    ((s.field f).bars.filter fun b => !(m.gather (s.field f).bars).contains b).map fun b =>
      if b.id = m.id then m.hopped f (s.field f).bars else b :=
  congrArg Field.bars (State.modField_field ..)

/-- What a message gathers are other messages. -/
theorem BarMsg.id_ne_of_gather {m b : BarMsg} {bs : List BarMsg} (got : b ∈ m.gather bs) : b.id ≠ m.id := by
  have passed := List.of_mem_filter got
  simp only [Bool.and_eq_true, bne_iff_ne] at passed
  exact passed.1.1.1.1

section
variable {f n : Nat} {s : State} {m : BarMsg} (found : (s.field f).bars.find? (fun b => b.id == n) = some m)
include found

theorem BarMsg.id_of_found : m.id = n := by simpa using List.find?_some found

theorem exec_barrierArrival_hops (arrives : m.release = none) (away : m.at_ ≠ descCorner f m.desc) :
    ∃ t, exec (.barrierArrival f n) s = .next t ∧
      (t.field f).bars.find? (fun b => b.id == n) = some (m.hopped f (s.field f).bars) ∧
      ∀ b ∈ m.gather (s.field f).bars, b ∉ (t.field f).bars := by
  have id := BarMsg.id_of_found found
  refine ⟨s.hopArrivals f m, ?_, ?_, fun b got stays => ?_⟩
  · simp only [exec_barrierArrival, execBarrierArrival, found, arrives, Option.isSome_none, Bool.false_eq_true, if_false,
      bne_iff_ne.2 away, if_true]
  · rw [State.hopArrivals_bars]
    refine find_map_replaced (q := fun b => b.id = m.id) (y := m.hopped f _) ((find_filter_of_kept fun b hit => ?_).trans found) 
      (beq_iff_eq.2 id) fun b => by rw [id, beq_iff_eq]
    have mine : b.id = m.id := (beq_iff_eq.1 hit).trans id.symm
    simpa using fun got => BarMsg.id_ne_of_gather got mine
  · rw [State.hopArrivals_bars] at stays
    obtain ⟨c, kept, is⟩ := List.mem_map.1 stays
    split at is
    · exact BarMsg.id_ne_of_gather got (congrArg BarMsg.id is).symm
    · rw [is] at kept
      simpa [got] using List.of_mem_filter kept

theorem exec_barrierArrival_judges (arrives : m.release = none) (corner : m.at_ = descCorner f m.desc) {i : BitVec 2}
    (slot : i = BitVec.ofNat 2 m.slot) : exec (.barrierArrival f n) s =
      .next (((s.dropBar f n).modCore m.at_ fun c =>
        let b := c.bar i
        c.setBar i { b with arrivals := b.arrivals ++ (m.core, m.desc) :: m.others
                            judge := if b.desc.isNone then some (b.judge.getD m.desc) else b.judge }).barJudge m.at_ m.slot) := by
  subst slot
  have here : (m.at_ != descCorner f m.desc) = false := by simpa using corner
  simp only [exec_barrierArrival, execBarrierArrival, found, arrives, Option.isSome_none, Bool.false_eq_true, if_false, here]
  rfl

theorem exec_barrierRelease_hops {mism : Bool} (released : m.release = some mism) (away : m.at_ ≠ m.core) :
    ∃ t, exec (.barrierRelease f n) s = .next t ∧
      (t.field f).bars.find? (fun b => b.id == n) = some (m.hoppedBack f) := by
  have id := BarMsg.id_of_found found
  have moves : exec (.barrierRelease f n) s = .next (s.modField f fun fd =>
      { fd with bars := fd.bars.map fun b => if b.id = m.id then m.hoppedBack f else b }) := by
    rw [exec_barrierRelease, execBarrierRelease, found]
    dsimp only
    split
    next arrives => exact nomatch arrives.symm.trans released
    · rw [if_pos (bne_iff_ne.2 away)]
      rfl
  refine ⟨_, moves, ?_⟩
  rw [State.modField_field]
  exact find_map_replaced (q := fun b => b.id = m.id) (y := m.hoppedBack f) found (beq_iff_eq.2 id) fun b => by rw [id, beq_iff_eq]

theorem exec_barrierRelease_ends {mism : Bool} (released : m.release = some mism) (back : m.at_ = m.core) {i : BitVec 2}
    (slot : i = BitVec.ofNat 2 m.slot) (arrived : ((s.core m.core).bar i).arrived = true) :
    ∃ t, exec (.barrierRelease f n) s = .next t ∧ ((t.core m.core).bar i).arrived = false ∧
      ((t.core m.core).bar i).episode = ((s.core m.core).bar i).episode + 1 := by
  subst slot
  have here : (m.at_ != m.core) = false := by simpa using back
  have ends : exec (.barrierRelease f n) s = .next (((s.dropBar f n).modCore m.core fun c =>
      c.setBar (BitVec.ofNat 2 m.slot) ((c.bar (BitVec.ofNat 2 m.slot)).released mism)).wakeMem fun c => coreOf c == m.core) := by
    have kept : (((s.dropBar f n).core m.core).bar (BitVec.ofNat 2 m.slot)).arrived = true := arrived
    simp only [exec_barrierRelease, execBarrierRelease, found, released, here, Bool.false_eq_true, if_false, kept, if_true]
  have bar : ((((s.dropBar f n).modCore m.core fun c =>
      c.setBar (BitVec.ofNat 2 m.slot) ((c.bar (BitVec.ofNat 2 m.slot)).released mism)).core m.core).bar (BitVec.ofNat 2 m.slot)) =
      ((s.core m.core).bar (BitVec.ofNat 2 m.slot)).released mism :=
    (congrArg (Core.bar · (BitVec.ofNat 2 m.slot)) (State.modCore_core ..)).trans (Core.setBar_bar ..)
  exact ⟨_, ends, congrArg BarSlot.arrived bar, congrArg BarSlot.episode bar⟩

end

/-! ## Energy (R398, R399) -/

theorem shareEnergy_sum (runs : Nat → Launch → Bool) (n : Nat) (m : SMap Launch) (left : Nat) :
    ((shareEnergy runs n m left).map fun x => x.2.used).sum ≤ (m.map fun x => x.2.used).sum + left := by
  induction m generalizing left with
  | nil => simp [shareEnergy]
  | cons x t ih =>
    obtain ⟨lid, l⟩ := x
    unfold shareEnergy
    split
    · have part : (Config.freeWord (n + lid)).toNat % (left + 1) ≤ left := Nat.le_of_lt_succ (Nat.mod_lt _ (Nat.succ_pos _))
      have rest := ih (left - (Config.freeWord (n + lid)).toNat % (left + 1))
      simp only [List.map_cons, List.sum_cons]
      omega
    · have rest := ih left
      simp only [List.map_cons, List.sum_cons]
      omega

theorem shareEnergy_find {runs : Nat → Launch → Bool} {m : SMap Launch} {lid : Nat} {l : Launch} (known : SMap.find? m lid = some l)
    (n left : Nat) : ∃ u, SMap.find? (shareEnergy runs n m left) lid = some { l with used := l.used + u } ∧
      (runs lid l = false → u = 0) := by
  induction m generalizing left with
  | nil => cases known
  | cons x t ih =>
    obtain ⟨j, v⟩ := x
    unfold SMap.find? at known
    unfold shareEnergy
    by_cases this : j = lid
    · subst this
      cases (if_pos rfl).symm.trans known
      split
      next runs_ => exact ⟨_, if_pos rfl, fun stands => by rw [runs_] at stands; cases stands⟩
      · exact ⟨0, if_pos rfl, fun _ => rfl⟩
    · rw [if_neg this] at known
      split
      · obtain ⟨u, found, none_⟩ := ih known (left - (Config.freeWord (n + j)).toNat % (left + 1))
        exact ⟨u, (if_neg this).trans found, none_⟩
      · obtain ⟨u, found, none_⟩ := ih known left
        exact ⟨u, (if_neg this).trans found, none_⟩

/-- A partition at a time, its window turned over where the time has left it. -/
theorem State.partNow_of_find {s : State} {n : Nat} {p : Part} (known : SMap.find? s.parts n = some p) :
    s.partNow n = some (p.roll s.ns) := by
  rw [State.partNow, known, Option.map_some]

theorem State.launchRuns_roll (s : State) (p : Part) (ns : Nat) : s.launchRuns (p.roll ns) = s.launchRuns p := by
  unfold Part.roll
  dsimp only
  split <;> rfl

theorem exec_energyCount_shares {s : State} {n : Nat} {p : Part} (known : SMap.find? s.parts n = some p) (uj : Nat) :
    exec (.energyCount n uj) s = .next { s with
      parts := SMap.put s.parts n { p.roll s.ns with used := (p.roll s.ns).used + uj }
      launches := shareEnergy (s.launchRuns p) s.fresh s.launches uj } := by
  rw [exec_energyCount, execEnergyCount, State.partNow_of_find known]
  dsimp only
  rw [State.launchRuns_roll]

/-- Settles O44: rein, panel, barriers and energy step by step; the shares of energy by induction on the launches. -/
theorem balancerSteps : Obligations.BalancerSteps := by
  intro f n s s1
  refine ⟨fun bs lt on up due read => exec_reinEvaluate_moves lt on up due read,
    fun on up due => exec_panelSnapshot_takes on up due rfl, fun m found apart works => exec_panelMove_moves found apart works rfl,
    fun m found => ⟨fun arrives away => exec_barrierArrival_hops found arrives away,
      fun arrives corner => exec_barrierArrival_judges found arrives corner rfl, fun mism released =>
        ⟨fun away => exec_barrierRelease_hops found released away,
          fun back arrived => exec_barrierRelease_ends found released back rfl arrived⟩⟩, fun p known => ⟨?_, fun uj => ?_⟩⟩
  · rw [exec_energyWindow, execEnergyWindow, State.partNow_of_find known]
    rfl
  · exact ⟨_, exec_energyCount_shares known uj, rfl, shareEnergy_sum .., fun lid l running => shareEnergy_find running ..⟩

end Sys2Proof.Machine
end


section
/-! Obligation MessageResults (R356, R361, R363 to R367): SEND and SENDV, ports and patterns, the enable mask, MTAKE and MREPLAY. -/

namespace Sys2Proof.Machine

/-- A number is its bits under a mask and its bits outside it. -/
theorem and_add_ldiff (a b : Nat) : (a &&& b) + Nat.ldiff a b = a := by
  induction a using Nat.binaryRec generalizing b with
  | zero => simp [Nat.ldiff]
  | bit x n ih =>
    cases b using Nat.bitCasesOn with
    | bit y m =>
      have rest := ih m
      rw [Nat.land_bit, Nat.ldiff_bit, Nat.bit_val, Nat.bit_val, Nat.bit_val]
      cases x <;> cases y <;> simp <;> omega

theorem testBit_sub_and (a b i : Nat) : (a - (a &&& b)).testBit i = (a.testBit i && !b.testBit i) := by
  have diff : a - (a &&& b) = Nat.ldiff a b := by
    have whole := and_add_ldiff a b
    omega
  rw [diff, Nat.testBit_ldiff]

theorem Core.jen_lt (c : Core) : c.jen < 2 ^ 16 := Nat.mod_lt _ (Nat.two_pow_pos 16)

theorem Core.setJen_jen (c : Core) (m : Nat) : (c.setJen m).jen = m % 2 ^ 16 := by
  rw [Core.jen, Core.setJen, Core.setReg_reg, bits, BitVec.toNat_ofNat]
  omega

/-- A status of Table 17-2 in gd, after an instruction has left a state. -/
def State.coded (t : State) (d : GReg) (code low : Nat) : State := t.setMe (t.me.wg d (BitVec.ofNat 64 (code * 2 ^ 56 + low)))

theorem giveCode_run (d : GReg) (code low : Nat) (s : State) : giveCode d code low s = .ok .next (s.coded d code low) := rfl

/-! ## SEND and SENDV (R361) -/

/-- The message that a context sends. -/
def State.message (s : State) (a : GReg) (m : MsgImm) (pay : List Byte) : Msg :=
  { id := s.fresh, tid := s.me.task.tid, src := s.myCore, cx := s.cur, dloc := (s.me.rg a).setWidth 32, dport := m.dport.toNat
    rport := m.rport.toNat, rpy := m.rpy, extn := s.me.extn, len8 := m.len8.toNat, tag := m.tag, pay := pay }

/-- The state with one message more, counted towards its task. -/
def State.messageSent (s : State) (x : Msg) : State :=
  (s.bump.modField s.myField fun f => { f with msgs := f.msgs ++ [x] }).setMe
    { s.me with task := s.me.task.countSent x.dport }

theorem State.messageSent_msgs (s : State) (x : Msg) : ((s.messageSent x).field s.myField).msgs = (s.field s.myField).msgs ++ [x] :=
  congrArg Field.msgs (State.modField_field s.bump s.myField fun f => { f with msgs := f.msgs ++ [x] })

theorem State.messageSent_g (s : State) (x : Msg) : (s.messageSent x).me.g = s.me.g := by
  rw [State.messageSent, State.setMe_me]

theorem portovFirst_ok {s : State} (clear : s.me.ppov = none) : portovFirst s = .ok () s := by
  simp only [portovFirst, M_bind, M_me, clear, M_pure]

theorem sendMsg_run {s : State} (room : s.sqUsed s.myCore s.me.task.tid < min s.me.sqDepth 8) (settled : s.Settled .fld)
    (a : GReg) (m : MsgImm) (pay : List Byte) : sendMsg a m pay s = .ok .next (s.messageSent (s.message a m pay)) := by
  have space : ¬ Nat.min s.me.sqDepth 8 ≤ s.sqUsed s.myCore s.me.task.tid := Nat.not_le.2 room
  simp only [sendMsg, M_bind, M_get, if_neg space, M_pure, drainStores_settled settled, M_freshId, M_set, M_modMe]
  rfl

section
variable {h : Hdr} {s : State} (on : On h s) {a b d : GReg} {m : MsgImm} (clear : s.me.ppov = none) (short : m.len8.toNat ≤ 16)
include on clear short

theorem exec_send_sends {s1 : State} {ws : List Word} (read : loadWords (s.me.rg b).toNat m.len8.toNat 0 s = .ok ws s1)
    (room : s1.sqUsed s1.myCore s1.me.task.tid < min s1.me.sqDepth 8) (settled : s1.Settled .fld) :
    exec (.send h a b m) s =
      .next (bodyNext h (s1.messageSent (s1.message a m (ws.flatMap fun w => natBytes w.toNat 8))) .next) :=
  runIsa_ok on (by
    simp only [M_bind, portovFirst_ok clear, decide_eq_false (Nat.not_lt.2 short), M_illop_false, M_me, read,
      sendMsg_run room settled])

theorem exec_sendv_sends {v : VReg} (room : s.sqUsed s.myCore s.me.task.tid < min s.me.sqDepth 8) (settled : s.Settled .fld) :
    exec (.sendv h a v m) s =
      .next (bodyNext h (s.messageSent (s.message a m (natBytes (s.me.rv v).toNat (8 * m.len8.toNat)))) .next) :=
  runIsa_ok on (by
    simp only [M_bind, portovFirst_ok clear, decide_eq_false (Nat.not_lt.2 short), M_illop_false, M_me, sendMsg_run room settled])

end

/-- The mask of JENA and JDIS names no pattern above 15. -/
theorem maskHigh_eq_zero {w : Word} (small : w.toNat < 65536) : (bits w 16 48 != 0) = false := by
  have none_ : bits w 16 48 = 0 := by
    unfold bits
    omega
  rw [none_, bne_self_eq_false]

section
variable {h : Hdr} {s s1 : State} (on : On h s) {d a : GReg}
include on

/-! ## Ports and patterns (R363 to R365) -/

theorem exec_pcfg_configures {port : BitVec 5} {w hd : Word} (may : port.toNat < 30 ∨ s.me.lvl = true)
    (read : loadWords (s.me.rg a).toNat 2 0 s = .ok [w, hd] s1) (empty : (s1.core s1.myCore).portLen port.toNat = 0)
    (unnamed : (s1.core s1.myCore).portNamed port.toNat = false) (plain : portRsv w = false)
    (good : portBad w hd s.me.lvl s.me.asid = false) :
    exec (.pcfg h d a port) s = .next (bodyNext h ((s1.modCore s1.myCore fun k => { k with
      ports := if w.getLsbD 63 then SMap.put k.ports port.toNat { portOf w hd with owner := s.me.task.member }
        else SMap.del k.ports port.toNat }).coded d 0 0) .next) := by
  have allowed : ¬ (30 ≤ port.toNat ∧ s.me.lvl = false) := by
    rintro ⟨high, task⟩
    rcases may with low | field
    · omega
    · exact nomatch task.symm.trans field
  refine runIsa_ok on ?_
  simp only [M_bind, M_me, if_neg allowed, read, List.getD_cons_zero, List.getD_cons_succ, M_get, empty, unnamed, plain, good,
    bne_self_eq_false, Bool.or_false, Bool.false_eq_true, if_false, M_modify, giveCode_run]

theorem exec_jcfg_configures {pat : BitVec 4} {w0 w1 w2 w3 : Word} (read : loadWords (s.me.rg a).toNat 4 0 s = .ok [w0, w1, w2, w3] s1)
    (off : (s1.core s1.myCore).jen.testBit pat.toNat = false) (unjoined : (s1.core s1.myCore).joinOn pat.toNat = none)
    (rsv0 : patRsv w0 = false) (rsv1 : patRsv w1 = false) (rsv2 : bits w2 8 8 = 0) (rsv3 : bits w2 32 32 = 0)
    (good : (s1.core s1.myCore).patBad (patOf w0 w1 w2 w3) s.me.lvl s.me.asid = false) :
    exec (.jcfg h d a pat) s = .next (bodyNext h ((s1.modCore s1.myCore fun k => { k with
      pats := if (patOf w0 w1 w2 w3).ins.isEmpty then SMap.del k.pats pat.toNat
        else SMap.put k.pats pat.toNat { patOf w0 w1 w2 w3 with owner := s.me.task.member } }).coded d 0 0) .next) := by
  refine runIsa_ok on ?_
  simp only [M_bind, M_me, read, List.getD_cons_zero, List.getD_cons_succ, M_get, off, unjoined, Option.isSome_none, rsv0, rsv1, rsv2,
    rsv3, good, bne_self_eq_false, Bool.or_false, Bool.false_eq_true, if_false, M_modify, giveCode_run]

theorem exec_jena_enables {m : GI} (small : (GI.uval m s.me).toNat < 65536) :
    exec (.jena h d m) s = .next (bodyNext h ((s.modCore s.myCore fun k =>
        k.setJen ((s.core s.myCore).jen ||| ((GI.uval m s.me).toNat &&& (s.core s.myCore).patMask))).setMe
      (s.me.wg d (BitVec.ofNat 64 (s.core s.myCore).jen))) .next) :=
  runIsa_ok on (by
    simp only [M_bind, M_get, maskHigh_eq_zero small, M_illop_false, M_modify, M_modMe, M_pure]
    rfl)

theorem exec_jdis_disables {m : GI} (small : (GI.uval m s.me).toNat < 65536) :
    exec (.jdis h d m) s = .next (bodyNext h ((s.modCore s.myCore fun k =>
        k.setJen ((s.core s.myCore).jen - ((s.core s.myCore).jen &&& (GI.uval m s.me).toNat))).setMe
      (s.me.wg d (BitVec.ofNat 64 (s.core s.myCore).jen))) .next) :=
  runIsa_ok on (by
    simp only [M_bind, M_get, maskHigh_eq_zero small, M_illop_false, M_modify, M_modMe, M_pure]
    rfl)

/-! ## MTAKE and MREPLAY (R342, R367) -/

theorem exec_mtake_takes {port : BitVec 5} {spl : Bool} {ps : List (Nat × Space × BitVec 16)} {n : Nat} {c : Core} {s2 : State}
    (image : imageCheck (s.me.rg a).toNat s = .ok () s) (places : piecePlaces (s.me.rg a).toNat .store 9 s = .ok ps s1)
    (oldest : (s1.core s1.myCore).takeOldest port.toNat spl = some (n, c))
    (written : writePieces (ps.take ((((s1.core s1.myCore).slotBytes n).length + 15) / 16)) ((s1.core s1.myCore).slotBytes n)
      (s1.setCore s1.myCore c) = .ok () s2) : exec (.mtake h d a port spl) s = .next (bodyNext h (s2.coded d 0 n) .next) :=
  runIsa_ok on (by simp only [M_bind, M_me, image, places, M_get, oldest, M_set, written, giveCode_run])

theorem exec_mreplay_replays {ws : List Word} {port n : Nat} {p : Port} (image : imageCheck (s.me.rg a).toNat s = .ok () s)
    (read : loadWords (s.me.rg a).toNat 18 0 s = .ok ws s1) {bs : List Byte} (image_bytes : bs = ws.flatMap fun w => natBytes w.toNat 8)
    (home : s1.replayPort bs = some port) (known : SMap.find? (s1.core s1.myCore).ports port = some p) (queued : p.direct = false)
    (free : (s1.core s1.myCore).freeSlot = some n) :
    exec (.mreplay h d a) s = .next (bodyNext h ((s1.modCore s1.myCore fun k =>
      k.replay port n p (bs.take (16 + min ((byteAt bs 6).toNat % 32 * 8) 128))).coded d 0 0) .next) := by
  subst image_bytes
  refine runIsa_ok on ?_
  simp only [M_bind, M_me, image, read, M_get, home, known, queued, Bool.false_eq_true, if_false, free, M_modify, giveCode_run]

end

theorem State.coded_core (t : State) (d : GReg) (code low k : Nat) : (t.coded d code low).core k = t.core k := rfl

/-- Settles O27: each form run on its checks; the mask of JDIS by the bits of a difference. -/
theorem messageResults : Obligations.MessageResults := by
  intro h d a b s s1 s2 on
  refine ⟨fun m clear short => ⟨fun ws read room => ?_, fun v room => ?_⟩,
    fun port w hd may read empty unnamed plain good => ⟨_, exec_pcfg_configures on may read empty unnamed plain good, ?_⟩,
    fun pat w0 w1 w2 w3 read off unjoined rsv0 rsv1 rsv2 rsv3 good =>
      ⟨_, exec_jcfg_configures on read off unjoined rsv0 rsv1 rsv2 rsv3 good, ?_⟩,
    fun m small => ⟨⟨_, exec_jena_enables on small, ?_⟩, ⟨_, exec_jdis_disables on small, fun i => ?_⟩⟩,
    fun port spl ps n c image places oldest written => exec_mtake_takes on image places oldest written,
    fun ws port p n image read home known queued free => ⟨_, exec_mreplay_replays on image read rfl home known queued free, ?_⟩⟩
  · exact ⟨_, _, exec_send_sends on clear short read room.1 room.2, State.messageSent_msgs .., rfl, rfl, rfl, rfl, rfl, rfl, rfl, rfl,
      rfl, rfl, State.messageSent_g ..⟩
  · exact ⟨_, _, exec_sendv_sends on clear short room.1 room.2, State.messageSent_msgs .., rfl, rfl, rfl, rfl, rfl, rfl, rfl, rfl,
      rfl, rfl, State.messageSent_g ..⟩
  · rw [State.modCore_core]
    dsimp only
    split
    · exact SMap.find_put_self ..
    · exact SMap.find_del_self ..
  · rw [State.modCore_core]
    dsimp only
    split
    next none_ => rw [if_pos (List.isEmpty_iff.1 none_), SMap.find_del_self]
    next some_ => rw [if_neg (fun e => some_ (List.isEmpty_iff.2 e)), SMap.find_put_self]
  · rw [State.modCore_core, Core.setJen_jen, Nat.or_mod_two_pow, Nat.mod_eq_of_lt (Core.jen_lt _)]
  · have le : (s.core s.myCore).jen - ((s.core s.myCore).jen &&& (GI.uval m s.me).toNat) < 2 ^ 16 :=
      Nat.lt_of_le_of_lt (Nat.sub_le ..) (Core.jen_lt _)
    rw [State.modCore_core, Core.setJen_jen, Nat.mod_eq_of_lt le, testBit_sub_and]
  · rw [State.modCore_core]
    exact congrArg (Option.map Port.queue) (SMap.find_put_self ..)

end Sys2Proof.Machine
end


section
/-! Obligation TaskResults (R346 to R348, R366, R368 to R373): SPAWN, JOINW, codelets, the end of a task, SQCFG and STLCFG. -/

namespace Sys2Proof.Machine

/-! ## Codelet descriptors (Table 17-8) -/

theorem Mem.readBytes_writeBytes_outside (m : Mem) {a o n : Nat} {bs : List Byte} (out : o + n ≤ a ∨ a + bs.length ≤ o) :
    Mem.readBytes (Mem.writeBytes m a bs) o n = Mem.readBytes m o n := by
  refine List.ext_getElem (by simp) fun i inside _ => ?_
  rw [Mem.length_readBytes] at inside
  rw [Mem.getElem_readBytes, Mem.getElem_readBytes, Mem.read_writeBytes_outside _ _ _ _ (by omega)]

theorem bytesNat_readBytes_writeBytes (m : Mem) (o n x : Nat) :
    bytesNat (Mem.readBytes (Mem.writeBytes m o (natBytes x n)) o n) = x % 256 ^ n := by
  have read := Mem.readBytes_writeBytes m o (natBytes x n)
  rw [length_natBytes] at read
  rw [read, bytesNat_natBytes]

theorem bytesNat_lt (bs : List Byte) : bytesNat bs < 256 ^ bs.length := by
  induction bs with
  | nil => exact Nat.one_pos
  | cons b bs ih =>
    have low : b.toNat < 256 := b.isLt
    rw [bytesNat, List.length_cons, Nat.pow_succ']
    omega

theorem Core.codeletCount_lt (c : Core) (o : Nat) : c.codeletCount o < 2 ^ 32 := by
  have lt := bytesNat_lt (Mem.readBytes c.cmem o 4)
  rwa [Mem.length_readBytes] at lt

/-! ## Arming (R347, R368) -/

theorem Core.codeletCount_arm (c : Core) {n : Nat} (lt : n < 2 ^ 32) (o st asid : Nat) : (c.arm o n st asid).codeletCount o = n := by
  show bytesNat (Mem.readBytes (Mem.writeBytes (Mem.writeBytes (Mem.writeBytes c.cmem o (natBytes n 4)) (o + 4) (natBytes st 1)) (o + 6)
    (natBytes asid 2)) o 4) = n
  rw [Mem.readBytes_writeBytes_outside _ (by omega), Mem.readBytes_writeBytes_outside _ (by omega), bytesNat_readBytes_writeBytes]
  exact Nat.mod_eq_of_lt lt

theorem Core.codeletState_arm (c : Core) (o n st asid : Nat) : (c.arm o n st asid).codeletState o = BitVec.ofNat 8 st := by
  show Mem.read (Mem.writeBytes (Mem.writeBytes (Mem.writeBytes c.cmem o (natBytes n 4)) (o + 4) (natBytes st 1)) (o + 6)
    (natBytes asid 2)) (o + 4) = _
  rw [Mem.read_writeBytes_outside _ _ _ _ (by omega)]
  simpa using Mem.read_writeBytes_natBytes (Mem.writeBytes c.cmem o (natBytes n 4)) (o + 4) 1 st 0 (by omega)

/-- STATE of an armed codelet has ARMED set. -/
theorem Ctx.codeletState_armed (c : Ctx) (cls : BitVec 2) : (BitVec.ofNat 8 (c.codeletState cls)).getLsbD 0 = true := by
  rw [BitVec.getLsbD_ofNat, Ctx.codeletState, Nat.testBit_zero]
  simp
  omega

theorem Core.armedNow_arm {c : Core} {o n st asid : Nat} (armed : (BitVec.ofNat 8 st).getLsbD 0 = true) :
    o ∈ (c.arm o n st asid).armedNow :=
  List.mem_filter.2 ⟨mem_addShare .., by rw [Core.codeletState_arm, armed]⟩

/-! ## Counting down (R369, R370) -/

theorem Core.decrement_codeletCount (c : Core) (k o n : Nat) : (c.decrement k o n).codeletCount o = c.codeletCount o - n := by
  have lt : c.codeletCount o - n < 2 ^ 32 := Nat.lt_of_le_of_lt (Nat.sub_le ..) (c.codeletCount_lt o)
  have written : bytesNat (Mem.readBytes (Mem.writeBytes c.cmem o (natBytes (c.codeletCount o - n) 4)) o 4) = c.codeletCount o - n := by
    rw [bytesNat_readBytes_writeBytes]
    exact Nat.mod_eq_of_lt lt
  unfold Core.decrement
  dsimp only
  split
  · exact (congrArg bytesNat (Mem.readBytes_writeBytes_outside _ (by simp))).trans written
  · exact written

theorem Core.decrement_zero {c : Core} {o n : Nat} (zero : c.codeletCount o = n) (k : Nat) :
    (c.decrement k o n).ring = c.ring ++ [k * 2 ^ 18 + o] ∧ ((c.decrement k o n).codeletState o).getLsbD 0 = false := by
  have none_left : c.codeletCount o - n = 0 := by omega
  simp only [Core.decrement, none_left, if_true]
  refine ⟨rfl, ?_⟩
  show (Mem.read (Mem.writeBytes (Mem.writeBytes c.cmem o (natBytes 0 4)) (o + 4) [c.codeletState o &&& 0xFE]) (o + 4)).getLsbD 0 = false
  rw [Mem.read_writeBytes, if_pos (by simp), Nat.sub_self, List.getD_cons_zero, BitVec.getLsbD_and]
  exact Bool.and_false _

theorem Core.decrement_left {c : Core} {o n : Nat} (left : n < c.codeletCount o) (k : Nat) :
    (c.decrement k o n).ring = c.ring ∧ (c.decrement k o n).codeletState o = c.codeletState o := by
  have some_left : ¬ c.codeletCount o - n = 0 := by omega
  simp only [Core.decrement, some_left, if_false]
  refine ⟨rfl, ?_⟩
  exact Mem.read_writeBytes_outside _ _ _ _ (by simp)

/-- A count that CARM and CDEC take. -/
theorem codeletCount_good {n : Nat} (pos : n ≠ 0) (small : n < 2 ^ 32) : (decide (2 ^ 32 ≤ n) || n == 0) = false := by
  rw [decide_eq_false (Nat.not_le.2 small), beq_false_of_ne pos, Bool.or_false]

/-! ## JOINW (R366) -/

/-- JOINW from its entry in the order of those that wait on. -/
def joinTake (d : GReg) (k n : Nat) (p : Pattern) : M Flow := do
  modify fun s => s.modCore k fun c => c.joinWait s.cur n
  let s ← get
  waitIf (!s.joinWins k s.cur) (.pattern n)
  let (c, ts) := (s.core k).consume s.cur n s.me.task.tid p (s.waitPorts k)
  set (s.setCore k c)
  modMe fun x => ({ x with task := x.task.own ts.flatten }).putTakes d.toNat (p.pos.zip ts)
  acquireAll
  return .next

theorem joinTake_run {s s1 : State} {n : Nat} {p : Pattern} {took : Core × List (List Nat)}
    (waits : s1 = s.modCore s.myCore fun c => c.joinWait s.cur n)
    (takes : took = (s1.core s.myCore).consume s.cur n s1.me.task.tid p (s1.waitPorts s.myCore))
    (wins : s1.joinWins s.myCore s.cur = true) (d : GReg) : joinTake d s.myCore n p s = .ok .next
      (((s1.setCore s.myCore took.1).setMe
        (({ s1.me with task := s1.me.task.own took.2.flatten }).putTakes d.toNat (p.pos.zip took.2))).acquireAll s.myCore) := by
  subst waits takes
  refine (bind_ok (M_modify _ s)).trans ((bind_ok (M_get _)).trans ((bind_ok (waitIf_ok ?_ _ _)).trans rfl))
  rw [Bool.not_eq_false']
  exact wins

/-! ## The forms -/

section
variable {h : Hdr} {s : State} (on : On h s) {d a b : GReg}
include on

theorem exec_spawn_pushes {cls : BitVec 2} (settled : s.Settled .fld) (low : (s.me.rg a).toNat < 2 ^ 57)
    (aligned : (s.me.rg a).toNat % 4 = 0) (room : (s.core s.myCore).deque.length < 96) :
    exec (.spawn h d a b cls) s = .next (bodyNext h ((s.modCore s.myCore fun k =>
      k.pushDeque (s.me.spawned (s.me.rg a) (s.me.rg b) cls.toNat)).coded d 0 0) .next) := by
  have code : bits (s.me.rg a) 0 2 = 0 := by
    unfold bits
    omega
  have space : ¬ dequeSize ≤ (s.core s.myCore).deque.length := Nat.not_le.2 room
  refine runIsa_ok on ?_
  simp only [M_bind, M_me, if_neg (Nat.not_le.2 low), code, ne_eq, not_true_eq_false, if_false, M_get, if_neg space,
    drainStores_settled settled, M_modify, giveCode_run]

theorem exec_joinw_takes {pat : BitVec 4} {free : Bool} {p : Pattern} {s0 s1 : State} {took : Core × List (List Nat)}
    (known : SMap.find? (s.core s.myCore).pats pat.toNat = some p) (freed : s0 = if free then s.freeOwned s.cur else s)
    (waits : s1 = s0.modCore s.myCore fun c => c.joinWait s.cur pat.toNat)
    (takes : took = (s1.core s.myCore).consume s.cur pat.toNat s1.me.task.tid p (s1.waitPorts s.myCore))
    (wins : s1.joinWins s.myCore s.cur = true) :
    exec (.joinw h d pat free) s = .next (bodyNext h (((s1.setCore s.myCore took.1).setMe
      (({ s1.me with task := s1.me.task.own took.2.flatten }).putTakes d.toNat (p.pos.zip took.2))).acquireAll s.myCore) .next) := by
  subst freed
  refine runIsa_ok on ((bind_ok (M_get s)).trans ?_)
  simp only [known]
  cases free
  · exact joinTake_run waits takes wins d
  · exact (bind_ok (M_modify _ s)).trans (joinTake_run (s := s.freeOwned s.cur) waits takes wins d)

theorem exec_carm_arms {cls : BitVec 2} {o : Nat} (settled : s.Settled .fld)
    (own : s.ownOffset s.myCore (s.me.rg a).toNat = some o) (aligned : (s.me.rg a).toNat % 32 = 0) (low : o < schedBase)
    (pos : (s.me.rg b).toNat ≠ 0) (small : (s.me.rg b).toNat < 2 ^ 32) (clean : (s.core s.myCore).poison = [])
    (idle : (s.core s.myCore).fe = []) (off : ((s.core s.myCore).codeletState o).getLsbD 0 = false)
    (room : (s.core s.myCore).armedNow.length + (s.core s.myCore).ring.length < 256) :
    exec (.carm h d a b cls) s = .next (bodyNext h ((s.modCore s.myCore fun co =>
      co.arm o (s.me.rg b).toNat (s.me.codeletState cls) s.me.asid.toNat).coded d 0 0) .next) := by
  have count := codeletCount_good pos small
  refine runIsa_ok on ?_
  simp only [M_bind, M_get, own, aligned, ne_eq, not_true_eq_false, if_false, if_neg (Nat.not_le.2 low), count, M_illop_false,
    cmemRead_of_poison_nil clean, off, Bool.false_eq_true, if_neg (Nat.not_le.2 room), drainStores_settled settled, M_modify,
    State.serveFe_of_fe_nil idle, giveCode_run]

theorem exec_cdec_counts {g : GI} {j : Nat} (settled : s.Settled .fld) (plain : bits (s.me.rg a) 18 14 = 0)
    (aligned : bits (s.me.rg a) 0 18 % 32 = 0) (low : bits (s.me.rg a) 0 18 < cmemSize)
    (core : s.locCore ((s.me.rg a).extractLsb' 32 32) = some j) (here : fieldOf j = s.myField) (clean : (s.core j).poison = [])
    (idle : (s.core j).fe = []) (pos : (GI.uval g s.me).toNat ≠ 0) (small : (GI.uval g s.me).toNat < 2 ^ 32)
    (le : (GI.uval g s.me).toNat ≤ (s.core j).codeletCount (bits (s.me.rg a) 0 18))
    (armed : ((s.core j).codeletState (bits (s.me.rg a) 0 18)).getLsbD 0 = true) :
    exec (.cdec h d a g) s = .next (bodyNext h ((s.modCore j fun co =>
      co.decrement j (bits (s.me.rg a) 0 18) (GI.uval g s.me).toNat).coded d 0 ((s.core j).codeletCount (bits (s.me.rg a) 0 18))) .next) := by
  have count := codeletCount_good pos small
  have named : (some j).filter (fun k => fieldOf k == s.myField) = some j := by simp [here]
  refine runIsa_ok on ?_
  simp only [M_bind, M_get, plain, bne_self_eq_false, M_illop_false, aligned, ne_eq, not_true_eq_false, if_false, count,
    drainStores_settled settled, core, named, if_neg (Nat.not_le.2 low), cmemRead_of_poison_nil clean, armed, Bool.not_true,
    Bool.false_eq_true, if_neg (Nat.not_lt.2 le), M_modify, State.serveFe_of_fe_nil idle, giveCode_run]

theorem exec_sqcfg_sets {g : GI} (pos : (GI.uval g s.me).toNat ≠ 0) (le : (GI.uval g s.me).toNat ≤ 8) :
    exec (.sqcfg h g) s = .next (bodyNext h (s.setMe { s.me with sqDepth := (GI.uval g s.me).toNat }) .next) := by
  have good : ((GI.uval g s.me).toNat == 0 || decide (8 < (GI.uval g s.me).toNat)) = false := by simp [pos, Nat.not_lt.2 le]
  exact runIsa_ok on (by simp only [M_bind, M_me, good, M_illop_false, M_modMe, M_pure])

theorem exec_stlcfg_sets {g : GI} (le : (GI.uval g s.me).toNat ≤ 2) :
    exec (.stlcfg h g) s = .next (bodyNext h (s.modCore s.myCore fun c => c.setReg 0x051 (GI.uval g s.me)) .next) := by
  have good : decide (2 < (GI.uval g s.me).toNat) = false := decide_eq_false (Nat.not_lt.2 le)
  exact runIsa_ok on (by simp only [M_bind, M_me, good, M_illop_false, BitVec.ofNat_toNat, BitVec.setWidth_eq, M_modify, M_pure])

/-! ## The end of a task (R373) -/

theorem exec_texit_ends (clear : s.me.ppov = none) (sent : s.sqUsed s.myCore s.me.task.tid = 0) (taken : s.me.lates = [])
    (unqueued : (s.core s.myCore).mq = []) (ended : ∀ i ∈ (s.core s.myCore).items, i.tid ≠ s.me.task.tid)
    (copied : s.recsOpen s.myCl s.me.task.tid = false) (settled : s.Settled .sys)
    (unmarked : s.marksOpen s.myCore s.me.task.tid = false) :
    exec (.texit h) s = .next (s.publishMarks s.myCore s.me.task.tid).taskExit := by
  have items : ((s.core s.myCore).items.any fun i => i.tid == s.me.task.tid && i.status.isNone) = false :=
    List.any_eq_false.2 fun i mem => by simp [ended i mem]
  have guard : Hdr.holds h s.me = true := on
  rw [exec_texit, execTexit, runEnd, if_pos guard]
  simp only [M_bind, portovFirst_ok clear, exitDrain, M_get, sent, bne_self_eq_false, M_wait_false, items, copied, unqueued,
    List.any_nil, lateFirst_ok s taken, drainStores_settled settled, unmarked, M_modify]

end

theorem State.publishMarks_ctxs (s : State) (k tid : Nat) : (s.publishMarks k tid).ctxs = s.ctxs := by
  unfold State.publishMarks
  dsimp only
  exact foldl_frame State.ctxs (fun _ _ _ => by split <;> rfl) _

theorem State.publishMarks_cur (s : State) (k tid : Nat) : (s.publishMarks k tid).cur = s.cur := by
  unfold State.publishMarks
  dsimp only
  exact foldl_frame State.cur (fun _ _ _ => by split <;> rfl) _

theorem State.rateCheck_ctxs (s : State) (c : Nat) : (s.rateCheck c).ctxs = s.ctxs :=
  foldl_frame State.ctxs (fun _ _ _ => by split <;> rfl) s

theorem State.rateCheck_cur (s : State) (c : Nat) : (s.rateCheck c).cur = s.cur :=
  foldl_frame State.cur (fun _ _ _ => by split <;> rfl) s

theorem State.groupCheck_ctxs (s : State) (gid : Nat) : (s.groupCheck gid).ctxs = s.ctxs := by
  unfold State.groupCheck
  split
  · rfl
  · split
    · split <;> rfl
    · rfl

theorem State.markMember_ctxs (s : State) (m : Member) (st : MemSt) (loc : BitVec 32) : (s.markMember m st loc).ctxs = s.ctxs := by
  unfold State.markMember
  split
  · rfl
  · exact State.groupCheck_ctxs ..

theorem State.ctx_of_ctxs {s t : State} (same : t.ctxs = s.ctxs) (c : Nat) : t.ctx c = s.ctx c := by
  unfold State.ctx
  rw [same]

/-- A task that ends DONE leaves its context free, or asleep in context 15. -/
theorem State.endTask_done_st (s : State) (c : Nat) :
    ((s.endTask c .done).ctx c).st = if ctxNum c = 15 then .asleep else .free := by
  have lt : ctxNum c < 16 := Nat.mod_lt _ (by omega)
  unfold State.endTask
  dsimp only
  split
  · rw [State.setCtx_ctx]
    dsimp only
    by_cases last : ctxNum c = 15
    · rw [if_pos last, if_neg (by omega)]
    · rw [if_neg last, if_pos (by omega)]
  · rw [if_neg (by omega)]
    have freed (t : State) (x : Ctx) : ((t.setCtx c x.freed).ctx c).st = .free := by
      rw [State.setCtx_ctx]
      rfl
    simp only [reduceCtorEq, if_false, or_self]
    split
    · split <;> exact freed ..
    · exact (congrArg Ctx.st (State.ctx_of_ctxs (State.markMember_ctxs ..) c)).trans (freed ..)

/-- The context of a task that is not in its handler is free after TEXIT, or asleep (R373). -/
theorem State.taskExit_st {s : State} (plain : s.me.nest = false) :
    (s.taskExit.ctx s.cur).st = if ctxNum s.cur = 15 then .asleep else .free := by
  have cur : (s.rateCheck s.cur).cur = s.cur := State.rateCheck_cur ..
  have exit : s.taskExit = (((s.rateCheck s.cur).setMe (s.rateCheck s.cur).me.advance).freeOwned (s.rateCheck s.cur).cur).endTask
      (s.rateCheck s.cur).cur .done := by
    unfold State.taskExit
    rw [plain]
    rfl
  rw [exit, cur]
  exact State.endTask_done_st ..

/-- Settles O28: each form run on its checks, codelets by the bytes of their descriptors. -/
theorem taskResults : Obligations.TaskResults := by
  intro h d a b s on
  refine ⟨fun cls settled low aligned room => ⟨_, s.me.spawned (s.me.rg a) (s.me.rg b) cls.toNat,
      exec_spawn_pushes on settled low aligned room, ?_, rfl, rfl, rfl, rfl⟩,
    fun pat free p known wins => ⟨_, exec_joinw_takes on known rfl rfl rfl wins, State.setCore_core .., State.setMe_me ..⟩,
    fun cls o settled own aligned low pos small clean idle off room =>
      ⟨_, exec_carm_arms on settled own aligned low pos small clean idle off room, ?_, ?_, ?_⟩,
    fun g j settled plain aligned low core here clean idle pos small le armed =>
      ⟨_, exec_cdec_counts on settled plain aligned low core here clean idle pos small le armed, ?_, fun all => ?_, fun left => ?_⟩,
    fun clear sent taken unqueued ended copied settled unmarked =>
      ⟨exec_texit_ends on clear sent taken unqueued ended copied settled unmarked, fun plain => ?_⟩,
    fun g => ⟨fun pos le => exec_sqcfg_sets on pos le, fun le => ⟨_, exec_stlcfg_sets on le, rfl, ?_⟩⟩⟩
  · exact congrArg Core.deque (State.modCore_core ..)
  · rw [State.modCore_core, Core.codeletCount_arm _ small]
  · rw [State.modCore_core, Core.codeletState_arm, Ctx.codeletState_armed]
  · rw [State.modCore_core]
    exact Core.armedNow_arm (Ctx.codeletState_armed ..)
  · rw [State.modCore_core, Core.decrement_codeletCount]
  · rw [State.modCore_core]
    exact Core.decrement_zero all j
  · rw [State.modCore_core]
    exact Core.decrement_left left j
  · have cur := State.publishMarks_cur s s.myCore s.me.task.tid
    have me : (s.publishMarks s.myCore s.me.task.tid).me = s.me := by
      rw [State.me, cur]
      exact State.ctx_of_ctxs (State.publishMarks_ctxs ..) _
    have ends := State.taskExit_st (s := s.publishMarks s.myCore s.me.task.tid) (by rw [me, plain])
    rwa [cur] at ends
  · rw [State.modCore_core, Core.setReg_reg]

end Sys2Proof.Machine
end


section
/-! Obligation SchedulerSteps (R336 to R349, R362, R382): the work that a free context takes, messages that arrive and return, and the
retries of those that were refused. -/

namespace Sys2Proof.Machine

/-! ## Work (R336, R344 to R349, R382) -/

section
variable {c : Nat} {s t : State} (free : s.canTake c = true)
include free

theorem exec_contextSelect_gives {w : Work} (work : s.workFor (coreOf c) (ctxNum c) = some w)
    (given : giveWork (coreOf c) (ctxNum c) w s = .ok () t) : exec (.contextSelect c) s = .next t := by
  rw [exec_contextSelect, execContextSelect, if_pos free, work]
  exact runEvent_ok given

theorem exec_contextRestore_restores {e : Nat} {v : Saved} (work : s.workFor (coreOf c) (ctxNum c) = some (.restore e v))
    (restored : restoreEntry (coreOf c) (ctxNum c) e v s = .ok () t) :
    exec (.contextRestore (coreOf c) e (ctxNum c)) s = .next t := by
  have whole : coreOf c * 16 + ctxNum c = c := Nat.div_add_mod' c 16
  have low : decide (ctxNum c < 14) = true := by
    simp only [State.canTake, Bool.and_eq_true] at free
    exact free.1.1.2
  rw [exec_contextRestore, execContextRestore, whole, free, low, work]
  simp only [Bool.and_self, if_true]
  exact runEvent_ok restored

end

/-! ## Messages (R337 to R341, R362) -/

section
variable {f id : Nat} {m : Msg} {s : State} (known : s.msg? f id = some m)
include known

theorem exec_messageArrive_tries (flying : m.st = .flying) (first : s.msgFirst f m = true) :
    exec (.messageArrive f id) s = .next (s.tryArrive f m) := by
  rw [exec_messageArrive, execMessageArrive, known]
  simp only [flying, first, decide_true, Bool.and_self, if_true]

theorem exec_messageReturn_tries {st : Nat} (returning : m.st = .returning st) :
    exec (.messageReturn f id) s = .next (s.tryReturn f m st) := by
  rw [exec_messageReturn, execMessageReturn, known]
  simp only [returning]

theorem exec_refusalRetryTimer_tries {t : Nat} (refused : m.st = .refused false t) (due : t + 2000 ≤ s.ns) :
    exec (.refusalRetryTimer f id) s = .next (s.tryArrive f m) := by
  rw [exec_refusalRetryTimer, execRefusalRetryTimer, State.timerRetry, known]
  simp only [refused, if_pos due]

/-- The oldest listed sender, where it meets no refusal now. -/
theorem State.freeMsg_of_head {k : Nat} {r : List Nat} (head : (s.core k).refused = id :: r) (here : fieldOf k = f)
    (meets : s.retries k m = true) : s.freeMsg k = some m := by
  rw [State.freeMsg, head, List.findSome?_cons, here, known, Option.filter_some, if_pos meets]

end

theorem State.listAt_ns (s : State) (k id : Nat) : (s.listAt k id).1.ns = s.ns := by
  unfold State.listAt
  dsimp only
  split <;> rfl

section
variable {f : Nat} {m : Msg} {s : State}

theorem State.tryArrive_placed {s' : State} (placed : s.arrive f m = .placed s') : s.tryArrive f m =
    (s'.dropMsg f m.id).wakeMem fun c => coreOf c == m.src || some (coreOf c) == s.destOf f m := by
  rw [State.tryArrive, placed]

theorem State.tryArrive_refused (refused : s.arrive f m = .refused) : s.tryArrive f m = s.refuse f m := by
  rw [State.tryArrive, refused]

theorem State.tryArrive_back {st : Nat} (back : s.arrive f m = .back st) : s.tryArrive f m =
    if st = 2 then (s.setMsg f m.id (.returning st)).portov m else s.setMsg f m.id (.returning st) := by
  rw [State.tryArrive, back]

variable {st : Nat}

theorem State.tryReturn_placed {s' : State} (placed : s.returnMsg m st = .placed s') :
    s.tryReturn f m st = (s'.dropMsg f m.id).wakeMem fun c => coreOf c == m.src := by
  rw [State.tryReturn, placed]

theorem State.tryReturn_refused (refused : s.returnMsg m st = .refused) (alive : m.ended = false) :
    s.tryReturn f m st = (s.listAt m.src m.id).1.setMsg f m.id (.retRefused st (s.listAt m.src m.id).2 s.ns) := by
  rw [State.tryReturn, refused]
  simp only [alive, Bool.false_eq_true, if_false, State.listAt_ns]

theorem State.tryReturn_held (held : s.returnMsg m st = .held) (alive : m.ended = false) : s.tryReturn f m st = s := by
  rw [State.tryReturn, held]
  simp only [alive, Bool.false_eq_true, if_false]

theorem State.tryReturn_lost (ended : m.ended = true) (unplaced : ∀ u, s.returnMsg m st ≠ .placed u) :
    s.tryReturn f m st = (s.dropMsg f m.id).logErr f .msglost
      { kind := 2, loc := locator m.src, detail := m.tag.setWidth 64 } := by
  cases met : s.returnMsg m st with
  | placed u => exact absurd met (unplaced u)
  | back _ | refused | held => simp only [State.tryReturn, met, ended, if_true]

end

section
variable {k : Nat} {m : Msg} {s : State} (free : s.freeMsg k = some m) {l : Bool} {t : Nat}
include free

theorem exec_cfreeRetry_arrives (refused : m.st = .refused l t) : exec (.cfreeRetry k) s =
    .next ((s.modCore k fun c => { c with refused := c.refused.filter (· != m.id), cfree := none }).tryArrive (fieldOf k) m) := by
  rw [exec_cfreeRetry, execCfreeRetry, State.cfreeRetry, free]
  simp only [refused]

theorem exec_cfreeRetry_returns {st : Nat} (refused : m.st = .retRefused st l t) : exec (.cfreeRetry k) s =
    .next ((s.modCore k fun c => { c with refused := c.refused.filter (· != m.id), cfree := none }).tryReturn (fieldOf k) m st) := by
  rw [exec_cfreeRetry, execCfreeRetry, State.cfreeRetry, free]
  simp only [refused]

end

/-! ## The saddlebag (R342) -/

theorem exec_saddlebagWake_wakes {k : Nat} {s : State} {w : Word} (reg : w = (s.core k).reg 0x045) (on : w.getLsbD 63 = true)
    (works : (s.core k).retired = false) (idle : (s.ctx (k * 16 + 14)).idle = true)
    (due : bits w 57 6 + 1 ≤ (s.core k).poolUsed ∨ (s.core k).spills ≠ []) :
    exec (.saddlebagWake k) s = .next (if (s.ctx (k * 16 + 14)).st = .asleep then s.modCtx (k * 16 + 14) Ctx.wakeUp
      else (s.modCtx (k * 16 + 14) fun y =>
        y.startService (w &&& 0x01FFFFFFFFFFFFFC#64) (Vector.replicate 64 0) { tid := s.fresh }).bump.startAcquire k) := by
  subst reg
  have wakes : (decide (bits ((s.core k).reg 0x045) 57 6 + 1 ≤ (s.core k).poolUsed) || !(s.core k).spills.isEmpty) = true := by
    rcases due with full | spilled
    · simp [full]
    · simp [spilled]
  rw [exec_saddlebagWake, execSaddlebagWake]
  simp only [on, works, idle, wakes, Bool.not_false, Bool.and_self, if_true]
  split <;> rfl

/-- Settles O43: the work given, and what each message meets, case by case. -/
theorem schedulerSteps : Obligations.SchedulerSteps := by
  refine ⟨fun c s free => ⟨fun n p work => exec_contextSelect_gives free work rfl, fun j work => exec_contextSelect_gives free work rfl,
      fun r work => exec_contextSelect_gives free work rfl, fun i e work => exec_contextSelect_gives free work rfl,
      fun v i e work => exec_contextSelect_gives free work rfl, fun e v t restored =>
        ⟨fun work => exec_contextSelect_gives free work restored, fun work => exec_contextRestore_restores free work restored⟩⟩,
    fun f id k m s s' => ⟨fun known => ⟨fun flying first => ?_, fun st returning => ?_, fun t refused due placed => ?_⟩,
      fun r head here known meets => ?_, fun on works idle due => exec_saddlebagWake_wakes rfl on works idle due⟩⟩
  · rw [exec_messageArrive_tries known flying first]
    exact ⟨fun placed => by rw [State.tryArrive_placed placed], fun refused => by rw [State.tryArrive_refused refused],
      fun st back => by rw [State.tryArrive_back back]⟩
  · rw [exec_messageReturn_tries known returning]
    exact ⟨fun placed => by rw [State.tryReturn_placed placed], fun refused alive => by rw [State.tryReturn_refused refused alive],
      fun held alive => by rw [State.tryReturn_held held alive], fun ended unplaced => by rw [State.tryReturn_lost ended unplaced]⟩
  · rw [exec_refusalRetryTimer_tries known refused due, State.tryArrive_placed placed]
  · have free := State.freeMsg_of_head known head here meets
    subst here
    exact ⟨fun l t refused => exec_cfreeRetry_arrives free refused, fun st l t refused => exec_cfreeRetry_returns free refused⟩

end Sys2Proof.Machine
end


section
/-! Obligation SaveAndKillResults (R391 to R393): CXSAVE, CXLOAD, KILL and KREVOKE, accepted at field level. -/

namespace Sys2Proof.Machine

/-- A status word in gd, after an instruction of the field level has left a state. -/
def State.topped (u : State) (d : GReg) (st : Nat) : State := u.setMe (u.me.wg d (topStatus st))

theorem cxChecks_ok {va x : Nat} {s : State} (aligned : va % 4096 = 0) (low : x < 14) (other : x ≠ ctxNum s.cur) (i : Instr) :
    cxChecks i va x s = .ok () s := by
  simp only [cxChecks, M_bind, M_get, decide_eq_false (Nat.not_le.2 low), beq_false_of_ne other, Bool.or_self, M_illop_false,
    aligned, bne_self_eq_false, M_trap_false]

section
variable {h : Hdr} {s : State} (on : On h s) (field : s.me.lvl = true) {d a b : GReg}
include on field

/-! ## CXSAVE (R391) -/

section
variable {ctx : BitVec 4} (aligned : (s.me.rg a).toNat % 4096 = 0) (low : ctx.toNat < 14) (other : ctx.toNat ≠ ctxNum s.cur)
include aligned low other

theorem exec_cxsave_answers {u : State} {st : Nat} (body : cxsaveBody (s.me.rg a).toNat ctx.toNat s = .ok st u) :
    exec (.cxsave h d a ctx) s = .next (bodyNext h (u.topped d st) .next) := by
  rw [exec_cxsave, execCxsave, runPriv_field field]
  refine runIsa_ok on ?_
  simp only [M_bind, M_me, cxChecks_ok aligned low other, body, M_modMe, M_pure]
  rfl

theorem exec_cxload_answers {u : State} {st : Nat} (body : cxloadBody (s.me.rg a).toNat ctx.toNat s = .ok st u) :
    exec (.cxload h d a ctx) s = .next (bodyNext h (u.topped d st) .next) := by
  rw [exec_cxload, execCxload, runPriv_field field]
  refine runIsa_ok on ?_
  simp only [M_bind, M_me, cxChecks_ok aligned low other, body, M_modMe, M_pure]
  rfl

end
end

section
variable {s s1 : State} {va x : Nat} (fresh : ∀ p ∈ s.me.parts, p.1 ≠ 0)
include fresh

theorem parts_unbegun : s.me.parts.find? (fun p => p.1 == 0) = none :=
  List.find?_eq_none.2 fun p mem => by simpa using fresh p mem

theorem cxsaveBody_unreached (reach : (s.frameHere va).reach ((s.core s.myCore).heldAccs x) true s = .ok false s1) :
    cxsaveBody va x s = .ok 4 s1 := by
  simp only [cxsaveBody, M_bind, M_get, parts_unbegun fresh, reach, Bool.not_false, if_true, M_pure]

variable (reach : (s.frameHere va).reach ((s.core s.myCore).heldAccs x) true s = .ok true s)
include reach

theorem cxsaveBody_vacant (vacant : (s.ctx (s.myCore * 16 + x)).vacant = true) : cxsaveBody va x s = .ok 1 s := by
  simp only [cxsaveBody, M_bind, M_get, parts_unbegun fresh, reach, Bool.not_true, Bool.false_eq_true, if_false, vacant,
    if_true, M_pure]

theorem cxsaveBody_saves {c : Nat} (ctx : c = s.myCore * 16 + x) (held : (s.ctx c).vacant = false) (idle : (s.ctx c).saving = none)
    (boundary : (s.unsend c).midway c = false) (runs : (s.ctx c).task.stop = false) {v : Saving}
    (save : v = 
      { reason := 3, entry := none, asid := (s.frameHere va).asid, key := (s.frameHere va).key, addr := va, reqs := s.reqsOf c })
    {s0 t : State} (begun : s0 = (s.unsend c).modCtx c fun y => { y with saving := some v })
    (same : ((s0.setMe { s0.me with parts := [(0, BitVec.ofNat 128 (s.ctx c).task.tid, 0)] }).ctx c).task.tid = (s.ctx c).task.tid)
    (saved : saveOn c (s0.setMe { s0.me with parts := [(0, BitVec.ofNat 128 (s.ctx c).task.tid, 0)] }) = .ok () t) :
    cxsaveBody va x s = .ok (if t.alive (s.ctx c).task.tid then 0 else 5) t := by
  subst ctx save begun
  simp only [cxsaveBody, M_bind, M_get, parts_unbegun fresh, reach, Bool.not_true, Bool.false_eq_true, if_false, held, idle, boundary,
    Option.isSome_none, Bool.or_false, M_wait_false, runs, M_set, M_modMe, cxsaveOn, same, if_true, saved, M_pure]

end

theorem State.unsend_task (s : State) (c : Nat) : ((s.unsend c).ctx c).task = (s.ctx c).task := by
  unfold State.unsend
  dsimp only
  split
  · rw [State.modCtx, State.setCtx_ctx]
    rfl
  · rfl

/-- The parts of an instruction are no part of the tasks. -/
theorem State.setParts_task (u : State) (ps : List (Nat × BitVec 128 × BitVec 5)) (c : Nat) :
    ((u.setMe { u.me with parts := ps }).ctx c).task = (u.ctx c).task := by
  by_cases mine : c = u.cur
  · subst mine
    rw [State.setMe, State.setCtx_ctx]
    rfl
  · exact congrArg Ctx.task (State.setCtx_ctx_ne _ _ _ _ mine)

/-! ## CXLOAD (R391) -/

section
variable {s s1 s2 s3 : State} {va x : Nat} {bs : List Byte}

theorem cxloadBody_unreached (reach : (s.frameHere va).reach 0 false s = .ok false s1) : cxloadBody va x s = .ok 4 s1 := by
  simp only [cxloadBody, M_bind, M_get, reach, Bool.not_false, if_true, M_pure]

variable (reach : (s.frameHere va).reach 0 false s = .ok true s1) (read : (s.frameHere va).read 0 16 s1 = .ok (some bs) s2)
  (whole : (s.frameHere va).reach (BitVec.ofNat 4 (fieldAt bs 25 1)) false s2 = .ok true s3)
include reach read whole

theorem cxloadBody_taken (taken : (s.ctx (s.myCore * 16 + x)).st ≠ .free) : cxloadBody va x s = .ok 2 s3 := by
  simp only [cxloadBody, M_bind, M_get, reach, read, Option.getD_some, whole, Bool.not_true, Bool.false_eq_true, if_false,
    bne_iff_ne.2 taken, if_true, M_pure]

theorem cxloadBody_own {sv : Saved} (free : (s.ctx (s.myCore * 16 + x)).st = .free)
    (own : s.savedAt s.myCore va bs = some (s.myCore, sv)) :
    cxloadBody va x s = cxloadInto s.myCore x (s.frameHere va) (some (s.myCore, sv)) s3 := by
  simp only [cxloadBody, M_bind, M_get, reach, read, Option.getD_some, whole, Bool.not_true, Bool.false_eq_true, if_false, free, own,
    bne_self_eq_false, Option.any_some, Bool.false_and]

end

section
variable {k x : Nat} {a : FrameAt} {sv : Saved} {s t : State}

theorem cxloadInto_restores (restored : restoreInto k x a none sv s = .ok true t) :
    cxloadInto k x a (some (k, sv)) s = .ok 0 (t.takeLate (k * 16 + x)) := by
  simp only [cxloadInto, moveItems, M_bind, M_get, bne_self_eq_false, Bool.false_and, M_wait_false, Bool.false_eq_true, if_false, M_pure,
    restored, if_true, M_modify]

theorem cxloadInto_loses (lost : restoreInto k x a none sv s = .ok false t) :
    cxloadInto k x a (some (k, sv)) s = .ok 5 (t.loseSaved k sv) := by
  simp only [cxloadInto, moveItems, M_bind, M_get, bne_self_eq_false, Bool.false_and, M_wait_false, Bool.false_eq_true, if_false, M_pure,
    lost, M_modify]

end

/-! ## KILL (R392) -/

/-- The record of a KILL that the running context issues. -/
def State.killOf (s : State) (j x tid : Nat) (frame : Bool) (va : Nat) : Kill :=
  { id := s.fresh, tid := tid, record := va, asid := s.me.asid, by_ := s.myCore, core := j
    cx := if frame then s.savingTo j x else some (j * 16 + x), frame := if frame then some x else none }

theorem recordAlign_ok {va : Word} (aligned : va.toNat % 64 = 0) (s : State) : recordAlign va s = .ok () s := by
  simp only [recordAlign, aligned, bne_self_eq_false, M_trap_false]

/-- The task that a KILL of a context names runs there. -/
theorem killTarget_ctx {s : State} {j x tid : Nat} (known : s.killTarget j x false = some tid) :
    (s.ctx (j * 16 + x)).vacant = false ∧ (s.ctx (j * 16 + x)).task.tid = tid := by
  simp only [State.killTarget, Bool.false_eq_true, if_false] at known
  split at known
  · cases known
  next held => exact ⟨Bool.eq_false_iff.2 held, Option.some.inj known⟩

/-- A KILL that waits for the save or the committed instruction of its target. -/
def State.killHeld (s : State) (x : Kill) : State :=
  s.modField (fieldOf x.core) fun fd => { fd with kills := fd.kills.filter (fun y => y.id != x.id) ++ [{ x with begun := false }] }

theorem State.killHeld_mem (s : State) (x : Kill) : { x with begun := false } ∈ ((s.killHeld x).field (fieldOf x.core)).kills := by
  rw [State.killHeld, State.modField_field]
  exact List.mem_append_right _ (List.mem_singleton_self _)

theorem beginKill_ctx {s : State} {j x tid : Nat} (known : s.killTarget j x false = some tid) (va : Nat) :
    s.bump.beginKill (s.killOf j x tid false va) =
      if (s.ctx (j * 16 + x)).saving.isSome || (s.ctx (j * 16 + x)).committed then s.bump.killHeld (s.killOf j x tid false va)
      else s.bump.killTask (s.killOf j x tid false va) := by
  obtain ⟨held, task⟩ := killTarget_ctx known
  have here : (s.killOf j x tid false va).cx.filter (fun c => (s.bump.ctx c).task.tid == (s.killOf j x tid false va).tid &&
      !(s.bump.ctx c).vacant) = some (j * 16 + x) := by
    show (some (j * 16 + x)).filter (fun c => (s.ctx c).task.tid == tid && !(s.ctx c).vacant) = _
    simp [Option.filter_some, held, task]
  simp only [State.beginKill, here]
  rfl

section
variable {s : State} {target : Word} {j x tid : Nat} {frame : Bool} (named : frame = target.getLsbD 63) (number : x = bits target 32 4)
  (core : s.locCore (target.setWidth 32) = some j) (here : fieldOf j = s.myField)
  (idle : (s.field s.myField).killing j (if frame then none else some (j * 16 + x)) (if frame then some x else none) = false)
  (known : s.killTarget j x frame = some tid) (unkilled : ∀ y ∈ (s.field s.myField).kills, y.tid ≠ tid)
include named number core here idle known unkilled

theorem killBody_begins (va : Nat) : killBody target va s = .ok 0 (s.bump.beginKill (s.killOf j x tid frame va)) := by
  subst named number
  simp only [killBody, M_bind, M_get, core, here, bne_self_eq_false, Bool.false_eq_true, if_false, idle, known,
    any_eq_false_of_forall_ne unkilled, M_freshId, M_modify, M_pure]
  cases target.getLsbD 63 <;> rfl

variable {h : Hdr} {d a b : GReg} (on : On h s) (field : s.me.lvl = true) (word : target = s.me.rg a)
  (good : s.killBad target = false) (aligned : (s.me.rg b).toNat % 64 = 0)
include on field word good aligned

theorem exec_kill_begins : exec (.kill h d a b) s =
      .next (bodyNext h ((s.bump.beginKill (s.killOf j x tid frame (s.me.rg b).toNat)).topped d 0) .next) := by
  have body := killBody_begins named number core here idle known unkilled (s.me.rg b).toNat
  subst word
  rw [exec_kill, execKill, runPriv_field field]
  refine runIsa_ok on ?_
  simp only [M_bind, M_get, good, M_illop_false, recordAlign_ok aligned, body, M_modMe, M_pure]
  rfl

theorem exec_kill_ends (ctx : frame = false) (unsaved : (s.ctx (j * 16 + x)).saving = none)
    (uncommitted : (s.ctx (j * 16 + x)).committed = false) : exec (.kill h d a b) s =
      .next (bodyNext h ((s.bump.killTask (s.killOf j x tid frame (s.me.rg b).toNat)).topped d 0) .next) := by
  have begins := exec_kill_begins (d := d) named number core here idle known unkilled on field word good aligned
  rw [ctx] at known begins ⊢
  rw [begins, beginKill_ctx known, unsaved, uncommitted]
  rfl

theorem exec_kill_holds (ctx : frame = false) (busy : (s.ctx (j * 16 + x)).saving ≠ none ∨ (s.ctx (j * 16 + x)).committed = true) :
    ∃ u, exec (.kill h d a b) s = .next u ∧
      { s.killOf j x tid frame (s.me.rg b).toNat with begun := false } ∈ (u.field s.myField).kills := by
  have begins := exec_kill_begins (d := d) named number core here idle known unkilled on field word good aligned
  rw [ctx] at known begins ⊢
  have waits : ((s.ctx (j * 16 + x)).saving.isSome || (s.ctx (j * 16 + x)).committed) = true := by
    rcases busy with saves | commits
    · simp [Option.isSome_iff_ne_none.2 saves]
    · simp [commits]
  rw [beginKill_ctx known, if_pos waits] at begins
  refine ⟨_, begins, ?_⟩
  rw [bodyNext_field, ← here]
  exact State.killHeld_mem s.bump (s.killOf j x tid false (s.me.rg b).toNat)

end

/-! ## KREVOKE (R393) -/

theorem exec_krevoke_revokes {h : Hdr} {s : State} (on : On h s) (field : s.me.lvl = true) {d a b : GReg} {n : Nat} {p : Part}
    (key : (s.me.rg a).toNat < 256) (aligned : (s.me.rg b).toNat % 64 = 0) (part : s.partOf s.myField = some n)
    (known : SMap.find? s.parts n = some p) (valid : s.keyValid p (s.me.rg a).toNat = true) {s' : State}
    (revoked : s' = s.revoke n p ((s.me.rg a).setWidth 8) (some ((s.me.rg b).toNat, s.me.asid, s.myCore))) :
    exec (.krevoke h d a b) s = .next (bodyNext h (s'.setMe (s'.me.wg d 0)) .next) := by
  have number : ((s.me.rg a).setWidth 8).toNat = (s.me.rg a).toNat := by
    rw [BitVec.toNat_setWidth]
    exact Nat.mod_eq_of_lt key
  subst revoked
  rw [exec_krevoke, execKrevoke, runPriv_field field]
  refine runIsa_ok on ?_
  simp only [M_bind, M_me, decide_eq_false (Nat.not_le.2 key), M_illop_false, recordAlign_ok aligned, krevokeBody, M_get, part,
    Option.bind_some, known, Option.map_some, number, valid, Bool.not_true, Bool.false_eq_true, if_false, M_set, M_modMe, M_pure]
  rfl

/-- Settles O41: each form by the branch of its body that the state meets. -/
theorem saveAndKillResults : Obligations.SaveAndKillResults := by
  intro h d a b s s1 s2 s3 t on field
  refine ⟨fun ctx aligned low other fresh => ⟨fun reach => ?_, fun reach vacant => ?_, fun reach held idle boundary runs saved => ?_⟩,
    fun ctx sv bs aligned low other => ⟨fun reach => ?_, fun reach read whole => ⟨fun taken => ?_, fun free own =>
      ⟨fun restored => ?_, fun lost => ?_⟩⟩⟩,
    fun j tid good aligned core here idle known unkilled => ?_,
    fun n p key aligned part known valid => exec_krevoke_revokes on field key aligned part known valid rfl⟩
  · exact exec_cxsave_answers on field aligned low other (cxsaveBody_unreached fresh reach)
  · exact exec_cxsave_answers on field aligned low other (cxsaveBody_vacant fresh reach vacant)
  · refine exec_cxsave_answers on field aligned low other
      (cxsaveBody_saves fresh reach rfl held idle boundary runs rfl rfl (congrArg Task.tid ?_) saved)
    refine (State.setParts_task ..).trans (Eq.trans ?_ (s.unsend_task _))
    rw [State.modCtx, State.setCtx_ctx]
  · exact exec_cxload_answers on field aligned low other (cxloadBody_unreached reach)
  · exact exec_cxload_answers on field aligned low other (cxloadBody_taken reach read whole taken)
  · exact exec_cxload_answers on field aligned low other
      ((cxloadBody_own reach read whole free own).trans (cxloadInto_restores restored))
  · exact exec_cxload_answers on field aligned low other ((cxloadBody_own reach read whole free own).trans (cxloadInto_loses lost))
  · have begins := exec_kill_begins (d := d) rfl rfl core here idle known unkilled on field rfl good aligned
    have ends := exec_kill_ends (d := d) rfl rfl core here idle known unkilled on field rfl good aligned
    have holds := exec_kill_holds (d := d) rfl rfl core here idle known unkilled on field rfl good aligned
    unfold State.topped State.killOf at begins ends
    unfold State.killOf at holds
    exact ⟨begins, ends, holds⟩

end Sys2Proof.Machine
end


section
/-! Obligation LaunchSteps (R323 to R334, R354): the steps of a dispatcher. -/

namespace Sys2Proof.Machine

/-! ## Records and graph nodes (R323, R327, R354) -/

section
variable {f q : Nat} {s t : State} (runs : s.dispatching f = true) (served : (s.field f).served q = true)
include runs served

theorem exec_launchRecordRead_node {lid i : Nat} {g : Launch}
    (ready : (s.launchesOf f q).findSome? (fun x => x.2.readyNode.map fun i => (x.1, x.2, i)) = some (lid, g, i))
    (sent : dispatchNode f q lid g i s = .ok () t) : exec (.launchRecordRead f q) s = .next t := by
  simp only [exec_launchRecordRead, execLaunchRecordRead, runs, served, ready, Bool.not_true, Bool.or_self, Bool.false_eq_true,
    if_false, runEvent_ok sent]

variable (none_ready : (s.launchesOf f q).findSome? (fun x => x.2.readyNode.map fun i => (x.1, x.2, i)) = none)
  (passed : ∀ x ∈ s.launchesOf f q, x.2.parent = none → x.2.headDone = true)
include none_ready passed

omit runs served none_ready in
/-- No record of the queue still waits to have its groups placed. -/
theorem no_record_waits : ((s.launchesOf f q).any fun x => x.2.parent.isNone && !x.2.headDone) = false :=
  List.any_eq_false.2 fun x mem waits => by
    obtain ⟨top, undone⟩ := (Bool.and_eq_true ..).mp waits
    simp [passed x mem (Option.isNone_iff_eq_none.1 top)] at undone

theorem exec_launchRecordRead_takes (took : takeRecord f q s = .ok () t) : exec (.launchRecordRead f q) s = .next t := by
  simp only [exec_launchRecordRead, execLaunchRecordRead, runs, served, none_ready, no_record_waits passed, took, Bool.not_true,
    Bool.or_self, Bool.false_eq_true, if_false]

theorem exec_launchRecordRead_stops {c : BitVec 8} {a : Nat} (failed : takeRecord f q s = .error (.fail c a) t) :
    exec (.launchRecordRead f q) s = .next (t.stopQueue f q (ringCause c)) := by
  simp only [exec_launchRecordRead, execLaunchRecordRead, runs, served, none_ready, no_record_waits passed, failed, Bool.not_true,
    Bool.or_self, Bool.false_eq_true, if_false]

end

/-! ## Placing (R329, R330) -/

theorem exec_groupPlace_places {f q : Nat} {s s1 t : State} (places : s.places f q = true) (wrote : writeHead f q s = .ok () s1)
    (again : writeHead f q (s1.placeHead f q) = .ok () t) : exec (.groupPlace f q) s = .next t := by
  simp only [exec_groupPlace, execGroupPlace, places, Bool.not_true, Bool.false_eq_true, if_false, wrote, runEvent_ok again]

/-- The group that a reservation records. -/
theorem State.reserve_group (s : State) (f lid : Nat) (l : Launch) (i : Nat) (members : List Nat) :
    SMap.find? (s.reserve f lid l i members).groups s.fresh =
      some { lid := lid, index := i, field := f, members := members, status := members.map (fun _ => none), prio := l.queue,
             started := false, startNs := s.ns } :=
  SMap.find_put_self ..

theorem State.placeHead_reserves {f q lid pn : Nat} {s : State} {l : Launch} {part part' : Part} {ms : List Nat}
    (head : s.headOf f q = some (lid, l)) (owner : s.partOf f = some pn) (now : s.partNow pn = some part)
    (may : s.mayPass f q = true) (unheld : l.heldWin ≠ some part.window)
    (fits : s.fit f l.w l.h l.cls lid (fun _ => false) = some ms) (admitted : part.takesIn l.energy = some part') :
    s.placeHead f q = State.reserve { s with parts := SMap.put s.parts pn part' } f lid l ((l.todoIn f).headD 0) ms := by
  simp only [State.placeHead, head, owner, now, may, unheld, fits, admitted, Bool.not_true, decide_false, Bool.or_self,
    Bool.false_eq_true, if_false]

/-! ## Starting a gang (R331) -/

/-- Where no member's core has been retired, no member is dead at the start. -/
theorem no_dead_members {g : Group} {s : State} (alive : ∀ c ∈ g.members, (s.core (coreOf c)).retired = false) :
    (g.members.zipIdx.filter fun m => (s.core (coreOf m.1)).retired) = [] :=
  List.filter_eq_nil_iff.2 fun m mem => by simp [alive m.1 (List.fst_mem_of_mem_zipIdx mem)]

theorem exec_gangStart_starts {f gid : Nat} {s : State} {g : Group} {l : Launch} (known : SMap.find? s.groups gid = some g)
    (launch : SMap.find? s.launches g.lid = some l) (waits : g.started = false) (here : g.field = f)
    (alive : ∀ c ∈ g.members, (s.core (coreOf c)).retired = false) :
    ∃ u : State, exec (.gangStart f gid) s = .next u ∧
      SMap.find? u.groups gid = some { g with started := true, startNs := u.ns } ∧
      SMap.find? u.launches g.lid = some { l with tFirst := some (l.tFirst.getD u.ns) } := by
  subst here
  rw [exec_gangStart, execGangStart]
  simp only [known, launch, waits, no_dead_members alive, bne_self_eq_false, Bool.or_self, Bool.false_eq_true, if_false]
  exact ⟨_, rfl, SMap.find_put_self .., SMap.find_put_self ..⟩

/-! ## Starvation and pre-emption (R329) -/

theorem exec_starveTimeout_marks {f q lid : Nat} {s : State} {l : Launch} (head : s.headOf f q = some (lid, l))
    (waited : l.waited s.ns (bits ((s.field f).reg 0x043) 16 16) = true) :
    exec (.starveTimeout f q) s = .next { s with launches := SMap.put s.launches lid { l with starved := true } } := by
  simp only [exec_starveTimeout, execStarveTimeout, head, waited, if_true]

theorem Ctx.preempt_ready {c : Ctx} (ready : c.st = .ready) (clk lid : Nat) :
    (c.preempt clk lid).st = .ready ∧ (c.preempt clk lid).preq = true := by
  unfold Ctx.preempt
  simp only [ready, and_self]

/-- Raising PREQ leaves a ready context ready, and never takes a PREQ back. -/
theorem State.preempt_keeps {s : State} {c : Nat} (ready : (s.ctx c).st = .ready) (a lid : Nat) :
    ((s.modCtx a fun x => x.preempt s.clk lid).ctx c).st = .ready ∧
      ((s.ctx c).preq = true ∨ a = c → ((s.modCtx a fun x => x.preempt s.clk lid).ctx c).preq = true) := by
  by_cases same : a = c
  · subst same
    rw [State.modCtx_ctx]
    exact ⟨(Ctx.preempt_ready ready ..).1, fun _ => (Ctx.preempt_ready ready ..).2⟩
  · rw [State.modCtx, State.setCtx_ctx_ne _ _ _ _ (Ne.symm same)]
    exact ⟨ready, fun raised => raised.resolve_right same⟩

/-- Every ready context of a list has PREQ after PREQ is raised along the list. -/
theorem State.preempt_all {lid c : Nat} (cs : List Nat) {s : State} (ready : (s.ctx c).st = .ready) (hit : (s.ctx c).preq = true ∨ c ∈ cs) :
    ((cs.foldl (fun s a => s.modCtx a fun x => x.preempt s.clk lid) s).ctx c).preq = true := by
  induction cs generalizing s with
  | nil => exact hit.resolve_right List.not_mem_nil
  | cons a cs ih =>
    obtain ⟨still, raised⟩ := State.preempt_keeps ready a lid
    refine ih still ?_
    rcases hit with had | mem
    · exact .inl (raised (.inl had))
    · rcases List.mem_cons.1 mem with now | later
      · exact .inl (raised (.inr now.symm))
      · exact .inr later

theorem exec_preemptRequest_raises {f q lid : Nat} {s : State} {l : Launch} {ms : List Nat} {vs : List (Nat × Group)}
    (head : s.headOf f q = some (lid, l)) (on : bits ((s.field f).reg 0x043) 32 16 ≠ 0)
    (waited : l.waited s.ns (bits ((s.field f).reg 0x043) 32 16) = true) (runs : s.dispatching f = true)
    (chosen : s.preemptFor f lid l (s.victims f q) = some (ms, vs)) :
    ∃ u, exec (.preemptRequest f q) s = .next u ∧ ∀ g ∈ vs, (∃ a ∈ g.2.members, ∃ m ∈ ms, coreOf m = coreOf a) →
      ∀ c ∈ g.2.members, (s.ctx c).task.member.map (·.gid) = some g.1 → (s.ctx c).st = .ready → (u.ctx c).preq = true := by
  rw [exec_preemptRequest, execPreemptRequest, head]
  simp only [on, waited, runs, chosen, decide_false, Bool.not_true, Bool.or_self, Bool.false_eq_true, if_false]
  refine ⟨_, rfl, fun g victim shares c member of_group ready => State.preempt_all _ ready (.inr ?_)⟩
  obtain ⟨a, a_mem, m, m_mem, same_core⟩ := shares
  have hit : (g.2.members.any fun c => ms.any fun m => coreOf m == coreOf c) = true :=
    List.any_eq_true.2 ⟨a, a_mem, List.any_eq_true.2 ⟨m, m_mem, beq_iff_eq.2 same_core⟩⟩
  exact List.mem_flatMap.2 ⟨g, List.mem_filter.2 ⟨victim, hit⟩, List.mem_filter.2 ⟨member, beq_iff_eq.2 of_group⟩⟩

/-! ## Spanning launches (R332) -/

theorem exec_spanReport_reports {f lid n : Nat} {s : State} {l : Launch}
    (turn : List.find? (fun (x : Nat × Launch) => x.2.flags.getLsbD 1 && !x.2.reject && !x.2.todo.isEmpty && x.2.visits == f &&
      x.2.fmask.getLsbD f) s.launches = some (lid, l))
    (batch : n = if s.dispatching f = true ∧ SMap.get l.batches f [] = [] then
      s.placeable f lid l (Nat.min 64 l.todo.length) [] else 0) :
    exec (.spanReport f) s = .next { s with
      launches := SMap.put s.launches lid
        { l with todo := l.todo.drop n, turn := nextField l.fmask f
                 batches := if n = 0 then l.batches else SMap.put l.batches f (l.todo.take n) } } := by
  subst batch
  rw [exec_spanReport, execSpanReport, turn]
  simp only [Bool.and_eq_true, List.isEmpty_iff]

/-! ## Completion (R328) -/

theorem exec_launchComplete_ends {f lid : Nat} {s s1 s2 : State} {l : Launch} (known : SMap.find? s.launches lid = some l)
    (here : l.field = f) (ended : s.over lid l = true) (top : l.parent = none) (wrote : writeHead f l.queue s = .ok () s1)
    (passed : (SMap.get s1.launches lid l).headDone = true)
    (compl : writeCompl f l.asid l.compl l.status l.tag l.record s1 = .ok () s2) :
    exec (.launchComplete f lid) s = .next (State.bump (s2.endLaunch lid (SMap.get s1.launches lid l))) := by
  rw [exec_launchComplete, execLaunchComplete, known]
  simp only [here, ended, top, bne_self_eq_false, Bool.not_true, Bool.or_self, Bool.false_eq_true, if_false, Option.isNone_none,
    if_true]
  apply runEvent_ok (u := ())
  rw [bind_ok wrote, bind_ok (M_get s1), bind_ok (waitIf_ok (by rw [passed, Bool.not_true, Bool.and_false]) ..),
    bind_ok (onFail_ok compl _)]
  rfl

/-! ## Graph nodes (R354) -/

theorem exec_graphNodeEnd_ends {f lid node cid : Nat} {s t : State} {l c : Launch} (known : SMap.find? s.launches lid = some l)
    (child : List.find? (fun (x : Nat × Launch) => x.2.parent == some (lid, node) && x.2.ended.isSome) s.launches = some (cid, c))
    (ends : endNode f lid l node (c.ended.getD 2) (some (cid, c)) s = .ok () t) :
    exec (.graphNodeEnd f lid node) s = .next t := by
  simp only [exec_graphNodeEnd, execGraphNodeEnd, known, child, runEvent_ok ends]

/-- Settles O42: each step of a dispatcher, in the model's terms. -/
theorem launchSteps : Obligations.LaunchSteps := by
  intro f q lid gid node l s s1 s2 t
  refine ⟨fun runs served => ⟨fun g i ready sent => exec_launchRecordRead_node runs served ready sent, fun none_ready passed =>
      ⟨fun took => exec_launchRecordRead_takes runs served none_ready passed took,
        fun c a failed => exec_launchRecordRead_stops runs served none_ready passed failed⟩⟩,
    fun places wrote again => exec_groupPlace_places places wrote again,
    fun pn part part' ms head owner now may unheld fits admitted => ?_,
    fun g known launch waits here alive => exec_gangStart_starts known launch waits here alive,
    fun head waited => exec_starveTimeout_marks head waited,
    fun ms vs head on waited runs chosen => exec_preemptRequest_raises head on waited runs chosen,
    fun turn => exec_spanReport_reports turn rfl,
    fun known here ended top wrote passed compl => exec_launchComplete_ends known here ended top wrote passed compl,
    fun cid c known child ends => exec_graphNodeEnd_ends known child ends⟩
  rw [State.placeHead_reserves head owner now may unheld fits admitted]
  exact State.reserve_group ..

end Sys2Proof.Machine
end

section
/-! System forms (R164 to R167, R376, R378, R390, R398): traps that an instruction raises, RETT, the registers by number, and the
sequence ring. -/

namespace Sys2Proof.Machine

/-! ## RETT and HALT -/

theorem lateFirst_late {s : State} (due : s.me.lateDue ≠ []) : lateFirst s = .error .late s := by simp [lateFirst, due]

theorem runFree_trap {h : Hdr} {s s' : State} {m : M Flow} {t : Trap} (e : m s = .error (.trap t) s') :
    runFree h m s = .next (s.takeTrap s.cur t) := by
  simp only [runFree, execute, e]

theorem runFree_late {h : Hdr} {s s' : State} {m : M Flow} (e : m s = .error .late s') :
    runFree h m s = .next (s'.takeLate s'.cur) := by
  simp only [runFree, execute, e]

/-- A return to a context outside a handler completes, or a late fault that waits is taken at its boundary (R379). -/
theorem runFree_return {h : Hdr} {s : State} {x : Ctx} {m : M Flow} (unnested : x.nest = false)
    (returns : m s = (do lateFirst; return .stay : M Flow) (s.setMe x)) :
    runFree h m s = if x.lates = [] then .next (bodyNext h (s.setMe x) .stay) else .next ((s.setMe x).takeLate s.cur) := by
  have due : (s.setMe x).me.lateDue = x.lates := by simp [Ctx.lateDue, unnested]
  split
  case isTrue quiet => exact runFree_ok (returns.trans (bind_ok (lateFirst_ok _ (by rwa [State.setMe_me]))))
  case isFalse waits => exact runFree_late (returns.trans (bind_error (lateFirst_late (due ▸ waits))))

theorem nest_rett (c : Ctx) : c.rett.nest = false := by simp [Ctx.rett, Ctx.nest]
theorem nest_rettU (c : Ctx) : c.rettU.nest = false := by simp [Ctx.rettU, Ctx.nest]

section
variable {h : Hdr} {s : State}

theorem rettBody_field {i : Instr} (field : s.me.lvl = true) :
    rettBody i false s = (do lateFirst; return .stay : M Flow) (s.setMe s.me.rett) := by
  simp [rettBody, field]

theorem rettBody_reflect {i : Instr} (field : s.me.lvl = true) (enabled : s.me.utvec.getLsbD 0 = true) :
    rettBody i true s = (do lateFirst; return .stay : M Flow) (s.setMe s.me.rettU) := by
  simp only [rettBody, M_bind, M_me, M_ite, field, enabled, if_true, Bool.not_true, M_illop_false, M_modMe]

theorem exec_rett_reflect_off (field : s.me.lvl = true) (disabled : s.me.utvec.getLsbD 0 = false) :
    exec (.rett h true) s = .next (s.takeTrap s.cur { cause := .illop, tval := (Instr.rett h true).tvalBits }) :=
  runFree_trap (s' := s) (by simp only [rettBody, M_bind, M_me, M_ite, field, disabled, if_true, Bool.not_false, M_illop_true])

theorem exec_rett_task (task : s.me.lvl = false) : exec (.rett h false) s =
    .next (bodyNext h (s.setMe { s.me with windows := [] }) (.goto s.me.utpc)) :=
  runFree_ok (by simp [rettBody, task])

theorem exec_rett_reflect_task (task : s.me.lvl = false) :
    exec (.rett h true) s = .next (s.takeTrap s.cur { cause := .illop, tval := (Instr.rett h true).tvalBits }) :=
  runFree_trap (s' := s) (by simp [rettBody, task])

theorem exec_halt_service (field : s.me.lvl = true) (service : 14 ≤ ctxNum s.cur) :
    exec (.halt h) s = .next (s.setMe { s.me with pc := s.me.pc + 12, st := .asleep }) := by
  simp [execHalt, field, Nat.not_lt.2 service, Ctx.advance]

theorem exec_halt_other (field : s.me.lvl = true) (other : ctxNum s.cur < 14) :
    exec (.halt h) s = .next (s.takeTrap s.cur { cause := .illop, tval := (Instr.halt h).tvalBits }) := by
  simp [execHalt, field, other]

end

/-! ## Register numbers -/

/-- The numbers of the registers of contexts, cores and fields are three different sets (Table 08-2). -/
theorem ctxReg_eq_false_of_coreReg {n : Nat} (ofCore : coreReg n = true) : ctxReg n = false := by
  simp only [ctxReg, coreReg, within, Bool.or_eq_true, Bool.and_eq_true, decide_eq_true_eq, beq_iff_eq, Bool.or_eq_false_iff,
    Bool.and_eq_false_iff, decide_eq_false_iff_not, beq_eq_false_iff_ne] at *
  omega

theorem ctxReg_eq_false_of_fieldReg {n : Nat} (ofField : fieldReg n = true) : ctxReg n = false := by
  simp only [ctxReg, fieldReg, within, Bool.or_eq_true, Bool.and_eq_true, decide_eq_true_eq, beq_iff_eq, Bool.or_eq_false_iff,
    Bool.and_eq_false_iff, decide_eq_false_iff_not, beq_eq_false_iff_ne] at *
  omega

theorem coreReg_eq_false_of_fieldReg {n : Nat} (ofField : fieldReg n = true) : coreReg n = false := by
  simp only [coreReg, fieldReg, within, Bool.or_eq_true, Bool.and_eq_true, decide_eq_true_eq, beq_iff_eq, Bool.or_eq_false_iff,
    Bool.and_eq_false_iff, decide_eq_false_iff_not, beq_eq_false_iff_ne] at *
  omega

theorem fieldReg_of_plainReg {n : Nat} (plain : plainReg n = true) : fieldReg n = true := by
  rw [plainReg, Bool.and_assoc, Bool.and_eq_true] at plain
  exact plain.1

theorem regTrap_eq_none {i : Instr} {n : Nat} {task : Bool} {c : Ctx} (defined : regDefined n = true)
    (allowed : c.lvl = true ∨ task = true) : regTrap i n task c = none := by
  rcases allowed with field | task <;> simp [regTrap, *]

/-! ## SRD and SWR -/

section
variable {h : Hdr} {s : State} {num : BitVec 12}

theorem exec_srd_reads {d : GReg} (on : On h s) (defined : regDefined num.toNat = true)
    (allowed : s.me.lvl = true ∨ taskRead num.toNat = true) :
    exec (.srd h d num) s =
      let s' := if num.toNat = 0x941 then s.modField s.myField Field.cbNext else s
      .next (bodyNext h (s'.setMe (s'.me.wg d (s.readReg s.cur num.toNat))) .next) := by
  simp only [exec_srd, execSrd, regTrap_eq_none defined allowed]
  refine runIsa_ok on ?_
  simp only [M_bind, M_get]
  split <;> rfl

theorem exec_swr_writes {t : State} {b : GReg} (on : On h s) (defined : regDefined num.toNat = true)
    (allowed : s.me.lvl = true ∨ taskWrite num.toNat = true) (writes : writeReg s.cur num.toNat (s.me.rg b) s = .ok () t) :
    exec (.swr h num b) s = .next (bodyNext h t .next) := by
  simp only [exec_swr, execSwr, regTrap_eq_none defined allowed]
  exact runIsa_ok on ((bind_ok (M_get s)).trans (bind_ok writes))

end

theorem writeReg_ctx {c n : Nat} {v : Word} {s : State} (ofCtx : ctxReg n = true) :
    writeReg c n v s = .ok () (s.modCtx c fun x => x.writeReg n v) := by
  rw [writeReg, if_pos ofCtx, M_modify]

theorem writeReg_core {c n : Nat} {v : Word} {s : State} (ofCore : coreReg n = true) :
    writeReg c n v s = .ok () (s.modCore (coreOf c) fun x => x.writeReg n v) := by
  rw [writeReg, if_neg (Bool.eq_false_iff.1 (ctxReg_eq_false_of_coreReg ofCore)), if_pos ofCore, M_modify]

theorem writeReg_field {c n : Nat} {v : Word} (ofField : fieldReg n = true) :
    writeReg c n v = writeField (fieldOf (coreOf c)) n v := by
  rw [writeReg, if_neg (Bool.eq_false_iff.1 (ctxReg_eq_false_of_fieldReg ofField)),
    if_neg (Bool.eq_false_iff.1 (coreReg_eq_false_of_fieldReg ofField))]

theorem writeField_ignored {f n : Nat} {v : Word} {s : State} (ignored : (s.field f).ignores n v = true) :
    writeField f n v s = .ok () s := by
  unfold writeField
  simp only [M_bind, M_get, ignored, if_true, M_pure]

/-! ## Energy and the sequence ring -/

theorem energyLeft_eq {s : State} {f n : Nat} {p : Part} (part : s.partOf f = some n) (now : s.partNow n = some p) :
    s.energyLeft f = 1000 * p.allow - p.used := by
  simp [State.energyLeft, part, now, Part.left]

theorem exec_seqrd_reads {h : Hdr} {s : State} {d a : GReg} {part : BitVec 2} (on : On h s) (number : (s.me.rg a).toNat < 65536)
    (known : part.toNat < 3) : exec (.seqrd h d a part) s =
      .next (bodyNext h (s.setMe (s.me.wg d (s.me.seqPart ((s.me.rg a).setWidth 16) part.toNat))) .next) := by
  have good : (part == 3 || decide (65536 ≤ (s.me.rg a).toNat)) = false := by
    have other : part ≠ 3 := by rintro rfl; exact absurd known (by decide)
    rw [beq_false_of_ne other, decide_eq_false (Nat.not_le.2 number), Bool.or_false]
  exact runIsa_ok on (by simp only [M_bind, M_me, good, M_illop_false, M_modMe, M_pure])

theorem seqPart_found {c : Ctx} {q : BitVec 16} {e : SeqEntry} {part : BitVec 2} (known : part.toNat < 3)
    (found : (c.ring.find? fun e => e.seq == q) = some e) : c.seqPart q part.toNat =
      if part = 0 then BitVec.ofNat 64 (e.st.code * 2 ^ 61 + e.code.toNat * 2 ^ 48 + e.progress.toNat * 2 ^ 32 + e.seq.toNat)
      else if part = 1 then e.pc else e.addr := by
  simp only [Ctx.seqPart, found]
  have cases : part = 0 ∨ part = 1 ∨ part = 2 := by revert known; revert part; decide
  rcases cases with rfl | rfl | rfl <;> rfl

theorem seqPart_absent {c : Ctx} {x : Word} {part : BitVec 2} (number : x.toNat < 65536)
    (absent : ∀ e ∈ c.ring, e.seq ≠ x.setWidth 16) : c.seqPart (x.setWidth 16) part.toNat =
      if part = 0 then BitVec.ofNat 64 (5 * 2 ^ 61 + x.toNat) else 0 := by
  have none : (c.ring.find? fun e => e.seq == x.setWidth 16) = none := List.find?_eq_none.2 (by simpa using absent)
  have zero : part.toNat = 0 ↔ part = 0 := by rw [← BitVec.toNat_inj]; rfl
  simp only [Ctx.seqPart, none, zero, BitVec.toNat_setWidth, Nat.mod_eq_of_lt number]

/-- Settles O40: each form by what its meaning does where its checks pass. -/
theorem systemFormResults : Obligations.SystemFormResults := by
  unfold Obligations.SystemFormResults
  refine ⟨fun h s => ⟨fun on n => runIsa_trap on rfl, fun on n => runIsa_trap on rfl, rfl, fun field => ⟨?_, fun enabled => ?_,
      fun disabled => exec_rett_reflect_off field disabled⟩, fun task => ⟨exec_rett_task task, exec_rett_reflect_task task⟩,
      fun field service => exec_halt_service field service, fun field other => exec_halt_other field other⟩,
    fun h d a num s on => ⟨fun defined allowed => exec_srd_reads on defined allowed, fun defined allowed => ⟨fun ofCtx => ?_,
      fun ofCore => ?_, fun plain obeyed => ?_, fun ofField ignored => ?_, fun t writes => ?_⟩,
      fun p => (exec_rdtime ..).trans (runReg_on _ on), fun n p part now => ?_, fun number part known => ⟨fun e found => ?_,
      fun absent => ?_⟩⟩⟩
  · exact runFree_return (nest_rett _) (rettBody_field field)
  · exact runFree_return (nest_rettU _) (rettBody_reflect field enabled)
  · exact exec_swr_writes on defined allowed (writeReg_ctx ofCtx)
  · exact exec_swr_writes on defined allowed (writeReg_core ofCore)
  · refine exec_swr_writes on defined allowed ?_
    rw [writeReg_field (fieldReg_of_plainReg plain)]
    exact writeField_plain plain obeyed
  · refine exec_swr_writes on defined allowed ?_
    rw [writeReg_field ofField]
    exact writeField_ignored ignored
  · exact exec_swr_writes on defined allowed writes
  · rw [exec_enrg, execEnrg, energyLeft_eq part now]
    exact runReg_on _ on
  · rw [exec_seqrd_reads on number known, seqPart_found known found]
  · rw [exec_seqrd_reads on number known, seqPart_absent number absent]

end Sys2Proof.Machine
end

section
/-! The guard and the checks before it (R164, R170, R176): what every guarded instruction does when its guard is false, and the
traps of level and register number. -/

namespace Sys2Proof.Machine

theorem runEnd_off {h : Hdr} {s : State} {m : M Unit} {fin : State → State} (off : Hdr.holds h s.me = false) :
    runEnd h m fin s = .next (yldAfter h s.skip) := by
  simp only [runEnd, off, Bool.false_eq_true, if_false]

theorem runPriv_off {i : Instr} {h : Hdr} {s : State} {m : M Flow} (field : s.me.lvl = true) (off : Hdr.holds h s.me = false) :
    runPriv i h m s = .next (yldAfter h s.skip) :=
  (runPriv_field field).trans (runIsa_off off)

/-! ## The numbers of SRD and SWR (R164) -/

theorem regTrap_undefined {i : Instr} {n : Nat} {task : Bool} {c : Ctx} (undefd : regDefined n = false) :
    regTrap i n task c = some { cause := .illop, tval := i.tvalBits } := by
  simp only [regTrap, undefd, Bool.not_false, if_true]

theorem regTrap_denied {i : Instr} {n : Nat} {c : Ctx} (defined : regDefined n = true) (level : c.lvl = false) :
    regTrap i n false c = some { cause := .priv, tval := i.tvalBits } := by
  simp only [regTrap, defined, level, Bool.not_true, Bool.not_false, Bool.and_self, Bool.false_eq_true, if_false, if_true, privTrap]

section
variable {h : Hdr} {s : State} {num : BitVec 12} {t : Trap}

theorem exec_srd_trap {d : GReg} (checked : regTrap (.srd h d num) num.toNat (taskRead num.toNat) s.me = some t) :
    exec (.srd h d num) s = .next (s.takeTrap s.cur t) := by
  simp only [exec_srd, execSrd, checked]

theorem exec_swr_trap {b : GReg} (checked : regTrap (.swr h num b) num.toNat (taskWrite num.toNat) s.me = some t) :
    exec (.swr h num b) s = .next (s.takeTrap s.cur t) := by
  simp only [exec_swr, execSwr, checked]

theorem exec_srd_off {d : GReg} (passed : regTrap (.srd h d num) num.toNat (taskRead num.toNat) s.me = none)
    (off : Hdr.holds h s.me = false) : exec (.srd h d num) s = .next (yldAfter h s.skip) := by
  simp only [exec_srd, execSrd, passed, runIsa_off off]

theorem exec_swr_off {b : GReg} (passed : regTrap (.swr h num b) num.toNat (taskWrite num.toNat) s.me = none)
    (off : Hdr.holds h s.me = false) : exec (.swr h num b) s = .next (yldAfter h s.skip) := by
  simp only [exec_swr, execSwr, passed, runIsa_off off]

end

/-! ## Every guarded form -/

/-- With its guard false a guarded form only advances pc, whatever its frame: a change of registers, an effect, a vector
operation, the end of a task, or one of the forms checked before the guard, once its checks pass. -/
theorem exec_off {i : Instr} {h : Hdr} {s : State} (hdr : Instr.hdr? i = some h) (guarded : Instr.unguarded i = false)
    (privileged : Instr.privileged i = true → s.me.lvl = true)
    (reads : ∀ d n, i = .srd h d n → regDefined n.toNat = true ∧ (s.me.lvl = true ∨ taskRead n.toNat = true))
    (writes : ∀ n b, i = .swr h n b → regDefined n.toNat = true ∧ (s.me.lvl = true ∨ taskWrite n.toNat = true))
    (off : Hdr.holds h s.me = false) : exec i s = .next (yldAfter h s.skip) := by
  cases i with
  | add | sub | mul | mulh | mulhu | div | divu | rem | remu | and | or | xor | andn | orn | shl | shr | sar | rol | ror | min
  | max | minu | maxu | clz | ctz | popc | brev | bswap | nop =>
    obtain rfl := Option.some.inj hdr
    exact runReg_off _ off
  | lea | sel | mov | movi | movhi | cmp | pand | por | pxor | pnot | pmov | pget | cqry | rdtime | enrg =>
    obtain rfl := Option.some.inj hdr
    simp only [exec_lea, exec_sel, exec_mov, exec_movi, exec_movhi, exec_cmp, exec_pand, exec_por, exec_pxor, exec_pnot,
      exec_pmov, exec_pget, exec_cqry, exec_rdtime, exec_enrg]
    exact runReg_off _ off
  | sext | zext | bfx | bfi | br | brl | jmp | jmpl | ret | brt | ld | st | ldp | stp | ldf | lde | stf | sete | pref | cflush
  | cinv | czero | aadd | amin | amax | aminu | amaxu | aand | aor | axor | aswp | acas | acas2 | afadd | ainc | fence | waita
  | waitn | barset | bararr | barwait | chk | yield | vld | vst | vlds | vsts | vgath | vscat | vldf | vamo | mma | mcnt | mdrain
  | mmerge | mzero | mld | mst | mscl | mwait | mcfg | mbcast | mqw | tdecl | trel | tfwd | town | tqry | cpy | cchain | ccancel
  | put | putv | ramo | send | sendv | pcfg | jcfg | jena | jdis | mtake | mreplay | spawn | joinw | carm | cdec | sqcfg | stlcfg
  | trap | brk | seqrd =>
    obtain rfl := Option.some.inj hdr
    exact runIsa_off off
  | vadd | vsub | vmul | vmulh | vmin | vmax | vminu | vmaxu | vand | vor | vxor | vshl | vshr | vsar | vabs | vneg | vcmp | vsel
  | vpopc | vfadd | vfsub | vfmul | vfma | vfms | vfnma | vfdiv | vfsqrt | vfrcp | vfrsq | vfexp2 | vflog2 | vfmin | vfmax | vfcmp
  | vfclass | vfcvt | vfscl | vradd | vrmin | vrmax | vfradd | vfrmax | vperm | vslide | vbcast | vext | vins | vcmpr | vexpd
  | vzip | vunzip | viota | qcnt =>
    obtain rfl := Option.some.inj hdr
    exact runVec_off off
  | qand | qor | qxor | qnot =>
    obtain rfl := Option.some.inj hdr
    simp only [exec_qand, exec_qor, exec_qxor, exec_qnot]
    exact runVec_off off
  | kill | krevoke =>
    obtain rfl := Option.some.inj hdr
    exact runPriv_off (privileged rfl) off
  | texit =>
    obtain rfl := Option.some.inj hdr
    exact runEnd_off off
  | srd _ d n =>
    obtain rfl := Option.some.inj hdr
    obtain ⟨defined, allowed⟩ := reads d n rfl
    exact exec_srd_off (regTrap_eq_none defined allowed) off
  | swr _ n b =>
    obtain rfl := Option.some.inj hdr
    obtain ⟨defined, allowed⟩ := writes n b rfl
    exact exec_swr_off (regTrap_eq_none defined allowed) off
  | loop | rett | cxsave | cxload | halt | ill => exact Bool.noConfusion guarded
  | _ => exact absurd hdr (Option.some_ne_none h).symm

/-- A privileged form at task level raises PRIV, with its own bits in TVAL. -/
theorem exec_privileged_task {i : Instr} {s : State} (privileged : Instr.privileged i = true) (level : s.me.lvl = false) :
    exec i s = .next (s.takeTrap s.cur { cause := .priv, tval := i.tvalBits }) := by
  cases i with
  | cxsave | cxload | kill | krevoke => exact runPriv_task level
  | halt => simp only [exec_halt, execHalt, level, Bool.not_false, if_true, privTrap]
  | _ => exact Bool.noConfusion privileged

/-- Settles O47: the guard by the frame of each form, and the traps before it by the checks of level and register number. -/
theorem guardAndPrivilege : Obligations.GuardAndPrivilege := by
  unfold Obligations.GuardAndPrivilege
  refine fun h s => ⟨fun i hdr guarded privileged reads writes off => exec_off hdr guarded privileged reads writes off,
    fun i privileged _ level => exec_privileged_task privileged level,
    fun d n => ⟨fun undefd => exec_srd_trap (regTrap_undefined undefd), fun defined level denied => exec_srd_trap ?_⟩,
    fun n b => ⟨fun undefd => exec_swr_trap (regTrap_undefined undefd), fun defined level denied => exec_swr_trap ?_⟩⟩
  · rw [denied, regTrap_denied defined level]
  · rw [denied, regTrap_denied defined level]

end Sys2Proof.Machine
end

section
/-! A step (R171, R175 to R177, R379): the event, the save, the KILL or the instruction that it runs. -/

namespace Sys2Proof.Machine

/-! ## What is due before an instruction -/

theorem step_event {s : State} {e : Instr} {rest : List Instr} (known : s.cur < numCtxs) (due : s.agenda = e :: rest) :
    step s = keepCur s.cur (exec e { s.tick with agenda := rest }) := by
  simp only [step, if_neg (Nat.not_le.2 known), due]

theorem step_save {s : State} (known : s.cur < numCtxs) (idle : s.agenda = []) (saving : s.me.saving ≠ none) :
    step s = andPlan s.cur (runEvent (saveOn s.cur) s.tick) := by
  have some : s.me.saving.isSome = true := Option.isSome_iff_ne_none.2 saving
  simp only [step, if_neg (Nat.not_le.2 known), idle, some, if_true]

section
variable {s : State} (known : s.cur < numCtxs) (idle : s.agenda = []) (issues : s.me.issues = true)
include known idle issues

theorem step_kill {x : Kill} (killed : s.killDue s.cur = some x) : step s = .next ((s.tick.beginKill x).planNext s.cur) := by
  simp only [step, if_neg (Nat.not_le.2 known), idle, Ctx.issues_saving issues, issues, killed, Option.isSome_none,
    Bool.false_eq_true, if_false, if_true]

theorem step_forcedSave (unkilled : s.killDue s.cur = none) (unyielded : s.me.yieldDue = false) (due : s.saveDue s.cur = true) :
    step s = andPlan s.cur (execForcedSave s.cur s.tick) := by
  simp only [step, if_neg (Nat.not_le.2 known), idle, Ctx.issues_saving issues, issues, unkilled, unyielded, due,
    Option.isSome_none, Bool.false_eq_true, if_false, if_true]

end

/-! ## The instruction -/

theorem runNext_decoded {s s' : State} {w : InstrWord} {i : Instr} (fetched : fetch s = .ok w s') (decoded : decode w = some i) :
    runNext exec s = issue exec i s' := by
  simp only [runNext, fetched, decoded]

theorem runNext_trap {s s' : State} {t : Trap} (trapped : fetch s = .error (.trap t) s') (resolved : s.unresolved s.cur = false) :
    runNext exec s = .next (s.takeTrap s.cur t) := by
  simp only [runNext, trapped, State.afterWindow, resolved, Bool.false_eq_true, if_false]

/-- Without windows, items and late faults an instruction runs as its meaning says: each check of its surroundings passes, and
nothing is put back after it. -/
theorem issue_eq_exec {i : Instr} {s : State} (windows : s.me.windows = []) (pend : s.me.pend = []) (lates : s.me.lates = [])
    (la : ∀ h, Instr.hdr? i = some h → h.la = 0) : issue exec i s = exec i s := by
  have resolved : s.unresolved s.cur = false := by
    have mine : (s.ctx s.cur).windows = [] := windows
    simp only [State.unresolved, mine, List.any_nil]
  have due : s.me.lateDue = [] := by simp only [Ctx.lateDue, lates, ite_self]
  cases hdr : Instr.hdr? i with
  | none => simp only [issue, hdr]
  | some h =>
    simp [issue, hdr, la h hdr, State.afterWindow, resolved, Ctx.lateOn, due, Ctx.awaits, State.acquiring, pend, Ctx.violates,
      windows]

/-- Settles O49: each case of a step by its equation, and an instruction with nothing around it by `issue_eq_exec`. -/
theorem stepRunsDecoded : Obligations.StepRunsDecoded := by
  unfold Obligations.StepRunsDecoded
  refine fun s known => ⟨fun e rest due => step_event known due, fun idle saving => step_save known idle saving,
    fun x idle issues killed => step_kill known idle issues killed,
    fun idle issues unkilled unyielded due => step_forcedSave known idle issues unkilled unyielded due,
    fun idle issues unkilled unyielded unsaved => ?_⟩
  rw [step_eq_runNext known idle issues unkilled unyielded unsaved]
  refine ⟨fun w s' fetched => ⟨fun i decoded => ⟨?_, fun windows pend lates la => ?_⟩, fun undecoded resolved => ?_⟩,
    fun t s' trapped resolved => ?_⟩
  · rw [runNext_decoded fetched decoded]
  · rw [runNext_decoded fetched decoded, issue_eq_exec windows pend lates la]
  · rw [runNext_illop fetched undecoded resolved, andPlan]
  · rw [runNext_trap trapped resolved, andPlan]

end Sys2Proof.Machine
end

section
/-! The state after reset (R161, R394, R404), and the registers that are hard-wired in every state (Table 08-1). -/

namespace Sys2Proof.Machine

theorem reset_rg (r : GReg) : (({} : Ctx).rg r) = 0 := by simp [Ctx.rg]
theorem reset_rv (r : VReg) : (({} : Ctx).rv r) = 0 := by simp [Ctx.rv]
theorem reset_rq {r : QReg} (soft : r ≠ 0) : (({} : Ctx).rq r) = 0 := by rw [Ctx.rq, if_neg soft]; simp
theorem reset_rp {r : PReg} (soft : r ≠ 0) : (({} : Ctx).rp r) = false := by rw [Ctx.rp, if_neg soft]; simp

/-- Settles O52: State.reset lists nothing, so every lookup gives a default; the hard-wired registers by their accessors. -/
theorem resetAndHardwired : Obligations.ResetAndHardwired := by
  unfold Obligations.ResetAndHardwired
  refine ⟨(by decide : 15 < numCtxs), rfl, rfl, rfl, fun c => ⟨rfl, rfl, rfl, rfl, rfl, reset_rg, reset_rv, fun _ => reset_rq, fun _ => reset_rp⟩,
    fun f => ?_, fun k => ?_, fun c x b y => ⟨rfl, rfl, rfl, rfl, rfl, rfl⟩⟩
  · obtain ⟨shared, backed, -⟩ := wf_reset f 0
    exact ⟨rfl, shared, backed, fun _ => rfl, fun _ => rfl⟩
  · obtain ⟨-, -, core⟩ := wf_reset 0 k
    exact ⟨core, fun _ => rfl⟩

/-! ## Worked encodings (R167, R168, R176, R179) -/

/-- Settles O55: the decoder, run on each word. -/
theorem decodedWords : Obligations.DecodedWords := by
  unfold Obligations.DecodedWords
  exact ⟨rfl, rfl, rfl, rfl, rfl, rfl, rfl, rfl, rfl, rfl, rfl, rfl⟩

end Sys2Proof.Machine
end

section
/-! The frame of the scalar register forms (R170, R188, R201, R203, R207): each either traps, or changes its destination and the
pc of its own context. -/

namespace Sys2Proof.Machine

/-! ## Changes of one context -/

/-- A context whose registers but a few and one predicate, whose flags and whose system registers are as before. -/
structure ChangesOnly (ws : List RegRef) (pd : Option PReg) (c c' : Ctx) : Prop where
  system : SameSystem c c'
  fstat : c'.fstat = c.fstat
  regs : SameRegs ws pd c c'

theorem ChangesOnly.of_changes {ws : List RegRef} {c c' : Ctx} (change : Changes ws 0 c c') : ChangesOnly ws none c c' where
  system := change.system
  fstat := change.fstat.trans c.orFlags_zero_fstat
  regs := change.regs

theorem ChangesOnly.wg (c : Ctx) (d : GReg) (x : Word) : ChangesOnly [gr d] none c (c.wg d x) := .of_changes (.wg c d x)

theorem ChangesOnly.alu (op : Nat → Nat → Nat → Nat) (w32 : Bool) (d a : GReg) (b : GI) (c : Ctx) :
    ChangesOnly [gr d] none c (alu op w32 d a b c) := .wg ..

theorem ChangesOnly.alu1 (op : Nat → Nat → Nat) (w32 : Bool) (d a : GReg) (c : Ctx) :
    ChangesOnly [gr d] none c (alu1 op w32 d a c) := .wg ..

theorem ChangesOnly.wp (c : Ctx) (d : PReg) (x : Bool) : ChangesOnly [] (some d) c (c.wp d x) where
  system := by simp [SameSystem]
  fstat := c.wp_fstat d x
  regs := ⟨fun r _ => by rw [Ctx.rg, Ctx.wp_g, Ctx.rg], fun r _ => by rw [Ctx.rv, Ctx.wp_v, Ctx.rv],
    fun r _ => by rw [Ctx.rq, Ctx.wp_q, Ctx.rq], fun r other => Ctx.rp_wp_ne c r d x fun e => other (e ▸ rfl)⟩

theorem ChangesOnly.refl (ws : List RegRef) (pd : Option PReg) (c : Ctx) : ChangesOnly ws pd c c where
  system := by simp [SameSystem]
  fstat := rfl
  regs := ⟨fun _ _ => rfl, fun _ _ => rfl, fun _ _ => rfl, fun _ _ => rfl⟩

/-- Where pc goes is no register of the frame. -/
theorem ChangesOnly.pc {ws : List RegRef} {pd : Option PReg} {c c' : Ctx} (change : ChangesOnly ws pd c c') (f : Flow) :
    ChangesOnly ws pd c (f.pc { c' with st := .ready, parts := [], vec := false }) := by
  obtain ⟨system, fstat, regs⟩ := change
  cases f <;> exact ⟨system, fstat, regs⟩

theorem ChangesOnly.advance {ws : List RegRef} {pd : Option PReg} {c c' : Ctx} (change : ChangesOnly ws pd c c') :
    ChangesOnly ws pd c { c'.advance with st := .ready } := by
  obtain ⟨system, fstat, regs⟩ := change
  exact ⟨system, fstat, regs⟩

/-! ## Changes of the state -/

/-- A state that differs from another only in what one instruction of its context may write. -/
structure LeavesElse (ws : List RegRef) (pd : Option PReg) (s t : State) : Prop where
  cur : t.cur = s.cur
  memory : SameMemory s t
  others : SameOthers s t
  mine : ChangesOnly ws pd s.me t.me

section
variable {ws : List RegRef} {pd : Option PReg} {h : Hdr} {s t u : State}

theorem LeavesElse.refl (ws : List RegRef) (pd : Option PReg) (s : State) : LeavesElse ws pd s s :=
  ⟨rfl, ⟨rfl, rfl, rfl⟩, fun _ _ => rfl, .refl ws pd s.me⟩

theorem LeavesElse.setMe {c : Ctx} (left : LeavesElse ws pd s t) (change : ChangesOnly ws pd s.me c) :
    LeavesElse ws pd s (t.setMe c) where
  cur := left.cur
  memory := left.memory
  others := fun j other => (State.setMe_ctx_ne t j c (left.cur.symm ▸ other)).trans (left.others j other)
  mine := by rwa [State.setMe_me]

/-- The :yld hint does nothing while PREQ is clear. -/
theorem LeavesElse.yldAfter (left : LeavesElse ws pd s t) (calm : h.yld = true → s.me.preq = false) :
    LeavesElse ws pd s (yldAfter h t) := by
  obtain ⟨-, preq, -⟩ := left.mine.system
  have stays : Machine.yldAfter h t = t := by
    cases yld : h.yld
    · simp [Machine.yldAfter, yld]
    · simp [Machine.yldAfter, yld, preq, calm yld]
  rwa [stays]

theorem skip_leavesElse (calm : h.yld = true → s.me.preq = false) : LeavesElse ws pd s (yldAfter h s.skip) :=
  ((LeavesElse.refl ws pd s).setMe (ChangesOnly.refl ws pd s.me).advance).yldAfter calm

/-! ## Instructions -/

theorem runReg_leavesElse {f : Ctx → Ctx} (effect : ∀ c, ChangesOnly ws pd c (f c)) (calm : h.yld = true → s.me.preq = false)
    (ran : runReg h f s = .next t) : (∃ tr, t = s.takeTrap s.cur tr) ∨ LeavesElse ws pd s t := by
  refine .inr ?_
  by_cases on : On h s
  · obtain rfl := Host.Outcome.next.inj ((runReg_on f on).symm.trans ran)
    exact ((LeavesElse.refl ws pd s).setMe (effect s.me).advance).yldAfter calm
  · obtain rfl := Host.Outcome.next.inj ((runReg_off f (holds_eq_false on)).symm.trans ran)
    exact skip_leavesElse calm

/-- An effect that traps, or writes only what it may. -/
def TrapsOrWrites (ws : List RegRef) (pd : Option PReg) (m : M Flow) : Prop :=
  ∀ s, (∃ tr u, m s = .error (.trap tr) u) ∨ ∃ f u, m s = .ok f u ∧ LeavesElse ws pd s u

theorem execute_leavesElse {m : M Flow} (effect : TrapsOrWrites ws pd m) (calm : h.yld = true → s.me.preq = false)
    (ran : execute h m s = .next t) : (∃ tr, t = s.takeTrap s.cur tr) ∨ LeavesElse ws pd s t := by
  rcases effect s with ⟨tr, u, trapped⟩ | ⟨f, u, answered, left⟩
  · simp only [execute, trapped] at ran
    exact .inl ⟨tr, (Host.Outcome.next.inj ran).symm⟩
  · simp only [execute, answered] at ran
    obtain rfl := Host.Outcome.next.inj ran
    exact .inr ((left.setMe (left.mine.pc f)).yldAfter calm)

theorem runIsa_leavesElse {m : M Flow} (effect : TrapsOrWrites ws pd m) (calm : h.yld = true → s.me.preq = false)
    (ran : runIsa h m s = .next t) : (∃ tr, t = s.takeTrap s.cur tr) ∨ LeavesElse ws pd s t := by
  by_cases on : On h s
  · rw [runIsa, if_pos on] at ran
    exact execute_leavesElse effect calm ran
  · obtain rfl := Host.Outcome.next.inj ((runIsa_off (holds_eq_false on)).symm.trans ran)
    exact .inr (skip_leavesElse calm)

end

/-! ## Effects of the scalar forms -/

theorem checked_writes {i : Instr} {bad : Bool} {ws : List RegRef} {f : Ctx → Ctx}
    (effect : ∀ c, ChangesOnly ws none c (f c)) : TrapsOrWrites ws none (checked i bad f) := fun s => by
  cases bad
  · exact .inr ⟨_, _, rfl, (LeavesElse.refl ws none s).setMe (effect s.me)⟩
  · exact .inl ⟨_, _, rfl⟩

/-- A form that only goes somewhere. -/
theorem goto_writes (f : Ctx → Flow) : TrapsOrWrites [] none (do return f (← me)) :=
  fun s => .inr ⟨_, _, rfl, .refl [] none s⟩

/-- A form that writes a register and goes somewhere. -/
theorem link_writes (d : GReg) (x : Ctx → Word) (f : Ctx → Flow) :
    TrapsOrWrites [gr d] none (do let c ← me; modMe fun y => y.wg d (x c); return f c) :=
  fun s => .inr ⟨_, _, rfl, (LeavesElse.refl [gr d] none s).setMe (.wg ..)⟩

/-- A target is checked before anything is written. -/
theorem aligned_writes {ws : List RegRef} (target : Ctx → Word) {rest : Ctx → M Flow}
    (effect : ∀ c, TrapsOrWrites ws none (rest c)) :
    TrapsOrWrites ws none (do let c ← me; alignTarget (target c); rest c) := fun s => by
  by_cases aligned : (target s.me).toNat % 4 = 0
  · have passed := (bind_ok (M_me s) (f := fun c => do alignTarget (target c); rest c)).trans
      (bind_ok (alignTarget_ok aligned s))
    rw [passed]
    exact effect s.me s
  · exact .inl ⟨_, _, (bind_ok (M_me s)).trans (bind_error (alignTarget_trap aligned s))⟩

theorem loop_writes (i : Instr) (bad : Bool) (d : GReg) (off : BitVec 32) :
    TrapsOrWrites [gr d] none (do
      illopIf i bad
      let c ← me
      let n := c.rg d - 1
      modMe fun x => x.wg d n
      return if n = 0 then .next else .goto (relTarget c off)) := fun s => by
  cases bad
  · exact link_writes d (fun c => c.rg d - 1) (fun c => if c.rg d - 1 = 0 then .next else .goto (relTarget c off)) s
  · exact .inl ⟨_, _, rfl⟩

/-! ## The obligation -/

theorem scalar_leavesElse {i : Instr} {h : Hdr} {s t : State} (kind : Instr.scalar i = true) (hdr : Instr.hdr? i = some h)
    (calm : h.yld = true → s.me.preq = false) (ran : exec i s = .next t) :
    (∃ tr, t = s.takeTrap s.cur tr) ∨ LeavesElse (Instr.writes i) (Instr.predDest i) s t := by
  cases i with
  | add | sub | mul | mulh | mulhu | div | divu | rem | remu | and | or | xor | andn | orn | shl | shr | sar | rol | ror | min
  | max | minu | maxu =>
    obtain rfl := Option.some.inj hdr
    exact runReg_leavesElse (.alu _ _ _ _ _) calm ran
  | clz | ctz | popc | brev | bswap =>
    obtain rfl := Option.some.inj hdr
    exact runReg_leavesElse (.alu1 _ _ _ _) calm ran
  | lea | sel | mov | movi | movhi | pget =>
    obtain rfl := Option.some.inj hdr
    simp only [exec_lea, exec_sel, exec_mov, exec_movi, exec_movhi, exec_pget] at ran
    exact runReg_leavesElse (fun _ => .wg ..) calm ran
  | cmp | pand | por | pxor | pnot | pmov =>
    obtain rfl := Option.some.inj hdr
    simp only [exec_cmp, exec_pand, exec_por, exec_pxor, exec_pnot, exec_pmov] at ran
    exact runReg_leavesElse (fun _ => .wp ..) calm ran
  | nop =>
    obtain rfl := Option.some.inj hdr
    exact runReg_leavesElse (fun c => .refl [] none c) calm ran
  | sext | zext | bfx | bfi =>
    obtain rfl := Option.some.inj hdr
    simp only [exec_sext, exec_zext, exec_bfx, exec_bfi] at ran
    exact runIsa_leavesElse (checked_writes fun _ => .wg ..) calm ran
  | br _ off =>
    obtain rfl := Option.some.inj hdr
    rw [exec_br] at ran
    exact runIsa_leavesElse (goto_writes fun c => .goto (relTarget c off)) calm ran
  | brt _ a b off =>
    obtain rfl := Option.some.inj hdr
    rw [exec_brt] at ran
    exact runIsa_leavesElse (goto_writes fun c =>
      if (c.rg a).toNat < (c.rg b).toNat then .goto (relTarget c off + 12 * c.rg a) else .next) calm ran
  | brl _ d off =>
    obtain rfl := Option.some.inj hdr
    rw [exec_brl] at ran
    exact runIsa_leavesElse (link_writes d (fun c => c.pc + 12) fun c => .goto (relTarget c off)) calm ran
  | jmp _ a e =>
    obtain rfl := Option.some.inj hdr
    rw [exec_jmp] at ran
    exact runIsa_leavesElse (aligned_writes (fun c => c.rg a + e.signExtend 64) fun c =>
      goto_writes fun _ => .goto (c.rg a + e.signExtend 64)) calm ran
  | ret _ a =>
    obtain rfl := Option.some.inj hdr
    rw [exec_ret] at ran
    exact runIsa_leavesElse (aligned_writes (fun c => c.rg a) fun c => goto_writes fun _ => .goto (c.rg a)) calm ran
  | jmpl _ d a e =>
    obtain rfl := Option.some.inj hdr
    rw [exec_jmpl] at ran
    exact runIsa_leavesElse (aligned_writes (fun c => c.rg a + e.signExtend 64) fun c =>
      link_writes d (fun _ => c.pc + 12) fun _ => .goto (c.rg a + e.signExtend 64)) calm ran
  | loop _ d off =>
    obtain rfl := Option.some.inj hdr
    rw [exec_loop] at ran
    exact execute_leavesElse (loop_writes _ _ d off) calm ran
  | _ => exact absurd kind Bool.false_ne_true

/-- Settles O57: the destination is all that a scalar form writes, by the frame of its shape. -/
theorem scalarFrame : Obligations.ScalarFrame := by
  unfold Obligations.ScalarFrame
  intro i h s t kind hdr calm ran
  refine (scalar_leavesElse kind hdr calm ran).imp_right ?_
  rintro ⟨-, memory, others, system, fstat, regs⟩
  exact ⟨memory, others, system, fstat, regs⟩

end Sys2Proof.Machine
end

section
/-! The parts of an instruction word (R167, R168): each code and each operand field is read back from what writes it, and a
reader accepts nothing else. -/

namespace Sys2Proof

/-! ## Codes -/

@[simp] theorem ETy.ofCode_code (t : ETy) : ETy.ofCode t.code = some t := by cases t <;> rfl
@[simp] theorem RMode.ofCode_code (r : RMode) : RMode.ofCode r.code = some r := by cases r <;> rfl
@[simp] theorem Scope.ofCode_code (s : Scope) : Scope.ofCode s.code = some s := by cases s <;> rfl
@[simp] theorem Place.ofCode_code (p : Place) : Place.ofCode p.code = some p := by cases p <;> rfl
@[simp] theorem AtOp.ofCode_code (op : AtOp) : AtOp.ofCode op.code = some op := by cases op <;> rfl
@[simp] theorem Cond.ofCode_code (c : Cond) : Cond.ofCode c.code = c := by cases c <;> rfl
@[simp] theorem Order.ofCode_code (o : Order) : Order.ofCode o.code = o := by cases o <;> rfl
@[simp] theorem Sz.ofCode_code (z : Sz) : Sz.ofCode z.code = z := by cases z <;> rfl

theorem ETy.code_of_ofCode : ∀ c, ∀ t ∈ ETy.ofCode c, t.code = c := by decide
theorem RMode.code_of_ofCode : ∀ c, ∀ r ∈ RMode.ofCode c, r.code = c := by decide
theorem Scope.code_of_ofCode : ∀ c, ∀ s ∈ Scope.ofCode c, s.code = c := by decide
theorem Place.code_of_ofCode : ∀ c, ∀ p ∈ Place.ofCode c, p.code = c := by decide
theorem AtOp.code_of_ofCode : ∀ c, ∀ op ∈ AtOp.ofCode c, op.code = c := by decide
theorem AtOp.vcode_of_ofVcode : ∀ c, ∀ op ∈ AtOp.ofVcode c, op.vcode = c := by decide
@[simp] theorem Cond.code_ofCode : ∀ c, (Cond.ofCode c).code = c := by decide
@[simp] theorem Order.code_ofCode : ∀ c, (Order.ofCode c).code = c := by decide
@[simp] theorem Sz.code_ofCode : ∀ c, (Sz.ofCode c).code = c := by decide

theorem ETy.ofCode_eq_some {c : BitVec 4} {t : ETy} : ETy.ofCode c = some t ↔ c = t.code :=
  ⟨fun e => (ETy.code_of_ofCode c t e).symm, fun e => e ▸ t.ofCode_code⟩
theorem RMode.ofCode_eq_some {c : BitVec 3} {r : RMode} : RMode.ofCode c = some r ↔ c = r.code :=
  ⟨fun e => (RMode.code_of_ofCode c r e).symm, fun e => e ▸ r.ofCode_code⟩
theorem Scope.ofCode_eq_some {c : BitVec 3} {s : Scope} : Scope.ofCode c = some s ↔ c = s.code :=
  ⟨fun e => (Scope.code_of_ofCode c s e).symm, fun e => e ▸ s.ofCode_code⟩
theorem Place.ofCode_eq_some {c : BitVec 2} {p : Place} : Place.ofCode c = some p ↔ c = p.code :=
  ⟨fun e => (Place.code_of_ofCode c p e).symm, fun e => e ▸ p.ofCode_code⟩
theorem AtOp.ofCode_eq_some {c : BitVec 4} {op : AtOp} : AtOp.ofCode c = some op ↔ c = op.code :=
  ⟨fun e => (AtOp.code_of_ofCode c op e).symm, fun e => e ▸ op.ofCode_code⟩

/-! ## Operand fields -/

namespace Opnd

theorem isZero_eq_some {o : Opnd} {u : Unit} : o.isZero = some u ↔ o = zero := by simp [isZero]
theorem isImm_eq_some {o : Opnd} {u : Unit} : o.isImm = some u ↔ o = imm := by simp [isImm, imm]

theorem gm_eq_some {o : Opnd} {r : GReg} {m : BitVec 4} : o.gm = some (r, m) ↔ o = ofG r m := by
  obtain ⟨cls, num, mod⟩ := o
  simp [gm, ofG]

theorem g_eq_some {o : Opnd} {r : GReg} : o.g = some r ↔ o = ofG r := by
  obtain ⟨cls, num, mod⟩ := o
  simp [g, ofG, and_assoc, and_comm]

/-! The bits of a number and of a modifier. -/

theorem num5_iff :
    ∀ (x : BitVec 6) (r : BitVec 5), x.getLsbD 5 = false ∧ x.setWidth 5 = r ↔ x = r.setWidth 6 := by decide
theorem num3_iff :
    ∀ (x : BitVec 6) (r : BitVec 3), x.extractLsb' 3 3 = 0 ∧ x.setWidth 3 = r ↔ x = r.setWidth 6 := by decide
theorem num2_iff :
    ∀ (x : BitVec 6) (r : BitVec 2), x.extractLsb' 2 4 = 0 ∧ x.setWidth 2 = r ↔ x = r.setWidth 6 := by decide
theorem mod_neg_bc_iff : ∀ (x : BitVec 4) (n b : Bool),
    x.setWidth 2 = 0 ∧ x.getLsbD 3 = n ∧ x.getLsbD 2 = b ↔ x = bit n ++ bit b ++ 0#2 := by decide
theorem mod_neg_iff : ∀ (x : BitVec 4) (n : Bool), x.setWidth 3 = 0 ∧ x.getLsbD 3 = n ↔ x = bit n ++ 0#3 := by decide
theorem mod_w_iff : ∀ (x : BitVec 4) (w : Bool), x.extractLsb' 1 3 = 0 ∧ x.getLsbD 0 = w ↔ x = 0#3 ++ bit w := by decide
theorem mod_size_iff :
    ∀ (x : BitVec 4) (w : Bool), x.extractLsb' 1 3 = 1 ∧ x.getLsbD 0 = w ↔ x = 1#3 ++ bit w := by decide
theorem mod_low_iff :
    ∀ (x : BitVec 4) (c : BitVec 3), x.getLsbD 3 = false ∧ x.setWidth 3 = c ↔ x = 0#1 ++ c := by decide
theorem mod_high_iff :
    ∀ (x : BitVec 4) (c : BitVec 3), x.getLsbD 3 = true ∧ x.setWidth 3 = c ↔ x = 1#1 ++ c := by decide

/-! The readers. -/

theorem vm_eq_some {o : Opnd} {r : VReg} {m : BitVec 4} : o.vm = some (r, m) ↔ o = ofV r m := by
  obtain ⟨cls, num, mod⟩ := o
  simp [vm, ofV, ← num5_iff, and_assoc]

theorem v_eq_some {o : Opnd} {r : VReg} : o.v = some r ↔ o = ofV r := by
  obtain ⟨cls, num, mod⟩ := o
  simp [v, ofV, ← num5_iff, and_comm, and_left_comm]

theorem vsrc_eq_some {o : Opnd} {x : VSrc} : o.vsrc = some x ↔ o = ofVSrc x := by
  obtain ⟨cls, num, mod⟩ := o
  obtain ⟨r, neg, bc⟩ := x
  simp [vsrc, ofVSrc, ← num5_iff, ← mod_neg_bc_iff, and_assoc, and_left_comm]

theorem qm_eq_some {o : Opnd} {r : QReg} {m : BitVec 4} : o.qm = some (r, m) ↔ o = ofQ r m := by
  obtain ⟨cls, num, mod⟩ := o
  simp [qm, ofQ, ← num3_iff, and_assoc]

theorem q_eq_some {o : Opnd} {r : QReg} : o.q = some r ↔ o = ofQ r := by
  obtain ⟨cls, num, mod⟩ := o
  simp [q, ofQ, ← num3_iff, and_assoc, and_comm]

theorem am_eq_some {o : Opnd} {r : AReg} {m : BitVec 4} : o.am = some (r, m) ↔ o = ofA r m := by
  obtain ⟨cls, num, mod⟩ := o
  simp [am, ofA, ← num2_iff, and_assoc]

theorem a0_eq_some {o : Opnd} {r : AReg} : o.a0 = some r ↔ o = ofA r := by
  obtain ⟨cls, num, mod⟩ := o
  simp [a0, ofA, ← num2_iff, and_assoc, and_comm]

theorem pm_eq_some {o : Opnd} {r : PReg} {m : BitVec 4} : o.pm = some (r, m) ↔ o = ofP r m := by
  obtain ⟨cls, num, mod⟩ := o
  simp [pm, ofP, ← num3_iff, and_assoc]

theorem p_eq_some {o : Opnd} {r : PReg} : o.p = some r ↔ o = ofP r := by
  obtain ⟨cls, num, mod⟩ := o
  simp [p, ofP, ← num3_iff, and_assoc, and_comm]

theorem psrc_eq_some {o : Opnd} {x : PSrc} : o.psrc = some x ↔ o = ofPSrc x := by
  obtain ⟨cls, num, mod⟩ := o
  obtain ⟨r, neg⟩ := x
  simp [psrc, ofPSrc, ← num3_iff, ← mod_neg_iff, and_assoc, and_left_comm]

theorem gw_eq_some {o : Opnd} {r : GReg} {w : Bool} : o.gw = some (r, w) ↔ o = ofGW r w := by
  obtain ⟨cls, num, mod⟩ := o
  simp [gw, ofGW, ← mod_w_iff, and_assoc, and_left_comm]

theorem gsc_eq_some {o : Opnd} {r : GReg} {s : Scope} : o.gsc = some (r, s) ↔ o = ofGSc r s := by
  obtain ⟨cls, num, mod⟩ := o
  simp [gsc, ofGSc, ← mod_low_iff, Scope.ofCode_eq_some, and_assoc, and_left_comm]

theorem gord_eq_some {o : Opnd} {r : GReg} {s : Option Scope} : o.gord = some (r, s) ↔ o = ofGOrd r s := by
  obtain ⟨cls, num, mod⟩ := o
  cases ordered : mod[3] with
  | false =>
    cases s with
    | none => simp [gord, ofGOrd, ordered, and_comm]
    | some s => simp [gord, ofGOrd, ordered, ← mod_high_iff]
  | true =>
    cases s with
    | none =>
      have set : mod ≠ 0 := by rintro rfl; exact Bool.noConfusion ordered
      simpa [gord, ofGOrd, ordered] using fun _ _ => set
    | some s => simp [gord, ofGOrd, ordered, ← mod_high_iff, Scope.ofCode_eq_some, and_comm]

/-! What an encoder of operands writes is read back; simp writes the modifier 0 as 0#4. -/

@[simp] theorem ofG_cls (r : GReg) (m : BitVec 4) : (ofG r m).cls = 0 := rfl
@[simp] theorem ofVSrc_cls (x : VSrc) : (ofVSrc x).cls = 1 := rfl
@[simp] theorem ofPSrc_cls (x : PSrc) : (ofPSrc x).cls = 3 := rfl
@[simp] theorem imm_cls : Opnd.imm.cls = 3 := rfl

@[simp] theorem isZero_zero : zero.isZero = some () := rfl
@[simp] theorem isImm_imm : Opnd.imm.isImm = some () := rfl
@[simp] theorem gm_ofG (r : GReg) (m : BitVec 4) : (ofG r m).gm = some (r, m) := gm_eq_some.2 rfl
@[simp] theorem g_ofG (r : GReg) : (ofG r 0#4).g = some r := g_eq_some.2 rfl
@[simp] theorem vm_ofV (r : VReg) (m : BitVec 4) : (ofV r m).vm = some (r, m) := vm_eq_some.2 rfl
@[simp] theorem v_ofV (r : VReg) : (ofV r 0#4).v = some r := v_eq_some.2 rfl
@[simp] theorem vsrc_ofVSrc (x : VSrc) : (ofVSrc x).vsrc = some x := vsrc_eq_some.2 rfl
@[simp] theorem qm_ofQ (r : QReg) (m : BitVec 4) : (ofQ r m).qm = some (r, m) := qm_eq_some.2 rfl
@[simp] theorem q_ofQ (r : QReg) : (ofQ r 0#4).q = some r := q_eq_some.2 rfl
@[simp] theorem am_ofA (r : AReg) (m : BitVec 4) : (ofA r m).am = some (r, m) := am_eq_some.2 rfl
@[simp] theorem a0_ofA (r : AReg) : (ofA r 0#4).a0 = some r := a0_eq_some.2 rfl
@[simp] theorem pm_ofP (r : PReg) (m : BitVec 4) : (ofP r m).pm = some (r, m) := pm_eq_some.2 rfl
@[simp] theorem p_ofP (r : PReg) : (ofP r 0#4).p = some r := p_eq_some.2 rfl
@[simp] theorem psrc_ofPSrc (x : PSrc) : (ofPSrc x).psrc = some x := psrc_eq_some.2 rfl
@[simp] theorem gw_ofGW (r : GReg) (w : Bool) : (ofGW r w).gw = some (r, w) := gw_eq_some.2 rfl
@[simp] theorem gsc_ofGSc (r : GReg) (s : Scope) : (ofGSc r s).gsc = some (r, s) := gsc_eq_some.2 rfl
@[simp] theorem gord_ofGOrd (r : GReg) (s : Option Scope) : (ofGOrd r s).gord = some (r, s) := gord_eq_some.2 rfl

end Opnd
end Sys2Proof
end

section
/-! The fields of a word as the forms read them (R168, R188, R211): a reader of several fields accepts exactly what the
encoder writes there. -/

namespace Sys2Proof

open Opnd

@[simp] theorem need_eq_some {c : Prop} [Decidable c] {u : Unit} : need c = some u ↔ c := by simp [need]

/-! ## Guard and hints -/

theorem hnt_iff : ∀ (x : BitVec 4) (y r s : Bool),
    x.getLsbD 0 = false ∧ x.getLsbD 3 = y ∧ x.getLsbD 2 = r ∧ x.getLsbD 1 = s ↔ x = bit y ++ bit r ++ bit s ++ 0#1 := by decide

theorem grd_iff :
    ∀ (x : BitVec 4) (n : Bool) (p : BitVec 3), x.getLsbD 3 = n ∧ x.setWidth 3 = p ↔ x = bit n ++ p := by decide

theorem Fields.hdr_eq_some {f : Fields} {h : Hdr} : f.hdr = some h ↔ f.grd = h.grd ∧ f.la = h.la ∧ f.hnt = h.hnt := by
  obtain ⟨neg, p, la, yld, reu, str⟩ := h
  rw [Hdr.grd, Hdr.hnt, ← hnt_iff, ← grd_iff]
  simp [Fields.hdr]
  tauto

/-- Fields whose header is read are those of an encoder with that header. -/
theorem Fields.eq_mkF {f : Fields} {h : Hdr} (hdr : f.hdr = some h) : f = mkF h f.opc f.fn f.d f.a f.b f.imm := by
  obtain ⟨grd, la, hnt⟩ := hdr_eq_some.1 hdr
  rw [mkF, ← grd, ← la, ← hnt]

@[simp] theorem mkF_hdr (h : Hdr) (opc fn : BitVec 8) (d a b : Opnd) (imm : BitVec 32) :
    (mkF h opc fn d a b imm).hdr = some h :=
  Fields.hdr_eq_some.2 ⟨rfl, rfl, rfl⟩

/-! ## Layouts of IMM

What a form writes into IMM of the fields it reads there is what its mask keeps of IMM; bit by bit. -/

/-- No bit outside a mask: the mask keeps all. -/
theorem masked_iff {n : Nat} {x m : BitVec n} : x &&& ~~~m = 0#n ↔ x &&& m = x := by
  constructor <;> intro e
  · calc x &&& m = (x &&& m) ||| (x &&& ~~~m) := by rw [e, BitVec.or_zero]
      _ = x := by rw [← BitVec.and_or_distrib_left]; simp
  · rw [← e, BitVec.and_assoc]; simp

/-- The low bits of IMM alone. -/
theorem low_layout (x : BitVec 32) {k : Nat} {m : BitVec 32} (mask : m.toNat = 2 ^ k - 1) :
    (x.setWidth k).setWidth 32 = x &&& m := by
  refine BitVec.eq_of_toNat_eq ?_
  rw [BitVec.toNat_and, mask, Nat.and_two_pow_sub_one_eq_mod, BitVec.toNat_setWidth, BitVec.toNat_setWidth]
  exact Nat.mod_eq_of_lt (lt_of_le_of_lt (Nat.mod_le _ _) x.isLt)

theorem low2_layout (x : BitVec 32) : (x.setWidth 2).setWidth 32 = x &&& 3#32 := low_layout x rfl
theorem low4_layout (x : BitVec 32) : (x.setWidth 4).setWidth 32 = x &&& 0xF#32 := low_layout x rfl
theorem low5_layout (x : BitVec 32) : (x.setWidth 5).setWidth 32 = x &&& 0x1F#32 := low_layout x rfl
theorem low12_layout (x : BitVec 32) : (x.setWidth 12).setWidth 32 = x &&& 0xFFF#32 := low_layout x rfl
theorem low16_layout (x : BitVec 32) : (x.setWidth 16).setWidth 32 = x &&& 0xFFFF#32 := low_layout x rfl

theorem bit0_layout (x : BitVec 32) :
    (bit (x.getLsbD 0)).setWidth 32 = x &&& 1#32 :=
  BitVec.eq_of_getLsbD_eq fun i lt => by
    simp only [bit, BitVec.getLsbD_ofBool, BitVec.getLsbD_and, BitVec.getLsbD_setWidth]
    interval_cases i <;> simp

theorem sel_layout (x : BitVec 32) :
    (bit (x.getLsbD 3) ++ x.setWidth 3).setWidth 32 = x &&& 0xF#32 :=
  BitVec.eq_of_getLsbD_eq fun i lt => by
    simp only [bit, BitVec.getLsbD_ofBool, BitVec.getLsbD_and, BitVec.getLsbD_append, BitVec.getLsbD_setWidth]
    interval_cases i <;> simp

theorem bits4_layout (x : BitVec 32) :
    (bit (x.getLsbD 3) ++ bit (x.getLsbD 2) ++ bit (x.getLsbD 1) ++ bit (x.getLsbD 0)).setWidth 32 = x &&& 0xF#32 :=
  BitVec.eq_of_getLsbD_eq fun i lt => by
    simp only [bit, BitVec.getLsbD_ofBool, BitVec.getLsbD_and, BitVec.getLsbD_append, BitVec.getLsbD_setWidth]
    interval_cases i <;> simp

theorem mma_layout (x : BitVec 32) :
    (x.extractLsb' 16 4 ++ x.setWidth 16).setWidth 32 = x &&& 0xFFFFF#32 :=
  BitVec.eq_of_getLsbD_eq fun i lt => by
    simp only [BitVec.getLsbD_and, BitVec.getLsbD_append, BitVec.getLsbD_setWidth, BitVec.getLsbD_extractLsb']
    interval_cases i <;> simp

theorem mcnt_layout (x : BitVec 32) :
    (x.extractLsb' 20 4 ++ x.extractLsb' 16 4 ++ 0#7 ++ bit (x.getLsbD 8) ++ 0#1 ++ x.setWidth 7).setWidth 32 = x &&& 0xFF017F#32 :=
  BitVec.eq_of_getLsbD_eq fun i lt => by
    simp only [bit, BitVec.getLsbD_ofBool, BitVec.getLsbD_and, BitVec.getLsbD_append, BitVec.getLsbD_setWidth, BitVec.getLsbD_extractLsb']
    interval_cases i <;> simp

theorem mld_layout (x : BitVec 32) :
    (x.extractLsb' 8 7 ++ 0#1 ++ x.setWidth 7).setWidth 32 = x &&& 0x7F7F#32 :=
  BitVec.eq_of_getLsbD_eq fun i lt => by
    simp only [BitVec.getLsbD_and, BitVec.getLsbD_append, BitVec.getLsbD_setWidth, BitVec.getLsbD_extractLsb']
    interval_cases i <;> simp

theorem mst_layout (x : BitVec 32) :
    (bit (x.getLsbD 19) ++ x.extractLsb' 16 3 ++ 0#1 ++ x.extractLsb' 8 7 ++ 0#1 ++ x.setWidth 7).setWidth 32 = x &&& 0xF7F7F#32 :=
  BitVec.eq_of_getLsbD_eq fun i lt => by
    simp only [bit, BitVec.getLsbD_ofBool, BitVec.getLsbD_and, BitVec.getLsbD_append, BitVec.getLsbD_setWidth, BitVec.getLsbD_extractLsb']
    interval_cases i <;> simp

theorem mcfg_layout (x : BitVec 32) :
    (x.extractLsb' 8 5 ++ 0#3 ++ x.setWidth 5).setWidth 32 = x &&& 0x1F1F#32 :=
  BitVec.eq_of_getLsbD_eq fun i lt => by
    simp only [BitVec.getLsbD_and, BitVec.getLsbD_append, BitVec.getLsbD_setWidth, BitVec.getLsbD_extractLsb']
    interval_cases i <;> simp

theorem mbcast_layout (x : BitVec 32) :
    x.extractLsb' 16 16 ++ x.extractLsb' 8 8 ++ 0#7 ++ bit (x.getLsbD 0) = x &&& 0xFFFFFF01#32 :=
  BitVec.eq_of_getLsbD_eq fun i lt => by
    simp only [bit, BitVec.getLsbD_ofBool, BitVec.getLsbD_and, BitVec.getLsbD_append, BitVec.getLsbD_extractLsb']
    interval_cases i <;> simp

theorem ccancel_layout (x : BitVec 32) :
    (bit (x.getLsbD 2) ++ x.setWidth 2).setWidth 32 = x &&& 7#32 :=
  BitVec.eq_of_getLsbD_eq fun i lt => by
    simp only [bit, BitVec.getLsbD_ofBool, BitVec.getLsbD_and, BitVec.getLsbD_append, BitVec.getLsbD_setWidth]
    interval_cases i <;> simp

theorem put_layout (x : BitVec 32) :
    (bit (x.getLsbD 18) ++ x.extractLsb' 16 2 ++ x.setWidth 16).setWidth 32 = x &&& 0x7FFFF#32 :=
  BitVec.eq_of_getLsbD_eq fun i lt => by
    simp only [bit, BitVec.getLsbD_ofBool, BitVec.getLsbD_and, BitVec.getLsbD_append, BitVec.getLsbD_setWidth, BitVec.getLsbD_extractLsb']
    interval_cases i <;> simp

theorem putv_layout (x : BitVec 32) :
    (bit (x.getLsbD 18) ++ x.extractLsb' 16 2 ++ 0#12 ++ x.setWidth 4).setWidth 32 = x &&& 0x7000F#32 :=
  BitVec.eq_of_getLsbD_eq fun i lt => by
    simp only [bit, BitVec.getLsbD_ofBool, BitVec.getLsbD_and, BitVec.getLsbD_append, BitVec.getLsbD_setWidth, BitVec.getLsbD_extractLsb']
    interval_cases i <;> simp

theorem ramo_layout (x : BitVec 32) :
    (x.extractLsb' 6 2 ++ (Order.ofCode (x.extractLsb' 4 2)).code ++ x.setWidth 4).setWidth 32 = x &&& 0xFF#32 :=
  BitVec.eq_of_getLsbD_eq fun i lt => by
    simp only [Order.code_ofCode, BitVec.getLsbD_and, BitVec.getLsbD_append, BitVec.getLsbD_setWidth, BitVec.getLsbD_extractLsb']
    interval_cases i <;> simp

theorem mtake_layout (x : BitVec 32) :
    (bit (x.getLsbD 5) ++ x.setWidth 5).setWidth 32 = x &&& 0x3F#32 :=
  BitVec.eq_of_getLsbD_eq fun i lt => by
    simp only [bit, BitVec.getLsbD_ofBool, BitVec.getLsbD_and, BitVec.getLsbD_append, BitVec.getLsbD_setWidth]
    interval_cases i <;> simp

theorem joinw_layout (x : BitVec 32) :
    (bit (x.getLsbD 4) ++ x.setWidth 4).setWidth 32 = x &&& 0x1F#32 :=
  BitVec.eq_of_getLsbD_eq fun i lt => by
    simp only [bit, BitVec.getLsbD_ofBool, BitVec.getLsbD_and, BitVec.getLsbD_append, BitVec.getLsbD_setWidth]
    interval_cases i <;> simp

/-! ## IMM and operand B -/

namespace Fields

theorem noImm_eq_some {f : Fields} {u : Unit} : f.noImm = some u ↔ f.imm = 0 := by simp [noImm]

theorem immMask_eq_some {f : Fields} {m : BitVec 32} {u : Unit} : f.immMask m = some u ↔ f.imm &&& m = f.imm := by
  simp [immMask, masked_iff]

theorem gi_eq_some {f : Fields} {b : GI} : f.gi = some b ↔ f.b = b.opnd ∧ f.imm = b.immv := by
  refine ⟨fun read => ?_, fun ⟨opnd, imm⟩ => ?_⟩
  · unfold gi at read
    split at read <;> simp [Option.bind_eq_some_iff, isImm_eq_some, g_eq_some, noImm_eq_some] at read
    · obtain ⟨opnd, rfl⟩ := read
      exact ⟨opnd, rfl⟩
    · obtain ⟨r, opnd, imm, rfl⟩ := read
      exact ⟨opnd, imm⟩
  · cases b <;> simp [gi, noImm, opnd, imm, GI.opnd, GI.immv]

theorem gi16_eq_some {f : Fields} {k : GI16} : f.gi16 = some k ↔ f.b = k.opnd ∧ f.vimm.immb = k.immb := by
  refine ⟨fun read => ?_, fun ⟨opnd, immb⟩ => ?_⟩
  · unfold gi16 at read
    split at read <;> simp [Option.bind_eq_some_iff, isImm_eq_some, g_eq_some] at read
    · obtain ⟨opnd, rfl⟩ := read
      exact ⟨opnd, rfl⟩
    · obtain ⟨r, opnd, immb, rfl⟩ := read
      exact ⟨opnd, immb⟩
  · cases k <;> simp [gi16, need, opnd, immb, GI16.opnd, GI16.immb]

theorem vg_eq_some {f : Fields} {y : VG} : f.vg = some y ↔ f.b = y.opnd := by
  refine ⟨fun read => ?_, fun opnd => ?_⟩
  · unfold vg at read
    split at read <;> simp [Option.bind_eq_some_iff, vsrc_eq_some, g_eq_some] at read
    · obtain ⟨r, opnd, rfl⟩ := read
      exact opnd
    · obtain ⟨x, opnd, rfl⟩ := read
      exact opnd
  · cases y <;> simp [vg, opnd, VG.opnd]

theorem vb_eq_some {f : Fields} {y : VB} : f.vb = some y ↔ f.b = y.opnd ∧ f.vimm.immb = y.immb := by
  refine ⟨fun read => ?_, fun ⟨opnd, immb⟩ => ?_⟩
  · unfold vb at read
    split at read
    · simp [Option.bind_eq_some_iff, isImm_eq_some] at read
      obtain ⟨opnd, rfl⟩ := read
      exact ⟨opnd, rfl⟩
    · split at read <;> simp [Option.bind_eq_some_iff, vsrc_eq_some, g_eq_some] at read
      · obtain ⟨r, opnd, immb, rfl⟩ := read
        exact ⟨opnd, immb⟩
      · obtain ⟨x, opnd, immb, rfl⟩ := read
        exact ⟨opnd, immb⟩
  · cases y <;> simp [vb, need, opnd, immb, VB.opnd, VB.immb]

theorem opnd_of_pb {f : Fields} {y : PB} (read : f.pb = some y) : f.b = y.opnd ∧ f.imm = y.immv := by
  unfold pb at read
  split at read <;> simp [Option.bind_eq_some_iff, immMask_eq_some, psrc_eq_some, noImm_eq_some] at read
  · obtain ⟨masked, rfl⟩ := read
    exact ⟨‹_›, (bit0_layout f.imm ▸ masked).symm⟩
  · obtain ⟨x, opnd, imm, rfl⟩ := read
    exact ⟨opnd, imm⟩

/-- A predicate operand p0 without NEG is the IMM select (R168). -/
theorem pb_of_opnd {f : Fields} {y : PB} (notZero : y ≠ .pred ⟨0, false⟩) (opnd : f.b = y.opnd) (imm : f.imm = y.immv) :
    f.pb = some y := by
  cases y with
  | imm c => cases c <;> simp [pb, immMask, opnd, imm, PB.opnd, PB.immv, bit]
  | pred x =>
    have other : ofPSrc x ≠ Opnd.imm := fun e =>
      notZero (congrArg PB.pred (Option.some.inj ((psrc_ofPSrc x).symm.trans (e ▸ rfl))))
    simp [pb, noImm, opnd, imm, other, PB.opnd, PB.immv]

/-! ## Vector forms -/

theorem vtyd_eq_some {f : Fields} {d : VReg} {t : ETy} : f.vtyd = some (d, t) ↔ f.d = ofV d t.code := by
  simp [vtyd, Option.bind_eq_some_iff, vm_eq_some, ETy.ofCode_eq_some]

theorem gtyd_eq_some {f : Fields} {d : GReg} {t : ETy} : f.gtyd = some (d, t) ↔ f.d = ofG d t.code := by
  simp [gtyd, Option.bind_eq_some_iff, gm_eq_some, ETy.ofCode_eq_some]

theorem noF_eq_some {f : Fields} {u : Unit} : f.noF = some u ↔ f.vimm.f1 = 0 ∧ f.vimm.f2 = 0 := by simp [noF]

theorem noB_eq_some {f : Fields} {u : Unit} : f.noB = some u ↔ f.b = zero ∧ f.vimm.immb = 0 := by
  simp [noB, Option.bind_eq_some_iff, isZero_eq_some]

end Fields
end Sys2Proof
end

section
/-! Encoding what was decoded: the fields that a form is read from are the fields of that form, opcode by opcode. -/

namespace Sys2Proof

open Opnd Fields

@[simp] theorem mkF_opc (h : Hdr) (opc fn : BitVec 8) (d a b : Opnd) (imm : BitVec 32) :
    (mkF h opc fn d a b imm).opc = opc := rfl
@[simp] theorem mkF_fn (h : Hdr) (opc fn : BitVec 8) (d a b : Opnd) (imm : BitVec 32) :
    (mkF h opc fn d a b imm).fn = fn := rfl
@[simp] theorem mkF_d (h : Hdr) (opc fn : BitVec 8) (d a b : Opnd) (imm : BitVec 32) :
    (mkF h opc fn d a b imm).d = d := rfl
@[simp] theorem mkF_a (h : Hdr) (opc fn : BitVec 8) (d a b : Opnd) (imm : BitVec 32) :
    (mkF h opc fn d a b imm).a = a := rfl
@[simp] theorem mkF_b (h : Hdr) (opc fn : BitVec 8) (d a b : Opnd) (imm : BitVec 32) :
    (mkF h opc fn d a b imm).b = b := rfl
@[simp] theorem mkF_imm (h : Hdr) (opc fn : BitVec 8) (d a b : Opnd) (imm : BitVec 32) :
    (mkF h opc fn d a b imm).imm = imm := rfl

/-- A step of a decoder. simp uses it on the way down (↓): a condition of need that it has rewritten no longer matches
need_eq_some. -/
theorem do_eq_some {α β : Type} {x : Option α} {k : α → Option β} {y : β} :
    (x >>= k) = some y ↔ ∃ a, x = some a ∧ k a = some y := Option.bind_eq_some_iff

/-! ## The function code -/

theorem fn_eq {fn : BitVec 8} {n : Nat} (e : fn.toNat = n) : fn = BitVec.ofNat 8 n := by rw [← e]; simp

theorem cmp_fn : ∀ fn : BitVec 8, fn.toNat < 8 → (Cond.ofCode (fn.setWidth 3)).code.setWidth 8 = fn := by decide

theorem ld_fn : ∀ fn : BitVec 8, fn.toNat / 16 = 0 → fn.toNat % 16 < 8 →
    0#4 ++ (0#1 ++ bit (fn.getLsbD 2) ++ (Sz.ofCode (fn.setWidth 2)).code) = fn := by decide

theorem st_fn : ∀ fn : BitVec 8, fn.toNat / 16 = 1 → fn.toNat % 16 < 4 →
    1#4 ++ (0#2 ++ (Sz.ofCode (fn.setWidth 2)).code) = fn := by decide

theorem cinv_fn :
    ∀ fn : BitVec 8, fn.toNat / 16 = 10 → fn.toNat % 16 < 2 → 10#4 ++ (0#3 ++ bit (fn.getLsbD 0)) = fn := by decide

theorem feSize_fn : ∀ (fn : BitVec 8) (w : Bool), feSize (fn.toNat % 16) = some w →
    BitVec.ofNat 4 (fn.toNat / 16) ++ (1#3 ++ bit w) = fn := by decide

theorem halves_fn : ∀ fn : BitVec 8, BitVec.ofNat 4 (fn.toNat / 16) ++ BitVec.ofNat 4 (fn.toNat % 16) = fn := by decide

theorem atomic_fn : ∀ fn : BitVec 8,
    BitVec.ofNat 4 (fn.toNat / 16) ++ (Order.ofCode (fn.extractLsb' 2 2)).code ++ fn.setWidth 2 = fn := by decide

theorem vf_fn : ∀ fn : BitVec 8, fn.extractLsb' 5 3 ++ BitVec.ofNat 5 (fn.setWidth 5).toNat = fn := by decide

/-! ## Modifiers -/

theorem scale_mod : ∀ m : BitVec 4, m.extractLsb' 2 2 = 0 → 0#2 ++ m.setWidth 2 = m := by decide

theorem size_mod : ∀ m : BitVec 4, m.extractLsb' 1 3 = 1 → 1#3 ++ bit (m.getLsbD 0) = m := by decide

theorem low_mod : ∀ m : BitVec 4, m.extractLsb' 1 3 = 0 → 0#3 ++ bit (m.getLsbD 0) = m := by decide

theorem neg_mod : ∀ m : BitVec 4, m.setWidth 3 = 0 → bit (m.getLsbD 3) ++ 0#3 = m := by decide

theorem waita_mod :
    ∀ m : BitVec 4, m.extractLsb' 1 2 = 0 → bit (m.getLsbD 3) ++ 0#2 ++ bit (m.getLsbD 0) = m := by decide

theorem cond_mod : ∀ m : BitVec 4, m.getLsbD 3 = false → 0#1 ++ (Cond.ofCode (m.setWidth 3)).code = m := by decide

theorem put_mod :
    ∀ (m : BitVec 4) (c : BitVec 3) (dk : Bool), m.setWidth 3 = c ∧ m.getLsbD 3 = dk ↔ m = bit dk ++ c := by decide

theorem putA_eq_some {f : Fields} {a : GReg} {sc : Scope} {dk : Bool} :
    f.putA = some (a, sc, dk) ↔ f.a = ofG a (bit dk ++ sc.code) := by
  simp only [putA, Option.bind_eq_bind, Option.bind_eq_some_iff, Option.pure_def, Option.some.injEq, Prod.exists,
    Prod.mk.injEq, gm_eq_some, Scope.ofCode_eq_some]
  exact ⟨fun ⟨r, m, opnd, s, code, e, e', e''⟩ => by subst e e'; rw [opnd, (put_mod m _ dk).1 ⟨code, e''⟩],
    fun opnd => ⟨a, _, opnd, sc, ((put_mod _ _ dk).2 rfl).1, rfl, rfl, ((put_mod _ _ dk).2 rfl).2⟩⟩

theorem msg_layout (x : BitVec 32) :
    MsgImm.pack ⟨x.setWidth 5, x.extractLsb' 5 5, x.getLsbD 10, x.extractLsb' 11 5, x.extractLsb' 16 16⟩ = x :=
  BitVec.eq_of_getLsbD_eq fun i lt => by
    simp only [MsgImm.pack, bit, BitVec.getLsbD_ofBool, BitVec.getLsbD_append, BitVec.getLsbD_setWidth,
      BitVec.getLsbD_extractLsb']
    interval_cases i <;> simp

section
variable {h : Hdr} {fn : BitVec 8} {od oa ob : Opnd} {imm : BitVec 32} {i : Instr}

/-- Fields that differ in IMM alone. -/
theorem mkF_imm_congr {opc : BitVec 8} {v w : BitVec 32} (e : v = w) :
    some (mkF h opc fn od oa ob v) = some (mkF h opc fn od oa ob w) := by rw [e]

theorem dec01_fields (dec : (mkF h 1 fn od oa ob imm).dec01 h = some i) :
    i.fields = some (mkF h 1 fn od oa ob imm) := by
  unfold dec01 at dec
  split at dec
  case h_38 => contradiction
  all_goals
    rename_i number
    obtain rfl := fn_eq number
    clear number
    delta mkF at dec
    simp only [
      ↓do_eq_some, Option.pure_def, Option.some.injEq, exists_const, Prod.exists, alu3, alu2, alu3n, isZero_eq_some,
      isImm_eq_some, g_eq_some, gw_eq_some, gi_eq_some, noImm_eq_some, immMask_eq_some, ↓need_eq_some, ← sel_layout] at dec
  -- LEA, whose OPB carries the scale in its modifier
  case h_33 =>
    obtain ⟨d, rfl, a, rfl, low, tail⟩ := dec
    obtain ⟨cls, num, mod⟩ := ob
    split at tail
    all_goals
      simp only [↓do_eq_some, ↓need_eq_some, Option.some.injEq, exists_const, noImm_eq_some] at tail
      casesm* _ ∧ _
      subst_vars
      exact congrArg (fun m => some (mkF h 1 0x20 _ _ ⟨_, _, m⟩ _)) (scale_mod _ low)
  all_goals casesm* _ ∧ _, ∃ _, _
  all_goals subst_vars
  -- what the mask of IMM keeps is all of it
  case h_34 => exact mkF_imm_congr ‹_ = imm›
  all_goals rfl

theorem dec02_fields (dec : (mkF h 2 fn od oa ob imm).dec02 h = some i) :
    i.fields = some (mkF h 2 fn od oa ob imm) := by
  unfold dec02 at dec
  split at dec
  case isTrue lt =>
    delta mkF at dec
    simp only [↓do_eq_some, ↓need_eq_some, Option.pure_def, Option.some.injEq, exists_const, Prod.exists, pm_eq_some,
      g_eq_some, gi_eq_some] at dec
    casesm* _ ∧ _, ∃ _, _
    have width := low_mod _ ‹_›
    subst_vars
    exact congrArg₂ (fun m f => some (mkF h 2 f (ofP _ m) _ _ _)) width (cmp_fn fn lt)
  case isFalse =>
    split at dec
    case h_7 => contradiction
    all_goals
      rename_i number
      obtain rfl := fn_eq number
      clear number
      delta mkF at dec
      simp only [pred3, ↓do_eq_some, Option.pure_def, Option.some.injEq, exists_const, isZero_eq_some,
        g_eq_some, psrc_eq_some, p_eq_some, noImm_eq_some] at dec
    -- PMOV, whose source is a g register or a predicate
    case h_5 =>
      obtain ⟨d, rfl, rfl, rfl, tail⟩ := dec
      obtain ⟨cls, num, mod⟩ := oa
      split at tail
      all_goals
        simp only [↓do_eq_some, ↓need_eq_some, Option.some.injEq, exists_const, psrc_eq_some] at tail
      · obtain ⟨low, rfl⟩ := tail
        subst_vars
        exact congrArg (fun m => some (mkF h 2 0x14 _ ⟨_, _, m⟩ _ _)) (neg_mod _ low)
      · obtain ⟨a, e, rfl⟩ := tail
        rw [e]
        rfl
    all_goals casesm* _ ∧ _, ∃ _, _
    case h_1 | h_2 | h_3 =>
      obtain ⟨rfl, rfl⟩ := opnd_of_pb ‹_›
      subst_vars
      rfl
    all_goals subst_vars
    all_goals rfl

/-- Fields that differ in the function code alone. -/
theorem mkF_fn_congr {opc f g : BitVec 8} (e : f = g) :
    some (mkF h opc f od oa ob imm) = some (mkF h opc g od oa ob imm) := by
  rw [e]

theorem dec03_fields (dec : (mkF h 3 fn od oa ob imm).dec03 h = some i) :
    i.fields = some (mkF h 3 fn od oa ob imm) := by
  unfold dec03 at dec
  split at dec
  case h_9 => contradiction
  all_goals
    rename_i number
    obtain rfl := fn_eq number
    clear number
    delta mkF at dec
    simp only [
      ↓do_eq_some, Option.pure_def, Option.some.injEq, exists_const, isZero_eq_some, g_eq_some, noImm_eq_some] at dec
  all_goals casesm* _ ∧ _, ∃ _, _
  all_goals subst_vars
  all_goals rfl

theorem dec04_fields (dec : (mkF h 4 fn od oa ob imm).dec04 h = some i) :
    i.fields = some (mkF h 4 fn od oa ob imm) := by
  simp only [dec04, ↓do_eq_some, exists_const, isImm_eq_some] at dec
  obtain ⟨rfl, dec⟩ := dec
  delta mkF at dec
  have halves := halves_fn fn
  have size := feSize_fn fn
  split at dec
  case h_13 => contradiction
  all_goals
    rename_i high
    simp only [high] at halves size
    simp only [↓do_eq_some, ↓need_eq_some, Option.pure_def, Option.some.injEq, exists_const, Prod.exists, isZero_eq_some,
      g_eq_some, gord_eq_some] at dec
    casesm* _ ∧ _, ∃ _, _
    subst_vars
  case h_1 => exact mkF_fn_congr (ld_fn fn high ‹_›)
  case h_2 => exact mkF_fn_congr (st_fn fn high ‹_›)
  case h_11 => exact mkF_fn_congr (cinv_fn fn high ‹_›)
  case h_3 | h_4 | h_9 | h_10 | h_12 =>
    simp only [‹fn.toNat % 16 = _›] at halves
    exact mkF_fn_congr halves
  all_goals exact mkF_fn_congr (size _ ‹_›)

theorem dec05_fields (dec : (mkF h 5 fn od oa ob imm).dec05 h = some i) :
    i.fields = some (mkF h 5 fn od oa ob imm) := by
  delta mkF at dec
  simp only [dec05, ↓do_eq_some, ↓need_eq_some, exists_const, Prod.exists, gm_eq_some, gsc_eq_some, g_eq_some,
    Place.ofCode_eq_some] at dec
  obtain ⟨d, m, rfl, size, a, sc, rfl, b, rfl, pl, place, dec⟩ := dec
  have code := atomic_fn fn
  rw [place] at code
  split at dec
  case h_14 => contradiction
  all_goals
    rename_i op
    rw [op] at code
    obtain rfl := Option.some.inj dec
    exact congrArg₂ (fun f m => some (mkF h 5 f (ofG d m) _ _ _)) code (size_mod m size)

theorem dec06_fields (dec : (mkF h 6 fn od oa ob imm).dec06 h = some i) :
    i.fields = some (mkF h 6 fn od oa ob imm) := by
  unfold dec06 at dec
  split at dec
  case h_9 => contradiction
  all_goals
    rename_i number
    obtain rfl := fn_eq number
    clear number
    delta mkF at dec
    simp only [
      ↓do_eq_some, Option.pure_def, Option.some.injEq, exists_const, Prod.exists, isZero_eq_some, g_eq_some,
      gsc_eq_some, gm_eq_some, gi_eq_some, noImm_eq_some, immMask_eq_some, ↓need_eq_some, ← bits4_layout,
      ← low2_layout] at dec
  all_goals casesm* _ ∧ _, ∃ _, _
  -- WAITA, whose modifiers hold the order, the width and the condition
  case h_2 =>
    subst_vars
    exact congrArg₂ (fun m c => some (mkF h 6 1 (ofG _ m) (ofGSc _ _) (ofG _ c) imm)) (waita_mod _ ‹_›) (cond_mod _ ‹_›)
  all_goals subst_vars
  -- what the mask of IMM keeps is all of it
  case h_1 | h_4 | h_5 | h_6 => exact mkF_imm_congr ‹_ = imm›
  all_goals rfl

theorem dec20_fields (dec : (mkF h 0x20 fn od oa ob imm).dec20 h = some i) :
    i.fields = some (mkF h 0x20 fn od oa ob imm) := by
  unfold dec20 at dec
  split at dec
  case h_13 => contradiction
  all_goals
    rename_i number
    obtain rfl := fn_eq number
    clear number
    delta mkF at dec
    simp only [
      ↓do_eq_some, Option.pure_def, Option.some.injEq, exists_const, Prod.exists, isZero_eq_some, g_eq_some,
      a0_eq_some, am_eq_some, gi_eq_some, noImm_eq_some, immMask_eq_some, ETy.ofCode_eq_some, RMode.ofCode_eq_some,
      ← mma_layout, ← mcnt_layout, ← bit0_layout, ← mld_layout, ← mst_layout, ← bits4_layout, ← mcfg_layout,
      ← mbcast_layout] at dec
  all_goals casesm* _ ∧ _, ∃ _, _
  -- MMA, MCNT and MST, whose IMM holds codes
  case h_1 =>
    simp only [‹imm.extractLsb' 16 4 = _›] at *
    subst_vars
    exact mkF_imm_congr ‹_ = imm›
  case h_2 =>
    simp only [‹imm.extractLsb' 16 4 = _›, ‹imm.extractLsb' 20 4 = _›] at *
    subst_vars
    exact mkF_imm_congr ‹_ = imm›
  case h_7 =>
    simp only [‹imm.extractLsb' 16 3 = _›] at *
    subst_vars
    exact mkF_imm_congr ‹_ = imm›
  all_goals subst_vars
  -- what the mask of IMM keeps is all of it
  case h_3 | h_6 | h_8 | h_10 | h_11 => exact mkF_imm_congr ‹_ = imm›
  all_goals rfl

theorem dec21_fields (dec : (mkF h 0x21 fn od oa ob imm).dec21 h = some i) :
    i.fields = some (mkF h 0x21 fn od oa ob imm) := by
  delta mkF at dec
  simp only [dec21, ↓do_eq_some, g_eq_some] at dec
  obtain ⟨d, rfl, a, rfl, dec⟩ := dec
  split at dec
  case h_6 => contradiction
  all_goals
    rename_i number
    obtain rfl := fn_eq number
    simp only [↓do_eq_some, Option.pure_def, Option.some.injEq, exists_const, isZero_eq_some, g_eq_some, noImm_eq_some,
      immMask_eq_some, ← low2_layout, ← bit0_layout] at dec
    casesm* _ ∧ _, ∃ _, _
    subst_vars
  -- what the mask of IMM keeps is all of it
  case h_1 | h_3 => exact mkF_imm_congr ‹_ = imm›
  all_goals rfl

theorem dec30_fields (dec : (mkF h 0x30 fn od oa ob imm).dec30 h = some i) :
    i.fields = some (mkF h 0x30 fn od oa ob imm) := by
  unfold dec30 at dec
  split at dec
  case h_8 => contradiction
  all_goals
    rename_i number
    obtain rfl := fn_eq number
    clear number
    delta mkF at dec
    simp only [
      ↓do_eq_some, Option.pure_def, Option.some.injEq, exists_const, Prod.exists, isZero_eq_some, g_eq_some,
      gm_eq_some, gsc_eq_some, v_eq_some, putA_eq_some, immMask_eq_some, ↓need_eq_some, AtOp.ofCode_eq_some,
      ← low2_layout, ← ccancel_layout, ← put_layout, ← putv_layout, ← ramo_layout] at dec
  all_goals casesm* _ ∧ _, ∃ _, _
  -- RAMO, whose IMM holds the operation
  case h_7 =>
    have size := size_mod _ ‹_›
    simp only [‹BitVec.setWidth 4 imm = _›] at *
    subst_vars
    exact congrArg₂ (fun m v => some (mkF h 0x30 6 (ofG _ m) _ _ v)) size ‹_ = imm›
  all_goals subst_vars
  -- what the mask of IMM keeps is all of it
  case h_1 | h_2 | h_3 | h_4 | h_5 | h_6 => exact mkF_imm_congr ‹_ = imm›

theorem dec31_fields (dec : (mkF h 0x31 fn od oa ob imm).dec31 h = some i) :
    i.fields = some (mkF h 0x31 fn od oa ob imm) := by
  unfold dec31 at dec
  split at dec
  case h_9 => contradiction
  all_goals
    rename_i number
    obtain rfl := fn_eq number
    clear number
    delta mkF at dec
    simp only [
      ↓do_eq_some, Option.pure_def, Option.some.injEq, exists_const, isZero_eq_some, g_eq_some, v_eq_some,
      gi_eq_some, noImm_eq_some, immMask_eq_some, ← low5_layout, ← low4_layout, ← mtake_layout] at dec
  all_goals casesm* _ ∧ _, ∃ _, _
  case h_1 | h_2 =>
    subst_vars
    exact mkF_imm_congr (msg_layout imm)
  all_goals subst_vars
  -- what the mask of IMM keeps is all of it
  case h_3 | h_4 | h_7 => exact mkF_imm_congr ‹_ = imm›
  all_goals rfl

theorem dec32_fields (dec : (mkF h 0x32 fn od oa ob imm).dec32 h = some i) :
    i.fields = some (mkF h 0x32 fn od oa ob imm) := by
  unfold dec32 at dec
  split at dec
  case h_8 => contradiction
  all_goals
    rename_i number
    obtain rfl := fn_eq number
    clear number
    delta mkF at dec
    simp only [
      ↓do_eq_some, Option.pure_def, Option.some.injEq, exists_const, isZero_eq_some, g_eq_some, gi_eq_some,
      noImm_eq_some, immMask_eq_some, ← low2_layout, ← joinw_layout] at dec
  all_goals casesm* _ ∧ _, ∃ _, _
  all_goals subst_vars
  -- what the mask of IMM keeps is all of it
  case h_1 | h_2 | h_3 => exact mkF_imm_congr ‹_ = imm›
  all_goals rfl

theorem dec3F_fields (dec : (mkF h 0x3F fn od oa ob imm).dec3F h = some i) :
    i.fields = some (mkF h 0x3F fn od oa ob imm) := by
  unfold dec3F at dec
  split at dec
  case h_15 => contradiction
  all_goals
    rename_i number
    obtain rfl := fn_eq number
    clear number
    delta mkF at dec
    simp only [
      ↓do_eq_some, Option.pure_def, Option.some.injEq, exists_const, isZero_eq_some, g_eq_some, noImm_eq_some,
      immMask_eq_some, ← bit0_layout, ← low2_layout, ← low4_layout, ← low12_layout, ← low16_layout] at dec
  all_goals casesm* _ ∧ _, ∃ _, _
  all_goals subst_vars
  -- what the mask of IMM keeps is all of it
  case h_2 | h_3 | h_4 | h_5 | h_6 | h_7 | h_8 | h_13 => exact mkF_imm_congr ‹_ = imm›
  all_goals rfl

end
end Sys2Proof
end

section
/-! Encoding what was decoded, for the vector forms, whose IMM is that of Table 10-2. -/

namespace Sys2Proof

open Opnd Fields

@[simp] theorem VImm.unpack_pack (x : VImm) : VImm.unpack x.pack = x := by
  obtain ⟨immb, f2, f1, m, z⟩ := x
  simp only [VImm.unpack, VImm.pack, bit, VImm.mk.injEq, VMask.mk.injEq]
  refine ⟨?_, ?_, ?_, ?_, ?_⟩
  case refine_5 =>
    simp only [BitVec.getLsbD_append]
    simp
  all_goals
    refine BitVec.eq_of_getLsbD_eq fun i lt => ?_
    simp only [BitVec.getLsbD_append, BitVec.getLsbD_extractLsb']
    interval_cases i <;> simp

theorem VImm.pack_unpack (x : BitVec 32) : (VImm.unpack x).pack = x :=
  BitVec.eq_of_getLsbD_eq fun i lt => by
    simp only [VImm.unpack, VImm.pack, bit, BitVec.getLsbD_ofBool, BitVec.getLsbD_append, BitVec.getLsbD_extractLsb']
    interval_cases i <;> simp

/-! ## The fields of IMM -/

theorem cvt_part : ∀ x : BitVec 8, x.extractLsb' 5 3 = 0 → 0#3 ++ bit (x.getLsbD 4) ++ x.setWidth 4 = x := by decide

theorem scl_block : ∀ x : BitVec 8, x.extractLsb' 3 5 = 0 → 0#5 ++ bit (x.getLsbD 2) ++ x.setWidth 2 = x := by decide

theorem vamo_f2 :
    ∀ x : BitVec 8, x.extractLsb' 6 2 ++ (Order.ofCode (x.extractLsb' 4 2)).code ++ x.setWidth 4 = x := by decide

section
variable {h : Hdr} {fn : BitVec 8} {od oa ob : Opnd} {immb : BitVec 16} {f1 : BitVec 4} {f2 : BitVec 8} {m : VMask} {i : Instr}

/-- Fields that differ in F1 alone. -/
theorem mkF_f1_congr {opc : BitVec 8} {v w : BitVec 4} (e : v = w) :
    some (mkF h opc fn od oa ob (VImm.pack ⟨immb, f2, v, m⟩)) = some (mkF h opc fn od oa ob (VImm.pack ⟨immb, f2, w, m⟩)) := by
  rw [e]

/-- Fields that differ in F2 alone. -/
theorem mkF_f2_congr {opc : BitVec 8} {v w : BitVec 8} (e : v = w) :
    some (mkF h opc fn od oa ob (VImm.pack ⟨immb, v, f1, m⟩)) = some (mkF h opc fn od oa ob (VImm.pack ⟨immb, w, f1, m⟩)) := by
  rw [e]

theorem dec10_fields (dec : (mkF h 0x10 fn od oa ob (VImm.pack ⟨immb, f2, f1, m⟩)).dec10 h = some i) :
    i.fields = some (mkF h 0x10 fn od oa ob (VImm.pack ⟨immb, f2, f1, m⟩)) := by
  delta mkF at dec
  unfold dec10 at dec
  split at dec
  case h_20 => contradiction
  all_goals
    rename_i number
    obtain rfl := fn_eq number
    clear number
    simp only [vi3, vi3s, vi2s, vi2] at dec
    simp only [↓do_eq_some, ↓need_eq_some, Option.pure_def, Option.some.injEq, exists_const, Prod.exists, vtyd_eq_some,
      vsrc_eq_some, vb_eq_some, noF_eq_some, noB_eq_some, qm_eq_some, ETy.ofCode_eq_some, vimm, VImm.unpack_pack] at dec
    casesm* _ ∧ _, ∃ _, _
    subst_vars
  case h_1 | h_2 | h_15 | h_16 => exact mkF_f1_congr (low_mod _ ‹_›)
  case h_17 => exact mkF_f1_congr (cond_mod _ ‹_›)
  all_goals rfl

theorem dec11_fields (dec : (mkF h 0x11 fn od oa ob (VImm.pack ⟨immb, f2, f1, m⟩)).dec11 h = some i) :
    i.fields = some (mkF h 0x11 fn od oa ob (VImm.pack ⟨immb, f2, f1, m⟩)) := by
  delta mkF at dec
  simp only [dec11, ↓do_eq_some, RMode.ofCode_eq_some] at dec
  obtain ⟨r, mode, dec⟩ := dec
  have code := vf_fn fn
  rw [mode] at code
  split at dec
  case h_19 => contradiction
  all_goals
    rename_i number
    rw [number] at code
    clear number mode
    simp only [vf3, vf2, vi2, Option.pure_def] at dec
    simp only [↓do_eq_some, ↓need_eq_some, Option.some.injEq, exists_const, Prod.exists, vtyd_eq_some,
      vsrc_eq_some, vg_eq_some, v_eq_some, noF_eq_some, noB_eq_some, qm_eq_some, ETy.ofCode_eq_some, vimm, VImm.unpack_pack] at dec
    casesm* _ ∧ _, ∃ _, _
    subst_vars
  case h_15 => exact mkF_f1_congr (cond_mod _ ‹_›)
  case h_17 => exact mkF_f2_congr (cvt_part _ ‹_›)
  case h_18 => exact mkF_f2_congr (scl_block _ ‹_›)
  all_goals rfl

theorem dec12_fields (dec : (mkF h 0x12 fn od oa ob (VImm.pack ⟨immb, f2, f1, m⟩)).dec12 h = some i) :
    i.fields = some (mkF h 0x12 fn od oa ob (VImm.pack ⟨immb, f2, f1, m⟩)) := by
  obtain ⟨msk, z⟩ := m
  delta mkF at dec
  unfold dec12 at dec
  split at dec
  case h_21 => contradiction
  all_goals
    rename_i number
    obtain rfl := fn_eq number
    clear number
    simp only [red, vi2] at dec
    simp only [↓do_eq_some, ↓need_eq_some, Option.pure_def, Option.some.injEq, exists_const, Prod.exists, vtyd_eq_some,
      gtyd_eq_some, vsrc_eq_some, gi16_eq_some, g_eq_some, q_eq_some, isZero_eq_some, noF_eq_some, noB_eq_some, noImm_eq_some,
      RMode.ofCode_eq_some, vimm, VImm.unpack_pack, VMask.mk.injEq] at dec
    casesm* _ ∧ _, ∃ _, _
    subst_vars
  case h_2 | h_3 | h_13 | h_14 => exact mkF_f1_congr (low_mod _ ‹_›)
  case h_4 => exact mkF_f1_congr ((mod_low_iff _ _).1 ⟨‹_›, ‹_›⟩).symm
  case h_16 | h_17 | h_18 | h_19 | h_20 => exact mkF_imm_congr ‹VImm.pack _ = 0›.symm
  all_goals rfl

theorem dec13_fields (dec : (mkF h 0x13 fn od oa ob (VImm.pack ⟨immb, f2, f1, m⟩)).dec13 h = some i) :
    i.fields = some (mkF h 0x13 fn od oa ob (VImm.pack ⟨immb, f2, f1, m⟩)) := by
  obtain ⟨msk, z⟩ := m
  delta mkF at dec
  simp only [dec13, ↓do_eq_some, Prod.exists, vtyd_eq_some] at dec
  obtain ⟨d, t, rfl, dec⟩ := dec
  split at dec
  case h_9 => contradiction
  all_goals
    rename_i number
    obtain rfl := fn_eq number
    clear number
    simp only [↓do_eq_some, ↓need_eq_some, Option.pure_def, Option.some.injEq, exists_const, Prod.exists,
      g_eq_some, gsc_eq_some, v_eq_some, isImm_eq_some, noF_eq_some, Place.ofCode_eq_some, vimm, VImm.unpack_pack] at dec
    casesm* _ ∧ _, ∃ _, _
    subst_vars
  case h_5 | h_6 => exact mkF_f1_congr (scale_mod _ ‹_›)
  -- VAMO, whose F2 holds the operation, the order and the place
  case h_8 =>
    have code := vamo_f2 f2
    rw [‹f2.extractLsb' 6 2 = _›, ← AtOp.vcode_of_ofVcode _ _ ‹AtOp.ofVcode (f2.setWidth 4) = some _›] at code
    exact (mkF_f1_congr (scale_mod _ ‹_›)).trans (mkF_f2_congr code)
  all_goals rfl
end

/-! ## Every opcode -/

/-- The fields that a form is read from are the fields of that form. -/
theorem Fields.fields_of_form {f : Fields} {h : Hdr} {i : Instr} (hdr : f.hdr = some h) (dec : f.form h = some i) :
    i.fields = some f := by
  obtain ⟨⟨immb, f2, f1, m⟩, vimm⟩ : ∃ x : VImm, f.imm = x.pack := ⟨_, (VImm.pack_unpack f.imm).symm⟩
  have parts := Fields.eq_mkF hdr
  unfold form at dec
  split at dec
  case h_17 => contradiction
  all_goals
    rename_i number
    rw [fn_eq number] at parts
    rw [parts] at dec ⊢
  case h_1 => exact dec01_fields dec
  case h_2 => exact dec02_fields dec
  case h_3 => exact dec03_fields dec
  case h_4 => exact dec04_fields dec
  case h_5 => exact dec05_fields dec
  case h_6 => exact dec06_fields dec
  case h_7 => rw [vimm] at dec ⊢; exact dec10_fields dec
  case h_8 => rw [vimm] at dec ⊢; exact dec11_fields dec
  case h_9 => rw [vimm] at dec ⊢; exact dec12_fields dec
  case h_10 => rw [vimm] at dec ⊢; exact dec13_fields dec
  case h_11 => exact dec20_fields dec
  case h_12 => exact dec21_fields dec
  case h_13 => exact dec30_fields dec
  case h_14 => exact dec31_fields dec
  case h_15 => exact dec32_fields dec
  case h_16 => exact dec3F_fields dec
end Sys2Proof
end

section
/-! Decoding what was encoded: the fields of a form are read as that form, opcode by opcode. -/

namespace Sys2Proof

open Opnd Fields

/-- An instruction of an opcode (Table 08-9). -/
def Instr.hasOpc (i : Instr) (n : Nat) : Bool := i.fields.any fun f => f.opc.toNat == n

/-! ## Reading back -/

theorem Fields.getLsbD_pack (f : Fields) (k : Nat) : f.pack.getLsbD k =
    (f.opc ++ f.fn ++ f.grd ++ f.la ++ f.hnt ++ f.d.pack ++ f.a.pack ++ f.b.pack ++ f.imm).getLsbD k := rfl


@[simp] theorem getLsbD_bit (b : Bool) : (bit b).getLsbD 0 = b := by cases b <;> rfl
@[simp] theorem getLsbD_append_low {v w k : Nat} {x : BitVec v} {y : BitVec w} (lt : k < w) :
    (x ++ y).getLsbD k = y.getLsbD k := by
  rw [BitVec.getLsbD_append, if_pos lt]
@[simp] theorem getLsbD_append_high {v w k : Nat} {x : BitVec v} {y : BitVec w} (le : w ≤ k) :
    (x ++ y).getLsbD k = x.getLsbD (k - w) := by
  rw [BitVec.getLsbD_append, if_neg (not_lt.2 le)]
@[simp] theorem getLsbD_setWidth_of_lt {v w k : Nat} {x : BitVec v} (lt : k < w) :
    (x.setWidth w).getLsbD k = x.getLsbD k := by
  simp [lt]
@[simp] theorem setWidth_append_low {v w k : Nat} {x : BitVec v} {y : BitVec w} (le : k ≤ w) :
    (x ++ y).setWidth k = y.setWidth k := by
  simp [BitVec.setWidth_append, le]

theorem need_eq_ite (c : Prop) [Decidable c] : need c = if c then some () else none := rfl

@[simp] theorem gi_mkF (h : Hdr) (opc fn : BitVec 8) (d a : Opnd) (b : GI) :
    (mkF h opc fn d a b.opnd b.immv).gi = some b :=
  gi_eq_some.2 ⟨rfl, rfl⟩
@[simp] theorem noImm_mkF (h : Hdr) (opc fn : BitVec 8) (d a b : Opnd) :
    (mkF h opc fn d a b 0#32).noImm = some () := rfl
@[simp] theorem immMask_mkF (h : Hdr) (opc fn : BitVec 8) (d a b : Opnd) (imm m : BitVec 32) :
    (mkF h opc fn d a b imm).immMask m = if imm &&& m = imm then some () else none := by simp [immMask, masked_iff]

@[simp] theorem high_fn : ∀ hi lo : BitVec 4, (hi ++ lo).toNat / 16 = hi.toNat := by decide

@[simp] theorem low_fn : ∀ hi lo : BitVec 4, (hi ++ lo).toNat % 16 = lo.toNat := by decide

@[simp] theorem op_fn : ∀ (op : BitVec 4) (o p : BitVec 2), (op ++ o ++ p).toNat / 16 = op.toNat := by decide

@[simp] theorem cmp_lt (c : Cond) : (c.code.setWidth 8).toNat < 8 := by cases c <;> decide

@[simp] theorem RMode.ofCode_zero : RMode.ofCode 0#3 = some .rne := rfl

@[simp] theorem Opnd.ofG_num (r : GReg) (m : BitVec 4) : (ofG r m).num = r := rfl
@[simp] theorem Opnd.ofG_mod (r : GReg) (m : BitVec 4) : (ofG r m).mod = m := rfl
@[simp] theorem Opnd.imm_num : Opnd.imm.num = 0#6 := rfl

@[simp] theorem feSize_low (w : Bool) : feSize (1#3 ++ bit w).toNat = some w := by cases w <;> rfl

@[simp] theorem ld_low (sx : Bool) (z : Sz) : (0#1 ++ bit sx ++ z.code).toNat < 8 := by cases sx <;> cases z <;> decide

@[simp] theorem st_low (z : Sz) : (0#2 ++ z.code).toNat < 4 := by cases z <;> decide

@[simp] theorem cinv_low (b : Bool) : (0#3 ++ bit b).toNat ≤ 1 := by cases b <;> decide

theorem AtOp.ofVcode_vcode {t : ETy} {op : AtOp} (ok : vamoOk t op = true) : AtOp.ofVcode op.vcode = some op := by
  cases op with
  | cas | cas2 | inc => exact absurd ok Bool.false_ne_true
  | _ => rfl

theorem PB.ne_of_ok {y : PB} (ok : y.ok = true) : y ≠ .pred ⟨0, false⟩ := by
  rintro rfl
  exact Bool.false_ne_true ok

theorem pb_mkF {h : Hdr} {opc fn : BitVec 8} {d a : Opnd} {y : PB} (ok : y.ok = true) :
    (mkF h opc fn d a y.opnd y.immv).pb = some y :=
  pb_of_opnd (PB.ne_of_ok ok) rfl rfl

/-! The readers of the vector forms. -/

section
variable (h : Hdr) (opc fn : BitVec 8) (d a b : Opnd) (immb : BitVec 16) (f2 : BitVec 8) (f1 : BitVec 4) (m : VMask)

@[simp] theorem vimm_mkF (x : VImm) : (mkF h opc fn d a b x.pack).vimm = x := VImm.unpack_pack x
@[simp] theorem vtyd_mkF (imm : BitVec 32) (r : VReg) (t : ETy) :
    (mkF h opc fn (ofV r t.code) a b imm).vtyd = some (r, t) :=
  vtyd_eq_some.2 rfl
@[simp] theorem gtyd_mkF (imm : BitVec 32) (r : GReg) (t : ETy) :
    (mkF h opc fn (ofG r t.code) a b imm).gtyd = some (r, t) :=
  gtyd_eq_some.2 rfl
@[simp] theorem vb_mkF (y : VB) : (mkF h opc fn d a y.opnd (VImm.pack ⟨y.immb, f2, f1, m⟩)).vb = some y :=
  vb_eq_some.2 ⟨rfl, by rw [vimm_mkF]⟩
@[simp] theorem vg_mkF (imm : BitVec 32) (y : VG) : (mkF h opc fn d a y.opnd imm).vg = some y := vg_eq_some.2 rfl
@[simp] theorem gi16_mkF (k : GI16) : (mkF h opc fn d a k.opnd (VImm.pack ⟨k.immb, f2, f1, m⟩)).gi16 = some k :=
  gi16_eq_some.2 ⟨rfl, by rw [vimm_mkF]⟩
@[simp] theorem noF_mkF : (mkF h opc fn d a b (VImm.pack ⟨immb, 0#8, 0#4, m⟩)).noF = some () :=
  noF_eq_some.2 (by rw [vimm_mkF]; exact ⟨rfl, rfl⟩)
@[simp] theorem noB_mkF : (mkF h opc fn d a zero (VImm.pack ⟨0#16, f2, f1, m⟩)).noB = some () :=
  noB_eq_some.2 ⟨rfl, by rw [vimm_mkF]; rfl⟩
end

theorem Fields.dec01_of_fields {i : Instr} {h : Hdr} {f : Fields} (hdr : i.hdr? = some h) (fields : i.fields = some f)
    (opc : i.hasOpc 0x01 = true) : f.dec01 h = some i := by
  cases i with
  | lea =>
    obtain rfl := Option.some.inj hdr
    obtain rfl := Option.some.inj fields
    rename_i b _
    cases b
    all_goals
      simp (disch := decide) [
        dec01, GI.opnd, GI.immv, ↓need_eq_ite, BitVec.extractLsb'_append_eq_of_le, -Nat.reduceAdd,
        -BitVec.getLsbD_eq_getElem]
  | add | sub | mul | mulh | mulhu | div | divu | rem | remu | and | or | xor | andn | orn | shl | shr | sar |
  rol | ror | min | max | minu | maxu | clz | ctz | popc | brev | bswap | sext | zext | bfx | bfi | sel | mov |
  movi | movhi =>
    obtain rfl := Option.some.inj hdr
    obtain rfl := Option.some.inj fields
    simp (disch := decide) [
      dec01, enc01, enc01u, enc01n, alu3, alu2, alu3n, ← sel_layout, -Nat.reduceAdd, -BitVec.getLsbD_eq_getElem]
  | pmov _ _ x => cases x <;> exact absurd opc Bool.false_ne_true
  | _ => exact absurd opc Bool.false_ne_true

theorem Fields.dec02_of_fields {i : Instr} {h : Hdr} {f : Fields} (hdr : i.hdr? = some h) (fields : i.fields = some f)
    (ok : i.fieldsOk = true) (opc : i.hasOpc 0x02 = true) : f.dec02 h = some i := by
  cases i with
  | pand | por | pxor =>
    obtain rfl := Option.some.inj hdr
    obtain rfl := Option.some.inj fields
    simp (disch := decide) [
      dec02, enc02p, pred3, -BitVec.toNat_setWidth, pb_mkF ok, -Nat.reduceAdd, -BitVec.getLsbD_eq_getElem]
  | cmp | pnot | pget =>
    obtain rfl := Option.some.inj hdr
    obtain rfl := Option.some.inj fields
    simp (disch := decide) [
      dec02, -BitVec.toNat_setWidth, ↓need_eq_ite, BitVec.extractLsb'_append_eq_of_le, -Nat.reduceAdd,
      -BitVec.getLsbD_eq_getElem]
  | pmov h d x =>
    cases x
    all_goals
      obtain rfl := Option.some.inj hdr
      obtain rfl := Option.some.inj fields
      simp (disch := decide) [
        dec02, -BitVec.toNat_setWidth, ↓need_eq_ite, -Nat.reduceAdd, -BitVec.getLsbD_eq_getElem]
  | _ => exact absurd opc Bool.false_ne_true

theorem Fields.dec03_of_fields {i : Instr} {h : Hdr} {f : Fields} (hdr : i.hdr? = some h) (fields : i.fields = some f)
    (opc : i.hasOpc 0x03 = true) : f.dec03 h = some i := by
  cases i with
  | br | brl | jmp | jmpl | ret | loop | brt | nop =>
    obtain rfl := Option.some.inj hdr
    obtain rfl := Option.some.inj fields
    simp (disch := decide) [
      dec03, -Nat.reduceAdd, -BitVec.getLsbD_eq_getElem]
  | pmov _ _ x => cases x <;> exact absurd opc Bool.false_ne_true
  | _ => exact absurd opc Bool.false_ne_true

theorem Fields.dec04_of_fields {i : Instr} {h : Hdr} {f : Fields} (hdr : i.hdr? = some h) (fields : i.fields = some f)
    (opc : i.hasOpc 0x04 = true) : f.dec04 h = some i := by
  cases i with
  | ld | st | ldp | stp | ldf | lde | stf | sete | pref | cflush | cinv | czero =>
    obtain rfl := Option.some.inj hdr
    obtain rfl := Option.some.inj fields
    simp (disch := decide) [
      dec04, enc04, -BitVec.toNat_append, ↓need_eq_ite, -Nat.reduceAdd, -BitVec.getLsbD_eq_getElem]
  | pmov _ _ x => cases x <;> exact absurd opc Bool.false_ne_true
  | _ => exact absurd opc Bool.false_ne_true

theorem Fields.dec05_of_fields {i : Instr} {h : Hdr} {f : Fields} (hdr : i.hdr? = some h) (fields : i.fields = some f)
    (opc : i.hasOpc 0x05 = true) : f.dec05 h = some i := by
  cases i with
  | aadd | amin | amax | aminu | amaxu | aand | aor | axor | aswp | acas | acas2 | afadd | ainc =>
    obtain rfl := Option.some.inj hdr
    obtain rfl := Option.some.inj fields
    simp (disch := decide) [
      dec05, enc05, AtOp.code, -BitVec.toNat_append, ↓need_eq_ite, BitVec.extractLsb'_append_eq_of_le,
      BitVec.extractLsb'_append_eq_of_add_le, -Nat.reduceAdd, -BitVec.getLsbD_eq_getElem]
  | pmov _ _ x => cases x <;> exact absurd opc Bool.false_ne_true
  | _ => exact absurd opc Bool.false_ne_true

theorem Fields.dec06_of_fields {i : Instr} {h : Hdr} {f : Fields} (hdr : i.hdr? = some h) (fields : i.fields = some f)
    (opc : i.hasOpc 0x06 = true) : f.dec06 h = some i := by
  cases i with
  | fence | waita | waitn | barset | bararr | barwait | chk | yield =>
    obtain rfl := Option.some.inj hdr
    obtain rfl := Option.some.inj fields
    simp (disch := decide) [
      dec06, ← low2_layout, ← bits4_layout, ↓need_eq_ite, BitVec.extractLsb'_append_eq_of_le,
      BitVec.extractLsb'_append_eq_of_add_le, -Nat.reduceAdd, -BitVec.getLsbD_eq_getElem]
  | pmov _ _ x => cases x <;> exact absurd opc Bool.false_ne_true
  | _ => exact absurd opc Bool.false_ne_true

theorem Fields.dec10_of_fields {i : Instr} {h : Hdr} {f : Fields} (hdr : i.hdr? = some h) (fields : i.fields = some f)
    (opc : i.hasOpc 0x10 = true) : f.dec10 h = some i := by
  cases i with
  | vadd | vsub | vmul | vmulh | vmin | vmax | vminu | vmaxu | vand | vor | vxor | vshl | vshr | vsar | vabs |
  vneg | vcmp | vsel | vpopc =>
    obtain rfl := Option.some.inj hdr
    obtain rfl := Option.some.inj fields
    simp (disch := decide) [
      dec10, encVI, encVI2, vi3, vi3s, vi2s, vi2, ↓need_eq_ite, BitVec.extractLsb'_append_eq_of_le, -Nat.reduceAdd,
      -BitVec.getLsbD_eq_getElem]
  | pmov _ _ x => cases x <;> exact absurd opc Bool.false_ne_true
  | _ => exact absurd opc Bool.false_ne_true

theorem Fields.dec11_of_fields {i : Instr} {h : Hdr} {f : Fields} (hdr : i.hdr? = some h) (fields : i.fields = some f)
    (opc : i.hasOpc 0x11 = true) : f.dec11 h = some i := by
  cases i with
  | vfadd | vfsub | vfmul | vfma | vfms | vfnma | vfdiv | vfsqrt | vfrcp | vfrsq | vfexp2 | vflog2 | vfmin |
  vfmax | vfcmp | vfclass | vfcvt | vfscl =>
    obtain rfl := Option.some.inj hdr
    obtain rfl := Option.some.inj fields
    simp (disch := decide) [
      dec11, encVF, encVF2, vf3, vf2, vi2, ↓need_eq_ite, BitVec.extractLsb'_append_eq_of_le, -Nat.reduceAdd,
      -BitVec.getLsbD_eq_getElem]
  | pmov _ _ x => cases x <;> exact absurd opc Bool.false_ne_true
  | _ => exact absurd opc Bool.false_ne_true

theorem Fields.dec12_of_fields {i : Instr} {h : Hdr} {f : Fields} (hdr : i.hdr? = some h) (fields : i.fields = some f)
    (opc : i.hasOpc 0x12 = true) : f.dec12 h = some i := by
  cases i with
  | vradd | vrmin | vrmax | vfradd | vfrmax | vperm | vslide | vbcast | vext | vins | vcmpr | vexpd | vzip |
  vunzip | viota | qand | qor | qxor | qnot | qcnt =>
    obtain rfl := Option.some.inj hdr
    obtain rfl := Option.some.inj fields
    simp (disch := decide) [
      dec12, encRed, encVP, red, vi2, ↓need_eq_ite, BitVec.extractLsb'_append_eq_of_le, -Nat.reduceAdd,
      -BitVec.getLsbD_eq_getElem]
  | pmov _ _ x => cases x <;> exact absurd opc Bool.false_ne_true
  | _ => exact absurd opc Bool.false_ne_true

theorem Fields.dec13_of_fields {i : Instr} {h : Hdr} {f : Fields} (hdr : i.hdr? = some h) (fields : i.fields = some f)
    (ok : i.fieldsOk = true) (opc : i.hasOpc 0x13 = true) : f.dec13 h = some i := by
  cases i with
  | vamo =>
    obtain rfl := Option.some.inj hdr
    obtain rfl := Option.some.inj fields
    have vcode := AtOp.ofVcode_vcode ok
    simp (disch := decide) [
      dec13, encVM, vcode, ↓need_eq_ite, BitVec.extractLsb'_append_eq_of_le, BitVec.extractLsb'_append_eq_of_add_le,
      -Nat.reduceAdd, -BitVec.getLsbD_eq_getElem]
  | vld | vst | vlds | vsts | vgath | vscat | vldf =>
    obtain rfl := Option.some.inj hdr
    obtain rfl := Option.some.inj fields
    simp (disch := decide) [
      dec13, encVM, ↓need_eq_ite, BitVec.extractLsb'_append_eq_of_le, -Nat.reduceAdd, -BitVec.getLsbD_eq_getElem]
  | pmov _ _ x => cases x <;> exact absurd opc Bool.false_ne_true
  | _ => exact absurd opc Bool.false_ne_true

theorem Fields.dec20_of_fields {i : Instr} {h : Hdr} {f : Fields} (hdr : i.hdr? = some h) (fields : i.fields = some f)
    (opc : i.hasOpc 0x20 = true) : f.dec20 h = some i := by
  cases i with
  | mma | mcnt | mdrain | mmerge | mzero | mld | mst | mscl | mwait | mcfg | mbcast | mqw =>
    obtain rfl := Option.some.inj hdr
    obtain rfl := Option.some.inj fields
    simp (disch := decide) [
      dec20, ← mma_layout, ← mcnt_layout, ← bit0_layout, ← mld_layout, ← mst_layout, ← bits4_layout, ← mcfg_layout,
      ← mbcast_layout, BitVec.extractLsb'_setWidth_of_le, BitVec.extractLsb'_append_eq_of_le,
      BitVec.extractLsb'_append_eq_of_add_le, -Nat.reduceAdd, -BitVec.getLsbD_eq_getElem]
  | pmov _ _ x => cases x <;> exact absurd opc Bool.false_ne_true
  | _ => exact absurd opc Bool.false_ne_true

theorem Fields.dec21_of_fields {i : Instr} {h : Hdr} {f : Fields} (hdr : i.hdr? = some h) (fields : i.fields = some f)
    (opc : i.hasOpc 0x21 = true) : f.dec21 h = some i := by
  cases i with
  | tdecl | trel | tfwd | town | tqry =>
    obtain rfl := Option.some.inj hdr
    obtain rfl := Option.some.inj fields
    simp (disch := decide) [
      dec21, ← low2_layout, ← bit0_layout, -Nat.reduceAdd, -BitVec.getLsbD_eq_getElem]
  | pmov _ _ x => cases x <;> exact absurd opc Bool.false_ne_true
  | _ => exact absurd opc Bool.false_ne_true

theorem Fields.dec30_of_fields {i : Instr} {h : Hdr} {f : Fields} (hdr : i.hdr? = some h) (fields : i.fields = some f)
    (opc : i.hasOpc 0x30 = true) : f.dec30 h = some i := by
  cases i with
  | cpy | cchain | ccancel | cqry | put | putv | ramo =>
    obtain rfl := Option.some.inj hdr
    obtain rfl := Option.some.inj fields
    simp (disch := decide) [
      dec30, putA, ← low2_layout, ← ccancel_layout, ← put_layout, ← putv_layout, ← ramo_layout, ↓need_eq_ite,
      BitVec.extractLsb'_setWidth_of_le, BitVec.extractLsb'_append_eq_of_le, BitVec.extractLsb'_append_eq_of_add_le,
      -Nat.reduceAdd, -BitVec.getLsbD_eq_getElem]
  | pmov _ _ x => cases x <;> exact absurd opc Bool.false_ne_true
  | _ => exact absurd opc Bool.false_ne_true

theorem Fields.dec31_of_fields {i : Instr} {h : Hdr} {f : Fields} (hdr : i.hdr? = some h) (fields : i.fields = some f)
    (opc : i.hasOpc 0x31 = true) : f.dec31 h = some i := by
  cases i with
  | send | sendv | pcfg | jcfg | jena | jdis | mtake | mreplay =>
    obtain rfl := Option.some.inj hdr
    obtain rfl := Option.some.inj fields
    simp (disch := decide) [
      dec31, msgImm, MsgImm.pack, ← low5_layout, ← low4_layout, ← mtake_layout, BitVec.extractLsb'_append_eq_of_le,
      BitVec.extractLsb'_append_eq_of_add_le, -Nat.reduceAdd, -BitVec.getLsbD_eq_getElem]
  | pmov _ _ x => cases x <;> exact absurd opc Bool.false_ne_true
  | _ => exact absurd opc Bool.false_ne_true

theorem Fields.dec32_of_fields {i : Instr} {h : Hdr} {f : Fields} (hdr : i.hdr? = some h) (fields : i.fields = some f)
    (opc : i.hasOpc 0x32 = true) : f.dec32 h = some i := by
  cases i with
  | spawn | joinw | carm | cdec | texit | sqcfg | stlcfg =>
    obtain rfl := Option.some.inj hdr
    obtain rfl := Option.some.inj fields
    simp (disch := decide) [
      dec32, ← low2_layout, ← joinw_layout, -Nat.reduceAdd, -BitVec.getLsbD_eq_getElem]
  | pmov _ _ x => cases x <;> exact absurd opc Bool.false_ne_true
  | _ => exact absurd opc Bool.false_ne_true

theorem Fields.dec3F_of_fields {i : Instr} {h : Hdr} {f : Fields} (hdr : i.hdr? = some h) (fields : i.fields = some f)
    (opc : i.hasOpc 0x3F = true) : f.dec3F h = some i := by
  cases i with
  | trap | rett | srd | swr | rdtime | brk | cxsave | cxload | kill | krevoke | enrg | halt | seqrd | ill =>
    obtain rfl := Option.some.inj hdr
    obtain rfl := Option.some.inj fields
    simp (disch := decide) [
      dec3F, ← bit0_layout, ← low2_layout, ← low4_layout, ← low12_layout, ← low16_layout, -Nat.reduceAdd,
      -BitVec.getLsbD_eq_getElem]
  | pmov _ _ x => cases x <;> exact absurd opc Bool.false_ne_true
  | _ => exact absurd opc Bool.false_ne_true

/-! ## Every opcode -/

/-- The opcodes of Table 08-9. -/
def opcodes : List Nat := [0x01, 0x02, 0x03, 0x04, 0x05, 0x06, 0x10, 0x11, 0x12, 0x13, 0x20, 0x21, 0x30, 0x31, 0x32, 0x3F]

/-- An instruction with a header has fields, which carry that header and an opcode of the table. -/
theorem Instr.fields_of_hdr {i : Instr} {h : Hdr} (hdr : i.hdr? = some h) :
    ∃ opc fn d a b imm, i.fields = some (mkF h opc fn d a b imm) ∧ opc.toNat ∈ opcodes := by
  cases i with
  | pmov _ _ x =>
    obtain rfl := Option.some.inj hdr
    cases x <;> exact ⟨_, _, _, _, _, _, rfl, by decide⟩
  | add | sub | mul | mulh | mulhu | div | divu | rem | remu | and | or | xor | andn | orn | shl | shr | sar |
  rol | ror | min | max | minu | maxu | clz | ctz | popc | brev | bswap | sext | zext | bfx | bfi | lea | sel |
  mov | movi | movhi | cmp | pand | por | pxor | pnot | pget | br | brl | jmp | jmpl | ret | loop | brt | nop |
  ld | st | ldp | stp | ldf | lde | stf | sete | pref | cflush | cinv | czero | aadd | amin | amax | aminu |
  amaxu | aand | aor | axor | aswp | acas | acas2 | afadd | ainc | fence | waita | waitn | barset | bararr |
  barwait | chk | yield | vadd | vsub | vmul | vmulh | vmin | vmax | vminu | vmaxu | vand | vor | vxor | vshl |
  vshr | vsar | vabs | vneg | vcmp | vsel | vpopc | vfadd | vfsub | vfmul | vfma | vfms | vfnma | vfdiv | vfsqrt
  | vfrcp | vfrsq | vfexp2 | vflog2 | vfmin | vfmax | vfcmp | vfclass | vfcvt | vfscl | vradd | vrmin | vrmax |
  vfradd | vfrmax | vperm | vslide | vbcast | vext | vins | vcmpr | vexpd | vzip | vunzip | viota | qand | qor |
  qxor | qnot | qcnt | vld | vst | vlds | vsts | vgath | vscat | vldf | vamo | mma | mcnt | mdrain | mmerge |
  mzero | mld | mst | mscl | mwait | mcfg | mbcast | mqw | tdecl | trel | tfwd | town | tqry | cpy | cchain |
  ccancel | cqry | put | putv | ramo | send | sendv | pcfg | jcfg | jena | jdis | mtake | mreplay | spawn |
  joinw | carm | cdec | texit | sqcfg | stlcfg | trap | rett | srd | swr | rdtime | brk | cxsave | cxload | kill
  | krevoke | enrg | halt | seqrd | ill =>
    obtain rfl := Option.some.inj hdr
    exact ⟨_, _, _, _, _, _, rfl, by decide⟩
  | _ => exact absurd hdr (Option.some_ne_none h).symm

/-- The fields of an instruction are read as that instruction, if it passes its own checks. -/
theorem Fields.form_of_fields {i : Instr} {h : Hdr} {f : Fields} (hdr : i.hdr? = some h) (fields : i.fields = some f)
    (ok : i.fieldsOk = true) : f.form h = some i := by
  have opc : i.hasOpc f.opc.toNat = true := by simp [Instr.hasOpc, fields]
  unfold form
  split
  case h_17 =>
    obtain ⟨_, fn, d, a, b, imm, fields', mem⟩ := Instr.fields_of_hdr hdr
    obtain rfl := Option.some.inj (fields.symm.trans fields')
    simp only [opcodes, List.mem_cons, List.not_mem_nil, or_false] at mem
    casesm* _ ∨ _
    all_goals exact absurd mem ‹_›
  all_goals
    rename_i number
    rw [number] at opc
  case h_1 => exact dec01_of_fields hdr fields opc
  case h_2 => exact dec02_of_fields hdr fields ok opc
  case h_3 => exact dec03_of_fields hdr fields opc
  case h_4 => exact dec04_of_fields hdr fields opc
  case h_5 => exact dec05_of_fields hdr fields opc
  case h_6 => exact dec06_of_fields hdr fields opc
  case h_7 => exact dec10_of_fields hdr fields opc
  case h_8 => exact dec11_of_fields hdr fields opc
  case h_9 => exact dec12_of_fields hdr fields opc
  case h_10 => exact dec13_of_fields hdr fields ok opc
  case h_11 => exact dec20_of_fields hdr fields opc
  case h_12 => exact dec21_of_fields hdr fields opc
  case h_13 => exact dec30_of_fields hdr fields opc
  case h_14 => exact dec31_of_fields hdr fields opc
  case h_15 => exact dec32_of_fields hdr fields opc
  case h_16 => exact dec3F_of_fields hdr fields opc

/-! ## Words -/

theorem Fields.unpack_pack (f : Fields) : Fields.unpack f.pack = f := by
  obtain ⟨opc, fn, grd, la, hnt, ⟨cd, nd, md⟩, ⟨ca, na, ma⟩, ⟨cb, nb, mb⟩, imm⟩ := f
  simp only [Fields.unpack, Opnd.unpack, Fields.mk.injEq, Opnd.mk.injEq]
  refine ⟨?_, ?_, ?_, ?_, ?_, ⟨?_, ?_, ?_⟩, ⟨?_, ?_, ?_⟩, ⟨?_, ?_, ?_⟩, ?_⟩
  all_goals
    refine BitVec.eq_of_getLsbD_eq fun i lt => ?_
    simp only [getLsbD_pack, Opnd.pack, BitVec.getLsbD_extractLsb', BitVec.getLsbD_append]
    interval_cases i <;> simp

theorem Fields.pack_unpack (w : InstrWord) : (Fields.unpack w).pack = w :=
  BitVec.eq_of_getLsbD_eq fun i lt => by
    simp only [getLsbD_pack, Fields.unpack, Opnd.pack, Opnd.unpack, BitVec.getLsbD_extractLsb', BitVec.getLsbD_append]
    interval_cases i <;> simp

/-! ## The decoder and the encoder -/

theorem decode_eq_some {w : InstrWord} {i : Instr} :
    decode w = some i ↔ ∃ h, (Fields.unpack w).hdr = some h ∧ (Fields.unpack w).form h = some i ∧ i.wf = true := by
  simp only [decode, decodeFields, do_eq_some, Option.ite_none_right_eq_some]
  exact ⟨fun ⟨h, hdr, j, form, wf, e⟩ => by cases e; exact ⟨h, hdr, form, wf⟩,
    fun ⟨h, hdr, form, wf⟩ => ⟨h, hdr, i, form, wf, rfl⟩⟩

theorem encode_eq_some {i : Instr} {w : InstrWord} :
    encode i = some w ↔ i.wf = true ∧ ∃ f, i.fields = some f ∧ f.pack = w := by
  simp [encode]

/-- A well-formed instruction has a header and passes its own checks (R176). -/
theorem Instr.hdr_of_wf {i : Instr} (wf : i.wf = true) : ∃ h, i.hdr? = some h ∧ i.fieldsOk = true := by
  unfold Instr.wf at wf
  split at wf
  · contradiction
  · next h hdr =>
    simp only [Bool.and_eq_true] at wf
    exact ⟨h, hdr, wf.2⟩

/-- Settles O53: every field of the word is read as it was written, and the form is the one that was written. -/
theorem decodeOfEncode : Obligations.DecodeOfEncode := by
  unfold Obligations.DecodeOfEncode
  intro i w enc
  obtain ⟨wf, f, fields, rfl⟩ := encode_eq_some.1 enc
  obtain ⟨h, hdr, ok⟩ := Instr.hdr_of_wf wf
  obtain ⟨opc, fn, d, a, b, imm, fields', -⟩ := Instr.fields_of_hdr hdr
  obtain rfl := Option.some.inj (fields.symm.trans fields')
  rw [decode_eq_some, Fields.unpack_pack]
  exact ⟨h, mkF_hdr h opc fn d a b imm, Fields.form_of_fields hdr fields ok, wf⟩

/-- Settles O54: the fields a form is read from are those it is written to, and every form with a header has fields. -/
theorem encodeOfDecode : Obligations.EncodeOfDecode := by
  unfold Obligations.EncodeOfDecode
  refine ⟨fun w i dec => ?_, fun i wf => ?_⟩
  · obtain ⟨h, hdr, form, wf⟩ := decode_eq_some.1 dec
    exact encode_eq_some.2 ⟨wf, _, Fields.fields_of_form hdr form, Fields.pack_unpack w⟩
  · obtain ⟨h, hdr, -⟩ := Instr.hdr_of_wf wf
    obtain ⟨opc, fn, d, a, b, imm, fields, -⟩ := Instr.fields_of_hdr hdr
    exact ⟨_, encode_eq_some.2 ⟨wf, _, fields, rfl⟩⟩

end Sys2Proof
end
